-- ==== Sys2Proof/Word.lean ====
section
/-! DEFINITION. The word types of the A960: bytes, 32-bit registers, 64-bit words. -/

namespace Sys2Proof

/-- A byte of memory (R3). -/
abbrev Byte := BitVec 8
/-- A 32-bit register word. -/
abbrev Word := BitVec 32
/-- A clause header, an instruction word, a register pair (R3, R27). -/
abbrev DWord := BitVec 64

end Sys2Proof
end

