-- ==== Sys2Proof/Shape/Basic.lean ====
section
/-! DEFINITION. Operand shapes of the instruction words, chapters 02 to 05: registers, guards and the
sub-operation fields of each entry as names (R36, R43 to R46, R76 to R135). -/

namespace Sys2Proof

/-- A V register number (R45). -/
abbrev VReg := Fin 256
/-- A K register number (R45). -/
abbrev KReg := Fin 64
/-- A predicate number; 7 is PT (R92). -/
abbrev PReg := Fin 8

/-- An operand that may be a V register or a K register (R92, R121). -/
inductive Src where
  | v (n : VReg)
  | k (n : KReg)
  deriving DecidableEq, Repr

/-- The common fields of an instruction word (R36). -/
structure Common where
  pred : PReg := 7
  pneg : Bool := false
  setf : Fin 16 := 15
  dist : Fin 8 := 0
  deriving DecidableEq, Repr

/-- IADD, ISUB, IMUL, IMULH, IMIN, IMAX (R97). -/
structure IntBin where
  wide : Bool
  sgn : Bool
  sat : Bool
  d : VReg
  a : Src
  b : Src
  deriving DecidableEq, Repr

/-- IMAD and IMADW (R97). -/
structure IntTri where
  wide : Bool
  sgn : Bool
  sat : Bool
  d : VReg
  a : Src
  b : Src
  c : Src
  deriving DecidableEq, Repr

/-- IABS (R97): SGN is always 1. -/
structure IabsOp where
  wide : Bool
  sat : Bool
  d : VReg
  a : Src
  deriving DecidableEq, Repr

/-- IADDI (R97), format RI. -/
structure IaddiOp where
  wide : Bool
  sgn : Bool
  sat : Bool
  d : VReg
  a : Src
  imm : BitVec 20
  deriving DecidableEq, Repr

/-- AND, OR, XOR with the NB inversion (R98). -/
structure LogBin where
  wide : Bool
  nb : Bool
  d : VReg
  a : Src
  b : Src
  deriving DecidableEq, Repr

/-- The bitwise operations (R98) and predicate combiners (R102, R124). -/
inductive BoolOp where
  | and | or | xor
  deriving DecidableEq, Repr

/-- LOPI (R98), format RI. -/
structure LopiOp where
  wide : Bool
  op : BoolOp
  ni : Bool
  d : VReg
  a : Src
  imm : BitVec 20
  deriving DecidableEq, Repr

/-- SHL, SHR, SAR with WRAP (R99); BFE with SGN (R100): one X bit. -/
structure FlagBin where
  wide : Bool
  flag : Bool
  d : VReg
  a : Src
  b : Src
  deriving DecidableEq, Repr

/-- BFI (R100). -/
structure BfiOp where
  wide : Bool
  d : VReg
  a : Src
  b : Src
  c : Src
  deriving DecidableEq, Repr

/-- POPC, CLZ, BREV (R101) and MOV (R105). -/
structure UnOp where
  wide : Bool
  d : VReg
  a : Src
  deriving DecidableEq, Repr

/-- Integer comparisons (R102). -/
inductive Cmp where
  | eq | ne | lt | le | gt | ge
  deriving DecidableEq, Repr

/-- ICMP (R102); `comb` is the combiner and Pc where COMB is 1. -/
structure IcmpOp where
  wide : Bool
  cmp : Cmp
  sgn : Bool
  comb : Option (BoolOp × PReg)
  d : PReg
  a : Src
  b : Src
  deriving DecidableEq, Repr

/-- SEL (R103). -/
structure SelOp where
  wide : Bool
  neg : Bool
  p : PReg
  d : VReg
  a : Src
  b : Src
  deriving DecidableEq, Repr

/-- The three forms of MOVI (R105). -/
inductive MoviKind where
  | n32 | i64 | n64
  deriving DecidableEq, Repr

/-- MOVI (R105), format I32. -/
structure MoviOp where
  kind : MoviKind
  d : VReg
  imm : BitVec 32
  deriving DecidableEq, Repr

/-- The index width of LEA (R106). -/
inductive LeaIdx where
  | full | n32 | i32
  deriving DecidableEq, Repr

/-- LEA (R106). -/
structure LeaOp where
  s : Fin 8
  idx : LeaIdx
  d : VReg
  a : Src
  b : Src
  deriving DecidableEq, Repr

/-- PLOP (R104). -/
structure PlopOp where
  lut : BitVec 8
  d : PReg
  a : PReg
  b : PReg
  c : PReg
  deriving DecidableEq, Repr

/-- SMOV as a read (R107). -/
structure SmovRead where
  wide : Bool
  sr : Fin 64
  d : VReg
  deriving DecidableEq, Repr

/-- SMOV as a write (R107). -/
structure SmovWrite where
  wide : Bool
  sr : Fin 64
  a : Src
  deriving DecidableEq, Repr

/-- KMOV in either direction (R108). -/
structure KmovOp where
  wide : Bool
  k : KReg
  v : VReg
  deriving DecidableEq, Repr

/-- ELECT (R109); `lane` is Vc where LANEOUT is 1. -/
structure ElectOp where
  d : PReg
  lane : Option VReg
  deriving DecidableEq, Repr

/-- The float types of R121. -/
inductive FType where
  | f32 | f64 | f16 | bf16 | f16x2 | bf16x2
  deriving DecidableEq, Repr

/-- Rounding mode names (R116). -/
inductive RMode where
  | rne | rtz | rdn | rup | rna
  deriving DecidableEq, Repr

/-- FADD, FSUB, FMUL (R122), FMIN, FMAX (R123), FSCL (R127). `sat` is X bit 7. -/
structure FpBin where
  ft : FType
  rm : RMode
  ftz : Bool
  sat : Bool
  d : VReg
  a : Src
  b : Src
  deriving DecidableEq, Repr

/-- FFMA (R122). -/
structure FpTri where
  ft : FType
  rm : RMode
  ftz : Bool
  sat : Bool
  d : VReg
  a : Src
  b : Src
  c : Src
  deriving DecidableEq, Repr

/-- FRCP to FCOS (R125), FRND (R126). `pi` is X bit 7. -/
structure FpUn where
  ft : FType
  rm : RMode
  ftz : Bool
  pi : Bool
  d : VReg
  a : Src
  deriving DecidableEq, Repr

/-- Float comparisons (R124). -/
inductive FCmp where
  | eq | ne | lt | le | gt | ge | un | ord
  deriving DecidableEq, Repr

/-- FCMP (R124): scalar types only. -/
structure FcmpOp where
  ft : FType
  cmp : FCmp
  ftz : Bool
  comb : Option (BoolOp × PReg)
  d : PReg
  a : Src
  b : Src
  deriving DecidableEq, Repr

/-- The format codes of R129. -/
inductive CFmt where
  | f32 | f64 | f16 | bf16 | f16x2 | bf16x2 | e5m2 | e4m3 | e3m2 | e2m3 | e2m1 | e8m0
  deriving DecidableEq, Repr

/-- FCLS (R128). -/
structure FclsOp where
  fmt : CFmt
  d : VReg
  a : Src
  deriving DecidableEq, Repr

/-- FCVT (R129); `b` supplies element 1 of an x2 destination. -/
structure FcvtOp where
  dt : CFmt
  st : CFmt
  rm : RMode
  sat : Bool
  ftz : Bool
  hi : Bool
  d : VReg
  a : Src
  b : Option Src
  deriving DecidableEq, Repr

/-- Scalar float types of F2I and I2F (R131, R132). -/
inductive SFmt where
  | f32 | f64 | f16 | bf16
  deriving DecidableEq, Repr

/-- Integer types of F2I and I2F (R131). -/
inductive IType where
  | n32 | i32 | n64 | i64
  deriving DecidableEq, Repr

/-- F2I and I2F (R131, R132). -/
structure CvtIntOp where
  f : SFmt
  i : IType
  rm : RMode
  d : VReg
  a : Src
  deriving DecidableEq, Repr

/-- Element formats of FDOT (R133). -/
inductive DotFmt where
  | f16x2 | bf16x2 | e5m2 | e4m3 | e3m2 | e2m3 | e2m1
  deriving DecidableEq, Repr

/-- FDOT (R133). -/
structure FdotOp where
  st : DotFmt
  rm : RMode
  ftz : Bool
  d : VReg
  a : Src
  b : Src
  c : Src
  deriving DecidableEq, Repr

/-- Block element formats of BQNT and BDQ (R134). -/
inductive EFmt where
  | e5m2 | e4m3 | e3m2 | e2m3 | e2m1
  deriving DecidableEq, Repr

/-- BQNT.scale (R134). -/
structure BqntScale where
  ef : EFmt
  d : VReg
  a : Src
  deriving DecidableEq, Repr

/-- BQNT of an element (R134). -/
structure BqntElem where
  ef : EFmt
  rm : RMode
  sat : Bool
  d : VReg
  a : Src
  b : Src
  deriving DecidableEq, Repr

/-- BDQ (R135). -/
structure BdqOp where
  ef : EFmt
  rm : RMode
  d : VReg
  a : Src
  b : Src
  deriving DecidableEq, Repr

/-- SHFL modes (R87). -/
inductive ShflMode where
  | idx | up | down | xor
  deriving DecidableEq, Repr

/-- SHFL (R87); `fill` is C where FILL is 1. -/
structure ShflOp where
  mode : ShflMode
  wide : Bool
  d : VReg
  a : VReg
  b : Src
  fill : Option Src
  deriving DecidableEq, Repr

/-- VOTE (R88): the destination is a predicate for ANY and ALL, a pair for BALLOT. -/
inductive VoteDst where
  | any (d : PReg)
  | all (d : PReg)
  | ballot (d : VReg)
  deriving DecidableEq, Repr

structure VoteOp where
  dst : VoteDst
  fill : Bool
  p : PReg
  deriving DecidableEq, Repr

/-- Cross-lane types (R86). -/
inductive LType where
  | n32 | i32 | f32 | n64 | i64 | f64
  deriving DecidableEq, Repr

/-- Reduction operations (R86). -/
inductive RedOp where
  | add | min | max | and | or | xor
  deriving DecidableEq, Repr

/-- LRED and LSCAN (R89); `excl` is zero in LRED. -/
structure FoldOp where
  op : RedOp
  ty : LType
  excl : Bool
  d : VReg
  a : VReg
  fill : Option Src
  deriving DecidableEq, Repr

/-- MATCH (R90). -/
structure MatchOp where
  wide : Bool
  d : VReg
  a : VReg
  deriving DecidableEq, Repr

/-- JTEST forms (R83). -/
inductive JtestKind where
  | inMask | done | empty
  deriving DecidableEq, Repr

end Sys2Proof
end

