-- ==== Sys2Proof/Machine/Num.lean ====
section
/-! DEFINITION. Number formats and the single rounding of 05_float.md (R110 to R118): every value is an exact
integer or rational until `roundRat` narrows it once. -/

namespace Sys2Proof.Machine

/-- Bits [h:l] of x as an unsigned number (R3, R7). -/
def bits (x h l : Nat) : Nat := (x >>> l) % 2 ^ (h + 1 - l)

/-- Bit k of x. -/
def bit (x k : Nat) : Bool := (x >>> k) % 2 == 1

/-- The signed number that the low n bits of x denote in two's complement. -/
def toSigned (n x : Nat) : Int := if bit x (n - 1) then (x % 2 ^ n : Nat) - (2 ^ n : Nat) else (x % 2 ^ n : Nat)

/-- The n-bit two's-complement pattern of an integer. -/
def ofSigned (n : Nat) (x : Int) : Nat := (x % (2 ^ n : Nat)).toNat

/-- 1 for true. -/
def b2n (b : Bool) : Nat := if b then 1 else 0

/-- The sticky float exception flags of R119. -/
structure Flags where
  nv : Bool := false
  dz : Bool := false
  ovf : Bool := false
  uf : Bool := false
  nx : Bool := false
  deriving DecidableEq, Repr

/-- No flag raised. -/
def noFlags : Flags := {}
/-- Only invalid raised. -/
def nvFlag : Flags := { nv := true }

/-- The OR of two flag sets. -/
def orFlags (a b : Flags) : Flags :=
  { nv := a.nv || b.nv, dz := a.dz || b.dz, ovf := a.ovf || b.ovf, uf := a.uf || b.uf, nx := a.nx || b.nx }

/-- FXF bits 4:0 of a flag set (R119). -/
def flagBits (f : Flags) : Nat := b2n f.nv + 2 * b2n f.dz + 4 * b2n f.ovf + 8 * b2n f.uf + 16 * b2n f.nx

/-- How a format encodes NaN (R110, R111): IEEE with signalling NaNs, E5M2 (every NaN quiet),
E4M3 (S.1111.111 only), or none. -/
inductive NanKind where
  | ieee | quietOnly | allOnes | none
  deriving DecidableEq, Repr

/-- A floating-point format of R110 or R111. -/
structure Fmt where
  ebits : Nat
  mbits : Nat
  bias : Nat
  nan : NanKind
  deriving DecidableEq, Repr

def f64 : Fmt := ⟨11, 52, 1023, .ieee⟩
def f32 : Fmt := ⟨8, 23, 127, .ieee⟩
def f16 : Fmt := ⟨5, 10, 15, .ieee⟩
def bf16 : Fmt := ⟨8, 7, 127, .ieee⟩
def e5m2 : Fmt := ⟨5, 2, 15, .quietOnly⟩
def e4m3 : Fmt := ⟨4, 3, 7, .allOnes⟩
def e3m2 : Fmt := ⟨3, 2, 3, .none⟩
def e2m3 : Fmt := ⟨2, 3, 1, .none⟩
def e2m1 : Fmt := ⟨2, 1, 1, .none⟩

/-- The width of a format in bits. -/
def fmtWidth (f : Fmt) : Nat := 1 + f.ebits + f.mbits
/-- Whether the format has infinities (R110, R111). -/
def fmtHasInf (f : Fmt) : Bool := f.nan == .ieee || f.nan == .quietOnly
/-- Whether the format has a NaN. -/
def fmtHasNan (f : Fmt) : Bool := f.nan != .none
/-- Binary64, binary32, binary16 and bfloat16 are wide (R110, R117). -/
def fmtWide (f : Fmt) : Bool := f.nan == .ieee
/-- The magnitude bits of infinity, in a format that has it. -/
def infBits (f : Fmt) : Nat := (2 ^ f.ebits - 1) * 2 ^ f.mbits
/-- The sign bit's weight. -/
def signBit (f : Fmt) : Nat := 2 ^ (f.ebits + f.mbits)
/-- The magnitude bits of the largest finite value (R110, R111). -/
def maxBits (f : Fmt) : Nat :=
  match f.nan with
  | .ieee | .quietOnly => infBits f - 1
  | .allOnes => signBit f - 2
  | .none => signBit f - 1
/-- The canonical quiet NaN of R115; +0 in a format that has none. -/
def canonNan (f : Fmt) : Nat :=
  match f.nan with
  | .ieee => infBits f + 2 ^ (f.mbits - 1)
  | .quietOnly => infBits f + 2
  | .allOnes => signBit f - 1
  | .none => 0

/-- A decoded value: a NaN with its signalling mark, an infinity, or (-1)^neg * m * 2^e. -/
inductive FVal where
  | nan (sig : Bool)
  | inf (neg : Bool)
  | fin (neg : Bool) (m : Nat) (e : Int)
  deriving DecidableEq, Repr

/-- The value of a bit pattern of a format (R110, R111). -/
def decodeF (f : Fmt) (x : Nat) : FVal :=
  let s := bit x (f.ebits + f.mbits)
  let ex := bits x (f.ebits + f.mbits - 1) f.mbits
  let m := x % 2 ^ f.mbits
  let num := if ex = 0 then FVal.fin s m (1 - (f.bias : Int) - f.mbits)
    else .fin s (2 ^ f.mbits + m) ((ex : Int) - f.bias - f.mbits)
  match f.nan with
  | .ieee => if ex = 2 ^ f.ebits - 1 then (if m = 0 then .inf s else .nan (m < 2 ^ (f.mbits - 1))) else num
  | .quietOnly => if ex = 2 ^ f.ebits - 1 then (if m = 0 then .inf s else .nan false) else num
  | .allOnes => if ex = 2 ^ f.ebits - 1 ∧ m = 2 ^ f.mbits - 1 then .nan false else num
  | .none => num

def isNan : FVal → Bool
  | .nan _ => true
  | _ => false
def isSig : FVal → Bool
  | .nan s => s
  | _ => false
def isInf : FVal → Bool
  | .inf _ => true
  | _ => false
def isZero : FVal → Bool
  | .fin _ m _ => m == 0
  | _ => false
def isNeg : FVal → Bool
  | .nan _ => false
  | .inf s => s
  | .fin s _ _ => s
def isFin : FVal → Bool
  | .fin .. => true
  | _ => false

/-- Whether a bit pattern is a nonzero subnormal of its format. -/
def isSubnormal (f : Fmt) (x : Nat) : Bool :=
  bits x (f.ebits + f.mbits - 1) f.mbits == 0 && x % 2 ^ f.mbits != 0

/-- A subnormal pattern becomes the zero of its sign (R117). -/
def flushF (f : Fmt) (x : Nat) : Nat :=
  if isSubnormal f x then (if bit x (f.ebits + f.mbits) then signBit f else 0) else x

/-- The mode of a code of R116. -/
def rmodeOfCode : Nat → Option RMode
  | 0 => some .rne
  | 1 => some .rtz
  | 2 => some .rdn
  | 3 => some .rup
  | 4 => some .rna
  | _ => none

def rmodeCode : RMode → Nat
  | .rne => 0
  | .rtz => 1
  | .rdn => 2
  | .rup => 3
  | .rna => 4

/-- Whether quotient q with remainder r below d is rounded away from zero (R116 step 1). -/
def roundUp (mode : RMode) (neg : Bool) (q r d : Nat) : Bool :=
  match mode with
  | .rne => decide (2 * r > d) || (decide (2 * r = d) && q % 2 == 1)
  | .rtz => false
  | .rdn => neg && r != 0
  | .rup => !neg && r != 0
  | .rna => decide (2 * r ≥ d)

/-- x * 2^k as numerator and denominator, for k of either sign. -/
def scale2 (num den : Nat) (k : Int) : Nat × Nat :=
  if k ≥ 0 then (num <<< k.toNat, den) else (num, den <<< (-k).toNat)

/-- floor(log2(num/den)) for positive num and den. -/
def floorLog2 (num den : Nat) : Int :=
  let l : Int := (Nat.log2 num : Int) - Nat.log2 den
  let p := scale2 num den (-l)
  if p.1 < p.2 then l - 1 else l

/-- num/den in units of 2^u, rounded under the mode: the integer and whether it is inexact. -/
def roundUnits (mode : RMode) (neg : Bool) (num den : Nat) (u : Int) : Nat × Bool :=
  let p := scale2 num den (-u)
  let q := p.1 / p.2
  let r := p.1 % p.2
  (q + b2n (roundUp mode neg q r p.2), r != 0)

/-- Round(x, fmt, mode) of R116 for x = (-1)^neg * num/den, num and den positive: the bits and the flags.
`sat` is `.sat`: every overflow delivers the largest finite value. -/
def roundRat (f : Fmt) (mode : RMode) (sat neg : Bool) (num den : Nat) : Nat × Flags :=
  let emin : Int := 1 - (f.bias : Int)
  let ex := floorLog2 num den
  let u := max ex emin - f.mbits
  let qi := roundUnits mode neg num den u
  let mag := ((u + f.mbits + f.bias - 1).toNat) * 2 ^ f.mbits + qi.1
  let s := if neg then signBit f else 0
  if mag > maxBits f then
    let fl : Flags := { ovf := true, nx := true }
    if sat then (s + maxBits f, fl)
    else match f.nan with
      | .none => (s + maxBits f, fl)
      | .allOnes => (canonNan f, fl)
      | .ieee | .quietOnly =>
        let toMax := match mode with
          | .rtz => true
          | .rdn => !neg
          | .rup => neg
          | .rne | .rna => false
        (s + (if toMax then maxBits f else infBits f), fl)
  else
    let u2 := ex - f.mbits
    let tiny := decide (ex < emin) && decide ((roundUnits mode neg num den u2).1 < 2 ^ ((emin - u2).toNat))
    (s + mag, { uf := tiny && qi.2, nx := qi.2 })

/-- Round(x, fmt, mode) of (-1)^neg * m * 2^e, m positive. -/
def roundDy (f : Fmt) (mode : RMode) (sat neg : Bool) (m : Nat) (e : Int) : Nat × Flags :=
  let p := scale2 m 1 e
  roundRat f mode sat neg p.1 p.2

/-- The zero of a sign. -/
def zeroF (f : Fmt) (neg : Bool) : Nat := if neg then signBit f else 0
/-- The infinity of a sign. -/
def infF (f : Fmt) (neg : Bool) : Nat := infBits f + zeroF f neg

/-- A dyadic number m * 2^e, exact. -/
structure Dy where
  m : Int
  e : Int
  deriving DecidableEq, Repr

def dyZero : Dy := ⟨0, 0⟩
def dyAdd (a b : Dy) : Dy :=
  if a.m = 0 then b else if b.m = 0 then a else
  let e := min a.e b.e
  ⟨a.m * (2 ^ (a.e - e).toNat : Nat) + b.m * (2 ^ (b.e - e).toNat : Nat), e⟩
def dyNeg (a : Dy) : Dy := ⟨-a.m, a.e⟩
def dySub (a b : Dy) : Dy := dyAdd a (dyNeg b)
def dyMul (a b : Dy) : Dy := ⟨a.m * b.m, a.e + b.e⟩
def dyOfInt (n : Int) : Dy := ⟨n, 0⟩
/-- a < b as reals. -/
def dyLt (a b : Dy) : Bool := (dySub a b).m < 0
def dyLe (a b : Dy) : Bool := (dySub a b).m ≤ 0
/-- The dyadic of a finite value; zero for a NaN or an infinity. -/
def dyOf : FVal → Dy
  | .fin s m e => ⟨if s then -(m : Int) else m, e⟩
  | _ => dyZero

/-- Round an exact dyadic; an exact zero has the given sign. -/
def roundDyad (f : Fmt) (mode : RMode) (sat zneg : Bool) (d : Dy) : Nat × Flags :=
  if d.m = 0 then (zeroF f zneg, noFlags) else roundDy f mode sat (d.m < 0) d.m.natAbs d.e

/-- Round the exact quotient n/d of dyadics, d nonzero; an exact zero is +0. -/
def roundQuot (f : Fmt) (mode : RMode) (n d : Dy) : Nat × Flags :=
  if n.m = 0 then (0, noFlags) else
  let p := scale2 n.m.natAbs d.m.natAbs (n.e - d.e)
  roundRat f mode false (decide (n.m < 0) != decide (d.m < 0)) p.1 p.2

/-- The sign of an exact zero sum of finite x and y (R118): the common sign of two zeros of one sign,
else +0, or -0 under `.rdn`. -/
def zeroSumNeg (mode : RMode) (xneg yneg : Bool) : Bool :=
  if xneg == yneg then xneg else mode == .rdn

/-- The floor of the square root of n, by one bit per step. -/
def isqrtAux : Nat → Nat → Nat → Nat
  | 0, _, r => r
  | k + 1, n, r =>
    let t := r + 2 ^ k
    isqrtAux k n (if t * t ≤ n then t else r)

def isqrt (n : Nat) : Nat := isqrtAux (Nat.log2 n / 2 + 1) n 0

/-- The square root of num/den as a rational that rounds as the exact root does: exact when the root is a
dyadic of at most k fraction bits, else the midpoint of the enclosing interval of width 2^-k. -/
def sqrtRat (num den k : Nat) : Nat × Nat :=
  let n := (num <<< (2 * k)) / den
  let q := isqrt n
  if q * q * den = num <<< (2 * k) then (q, 2 ^ k) else (2 * q + 1, 2 ^ (k + 1))

/-- x clamped to [lo, hi]. -/
def clampInt (lo hi x : Int) : Int := max lo (min hi x)

end Sys2Proof.Machine
end

