-- ==== Sys2Proof/Shape/Memory.lean ====
section
/-! DEFINITION. Operand shapes of chapter 06_memory.md: loads, stores, fences, cache and monitor instructions
(R140, R165 to R175). -/

namespace Sys2Proof

/-- The five spaces of R17. -/
inductive Space where
  | mem | lane | core | band | chip
  deriving DecidableEq, Repr

/-- Access widths of R140. -/
inductive Width where
  | n8 | n16 | n32 | n64
  deriving DecidableEq, Repr

/-- Full-empty qualifiers of R43. -/
inductive Feq where
  | ignore | wfull | take
  deriving DecidableEq, Repr

/-- LD (R165). `reuse` and `inv` belong to `.mem`, `feq` to the other spaces. -/
structure LdOp where
  space : Space
  w : Width
  reuse : Fin 8
  inv : Bool
  feq : Feq
  data : VReg
  base : Src
  off : BitVec 18
  deriving DecidableEq, Repr

/-- ST and STT (R167, R168). -/
structure StOp where
  space : Space
  w : Width
  reuse : Fin 8
  data : VReg
  base : Src
  off : BitVec 18
  deriving DecidableEq, Repr

/-- PREF (R169). -/
structure PrefOp where
  l2 : Bool
  reuse : Fin 8
  base : Src
  off : BitVec 18
  deriving DecidableEq, Repr

/-- IPREF, IPIN, IUNPIN (R170). -/
structure IprefOp where
  n : Fin 8
  tgt : BitVec 32
  deriving DecidableEq, Repr

/-- Scopes of R154. -/
inductive Scope where
  | team | band | chip | sys
  deriving DecidableEq, Repr

/-- The address of a CFLUSH form (R172). -/
structure FlushOp where
  base : Src
  off : BitVec 18
  deriving DecidableEq, Repr

/-- FESET and FECLR (R173): 2^n granules. -/
structure FeOp where
  space : Space
  n : Fin 4
  base : Src
  off : BitVec 18
  deriving DecidableEq, Repr

/-- MONITOR (R174). -/
structure MonOp where
  space : Space
  base : Src
  off : BitVec 18
  deriving DecidableEq, Repr

end Sys2Proof
end

