-- ==== Sys2Proof/Shape/Engine.lean ====
section
/-! DEFINITION. Operand shapes of chapters 10_matrix.md to 15_watch.md (R276 to R410). -/

namespace Sys2Proof

/-- MMZERO (R278). -/
structure MmzeroOp where
  n : Fin 32
  pair : Bool
  deriving DecidableEq, Repr

/-- MMLD (R278); `ew` is C where EW is set. -/
structure MmldOp where
  n : Fin 32
  pair : Bool
  a : Src
  b : Src
  ew : Option Src
  deriving DecidableEq, Repr

/-- MMST (R279); `bar` is D where BAR is set. -/
structure MmstOp where
  n : Fin 32
  mem : Bool
  a : Src
  b : Src
  bar : Option Src
  deriving DecidableEq, Repr

/-- MMRD (R280): 2^nw words. -/
structure MmrdOp where
  n : Fin 32
  nw : Fin 4
  d : VReg
  b : Src
  deriving DecidableEq, Repr

/-- MMSTAT (R282). -/
structure MmstatOp where
  clr : Bool
  d : VReg
  deriving DecidableEq, Repr

/-- ATTR (R306). -/
structure AttrOp where
  deriv : Bool
  d : VReg
  b : Src
  deriving DecidableEq, Repr

/-- FLCFG.set (R308). -/
structure FlcfgSet where
  slot : Fin 4
  mem : Bool
  a : Src
  deriving DecidableEq, Repr

/-- SRC of FLINS (R304). -/
inductive FlSrc where
  | rast | splat | ray
  deriving DecidableEq, Repr

/-- FLINS (R309); `px` is SRC and C where PX is set. -/
structure FlinsOp where
  slot : Fin 4
  px : Option (FlSrc × Src)
  d : PReg
  a : Src
  b : VReg
  deriving DecidableEq, Repr

/-- FLRES and FLRES.clr (R310). -/
structure FlresOp where
  slot : Fin 4
  d : VReg
  a : Src
  deriving DecidableEq, Repr

/-- FLRD (R311). -/
structure FlrdOp where
  slot : Fin 4
  d : VReg
  a : Src
  b : Src
  deriving DecidableEq, Repr

/-- RAYBOX and RAYTRI (R331); `core` is SP. -/
structure RayOp where
  core : Bool
  d : VReg
  a : Src
  b : VReg
  deriving DecidableEq, Repr

/-- WGEMIT (R351); `lane` is SP. -/
structure WgemitOp where
  lane : Bool
  a : Src
  b : Src
  deriving DecidableEq, Repr

/-- WGDONE and DQPUSH (R351). -/
structure HandleOp where
  d : PReg
  a : Src
  deriving DecidableEq, Repr

/-- DQPOP (R351). -/
structure DqpopOp where
  d : VReg
  p : PReg
  deriving DecidableEq, Repr

/-- DQSTEAL (R351); no victim is ANY. -/
structure DqstealOp where
  victim : Option Src
  d : VReg
  p : PReg
  deriving DecidableEq, Repr

/-- QUIESCE.arm (R351). -/
structure QuiesceArm where
  a : Src
  b : Src
  c : Src
  deriving DecidableEq, Repr

/-- QUIESCE.rd (R351). -/
structure QuiesceRd where
  d : VReg
  a : Src
  deriving DecidableEq, Repr

/-- TRAP (R378). -/
structure TrapOp where
  code : BitVec 8
  imm : BitVec 32
  deriving DecidableEq, Repr

/-- SRD (R379). -/
structure SrdOp where
  wide : Bool
  num : Fin 64
  tgt : Bool
  d : VReg
  deriving DecidableEq, Repr

/-- SWR (R379). -/
structure SwrOp where
  wide : Bool
  num : Fin 64
  tgt : Bool
  a : Src
  deriving DecidableEq, Repr

/-- RESUME on a named counter (R381). -/
structure ResumeOp where
  a : Src
  b : VReg
  deriving DecidableEq, Repr

/-- CONESET (R402). -/
structure ConesetOp where
  n : Fin 16
  d : PReg
  a : Src
  b : Src
  c : Src
  deriving DecidableEq, Repr

/-- A thread selector of HALT (R401). -/
structure HaltSel where
  tid : BitVec 12
  crew : Fin 8
  deriving DecidableEq, Repr

/-- The target of HALT.rel: one thread, or ALL with the ignored low bits of the selector. -/
inductive RelSel where
  | thr (s : HaltSel)
  | all (s : HaltSel)
  deriving DecidableEq, Repr

/-- INSPR (R407); d is the destination, p the status predicate. -/
structure InsprOp where
  wide : Bool
  d : VReg
  a : Src
  b : Src
  p : PReg
  deriving DecidableEq, Repr

/-- INSPW (R408). -/
structure InspwOp where
  wide : Bool
  d : PReg
  a : Src
  b : Src
  c : Src
  deriving DecidableEq, Repr

/-- STEP (R409). -/
structure StepOp where
  d : PReg
  a : Src
  deriving DecidableEq, Repr

/-- TMARK (R410). -/
structure TmarkOp where
  cls : BitVec 12
  imm : BitVec 32
  deriving DecidableEq, Repr

end Sys2Proof
end

