-- ==== Sys2Proof/Shape/Sync.lean ====
section
/-! DEFINITION. Operand shapes of chapters 07_atomics.md, 08_sync.md and 09_copy.md (R179 to R247). -/

namespace Sys2Proof

/-- OPA of the plain atomics (R179). -/
inductive AtomFn where
  | add | min | max | and | or | xor | exch
  deriving DecidableEq, Repr

/-- TYPE of the plain atomics (R179). -/
inductive AtomTy where
  | n32 | i32 | f32 | n64 | i64 | f16x2 | bf16x2
  deriving DecidableEq, Repr

/-- ATOM (R181). -/
structure AtomOp where
  fn : AtomFn
  ty : AtomTy
  space : Space
  d : VReg
  a : Src
  b : Src
  deriving DecidableEq, Repr

/-- ATOMCAS (R183): `.n32` or `.n64`. -/
structure CasOp where
  wide : Bool
  space : Space
  d : VReg
  a : Src
  b : Src
  c : Src
  deriving DecidableEq, Repr

/-- RED (R182). -/
structure RedOpnd where
  fn : AtomFn
  ty : AtomTy
  space : Space
  a : Src
  b : Src
  deriving DecidableEq, Repr

/-- TY of XADD (R188). -/
inductive XTy where
  | f32 | bf16 | f16
  deriving DecidableEq, Repr

/-- XADD (R188); `chip` selects `.chip`, else `.mem`. -/
structure XaddOp where
  ty : XTy
  chip : Bool
  a : Src
  b : Src
  deriving DecidableEq, Repr

/-- XREAD (R189); `wide` also returns the status. -/
structure XreadOp where
  wide : Bool
  chip : Bool
  d : VReg
  a : Src
  deriving DecidableEq, Repr

/-- XCLR and XCLR.line (R190). -/
structure XclrOp where
  chip : Bool
  a : Src
  deriving DecidableEq, Repr

/-- GLAZE (R198). -/
structure GlazeOp where
  chip : Bool
  nt : Bool
  d : VReg
  a : Src
  b : VReg
  c : Src
  deriving DecidableEq, Repr

/-- GLZINS (R199). -/
structure GlzinsOp where
  d : VReg
  a : Src
  c : Src
  deriving DecidableEq, Repr

/-- GLZQ (R200). -/
structure GlzqOp where
  d : VReg
  c : Src
  deriving DecidableEq, Repr

/-- SCOPE of a barrier's participants (R207). -/
inductive BScope where
  | team | band | span
  deriving DecidableEq, Repr

/-- BARI (R210, R211); d = 7 writes no predicate. -/
structure BariOp where
  space : Space
  scope : BScope
  d : PReg
  a : Src
  b : Src
  c : Src
  deriving DecidableEq, Repr

/-- BARA (R210, R212). -/
structure BaraOp where
  space : Space
  ret : Option VReg
  a : Src
  cnt : Option Src
  deriving DecidableEq, Repr

/-- BARW and BART (R213, R214). -/
structure BarwOp where
  space : Space
  d : PReg
  a : Src
  b : Src
  deriving DecidableEq, Repr

/-- BART.poison (R214). -/
structure BartPOp where
  space : Space
  d : PReg
  a : Src
  deriving DecidableEq, Repr

/-- BARP (R214). -/
structure BarpOp where
  space : Space
  a : Src
  deriving DecidableEq, Repr

/-- QCFG.set (R219). -/
structure QcfgSet where
  q : Fin 32
  a : Src
  deriving DecidableEq, Repr

/-- QCFG.grant (R219). -/
structure QcfgGrant where
  q : Fin 32
  b : Src
  deriving DecidableEq, Repr

/-- QCFG.stat (R219). -/
structure QcfgStat where
  q : Fin 32
  d : VReg
  deriving DecidableEq, Repr

/-- QPUSH (R220): `v` is Vs. QPOP (R221): `v` is Vd. -/
structure QueueOp where
  q : Fin 32
  v : VReg
  deriving DecidableEq, Repr

/-- QTRY (R221). -/
structure QtryOp where
  q : Fin 32
  d : VReg
  p : PReg
  deriving DecidableEq, Repr

/-- SQADD and SQWAIT (R224). -/
structure SqOp where
  scope : Scope
  wide : Bool
  a : Src
  b : Src
  deriving DecidableEq, Repr

/-- SQRD (R224). -/
structure SqrdOp where
  scope : Scope
  d : VReg
  a : Src
  deriving DecidableEq, Repr

/-- CPL (R227). -/
structure CplOp where
  size : Fin 4
  dsp : Space
  ssp : Space
  d : Src
  a : Src
  b : Src
  deriving DecidableEq, Repr

/-- CPT (R236, R237); `st` is DIR. -/
structure CptOp where
  slot : Fin 32
  st : Bool
  bar : Bool
  post : Bool
  d : Src
  a : VReg
  b : Src
  deriving DecidableEq, Repr

/-- CPM and CPG (R238, R239). -/
structure CpmOp where
  slot : Fin 32
  bar : Bool
  post : Bool
  d : Src
  a : VReg
  b : Src
  c : Src
  deriving DecidableEq, Repr

/-- CHKW (R241). -/
structure ChkwOp where
  a : Src
  b : VReg
  deriving DecidableEq, Repr

/-- CHKT (R241). -/
structure ChktOp where
  d : PReg
  a : Src
  b : VReg
  deriving DecidableEq, Repr

/-- TLOAD (R234). -/
structure TloadOp where
  slot : Fin 32
  a : Src
  deriving DecidableEq, Repr

end Sys2Proof
end

