-- ==== Sys2Proof/Shape/Events.lean ====
section
/-! DEFINITION. Operands of the event rows of the opcode table: which agent moves, the choices the spec leaves open
(R11) and the data that comes from outside the device. Teams, contexts, spans, lots and pending operations are named
by the model's identifiers. -/

namespace Sys2Proof

/-- A thread: its team and its index in the team's list of threads. -/
structure ThRef where
  team : Nat
  thr : Nat
  deriving DecidableEq, Repr

/-- A pending operation of a thread. -/
structure PendRef where
  team : Nat
  thr : Nat
  id : Nat
  deriving DecidableEq, Repr

/-- A clause start: the group's members (R60), or a held group's (R67). -/
structure ClauseIssueOp where
  team : Nat
  crew : Fin 8
  members : List Nat
  deriving DecidableEq, Repr

/-- The completion of a flagged operation. `fresh` reads at the order point where an L1 copy is present (R146);
`only` writes one destination register before the others, the independence of R42; `peer` is a peer's response, with
its error and poison indications (R142, R161, R432); `pick` is the member chosen where the spec leaves a set (R11). -/
structure PerformOp where
  team : Nat
  thr : Nat
  id : Nat
  fresh : Bool := false
  only : Option VReg := none
  peer : List Byte := []
  peerOk : Bool := true
  peerBad : Bool := false
  pick : Nat := 0
  deriving DecidableEq, Repr

/-- A page walk of a cluster for a context (R144). -/
structure WalkOp where
  cluster : Fin 12
  asid : Fin 512
  va : Nat
  deriving DecidableEq, Repr

/-- A line of attached memory at a core (R177). -/
structure LineOp where
  core : Fin 96
  pa : Nat
  deriving DecidableEq, Repr

/-- A piece of engine work of a team, with the bytes a peer answers for it, and the error and poison indications of the
answer. -/
structure WorkRef where
  team : Nat
  id : Nat
  peer : List Byte := []
  peerOk : Bool := true
  peerBad : Bool := false
  deriving DecidableEq, Repr

/-- A chunk of a tile copy at one receiver (R240), with a peer's answer as in `WorkRef`. -/
structure ChunkOp where
  team : Nat
  id : Nat
  recv : Nat
  k : Nat
  peer : List Byte := []
  peerOk : Bool := true
  peerBad : Bool := false
  deriving DecidableEq, Repr

/-- A result queue of a team (R215). -/
structure TeamQueue where
  team : Nat
  q : Fin 8
  deriving DecidableEq, Repr

/-- An array of a core (R274). -/
structure ArrayRef where
  core : Fin 96
  q : Fin 4
  deriving DecidableEq, Repr

/-- A placement: the lot with the index of one of its spans, or the saved span, and the core of each team in order
(R337, R374). -/
structure PlaceOp where
  id : Nat
  ix : Nat
  cores : List (Fin 96)
  deriving DecidableEq, Repr

/-- A launch queue of a context (R343). -/
structure LqRef where
  asid : Fin 512
  q : Fin 16
  deriving DecidableEq, Repr

/-- A node of a context (R345); `core` is the deque chosen by a persistent delivery (R347). -/
structure NodeRef where
  asid : Fin 512
  node : Fin 64
  core : Fin 96
  deriving DecidableEq, Repr

/-- The structure an uncorrectable or corrected ECC error strikes (R375). -/
inductive EccTarget where
  | regFile (team thr : Nat) (reg : Fin 256)
  | scratch (key : Nat)
  | feBits (team : Nat) (granule : Nat)
  | l1d (core : Fin 96) (pa : Nat)
  | l1i (core : Fin 96) (va : Nat)
  | l2Clean (pa : Nat)
  | l2Dirty (pa : Nat)
  | mem (pa : Nat)
  | acc (team tile : Nat)
  | tlb (cluster : Fin 12) (asid : Fin 512) (va : Nat)
  | glaze (slice : Fin 48) (asid : Fin 512) (index : Fin 64)
  | control (asid : Fin 512)
  deriving DecidableEq, Repr

/-- A host packet that carries no data, a read request where TYPE is 1 (R424). -/
structure HostReadOp where
  type : BitVec 4 := 1
  tag : BitVec 8
  addr : BitVec 48
  len : Fin 64
  deriving DecidableEq, Repr

/-- A host write packet (R424). -/
structure HostWriteOp where
  addr : BitVec 48
  data : List Byte
  deriving DecidableEq, Repr

/-- A host command's argument word (R428). -/
structure HcmdOp where
  arg : BitVec 32
  deriving DecidableEq, Repr

/-- What an incoming peer request does (R433). -/
inductive PeerKind where
  | load (len : Nat)
  | store (data : List Byte)
  | atom (fn : AtomFn) (ty : AtomTy) (b : Nat)
  | cas (wide : Bool) (b c : Nat)
  deriving DecidableEq, Repr

/-- An incoming peer request (R433). -/
structure PeerOp where
  tasid : Fin 512
  addr : Nat
  kind : PeerKind
  deriving DecidableEq, Repr

/-- A firmware image as a slot holds it (R438): its bytes with the security version they carry, the two signatures over
them, and the two public keys. -/
structure FwImage where
  bytes : List Byte
  version : Nat
  sigRsa : List Byte
  sigSlh : List Byte
  keyRsa : List Byte
  keySlh : List Byte
  deriving DecidableEq, Repr, Inhabited

/-- What is fused (R438): the SHA-384 hashes of the two public keys and the minimum security version. -/
structure FwFuses where
  rsaHash : List Byte
  slhHash : List Byte
  minVersion : Nat
  deriving DecidableEq, Repr, Inhabited

/-- The images in slots A and B and what the tests of a start find: the cores that pass (`ecm`), the banks and slices that fail
(`bsw`), and the rows that fail and are to be repaired (`repairs`) (R434 to R438). -/
structure StartOp where
  slotA : FwImage
  slotB : FwImage
  ecm : Nat
  bsw : List (BitVec 32)
  repairs : List (BitVec 64)
  deriving DecidableEq, Repr, Inhabited

/-- A register-window write of 4 or 8 bytes (R425). -/
structure RegWriteOp where
  off : Nat
  wide : Bool
  val : BitVec 64
  deriving DecidableEq, Repr

/-- A write of a watch entry (R430). -/
structure WatchOp where
  n : Fin 64
  off : Fin 16
  data : List Byte
  deriving DecidableEq, Repr

/-- An I3C transfer of the Dolmir port (R440). -/
structure DolmirWrite where
  addr : BitVec 16
  data : List Byte
  deriving DecidableEq, Repr

end Sys2Proof
end

