-- ==== Sys2Proof/Syntax.lean ====
section
/-! DEFINITION. The instructions and the device's events: one constructor per row of spec/opcode_table.json. An
instruction carries the common fields of its word (R36) and its operands; an event carries the operands of
Shape/Events.lean. -/

namespace Sys2Proof

/-- One row of the opcode table. -/
inductive Instr where
  -- 02, 03: control (R48, R77 to R85)
  | nop (c : Common) (imm : BitVec 32)
  | bra (c : Common) (tgt : BitVec 32)
  | brx (c : Common) (reg : VReg) (tag : BitVec 12)
  | call (c : Common) (reg : VReg) (tgt : BitVec 32)
  | callx (c : Common) (reg : VReg) (tag : BitVec 12)
  | ret (c : Common) (reg : VReg)
  | retChecked (c : Common) (reg : VReg) (tag : BitVec 12)
  | jinitLive (c : Common) (j : Fin 16)
  | jinitSelf (c : Common) (j : Fin 16)
  | jinitClear (c : Common) (j : Fin 16)
  | jinitK (c : Common) (j : Fin 16) (k : KReg)
  | join (c : Common) (j : Fin 16)
  | jleave (c : Common) (j : Fin 16)
  | jtest (c : Common) (kind : JtestKind) (j : Fin 16) (p : PReg)
  | exit (c : Common)
  | yield (c : Common) (n : BitVec 12)
  -- 04: integer (R97 to R109)
  | iadd (c : Common) (o : IntBin)
  | isub (c : Common) (o : IntBin)
  | imul (c : Common) (o : IntBin)
  | imulh (c : Common) (o : IntBin)
  | imad (c : Common) (o : IntTri)
  | imadw (c : Common) (o : IntTri)
  | iabs (c : Common) (o : IabsOp)
  | imin (c : Common) (o : IntBin)
  | imax (c : Common) (o : IntBin)
  | and (c : Common) (o : LogBin)
  | or (c : Common) (o : LogBin)
  | xor (c : Common) (o : LogBin)
  | shl (c : Common) (o : FlagBin)
  | shr (c : Common) (o : FlagBin)
  | sar (c : Common) (o : FlagBin)
  | bfe (c : Common) (o : FlagBin)
  | bfi (c : Common) (o : BfiOp)
  | popc (c : Common) (o : UnOp)
  | clz (c : Common) (o : UnOp)
  | brev (c : Common) (o : UnOp)
  | icmp (c : Common) (o : IcmpOp)
  | sel (c : Common) (o : SelOp)
  | mov (c : Common) (o : UnOp)
  | movi (c : Common) (o : MoviOp)
  | lea (c : Common) (o : LeaOp)
  | plop (c : Common) (o : PlopOp)
  | smovRead (c : Common) (o : SmovRead)
  | smovWrite (c : Common) (o : SmovWrite)
  | kmovToK (c : Common) (o : KmovOp)
  | kmovFromK (c : Common) (o : KmovOp)
  | elect (c : Common) (o : ElectOp)
  | iaddi (c : Common) (o : IaddiOp)
  | lopi (c : Common) (o : LopiOp)
  -- 05: float (R121 to R135)
  | fadd (c : Common) (o : FpBin)
  | fsub (c : Common) (o : FpBin)
  | fmul (c : Common) (o : FpBin)
  | ffma (c : Common) (o : FpTri)
  | fmin (c : Common) (o : FpBin)
  | fmax (c : Common) (o : FpBin)
  | fcmp (c : Common) (o : FcmpOp)
  | frcp (c : Common) (o : FpUn)
  | fsqrt (c : Common) (o : FpUn)
  | frsq (c : Common) (o : FpUn)
  | fexp2 (c : Common) (o : FpUn)
  | flog2 (c : Common) (o : FpUn)
  | fsin (c : Common) (o : FpUn)
  | fcos (c : Common) (o : FpUn)
  | frnd (c : Common) (o : FpUn)
  | fscl (c : Common) (o : FpBin)
  | fcls (c : Common) (o : FclsOp)
  | fcvt (c : Common) (o : FcvtOp)
  | f2i (c : Common) (o : CvtIntOp)
  | i2f (c : Common) (o : CvtIntOp)
  | fdot (c : Common) (o : FdotOp)
  | bqntScale (c : Common) (o : BqntScale)
  | bqntElement (c : Common) (o : BqntElem)
  | bdq (c : Common) (o : BdqOp)
  -- 03: cross-lane (R86 to R90)
  | shfl (c : Common) (o : ShflOp)
  | vote (c : Common) (o : VoteOp)
  | lred (c : Common) (o : FoldOp)
  | lscan (c : Common) (o : FoldOp)
  | matchLanes (c : Common) (o : MatchOp)
  -- 06: memory (R165 to R175)
  | ld (c : Common) (o : LdOp)
  | st (c : Common) (o : StOp)
  | stt (c : Common) (o : StOp)
  | pref (c : Common) (o : PrefOp)
  | ipref (c : Common) (o : IprefOp)
  | ipin (c : Common) (o : IprefOp)
  | iunpin (c : Common) (o : IprefOp)
  | fenceRel (c : Common) (scope : Scope)
  | fenceAcq (c : Common) (scope : Scope)
  | fenceAr (c : Common) (scope : Scope)
  | cflushL1 (c : Common) (o : FlushOp)
  | cflushClean (c : Common) (o : FlushOp)
  | cflushInval (c : Common) (o : FlushOp)
  | cflushTlb (c : Common) (o : FlushOp)
  | cflushAsid (c : Common) (o : FlushOp)
  | cflushCtx (c : Common) (o : FlushOp)
  | feset (c : Common) (o : FeOp)
  | feclr (c : Common) (o : FeOp)
  | monitor (c : Common) (o : MonOp)
  | waitm (c : Common)
  -- 07: atomics (R179 to R200)
  | atom (c : Common) (o : AtomOp)
  | atomcas (c : Common) (o : CasOp)
  | red (c : Common) (o : RedOpnd)
  | xadd (c : Common) (o : XaddOp)
  | xread (c : Common) (o : XreadOp)
  | xclr (c : Common) (o : XclrOp)
  | xclrLine (c : Common) (o : XclrOp)
  | glaze (c : Common) (o : GlazeOp)
  | glzins (c : Common) (o : GlzinsOp)
  | glzq (c : Common) (o : GlzqOp)
  -- 08: barriers, queues, counters (R210 to R224)
  | bari (c : Common) (o : BariOp)
  | bara (c : Common) (o : BaraOp)
  | barw (c : Common) (o : BarwOp)
  | bart (c : Common) (o : BarwOp)
  | bartPoison (c : Common) (o : BartPOp)
  | barp (c : Common) (o : BarpOp)
  | qcfgSet (c : Common) (o : QcfgSet)
  | qcfgGrant (c : Common) (o : QcfgGrant)
  | qcfgStat (c : Common) (o : QcfgStat)
  | qcfgOff (c : Common) (q : Fin 32)
  | qpush (c : Common) (o : QueueOp)
  | qpop (c : Common) (o : QueueOp)
  | qtry (c : Common) (o : QtryOp)
  | sqadd (c : Common) (o : SqOp)
  | sqwait (c : Common) (o : SqOp)
  | sqrd (c : Common) (o : SqrdOp)
  -- 09: copies and sorts (R227 to R247)
  | cpl (c : Common) (o : CplOp)
  | cpt (c : Common) (o : CptOp)
  | cpm (c : Common) (o : CpmOp)
  | cpg (c : Common) (o : CpmOp)
  | cpclose (c : Common)
  | cpwait (c : Common) (n : Fin 8)
  | chkw (c : Common) (o : ChkwOp)
  | chkt (c : Common) (o : ChktOp)
  | tload (c : Common) (o : TloadOp)
  | tevict (c : Common) (slot : Fin 32)
  | sort (c : Common) (a : Src)
  -- 10: matrix (R276 to R282)
  | mmx (c : Common) (a : Src)
  | mmzero (c : Common) (o : MmzeroOp)
  | mmld (c : Common) (o : MmldOp)
  | mmst (c : Common) (o : MmstOp)
  | mmrd (c : Common) (o : MmrdOp)
  | mmwake (c : Common) (mask : Fin 16)
  | mmstat (c : Common) (o : MmstatOp)
  -- 11: raster, ordered sections, fragment lists (R304 to R311)
  | rast (c : Common) (a : Src)
  | attr (c : Common) (o : AttrOp)
  | oenter (c : Common)
  | oleave (c : Common)
  | flcfgSet (c : Common) (o : FlcfgSet)
  | flcfgGrow (c : Common) (slot : Fin 4)
  | flcfgOff (c : Common) (slot : Fin 4)
  | flins (c : Common) (o : FlinsOp)
  | flres (c : Common) (o : FlresOp)
  | flresClr (c : Common) (o : FlresOp)
  | flrd (c : Common) (o : FlrdOp)
  -- 12: splats and rays (R323, R331)
  | splat (c : Common) (a : Src)
  | raybox (c : Common) (o : RayOp)
  | raytri (c : Common) (o : RayOp)
  -- 13: tasks (R351 to R354)
  | launch (c : Common) (a : Src)
  | wgemit (c : Common) (o : WgemitOp)
  | wgdone (c : Common) (o : HandleOp)
  | dqpush (c : Common) (o : HandleOp)
  | dqpop (c : Common) (o : DqpopOp)
  | dqsteal (c : Common) (o : DqstealOp)
  | quiesceArm (c : Common) (o : QuiesceArm)
  | quiesceRd (c : Common) (o : QuiesceRd)
  -- 14: system (R378 to R382)
  | trap (c : Common) (o : TrapOp)
  | srd (c : Common) (o : SrdOp)
  | swr (c : Common) (o : SwrOp)
  | cont (c : Common) (tgt : BitVec 32)
  | contOff (c : Common)
  | resumeSvc (c : Common)
  | resume (c : Common) (o : ResumeOp)
  | tretRec (c : Common)
  | tretNext (c : Common)
  | tretKill (c : Common)
  | tretTerm (c : Common) (imm : BitVec 32)
  -- 15: watch cones and debug (R401 to R410)
  | coneset (c : Common) (o : ConesetOp)
  | coneclr (c : Common) (n : Fin 16)
  | coneclrRec (c : Common) (n : Fin 16)
  | coneclrAll (c : Common) (rec : Bool)
  | haltSelf (c : Common)
  | haltCrew (c : Common)
  | haltTeam (c : Common)
  | haltThr (c : Common) (o : HaltSel)
  | haltRel (c : Common) (o : RelSel)
  | inspr (c : Common) (o : InsprOp)
  | inspw (c : Common) (o : InspwOp)
  | step (c : Common) (o : StepOp)
  | tmark (c : Common) (o : TmarkOp)
  | ill (imm : BitVec 32)
  -- events of the core (R59 to R85, R360)
  | clauseIssue (o : ClauseIssueOp)
  | flaggedCompletion (o : PerformOp)
  | lateFaultTaken (o : ThRef)
  | holdSlotGrant (core : Fin 96)
  | yieldPauseEnd (o : ThRef)
  | waitingInstructionComplete (o : PendRef)
  -- events of memory (R144 to R207)
  | orderPointWrite (o : PerformOp)
  | pageWalkComplete (o : WalkOp)
  | lineCheckout (o : LineOp)
  | lineRecall (o : LineOp)
  | atomicAtOrderPoint (o : PerformOp)
  | xaddAtSlice (o : PendRef)
  | glazeRun (o : PendRef)
  | barrierEngineEvent (o : WorkRef)
  | watchdogExpiry (id : Nat)
  | queueRecordPost (o : TeamQueue)
  -- events of the engines (R227 to R318)
  | cplCopyFinish (o : WorkRef)
  | chunk (o : ChunkOp)
  | enginePageRetry (o : WorkRef)
  | sortStart (o : WorkRef)
  | sortPass (o : WorkRef)
  | sortComplete (o : WorkRef)
  | matrixOpStart (team : Nat)
  | matrixPass (team : Nat)
  | matrixCommandComplete (team : Nat)
  | arrayIdleGate (o : ArrayRef)
  | arrayWakeComplete (o : ArrayRef)
  | rasterRecord (team : Nat)
  | fragmentLaunch (o : ThRef)
  | rastComplete (team : Nat)
  | setterInsert (o : PendRef)
  | splatStart (team : Nat)
  | splatPixelOutput (team : Nat)
  | splatComplete (team : Nat)
  -- events of the launcher and of system software (R337 to R375)
  | spanPlace (o : PlaceOp)
  | launcherPreempt (span : Nat)
  | teamEnd (team : Nat)
  | launchQueueTake (o : LqRef)
  | binTimerExpiry (o : NodeRef)
  | persistDelivery (o : NodeRef)
  | trapDispatch (o : ThRef)
  | contextTerminate (asid : Fin 512)
  | terminationComplete (asid : Fin 512)
  | spanSave (span : Nat)
  | saveComplete (span : Nat)
  | spanRestore (o : PlaceOp)
  | eccUncorrectable (o : EccTarget)
  | eccCorrected (o : EccTarget)
  | haltLand (o : ThRef)
  | traceRecordWrite (core : Fin 96)
  -- events from the host (R423 to R430)
  | hostReadRequest (o : HostReadOp)
  | hostMemoryWrite (o : HostWriteOp)
  | hostCounterAdd (o : HostWriteOp)
  | hostCounterRead (o : HostReadOp)
  | registerWrite (o : RegWriteOp)
  | herrWrite (v : BitVec 32)
  | cecountWrite (v : BitVec 32)
  | hcmdstatWrite (v : BitVec 64)
  | hcmdBusyDrop (v : BitVec 64)
  | register (o : HcmdOp)
  | terminate (o : HcmdOp)
  | preempt (o : HcmdOp)
  | debugon (o : HcmdOp)
  | debugoff (o : HcmdOp)
  | retire (o : HcmdOp)
  | attest (o : HcmdOp)
  | setctr (o : HcmdOp)
  | invtlb (o : HcmdOp)
  | hcmdUnknown (op : Fin 16) (o : HcmdOp)
  | hostCommandComplete
  | watchWrite (o : WatchOp)
  | plimWrite (v : BitVec 32)
  -- peers, start-up, management (R431 to R441)
  | peerRequestIncoming (o : PeerOp)
  | peerLinkDown (port : Fin 16)
  | powerOn (o : StartOp)
  | powerLoss
  | startupStepFail (step : Fin 11) (o : StartOp)
  | limiterStep (n : Fin 65)
  | thermtrip
  | dolmirDynamicAddress (addr : BitVec 7)
  | dolmirPrivateWrite (o : DolmirWrite)
  | dolmirPrivateRead (len : Nat)
  | startRecordWrite (o : DolmirWrite)
  | mrst (v : BitVec 16) (o : StartOp)
  | thermtripClear (v : BitVec 32)
  | peerLinkUp (port : Fin 16)
  deriving DecidableEq, Repr

end Sys2Proof
end

