-- ==== Sys2Proof/WellFormed.lean ====
section
/-! DEFINITION. Well-formedness of an instruction: the conditions of R46, R50 and of each entry that the types of the
operand shapes do not already carry. A word whose fields break one of them is illegal (R50). -/

namespace Sys2Proof

/-- The checks an instruction can fail. -/
inductive WfErr where
  /-- SETF 12, 13 or 14 (R50). -/
  | setfReserved
  /-- A SETF where the entry requires 15. -/
  | setfMustBe15
  /-- A pair that starts at an odd V register (R46). -/
  | oddPair
  /-- A destination predicate field that holds 7 where the entry forbids it (R92, R202). -/
  | destPT
  /-- A sub-operation or a combination of fields the entry does not list (R50). -/
  | subop
  /-- A space the entry does not allow (R50). -/
  | space
  /-- A system register the form may not name (R107, R379). -/
  | sysReg
  /-- A queue register the form may not name (R215). -/
  | queue
  deriving DecidableEq, Repr

/-- The check fails where the condition does not hold. -/
def need (p : Bool) (e : WfErr) : List WfErr := if p then [] else [e]
/-- A V pair starts even. -/
def pairV (wide : Bool) (v : VReg) : List WfErr := need (!wide || v.val % 2 == 0) .oddPair
/-- A V-or-K operand starts even where it is a V pair. -/
def pairS (wide : Bool) : Src → List WfErr
  | .v n => pairV wide n
  | .k _ => []
/-- The SETF of an instruction that may name a flag. -/
def okSetf (c : Common) : List WfErr := need (c.setf.val < 12 || c.setf.val == 15) .setfReserved
/-- The SETF of an instruction that may not (R48, R75, R170, R171, R175, R201, R231, R232, R234, R304, R377, R401). -/
def no15 (c : Common) : List WfErr := okSetf c ++ need (c.setf.val == 15) .setfMustBe15
/-- A destination predicate. -/
def destP (p : PReg) : List WfErr := need (p.val != 7) .destPT
/-- The width in bits of each assigned system register (R96); none for an unassigned number. -/
def sysWidth (n : Nat) : Option Nat :=
  if n ≤ 12 then some 32
  else if n = 13 then some 64
  else if n ≤ 15 then some 32
  else if n = 16 then some 64
  else if n = 17 then some 32
  else if n ≤ 20 then some 64
  else if n ≤ 22 then some 32
  else if 24 ≤ n ∧ n ≤ 31 then some 32
  else if n = 32 then some 64
  else none
/-- The register is assigned and W matches its width (R107, R379). -/
def sysOk (wide : Bool) (n : Nat) : List WfErr :=
  need (sysWidth n == some (if wide then 64 else 32)) .sysReg
/-- Q8 to Q31 (R215). -/
def padQueue (q : Fin 32) : List WfErr := need (8 ≤ q.val) .queue
/-- A queue that QPOP and QTRY may name (R215). -/
def popQueue (q : Fin 32) : List WfErr := need (8 ≤ q.val || (1 ≤ q.val && q.val ≤ 4)) .queue
/-- An atomic space (R176). -/
def atomSpace (s : Space) : List WfErr := need (s != .lane) .space
/-- A barrier space (R204, R210). -/
def barSpace (s : Space) : List WfErr := need (s == .core || s == .band || s == .chip) .space
def isMem (s : Space) : Bool := s == .mem

def IntBin.errs (o : IntBin) : List WfErr := pairV o.wide o.d ++ pairS o.wide o.a ++ pairS o.wide o.b
def IntTri.errs (o : IntTri) : List WfErr :=
  pairV o.wide o.d ++ pairS o.wide o.a ++ pairS o.wide o.b ++ pairS o.wide o.c
def UnOp.errs (o : UnOp) : List WfErr := pairV o.wide o.d ++ pairS o.wide o.a
def LogBin.errs (o : LogBin) : List WfErr := pairV o.wide o.d ++ pairS o.wide o.a ++ pairS o.wide o.b
def FlagBin.errs (o : FlagBin) : List WfErr := pairV o.wide o.d ++ pairS o.wide o.a ++ pairS o.wide o.b
/-- Whether a float type is binary64, the W form (R121). -/
def isF64 (t : FType) : Bool := t == .f64
def FpBin.errs (o : FpBin) : List WfErr :=
  pairV (isF64 o.ft) o.d ++ pairS (isF64 o.ft) o.a ++ pairS (isF64 o.ft) o.b
def FpTri.errs (o : FpTri) : List WfErr :=
  pairV (isF64 o.ft) o.d ++ pairS (isF64 o.ft) o.a ++ pairS (isF64 o.ft) o.b ++ pairS (isF64 o.ft) o.c
def FpUn.errs (o : FpUn) : List WfErr := pairV (isF64 o.ft) o.d ++ pairS (isF64 o.ft) o.a
/-- Scalar types only (R125). -/
def scalarFt (t : FType) : List WfErr := need (t != .f16x2 && t != .bf16x2) .subop
/-- The functions with no binary64 form (R125). -/
def noF64 (t : FType) : List WfErr := need (t != .f64) .subop
/-- Whether a conversion's W is 1 (R129). -/
def FcvtOp.wide (o : FcvtOp) : Bool := o.dt == .f64 || o.st == .f64
/-- An x2 format code. -/
def x2Fmt (f : CFmt) : Bool := f == .f16x2 || f == .bf16x2
/-- The conditions of R129. -/
def FcvtOp.errs (o : FcvtOp) : List WfErr :=
  pairV o.wide o.d ++ pairS o.wide o.a ++ need (o.st != o.dt) .subop ++ need (!o.hi || x2Fmt o.st) .subop ++
  need (x2Fmt o.dt == o.b.isSome) .subop ++ need (!x2Fmt o.dt || o.st == .f32) .subop ++
  need (o.st != .e8m0 || o.dt == .f32) .subop ++
  need (o.dt != .e8m0 || (o.st == .f32 && o.rm == .rne && !o.sat && !o.ftz)) .subop
/-- Whether F2I or I2F is a W form (R131, R132). -/
def CvtIntOp.wide (o : CvtIntOp) : Bool := o.f == .f64 || o.i == .n64 || o.i == .i64
def CvtIntOp.errs (o : CvtIntOp) : List WfErr := pairV o.wide o.d ++ pairS o.wide o.a
/-- W of a cross-lane type (R86). -/
def ltWide (t : LType) : Bool := t == .n64 || t == .i64 || t == .f64
/-- The fill operand's pair. -/
def pairO (wide : Bool) : Option Src → List WfErr
  | some s => pairS wide s
  | none => []
/-- R86, R89. -/
def FoldOp.errs (o : FoldOp) : List WfErr :=
  pairV (ltWide o.ty) o.d ++ pairV (ltWide o.ty) o.a ++ pairO (ltWide o.ty) o.fill ++
  need (!((o.op == .and || o.op == .or || o.op == .xor) && (o.ty == .f32 || o.ty == .f64))) .subop
/-- R140, R165: which modifiers each space takes. -/
def LdOp.errs (o : LdOp) : List WfErr :=
  pairV (o.w == .n64) o.data ++ pairS (isMem o.space) o.base ++
  need (isMem o.space || (o.reuse.val == 0 && !o.inv)) .subop ++
  need (o.feq == .ignore || (o.space == .lane || o.space == .core || o.space == .band)) .subop
def StOp.errs (o : StOp) : List WfErr :=
  pairV (o.w == .n64) o.data ++ pairS (isMem o.space) o.base ++ need (isMem o.space || o.reuse.val == 0) .subop
/-- R173. -/
def FeOp.errs (o : FeOp) : List WfErr := need (o.space == .lane || o.space == .core || o.space == .band) .space
/-- R174. -/
def MonOp.errs (o : MonOp) : List WfErr := need (o.space != .lane) .space ++ pairS (isMem o.space) o.base
/-- W of an atomic type (R179). -/
def atWide (t : AtomTy) : Bool := t == .n64 || t == .i64
/-- The legal pairs of OPA and TYPE (R180). -/
def atomOk (f : AtomFn) (t : AtomTy) : List WfErr :=
  need (!((f == .and || f == .or || f == .xor) && (t == .f32 || t == .f16x2 || t == .bf16x2))) .subop
def AtomOp.errs (o : AtomOp) : List WfErr :=
  atomSpace o.space ++ atomOk o.fn o.ty ++ pairV (atWide o.ty) o.d ++ pairS (isMem o.space) o.a ++ pairS (atWide o.ty) o.b
def CasOp.errs (o : CasOp) : List WfErr :=
  atomSpace o.space ++ pairV o.wide o.d ++ pairS (isMem o.space) o.a ++ pairS o.wide o.b ++ pairS o.wide o.c
def RedOpnd.errs (o : RedOpnd) : List WfErr :=
  atomSpace o.space ++ atomOk o.fn o.ty ++ need (o.fn != .exch) .subop ++ pairS (isMem o.space) o.a ++ pairS (atWide o.ty) o.b

/-- Every check the instruction fails; an event fails none. DESIGN CHOICE (log 119): an SWR of PXI (16) fails one, as R379
says, although R96 lists PXI among the fault-record registers. -/
def Instr.errs : Instr → List WfErr
  | .nop c _ => no15 c
  | .bra c _ => no15 c
  | .brx c r _ => no15 c ++ pairV true r
  | .call c r _ => okSetf c ++ pairV true r
  | .callx c r _ => okSetf c ++ pairV true r
  | .ret c r => no15 c ++ pairV true r
  | .retChecked c r _ => no15 c ++ pairV true r
  | .jinitLive c _ | .jinitSelf c _ | .jinitClear c _ | .jinitK c _ _ => no15 c
  | .join c _ | .jleave c _ => no15 c
  | .jtest c _ _ p => okSetf c ++ destP p
  | .exit c | .yield c _ => no15 c
  | .iadd c o | .isub c o | .imul c o => okSetf c ++ o.errs
  | .imulh c o | .imin c o | .imax c o => okSetf c ++ o.errs ++ need (!o.sat) .subop
  | .imad c o => okSetf c ++ o.errs
  | .imadw c o => okSetf c ++ need (!o.wide) .subop ++ pairV true o.d ++ pairS true o.c
  | .iabs c o => okSetf c ++ pairV o.wide o.d ++ pairS o.wide o.a
  | .and c o | .or c o | .xor c o => okSetf c ++ o.errs
  | .shl c o | .shr c o | .sar c o | .bfe c o => okSetf c ++ o.errs
  | .bfi c o => okSetf c ++ pairV o.wide o.d ++ pairS o.wide o.a ++ pairS o.wide o.b ++ pairS o.wide o.c
  | .popc c o | .clz c o | .brev c o | .mov c o => okSetf c ++ o.errs
  | .icmp c o => okSetf c ++ destP o.d ++ pairS o.wide o.a ++ pairS o.wide o.b
  | .sel c o => okSetf c ++ pairV o.wide o.d ++ pairS o.wide o.a ++ pairS o.wide o.b
  | .movi c o => okSetf c ++ pairV (o.kind != .n32) o.d
  | .lea c o => okSetf c ++ pairV true o.d ++ pairS true o.a ++ pairS true o.b
  | .plop c o => okSetf c ++ destP o.d
  | .smovRead c o => okSetf c ++ sysOk o.wide o.sr.val ++ pairV o.wide o.d
  | .smovWrite c o => okSetf c ++ sysOk o.wide o.sr.val ++ need (o.sr.val == 14) .sysReg ++ pairS o.wide o.a
  | .kmovToK c o | .kmovFromK c o => okSetf c ++ pairV o.wide o.v
  | .elect c o => okSetf c ++ destP o.d
  | .iaddi c o => okSetf c ++ pairV o.wide o.d ++ pairS o.wide o.a
  | .lopi c o => okSetf c ++ pairV o.wide o.d ++ pairS o.wide o.a
  | .fadd c o | .fsub c o | .fmul c o => okSetf c ++ o.errs
  | .ffma c o => okSetf c ++ o.errs
  | .fmin c o | .fmax c o => okSetf c ++ o.errs ++ need (o.rm == .rne && !o.sat) .subop
  | .fcmp c o => okSetf c ++ destP o.d ++ scalarFt o.ft ++ pairS (isF64 o.ft) o.a ++ pairS (isF64 o.ft) o.b
  | .frcp c o | .fsqrt c o | .frsq c o => okSetf c ++ o.errs ++ scalarFt o.ft ++ need (!o.pi) .subop
  | .fexp2 c o | .flog2 c o => okSetf c ++ o.errs ++ scalarFt o.ft ++ noF64 o.ft ++ need (!o.pi) .subop
  | .fsin c o | .fcos c o => okSetf c ++ o.errs ++ scalarFt o.ft ++ noF64 o.ft
  | .frnd c o => okSetf c ++ o.errs ++ need (!o.pi) .subop
  | .fscl c o => okSetf c ++ o.errs ++ need (!o.sat) .subop
  | .fcls c o => okSetf c ++ need (o.fmt != .e8m0) .subop ++ pairV (o.fmt == .f64) o.d ++ pairS (o.fmt == .f64) o.a
  | .fcvt c o => okSetf c ++ o.errs
  | .f2i c o | .i2f c o => okSetf c ++ o.errs
  | .fdot c _ => okSetf c
  | .bqntScale c _ => okSetf c
  | .bqntElement c _ => okSetf c
  | .bdq c _ => okSetf c
  | .shfl c o => okSetf c ++ pairV o.wide o.d ++ pairV o.wide o.a ++ pairS o.wide o.b ++ pairO o.wide o.fill
  | .vote c o => okSetf c ++ match o.dst with
    | .any d | .all d => destP d
    | .ballot d => pairV true d
  | .lred c o => okSetf c ++ o.errs ++ need (!o.excl) .subop
  | .lscan c o => okSetf c ++ o.errs
  | .matchLanes c o => okSetf c ++ pairV true o.d ++ pairV o.wide o.a
  | .ld c o => okSetf c ++ o.errs
  | .st c o => okSetf c ++ o.errs
  | .stt c o => okSetf c ++ o.errs ++ need (o.space == .mem || o.space == .chip) .space
  | .pref c o => okSetf c ++ pairS true o.base
  | .ipref c _ | .ipin c _ | .iunpin c _ => no15 c
  | .fenceRel c _ | .fenceAcq c _ | .fenceAr c _ => no15 c
  | .cflushL1 c o | .cflushClean c o | .cflushInval c o | .cflushTlb c o | .cflushAsid c o | .cflushCtx c o =>
    okSetf c ++ pairS true o.base
  | .feset c o | .feclr c o => okSetf c ++ o.errs
  | .monitor c o => okSetf c ++ o.errs
  | .waitm c => no15 c
  | .atom c o => okSetf c ++ o.errs
  | .atomcas c o => okSetf c ++ o.errs
  | .red c o => okSetf c ++ o.errs
  | .xadd c o => okSetf c ++ pairS (!o.chip) o.a
  | .xread c o => okSetf c ++ pairV o.wide o.d ++ pairS (!o.chip) o.a
  | .xclr c o | .xclrLine c o => okSetf c ++ pairS (!o.chip) o.a
  | .glaze c o => okSetf c ++ pairS (!o.chip) o.a
  | .glzins c o => okSetf c ++ pairS true o.a
  | .glzq c _ => okSetf c
  | .bari c o => okSetf c ++ barSpace o.space
  | .bara c o => okSetf c ++ barSpace o.space
  | .barw c o => no15 c ++ barSpace o.space
  | .bart c o => okSetf c ++ barSpace o.space ++ destP o.d
  | .bartPoison c o => okSetf c ++ barSpace o.space ++ destP o.d
  | .barp c o => okSetf c ++ barSpace o.space
  | .qcfgSet c o => okSetf c ++ padQueue o.q
  | .qcfgGrant c o => okSetf c ++ padQueue o.q
  | .qcfgStat c o => okSetf c ++ padQueue o.q ++ pairV true o.d
  | .qcfgOff c q => okSetf c ++ padQueue q
  | .qpush c o => no15 c ++ padQueue o.q
  | .qpop c o => no15 c ++ popQueue o.q
  | .qtry c o => okSetf c ++ popQueue o.q ++ destP o.p
  | .sqadd c o => okSetf c ++ pairS o.wide o.b
  | .sqwait c o => no15 c ++ pairS o.wide o.b
  | .sqrd c o => okSetf c ++ pairV true o.d
  | .cpl c o => okSetf c ++ pairS (isMem o.dsp) o.d ++ pairS (isMem o.ssp) o.a
  | .cpt c _ => okSetf c
  | .cpm c _ | .cpg c _ => okSetf c
  | .cpclose c => no15 c
  | .cpwait c _ => no15 c
  | .chkw c o => no15 c ++ pairV true o.b
  | .chkt c o => okSetf c ++ destP o.d ++ pairV true o.b
  | .tload c o => okSetf c ++ pairS true o.a
  | .tevict c _ => no15 c
  | .sort c _ => okSetf c
  | .mmx c _ => okSetf c
  | .mmzero c o => okSetf c ++ need (!(o.pair && o.n.val % 2 == 1)) .subop
  | .mmld c o => okSetf c ++ need (!(o.pair && o.n.val % 2 == 1)) .subop
  | .mmst c o => okSetf c ++ pairS o.mem o.a
  | .mmrd c _ => okSetf c
  | .mmwake c _ => okSetf c
  | .mmstat c o => okSetf c ++ pairV true o.d
  | .rast c _ => okSetf c
  | .attr c _ => okSetf c
  | .oenter c | .oleave c => no15 c
  | .flcfgSet c o => okSetf c ++ pairS o.mem o.a
  | .flcfgGrow c _ | .flcfgOff c _ => okSetf c
  | .flins c o => okSetf c ++ pairV true o.b
  | .flres c o | .flresClr c o => okSetf c ++ pairV true o.d
  | .flrd c o => okSetf c ++ pairV true o.d
  | .splat c _ => okSetf c
  | .raybox c o | .raytri c o => okSetf c ++ pairS (!o.core) o.a
  | .launch c a => okSetf c ++ pairS true a
  | .wgemit c _ => okSetf c
  | .wgdone c o | .dqpush c o => okSetf c ++ pairS true o.a
  | .dqpop c o => okSetf c ++ pairV true o.d
  | .dqsteal c o => okSetf c ++ pairV true o.d
  | .quiesceArm c o => okSetf c ++ pairS true o.c
  | .quiesceRd c o => okSetf c ++ pairV true o.d
  | .trap c _ => no15 c
  | .srd c o => okSetf c ++ sysOk o.wide o.num.val ++ pairV o.wide o.d
  | .swr c o => okSetf c ++ sysOk o.wide o.num.val ++
      need (o.num.val == 14 || (17 ≤ o.num.val && o.num.val ≤ 21)) .sysReg ++ pairS o.wide o.a
  | .cont c _ | .contOff c => okSetf c
  | .resumeSvc c => no15 c
  | .resume c o => no15 c ++ pairV true o.b
  | .tretRec c | .tretNext c | .tretKill c | .tretTerm c _ => no15 c
  | .coneset c o => okSetf c ++ pairS true o.a ++ pairS true o.b ++ pairS true o.c
  | .coneclr c _ | .coneclrRec c _ | .coneclrAll c _ => no15 c
  | .haltSelf c | .haltCrew c | .haltTeam c | .haltThr c _ | .haltRel c _ => no15 c
  | .inspr c o => okSetf c ++ pairV o.wide o.d
  | .inspw c o => okSetf c ++ pairS o.wide o.c
  | .step c _ => okSetf c
  | .tmark c _ => no15 c
  | .ill _ => []
  | .clauseIssue _ | .flaggedCompletion _ | .lateFaultTaken _ | .holdSlotGrant _ | .yieldPauseEnd _
  | .waitingInstructionComplete _ | .orderPointWrite _ | .pageWalkComplete _ | .lineCheckout _ | .lineRecall _
  | .atomicAtOrderPoint _ | .xaddAtSlice _ | .glazeRun _ | .barrierEngineEvent _ | .watchdogExpiry _
  | .queueRecordPost _ | .cplCopyFinish _ | .chunk _ | .enginePageRetry _ | .sortStart _ | .sortPass _
  | .sortComplete _ | .matrixOpStart _ | .matrixPass _ | .matrixCommandComplete _ | .arrayIdleGate _
  | .arrayWakeComplete _ | .rasterRecord _ | .fragmentLaunch _ | .rastComplete _ | .setterInsert _ | .splatStart _
  | .splatPixelOutput _ | .splatComplete _ | .spanPlace _ | .launcherPreempt _ | .teamEnd _ | .launchQueueTake _
  | .binTimerExpiry _ | .persistDelivery _ | .trapDispatch _ | .contextTerminate _ | .terminationComplete _
  | .spanSave _ | .saveComplete _ | .spanRestore _ | .eccUncorrectable _ | .eccCorrected _ | .haltLand _
  | .traceRecordWrite _ | .hostReadRequest _ | .hostMemoryWrite _ | .hostCounterAdd _ | .hostCounterRead _
  | .registerWrite _ | .herrWrite _ | .cecountWrite _ | .hcmdstatWrite _ | .hcmdBusyDrop _ | .register _
  | .terminate _ | .preempt _ | .debugon _ | .debugoff _ | .retire _ | .attest _ | .setctr _ | .invtlb _
  | .hcmdUnknown _ _ | .hostCommandComplete | .watchWrite _ | .plimWrite _ | .peerRequestIncoming _
  | .peerLinkDown _ | .powerOn _ | .powerLoss | .startupStepFail _ _ | .limiterStep _ | .thermtrip
  | .dolmirDynamicAddress _ | .dolmirPrivateWrite _ | .dolmirPrivateRead _ | .startRecordWrite _ | .mrst _ _
  | .thermtripClear _ | .peerLinkUp _ => []

/-- An instruction that fails no check. -/
def Instr.wf (i : Instr) : Bool := i.errs.isEmpty

end Sys2Proof
end

