-- ==== Sys2Proof/Decode.lean ====
section
/-! DEFINITION. Instruction words (R36, R43 to R50): splitting a word into the fields of its format, the instruction
those fields name, and the encoder, which writes the same fields back. Decoding is total; a word that is no legal
instruction is rejected with the reason. -/

namespace Sys2Proof
open Machine (bit b2n)

/-- Why a word is no legal instruction (R50). -/
inductive DecErr where
  /-- OP is unassigned (R47). -/
  | unassigned
  /-- A reserved field is not zero, or a field holds a value its entry does not list. -/
  | fields
  /-- The fields fail a check of WellFormed. -/
  | illFormed (e : WfErr)
  deriving DecidableEq, Repr

/-- A word cut into the common fields of R36, FB and bits 43:0. -/
structure Raw where
  op : Fin 256
  dist : Fin 8
  setf : Fin 16
  pneg : Bool
  pred : Fin 8
  fb : Bool
  body : Fin 0x100000000000
  deriving DecidableEq, Repr

/-- The fields of a word (R36). -/
def splitWord (w : Nat) : Raw where
  op := ⟨w / 0x100000000000000 % 256, Nat.mod_lt _ (by decide)⟩
  dist := ⟨w / 0x20000000000000 % 8, Nat.mod_lt _ (by decide)⟩
  setf := ⟨w / 0x2000000000000 % 16, Nat.mod_lt _ (by decide)⟩
  pneg := w / 0x1000000000000 % 2 == 1
  pred := ⟨w / 0x200000000000 % 8, Nat.mod_lt _ (by decide)⟩
  fb := w / 0x100000000000 % 2 == 1
  body := ⟨w % 0x100000000000, Nat.mod_lt _ (by decide)⟩

/-- The word of a set of fields. -/
def joinWord (r : Raw) : Nat :=
  r.op.val * 0x100000000000000 + r.dist.val * 0x20000000000000 + r.setf.val * 0x2000000000000 +
    b2n r.pneg * 0x1000000000000 + r.pred.val * 0x200000000000 + b2n r.fb * 0x100000000000 + r.body.val

/-- Format RG (R43), FB as W. -/
structure RG where
  d : Fin 512
  a : Fin 512
  b : Fin 512
  c : Fin 512
  x : Fin 256
  w : Bool
  deriving DecidableEq, Repr

def RG.split (fb : Bool) (o : Fin 0x100000000000) : RG where
  d := ⟨o.val / 0x800000000 % 512, Nat.mod_lt _ (by decide)⟩
  a := ⟨o.val / 0x4000000 % 512, Nat.mod_lt _ (by decide)⟩
  b := ⟨o.val / 0x20000 % 512, Nat.mod_lt _ (by decide)⟩
  c := ⟨o.val / 0x100 % 512, Nat.mod_lt _ (by decide)⟩
  x := ⟨o.val % 256, Nat.mod_lt _ (by decide)⟩
  w := fb

def RG.join (r : RG) : Fin 0x100000000000 :=
  ⟨r.d.val * 0x800000000 + r.a.val * 0x4000000 + r.b.val * 0x20000 + r.c.val * 0x100 + r.x.val, by omega⟩

/-- Format RI. -/
structure RI where
  d : Fin 512
  a : Fin 512
  x : Fin 64
  imm : BitVec 20
  w : Bool
  deriving DecidableEq, Repr

def RI.split (fb : Bool) (o : Fin 0x100000000000) : RI where
  d := ⟨o.val / 0x800000000 % 512, Nat.mod_lt _ (by decide)⟩
  a := ⟨o.val / 0x4000000 % 512, Nat.mod_lt _ (by decide)⟩
  x := ⟨o.val / 0x100000 % 64, Nat.mod_lt _ (by decide)⟩
  imm := BitVec.ofNat 20 o.val
  w := fb

def RI.join (r : RI) : Fin 0x100000000000 :=
  ⟨r.d.val * 0x800000000 + r.a.val * 0x4000000 + r.x.val * 0x100000 + r.imm.toNat, by have := r.imm.isLt; omega⟩

/-- Format I32. -/
structure I32 where
  d : Fin 512
  x : Fin 8
  imm : BitVec 32
  w : Bool
  deriving DecidableEq, Repr

def I32.split (fb : Bool) (o : Fin 0x100000000000) : I32 where
  d := ⟨o.val / 0x800000000 % 512, Nat.mod_lt _ (by decide)⟩
  x := ⟨o.val / 0x100000000 % 8, Nat.mod_lt _ (by decide)⟩
  imm := BitVec.ofNat 32 o.val
  w := fb

def I32.join (r : I32) : Fin 0x100000000000 :=
  ⟨r.d.val * 0x800000000 + r.x.val * 0x100000000 + r.imm.toNat, by have := r.imm.isLt; omega⟩

/-- Format M, FB as SX. -/
structure MF where
  data : Fin 512
  base : Fin 512
  off : BitVec 18
  reuse : Fin 8
  inv : Bool
  feq : Fin 4
  wid : Fin 4
  sx : Bool
  deriving DecidableEq, Repr

def MF.split (fb : Bool) (o : Fin 0x100000000000) : MF where
  data := ⟨o.val / 0x800000000 % 512, Nat.mod_lt _ (by decide)⟩
  base := ⟨o.val / 0x4000000 % 512, Nat.mod_lt _ (by decide)⟩
  off := BitVec.ofNat 18 (o.val / 256)
  reuse := ⟨o.val / 32 % 8, Nat.mod_lt _ (by decide)⟩
  inv := o.val / 16 % 2 == 1
  feq := ⟨o.val / 4 % 4, Nat.mod_lt _ (by decide)⟩
  wid := ⟨o.val % 4, Nat.mod_lt _ (by decide)⟩
  sx := fb

theorem b2n_lt (b : Bool) : b2n b < 2 := by cases b <;> decide

def MF.join (r : MF) : Fin 0x100000000000 :=
  ⟨r.data.val * 0x800000000 + r.base.val * 0x4000000 + r.off.toNat * 256 + r.reuse.val * 32 + b2n r.inv * 16 +
    r.feq.val * 4 + r.wid.val, by have := r.off.isLt; have := b2n_lt r.inv; omega⟩

/-- Format B; FB is reserved. -/
structure BF where
  reg : Fin 512
  kind : Fin 8
  tgt : BitVec 32
  deriving DecidableEq, Repr

def BF.split (o : Fin 0x100000000000) : BF where
  reg := ⟨o.val / 0x800000000 % 512, Nat.mod_lt _ (by decide)⟩
  kind := ⟨o.val / 0x100000000 % 8, Nat.mod_lt _ (by decide)⟩
  tgt := BitVec.ofNat 32 o.val

def BF.join (r : BF) : Fin 0x100000000000 :=
  ⟨r.reg.val * 0x800000000 + r.kind.val * 0x100000000 + r.tgt.toNat, by have := r.tgt.isLt; omega⟩

/-- Format S; FB is reserved. -/
structure SF where
  x : Fin 4096
  imm : BitVec 32
  deriving DecidableEq, Repr

def SF.split (o : Fin 0x100000000000) : SF where
  x := ⟨o.val / 0x100000000 % 4096, Nat.mod_lt _ (by decide)⟩
  imm := BitVec.ofNat 32 o.val

def SF.join (r : SF) : Fin 0x100000000000 :=
  ⟨r.x.val * 0x100000000 + r.imm.toNat, by have := r.imm.isLt; omega⟩

/-! Register fields (R45). -/

/-- A field that names a V register. -/
def vreg (f : Fin 512) : Option VReg := if h : f.val < 256 then some ⟨f.val, h⟩ else none
def encV (v : VReg) : Fin 512 := ⟨v.val, by omega⟩
/-- A field that names a K register. -/
def kreg (f : Fin 512) : Option KReg := if h : 256 ≤ f.val ∧ f.val < 320 then some ⟨f.val - 256, by omega⟩ else none
def encK (k : KReg) : Fin 512 := ⟨256 + k.val, by omega⟩
/-- A field that names a V or a K register. -/
def src (f : Fin 512) : Option Src :=
  if h : f.val < 256 then some (.v ⟨f.val, h⟩)
  else if h : f.val < 320 then some (.k ⟨f.val - 256, by omega⟩) else none
def encS : Src → Fin 512
  | .v n => encV n
  | .k n => encK n
/-- A field that names a Q register: bits 8:5 are 1010. -/
def qreg (f : Fin 512) : Option (Fin 32) := if h : 320 ≤ f.val ∧ f.val < 352 then some ⟨f.val - 320, by omega⟩ else none
def encQ (q : Fin 32) : Fin 512 := ⟨320 + q.val, by omega⟩
/-- A field that names a system register. -/
def sreg (f : Fin 512) : Option (Fin 64) := if h : 384 ≤ f.val ∧ f.val < 448 then some ⟨f.val - 384, by omega⟩ else none
def encSys (n : Fin 64) : Fin 512 := ⟨384 + n.val, by omega⟩
/-- A predicate field (R92). -/
def preg (f : Fin 512) : Option PReg := if h : f.val < 8 then some ⟨f.val, h⟩ else none
def encP (p : PReg) : Fin 512 := ⟨p.val, by omega⟩
/-- An operand present where a bit of X says so, else zero. -/
def optSrc (present : Bool) (f : Fin 512) : Option (Option Src) :=
  if present then (src f).map some else if f.val = 0 then some none else none
def encO : Option Src → Fin 512
  | some s => encS s
  | none => 0

/-- Bit k of an X field. -/
def xbit (x k : Nat) : Bool := x / 2 ^ k % 2 == 1

/-! Codes of the named sub-operations. -/

def BoolOp.code : BoolOp → Nat
  | .and => 0 | .or => 1 | .xor => 2
def boolOpOf (n : Nat) : Option BoolOp := [.and, .or, .xor][n]?
def Cmp.code : Cmp → Nat
  | .eq => 0 | .ne => 1 | .lt => 2 | .le => 3 | .gt => 4 | .ge => 5
def cmpOf (n : Nat) : Option Cmp := [.eq, .ne, .lt, .le, .gt, .ge][n]?
def FType.code : FType → Nat
  | .f32 => 0 | .f64 => 1 | .f16 => 2 | .bf16 => 3 | .f16x2 => 4 | .bf16x2 => 5
def ftypeOf (n : Nat) : Option FType := [.f32, .f64, .f16, .bf16, .f16x2, .bf16x2][n]?
def RMode.code : RMode → Nat
  | .rne => 0 | .rtz => 1 | .rdn => 2 | .rup => 3 | .rna => 4
def rmodeOf (n : Nat) : Option RMode := [.rne, .rtz, .rdn, .rup, .rna][n]?
def FCmp.code : FCmp → Nat
  | .eq => 0 | .ne => 1 | .lt => 2 | .le => 3 | .gt => 4 | .ge => 5 | .un => 6 | .ord => 7
def fcmpOf (n : Nat) : Option FCmp := [.eq, .ne, .lt, .le, .gt, .ge, .un, .ord][n]?
def CFmt.code : CFmt → Nat
  | .f32 => 0 | .f64 => 1 | .f16 => 2 | .bf16 => 3 | .f16x2 => 4 | .bf16x2 => 5 | .e5m2 => 6 | .e4m3 => 7
  | .e3m2 => 8 | .e2m3 => 9 | .e2m1 => 10 | .e8m0 => 11
def cfmtOf (n : Nat) : Option CFmt :=
  [.f32, .f64, .f16, .bf16, .f16x2, .bf16x2, .e5m2, .e4m3, .e3m2, .e2m3, .e2m1, .e8m0][n]?
def SFmt.code : SFmt → Nat
  | .f32 => 0 | .f64 => 1 | .f16 => 2 | .bf16 => 3
def sfmtOf (n : Nat) : Option SFmt := [.f32, .f64, .f16, .bf16][n]?
def IType.code : IType → Nat
  | .n32 => 0 | .i32 => 1 | .n64 => 2 | .i64 => 3
def itypeOf (n : Nat) : Option IType := [.n32, .i32, .n64, .i64][n]?
def DotFmt.code : DotFmt → Nat
  | .f16x2 => 0 | .bf16x2 => 1 | .e5m2 => 2 | .e4m3 => 3 | .e3m2 => 4 | .e2m3 => 5 | .e2m1 => 6
def dotFmtOf (n : Nat) : Option DotFmt := [.f16x2, .bf16x2, .e5m2, .e4m3, .e3m2, .e2m3, .e2m1][n]?
def EFmt.code : EFmt → Nat
  | .e5m2 => 0 | .e4m3 => 1 | .e3m2 => 2 | .e2m3 => 3 | .e2m1 => 4
def efmtOf (n : Nat) : Option EFmt := [.e5m2, .e4m3, .e3m2, .e2m3, .e2m1][n]?
def ShflMode.code : ShflMode → Nat
  | .idx => 0 | .up => 1 | .down => 2 | .xor => 3
def shflOf (n : Nat) : Option ShflMode := [.idx, .up, .down, .xor][n]?
def LType.code : LType → Nat
  | .n32 => 0 | .i32 => 1 | .f32 => 2 | .n64 => 3 | .i64 => 4 | .f64 => 5
def ltypeOf (n : Nat) : Option LType := [.n32, .i32, .f32, .n64, .i64, .f64][n]?
def RedOp.code : RedOp → Nat
  | .add => 0 | .min => 1 | .max => 2 | .and => 3 | .or => 4 | .xor => 5
def redOpOf (n : Nat) : Option RedOp := [.add, .min, .max, .and, .or, .xor][n]?
def JtestKind.code : JtestKind → Nat
  | .inMask => 0 | .done => 1 | .empty => 2
def jtestOf (n : Nat) : Option JtestKind := [.inMask, .done, .empty][n]?
def Width.code : Width → Nat
  | .n8 => 0 | .n16 => 1 | .n32 => 2 | .n64 => 3
def widthCodeOf (n : Nat) : Option Width := [.n8, .n16, .n32, .n64][n]?
def Feq.code : Feq → Nat
  | .ignore => 0 | .wfull => 1 | .take => 2
def feqOf (n : Nat) : Option Feq := [.ignore, .wfull, .take][n]?
def Scope.code : Scope → Nat
  | .team => 0 | .band => 1 | .chip => 2 | .sys => 3
def scopeOf (n : Nat) : Option Scope := [.team, .band, .chip, .sys][n]?
def BScope.code : BScope → Nat
  | .team => 0 | .band => 1 | .span => 2
def bscopeOf (n : Nat) : Option BScope := [.team, .band, .span][n]?
/-- SPC of the scratchpad spaces (R136); 0 for `.mem`, which SX 0 names. -/
def Space.spc : Space → Nat
  | .mem => 0 | .lane => 0 | .core => 1 | .band => 2 | .chip => 3
def spcOf (n : Nat) : Option Space := [.lane, .core, .band, .chip][n]?
/-- SPACE of the atomic class (R176) and of the barrier class (R210): 0 is `.mem`, never a barrier space. -/
def Space.acode : Space → Nat
  | .mem => 0 | .lane => 0 | .core => 1 | .band => 2 | .chip => 3
def aspaceOf (n : Nat) : Option Space := [.mem, .core, .band, .chip][n]?
/-- DSP and SSP of CPL (R227). -/
def Space.ccode : Space → Nat
  | .mem => 0 | .lane => 1 | .core => 2 | .band => 3 | .chip => 4
def cspaceOf (n : Nat) : Option Space := [.mem, .lane, .core, .band, .chip][n]?
def AtomFn.code : AtomFn → Nat
  | .add => 0 | .min => 1 | .max => 2 | .and => 3 | .or => 4 | .xor => 5 | .exch => 6
def atomFnOf (n : Nat) : Option AtomFn := [.add, .min, .max, .and, .or, .xor, .exch][n]?
def AtomTy.code : AtomTy → Nat
  | .n32 => 0 | .i32 => 1 | .f32 => 2 | .n64 => 3 | .i64 => 4 | .f16x2 => 5 | .bf16x2 => 6
def atomTyOf (n : Nat) : Option AtomTy := [.n32, .i32, .f32, .n64, .i64, .f16x2, .bf16x2][n]?
def XTy.code : XTy → Nat
  | .f32 => 0 | .bf16 => 1 | .f16 => 2
def xtyOf (n : Nat) : Option XTy := [.f32, .bf16, .f16][n]?
def FlSrc.code : FlSrc → Nat
  | .rast => 0 | .splat => 1 | .ray => 2
def flSrcOf (n : Nat) : Option FlSrc := [.rast, .splat, .ray][n]?

/-- An X field from a number. -/
def mkX (n : Nat) : Fin 256 := ⟨n % 256, Nat.mod_lt _ (by decide)⟩
def mk6 (n : Nat) : Fin 64 := ⟨n % 64, Nat.mod_lt _ (by decide)⟩
def mk9 (n : Nat) : Fin 512 := ⟨n % 512, Nat.mod_lt _ (by decide)⟩
def mk12 (n : Nat) : Fin 4096 := ⟨n % 4096, Nat.mod_lt _ (by decide)⟩
def mk8 (n : Nat) : Fin 8 := ⟨n % 8, Nat.mod_lt _ (by decide)⟩
def mk4 (n : Nat) : Fin 4 := ⟨n % 4, Nat.mod_lt _ (by decide)⟩

/-! Each operand shape from and to the fields of its format. The reader takes no field it does not check, so that an
unused field must be zero (R92, R202, R304). -/

def IntBin.ofRG (r : RG) : Option IntBin :=
  if r.c.val = 0 ∧ r.x.val < 4 then do
    some ⟨r.w, xbit r.x 0, xbit r.x 1, ← vreg r.d, ← src r.a, ← src r.b⟩
  else none
def IntBin.toRG (o : IntBin) : RG := ⟨encV o.d, encS o.a, encS o.b, 0, mkX (b2n o.sgn + 2 * b2n o.sat), o.wide⟩

def IntTri.ofRG (r : RG) : Option IntTri :=
  if r.x.val < 4 then do
    some ⟨r.w, xbit r.x 0, xbit r.x 1, ← vreg r.d, ← src r.a, ← src r.b, ← src r.c⟩
  else none
def IntTri.toRG (o : IntTri) : RG :=
  ⟨encV o.d, encS o.a, encS o.b, encS o.c, mkX (b2n o.sgn + 2 * b2n o.sat), o.wide⟩

def IabsOp.ofRG (r : RG) : Option IabsOp :=
  if r.b.val = 0 ∧ r.c.val = 0 ∧ r.x.val < 4 ∧ xbit r.x 0 then do
    some ⟨r.w, xbit r.x 1, ← vreg r.d, ← src r.a⟩
  else none
def IabsOp.toRG (o : IabsOp) : RG := ⟨encV o.d, encS o.a, 0, 0, mkX (1 + 2 * b2n o.sat), o.wide⟩

def IaddiOp.ofRI (r : RI) : Option IaddiOp :=
  if r.x.val < 4 then do some ⟨r.w, xbit r.x 0, xbit r.x 1, ← vreg r.d, ← src r.a, r.imm⟩ else none
def IaddiOp.toRI (o : IaddiOp) : RI := ⟨encV o.d, encS o.a, mk6 (b2n o.sgn + 2 * b2n o.sat), o.imm, o.wide⟩

def LogBin.ofRG (r : RG) : Option LogBin :=
  if r.c.val = 0 ∧ r.x.val < 2 then do some ⟨r.w, xbit r.x 0, ← vreg r.d, ← src r.a, ← src r.b⟩ else none
def LogBin.toRG (o : LogBin) : RG := ⟨encV o.d, encS o.a, encS o.b, 0, mkX (b2n o.nb), o.wide⟩

def LopiOp.ofRI (r : RI) : Option LopiOp :=
  if r.x.val < 8 then do
    some ⟨r.w, ← boolOpOf (r.x.val % 4), xbit r.x 2, ← vreg r.d, ← src r.a, r.imm⟩
  else none
def LopiOp.toRI (o : LopiOp) : RI := ⟨encV o.d, encS o.a, mk6 (o.op.code + 4 * b2n o.ni), o.imm, o.wide⟩

def FlagBin.ofRG (r : RG) : Option FlagBin :=
  if r.c.val = 0 ∧ r.x.val < 2 then do some ⟨r.w, xbit r.x 0, ← vreg r.d, ← src r.a, ← src r.b⟩ else none
def FlagBin.toRG (o : FlagBin) : RG := ⟨encV o.d, encS o.a, encS o.b, 0, mkX (b2n o.flag), o.wide⟩

def BfiOp.ofRG (r : RG) : Option BfiOp :=
  if r.x.val = 0 then do some ⟨r.w, ← vreg r.d, ← src r.a, ← src r.b, ← src r.c⟩ else none
def BfiOp.toRG (o : BfiOp) : RG := ⟨encV o.d, encS o.a, encS o.b, encS o.c, 0, o.wide⟩

def UnOp.ofRG (r : RG) : Option UnOp :=
  if r.b.val = 0 ∧ r.c.val = 0 ∧ r.x.val = 0 then do some ⟨r.w, ← vreg r.d, ← src r.a⟩ else none
def UnOp.toRG (o : UnOp) : RG := ⟨encV o.d, encS o.a, 0, 0, 0, o.wide⟩

/-- COMB, BOP and Pc of ICMP (R102). -/
def icmpComb (x : Nat) (c : Fin 512) : Option (Option (BoolOp × PReg)) :=
  if xbit x 4 then do some (some (← boolOpOf (x / 32 % 4), ← preg c))
  else if x / 32 % 4 = 0 ∧ c.val = 0 then some none else none
def IcmpOp.ofRG (r : RG) : Option IcmpOp :=
  if r.x.val < 128 then do
    some ⟨r.w, ← cmpOf (r.x.val % 8), xbit r.x 3, ← icmpComb r.x r.c, ← preg r.d, ← src r.a, ← src r.b⟩
  else none
def IcmpOp.toRG (o : IcmpOp) : RG :=
  let k := match o.comb with
    | some (b, p) => (16 + 32 * b.code, encP p)
    | none => (0, 0)
  ⟨encP o.d, encS o.a, encS o.b, k.2, mkX (o.cmp.code + 8 * b2n o.sgn + k.1), o.wide⟩

def SelOp.ofRG (r : RG) : Option SelOp :=
  if r.x.val = 0 ∧ r.c.val < 16 then do
    some ⟨r.w, xbit r.c 3, mk8 r.c.val, ← vreg r.d, ← src r.a, ← src r.b⟩
  else none
def SelOp.toRG (o : SelOp) : RG :=
  ⟨encV o.d, encS o.a, encS o.b, mk9 (o.p.val + 8 * b2n o.neg), 0, o.wide⟩

def MoviOp.ofI32 (r : I32) : Option MoviOp := do
  let k ← match r.x.val, r.w with
    | 0, false => some MoviKind.n32
    | 0, true => some .i64
    | 1, true => some .n64
    | _, _ => none
  some ⟨k, ← vreg r.d, r.imm⟩
def MoviOp.toI32 (o : MoviOp) : I32 :=
  match o.kind with
  | .n32 => ⟨encV o.d, 0, o.imm, false⟩
  | .i64 => ⟨encV o.d, 0, o.imm, true⟩
  | .n64 => ⟨encV o.d, 1, o.imm, true⟩

def LeaOp.ofRG (r : RG) : Option LeaOp :=
  if r.w ∧ r.c.val = 0 then do
    let idx ← match r.x.val / 8 with
      | 0 => some LeaIdx.full
      | 1 => some .n32
      | 3 => some .i32
      | _ => none
    some ⟨mk8 r.x.val, idx, ← vreg r.d, ← src r.a, ← src r.b⟩
  else none
def LeaOp.toRG (o : LeaOp) : RG :=
  let k := match o.idx with
    | .full => 0
    | .n32 => 8
    | .i32 => 24
  ⟨encV o.d, encS o.a, encS o.b, 0, mkX (o.s.val + k), true⟩

def PlopOp.ofRG (r : RG) : Option PlopOp :=
  if r.w then none else do some ⟨BitVec.ofNat 8 r.x.val, ← preg r.d, ← preg r.a, ← preg r.b, ← preg r.c⟩
def PlopOp.toRG (o : PlopOp) : RG := ⟨encP o.d, encP o.a, encP o.b, encP o.c, mkX o.lut.toNat, false⟩

def SmovRead.ofRG (r : RG) : Option SmovRead :=
  if r.b.val = 0 ∧ r.c.val = 0 ∧ r.x.val = 0 then do some ⟨r.w, ← sreg r.a, ← vreg r.d⟩ else none
def SmovRead.toRG (o : SmovRead) : RG := ⟨encV o.d, encSys o.sr, 0, 0, 0, o.wide⟩
def SmovWrite.ofRG (r : RG) : Option SmovWrite :=
  if r.b.val = 0 ∧ r.c.val = 0 ∧ r.x.val = 1 then do some ⟨r.w, ← sreg r.d, ← src r.a⟩ else none
def SmovWrite.toRG (o : SmovWrite) : RG := ⟨encSys o.sr, encS o.a, 0, 0, 1, o.wide⟩

/-- KMOV to K (X 0) names K in D; KMOV from K (X 1) names K in A (R108). -/
def KmovOp.ofRGTo (r : RG) : Option KmovOp :=
  if r.b.val = 0 ∧ r.c.val = 0 ∧ r.x.val = 0 then do some ⟨r.w, ← kreg r.d, ← vreg r.a⟩ else none
def KmovOp.toRGTo (o : KmovOp) : RG := ⟨encK o.k, encV o.v, 0, 0, 0, o.wide⟩
def KmovOp.ofRGFrom (r : RG) : Option KmovOp :=
  if r.b.val = 0 ∧ r.c.val = 0 ∧ r.x.val = 1 then do some ⟨r.w, ← kreg r.a, ← vreg r.d⟩ else none
def KmovOp.toRGFrom (o : KmovOp) : RG := ⟨encV o.v, encK o.k, 0, 0, 1, o.wide⟩

def ElectOp.ofRG (r : RG) : Option ElectOp :=
  if r.a.val = 0 ∧ r.b.val = 0 ∧ r.w = false then
    match r.x.val with
    | 0 => if r.c.val = 0 then do some ⟨← preg r.d, none⟩ else none
    | 1 => do some ⟨← preg r.d, some (← vreg r.c)⟩
    | _ => none
  else none
def ElectOp.toRG (o : ElectOp) : RG :=
  match o.lane with
  | none => ⟨encP o.d, 0, 0, 0, 0, false⟩
  | some v => ⟨encP o.d, 0, 0, encV v, 1, false⟩

def FpBin.ofRG (r : RG) : Option FpBin :=
  if r.c.val = 0 then do
    let ft ← ftypeOf (r.x.val % 8)
    if r.w = isF64 ft then
      some ⟨ft, ← rmodeOf (r.x.val / 8 % 8), xbit r.x 6, xbit r.x 7, ← vreg r.d, ← src r.a, ← src r.b⟩
    else none
  else none
/-- The X byte of R121. -/
def fpX (ft : FType) (rm : RMode) (ftz top : Bool) : Fin 256 := mkX (ft.code + 8 * rm.code + 64 * b2n ftz + 128 * b2n top)
def FpBin.toRG (o : FpBin) : RG := ⟨encV o.d, encS o.a, encS o.b, 0, fpX o.ft o.rm o.ftz o.sat, isF64 o.ft⟩

def FpTri.ofRG (r : RG) : Option FpTri := do
  let ft ← ftypeOf (r.x.val % 8)
  if r.w = isF64 ft then
    some ⟨ft, ← rmodeOf (r.x.val / 8 % 8), xbit r.x 6, xbit r.x 7, ← vreg r.d, ← src r.a, ← src r.b, ← src r.c⟩
  else none
def FpTri.toRG (o : FpTri) : RG := ⟨encV o.d, encS o.a, encS o.b, encS o.c, fpX o.ft o.rm o.ftz o.sat, isF64 o.ft⟩

def FpUn.ofRG (r : RG) : Option FpUn :=
  if r.b.val = 0 ∧ r.c.val = 0 then do
    let ft ← ftypeOf (r.x.val % 8)
    if r.w = isF64 ft then
      some ⟨ft, ← rmodeOf (r.x.val / 8 % 8), xbit r.x 6, xbit r.x 7, ← vreg r.d, ← src r.a⟩
    else none
  else none
def FpUn.toRG (o : FpUn) : RG := ⟨encV o.d, encS o.a, 0, 0, fpX o.ft o.rm o.ftz o.pi, isF64 o.ft⟩

/-- COMB, BOP and Pc of FCMP (R124). -/
def fcmpComb (comb : Bool) (c : Nat) : Option (Option (BoolOp × PReg)) :=
  if comb then (if c < 32 then do some (some (← boolOpOf (c / 8), mk8 c)) else none)
  else if c = 0 then some none else none
def FcmpOp.ofRG (r : RG) : Option FcmpOp := do
  let ft ← ftypeOf (r.x.val % 8)
  if r.w = isF64 ft then
    some ⟨ft, ← fcmpOf (r.x.val / 8 % 8), xbit r.x 6, ← fcmpComb (xbit r.x 7) r.c, ← preg r.d, ← src r.a, ← src r.b⟩
  else none
def FcmpOp.toRG (o : FcmpOp) : RG :=
  let k : Fin 512 := match o.comb with
    | some (b, p) => mk9 (p.val + 8 * b.code)
    | none => 0
  ⟨encP o.d, encS o.a, encS o.b, k, mkX (o.ft.code + 8 * o.cmp.code + 64 * b2n o.ftz + 128 * b2n o.comb.isSome), isF64 o.ft⟩

def FclsOp.ofRG (r : RG) : Option FclsOp :=
  if r.b.val = 0 ∧ r.c.val = 0 ∧ r.x.val < 16 then do
    let f ← cfmtOf r.x.val
    if r.w = (f == .f64) then some ⟨f, ← vreg r.d, ← src r.a⟩ else none
  else none
def FclsOp.toRG (o : FclsOp) : RG := ⟨encV o.d, encS o.a, 0, 0, mkX o.fmt.code, o.fmt == .f64⟩

def FcvtOp.ofRG (r : RG) : Option FcvtOp :=
  if r.c.val < 64 then do
    let dt ← cfmtOf (r.x.val % 16)
    let st ← cfmtOf (r.x.val / 16)
    if r.w = (dt == .f64 || st == .f64) then
      some ⟨dt, st, ← rmodeOf (r.c.val % 8), xbit r.c 3, xbit r.c 4, xbit r.c 5, ← vreg r.d, ← src r.a,
        ← optSrc (x2Fmt dt) r.b⟩
    else none
  else none
def FcvtOp.toRG (o : FcvtOp) : RG :=
  ⟨encV o.d, encS o.a, encO o.b, mk9 (o.rm.code + 8 * b2n o.sat + 16 * b2n o.ftz + 32 * b2n o.hi),
    mkX (o.dt.code + 16 * o.st.code), o.wide⟩

def CvtIntOp.ofF2i (r : RG) : Option CvtIntOp :=
  if r.b.val = 0 ∧ r.c.val = 0 ∧ r.x.val < 128 then do
    let f ← sfmtOf (r.x.val % 4)
    let i ← itypeOf (r.x.val / 4 % 4)
    if r.w = (f == .f64 || i == .n64 || i == .i64) then
      some ⟨f, i, ← rmodeOf (r.x.val / 16), ← vreg r.d, ← src r.a⟩
    else none
  else none
def CvtIntOp.toF2i (o : CvtIntOp) : RG :=
  ⟨encV o.d, encS o.a, 0, 0, mkX (o.f.code + 4 * o.i.code + 16 * o.rm.code), o.wide⟩
def CvtIntOp.ofI2f (r : RG) : Option CvtIntOp :=
  if r.b.val = 0 ∧ r.c.val = 0 ∧ r.x.val < 128 then do
    let i ← itypeOf (r.x.val % 4)
    let f ← sfmtOf (r.x.val / 4 % 4)
    if r.w = (f == .f64 || i == .n64 || i == .i64) then
      some ⟨f, i, ← rmodeOf (r.x.val / 16), ← vreg r.d, ← src r.a⟩
    else none
  else none
def CvtIntOp.toI2f (o : CvtIntOp) : RG :=
  ⟨encV o.d, encS o.a, 0, 0, mkX (o.i.code + 4 * o.f.code + 16 * o.rm.code), o.wide⟩

def FdotOp.ofRG (r : RG) : Option FdotOp :=
  if r.w = false ∧ r.x.val < 128 then do
    some ⟨← dotFmtOf (r.x.val % 8), ← rmodeOf (r.x.val / 8 % 8), xbit r.x 6, ← vreg r.d, ← src r.a, ← src r.b, ← src r.c⟩
  else none
def FdotOp.toRG (o : FdotOp) : RG :=
  ⟨encV o.d, encS o.a, encS o.b, encS o.c, mkX (o.st.code + 8 * o.rm.code + 64 * b2n o.ftz), false⟩

def BqntScale.ofRG (r : RG) : Option BqntScale :=
  if r.w = false ∧ r.b.val = 0 ∧ r.c.val = 0 ∧ r.x.val / 8 = 1 then do
    some ⟨← efmtOf (r.x.val % 8), ← vreg r.d, ← src r.a⟩
  else none
def BqntScale.toRG (o : BqntScale) : RG := ⟨encV o.d, encS o.a, 0, 0, mkX (o.ef.code + 8), false⟩
def BqntElem.ofRG (r : RG) : Option BqntElem :=
  if r.w = false ∧ r.c.val = 0 ∧ xbit r.x 3 = false then do
    some ⟨← efmtOf (r.x.val % 8), ← rmodeOf (r.x.val / 16 % 8), xbit r.x 7, ← vreg r.d, ← src r.a, ← src r.b⟩
  else none
def BqntElem.toRG (o : BqntElem) : RG :=
  ⟨encV o.d, encS o.a, encS o.b, 0, mkX (o.ef.code + 16 * o.rm.code + 128 * b2n o.sat), false⟩
def BdqOp.ofRG (r : RG) : Option BdqOp :=
  if r.w = false ∧ r.c.val = 0 ∧ xbit r.x 3 = false ∧ r.x.val < 128 then do
    some ⟨← efmtOf (r.x.val % 8), ← rmodeOf (r.x.val / 16), ← vreg r.d, ← src r.a, ← src r.b⟩
  else none
def BdqOp.toRG (o : BdqOp) : RG := ⟨encV o.d, encS o.a, encS o.b, 0, mkX (o.ef.code + 16 * o.rm.code), false⟩

def ShflOp.ofRG (r : RG) : Option ShflOp :=
  if r.x.val % 16 < 4 ∧ r.x.val / 32 = (if r.w then 3 else 0) then do
    some ⟨← shflOf (r.x.val % 4), r.w, ← vreg r.d, ← vreg r.a, ← src r.b, ← optSrc (xbit r.x 4) r.c⟩
  else none
def ShflOp.toRG (o : ShflOp) : RG :=
  ⟨encV o.d, encV o.a, encS o.b, encO o.fill,
    mkX (o.mode.code + 16 * b2n o.fill.isSome + (if o.wide then 96 else 0)), o.wide⟩

def VoteOp.ofRG (r : RG) : Option VoteOp :=
  if r.b.val = 0 ∧ r.c.val = 0 ∧ r.x.val < 32 ∧ r.x.val % 16 < 3 ∧ r.w = (r.x.val % 16 == 2) then do
    let dst ← match r.x.val % 16 with
      | 0 => (preg r.d).map VoteDst.any
      | 1 => (preg r.d).map VoteDst.all
      | _ => (vreg r.d).map VoteDst.ballot
    some ⟨dst, xbit r.x 4, ← preg r.a⟩
  else none
def VoteOp.toRG (o : VoteOp) : RG :=
  match o.dst with
  | .any d => ⟨encP d, encP o.p, 0, 0, mkX (16 * b2n o.fill), false⟩
  | .all d => ⟨encP d, encP o.p, 0, 0, mkX (1 + 16 * b2n o.fill), false⟩
  | .ballot d => ⟨encV d, encP o.p, 0, 0, mkX (2 + 16 * b2n o.fill), true⟩

def FoldOp.ofRG (r : RG) : Option FoldOp :=
  if r.b.val = 0 then do
    let ty ← ltypeOf (r.x.val / 32)
    if r.w = ltWide ty then
      some ⟨← redOpOf (r.x.val % 8), ty, xbit r.x 3, ← vreg r.d, ← vreg r.a, ← optSrc (xbit r.x 4) r.c⟩
    else none
  else none
def FoldOp.toRG (o : FoldOp) : RG :=
  ⟨encV o.d, encV o.a, 0, encO o.fill,
    mkX (o.op.code + 8 * b2n o.excl + 16 * b2n o.fill.isSome + 32 * o.ty.code), ltWide o.ty⟩

def MatchOp.ofRG (r : RG) : Option MatchOp :=
  if r.b.val = 0 ∧ r.c.val = 0 ∧ r.w ∧ (r.x.val = 0 ∨ r.x.val = 96) then do
    some ⟨r.x.val == 96, ← vreg r.d, ← vreg r.a⟩
  else none
def MatchOp.toRG (o : MatchOp) : RG := ⟨encV o.d, encV o.a, 0, 0, mkX (if o.wide then 96 else 0), true⟩

/-! Format M (R140). -/

/-- The space that SX and SPC name, and REUSE where SX is 0; bit 5 is zero where SX is 1. -/
def mfSpace (r : MF) : Option (Space × Fin 8) :=
  if r.sx then (if r.reuse.val % 2 = 0 then (spcOf (r.reuse.val / 2)).map fun s => (s, 0) else none)
  else some (.mem, r.reuse)
/-- The REUSE bits of a space. -/
def encReuse (s : Space) (reuse : Fin 8) : Fin 8 := if isMem s then reuse else mk8 (2 * s.spc)

def LdOp.ofMF (r : MF) : Option LdOp := do
  let s ← mfSpace r
  some ⟨s.1, ← widthCodeOf r.wid, s.2, r.inv, ← feqOf r.feq, ← vreg r.data, ← src r.base, r.off⟩
def LdOp.toMF (o : LdOp) : MF :=
  ⟨encV o.data, encS o.base, o.off, encReuse o.space o.reuse, o.inv, mk4 o.feq.code, mk4 o.w.code, !isMem o.space⟩
def StOp.ofMF (r : MF) : Option StOp :=
  if r.inv = false ∧ r.feq.val = 0 then do
    let s ← mfSpace r
    some ⟨s.1, ← widthCodeOf r.wid, s.2, ← vreg r.data, ← src r.base, r.off⟩
  else none
def StOp.toMF (o : StOp) : MF :=
  ⟨encV o.data, encS o.base, o.off, encReuse o.space o.reuse, false, 0, mk4 o.w.code, !isMem o.space⟩
def PrefOp.ofMF (r : MF) : Option PrefOp :=
  if r.sx = false ∧ r.data.val = 0 ∧ r.inv = false ∧ r.feq.val = 0 ∧ r.wid.val < 2 then do
    some ⟨r.wid.val == 1, r.reuse, ← src r.base, r.off⟩
  else none
def PrefOp.toMF (o : PrefOp) : MF := ⟨0, encS o.base, o.off, o.reuse, false, 0, mk4 (b2n o.l2), false⟩
/-- CFLUSH: the form is SX and WID (R172). -/
def flushOf (r : MF) : Option FlushOp :=
  if r.data.val = 0 ∧ r.reuse.val = 0 ∧ r.inv = false ∧ r.feq.val = 0 then do some ⟨← src r.base, r.off⟩ else none
def encFlush (sx : Bool) (wid : Fin 4) (o : FlushOp) : MF := ⟨0, encS o.base, o.off, 0, false, 0, wid, sx⟩
def FeOp.ofMF (r : MF) : Option FeOp :=
  if r.sx ∧ r.data.val = 0 ∧ r.inv = false ∧ r.feq.val = 0 then do
    let s ← mfSpace r
    some ⟨s.1, r.wid, ← src r.base, r.off⟩
  else none
def FeOp.toMF (o : FeOp) : MF := ⟨0, encS o.base, o.off, encReuse o.space 0, false, 0, o.n, true⟩
def MonOp.ofMF (r : MF) : Option MonOp :=
  if r.data.val = 0 ∧ r.inv = false ∧ r.feq.val = 0 ∧ r.wid.val = 0 then do
    let s ← mfSpace r
    if s.2.val = 0 then some ⟨s.1, ← src r.base, r.off⟩ else none
  else none
def MonOp.toMF (o : MonOp) : MF := ⟨0, encS o.base, o.off, encReuse o.space 0, false, 0, 0, !isMem o.space⟩

/-! Chapters 07 to 09. -/

def AtomOp.ofRG (r : RG) : Option AtomOp :=
  if r.c.val = 0 then do
    let ty ← atomTyOf (r.x.val / 8 % 8)
    if r.w = atWide ty then
      some ⟨← atomFnOf (r.x.val % 8), ty, ← aspaceOf (r.x.val / 64), ← vreg r.d, ← src r.a, ← src r.b⟩
    else none
  else none
def AtomOp.toRG (o : AtomOp) : RG :=
  ⟨encV o.d, encS o.a, encS o.b, 0, mkX (o.fn.code + 8 * o.ty.code + 64 * o.space.acode), atWide o.ty⟩
def CasOp.ofRG (r : RG) : Option CasOp :=
  if r.x.val % 64 = (if r.w then 24 else 0) then do
    some ⟨r.w, ← aspaceOf (r.x.val / 64), ← vreg r.d, ← src r.a, ← src r.b, ← src r.c⟩
  else none
def CasOp.toRG (o : CasOp) : RG :=
  ⟨encV o.d, encS o.a, encS o.b, encS o.c, mkX ((if o.wide then 24 else 0) + 64 * o.space.acode), o.wide⟩
def RedOpnd.ofRG (r : RG) : Option RedOpnd :=
  if r.c.val = 0 ∧ r.d.val = 0 then do
    let ty ← atomTyOf (r.x.val / 8 % 8)
    if r.w = atWide ty then
      some ⟨← atomFnOf (r.x.val % 8), ty, ← aspaceOf (r.x.val / 64), ← src r.a, ← src r.b⟩
    else none
  else none
def RedOpnd.toRG (o : RedOpnd) : RG :=
  ⟨0, encS o.a, encS o.b, 0, mkX (o.fn.code + 8 * o.ty.code + 64 * o.space.acode), atWide o.ty⟩
/-- SPACE 0 or 3 of the accumulation and glaze class (R176, R188). -/
def chipOf (n : Nat) : Option Bool :=
  match n with
  | 0 => some false
  | 3 => some true
  | _ => none
def encChip (c : Bool) : Nat := if c then 3 else 0
def XaddOp.ofRG (r : RG) : Option XaddOp :=
  if r.d.val = 0 ∧ r.c.val = 0 ∧ r.w = false ∧ r.x.val % 64 < 4 then do
    some ⟨← xtyOf (r.x.val % 4), ← chipOf (r.x.val / 64), ← src r.a, ← src r.b⟩
  else none
def XaddOp.toRG (o : XaddOp) : RG := ⟨0, encS o.a, encS o.b, 0, mkX (o.ty.code + 64 * encChip o.chip), false⟩
def XreadOp.ofRG (r : RG) : Option XreadOp :=
  if r.b.val = 0 ∧ r.c.val = 0 ∧ r.x.val % 64 = 0 then do
    some ⟨r.w, ← chipOf (r.x.val / 64), ← vreg r.d, ← src r.a⟩
  else none
def XreadOp.toRG (o : XreadOp) : RG := ⟨encV o.d, encS o.a, 0, 0, mkX (64 * encChip o.chip), o.wide⟩
/-- XCLR; the form is X bit 0 (R190). -/
def XclrOp.ofRG (line : Nat) (r : RG) : Option XclrOp :=
  if r.d.val = 0 ∧ r.b.val = 0 ∧ r.c.val = 0 ∧ r.w = false ∧ r.x.val % 64 = line then do
    some ⟨← chipOf (r.x.val / 64), ← src r.a⟩
  else none
def XclrOp.toRG (line : Nat) (o : XclrOp) : RG := ⟨0, encS o.a, 0, 0, mkX (line + 64 * encChip o.chip), false⟩
def GlazeOp.ofRG (r : RG) : Option GlazeOp :=
  if r.w = false ∧ r.x.val < 8 then do
    some ⟨← chipOf (r.x.val % 4), xbit r.x 2, ← vreg r.d, ← src r.a, ← vreg r.b, ← src r.c⟩
  else none
def GlazeOp.toRG (o : GlazeOp) : RG :=
  ⟨encV o.d, encS o.a, encV o.b, encS o.c, mkX (encChip o.chip + 4 * b2n o.nt), false⟩
def GlzinsOp.ofRG (r : RG) : Option GlzinsOp :=
  if r.w = false ∧ r.x.val = 0 ∧ r.b.val = 0 then do some ⟨← vreg r.d, ← src r.a, ← src r.c⟩ else none
def GlzinsOp.toRG (o : GlzinsOp) : RG := ⟨encV o.d, encS o.a, 0, encS o.c, 0, false⟩
def GlzqOp.ofRG (r : RG) : Option GlzqOp :=
  if r.w = false ∧ r.x.val = 0 ∧ r.a.val = 0 ∧ r.b.val = 0 then do some ⟨← vreg r.d, ← src r.c⟩ else none
def GlzqOp.toRG (o : GlzqOp) : RG := ⟨encV o.d, 0, 0, encS o.c, 0, false⟩

def BariOp.ofRG (r : RG) : Option BariOp :=
  if r.w = false ∧ r.x.val < 16 then do
    some ⟨← aspaceOf (r.x.val % 4), ← bscopeOf (r.x.val / 4), ← preg r.d, ← src r.a, ← src r.b, ← src r.c⟩
  else none
def BariOp.toRG (o : BariOp) : RG :=
  ⟨encP o.d, encS o.a, encS o.b, encS o.c, mkX (o.space.acode + 4 * o.scope.code), false⟩
/-- Vd where RET is set, else zero (R210). -/
def optV (present : Bool) (f : Fin 512) : Option (Option VReg) :=
  if present then (vreg f).map some else if f.val = 0 then some none else none
def encVO : Option VReg → Fin 512
  | some v => encV v
  | none => 0
def BaraOp.ofRG (r : RG) : Option BaraOp :=
  if r.w = false ∧ r.c.val = 0 ∧ r.x.val < 64 ∧ r.x.val / 4 % 4 = 0 then do
    some ⟨← aspaceOf (r.x.val % 4), ← optV (xbit r.x 5) r.d, ← src r.a, ← optSrc (xbit r.x 4) r.b⟩
  else none
def BaraOp.toRG (o : BaraOp) : RG :=
  ⟨encVO o.ret, encS o.a, encO o.cnt, 0,
    mkX (o.space.acode + 16 * b2n o.cnt.isSome + 32 * b2n o.ret.isSome), false⟩
def BarwOp.ofRG (r : RG) : Option BarwOp :=
  if r.w = false ∧ r.c.val = 0 ∧ r.x.val < 4 then do
    some ⟨← aspaceOf r.x, ← preg r.d, ← src r.a, ← src r.b⟩
  else none
def BarwOp.toRG (o : BarwOp) : RG := ⟨encP o.d, encS o.a, encS o.b, 0, mkX o.space.acode, false⟩
def BartPOp.ofRG (r : RG) : Option BartPOp :=
  if r.w = false ∧ r.c.val = 0 ∧ r.b.val = 0 ∧ 16 ≤ r.x.val ∧ r.x.val < 20 then do
    some ⟨← aspaceOf (r.x.val % 4), ← preg r.d, ← src r.a⟩
  else none
def BartPOp.toRG (o : BartPOp) : RG := ⟨encP o.d, encS o.a, 0, 0, mkX (o.space.acode + 16), false⟩
def BarpOp.ofRG (r : RG) : Option BarpOp :=
  if r.w = false ∧ r.d.val = 0 ∧ r.b.val = 0 ∧ r.c.val = 0 ∧ r.x.val < 4 then do
    some ⟨← aspaceOf r.x, ← src r.a⟩
  else none
def BarpOp.toRG (o : BarpOp) : RG := ⟨0, encS o.a, 0, 0, mkX o.space.acode, false⟩

def QcfgSet.ofRG (r : RG) : Option QcfgSet :=
  if r.w = false ∧ r.d.val = 0 ∧ r.b.val = 0 ∧ r.x.val = 0 then do some ⟨← qreg r.c, ← src r.a⟩ else none
def QcfgSet.toRG (o : QcfgSet) : RG := ⟨0, encS o.a, 0, encQ o.q, 0, false⟩
def QcfgGrant.ofRG (r : RG) : Option QcfgGrant :=
  if r.w = false ∧ r.d.val = 0 ∧ r.a.val = 0 ∧ r.x.val = 1 then do some ⟨← qreg r.c, ← src r.b⟩ else none
def QcfgGrant.toRG (o : QcfgGrant) : RG := ⟨0, 0, encS o.b, encQ o.q, 1, false⟩
def QcfgStat.ofRG (r : RG) : Option QcfgStat :=
  if r.w ∧ r.a.val = 0 ∧ r.b.val = 0 ∧ r.x.val = 2 then do some ⟨← qreg r.c, ← vreg r.d⟩ else none
def QcfgStat.toRG (o : QcfgStat) : RG := ⟨encV o.d, 0, 0, encQ o.q, 2, true⟩
def qcfgOffOf (r : RG) : Option (Fin 32) :=
  if r.w = false ∧ r.d.val = 0 ∧ r.a.val = 0 ∧ r.b.val = 0 ∧ r.x.val = 3 then qreg r.c else none
def encQcfgOff (q : Fin 32) : RG := ⟨0, 0, 0, encQ q, 3, false⟩
def QueueOp.ofPush (r : RG) : Option QueueOp :=
  if r.w = false ∧ r.b.val = 0 ∧ r.c.val = 0 ∧ r.x.val = 0 then do some ⟨← qreg r.d, ← vreg r.a⟩ else none
def QueueOp.toPush (o : QueueOp) : RG := ⟨encQ o.q, encV o.v, 0, 0, 0, false⟩
def QueueOp.ofPop (r : RG) : Option QueueOp :=
  if r.w = false ∧ r.b.val = 0 ∧ r.c.val = 0 ∧ r.x.val = 0 then do some ⟨← qreg r.a, ← vreg r.d⟩ else none
def QueueOp.toPop (o : QueueOp) : RG := ⟨encV o.v, encQ o.q, 0, 0, 0, false⟩
def QtryOp.ofRG (r : RG) : Option QtryOp :=
  if r.w = false ∧ r.c.val = 0 ∧ r.x.val = 0 then do some ⟨← qreg r.a, ← vreg r.d, ← preg r.b⟩ else none
def QtryOp.toRG (o : QtryOp) : RG := ⟨encV o.d, encQ o.q, encP o.p, 0, 0, false⟩
def SqOp.ofRG (r : RG) : Option SqOp :=
  if r.d.val = 0 ∧ r.c.val = 0 ∧ r.x.val < 4 then do some ⟨← scopeOf r.x, r.w, ← src r.a, ← src r.b⟩ else none
def SqOp.toRG (o : SqOp) : RG := ⟨0, encS o.a, encS o.b, 0, mkX o.scope.code, o.wide⟩
def SqrdOp.ofRG (r : RG) : Option SqrdOp :=
  if r.w ∧ r.b.val = 0 ∧ r.c.val = 0 ∧ r.x.val < 4 then do some ⟨← scopeOf r.x, ← vreg r.d, ← src r.a⟩ else none
def SqrdOp.toRG (o : SqrdOp) : RG := ⟨encV o.d, encS o.a, 0, 0, mkX o.scope.code, true⟩

/-- DESIGN CHOICE (log 119): a K register in D is accepted as an address operand (R226), although R94 forbids one in D; so
for CPT, CPM, CPG and MMST. -/
def CplOp.ofRG (r : RG) : Option CplOp :=
  if r.w = false ∧ r.c.val = 0 then do
    some ⟨mk4 r.x.val, ← cspaceOf (r.x.val / 4 % 8), ← cspaceOf (r.x.val / 32), ← src r.d, ← src r.a, ← src r.b⟩
  else none
def CplOp.toRG (o : CplOp) : RG :=
  ⟨encS o.d, encS o.a, encS o.b, 0, mkX (o.size.val + 4 * o.dsp.ccode + 32 * o.ssp.ccode), false⟩
/-- The X byte of R236. -/
def slotOf (x : Fin 256) : Fin 32 := ⟨x.val % 32, Nat.mod_lt _ (by decide)⟩
def CptOp.ofRG (r : RG) : Option CptOp :=
  if r.w = false ∧ r.c.val = 0 then do
    some ⟨slotOf r.x, xbit r.x 5, xbit r.x 6, xbit r.x 7, ← src r.d, ← vreg r.a, ← src r.b⟩
  else none
def CptOp.toRG (o : CptOp) : RG :=
  ⟨encS o.d, encV o.a, encS o.b, 0, mkX (o.slot.val + 32 * b2n o.st + 64 * b2n o.bar + 128 * b2n o.post), false⟩
def CpmOp.ofRG (r : RG) : Option CpmOp :=
  if r.w = false ∧ xbit r.x 5 = false then do
    some ⟨slotOf r.x, xbit r.x 6, xbit r.x 7, ← src r.d, ← vreg r.a, ← src r.b, ← src r.c⟩
  else none
def CpmOp.toRG (o : CpmOp) : RG :=
  ⟨encS o.d, encV o.a, encS o.b, encS o.c, mkX (o.slot.val + 64 * b2n o.bar + 128 * b2n o.post), false⟩
/-- CPCLOSE, CPWAIT, TEVICT, OENTER, OLEAVE, MMWAKE, MMZERO: only X is used. -/
def onlyX (r : RG) : Option (Fin 256) :=
  if r.w = false ∧ r.d.val = 0 ∧ r.a.val = 0 ∧ r.b.val = 0 ∧ r.c.val = 0 then some r.x else none
def encX (n : Nat) : RG := ⟨0, 0, 0, 0, mkX n, false⟩
/-- A single address or block operand in A: SORT, MMX, RAST, SPLAT, LAUNCH. -/
def onlyA (r : RG) : Option Src :=
  if r.w = false ∧ r.d.val = 0 ∧ r.b.val = 0 ∧ r.c.val = 0 ∧ r.x.val = 0 then src r.a else none
def encA (s : Src) : RG := ⟨0, encS s, 0, 0, 0, false⟩
def ChkwOp.ofRG (r : RG) : Option ChkwOp :=
  if r.w ∧ r.d.val = 0 ∧ r.c.val = 0 ∧ r.x.val = 0 then do some ⟨← src r.a, ← vreg r.b⟩ else none
def ChkwOp.toRG (o : ChkwOp) : RG := ⟨0, encS o.a, encV o.b, 0, 0, true⟩
def ChktOp.ofRG (r : RG) : Option ChktOp :=
  if r.w ∧ r.c.val = 0 ∧ r.x.val = 0 then do some ⟨← preg r.d, ← src r.a, ← vreg r.b⟩ else none
def ChktOp.toRG (o : ChktOp) : RG := ⟨encP o.d, encS o.a, encV o.b, 0, 0, true⟩
def TloadOp.ofRG (r : RG) : Option TloadOp :=
  if r.w = false ∧ r.d.val = 0 ∧ r.b.val = 0 ∧ r.c.val = 0 ∧ r.x.val < 32 then do some ⟨slotOf r.x, ← src r.a⟩ else none
def TloadOp.toRG (o : TloadOp) : RG := ⟨0, encS o.a, 0, 0, mkX o.slot.val, false⟩

/-! Chapters 10 to 15. -/

def mmzeroOf (r : RG) : Option MmzeroOp := do
  let x ← onlyX r
  if x.val < 64 then some ⟨slotOf x, xbit x 5⟩ else none
def encMmzero (o : MmzeroOp) : RG := encX (o.n.val + 32 * b2n o.pair)
def MmldOp.ofRG (r : RG) : Option MmldOp :=
  if r.w = false ∧ r.d.val = 0 ∧ r.x.val < 128 then do
    some ⟨slotOf r.x, xbit r.x 5, ← src r.a, ← src r.b, ← optSrc (xbit r.x 6) r.c⟩
  else none
def MmldOp.toRG (o : MmldOp) : RG :=
  ⟨0, encS o.a, encS o.b, encO o.ew, mkX (o.n.val + 32 * b2n o.pair + 64 * b2n o.ew.isSome), false⟩
def MmstOp.ofRG (r : RG) : Option MmstOp :=
  if r.w = false ∧ r.c.val = 0 ∧ r.x.val < 128 then do
    some ⟨slotOf r.x, xbit r.x 5, ← src r.a, ← src r.b, ← optSrc (xbit r.x 6) r.d⟩
  else none
def MmstOp.toRG (o : MmstOp) : RG :=
  ⟨encO o.bar, encS o.a, encS o.b, 0, mkX (o.n.val + 32 * b2n o.mem + 64 * b2n o.bar.isSome), false⟩
def MmrdOp.ofRG (r : RG) : Option MmrdOp :=
  if r.w = false ∧ r.a.val = 0 ∧ r.c.val = 0 ∧ r.x.val < 128 then do
    some ⟨slotOf r.x, mk4 (r.x.val / 32), ← vreg r.d, ← src r.b⟩
  else none
def MmrdOp.toRG (o : MmrdOp) : RG := ⟨encV o.d, 0, encS o.b, 0, mkX (o.n.val + 32 * o.nw.val), false⟩
def mmwakeOf (r : RG) : Option (Fin 16) := do
  let x ← onlyX r
  if h : x.val < 16 then some ⟨x.val, h⟩ else none
def MmstatOp.ofRG (r : RG) : Option MmstatOp :=
  if r.w ∧ r.a.val = 0 ∧ r.b.val = 0 ∧ r.c.val = 0 ∧ r.x.val < 2 then do some ⟨xbit r.x 0, ← vreg r.d⟩ else none
def MmstatOp.toRG (o : MmstatOp) : RG := ⟨encV o.d, 0, 0, 0, mkX (b2n o.clr), true⟩
def AttrOp.ofRG (r : RG) : Option AttrOp :=
  if r.w = false ∧ r.a.val = 0 ∧ r.c.val = 0 ∧ r.x.val < 2 then do some ⟨xbit r.x 0, ← vreg r.d, ← src r.b⟩ else none
def AttrOp.toRG (o : AttrOp) : RG := ⟨encV o.d, 0, encS o.b, 0, mkX (b2n o.deriv), false⟩
def FlcfgSet.ofRG (r : RG) : Option FlcfgSet :=
  if r.w = false ∧ r.d.val = 0 ∧ r.b.val = 0 ∧ r.c.val = 0 ∧ r.x.val < 32 ∧ r.x.val / 4 % 4 = 0 then do
    some ⟨mk4 r.x.val, xbit r.x 4, ← src r.a⟩
  else none
def FlcfgSet.toRG (o : FlcfgSet) : RG := ⟨0, encS o.a, 0, 0, mkX (o.slot.val + 16 * b2n o.mem), false⟩
/-- FLCFG.grow and FLCFG.off: SUB 1 and 2 (R304). -/
def flcfgSlot (sub : Nat) (r : RG) : Option (Fin 4) := do
  let x ← onlyX r
  if x.val / 4 = sub then some (mk4 x.val) else none
def FlinsOp.ofRG (r : RG) : Option FlinsOp :=
  if r.w = false ∧ r.x.val < 32 then
    if xbit r.x 2 then do
      some ⟨mk4 r.x.val, some (← flSrcOf (r.x.val / 8), ← src r.c), ← preg r.d, ← src r.a, ← vreg r.b⟩
    else if r.x.val < 8 ∧ r.c.val = 0 then do some ⟨mk4 r.x.val, none, ← preg r.d, ← src r.a, ← vreg r.b⟩
    else none
  else none
def FlinsOp.toRG (o : FlinsOp) : RG :=
  match o.px with
  | some (s, c) => ⟨encP o.d, encS o.a, encV o.b, encS c, mkX (o.slot.val + 4 + 8 * s.code), false⟩
  | none => ⟨encP o.d, encS o.a, encV o.b, 0, mkX o.slot.val, false⟩
/-- FLRES; CLR is X bit 2. -/
def FlresOp.ofRG (clr : Nat) (r : RG) : Option FlresOp :=
  if r.w = false ∧ r.b.val = 0 ∧ r.c.val = 0 ∧ r.x.val / 4 = clr then do
    some ⟨mk4 r.x.val, ← vreg r.d, ← src r.a⟩
  else none
def FlresOp.toRG (clr : Nat) (o : FlresOp) : RG := ⟨encV o.d, encS o.a, 0, 0, mkX (o.slot.val + 4 * clr), false⟩
def FlrdOp.ofRG (r : RG) : Option FlrdOp :=
  if r.w = false ∧ r.c.val = 0 ∧ r.x.val < 4 then do some ⟨mk4 r.x.val, ← vreg r.d, ← src r.a, ← src r.b⟩ else none
def FlrdOp.toRG (o : FlrdOp) : RG := ⟨encV o.d, encS o.a, encS o.b, 0, mkX o.slot.val, false⟩
def RayOp.ofRG (r : RG) : Option RayOp :=
  if r.w = false ∧ r.c.val = 0 ∧ r.x.val < 2 then do some ⟨xbit r.x 0, ← vreg r.d, ← src r.a, ← vreg r.b⟩ else none
def RayOp.toRG (o : RayOp) : RG := ⟨encV o.d, encS o.a, encV o.b, 0, mkX (b2n o.core), false⟩

def WgemitOp.ofRG (r : RG) : Option WgemitOp :=
  if r.w = false ∧ r.d.val = 0 ∧ r.c.val = 0 ∧ r.x.val < 2 then do some ⟨xbit r.x 0, ← src r.a, ← src r.b⟩ else none
def WgemitOp.toRG (o : WgemitOp) : RG := ⟨0, encS o.a, encS o.b, 0, mkX (b2n o.lane), false⟩
def HandleOp.ofRG (r : RG) : Option HandleOp :=
  if r.w ∧ r.b.val = 0 ∧ r.c.val = 0 ∧ r.x.val = 0 then do some ⟨← preg r.d, ← src r.a⟩ else none
def HandleOp.toRG (o : HandleOp) : RG := ⟨encP o.d, encS o.a, 0, 0, 0, true⟩
def DqpopOp.ofRG (r : RG) : Option DqpopOp :=
  if r.w ∧ r.a.val = 0 ∧ r.c.val = 0 ∧ r.x.val = 0 then do some ⟨← vreg r.d, ← preg r.b⟩ else none
def DqpopOp.toRG (o : DqpopOp) : RG := ⟨encV o.d, 0, encP o.p, 0, 0, true⟩
def DqstealOp.ofRG (r : RG) : Option DqstealOp :=
  if r.w ∧ r.c.val = 0 ∧ r.x.val < 2 then do some ⟨← optSrc (!xbit r.x 0) r.a, ← vreg r.d, ← preg r.b⟩ else none
def DqstealOp.toRG (o : DqstealOp) : RG := ⟨encV o.d, encO o.victim, encP o.p, 0, mkX (b2n o.victim.isNone), true⟩
def QuiesceArm.ofRG (r : RG) : Option QuiesceArm :=
  if r.w ∧ r.d.val = 0 ∧ r.x.val = 0 then do some ⟨← src r.a, ← src r.b, ← src r.c⟩ else none
def QuiesceArm.toRG (o : QuiesceArm) : RG := ⟨0, encS o.a, encS o.b, encS o.c, 0, true⟩
def QuiesceRd.ofRG (r : RG) : Option QuiesceRd :=
  if r.w ∧ r.b.val = 0 ∧ r.c.val = 0 ∧ r.x.val = 1 then do some ⟨← vreg r.d, ← src r.a⟩ else none
def QuiesceRd.toRG (o : QuiesceRd) : RG := ⟨encV o.d, encS o.a, 0, 0, 1, true⟩

def SrdOp.ofRG (r : RG) : Option SrdOp :=
  if r.a.val = 0 ∧ r.b.val = 0 ∧ r.c.val = 0 ∧ r.x.val < 128 then do
    some ⟨r.w, ⟨r.x.val % 64, Nat.mod_lt _ (by decide)⟩, xbit r.x 6, ← vreg r.d⟩
  else none
def SrdOp.toRG (o : SrdOp) : RG := ⟨encV o.d, 0, 0, 0, mkX (o.num.val + 64 * b2n o.tgt), o.wide⟩
def SwrOp.ofRG (r : RG) : Option SwrOp :=
  if r.d.val = 0 ∧ r.b.val = 0 ∧ r.c.val = 0 ∧ r.x.val < 128 then do
    some ⟨r.w, ⟨r.x.val % 64, Nat.mod_lt _ (by decide)⟩, xbit r.x 6, ← src r.a⟩
  else none
def SwrOp.toRG (o : SwrOp) : RG := ⟨0, encS o.a, 0, 0, mkX (o.num.val + 64 * b2n o.tgt), o.wide⟩
/-- RESUME.svc: X 1, W 0, every operand zero (R381). -/
def isResumeSvc (r : RG) : Bool := r == encX 1
def ResumeOp.ofRG (r : RG) : Option ResumeOp :=
  if r.w ∧ r.d.val = 0 ∧ r.c.val = 0 ∧ r.x.val = 0 then do some ⟨← src r.a, ← vreg r.b⟩ else none
def ResumeOp.toRG (o : ResumeOp) : RG := ⟨0, encS o.a, encV o.b, 0, 0, true⟩
def ConesetOp.ofRG (r : RG) : Option ConesetOp :=
  if h : r.x.val < 16 then
    if r.w then do some ⟨⟨r.x.val, h⟩, ← preg r.d, ← src r.a, ← src r.b, ← src r.c⟩ else none
  else none
def ConesetOp.toRG (o : ConesetOp) : RG := ⟨encP o.d, encS o.a, encS o.b, encS o.c, mkX o.n.val, true⟩
def InsprOp.ofRG (r : RG) : Option InsprOp :=
  if r.x.val = 0 then do some ⟨r.w, ← vreg r.d, ← src r.a, ← src r.b, ← preg r.c⟩ else none
def InsprOp.toRG (o : InsprOp) : RG := ⟨encV o.d, encS o.a, encS o.b, encP o.p, 0, o.wide⟩
def InspwOp.ofRG (r : RG) : Option InspwOp :=
  if r.x.val = 0 then do some ⟨r.w, ← preg r.d, ← src r.a, ← src r.b, ← src r.c⟩ else none
def InspwOp.toRG (o : InspwOp) : RG := ⟨encP o.d, encS o.a, encS o.b, encS o.c, 0, o.wide⟩
def StepOp.ofRG (r : RG) : Option StepOp :=
  if r.w = false ∧ r.b.val = 0 ∧ r.c.val = 0 ∧ r.x.val = 0 then do some ⟨← preg r.d, ← src r.a⟩ else none
def StepOp.toRG (o : StepOp) : RG := ⟨encP o.d, encS o.a, 0, 0, 0, false⟩

/-! Formats B and S. -/

/-- A tag in TGT bits 11:0, the rest zero (R77). -/
def tagOf (t : BitVec 32) : Option (BitVec 12) := if t.toNat < 4096 then some (BitVec.ofNat 12 t.toNat) else none
def encTag (t : BitVec 12) : BitVec 32 := BitVec.ofNat 32 t.toNat
/-- REG and KIND zero. -/
def tgtOnly (r : BF) : Option (BitVec 32) := if r.reg.val = 0 ∧ r.kind.val = 0 then some r.tgt else none
def IprefOp.ofBF (r : BF) : Option IprefOp := if r.reg.val = 0 then some ⟨r.kind, r.tgt⟩ else none
def IprefOp.toBF (o : IprefOp) : BF := ⟨0, o.n, o.tgt⟩

/-- X with JN, PD and SUB, bit 7 zero (R76); PD is zero where the entry has none. -/
def jnOf (x : Fin 4096) : Fin 16 := ⟨x.val % 16, Nat.mod_lt _ (by decide)⟩
/-- A thread selector (R401). -/
def haltSelOf (imm : BitVec 32) : Option HaltSel :=
  if imm.toNat < 32768 then
    some ⟨BitVec.ofNat 12 imm.toNat, ⟨imm.toNat / 4096 % 8, Nat.mod_lt _ (by decide)⟩⟩
  else none
def encHaltSel (s : HaltSel) : Nat := s.tid.toNat + 4096 * s.crew.val
def relSelOf (imm : BitVec 32) : Option RelSel :=
  if imm.toNat < 32768 then (haltSelOf imm).map RelSel.thr
  else if imm.toNat < 65536 then (haltSelOf (BitVec.ofNat 32 (imm.toNat - 32768))).map RelSel.all
  else none
def encRelSel : RelSel → Nat
  | .thr s => encHaltSel s
  | .all s => encHaltSel s + 32768

/-- The common fields of R36. -/
def Raw.common (r : Raw) : Common := ⟨r.pred, r.pneg, r.setf, r.dist⟩
/-- A word of an opcode, common fields, FB and operand bits. -/
def mkRaw (op : Fin 256) (c : Common) (fb : Bool) (body : Fin 0x100000000000) : Raw :=
  ⟨op, c.dist, c.setf, c.pneg, c.pred, fb, body⟩

/-- The opcodes of format RG (R47). -/
def decodeRG (op : Nat) (c : Common) (r : RG) : Option Instr :=
  match op with
  | 0x10 => (IntBin.ofRG r).map (.iadd c)
  | 0x11 => (IntBin.ofRG r).map (.isub c)
  | 0x12 => (IntBin.ofRG r).map (.imul c)
  | 0x13 => (IntBin.ofRG r).map (.imulh c)
  | 0x14 => (IntTri.ofRG r).map (.imad c)
  | 0x15 => (IntTri.ofRG r).map (.imadw c)
  | 0x16 => (IabsOp.ofRG r).map (.iabs c)
  | 0x17 => (IntBin.ofRG r).map (.imin c)
  | 0x18 => (IntBin.ofRG r).map (.imax c)
  | 0x19 => (LogBin.ofRG r).map (.and c)
  | 0x1A => (LogBin.ofRG r).map (.or c)
  | 0x1B => (LogBin.ofRG r).map (.xor c)
  | 0x1C => (FlagBin.ofRG r).map (.shl c)
  | 0x1D => (FlagBin.ofRG r).map (.shr c)
  | 0x1E => (FlagBin.ofRG r).map (.sar c)
  | 0x1F => (FlagBin.ofRG r).map (.bfe c)
  | 0x20 => (BfiOp.ofRG r).map (.bfi c)
  | 0x21 => (UnOp.ofRG r).map (.popc c)
  | 0x22 => (UnOp.ofRG r).map (.clz c)
  | 0x23 => (UnOp.ofRG r).map (.brev c)
  | 0x24 => (IcmpOp.ofRG r).map (.icmp c)
  | 0x25 => (SelOp.ofRG r).map (.sel c)
  | 0x26 => (UnOp.ofRG r).map (.mov c)
  | 0x28 => (LeaOp.ofRG r).map (.lea c)
  | 0x29 => (PlopOp.ofRG r).map (.plop c)
  | 0x2A => if r.x.val = 0 then (SmovRead.ofRG r).map (.smovRead c) else (SmovWrite.ofRG r).map (.smovWrite c)
  | 0x2B => if r.x.val = 0 then (KmovOp.ofRGTo r).map (.kmovToK c) else (KmovOp.ofRGFrom r).map (.kmovFromK c)
  | 0x2C => (ElectOp.ofRG r).map (.elect c)
  | 0x30 => (FpBin.ofRG r).map (.fadd c)
  | 0x31 => (FpBin.ofRG r).map (.fsub c)
  | 0x32 => (FpBin.ofRG r).map (.fmul c)
  | 0x33 => (FpTri.ofRG r).map (.ffma c)
  | 0x34 => (FpBin.ofRG r).map (.fmin c)
  | 0x35 => (FpBin.ofRG r).map (.fmax c)
  | 0x36 => (FcmpOp.ofRG r).map (.fcmp c)
  | 0x37 => (FpUn.ofRG r).map (.frcp c)
  | 0x38 => (FpUn.ofRG r).map (.fsqrt c)
  | 0x39 => (FpUn.ofRG r).map (.frsq c)
  | 0x3A => (FpUn.ofRG r).map (.fexp2 c)
  | 0x3B => (FpUn.ofRG r).map (.flog2 c)
  | 0x3C => (FpUn.ofRG r).map (.fsin c)
  | 0x3D => (FpUn.ofRG r).map (.fcos c)
  | 0x3E => (FpUn.ofRG r).map (.frnd c)
  | 0x3F => (FpBin.ofRG r).map (.fscl c)
  | 0x40 => (FclsOp.ofRG r).map (.fcls c)
  | 0x41 => (FcvtOp.ofRG r).map (.fcvt c)
  | 0x42 => (CvtIntOp.ofF2i r).map (.f2i c)
  | 0x43 => (CvtIntOp.ofI2f r).map (.i2f c)
  | 0x44 => (FdotOp.ofRG r).map (.fdot c)
  | 0x45 => if xbit r.x 3 then (BqntScale.ofRG r).map (.bqntScale c) else (BqntElem.ofRG r).map (.bqntElement c)
  | 0x46 => (BdqOp.ofRG r).map (.bdq c)
  | 0x60 => (ShflOp.ofRG r).map (.shfl c)
  | 0x61 => (VoteOp.ofRG r).map (.vote c)
  | 0x62 => (FoldOp.ofRG r).map (.lred c)
  | 0x63 => (FoldOp.ofRG r).map (.lscan c)
  | 0x64 => (MatchOp.ofRG r).map (.matchLanes c)
  | 0x90 => (AtomOp.ofRG r).map (.atom c)
  | 0x91 => (CasOp.ofRG r).map (.atomcas c)
  | 0x92 => (RedOpnd.ofRG r).map (.red c)
  | 0x93 => (XaddOp.ofRG r).map (.xadd c)
  | 0x94 => (XreadOp.ofRG r).map (.xread c)
  | 0x95 => if xbit r.x 0 then (XclrOp.ofRG 1 r).map (.xclrLine c) else (XclrOp.ofRG 0 r).map (.xclr c)
  | 0x96 => (GlazeOp.ofRG r).map (.glaze c)
  | 0x97 => (GlzinsOp.ofRG r).map (.glzins c)
  | 0x98 => (GlzqOp.ofRG r).map (.glzq c)
  | 0xA0 => (BariOp.ofRG r).map (.bari c)
  | 0xA1 => (BaraOp.ofRG r).map (.bara c)
  | 0xA2 => (BarwOp.ofRG r).map (.barw c)
  | 0xA3 => if xbit r.x 4 then (BartPOp.ofRG r).map (.bartPoison c) else (BarwOp.ofRG r).map (.bart c)
  | 0xA4 => (BarpOp.ofRG r).map (.barp c)
  | 0xA5 =>
    match r.x.val with
    | 0 => (QcfgSet.ofRG r).map (.qcfgSet c)
    | 1 => (QcfgGrant.ofRG r).map (.qcfgGrant c)
    | 2 => (QcfgStat.ofRG r).map (.qcfgStat c)
    | _ => (qcfgOffOf r).map (.qcfgOff c)
  | 0xA6 => (QueueOp.ofPush r).map (.qpush c)
  | 0xA7 => (QueueOp.ofPop r).map (.qpop c)
  | 0xA8 => (QtryOp.ofRG r).map (.qtry c)
  | 0xA9 => (SqOp.ofRG r).map (.sqadd c)
  | 0xAA => (SqOp.ofRG r).map (.sqwait c)
  | 0xAB => (SqrdOp.ofRG r).map (.sqrd c)
  | 0xB0 => (CplOp.ofRG r).map (.cpl c)
  | 0xB1 => (CptOp.ofRG r).map (.cpt c)
  | 0xB2 => (CpmOp.ofRG r).map (.cpm c)
  | 0xB3 => (CpmOp.ofRG r).map (.cpg c)
  | 0xB4 => (onlyX r).bind fun x => if x.val = 0 then some (.cpclose c) else none
  | 0xB5 => (onlyX r).bind fun x => if x.val < 8 then some (.cpwait c (mk8 x.val)) else none
  | 0xB6 => (ChkwOp.ofRG r).map (.chkw c)
  | 0xB7 => (ChktOp.ofRG r).map (.chkt c)
  | 0xB8 => (TloadOp.ofRG r).map (.tload c)
  | 0xB9 => (onlyX r).bind fun x => if x.val < 32 then some (.tevict c (slotOf x)) else none
  | 0xBA => (onlyA r).map (.sort c)
  | 0xC0 => (onlyA r).map (.mmx c)
  | 0xC1 => (mmzeroOf r).map (.mmzero c)
  | 0xC2 => (MmldOp.ofRG r).map (.mmld c)
  | 0xC3 => (MmstOp.ofRG r).map (.mmst c)
  | 0xC4 => (MmrdOp.ofRG r).map (.mmrd c)
  | 0xC5 => (mmwakeOf r).map (.mmwake c)
  | 0xC6 => (MmstatOp.ofRG r).map (.mmstat c)
  | 0xD0 => (onlyA r).map (.rast c)
  | 0xD1 => (AttrOp.ofRG r).map (.attr c)
  | 0xD2 => (onlyX r).bind fun x => if x.val = 0 then some (.oenter c) else none
  | 0xD3 => (onlyX r).bind fun x => if x.val = 0 then some (.oleave c) else none
  | 0xD4 =>
    match r.x.val / 4 % 4 with
    | 0 => (FlcfgSet.ofRG r).map (.flcfgSet c)
    | 1 => (flcfgSlot 1 r).map (.flcfgGrow c)
    | _ => (flcfgSlot 2 r).map (.flcfgOff c)
  | 0xD5 => (FlinsOp.ofRG r).map (.flins c)
  | 0xD6 => if xbit r.x 2 then (FlresOp.ofRG 1 r).map (.flresClr c) else (FlresOp.ofRG 0 r).map (.flres c)
  | 0xD7 => (FlrdOp.ofRG r).map (.flrd c)
  | 0xD8 => (onlyA r).map (.splat c)
  | 0xD9 => (RayOp.ofRG r).map (.raybox c)
  | 0xDA => (RayOp.ofRG r).map (.raytri c)
  | 0xE0 => (onlyA r).map (.launch c)
  | 0xE1 => (WgemitOp.ofRG r).map (.wgemit c)
  | 0xE2 => (HandleOp.ofRG r).map (.wgdone c)
  | 0xE3 => (HandleOp.ofRG r).map (.dqpush c)
  | 0xE4 => (DqpopOp.ofRG r).map (.dqpop c)
  | 0xE5 => (DqstealOp.ofRG r).map (.dqsteal c)
  | 0xE6 => if r.x.val = 0 then (QuiesceArm.ofRG r).map (.quiesceArm c) else (QuiesceRd.ofRG r).map (.quiesceRd c)
  | 0xF1 => (SrdOp.ofRG r).map (.srd c)
  | 0xF2 => (SwrOp.ofRG r).map (.swr c)
  | 0xF4 => if isResumeSvc r then some (.resumeSvc c) else (ResumeOp.ofRG r).map (.resume c)
  | 0xF8 => (ConesetOp.ofRG r).map (.coneset c)
  | 0xFB => (InsprOp.ofRG r).map (.inspr c)
  | 0xFC => (InspwOp.ofRG r).map (.inspw c)
  | 0xFD => (StepOp.ofRG r).map (.step c)
  | _ => none

/-- The opcodes of formats RI and I32 (R47). -/
def decodeRI (op : Nat) (c : Common) (r : RI) : Option Instr :=
  match op with
  | 0x2D => (IaddiOp.ofRI r).map (.iaddi c)
  | _ => (LopiOp.ofRI r).map (.lopi c)

/-- The opcodes of format M (R47). -/
def decodeM (op : Nat) (c : Common) (r : MF) : Option Instr :=
  match op with
  | 0x70 => (LdOp.ofMF r).map (.ld c)
  | 0x71 => (StOp.ofMF r).map (.st c)
  | 0x72 => (StOp.ofMF r).map (.stt c)
  | 0x73 => (PrefOp.ofMF r).map (.pref c)
  | 0x78 => (flushOf r).bind fun o =>
    match r.sx, r.wid.val with
    | false, 0 => some (.cflushL1 c o)
    | false, 1 => some (.cflushClean c o)
    | false, 2 => some (.cflushInval c o)
    | true, 0 => some (.cflushTlb c o)
    | true, 1 => some (.cflushAsid c o)
    | true, 2 => some (.cflushCtx c o)
    | _, _ => none
  | 0x79 => (FeOp.ofMF r).map (.feset c)
  | 0x7A => (FeOp.ofMF r).map (.feclr c)
  | _ => (MonOp.ofMF r).map (.monitor c)

/-- The opcodes of format B (R47, R77, R170, R380). -/
def decodeB (op : Nat) (c : Common) (r : BF) : Option Instr :=
  match op with
  | 0x01 => (tgtOnly r).map (.bra c)
  | 0x02 => if r.kind.val = 0 then do some (.brx c (← vreg r.reg) (← tagOf r.tgt)) else none
  | 0x03 => if r.kind.val = 0 then (vreg r.reg).map fun v => .call c v r.tgt else none
  | 0x04 => if r.kind.val = 0 then do some (.callx c (← vreg r.reg) (← tagOf r.tgt)) else none
  | 0x05 =>
    match r.kind.val with
    | 0 => if r.tgt.toNat = 0 then (vreg r.reg).map (.ret c) else none
    | 1 => do some (.retChecked c (← vreg r.reg) (← tagOf r.tgt))
    | _ => none
  | 0x74 => (IprefOp.ofBF r).map (.ipref c)
  | 0x75 => (IprefOp.ofBF r).map (.ipin c)
  | 0x76 => (IprefOp.ofBF r).map (.iunpin c)
  | _ =>
    match r.kind.val with
    | 0 => if r.reg.val = 0 then some (.cont c r.tgt) else none
    | 1 => if r.reg.val = 0 ∧ r.tgt.toNat = 0 then some (.contOff c) else none
    | _ => none

/-- The opcodes of format S (R47). -/
def decodeS (op : Nat) (c : Common) (r : SF) : Option Instr :=
  let im0 := r.imm.toNat = 0
  match op with
  | 0x00 => if r.x.val = 0 then some (.nop c r.imm) else none
  | 0x06 =>
    if r.x.val / 16 % 16 = 0 then
      match r.x.val / 256 with
      | 0 => if im0 then some (.jinitLive c (jnOf r.x)) else none
      | 1 => if im0 then some (.jinitSelf c (jnOf r.x)) else none
      | 2 => if im0 then some (.jinitClear c (jnOf r.x)) else none
      | 3 => if h : r.imm.toNat < 64 then some (.jinitK c (jnOf r.x) ⟨r.imm.toNat, h⟩) else none
      | _ => none
    else none
  | 0x07 => if r.x.val < 16 ∧ im0 then some (.join c (jnOf r.x)) else none
  | 0x08 => if r.x.val < 16 ∧ im0 then some (.jleave c (jnOf r.x)) else none
  | 0x09 =>
    if r.x.val / 128 % 2 = 0 ∧ im0 then
      (jtestOf (r.x.val / 256)).map fun k => .jtest c k (jnOf r.x) (mk8 (r.x.val / 16))
    else none
  | 0x0A => if r.x.val = 0 ∧ im0 then some (.exit c) else none
  | 0x0B => if r.x.val = 0 ∧ r.imm.toNat < 4096 then some (.yield c (BitVec.ofNat 12 r.imm.toNat)) else none
  | 0x77 =>
    if r.x.val < 16 ∧ im0 then
      (scopeOf (r.x.val / 4)).bind fun s =>
        match r.x.val % 4 with
        | 0 => some (.fenceRel c s)
        | 1 => some (.fenceAcq c s)
        | 2 => some (.fenceAr c s)
        | _ => none
    else none
  | 0x7C => if r.x.val = 0 ∧ im0 then some (.waitm c) else none
  | 0xF0 => if r.x.val < 256 then some (.trap c ⟨BitVec.ofNat 8 r.x.val, r.imm⟩) else none
  | 0xF5 =>
    match r.x.val with
    | 0 => if im0 then some (.tretRec c) else none
    | 1 => if im0 then some (.tretNext c) else none
    | 2 => if im0 then some (.tretKill c) else none
    | 3 => some (.tretTerm c r.imm)
    | _ => none
  | 0xF9 =>
    if im0 then
      match r.x.val / 16 with
      | 0 => some (.coneclr c (jnOf r.x))
      | 1 => if r.x.val % 16 = 0 then some (.coneclrAll c false) else none
      | 2 => some (.coneclrRec c (jnOf r.x))
      | 3 => if r.x.val % 16 = 0 then some (.coneclrAll c true) else none
      | _ => none
    else none
  | 0xFA =>
    match r.x.val with
    | 0 => if im0 then some (.haltSelf c) else none
    | 1 => if im0 then some (.haltCrew c) else none
    | 2 => if im0 then some (.haltTeam c) else none
    | 3 => (haltSelOf r.imm).map (.haltThr c)
    | 4 => (relSelOf r.imm).map (.haltRel c)
    | _ => none
  | _ => some (.tmark c ⟨BitVec.ofNat 12 r.x.val, r.imm⟩)

/-- The formats of R47. -/
inductive Format where
  | rg | ri | i32 | m | b | s
  deriving DecidableEq, Repr

/-- The format of an opcode; none where it is unassigned or ILL (R47). -/
def formatOf (op : Nat) : Option Format :=
  if op = 0 ∨ (6 ≤ op ∧ op ≤ 0x0B) ∨ op = 0x77 ∨ op = 0x7C ∨ op = 0xF0 ∨ op = 0xF5 ∨ op = 0xF9 ∨ op = 0xFA ∨ op = 0xFE
  then some .s
  else if op ≤ 5 ∨ (0x74 ≤ op ∧ op ≤ 0x76) ∨ op = 0xF3 then some .b
  else if op = 0x27 then some .i32
  else if op = 0x2D ∨ op = 0x2E then some .ri
  else if (0x10 ≤ op ∧ op ≤ 0x2C) ∨ (0x30 ≤ op ∧ op ≤ 0x46) ∨ (0x60 ≤ op ∧ op ≤ 0x64) ∨ (0x90 ≤ op ∧ op ≤ 0x98) ∨
      (0xA0 ≤ op ∧ op ≤ 0xAB) ∨ (0xB0 ≤ op ∧ op ≤ 0xBA) ∨ (0xC0 ≤ op ∧ op ≤ 0xC6) ∨ (0xD0 ≤ op ∧ op ≤ 0xDA) ∨
      (0xE0 ≤ op ∧ op ≤ 0xE6) ∨ op = 0xF1 ∨ op = 0xF2 ∨ op = 0xF4 ∨ op = 0xF8 ∨ (0xFB ≤ op ∧ op ≤ 0xFD)
  then some .rg
  else if (0x70 ≤ op ∧ op ≤ 0x73) ∨ (0x78 ≤ op ∧ op ≤ 0x7B) then some .m
  else none

/-- The instruction that a word's fields name, before the checks of WellFormed. -/
def decodeRaw (r : Raw) : Option Instr :=
  match formatOf r.op with
  | some .rg => decodeRG r.op r.common (RG.split r.fb r.body)
  | some .ri => decodeRI r.op r.common (RI.split r.fb r.body)
  | some .i32 => (MoviOp.ofI32 (I32.split r.fb r.body)).map (.movi r.common)
  | some .m => decodeM r.op r.common (MF.split r.fb r.body)
  | some .b => if r.fb then none else decodeB r.op r.common (BF.split r.body)
  | some .s => if r.fb then none else decodeS r.op r.common (SF.split r.body)
  | none => none

/-- The instruction of a 64-bit word (R36, R49, R50), or the reason why it is none. -/
def decode (w : Nat) : Except DecErr Instr :=
  let r := splitWord w
  if r.op.val = 0xFF then .ok (.ill (BitVec.ofNat 32 w))
  else if (formatOf r.op).isNone then .error .unassigned
  else match decodeRaw r with
    | none => .error .fields
    | some i => match i.errs with
      | [] => .ok i
      | e :: _ => .error (.illFormed e)

/-- The fields of an instruction's word; none for an event. -/
def encodeRaw : Instr → Option Raw
  | .nop c imm => some (mkRaw 0x00 c false (SF.join ⟨0, imm⟩))
  | .bra c t => some (mkRaw 0x01 c false (BF.join ⟨0, 0, t⟩))
  | .brx c r t => some (mkRaw 0x02 c false (BF.join ⟨encV r, 0, encTag t⟩))
  | .call c r t => some (mkRaw 0x03 c false (BF.join ⟨encV r, 0, t⟩))
  | .callx c r t => some (mkRaw 0x04 c false (BF.join ⟨encV r, 0, encTag t⟩))
  | .ret c r => some (mkRaw 0x05 c false (BF.join ⟨encV r, 0, 0⟩))
  | .retChecked c r t => some (mkRaw 0x05 c false (BF.join ⟨encV r, 1, encTag t⟩))
  | .jinitLive c j => some (mkRaw 0x06 c false (SF.join ⟨mk12 j.val, 0⟩))
  | .jinitSelf c j => some (mkRaw 0x06 c false (SF.join ⟨mk12 (j.val + 256), 0⟩))
  | .jinitClear c j => some (mkRaw 0x06 c false (SF.join ⟨mk12 (j.val + 512), 0⟩))
  | .jinitK c j k => some (mkRaw 0x06 c false (SF.join ⟨mk12 (j.val + 768), BitVec.ofNat 32 k.val⟩))
  | .join c j => some (mkRaw 0x07 c false (SF.join ⟨mk12 j.val, 0⟩))
  | .jleave c j => some (mkRaw 0x08 c false (SF.join ⟨mk12 j.val, 0⟩))
  | .jtest c k j p => some (mkRaw 0x09 c false (SF.join ⟨mk12 (j.val + 16 * p.val + 256 * k.code), 0⟩))
  | .exit c => some (mkRaw 0x0A c false (SF.join ⟨0, 0⟩))
  | .yield c n => some (mkRaw 0x0B c false (SF.join ⟨0, BitVec.ofNat 32 n.toNat⟩))
  | .iadd c o => some (mkRaw 0x10 c o.toRG.w o.toRG.join)
  | .isub c o => some (mkRaw 0x11 c o.toRG.w o.toRG.join)
  | .imul c o => some (mkRaw 0x12 c o.toRG.w o.toRG.join)
  | .imulh c o => some (mkRaw 0x13 c o.toRG.w o.toRG.join)
  | .imad c o => some (mkRaw 0x14 c o.toRG.w o.toRG.join)
  | .imadw c o => some (mkRaw 0x15 c o.toRG.w o.toRG.join)
  | .iabs c o => some (mkRaw 0x16 c o.toRG.w o.toRG.join)
  | .imin c o => some (mkRaw 0x17 c o.toRG.w o.toRG.join)
  | .imax c o => some (mkRaw 0x18 c o.toRG.w o.toRG.join)
  | .and c o => some (mkRaw 0x19 c o.toRG.w o.toRG.join)
  | .or c o => some (mkRaw 0x1A c o.toRG.w o.toRG.join)
  | .xor c o => some (mkRaw 0x1B c o.toRG.w o.toRG.join)
  | .shl c o => some (mkRaw 0x1C c o.toRG.w o.toRG.join)
  | .shr c o => some (mkRaw 0x1D c o.toRG.w o.toRG.join)
  | .sar c o => some (mkRaw 0x1E c o.toRG.w o.toRG.join)
  | .bfe c o => some (mkRaw 0x1F c o.toRG.w o.toRG.join)
  | .bfi c o => some (mkRaw 0x20 c o.toRG.w o.toRG.join)
  | .popc c o => some (mkRaw 0x21 c o.toRG.w o.toRG.join)
  | .clz c o => some (mkRaw 0x22 c o.toRG.w o.toRG.join)
  | .brev c o => some (mkRaw 0x23 c o.toRG.w o.toRG.join)
  | .icmp c o => some (mkRaw 0x24 c o.toRG.w o.toRG.join)
  | .sel c o => some (mkRaw 0x25 c o.toRG.w o.toRG.join)
  | .mov c o => some (mkRaw 0x26 c o.toRG.w o.toRG.join)
  | .movi c o => some (mkRaw 0x27 c o.toI32.w o.toI32.join)
  | .lea c o => some (mkRaw 0x28 c o.toRG.w o.toRG.join)
  | .plop c o => some (mkRaw 0x29 c o.toRG.w o.toRG.join)
  | .smovRead c o => some (mkRaw 0x2A c o.toRG.w o.toRG.join)
  | .smovWrite c o => some (mkRaw 0x2A c o.toRG.w o.toRG.join)
  | .kmovToK c o => some (mkRaw 0x2B c o.toRGTo.w o.toRGTo.join)
  | .kmovFromK c o => some (mkRaw 0x2B c o.toRGFrom.w o.toRGFrom.join)
  | .elect c o => some (mkRaw 0x2C c o.toRG.w o.toRG.join)
  | .iaddi c o => some (mkRaw 0x2D c o.toRI.w o.toRI.join)
  | .lopi c o => some (mkRaw 0x2E c o.toRI.w o.toRI.join)
  | .fadd c o => some (mkRaw 0x30 c o.toRG.w o.toRG.join)
  | .fsub c o => some (mkRaw 0x31 c o.toRG.w o.toRG.join)
  | .fmul c o => some (mkRaw 0x32 c o.toRG.w o.toRG.join)
  | .ffma c o => some (mkRaw 0x33 c o.toRG.w o.toRG.join)
  | .fmin c o => some (mkRaw 0x34 c o.toRG.w o.toRG.join)
  | .fmax c o => some (mkRaw 0x35 c o.toRG.w o.toRG.join)
  | .fcmp c o => some (mkRaw 0x36 c o.toRG.w o.toRG.join)
  | .frcp c o => some (mkRaw 0x37 c o.toRG.w o.toRG.join)
  | .fsqrt c o => some (mkRaw 0x38 c o.toRG.w o.toRG.join)
  | .frsq c o => some (mkRaw 0x39 c o.toRG.w o.toRG.join)
  | .fexp2 c o => some (mkRaw 0x3A c o.toRG.w o.toRG.join)
  | .flog2 c o => some (mkRaw 0x3B c o.toRG.w o.toRG.join)
  | .fsin c o => some (mkRaw 0x3C c o.toRG.w o.toRG.join)
  | .fcos c o => some (mkRaw 0x3D c o.toRG.w o.toRG.join)
  | .frnd c o => some (mkRaw 0x3E c o.toRG.w o.toRG.join)
  | .fscl c o => some (mkRaw 0x3F c o.toRG.w o.toRG.join)
  | .fcls c o => some (mkRaw 0x40 c o.toRG.w o.toRG.join)
  | .fcvt c o => some (mkRaw 0x41 c o.toRG.w o.toRG.join)
  | .f2i c o => some (mkRaw 0x42 c o.toF2i.w o.toF2i.join)
  | .i2f c o => some (mkRaw 0x43 c o.toI2f.w o.toI2f.join)
  | .fdot c o => some (mkRaw 0x44 c o.toRG.w o.toRG.join)
  | .bqntScale c o => some (mkRaw 0x45 c o.toRG.w o.toRG.join)
  | .bqntElement c o => some (mkRaw 0x45 c o.toRG.w o.toRG.join)
  | .bdq c o => some (mkRaw 0x46 c o.toRG.w o.toRG.join)
  | .shfl c o => some (mkRaw 0x60 c o.toRG.w o.toRG.join)
  | .vote c o => some (mkRaw 0x61 c o.toRG.w o.toRG.join)
  | .lred c o => some (mkRaw 0x62 c o.toRG.w o.toRG.join)
  | .lscan c o => some (mkRaw 0x63 c o.toRG.w o.toRG.join)
  | .matchLanes c o => some (mkRaw 0x64 c o.toRG.w o.toRG.join)
  | .ld c o => some (mkRaw 0x70 c o.toMF.sx o.toMF.join)
  | .st c o => some (mkRaw 0x71 c o.toMF.sx o.toMF.join)
  | .stt c o => some (mkRaw 0x72 c o.toMF.sx o.toMF.join)
  | .pref c o => some (mkRaw 0x73 c o.toMF.sx o.toMF.join)
  | .ipref c o => some (mkRaw 0x74 c false o.toBF.join)
  | .ipin c o => some (mkRaw 0x75 c false o.toBF.join)
  | .iunpin c o => some (mkRaw 0x76 c false o.toBF.join)
  | .fenceRel c s => some (mkRaw 0x77 c false (SF.join ⟨mk12 (4 * s.code), 0⟩))
  | .fenceAcq c s => some (mkRaw 0x77 c false (SF.join ⟨mk12 (1 + 4 * s.code), 0⟩))
  | .fenceAr c s => some (mkRaw 0x77 c false (SF.join ⟨mk12 (2 + 4 * s.code), 0⟩))
  | .cflushL1 c o => some (mkRaw 0x78 c false (encFlush false 0 o).join)
  | .cflushClean c o => some (mkRaw 0x78 c false (encFlush false 1 o).join)
  | .cflushInval c o => some (mkRaw 0x78 c false (encFlush false 2 o).join)
  | .cflushTlb c o => some (mkRaw 0x78 c true (encFlush true 0 o).join)
  | .cflushAsid c o => some (mkRaw 0x78 c true (encFlush true 1 o).join)
  | .cflushCtx c o => some (mkRaw 0x78 c true (encFlush true 2 o).join)
  | .feset c o => some (mkRaw 0x79 c o.toMF.sx o.toMF.join)
  | .feclr c o => some (mkRaw 0x7A c o.toMF.sx o.toMF.join)
  | .monitor c o => some (mkRaw 0x7B c o.toMF.sx o.toMF.join)
  | .waitm c => some (mkRaw 0x7C c false (SF.join ⟨0, 0⟩))
  | .atom c o => some (mkRaw 0x90 c o.toRG.w o.toRG.join)
  | .atomcas c o => some (mkRaw 0x91 c o.toRG.w o.toRG.join)
  | .red c o => some (mkRaw 0x92 c o.toRG.w o.toRG.join)
  | .xadd c o => some (mkRaw 0x93 c o.toRG.w o.toRG.join)
  | .xread c o => some (mkRaw 0x94 c o.toRG.w o.toRG.join)
  | .xclr c o => some (mkRaw 0x95 c (o.toRG 0).w (o.toRG 0).join)
  | .xclrLine c o => some (mkRaw 0x95 c (o.toRG 1).w (o.toRG 1).join)
  | .glaze c o => some (mkRaw 0x96 c o.toRG.w o.toRG.join)
  | .glzins c o => some (mkRaw 0x97 c o.toRG.w o.toRG.join)
  | .glzq c o => some (mkRaw 0x98 c o.toRG.w o.toRG.join)
  | .bari c o => some (mkRaw 0xA0 c o.toRG.w o.toRG.join)
  | .bara c o => some (mkRaw 0xA1 c o.toRG.w o.toRG.join)
  | .barw c o => some (mkRaw 0xA2 c o.toRG.w o.toRG.join)
  | .bart c o => some (mkRaw 0xA3 c o.toRG.w o.toRG.join)
  | .bartPoison c o => some (mkRaw 0xA3 c o.toRG.w o.toRG.join)
  | .barp c o => some (mkRaw 0xA4 c o.toRG.w o.toRG.join)
  | .qcfgSet c o => some (mkRaw 0xA5 c o.toRG.w o.toRG.join)
  | .qcfgGrant c o => some (mkRaw 0xA5 c o.toRG.w o.toRG.join)
  | .qcfgStat c o => some (mkRaw 0xA5 c o.toRG.w o.toRG.join)
  | .qcfgOff c q => some (mkRaw 0xA5 c false (encQcfgOff q).join)
  | .qpush c o => some (mkRaw 0xA6 c o.toPush.w o.toPush.join)
  | .qpop c o => some (mkRaw 0xA7 c o.toPop.w o.toPop.join)
  | .qtry c o => some (mkRaw 0xA8 c o.toRG.w o.toRG.join)
  | .sqadd c o => some (mkRaw 0xA9 c o.toRG.w o.toRG.join)
  | .sqwait c o => some (mkRaw 0xAA c o.toRG.w o.toRG.join)
  | .sqrd c o => some (mkRaw 0xAB c o.toRG.w o.toRG.join)
  | .cpl c o => some (mkRaw 0xB0 c o.toRG.w o.toRG.join)
  | .cpt c o => some (mkRaw 0xB1 c o.toRG.w o.toRG.join)
  | .cpm c o => some (mkRaw 0xB2 c o.toRG.w o.toRG.join)
  | .cpg c o => some (mkRaw 0xB3 c o.toRG.w o.toRG.join)
  | .cpclose c => some (mkRaw 0xB4 c false (encX 0).join)
  | .cpwait c n => some (mkRaw 0xB5 c false (encX n.val).join)
  | .chkw c o => some (mkRaw 0xB6 c o.toRG.w o.toRG.join)
  | .chkt c o => some (mkRaw 0xB7 c o.toRG.w o.toRG.join)
  | .tload c o => some (mkRaw 0xB8 c o.toRG.w o.toRG.join)
  | .tevict c n => some (mkRaw 0xB9 c false (encX n.val).join)
  | .sort c a => some (mkRaw 0xBA c false (encA a).join)
  | .mmx c a => some (mkRaw 0xC0 c false (encA a).join)
  | .mmzero c o => some (mkRaw 0xC1 c false (encMmzero o).join)
  | .mmld c o => some (mkRaw 0xC2 c o.toRG.w o.toRG.join)
  | .mmst c o => some (mkRaw 0xC3 c o.toRG.w o.toRG.join)
  | .mmrd c o => some (mkRaw 0xC4 c o.toRG.w o.toRG.join)
  | .mmwake c m => some (mkRaw 0xC5 c false (encX m.val).join)
  | .mmstat c o => some (mkRaw 0xC6 c o.toRG.w o.toRG.join)
  | .rast c a => some (mkRaw 0xD0 c false (encA a).join)
  | .attr c o => some (mkRaw 0xD1 c o.toRG.w o.toRG.join)
  | .oenter c => some (mkRaw 0xD2 c false (encX 0).join)
  | .oleave c => some (mkRaw 0xD3 c false (encX 0).join)
  | .flcfgSet c o => some (mkRaw 0xD4 c o.toRG.w o.toRG.join)
  | .flcfgGrow c n => some (mkRaw 0xD4 c false (encX (n.val + 4)).join)
  | .flcfgOff c n => some (mkRaw 0xD4 c false (encX (n.val + 8)).join)
  | .flins c o => some (mkRaw 0xD5 c o.toRG.w o.toRG.join)
  | .flres c o => some (mkRaw 0xD6 c (o.toRG 0).w (o.toRG 0).join)
  | .flresClr c o => some (mkRaw 0xD6 c (o.toRG 1).w (o.toRG 1).join)
  | .flrd c o => some (mkRaw 0xD7 c o.toRG.w o.toRG.join)
  | .splat c a => some (mkRaw 0xD8 c false (encA a).join)
  | .raybox c o => some (mkRaw 0xD9 c o.toRG.w o.toRG.join)
  | .raytri c o => some (mkRaw 0xDA c o.toRG.w o.toRG.join)
  | .launch c a => some (mkRaw 0xE0 c false (encA a).join)
  | .wgemit c o => some (mkRaw 0xE1 c o.toRG.w o.toRG.join)
  | .wgdone c o => some (mkRaw 0xE2 c o.toRG.w o.toRG.join)
  | .dqpush c o => some (mkRaw 0xE3 c o.toRG.w o.toRG.join)
  | .dqpop c o => some (mkRaw 0xE4 c o.toRG.w o.toRG.join)
  | .dqsteal c o => some (mkRaw 0xE5 c o.toRG.w o.toRG.join)
  | .quiesceArm c o => some (mkRaw 0xE6 c o.toRG.w o.toRG.join)
  | .quiesceRd c o => some (mkRaw 0xE6 c o.toRG.w o.toRG.join)
  | .trap c o => some (mkRaw 0xF0 c false (SF.join ⟨mk12 o.code.toNat, o.imm⟩))
  | .srd c o => some (mkRaw 0xF1 c o.toRG.w o.toRG.join)
  | .swr c o => some (mkRaw 0xF2 c o.toRG.w o.toRG.join)
  | .cont c t => some (mkRaw 0xF3 c false (BF.join ⟨0, 0, t⟩))
  | .contOff c => some (mkRaw 0xF3 c false (BF.join ⟨0, 1, 0⟩))
  | .resumeSvc c => some (mkRaw 0xF4 c false (encX 1).join)
  | .resume c o => some (mkRaw 0xF4 c o.toRG.w o.toRG.join)
  | .tretRec c => some (mkRaw 0xF5 c false (SF.join ⟨0, 0⟩))
  | .tretNext c => some (mkRaw 0xF5 c false (SF.join ⟨1, 0⟩))
  | .tretKill c => some (mkRaw 0xF5 c false (SF.join ⟨2, 0⟩))
  | .tretTerm c imm => some (mkRaw 0xF5 c false (SF.join ⟨3, imm⟩))
  | .coneset c o => some (mkRaw 0xF8 c o.toRG.w o.toRG.join)
  | .coneclr c n => some (mkRaw 0xF9 c false (SF.join ⟨mk12 n.val, 0⟩))
  | .coneclrRec c n => some (mkRaw 0xF9 c false (SF.join ⟨mk12 (n.val + 32), 0⟩))
  | .coneclrAll c rec => some (mkRaw 0xF9 c false (SF.join ⟨mk12 (16 + 32 * b2n rec), 0⟩))
  | .haltSelf c => some (mkRaw 0xFA c false (SF.join ⟨0, 0⟩))
  | .haltCrew c => some (mkRaw 0xFA c false (SF.join ⟨1, 0⟩))
  | .haltTeam c => some (mkRaw 0xFA c false (SF.join ⟨2, 0⟩))
  | .haltThr c s => some (mkRaw 0xFA c false (SF.join ⟨3, BitVec.ofNat 32 (encHaltSel s)⟩))
  | .haltRel c s => some (mkRaw 0xFA c false (SF.join ⟨4, BitVec.ofNat 32 (encRelSel s)⟩))
  | .inspr c o => some (mkRaw 0xFB c o.toRG.w o.toRG.join)
  | .inspw c o => some (mkRaw 0xFC c o.toRG.w o.toRG.join)
  | .step c o => some (mkRaw 0xFD c o.toRG.w o.toRG.join)
  | .tmark c o => some (mkRaw 0xFE c false (SF.join ⟨mk12 o.cls.toNat, o.imm⟩))
  | .ill imm => some ⟨0xFF, 0, 0, false, 0, false, ⟨imm.toNat, by have := imm.isLt; omega⟩⟩
  | _ => none

/-- The word of an instruction; none for an event. -/
def encode (i : Instr) : Option Nat := (encodeRaw i).map joinWord

/-- The instruction read from a word given as bits numbered from the first word's least significant bit: one
instruction word is 64 bits, and bits above them are no part of it. -/
def decodeTableWord (_nbits w : Nat) : Option Instr := (decode (w % 0x10000000000000000)).toOption

end Sys2Proof
end

