-- ==== Sys2Proof/Config.lean ====
section
/-! DEFINITION. What the spec leaves open: which agent moves next, and the values that no rule fixes. Each is an opaque
constant, so nothing can be proved of its value; a claim holds whatever it is. -/

namespace Sys2Proof

/-- One move of the device. `issue k late` issues the next instruction word of the k-th clause in issue; where the
instruction is a store of `.mem` that violates, `late` says that its response comes after the issue (R162). `event`
is a move of another agent, a row of the opcode table. `cycle n` lets n core cycles pass and with them 2n fabric cycles
(R6, R16); in `background` a start, a batch to be handed on and a peer's request go on. -/
inductive Action where
  | issue (k : Nat) (late : Bool)
  | event (i : Instr)
  | cycle (n : Nat)
  | background
  deriving DecidableEq, Repr, Inhabited

namespace Config

/-- DESIGN CHOICE (log 4): the move made when the action list is empty, by the step number. -/
opaque schedule : Nat → Action
/-- DESIGN CHOICE (log 6): a choice between two outcomes the spec allows (R11), by the step number and a use index. -/
opaque freeBit : Nat → Nat → Bool
/-- DESIGN CHOICE (log 7): a byte the spec calls unspecified (R243, R246, R250, R314, R321). -/
opaque freeByte : Nat → Nat → Byte
/-- DESIGN CHOICE (log 8): Home(a), not architected (R145), by seed and physical line address. -/
opaque home : Nat → Nat → Fin 48
/-- DESIGN CHOICE (log 125): the set of the PC table that a clause address hashes to, not architected (R59). -/
opaque pcSet : Nat → Fin 16
/-- DESIGN CHOICE (log 127): the hash by which a request takes a port (R432), by window, bits 48:7 of its address, and how many
ports it may take. -/
opaque portHash : Nat → Nat → Nat → Nat
/-- DESIGN CHOICE (log 128): the way of an L2 slice that holds a row (R436), by slice and row. -/
opaque l2Way : Nat → Nat → Fin 16
/-- DESIGN CHOICE (log 9): the queueing time of a stage in a trace record (R400). -/
opaque stageTime : Nat → Nat → Byte
/-- DESIGN CHOICE (log 10): the fuses of this device (R438), read in step 2 of a start. -/
opaque fuses : FwFuses
/-- DESIGN CHOICE (log 10): SHA-384 (R438, R439), which the spec names and does not define. -/
opaque sha384 : List Byte → List Byte
/-- DESIGN CHOICE (log 10): RSASSA-PSS with RSA-3072, SHA-384 and a 48-byte salt verifies (R438): key, message, signature. -/
opaque rsaVerifies : List Byte → List Byte → List Byte → Bool
/-- DESIGN CHOICE (log 10): SLH-DSA-SHA2-192s verifies (R438): key, message, signature. -/
opaque slhVerifies : List Byte → List Byte → List Byte → Bool
/-- DESIGN CHOICE (log 10): the device identity public keys (R439), loaded in step 2. -/
opaque identityKeys : List Byte
/-- DESIGN CHOICE (log 10): the RSA-3072 signature of a message by the identity key (R439). -/
opaque rsaSign : List Byte → List Byte
/-- DESIGN CHOICE (log 10): the SLH-DSA-SHA2-192s signature of a message by the identity key (R439). -/
opaque slhSign : List Byte → List Byte
/-- DESIGN CHOICE (log 2): the outcome of a start that a write of MRST brings (R434, R440), by the step number. -/
opaque startOutcome : Nat → StartOp
/-- DESIGN CHOICE (log 11): junction temperature and power as the standby controller reads them (R440). -/
opaque sensor : Nat → Nat → BitVec 16

end Config
end Sys2Proof
end

