-- ==== Sys2Proof/Machine/Records.lean ====
section
/-! DEFINITION. The records of which the state is made: threads, crews, teams, cores, contexts and the clauses in issue.
Numbers that software sees as words are bit vectors; names, counts and indexes are naturals. -/

namespace Sys2Proof.Machine
open Sys2Proof

/-- A fault record (R359). -/
structure FRec where
  kind : Nat
  cause : Nat
  addr : DWord
  word : DWord
  frec : DWord
  ord : Word
  deriving DecidableEq, Repr

/-- A fault reported and not yet taken (R360): its place in program order, its record, the instruction's address and
what a page-service request needs (R364). -/
structure FaultRep where
  id : Nat
  r : FRec
  iaddr : DWord
  svc : Nat := 0
  deriving DecidableEq, Repr

/-- What a cone compares of an event (R385 to R390). `mem`: the KINDS bit, space, first byte, byte count, compared
value if any with its width. `exc`: the ECLS classes that hold and the first 64 bits written. -/
inductive ConeEv where
  | mem (kind : Nat) (space : Option Nat) (addr : Nat) (last : Nat) (val : Option (Nat × Nat))
  | exc (cls : Nat) (val : Nat)
  deriving DecidableEq, Repr

/-- The event with what a slump records of its instruction. -/
structure ConeNote where
  ev : ConeEv
  op : Nat
  iaddr : DWord
  ord : Word
  deriving DecidableEq, Repr

/-- A system-register write in flight (R107, R379): of the thread itself, or of a served thread. -/
structure SysW where
  thr : Option Nat
  num : Nat
  val : Nat
  deriving DecidableEq, Repr

/-- A fixed-latency result not yet written (R39, R40): the CCOUNT at which it is due, what it writes, and the CCOUNT at
which it issued. A writer of a K register that a higher lane of its group overrides writes none (R95). Writes voided by a
younger producer are removed (R40). `ld`: the fixed-latency load, in flight, whose value it takes (R165). -/
structure Wb where
  due : Nat
  v : List (Nat × Word) := []
  p : Option (Nat × Bool) := none
  k : Option (Nat × Option DWord) := none
  x : Option SysW := none
  fx : Nat := 0
  setf : Option Nat := none
  note : Option ConeNote := none
  issued : Nat := 0
  ld : Option Nat := none
  deriving DecidableEq, Repr

/-- A multi-layer render target as a slot holds it (R295, R308): the block's address and its fields. -/
structure Target where
  blk : Nat
  imm : Bool
  head : Nat
  shtab : Nat
  orgx : Int
  orgy : Int
  width : Nat
  height : Nat
  shelves : Nat
  budget : Nat
  rule : Nat
  degrade : Bool
  gslot : Nat
  deriving DecidableEq, Repr

/-- Where a peer request in flight goes: the device and context at the peer, and the port it is on (R431, R432). -/
structure Route where
  dev : Nat
  ctx : Nat
  port : Nat
  deriving DecidableEq, Repr

/-- A flagged operation in flight, or a waiting instruction that holds the next clause: the instruction, the operands
read at issue, the bytes it touches (`key`, `len`), its destination registers, the render targets its team's slots held (`slots`), and how far it is: `res` holds the register
writes once it has performed, `fx` the flags it raises. `banked`: the condition a wait waits for holds, with whether the
core was banked when it came to hold (R74). `kOwn`: the thread's writes of K registers before it (R95). `redo`: a wait whose
instruction is to issue again (R374, R396). `route`: of an access of a peer, where its request goes; none once its port has lost
its link (R432). -/
structure Op where
  id : Nat
  i : Instr
  setf : Option Nat := none
  vals : List Nat := []
  data : List Word := []
  key : Nat := 0
  len : Nat := 0
  spans : List (Nat × Nat) := []
  dst : List Nat := []
  pdst : Option Nat := none
  iaddr : DWord := 0
  word : DWord := 0
  frec : DWord := 0
  ord : Word := 0
  stage : Nat := 0
  res : Option (List (Nat × Word)) := none
  fx : Nat := 0
  waited : Bool := false
  banked : Option Bool := none
  tgt : Option Target := none
  slots : List (Option Target) := []
  kOwn : List (Nat × Nat) := []
  redo : Bool := false
  route : Option Route := none
  deriving DecidableEq, Repr

/-- What a thread is doing (R22, R73, R406). -/
inductive TStat where
  | ready
  | issuing
  /-- Arrived at a rejoin mask (R81). -/
  | joined (j : Nat)
  /-- Released by a completion and member of a group of State.holds (R67). -/
  | grouped
  | idle
  | trapped
  /-- To take a reported fault (R360). -/
  | faulting
  /-- Stopped by a save or by termination (R368, R369). -/
  | stopped
  | ended
  deriving DecidableEq, Repr

/-- The system registers of a thread that are not identities (R96). -/
structure SysRegs where
  fxf : Word := 0
  waker : Word := 0
  region : DWord := 0
  lastord : Word := 0
  pxi : DWord := 0
  fcode : Word := 0
  faddr : DWord := 0
  fword : DWord := 0
  frec : DWord := 0
  ford : Word := 0
  dbgedit : Word := 0
  deriving DecidableEq, Repr

/-- Halt state of a thread (R393, R406): `req` is a pending request with its cause and cone, `landed` once it has landed on
a pending held clause (R69) while the thread still drains; `stepping` while a STEP of it runs, `stepped` once that clause has begun. -/
structure Debug where
  halted : Bool := false
  req : Option (Nat × Nat) := none
  landed : Bool := false
  stepping : Bool := false
  stepped : Bool := false
  hcause : Nat := 0
  cone : Nat := 0
  inplace : Bool := false
  deriving DecidableEq, Repr

/-- The armed monitor of a thread (R174): the 128-byte block and whether its wake event has come, with its code. -/
structure Monitor where
  block : Nat
  event : Option Nat
  serial : Nat
  deriving DecidableEq, Repr

/-- A copy batch slot (R229): 0 retired or never used, 1 open, 2 closed; `copies` counts the copies not finished. -/
structure Batch where
  num : Nat := 0
  state : Nat := 0
  copies : Nat := 0
  deriving DecidableEq, Repr

/-- The hidden state of a fragment (R287, R291): its RAST, its place in fragment order and tile, pixel, sample mask,
vertices, attributes, and its ordered section. -/
structure Frag where
  rast : Nat
  seq : Nat
  tx : Nat
  ty : Nat
  x : Nat
  y : Nat
  mask : Nat
  verts : List (Int × Int)
  attrb : Nat
  nattr : Nat
  entered : Bool
  holds : Bool
  left : Bool
  deriving DecidableEq, Repr

/-- A thread (R18, R373). `yieldLeft` is 0 outside a YIELD pause and one more than the cc left inside one (R85). `kSeen`
and `kOwn` are tables by K register of write stamps (`Wb.stamp`): the youngest write that R95 orders before the thread's
reads, and its own last write. `stall` is the ticket of
the page that its word in hand waits for before it issues (R344). -/
structure Thread where
  crew : Nat
  tid : Nat
  v : List Word
  p : List Bool
  f : List Nat
  sys : SysRegs
  cpb : List Word
  badRegs : List Nat
  pc : DWord
  must : Option DWord
  wb : List Wb
  pend : List Op
  waits : List Op
  late : List FaultRep
  status : TStat
  yieldLeft : Nat
  rpt : DWord
  ticket : Nat
  contact : Bool
  mon : Option Monitor
  dbg : Debug
  served : Option Nat
  serveInfo : Option (FRec × DWord)
  hdrWait : Bool
  frag : Option Frag
  batches : List Batch
  nextBatch : Nat := 0
  kSeen : List (Nat × Nat) := []
  kOwn : List (Nat × Nat) := []
  stall : Nat := 0
  deriving DecidableEq, Repr

/-- A rejoin mask with its arrival set, as lane sets (R65). -/
structure Rejoin where
  mask : Nat
  arr : Nat
  deriving DecidableEq, Repr

/-- The roles of R20. -/
inductive Role where
  | general | copy | matrix | epilogue | fragment | system
  deriving DecidableEq, Repr

/-- A value a K register has held: the number, the stamp of the write that took its place, and the value (R95). -/
structure KOld where
  n : Nat
  stamp : Nat
  v : DWord
  deriving DecidableEq, Repr

/-- The events by which R95 orders the K writes of one thread before the reads of another: an arrival toward the next flip
of a barrier object, a flip of it, an element of a queue, and an advance of a sequence counter. -/
inductive KEvent where
  | toward (key : Nat)
  | flip (key : Nat)
  | elem (team q ix : Nat)
  | counter (n : Nat)
  deriving DecidableEq, Repr
/-- What an event orders: the youngest write of a K register of a crew that it comes after (R95). -/
structure KNote where
  ev : KEvent
  team : Nat
  crew : Nat
  n : Nat
  stamp : Nat
  deriving DecidableEq, Repr

/-- A crew of a team (R18, R335, R373). `first` is the index of its thread 0 in the team; `kOld` are the values its K
registers have held, and `kAt` gives the stamp of the last write of each (R95). -/
structure Crew where
  num : Nat
  role : Role
  bind : Nat
  budget : Nat
  cpri : Nat
  threads : Nat
  first : Nat
  k : List DWord
  conta : Option DWord
  strands : List (List Rejoin)
  kOld : List KOld := []
  kAt : List (Nat × Nat) := []
  deriving DecidableEq, Repr

/-- An entry of a trap queue (R365): the thread, or none for a watchdog entry; the record and the address given to the
handler. -/
structure TrapEnt where
  thr : Option Nat
  r : FRec
  iaddr : DWord
  deriving DecidableEq, Repr

/-- A scratchpad queue register with its hidden slot indexes (R216, R217). -/
structure QReg where
  occ : Nat := 0
  alw : Nat := 0
  held : Nat := 0
  err : Bool := false
  conf : Bool := false
  manual : Bool := false
  band : Bool := false
  base : Nat := 0
  depth : Nat := 0
  esize : Nat := 0
  pushi : Nat := 0
  popi : Nat := 0
  deriving DecidableEq, Repr

/-- A result record with the bytes its pop acquires, as keys and lengths (R159, R215). -/
structure QRec where
  data : List Byte
  ranges : List (Nat × Nat)
  deriving DecidableEq, Repr

/-- A record an engine holds for a result queue (R215), and the engine event that comes before it (R247, R288, R318). -/
structure Post where
  q : Nat
  r : QRec
  after : Option Nat := none
  deriving DecidableEq, Repr

/-- An engine event on a barrier object, not yet performed (R205): arrivals and bytes, or the cause of a poisoning; with
the bytes counted. -/
structure EngEv where
  id : Nat
  key : Nat
  arr : Nat
  bytes : Nat
  poison : Nat
  ranges : List (Nat × Nat)
  deriving DecidableEq, Repr

/-- The thread whose instruction issued a piece of engine work, its OP, and the thread's ordinal and core then (R164). -/
structure Origin where
  thr : Nat
  op : Nat
  ord : Nat
  core : Nat
  deriving DecidableEq, Repr

/-- A shape descriptor in a tensor-shape slot (R233); the lists have five entries, the stride of dimension 0 is 0. -/
structure Shape where
  base : Nat
  e : Nat
  ndim : Nat
  swz : Nat
  tsp : Nat
  size : List Nat
  strd : List Nat
  box : List Nat
  deriving DecidableEq, Repr

/-- A per-lane copy not finished (R227): spaces, addresses, and the scratchpad keys found at issue. -/
structure CplCopy where
  id : Nat
  o : Origin
  num : Nat
  size : Nat
  v : Nat
  dsp : Space
  d : Nat
  ssp : Space
  a : Nat
  dkey : Option Nat
  akey : Option Nat
  deriving DecidableEq, Repr

/-- A receiver of a tile copy: its team and the chunks done, as a bit set; `zeroed` once its MAP words are (R236). -/
structure Recv where
  team : Nat
  done : Nat
  zeroed : Bool
  deriving DecidableEq, Repr

/-- A tile copy not finished (R236 to R240): kind 1 CPT, 2 CPM, 3 CPG; its captured descriptor, coordinates, tile,
landing block, index list and, for CPM, the chunks it has read (R238). -/
structure TileCopy where
  id : Nat
  o : Origin
  kind : Nat
  st : Bool
  bar : Bool
  post : Bool
  sh : Shape
  xs : List Int
  d : Nat
  land : Nat
  list : Nat
  recvs : List Recv
  buf : List (Nat × List Byte) := []
  deriving DecidableEq, Repr

/-- A sort not finished (R245 to R247): `started` once its input barrier is passed, `going` while it has the cluster's
engine; `clash` says that another agent has written its arrays since it began (R250). -/
structure SortJob where
  id : Nat
  o : Origin
  block : Nat
  keys : Nat
  vals : Nat
  tkeys : Nat
  tvals : Nat
  count : Nat
  k64 : Bool
  core : Bool
  noval : Bool
  kt : Nat
  bar : Bool
  dlo : Nat
  dhi : Nat
  obar : Nat
  ibar : Nat
  started : Bool := false
  going : Bool := false
  passes : Nat := 0
  clash : Bool := false
  deriving DecidableEq, Repr

/-- A triangle record (R283). -/
structure TriRec where
  verts : List (Int × Int)
  z : List Nat
  pseq : Nat
  attrb : Nat
  nattr : Nat
  deriving DecidableEq, Repr

/-- A RAST in Q4 (R284 to R290): its block, the record and pixel it goes on from, the record in hand, its counts, and the
code of the fault that stopped it. -/
structure RastCmd where
  id : Nat
  o : Origin
  block : Nat
  bin : Nat
  entry : Nat
  count : Nat
  tx : Nat
  ty : Nat
  flags : Nat
  obar : Nat
  idx : Nat := 0
  pix : Nat := 0
  cur : Option TriRec := none
  frags : Nat := 0
  skip : Nat := 0
  stop : Option Nat := none
  deriving DecidableEq, Repr

/-- A SPLAT in Q4 (R313 to R322): its block, the target its slot held, and its progress: the input barrier passed, the
fill, the sort passes, the pixels output and those not inserted. `serving`: it has the cluster's splat unit; `going`: the
cluster's sort engine. `clash`: its areas overlap, or another agent has written them since it began (R321). `node`: the node taken for the insert in hand, and its pixel (R297). -/
structure SplatCmd where
  id : Nat
  o : Origin
  block : Nat
  list : Nat
  feat : Nat
  count : Nat
  tx : Nat
  ty : Nat
  work : Nat
  out : Nat
  splt : Nat
  amin : Nat
  amax : Nat
  fstr : Nat
  nch : Nat
  flags : Nat
  obar : Nat
  ibar : Nat
  tag : Nat
  tgt : Option Target := none
  node : Option (Nat × Nat × Nat) := none
  clash : Bool := false
  begun : Bool := false
  serving : Bool := false
  going : Bool := false
  filled : Bool := false
  passes : Nat := 0
  pix : Nat := 0
  skip : Nat := 0
  deriving DecidableEq, Repr

/-- A matrix parameter block (R256). -/
structure MxBlk where
  ea : Nat
  abase : Nat
  astr : Nat
  asc : Nat
  bsc : Nat
  ascstr : Nat
  bscstr : Nat
  kcnt : Nat
  afmt : Nat
  bfmt : Nat
  blk : Nat
  mb : Nat
  nq : Nat
  acc : Nat
  breg : Nat
  bstrand : Nat
  flags : Nat
  ibar : Nat
  obar : Nat
  epi : Nat
  tag : Nat
  deriving DecidableEq, Repr

/-- A matrix command in Q0 (R267): `id` names its thread's operation; for an MMX its block, the
passes done, its status, whether an uncorrectable error was met, the arrays that take A from their buffer, and the B
registers read ahead of their pass, by column and register, none for an uncorrectable error (R254). -/
structure MxCmd where
  id : Nat
  o : Origin
  i : Instr
  vals : List Nat
  blk : Option MxBlk := none
  started : Bool := false
  passes : Nat := 0
  xf : Nat := 0
  bad : Bool := false
  useBuf : List Bool := []
  got : List ((Nat × Nat) × Option Word) := []
  deriving DecidableEq, Repr

/-- An A buffer of an array (R255): the team and fields it is valid for, and its rows. -/
structure ABuf where
  team : Nat
  fields : List Nat
  rows : List (List Byte)
  deriving DecidableEq, Repr

/-- A matrix array (R274): gated, or waking with one more than the cc left, and its idle count. -/
structure ArrayUnit where
  gated : Bool := false
  waking : Nat := 0
  idle : Nat := 0
  buf : Option ABuf := none
  deriving DecidableEq, Repr

/-- Engine work that waits for a page: its id and the ticket of its request (R243, R364). -/
structure PWait where
  id : Nat
  ticket : Nat
  deriving DecidableEq, Repr

/-- A barrier watchdog (R207): its object, the agent whose slot it takes (a core, 128 plus a slice, 256 while saved) and whether it
holds one, the arming thread, the participants' team, band or span, and its counts in cc. -/
structure Dog where
  id : Nat
  key : Nat
  space : Nat
  addr : Nat
  agent : Nat
  bound : Bool
  team : Nat
  asid : Nat
  core : Nat
  lane : Nat
  who : Nat
  iaddr : Nat
  ord : Nat
  scope : Nat
  span : Nat
  band : Nat
  count : Nat
  left : Nat
  deriving DecidableEq, Repr

/-- A logical cone (R383 to R390): its words, whether it holds a physical cone, and, while the cc is not over, whether
CONESET armed it and whether it took its record in this cc (R389). -/
structure Cone where
  cw : DWord := 0
  cmp0 : DWord := 0
  cmp1 : DWord := 0
  cstat : DWord := 0
  cwhere : DWord := 0
  caddr : DWord := 0
  cval : DWord := 0
  ciaddr : DWord := 0
  bound : Bool := false
  fresh : Bool := false
  taken : Bool := false
  deriving DecidableEq, Repr

/-- A team (R18, R334, R373); `began` is the step at which its lot entered the launcher (R147). -/
structure Team where
  id : Nat
  asid : Nat
  lot : Nat
  lotid : Nat
  span : Nat
  spanIx : Nat
  bandIx : Nat
  teamIx : Nat
  core : Nat
  entry : DWord
  lpri : Nat
  coresh : Nat
  lanesz : Nat
  bshare : Nat
  bandTeams : Nat := 1
  tileShare : Nat
  slotShare : Nat
  crews : List Crew
  threads : List Thread
  trapq : List TrapEnt
  cones : List Cone
  queues : List QReg := List.replicate 32 {}
  recs : List (List QRec) := List.replicate 5 []
  posts : List Post := []
  events : List EngEv := []
  shapes : List (Option Shape) := List.replicate 32 none
  cpls : List CplCopy := []
  copies : List TileCopy := []
  sorts : List SortJob := []
  pageWaits : List PWait := []
  q0 : List MxCmd := []
  acc : List (Nat × Nat) := []
  epi : List (Nat × Nat) := []
  accBad : List (Nat × Bool) := []
  mxSticky : Nat := 0
  mxDone : Nat := 0
  rasts : List RastCmd := []
  splats : List SplatCmd := []
  graph : Option Nat := none
  bin : Option Nat := none
  targets : List (Option Target) := List.replicate 4 none
  began : Nat := 0
  deriving DecidableEq, Repr

/-- A clause in issue (R27, R38, R60): the group's members that still issue it, the fetched words, the next word and
the cc since its start. `stalled` are the members whose word in hand waits before it issues; `room` says, of those for which room
has come, whether the core was banked as it came (R74). `t0` is CCOUNT at its start; `late` is the choice of R162 for the word in hand. -/
structure Issue where
  id : Nat
  team : Nat
  crew : Nat
  ca : DWord
  hdr : DWord
  words : List DWord
  idx : Nat
  now : Nat
  t0 : Nat
  members : List Nat
  stalled : List Nat
  held : Bool
  late : Bool
  room : List (Nat × Bool) := []
  deriving DecidableEq, Repr

/-- A released group (R67): `slot` once it holds one of the core's 4 hold slots. -/
structure Hold where
  id : Nat
  team : Nat
  crew : Nat
  ca : DWord
  members : List Nat
  slot : Bool
  deriving DecidableEq, Repr

/-- A line of an L1 data cache (R146, R147): its bytes, and the lot of an invariant load that filled it. -/
structure L1Line where
  core : Nat
  line : Nat
  inv : Option Nat
  data : List Byte
  deriving DecidableEq, Repr

/-- A line of attached memory homed in L2 (R145): the ASID and the seed under which it is, and what it has held since, its
bytes and its tag. -/
structure L2Line where
  line : Nat
  asid : Nat
  seed : Nat
  held : List (List Byte × Nat)
  deriving DecidableEq, Repr

/-- A line of an L1 instruction cache (R51, R170): its virtual line and physical address, its bytes, the teams that pin it,
and the lots that have used it: it stays no longer than one of them is resident. -/
structure ICLine where
  core : Nat
  asid : Nat
  line : Nat
  pa : Nat
  data : List Byte
  pins : List Nat
  lots : List Nat
  deriving DecidableEq, Repr

/-- What a line of attached memory held before it was written over, and at which step (R147, R193). -/
structure LineOld where
  line : Nat
  step : Nat
  data : List Byte
  deriving DecidableEq, Repr

/-- A line checked out to a core (R177): its order point is the core until it returns. -/
structure Checkout where
  core : Nat
  line : Nat
  deriving DecidableEq, Repr

/-- A routine held by a slice's glaze cache (R193): bytes 0 to 143 of the entry. -/
structure GlzEnt where
  slice : Nat
  asid : Nat
  index : Nat
  data : List Byte
  deriving DecidableEq, Repr

/-- A leaf translation held by a cluster (R144). -/
structure TlbEnt where
  cluster : Nat
  asid : Nat
  base : Nat
  size : Nat
  entry : DWord
  deriving DecidableEq, Repr

/-- A trace unit (R399). -/
structure Trace where
  ctl : Word := 0
  base : DWord := 0
  size : Word := 0
  head : DWord := 0
  queue : List (List Byte) := []
  sampled : Nat := 0
  deriving DecidableEq, Repr

/-- An entry of a PC table (R59, R61): its crew and clause address; the CCOUNT at which it came to be, and since which its
ready mask has been nonzero; in how many cc it was passed over, and the last of them, plus one. -/
structure PcEnt where
  team : Nat
  crew : Nat
  ca : Nat
  born : Nat
  since : Option Nat := none
  passed : Nat := 0
  last : Nat := 0
  deriving DecidableEq, Repr

/-- A thread in the overflow list of its lane (R62), with what R61 asks of it as if it were an entry. -/
structure PcOver where
  thr : Nat
  e : PcEnt
  deriving DecidableEq, Repr

/-- A core (R14). `pct` and `ovf` are its PC table and overflow lists (R59, R62), `starts` the pipes on which a clause has
started in this cc, each with its CCOUNT (R61). -/
structure Core where
  on : Bool
  cc : Nat
  bsw : Word
  trace : Trace
  mxgate : Word := 0x800
  arrays : List ArrayUnit := List.replicate 4 {}
  pct : List PcEnt := []
  ovf : List PcOver := []
  starts : List (Nat × Nat) := []
  deriving DecidableEq, Repr

/-- The fields of a context record (R356). -/
structure CtxRec where
  ptroot : Nat
  asid : Nat
  sysn : Nat
  sysb : Nat
  seed : Nat
  hentry : DWord
  chipbase : Nat
  chipsz : Nat
  vlog : Nat
  gtb : Nat
  ntb : Nat
  lqb : Nat
  lqn : Nat
  sqb : Nat
  sqn : Nat
  psc : Nat
  tctr : Nat
  dqb : Nat
  peert : Nat
  psr : Nat
  psn : Nat
  sas : Nat
  sab : Nat
  sac : Nat
  deriving DecidableEq, Repr

/-- A crew entry of a launch record (R335); `budget` in registers. -/
structure CrewRec where
  role : Role
  bind : Nat
  budget : Nat
  cpri : Nat
  threads : Nat
  kcnt : Nat
  kinit : Nat
  deriving DecidableEq, Repr

/-- A launch record (R334); `deps` holds the enabled pairs, `share` the band contribution in bytes. -/
structure LaunchRec where
  entry : DWord
  lotid : Nat
  spans : Nat
  bands : Nat
  teams : Nat
  threads : Nat
  lpri : Nat
  share : Nat
  tiles : Nat
  coresh : Nat
  lanesz : Nat
  slots : Nat
  done : Option (Nat × Nat)
  deps : List (Nat × Nat)
  crews : List CrewRec
  deriving DecidableEq, Repr

/-- A lot (R337, R342): its record's address, the step at which it entered the launcher, when it became ready, the indexes of its spans placed so far and how many
of them have not ended; for a bin lot the handle of its batch (R346); the ticket of a page its KINIT read waits for, and
the K registers of its crews once KINIT is read (R340). -/
structure Lot where
  id : Nat
  asid : Nat
  addr : Nat
  r : LaunchRec
  ready : Option Nat
  placed : List Nat := []
  live : Nat := 0
  batch : Option Nat := none
  wait : Nat := 0
  kinit : Option (List (List DWord)) := none
  began : Nat := 0
  deriving DecidableEq, Repr

/-- A resident span (R18, R369): its teams; `want` once it is to be pre-empted; `saving` while a save of it runs, with
the slot and the body size of each team's image. -/
structure Span where
  id : Nat
  asid : Nat
  lot : Nat
  ix : Nat
  teams : List Nat
  want : Bool := false
  saving : Option (List (Nat × Nat)) := none
  deriving DecidableEq, Repr

/-- A saved span (R369, R373): its teams as they were, their released groups, the clauses of which a word waits before it
issues, and their slots with body sizes. -/
structure SavedSpan where
  span : Span
  teams : List Team
  holds : List Hold
  issues : List Issue := []
  slots : List (Nat × Nat)
  deriving DecidableEq, Repr

/-- A node descriptor (R344); `timer` in fc. -/
structure NodeDesc where
  tmpl : Nat
  base : Nat
  rsize : Nat
  coal : Nat
  nbatch : Nat
  graph : Nat
  persist : Bool
  timer : Nat
  deriving DecidableEq, Repr

/-- A batch sealed and not released (R345): its buffer, count and serial; `todo` while it is still to be handed on, with
the ticket of a page this waits for and the template once it is read (R346). -/
structure BinBatch where
  buf : Nat
  cnt : Nat
  serial : Nat
  todo : Bool
  ticket : Nat := 0
  tmpl : Option LaunchRec := none
  deriving DecidableEq, Repr

/-- A work-graph node (R345): its descriptor as last read, its current buffer with the records in it and the fc left of its bin timer, plus one; the
last buffer sealed, the next serial, and the batches sealed. -/
structure NodeSt where
  desc : Option NodeDesc := none
  cur : Option Nat := none
  n : Nat := 0
  timer : Nat := 0
  last : Option Nat := none
  serial : Nat := 0
  sealed : List BinBatch := []
  deriving DecidableEq, Repr

/-- A termination detector (R349); LIVE is counted from the teams. -/
structure Detector where
  inflight : Nat := 0
  armed : Bool := false
  fired : Bool := false
  ctr : Nat := 0
  amount : Nat := 0
  deriving DecidableEq, Repr

/-- A launch-queue descriptor (R343). -/
structure QueueDesc where
  ring : Nat
  depth : Nat
  ctr : Nat
  taken : Nat
  deriving DecidableEq, Repr

/-- What the launcher keeps of a launch queue (R343): whether a read of its descriptor is due, the descriptor as last read
where entries may be taken from it, whether a bad one has been logged, and the ticket of a page it waits for. -/
structure LaunchQ where
  due : Bool := true
  desc : Option QueueDesc := none
  logged : Bool := false
  ticket : Nat := 0
  deriving DecidableEq, Repr

/-- The global registers of the host's register window (R425); `watch` holds CTL and THRESH (R430). -/
structure HostRegs where
  ssw : DWord
  ecm : Nat
  crm : Nat
  hseed : Word
  herr : Word
  hcmdarg : DWord
  hcmdstat : DWord
  evbase : DWord
  evsize : Word
  evhead : DWord
  plim : Word
  cecount : Word
  watch : List (Word × DWord)
  deriving DecidableEq, Repr

/-- The start record (R434). -/
structure StartRec where
  cur : Nat := 0
  last : Nat := 0
  altlvl : Nat := 0
  fails : Nat := 0
  starts : Nat := 0
  deriving DecidableEq, Repr

/-- The standby side and what it keeps (R434 to R441): the start record and repair table; a start in progress with the
step it is at and the outcome of its checks; which rails and links are up; the Dolmir port's dynamic address, its last
address and what it has sent; the clock in 64ths of nominal; the peer ports whose links are up; the
bytes of the firmware that step 3 of the last start passed (R438), empty at reset: DESIGN CHOICE, log 10; the junction
temperature in degrees and the averaged module power in watts as last read (R440, R441), 0 at reset: DESIGN CHOICE, log 11. -/
structure Mgmt where
  start : StartRec
  repairs : List DWord := []
  boot : Option (Nat × StartOp) := none
  mainUp : Bool
  linkUp : Bool
  thermtrip : Bool := false
  dyn : Option (BitVec 7) := none
  ptr : Nat := 0
  sent : List (List Byte) := []
  clock : Nat := 64
  ports : Nat
  fw : List Byte := []
  temp : Nat := 0
  watts : Nat := 0
  deriving DecidableEq, Repr

/-- A host command that runs (R428): its OP, ARG and HCMDARG, its RESULT so far, the ASID its event names, the span it
waits for, and whether that span has been saved. -/
structure HostCmd where
  op : Nat
  arg : Nat
  harg : Nat
  result : Nat
  asid : Nat := 0xFFFF
  span : Nat := 0
  saved : Bool := false
  deriving DecidableEq, Repr

/-- The response to an incoming peer request (R433). -/
structure PeerResp where
  ok : Bool
  bad : Bool
  data : List Byte
  deriving DecidableEq, Repr

/-- A page-service entry that waits for room in its ring (R364). -/
structure PsReq where
  ticket : Nat
  bytes : List Byte
  deriving DecidableEq, Repr

/-- A read request of the host that is outstanding (R424), with its status and data once it has performed. -/
structure HostRead where
  o : HostReadOp
  res : Option (Nat × List Byte) := none
  deriving DecidableEq, Repr

/-- A live context (R144, R356, R357); `term` is a termination asked for and not begun (R368), `began` the step at which it
became live. -/
structure Context where
  r : CtxRec
  recAddr : Nat
  status : DWord
  psCount : Nat
  debug : Bool
  psq : List PsReq
  term : Option (Nat × Nat × Nat) := none
  began : Nat := 0
  nodes : List NodeSt := List.replicate 64 {}
  graphs : List Detector := List.replicate 16 {}
  lqs : List LaunchQ := List.replicate 16 {}
  deriving DecidableEq, Repr

end Sys2Proof.Machine
end

