-- ==== Sys2Proof/Machine/Tab.lean ====
section
/-! DEFINITION. A sparse table: a list of key and value pairs in one canonical form, strictly rising keys and no entry
equal to what an unlisted key reads as. Memory, line tags, full-empty bits and poison are such tables. -/

namespace Sys2Proof.Machine

/-- The value at a key; `d` where the key is not listed. -/
def tabGet {α : Type} (d : α) : List (Nat × α) → Nat → α
  | [], _ => d
  | (k, v) :: t, a => if a = k then v else tabGet d t a

/-- The table with the key at the value. -/
def tabPut {α : Type} [DecidableEq α] (d : α) : List (Nat × α) → Nat → α → List (Nat × α)
  | [], a, x => if x = d then [] else [(a, x)]
  | (k, v) :: t, a, x =>
    if a < k then (if x = d then (k, v) :: t else (a, x) :: (k, v) :: t)
    else if a = k then (if x = d then t else (a, x) :: t)
    else (k, v) :: tabPut d t a x

/-- The canonical form. -/
def tabOk {α : Type} [DecidableEq α] (d : α) : List (Nat × α) → Bool
  | [] => true
  | (k, v) :: t => decide (v ≠ d) && t.all (fun e => decide (k < e.1)) && tabOk d t

/-- The n values from a key upward. -/
def tabGetN {α : Type} (d : α) (t : List (Nat × α)) (a : Nat) : Nat → List α
  | 0 => []
  | n + 1 => tabGet d t a :: tabGetN d t (a + 1) n

/-- The table with the values written from a key upward. -/
def tabPutN {α : Type} [DecidableEq α] (d : α) : List (Nat × α) → Nat → List α → List (Nat × α)
  | t, _, [] => t
  | t, a, x :: xs => tabPutN d (tabPut d t a x) (a + 1) xs

/-- A list with room for one more of the entries that satisfy `p`, of which n fit: where it is full, one of them that `q`
lets go is gone, the first whose place is `free`, else the first. -/
def makeRoom {α : Type} (n : Nat) (free : Nat → Bool) (p q : α → Bool) (xs : List α) : List α :=
  if (xs.filter p).length < n then xs else
  let out := (List.range xs.length).filter fun i => (xs[i]?).any fun x => p x && q x
  match (out.find? free).or out.head? with
  | some i => xs.eraseIdx i
  | none => xs

/-- Bytes as a little-endian number (R3). -/
def leNat : List Byte → Nat
  | [] => 0
  | b :: t => b.toNat + 256 * leNat t

/-- The n low bytes of a number, least significant first (R3). -/
def natLe : Nat → Nat → List Byte
  | 0, _ => []
  | n + 1, v => BitVec.ofNat 8 v :: natLe n (v / 256)

end Sys2Proof.Machine
end

