-- ==== Sys2Proof/Machine/State.lean ====
section
/-! DEFINITION. The state of the device as plain data, and the state after a start-up of the main side. -/

namespace Sys2Proof.Machine
open Sys2Proof

/-- Why a step stops with a fault. Every fault of the spec is taken by its thread and is a next state (R358 to R367);
this type holds the one stop that is the model's own. -/
inductive Fault where
  /-- Raised by the meaning of an instruction row where no clause is in issue, so that no thread issues it: the spec
  gives an instruction no effect without an issuing thread. `step` never calls a meaning so. Safe: a stop. -/
  | noIssue
  deriving DecidableEq, Repr

/-- Why the model refuses. -/
inductive Refusal where
  /-- An instruction with no meaning yet. Safe: a stop. -/
  | notModelled (mnemonic : String)
  deriving DecidableEq, Repr

/-- The device. The first three fields are the model's own: `agenda` says which agents move next, `tick` counts steps
and indexes the free values, `nextId` supplies names. -/
structure State where
  agenda : List Action
  tick : Nat
  nextId : Nat
  mem : List Host.Cell
  tags : List (Nat × Nat)
  full : List (Nat × Bool)
  bad : List (Nat × Bool)
  l1 : List L1Line
  checkouts : List Checkout
  glazes : List GlzEnt
  glzSince : List (Nat × Nat)
  dogs : List Dog
  l2 : List L2Line
  past : List LineOld
  wrote : List (Nat × Nat)
  icache : List ICLine
  tlb : List TlbEnt
  cores : List Core
  ctxs : List Context
  teams : List Team
  issues : List Issue
  kNotes : List KNote
  holds : List Hold
  lots : List Lot
  spans : List Span
  saved : List SavedSpan
  host : HostRegs
  hostMem : List Host.Cell
  hostOut : List (List Byte)
  hostReads : List HostRead
  hcmd : Option HostCmd
  peerWait : List (PeerOp × Nat)
  peerOut : List PeerResp
  mgmt : Mgmt
  deriving DecidableEq, Repr

/-- A core after start-up. -/
def Core.reset : Core := { on := true, cc := 0, bsw := 0x3, trace := {} }

/-- The standby side after a first start without a failure. -/
def Mgmt.reset : Mgmt where
  start := { starts := 1 }
  mainUp := true
  linkUp := true
  ports := 0xFFFF

/-- The Reset column of R425; SSW of a start that ends well with 96 cores and no repairs (R437). -/
def HostRegs.reset : HostRegs where
  ssw := 0x000C001A
  ecm := 2 ^ 96 - 1
  crm := 0
  hseed := 0
  herr := 0
  hcmdarg := 0
  hcmdstat := 0
  evbase := 0
  evsize := 0
  evhead := 0
  plim := 950
  cecount := 0
  watch := List.replicate 64 (0, 0)

/-- The device right after a start-up that ends well: no context is live and no team is resident. -/
def State.reset : State where
  agenda := []
  tick := 0
  nextId := 0
  mem := []
  tags := []
  full := []
  bad := []
  l1 := []
  checkouts := []
  glazes := []
  glzSince := []
  dogs := []
  l2 := []
  past := []
  wrote := []
  icache := []
  tlb := []
  cores := List.replicate 96 Core.reset
  ctxs := []
  teams := []
  issues := []
  kNotes := []
  holds := []
  lots := []
  spans := []
  saved := []
  host := HostRegs.reset
  hostMem := []
  hostOut := []
  hostReads := []
  hcmd := none
  peerWait := []
  peerOut := []
  mgmt := Mgmt.reset

end Sys2Proof.Machine
end

