-- ==== Sys2Proof/Machine/Base.lean ====
section
/-! DEFINITION. Access to the parts of the state by name; bytes, tags, full-empty bits and poison at the order points
(R148, R149, R151, R161); translation (R142, R143); the violation log (R164), trace records (R399), host events (R429)
and counter steps (R222). -/

namespace Sys2Proof.Machine
open Sys2Proof

/-! ### Parts by name -/

def State.team? (s : State) (id : Nat) : Option Team := s.teams.find? fun t => t.id == id
def State.modTeam (s : State) (id : Nat) (f : Team → Team) : State :=
  { s with teams := s.teams.map fun t => if t.id = id then f t else t }
def Team.modThr (tm : Team) (i : Nat) (f : Thread → Thread) : Team := { tm with threads := tm.threads.modify i f }
def State.thr? (s : State) (id i : Nat) : Option Thread := (s.team? id).bind fun t => t.threads[i]?
def State.modThr (s : State) (id i : Nat) (f : Thread → Thread) : State := s.modTeam id fun t => t.modThr i f
def Team.crew? (tm : Team) (n : Nat) : Option Crew := tm.crews.find? fun c => c.num == n
def Team.modCrew (tm : Team) (n : Nat) (f : Crew → Crew) : Team :=
  { tm with crews := tm.crews.map fun c => if c.num = n then f c else c }
def State.modCrew (s : State) (id n : Nat) (f : Crew → Crew) : State := s.modTeam id fun t => t.modCrew n f
def State.ctx? (s : State) (asid : Nat) : Option Context := s.ctxs.find? fun c => c.r.asid == asid
def State.modCtx (s : State) (asid : Nat) (f : Context → Context) : State :=
  { s with ctxs := s.ctxs.map fun c => if c.r.asid = asid then f c else c }
/-- CCOUNT of a core (R96). -/
def State.coreCc (s : State) (core : Nat) : Nat := match s.cores[core]? with | some c => c.cc | none => 0
def State.modCore (s : State) (k : Nat) (f : Core → Core) : State := { s with cores := s.cores.modify k f }

/-- The lane of a thread (R18). -/
def Thread.lane (t : Thread) : Nat := if t.crew = 7 then 63 - t.tid % 64 else t.tid % 64
/-- The thread is halted, and no STEP of it runs (R396, R409). -/
def Thread.isHalted (t : Thread) : Bool := t.dbg.halted && !t.dbg.stepping
/-- The cluster of a core (R13). -/
def clusterOf (core : Nat) : Nat := core / 8
/-- WHO of the logs and traces (R164). -/
def Thread.who (t : Thread) : Nat := t.tid % 4096 + t.crew % 8 * 4096

/-! ### Memory keys -/

/-- The key of a byte of the chip scratchpad. -/
def chipKey (off : Nat) : Nat := 2 ^ 40 + off
/-- The key of a byte of a team's core share, band contribution and of a thread's lane slice. -/
def coreKey (team off : Nat) : Nat := 2 ^ 48 * (team + 1) + off
def bandKey (team off : Nat) : Nat := 2 ^ 48 * (team + 1) + 2 ^ 32 + off
def laneKey (team thr off : Nat) : Nat := 2 ^ 48 * (team + 1) + 2 ^ 33 + thr * 2 ^ 16 + off
/-- A key that stands for a peer's bytes: used to keep overlapping accesses in order (R152), never stored at. -/
def peerKey (k a : Nat) : Nat := 2 ^ 120 + k * 2 ^ 57 + a
/-- Attached memory has 128 GiB (R17). -/
def memBytes : Nat := 2 ^ 37
/-- Whether the line of a key carries a tag (R148). -/
def isTagged (key : Nat) : Bool := key < 2 ^ 48
/-- Whether the granule of a key has a full-empty bit (R149). -/
def isScratch (key : Nat) : Bool := 2 ^ 48 ≤ key && key < 2 ^ 120
/-- The size of the unit that poison is kept for: 32 bytes of attached memory, a 16-byte granule elsewhere (R161, R375). -/
def unitSize (key : Nat) : Nat := if key < 2 ^ 40 then 32 else 16

/-- The multiples of `u` in [a, a + n), rounded down at the start: the units that n bytes at a touch. -/
def unitsOf (u a n : Nat) : List Nat :=
  if n = 0 then [] else (List.range ((a + n - 1) / u - a / u + 1)).map fun i => (a / u + i) * u

/-! ### Bytes -/

def State.bytes (s : State) (key n : Nat) : List Byte := tabGetN 0 s.mem key n
def State.read (s : State) (key n : Nat) : Nat := leNat (s.bytes key n)
/-- Bytes take their place; the step's writes are noted (R250, R321). -/
def State.put (s : State) (key : Nat) (bs : List Byte) : State :=
  { s with mem := tabPutN 0 s.mem key bs, wrote := s.wrote ++ [(key, bs.length)] }
/-- Whether a unit that the bytes touch is poisoned (R161). -/
def State.poisoned (s : State) (key n : Nat) : Bool :=
  (unitsOf (unitSize key) key n).any fun u => tabGet false s.bad u
def State.setPoison (s : State) (key : Nat) (b : Bool) : State :=
  { s with bad := tabPut false s.bad (key / unitSize key * unitSize key) b }
def State.fullAt (s : State) (key : Nat) : Bool := tabGet false s.full (key / 16 * 16)
def State.setFull (s : State) (key : Nat) (b : Bool) : State :=
  { s with full := tabPut false s.full (key / 16 * 16) b }
def State.tagAt (s : State) (key : Nat) : Nat := tabGet 0 s.tags (key / 128 * 128)

/-- Each touched line takes its next tag (R148). -/
def State.bumpTags (s : State) (key n : Nat) : State :=
  if isTagged key then
    { s with tags := (unitsOf 128 key n).foldl (fun t l => tabPut 0 t l ((tabGet 0 t l + 1) % 2 ^ 32)) s.tags }
  else s
/-- A write of a whole unit clears its poison (R161). -/
def State.cleanUnits (s : State) (key n : Nat) : State :=
  let u := unitSize key
  let clear := (unitsOf u key n).filter fun k => decide (key ≤ k ∧ k + u ≤ key + n)
  { s with bad := clear.foldl (fun b k => tabPut false b k false) s.bad }
/-- The monitor's wake event of a write (R175, code 6). -/
def Thread.seeWrite (key n : Nat) (t : Thread) : Thread :=
  match t.mon with
  | some m =>
    if m.event = none ∧ m.block < key + n ∧ key < m.block + 128 then { t with mon := some { m with event := some 6 } }
    else t
  | none => t
def State.wakeMons (s : State) (key n : Nat) : State :=
  { s with teams := s.teams.map fun tm => { tm with threads := tm.threads.map (Thread.seeWrite key n) } }

/-- A write of a thread through a peer window wakes the monitors of its context that are armed on the block (R175). -/
def State.wakePeer (s : State) (asid key n : Nat) : State :=
  { s with teams := s.teams.map fun tm =>
      if tm.asid = asid then { tm with threads := tm.threads.map (Thread.seeWrite key n) } else tm }

/-- The monitor of a thread is lost where `f` holds of its block (R175, code 7). -/
def Thread.loseMon (f : Nat → Bool) (t : Thread) : Thread :=
  match t.mon with
  | some m => if m.event.isNone ∧ f m.block then { t with mon := some { m with event := some 7 } } else t
  | none => t
/-- The monitors on a block that a flush, recall or eviction loses (R175, code 7). -/
def State.loseMons (s : State) (f : Team → Nat → Bool) : State :=
  { s with teams := s.teams.map fun tm => { tm with threads := tm.threads.map (Thread.loseMon (f tm)) } }

/-- The checkouts that satisfy a test return to the home slice (R177), and the cores lose their monitors on those lines
(R175). -/
def State.returnLines (s : State) (f : Checkout → Bool) : State :=
  { s with checkouts := s.checkouts.filter fun c => !f c }.loseMons
    fun tm b => s.checkouts.any fun c => f c && c.core == tm.core && b == c.line * 128
/-- A checkout whose line n bytes at a key touch. -/
def Checkout.touches (key n : Nat) (c : Checkout) : Bool := (unitsOf 128 key n).any fun l => l == c.line * 128
/-- Checked-out lines that the bytes touch return to the home slice (R177). -/
def State.recall (s : State) (key n : Nat) : State := s.returnLines (Checkout.touches key n)
/-- A line that n bytes at a key touch is checked out: a request for it waits for the recall (R177). -/
def State.outAt (s : State) (key n : Nat) : Bool := s.checkouts.any (Checkout.touches key n)

/-- A barrier object whose bytes differ from those before has no armed watchdog: what changed it was no barrier step
(R204). -/
def State.voidDogs (s old : State) : State :=
  { s with dogs := s.dogs.filter fun d => s.bytes d.key 16 == old.bytes d.key 16 }

/-- A write at its order point (R148, R151, R161, R175, R204). -/
def State.write (s : State) (key : Nat) (bs : List Byte) : State :=
  ((((s.put key bs).bumpTags key bs.length).cleanUnits key bs.length).wakeMons key bs.length).voidDogs s
/-- A write performing at the home slice or bank: a checked-out line returns first (R177). -/
def State.store (s : State) (key : Nat) (bs : List Byte) : State := (s.recall key bs.length).write key bs
/-- An engine write: the granules become full after their bytes (R149). -/
def State.engineStore (s : State) (key : Nat) (bs : List Byte) : State :=
  let s := s.store key bs
  if isScratch key then (unitsOf 16 key bs.length).foldl (fun s g => s.setFull g true) s else s
/-- Bytes that are no write of R148 or R149: zeroing of R340, R428. -/
def State.zero (s : State) (key n : Nat) : State := { s with mem := s.mem.filter fun c => ¬ (key ≤ c.1 ∧ c.1 < key + n) }

/-! ### Translation -/

/-- What an access needs of a leaf (R143). `any` needs a valid leaf only (R172). -/
inductive AccKind where
  | rd | wr | ex | at | any
  deriving DecidableEq, Repr

/-- The end of a page walk. -/
inductive Walk where
  | leaf (entry : Nat) (sh : Nat)
  | viol (code : Nat)
  | absent
  deriving DecidableEq, Repr

/-- The lowest virtual bit and the index width of each level of R143, with whether a leaf may stand there. -/
def walkLevels : List (Nat × Nat × Bool × Bool) :=
  [(48, 9, false, true), (39, 9, false, true), (30, 9, true, true), (21, 9, true, true), (16, 5, true, false)]

/-- The walk of R143 from a table. -/
def State.walkFrom (s : State) (va : Nat) : List (Nat × Nat × Bool × Bool) → Nat → Walk
  | [], _ => .viol 9
  | (sh, w, mayLeaf, mayTable) :: ls, tbl =>
    let a := tbl + 8 * (va / 2 ^ sh % 2 ^ w)
    if s.poisoned a 8 then .viol 12 else
    let e := s.read a 8
    if ¬ bit e 0 then (if bit e 7 then .absent else .viol 1) else
    let addr := bits e 47 12 * 4096
    if bits e 11 8 ≠ 0 ∨ bits e 63 48 ≠ 0 ∨ memBytes ≤ addr then .viol 9 else
    if bit e 1 then
      (if mayLeaf ∧ addr % 2 ^ sh = 0 then .leaf e sh else .viol 9)
    else (if mayTable then s.walkFrom va ls addr else .viol 9)

/-- The leaf that translates a local address: the walk, or a leaf that the cluster holds (R144, R11). -/
def State.leafOf (s : State) (c : Context) (cluster : Option Nat) (va : Nat) : Walk :=
  let w := s.walkFrom va walkLevels c.r.ptroot
  match s.tlb.find? fun t => some t.cluster == cluster && t.asid == c.r.asid && t.base ≤ va && va < t.base + t.size with
  | none => w
  | some t =>
    let old := Walk.leaf t.entry.toNat (Nat.log2 t.size)
    if old = w then w else if Config.freeBit s.tick (2 ^ 62 + va) then old else w

/-- The result of translating an access. -/
inductive XRes where
  | ok (pa : Nat)
  | viol (code : Nat)
  | absent
  deriving DecidableEq, Repr

/-- The leaf's own checks in the order of R163: 4, then 2 or 3. -/
def leafCheck (e : Nat) (k : AccKind) (sys : Bool) : Option Nat :=
  if bit e 6 ∧ ¬ sys then some 4 else
  match k with
  | .rd => if bit e 2 then none else some 2
  | .wr => if bit e 3 then none else some 2
  | .ex => if bit e 4 then none else some 2
  | .at => if bit e 5 then none else some 3
  | .any => none

/-- Translation of a local virtual address (R142, R143). `sys`: the system crew or the device itself. -/
def State.xlate (s : State) (c : Context) (cluster : Option Nat) (va : Nat) (k : AccKind) (sys : Bool) : XRes :=
  match s.leafOf c cluster va with
  | .viol n => .viol n
  | .absent => .absent
  | .leaf e sh =>
    match leafCheck e k sys with
    | some n => .viol n
    | none => .ok (bits e 47 12 * 4096 + va % 2 ^ sh)

/-- The entry of the peer table that a window uses: device, context, ports (R431); none where it is not VALID or is
malformed. -/
def State.peerEntry (s : State) (c : Context) (k : Nat) : Option (Nat × Nat × Nat) :=
  let a := c.r.peert + 16 * k
  if memBytes < a + 16 ∨ s.poisoned a 16 then none else
  let e := s.read a 16
  let dev := bits e 15 8
  let tas := bits e 31 16
  let ports := bits e 47 32
  if bits e 7 0 = 1 ∧ dev ≤ 143 ∧ tas ≤ 511 ∧ ports ≠ 0 ∧ e / 2 ^ 48 = 0 then some (dev, tas, ports) else none

/-- The route of a request for a peer key (R431, R432): the entry's device and context, and one of its ports whose links are up,
by a hash of the window and address bits 48:7; none where no port is up, and the access is answered with an error at once. -/
def State.route (s : State) (asid key : Nat) : Option Route :=
  let k := (key - 2 ^ 120) / 2 ^ 57
  match (s.ctx? asid).bind fun c => s.peerEntry c k with
  | some (dev, ctx, ports) =>
    let up := (List.range 16).filter fun p => bit (ports &&& s.mgmt.ports) p
    (up[Config.portHash k ((key - 2 ^ 120) % 2 ^ 49 / 128) up.length % up.length]?).map fun p => ⟨dev, ctx, p⟩
  | none => none
/-- A request for a peer key that is sent and answered in one step finds a port (R432). -/
def State.peerOpen (s : State) (asid key : Nat) : Bool := (s.route asid key).isSome

/-! ### The device's own accesses of `.mem` -/

/-- n bytes at a virtual address of the context, read by the device; none where they cannot be read. -/
def State.devRead (s : State) (c : Context) (va n : Nat) : Option (List Byte) :=
  if 2 ^ 49 ≤ va then none else
  match s.xlate c none va .rd true with
  | .ok pa => if s.poisoned pa n then none else some (s.bytes pa n)
  | _ => none
/-- The physical address where the device may write n bytes. -/
def State.devSlot (s : State) (c : Context) (va n : Nat) : Option Nat :=
  if 2 ^ 49 ≤ va then none else
  match s.xlate c none va .wr true with
  | .ok pa => if s.poisoned pa n then none else some pa
  | _ => none

/-! ### Homes -/

/-- A line of attached memory is homed in L2 under a seed (R145). -/
def State.homeLine (s : State) (asid seed line : Nat) : State :=
  if s.l2.any fun e => e.line == line && e.seed == seed then s else
  { s with l2 := s.l2 ++ [⟨line, asid, seed, [(s.bytes (line * 128) 128, s.tagAt (line * 128))]⟩] }
/-- The lines that n bytes of attached memory touch are homed (R145). -/
def State.homeBytes (s : State) (asid seed pa n : Nat) : State :=
  if memBytes ≤ pa then s else (unitsOf 128 pa n).foldl (fun s l => s.homeLine asid seed (l / 128)) s
/-- A write by the device for a context, homed under its seed (R145). -/
def State.devStore (s : State) (c : Context) (pa : Nat) (bs : List Byte) : State :=
  (s.homeBytes c.r.asid c.r.seed pa bs.length).store pa bs
/-- The entries that the walk of R143 reads. -/
def State.walkPath (s : State) (va : Nat) : List (Nat × Nat × Bool × Bool) → Nat → List Nat
  | [], _ => []
  | (sh, w, _, mayTable) :: ls, tbl =>
    let a := tbl + 8 * (va / 2 ^ sh % 2 ^ w)
    let e := s.read a 8
    a :: if bit e 0 ∧ ¬ bit e 1 ∧ mayTable ∧ bits e 47 12 * 4096 < memBytes then s.walkPath va ls (bits e 47 12 * 4096) else []
/-- The walk of an address reads its entries: their lines return to their homes (R177) and are homed under the context's seed
(R145). -/
def State.walkTouch (s : State) (c : Context) (va : Nat) : State :=
  (s.walkPath va walkLevels c.r.ptroot).foldl (fun s a => (s.recall a 8).homeBytes c.r.asid c.r.seed a 8) s
/-- A request of a context for an address: the page walk or the read of the peer table reaches its lines (R143, R431), and a
local address's line is homed under the context's seed (R145). -/
def State.noteHome (s : State) (asid core addr : Nat) : State :=
  match s.ctx? asid with
  | none => s
  | some c =>
    if 2 ^ 57 ≤ addr then s else
    if 2 ^ 49 ≤ addr then
      let a := c.r.peert + 16 * (addr / 2 ^ 49)
      (s.recall a 16).homeBytes asid c.r.seed a 16
    else
      let s1 := s.walkTouch c addr
      match s1.xlate c (some (clusterOf core)) addr .any true with
      | .ok pa => s1.homeLine asid c.r.seed (pa / 128)
      | _ => s1

/-- An entry of the violation log (R164). -/
structure VEnt where
  addr : Nat
  iaddr : Nat := 0
  code : Nat
  space : Nat := 0
  agent : Nat := 0
  core : Nat := 255
  lane : Nat := 255
  opc : Nat := 0
  ord : Nat := 0
  who : Nat := 0
  deriving DecidableEq, Repr

def VEnt.bytes (e : VEnt) : List Byte :=
  natLe 8 e.addr ++ natLe 8 e.iaddr ++ natLe 2 e.code ++ natLe 1 e.space ++ natLe 1 e.agent ++ natLe 1 e.core ++
  natLe 1 e.lane ++ natLe 2 e.opc ++ natLe 4 e.ord ++ natLe 4 e.who

/-- Appends to the violation log of a context (R164). -/
def State.logViol (s : State) (asid : Nat) (e : VEnt) : State :=
  match s.ctx? asid with
  | none => s
  | some c =>
    match s.devRead c c.r.vlog 12, s.devSlot c c.r.vlog 8 with
    | some h, some pc =>
      let count := leNat (h.take 8)
      let size := leNat (h.drop 8)
      let s1 :=
        if size ≠ 0 ∧ size ≤ 65536 ∧ 2 ^ Nat.log2 size = size then
          match s.devSlot c (c.r.vlog + 32 + 32 * (count % size)) 32 with
          | some pa => s.devStore c pa e.bytes
          | none => s
        else s
      s1.devStore c pc (natLe 8 (count + 1))
    | _, _ => s

/-! ### Trace records -/

/-- The unit of a core takes a record of a KIND with the thread's WHO and a 16-byte body (R399, R400). -/
def State.trace (s : State) (core kind asid who : Nat) (body : List Byte) : State :=
  s.modCore core fun c =>
    let t := c.trace
    if t.base = 0 ∨ ¬ bit t.ctl.toNat (kind - 1) then c
    else if t.queue.length ≥ 64 then
      let ctl := t.ctl.toNat % 2 ^ 16 + (t.ctl.toNat / 2 ^ 16 + 1) % 2 ^ 16 * 2 ^ 16
      { c with trace := { t with ctl := BitVec.ofNat 32 ctl } }
    else
      let r := natLe 1 kind ++ natLe 1 core ++ natLe 2 asid ++ natLe 4 who ++ natLe 8 c.cc ++ body
      { c with trace := { t with queue := t.queue ++ [r] } }

/-! ### Samples -/

/-- A request of `.mem` is homed (R145) and passes the sampler (R399): one in 2^SMP makes a KIND 5 record. -/
def State.sampleMem (s : State) (core asid who : Nat) (addr : Nat) : State :=
  let s := s.noteHome asid core addr
  match s.cores[core]? with
  | none => s
  | some c =>
    let smp := bits c.trace.ctl.toNat 11 7
    let s1 := s.modCore core fun c => { c with trace := { c.trace with sampled := c.trace.sampled + 1 } }
    if smp ≤ 20 ∧ c.trace.sampled % 2 ^ smp = 0 ∧ c.trace.base ≠ 0 ∧ bit c.trace.ctl.toNat 4 then
      s1.trace core 5 asid who (natLe 8 addr ++ (List.range 8).map fun i => Config.stageTime s.tick i)
    else s1

/-- The `.mem` requests for some bytes, one for each line they touch, pass the sampler (R399). -/
def State.sampleLines (s : State) (core asid who : Nat) (rs : List (Nat × Nat)) : State :=
  ((rs.flatMap fun r => unitsOf 128 r.1 r.2).eraseDups).foldl (fun s a => s.sampleMem core asid who a) s

/-! ### The host side -/

/-- A packet of the link: a header flit and its data flits (R424). -/
def packet (type stat tag len addr : Nat) (data : List Byte) : List Byte :=
  natLe 16 (type + stat * 16 + tag * 2 ^ 8 + len % 64 * 2 ^ 16 + addr % 2 ^ 48 * 2 ^ 24) ++ data ++
  List.replicate ((16 - data.length % 16) % 16) 0

/-- An event record and its interrupt message (R429). -/
def State.hostEvent (s : State) (kind asid arg32 arg64 : Nat) : State :=
  let h := s.host
  if h.evbase = 0 ∨ h.evsize = 0 then s else
  let n := h.evhead.toNat
  let bs := natLe 1 kind ++ natLe 1 0 ++ natLe 2 asid ++ natLe 4 arg32 ++ natLe 8 arg64
  { s with
    hostMem := tabPutN 0 s.hostMem (h.evbase.toNat + 16 * (n % h.evsize.toNat)) bs
    host := { h with evhead := h.evhead + 1 }
    hostOut := s.hostOut ++ [packet 4 0 0 0 (n + 1) []] }

/-- The value of an absolute counter (R222). -/
def State.counter (s : State) (n : Nat) : Nat := s.read (chipKey (8 * n)) 8

/-- The watches that fire in a step of counter n (R430). -/
def State.fireWatches (s : State) (n : Nat) : State :=
  let v := s.counter n
  (List.range 64).foldl (fun s i =>
    match s.host.watch[i]? with
    | some (ctl, th) =>
      if ctl.getLsbD 31 ∧ ctl.toNat % 4096 = n ∧ th.toNat ≤ v then
        ({ s with host := { s.host with watch := s.host.watch.set i (ctl &&& 0x7FFFFFFF, th) } }).hostEvent 1 0xFFFF i v
      else s
    | none => s) s

/-- Whether every enabled dependency pair of a lot is met (R336). -/
def State.lotMet (s : State) (sqb : Nat) (r : LaunchRec) : Bool :=
  r.deps.all fun d => d.2 ≤ s.counter (sqb + d.1)
/-- A number put into a list at a place that free bits choose. -/
def freeInsert (bit : Nat → Bool) (a : Nat) : Nat → List Nat → List Nat
  | _, [] => [a]
  | k, b :: r => if bit k then a :: b :: r else b :: freeInsert bit a (k + 1) r
/-- The numbers of a list in an order that free bits choose. -/
def freeOrder (bit : Nat → Bool) : List Nat → List Nat
  | [] => []
  | a :: r => freeInsert bit a (8192 * r.length) (freeOrder bit r)
/-- The lot waits for readiness and its pairs are met (R337). -/
def State.lotRipe (s : State) (l : Lot) : Bool :=
  l.ready.isNone && match s.ctx? l.asid with | some c => s.lotMet c.r.sqb l.r | none => false
/-- Lots that a counter step makes ready take their place in the ready order (R337); the order of those made ready by one
step is not architected: DESIGN CHOICE, log 6. -/
def State.readyLots (s : State) : State :=
  let ripe := freeOrder (fun k => Config.freeBit s.tick (2 ^ 66 + k)) ((s.lots.filter s.lotRipe).map fun l => l.id)
  { s with
    lots := s.lots.map fun l => match ripe.findIdx? fun n => n == l.id with
      | some k => if l.ready.isNone then { l with ready := some (s.nextId + k) } else l
      | none => l
    nextId := s.nextId + ripe.length }

/-- Page-service entries that may now be written are written, and the host is signalled (R364). -/
def State.flushPsr (s : State) : State :=
  s.ctxs.foldl (fun s c =>
    c.psq.foldl (fun s r =>
      if r.ticket ≤ c.r.psn + s.counter (c.r.sqb + c.r.psc) then
        let s1 := match s.devSlot c (c.r.psr + 32 * ((r.ticket - 1) % c.r.psn)) 32 with
          | some pa => s.devStore c pa r.bytes
          | none => s
        (s1.modCtx c.r.asid fun c => { c with psq := c.psq.filter fun q => q.ticket != r.ticket }).hostEvent
          2 c.r.asid 0 r.ticket
      else s) s) s

/-- Absolute counter n has been raised: the launcher is to read the descriptors of the launch queues of every context
whose window holds it (R343). -/
def State.raiseQueues (s : State) (n : Nat) : State :=
  { s with ctxs := s.ctxs.map fun c =>
      if c.r.sqb ≤ n ∧ n < c.r.sqb + c.r.sqn then { c with lqs := c.lqs.map fun q => { q with due := true } } else c }
/-- A counter step: the new value, and everything that waits on counters by its own rule (R222, R337, R343, R364, R430). -/
def State.setCounter (s : State) (n v : Nat) : State :=
  let up := decide (s.counter n < v)
  let s := s.store (chipKey (8 * n)) (natLe 8 v)
  (((if up then s.raiseQueues n else s).readyLots).flushPsr).fireWatches n
/-- The saturating addition of R222. -/
def State.addCounter (s : State) (n a : Nat) : State := s.setCounter n (min (s.counter n + a) (2 ^ 64 - 1))

/-- A page-service request (R364): the ticket, and the entry written or waiting. KIND's bits are given. -/
def State.pageService (s : State) (asid va kind core who : Nat) : State × Nat :=
  match s.ctx? asid with
  | none => (s, 0)
  | some c =>
    let t := c.psCount + 1
    let bs := natLe 8 va ++ natLe 8 t ++ natLe 2 asid ++ natLe 1 kind ++ natLe 1 core ++ natLe 4 who ++ natLe 8 0
    let s1 := (s.modCtx asid fun c => { c with psCount := t, psq := c.psq ++ [⟨t, bs⟩] }).devStore c
      (c.recAddr + 120) (natLe 8 t)
    (s1.flushPsr, t)
/-- Whether the entry of a ticket has been written. -/
def State.psrWritten (s : State) (asid t : Nat) : Bool :=
  match s.ctx? asid with
  | some c => c.psq.all fun r => r.ticket != t
  | none => true

/-- Writes STATUS of a context, in the record too (R357). -/
def State.setStatus (s : State) (asid : Nat) (f : Nat → Nat) : State :=
  match s.ctx? asid with
  | none => s
  | some c =>
    let v := f c.status.toNat
    (s.modCtx asid fun c => { c with status := BitVec.ofNat 64 v }).devStore c (c.recAddr + 128) (natLe 8 v)

end Sys2Proof.Machine
end

