-- ==== Sys2Proof/Machine/IntFn.lean ====
section
/-! DEFINITION. The value functions of 04_integer.md (R93 to R106): plain functions of operand values. A value of
width N is a Nat below 2^N; every result is again below 2^N. -/

namespace Sys2Proof.Machine
open Sys2Proof

/-- The width N of R91. -/
def widthOf (wide : Bool) : Nat := if wide then 64 else 32

/-- The integer that an N-bit operand denotes under SGN (R97). -/
def interp (sgn : Bool) (n x : Nat) : Int := if sgn then toSigned n x else (x : Int)

/-- The exact result e narrowed to m bits: clamped under SAT, else modulo 2^m (R93, R97). -/
def narrow (m : Nat) (sgn sat : Bool) (e : Int) : Nat :=
  if sat then
    let lo : Int := if sgn then -(2 ^ (m - 1) : Nat) else 0
    let hi : Int := if sgn then (2 ^ (m - 1) : Nat) - 1 else (2 ^ m : Nat) - 1
    ofSigned m (clampInt lo hi e)
  else ofSigned m e

/-- R97 for a two-operand instruction with exact result `f`. -/
def intBinVal (f : Nat → Int → Int → Int) (wide sgn sat : Bool) (a b : Nat) : Nat :=
  let n := widthOf wide
  narrow n sgn sat (f n (interp sgn n a) (interp sgn n b))

/-- IADD, ISUB and IMUL (R97). -/
def iaddVal := intBinVal fun _ a b => a + b
def isubVal := intBinVal fun _ a b => a - b
def imulVal := intBinVal fun _ a b => a * b
/-- IMULH: the floor of the product over 2^N (R97). -/
def imulhVal := intBinVal fun n a b => a * b / (2 ^ n : Nat)
/-- IMIN and IMAX (R97). -/
def iminVal := intBinVal fun _ a b => min a b
def imaxVal := intBinVal fun _ a b => max a b

/-- IMAD (R97). -/
def imadVal (wide sgn sat : Bool) (a b c : Nat) : Nat :=
  let n := widthOf wide
  narrow n sgn sat (interp sgn n a * interp sgn n b + interp sgn n c)

/-- IMADW: 32-bit a and b, 64-bit c and result (R97). -/
def imadwVal (sgn sat : Bool) (a b c : Nat) : Nat :=
  narrow 64 sgn sat (interp sgn 32 a * interp sgn 32 b + interp sgn 64 c)

/-- IABS (R97). -/
def iabsVal (wide sat : Bool) (a : Nat) : Nat :=
  let n := widthOf wide
  narrow n true sat (toSigned n a).natAbs

/-- IADDI: b is always the signed immediate (R97). -/
def iaddiVal (wide sgn sat : Bool) (a imm : Nat) : Nat :=
  let n := widthOf wide
  narrow n sgn sat (interp sgn n a + toSigned 20 imm)

/-- NOT x at n bits. -/
def notN (n x : Nat) : Nat := 2 ^ n - 1 - x % 2 ^ n

/-- The bitwise operation named (R98). -/
def boolOpVal : BoolOp → Nat → Nat → Nat
  | .and, a, b => a &&& b
  | .or, a, b => a ||| b
  | .xor, a, b => a ^^^ b

/-- AND, OR, XOR with b inverted under NB (R98). -/
def logVal (op : BoolOp) (wide nb : Bool) (a b : Nat) : Nat :=
  boolOpVal op a (if nb then notN (widthOf wide) b else b)

/-- LOPI: the immediate widened to N, inverted under NI (R98). -/
def lopiVal (op : BoolOp) (wide ni : Bool) (a imm : Nat) : Nat :=
  logVal op wide ni a (ofSigned (widthOf wide) (toSigned 20 imm))

/-- The shift amount of R99: B[31:0], modulo N under WRAP. -/
def shiftAmount (wide wrap : Bool) (b : Nat) : Nat :=
  let s := b % 2 ^ 32
  if wrap then s % widthOf wide else s

/-- SHL (R99). -/
def shlVal (wide wrap : Bool) (a b : Nat) : Nat :=
  let n := widthOf wide
  let s := shiftAmount wide wrap b
  if s < n then (a <<< s) % 2 ^ n else 0

/-- SHR (R99). -/
def shrVal (wide wrap : Bool) (a b : Nat) : Nat :=
  let s := shiftAmount wide wrap b
  if s < widthOf wide then a >>> s else 0

/-- SAR (R99). -/
def sarVal (wide wrap : Bool) (a b : Nat) : Nat :=
  let n := widthOf wide
  let s := shiftAmount wide wrap b
  if s < n then ofSigned n (toSigned n a / (2 ^ s : Nat))
  else if bit a (n - 1) then 2 ^ n - 1 else 0

/-- BFE (R100). -/
def bfeVal (wide sgn : Bool) (a ctl : Nat) : Nat :=
  let n := widthOf wide
  let pos := bits ctl 7 0
  let len := bits ctl 15 8
  if pos ≥ n ∨ len = 0 then 0 else
  let len := min len (n - pos)
  let f := (a >>> pos) % 2 ^ len
  if sgn then ofSigned n (toSigned len f) else f

/-- BFI (R100). -/
def bfiVal (wide : Bool) (a b ctl : Nat) : Nat :=
  let n := widthOf wide
  let pos := bits ctl 7 0
  let len := bits ctl 15 8
  if pos ≥ n ∨ len = 0 then a else
  let len := min len (n - pos)
  a - ((a >>> pos) % 2 ^ len) * 2 ^ pos + (b % 2 ^ len) * 2 ^ pos

/-- The number of 1 bits among the low n bits. -/
def popcount : Nat → Nat → Nat
  | 0, _ => 0
  | n + 1, x => x % 2 + popcount n (x / 2)

/-- POPC (R101). -/
def popcVal (wide : Bool) (a : Nat) : Nat := popcount (widthOf wide) a

/-- CLZ (R101). -/
def clzVal (wide : Bool) (a : Nat) : Nat := if a = 0 then widthOf wide else widthOf wide - 1 - Nat.log2 a

/-- The low n bits of x in reverse order. -/
def brev : Nat → Nat → Nat
  | 0, _ => 0
  | n + 1, x => (x % 2) * 2 ^ n + brev n (x / 2)

/-- BREV (R101). -/
def brevVal (wide : Bool) (a : Nat) : Nat := brev (widthOf wide) a

/-- a CMP b (R102). -/
def cmpInt : Cmp → Int → Int → Bool
  | .eq, a, b => a == b
  | .ne, a, b => a != b
  | .lt, a, b => decide (a < b)
  | .le, a, b => decide (a ≤ b)
  | .gt, a, b => decide (b < a)
  | .ge, a, b => decide (b ≤ a)

/-- r BOP p (R102, R124). -/
def boolOpP : BoolOp → Bool → Bool → Bool
  | .and, a, b => a && b
  | .or, a, b => a || b
  | .xor, a, b => a != b

/-- The MOVI value (R105). -/
def moviVal (k : MoviKind) (imm : Nat) : Nat :=
  match k with
  | .n32 => imm
  | .i64 => ofSigned 64 (toSigned 32 imm)
  | .n64 => imm

/-- LEA (R106). -/
def leaVal (s : Nat) (idx : LeaIdx) (a b : Nat) : Nat :=
  let i := match idx with
    | .full => b
    | .n32 => b % 2 ^ 32
    | .i32 => ofSigned 64 (toSigned 32 (b % 2 ^ 32))
  (a + i * 2 ^ s) % 2 ^ 64

/-- PLOP: bit (Pa + 2 Pb + 4 Pc) of lut (R104). -/
def plopVal (lut : Nat) (a b c : Bool) : Bool := bit lut (b2n a + 2 * b2n b + 4 * b2n c)

end Sys2Proof.Machine
end

