-- ==== Sys2Proof/Machine/Trans.lean ====
section
/-! DEFINITION. The correctly rounded functions of R125: reciprocal, roots, base-2 exponential and logarithm, sine and
cosine. A transcendental value is enclosed between two fixed-point numbers; the enclosure is refined until both ends
round alike, so the rounding is that of the exact value. -/

namespace Sys2Proof.Machine

/-- An enclosure of a positive real in units of 2^-P. -/
structure Encl where
  lo : Nat
  hi : Nat
  deriving DecidableEq, Repr

/-- Sum over odd j of z^j / j in units of 2^-p, each term rounded down; `zz` is z squared, `alt` alternates signs
(arctangent) where it is set. The result keeps the sum as an integer. -/
def atanSum (p : Nat) (zz : Nat) (alt : Bool) : Nat → Nat → Nat → Bool → Int → Int
  | 0, _, _, _, acc => acc
  | n + 1, pw, j, neg, acc =>
    let t : Int := (pw / j : Nat)
    atanSum p zz alt n ((pw * zz) >>> p) (j + 2) (if alt then !neg else neg) (if neg then acc - t else acc + t)

/-- ln 2 = 2 atanh(1/3), enclosed in units of 2^-p. -/
def ln2Encl (p : Nat) : Encl :=
  let z := 2 ^ p / 3
  let s := (2 * atanSum p (2 ^ p / 9) false p z 1 false 0).toNat
  ⟨s, s + 8 * p + 16⟩

/-- pi = 16 atan(1/5) - 4 atan(1/239), enclosed in units of 2^-p. -/
def piEncl (p : Nat) : Encl :=
  let a := atanSum p (2 ^ p / 25) true p (2 ^ p / 5) 1 false 0
  let b := atanSum p (2 ^ p / 57121) true p (2 ^ p / 239) 1 false 0
  let s := (16 * a - 4 * b).toNat
  ⟨s - (64 * p + 64), s + 64 * p + 64⟩

/-- Sum of x^k / k! in units of 2^-p from term t of index k. -/
def expSum (p x : Nat) : Nat → Nat → Nat → Nat → Nat
  | 0, _, _, acc => acc
  | n + 1, t, k, acc => if t = 0 then acc else expSum p x n ((t * x / k) >>> p) (k + 1) (acc + t)

/-- Alternating sum of x^(2k+i) / (2k+i)! in units of 2^-p from term t, whose next divisors are j and j+1. -/
def trigSum (p xx : Nat) : Nat → Nat → Nat → Bool → Int → Int
  | 0, _, _, _, acc => acc
  | n + 1, t, j, neg, acc =>
    if t = 0 then acc else
    trigSum p xx n ((t * xx / (j * (j + 1))) >>> p) (j + 2) (!neg) (if neg then acc - t else acc + t)

/-- sin r or cos r for r enclosed in [0, 2) in units of 2^-p: an enclosure with an error bound of 16p + 64 units
plus the width of r. -/
def sinCos (p : Nat) (cosine : Bool) (r : Encl) : Encl :=
  let x := r.lo
  let xx := (x * x) >>> p
  let s := (if cosine then trigSum p xx p (2 ^ p) 1 false 0 else trigSum p xx p x 2 false 0)
  let err : Nat := 16 * p + 64 + (r.hi - r.lo)
  ⟨(s - err).toNat, (s + err).toNat⟩

/-- Try to round an enclosure: some result when both ends round alike. -/
def roundEncl (f : Fmt) (mode : RMode) (neg : Bool) (x : Encl) (den : Nat) (k : Int) : Option (Nat × Flags) :=
  if x.lo = 0 then none else
  let lo := scale2 x.lo den k
  let hi := scale2 x.hi den k
  let a := roundRat f mode false neg lo.1 lo.2
  let b := roundRat f mode false neg hi.1 hi.2
  if a = b ∧ a.2.nx then some a else none

/-- The first precision at which `go` decides. -/
def refine (go : Nat → Option (Nat × Flags)) : Nat → Nat → Nat × Flags
  | 0, _ => (0, noFlags)
  | n + 1, p => match go p with
    | some r => r
    | none => refine go n (2 * p)

/-- 2^a for finite nonzero a = (-1)^neg m 2^e; an a beyond 2^14 in magnitude acts as 2^14, whose power lies beyond
every format. -/
def exp2Round (f : Fmt) (mode : RMode) (neg : Bool) (m : Nat) (e : Int) : Nat × Flags :=
  let big := floorLog2 (scale2 m 1 e).1 (scale2 m 1 e).2 ≥ 14
  let m := if big then 2 ^ 14 else m
  let e := if big then 0 else e
  let p := scale2 m 1 e
  let sn : Int := if neg then -(p.1 : Int) else p.1
  let n := sn / (p.2 : Int)
  let fr := (sn - n * p.2).toNat
  if fr = 0 then roundDy f mode false false 1 n else
  refine (fun pr =>
    let l := ln2Encl pr
    let x := l.lo * fr / p.2
    let s := expSum pr x (pr + 8) (2 ^ pr) 1 0
    roundEncl f mode false ⟨s, s + 64 * pr + 256⟩ (2 ^ pr) n) 7 128

/-- log2 a for finite positive a = m 2^e that is not a power of two. -/
def log2Round (f : Fmt) (mode : RMode) (m : Nat) (e : Int) : Nat × Flags :=
  let l := Nat.log2 m
  -- a = 2^k * y with y in [3/4, 3/2)
  let up := decide (2 * m ≥ 3 * 2 ^ l)
  let k : Int := e + l + (if up then 1 else 0)
  let d := if up then 2 ^ (l + 1) else 2 ^ l
  let yneg := decide (m < d)
  let num := if yneg then d - m else m - d
  refine (fun pr =>
    let z := (num <<< pr) / (m + d)
    let s := (2 * atanSum pr ((z * z) >>> pr) false pr z 1 false 0).toNat
    let ln := ln2Encl pr
    let qlo := (s <<< pr) / ln.hi
    let qhi := ((s + 8 * pr + 16) <<< pr) / ln.lo + 1
    let kk : Int := k * (2 ^ pr : Nat)
    let a : Int := if yneg then kk - qhi else kk + qlo
    let b : Int := if yneg then kk - qlo else kk + qhi
    if a > 0 then roundEncl f mode false ⟨a.toNat, b.toNat⟩ (2 ^ pr) 0
    else if b < 0 then roundEncl f mode true ⟨(-b).toNat, (-a).toNat⟩ (2 ^ pr) 0
    else none) 7 128

/-- sin or cos of finite nonzero a, the argument reduced exactly by multiples of pi/2. -/
def trigRound (f : Fmt) (mode : RMode) (cosine neg : Bool) (m : Nat) (e : Int) : Nat × Flags :=
  let p := scale2 m 1 e
  let ex := (floorLog2 p.1 p.2).toNat
  refine (fun pr =>
    let w := pr + ex + 8
    let pi2 := piEncl w            -- pi in units of 2^-w, so pi/2 in units of 2^-(w+1)
    let x := (p.1 <<< (w + 1)) / p.2
    let q := x / pi2.lo
    let r : Encl := ⟨x - q * pi2.hi, x + 1 - q * pi2.lo⟩
    if x < q * pi2.hi then none else
    let quad := (q + (if cosine then 1 else 0)) % 4
    let c := sinCos (w + 1) (quad % 2 == 1) r
    let s := if cosine then decide (quad ≥ 2) else (decide (quad ≥ 2)) != neg
    roundEncl f mode s c (2 ^ (w + 1)) 0) 7 128

/-- sin(pi a) or cos(pi a) of finite nonzero a; the multiples of 1/2 are exact, with R125's signs of zero. -/
def trigPiRound (f : Fmt) (mode : RMode) (cosine neg : Bool) (m : Nat) (e : Int) : Nat × Flags :=
  let e2 := e + 1
  let p := scale2 m 1 e2
  let q := p.1 / p.2
  let fr := p.1 % p.2
  let quad := (q + (if cosine then 1 else 0)) % 4
  let s := if cosine then decide (quad ≥ 2) else (decide (quad ≥ 2)) != neg
  if fr = 0 then
    if quad % 2 = 0 then (zeroF f (!cosine && neg), noFlags)
    else roundDy f mode false s 1 0
  else refine (fun pr =>
    let pi := piEncl pr
    -- r = (pi/2) * fr/den, in units of 2^-(pr+1)
    let r : Encl := ⟨pi.lo * fr / p.2, pi.hi * fr / p.2 + 1⟩
    let c := sinCos (pr + 1) (quad % 2 == 1) r
    roundEncl f mode s c (2 ^ (pr + 1)) 0) 7 128

/-- 1/a for finite nonzero a. -/
def rcpRound (f : Fmt) (mode : RMode) (neg : Bool) (m : Nat) (e : Int) : Nat × Flags :=
  let p := scale2 1 m (-e)
  roundRat f mode false neg p.1 p.2

/-- The square root of m 2^e, m positive. -/
def sqrtRound (f : Fmt) (mode : RMode) (m : Nat) (e : Int) : Nat × Flags :=
  let p := scale2 m 1 e
  let r := sqrtRat p.1 p.2 (64 + (floorLog2 p.1 p.2).natAbs)
  roundRat f mode false false r.1 r.2

/-- 1 over the square root of m 2^e, m positive. -/
def rsqRound (f : Fmt) (mode : RMode) (m : Nat) (e : Int) : Nat × Flags :=
  let p := scale2 m 1 e
  let r := sqrtRat p.2 p.1 (64 + (floorLog2 p.1 p.2).natAbs)
  roundRat f mode false false r.1 r.2

end Sys2Proof.Machine
end

