-- ==== Sys2Proof/Machine/FloatFn.lean ====
section
/-! DEFINITION. The value functions of 05_float.md (R121 to R135): bits and flags from operand bits. -/

namespace Sys2Proof.Machine
open Sys2Proof

/-- The element format of a float type (R121). -/
def ftFmt : FType → Fmt
  | .f32 => Machine.f32
  | .f64 => Machine.f64
  | .f16 | .f16x2 => Machine.f16
  | .bf16 | .bf16x2 => Machine.bf16

/-- Whether a float type packs two elements (R113). -/
def ftX2 : FType → Bool
  | .f16x2 | .bf16x2 => true
  | _ => false

/-- Whether a float type is 64 bits wide (R121). -/
def ftWide (t : FType) : Bool := t == .f64

/-- An operand element under FTZ (R117). -/
def ftzIn (f : Fmt) (ftz : Bool) (x : Nat) : Nat := if ftz then flushF f x else x

/-- A rounded result under FTZ (R117): a subnormal becomes zero and raises UF and NX. -/
def ftzOut (f : Fmt) (ftz : Bool) (r : Nat × Flags) : Nat × Flags :=
  if ftz && isSubnormal f r.1 then (flushF f r.1, orFlags r.2 { uf := true, nx := true }) else r

/-- FADD, FSUB, FMUL and FFMA (R122). -/
inductive FArith where
  | add | sub | mul | fma
  deriving DecidableEq, Repr

/-- The sign of a value, NaN aside. -/
def fneg : FVal → FVal
  | .nan s => .nan s
  | .inf s => .inf (!s)
  | .fin s m e => .fin (!s) m e

/-- The sum of two values that are not NaN: the canonical NaN with NV, an infinity, a signed zero, or the
rounded sum (R116, R118, R122). -/
def addVal (f : Fmt) (rm : RMode) (ftz : Bool) (x y : FVal) : Nat × Flags :=
  match x, y with
  | .inf s, .inf t => if s = t then (infF f s, noFlags) else (canonNan f, nvFlag)
  | .inf s, _ => (infF f s, noFlags)
  | _, .inf t => (infF f t, noFlags)
  | _, _ =>
    let d := dyAdd (dyOf x) (dyOf y)
    if d.m = 0 then (zeroF f (zeroSumNeg rm (isNeg x) (isNeg y)), noFlags)
    else ftzOut f ftz (roundDyad f rm false false d)

/-- The exact product of two values that are not NaN; none where it is zero times infinity. -/
def mulExact (x y : FVal) : Option FVal :=
  match x, y with
  | .fin s m e, .fin t n g => some (.fin (s != t) (m * n) (e + g))
  | _, _ => if isZero x || isZero y then none else some (.inf (isNeg x != isNeg y))

/-- The clamp of `.sat` to [0, 1] (R122). -/
def satUnit (f : Fmt) (r : Nat) : Nat :=
  let v := decodeF f r
  let one := f.bias * 2 ^ f.mbits
  if isNan v || isZero v || isNeg v then 0
  else if isInf v || r > one then one else r

/-- One element of FADD, FSUB, FMUL or FFMA (R122). -/
def arithElem (op : FArith) (f : Fmt) (rm : RMode) (ftz sat : Bool) (a b c : Nat) : Nat × Flags :=
  let x := decodeF f (ftzIn f ftz a)
  let y := decodeF f (ftzIn f ftz b)
  let z := if op = .fma then decodeF f (ftzIn f ftz c) else .fin false 0 0
  let sig : Flags := { nv := isSig x || isSig y || isSig z }
  let r : Nat × Flags :=
    if isNan x || isNan y || isNan z then (canonNan f, sig)
    else match op with
      | .add => addVal f rm ftz x y
      | .sub => addVal f rm ftz x (fneg y)
      | .mul => match mulExact x y with
        | none => (canonNan f, nvFlag)
        | some (.inf s) => (infF f s, noFlags)
        | some p => if isZero p then (zeroF f (isNeg p), noFlags)
            else ftzOut f ftz (roundDyad f rm false false (dyOf p))
      | .fma => match mulExact x y with
        | none => (canonNan f, nvFlag)
        | some p => addVal f rm ftz p z
  (if sat then satUnit f r.1 else r.1, r.2)

/-- Apply an element function to each element of a float type (R113). -/
def perElem (t : FType) (g : Nat → Nat → Nat → Nat × Flags) (a b c : Nat) : Nat × Flags :=
  if ftX2 t then
    let r0 := g (bits a 15 0) (bits b 15 0) (bits c 15 0)
    let r1 := g (bits a 31 16) (bits b 31 16) (bits c 31 16)
    (r0.1 + r1.1 * 2 ^ 16, orFlags r0.2 r1.2)
  else
    let w := fmtWidth (ftFmt t)
    g (a % 2 ^ w) (b % 2 ^ w) (c % 2 ^ w)

/-- FADD, FSUB, FMUL, FFMA on whole operands (R122). -/
def arithVal (op : FArith) (t : FType) (rm : RMode) (ftz sat : Bool) (a b c : Nat) : Nat × Flags :=
  perElem t (arithElem op (ftFmt t) rm ftz sat) a b c

/-- Whether pattern a is less than pattern b, both not NaN, with -0 < +0 (R123). -/
def lessNum (f : Fmt) (a b : Nat) : Bool :=
  let x := decodeF f a
  let y := decodeF f b
  if isZero x && isZero y then isNeg x && !isNeg y
  else match x, y with
    | .inf s, .inf t => s && !t
    | .inf s, _ => s
    | _, .inf t => !t
    | _, _ => dyLt (dyOf x) (dyOf y)

/-- minimumNumber (`mx` false) or maximumNumber of two patterns, with the flags of R123. -/
def minMaxElem (mx : Bool) (f : Fmt) (a b : Nat) : Nat × Flags :=
  let x := decodeF f a
  let y := decodeF f b
  let fl : Flags := { nv := isSig x || isSig y }
  if isNan x && isNan y then (canonNan f, fl)
  else if isNan x then (b, fl)
  else if isNan y then (a, fl)
  else if lessNum f a b != mx then (a, fl) else (b, fl)

/-- FMIN and FMAX (R123). -/
def minMaxVal (mx : Bool) (t : FType) (ftz : Bool) (a b : Nat) : Nat × Flags :=
  let f := ftFmt t
  perElem t (fun a b _ => minMaxElem mx f (ftzIn f ftz a) (ftzIn f ftz b)) a b 0

/-- The relation of FCMP (R124) on patterns of one scalar type, and its flags. -/
def fcmpVal (t : FType) (cmp : FCmp) (ftz : Bool) (a b : Nat) : Bool × Flags :=
  let f := ftFmt t
  let w := fmtWidth f
  let a := ftzIn f ftz (a % 2 ^ w)
  let b := ftzIn f ftz (b % 2 ^ w)
  let x := decodeF f a
  let y := decodeF f b
  let u := isNan x || isNan y
  let ordered := cmp == .lt || cmp == .le || cmp == .gt || cmp == .ge
  let eq := a == b || (isZero x && isZero y)
  let lt := !eq && lessNum f a b
  let gt := !eq && lessNum f b a
  let r := match cmp with
    | .eq => !u && eq
    | .ne => u || !eq
    | .lt => !u && lt
    | .le => !u && (lt || eq)
    | .gt => !u && gt
    | .ge => !u && (gt || eq)
    | .un => u
    | .ord => !u
  (r, { nv := isSig x || isSig y || (u && ordered) })

/-- The seven correctly rounded functions (R125). -/
inductive FFun where
  | rcp | sqrt | rsq | exp2 | log2 | sin | cos
  deriving DecidableEq, Repr

/-- Whether m is a power of two. -/
def isPow2 (m : Nat) : Bool := m == 2 ^ Nat.log2 m

/-- f(a) for finite nonzero a in the domain of the function, rounded (R125). -/
def funFin (op : FFun) (f : Fmt) (rm : RMode) (pi neg : Bool) (m : Nat) (e : Int) : Nat × Flags :=
  match op with
  | .rcp => rcpRound f rm neg m e
  | .sqrt => sqrtRound f rm m e
  | .rsq => rsqRound f rm m e
  | .exp2 => exp2Round f rm neg m e
  | .log2 => if isPow2 m then roundDyad f rm false false (dyOfInt (e + Nat.log2 m)) else log2Round f rm m e
  | .sin => if pi then trigPiRound f rm false neg m e else trigRound f rm false neg m e
  | .cos => if pi then trigPiRound f rm true neg m e else trigRound f rm true neg m e

/-- FRCP to FCOS (R125): the special rows of its table, then the rounded function. -/
def funVal (op : FFun) (t : FType) (rm : RMode) (ftz pi : Bool) (a : Nat) : Nat × Flags :=
  let f := ftFmt t
  let x := decodeF f (ftzIn f ftz (a % 2 ^ fmtWidth f))
  let nan := (canonNan f, nvFlag)
  let one := (f.bias * 2 ^ f.mbits, noFlags)
  match x with
  | .nan s => (canonNan f, { nv := s })
  | .inf s => match op with
    | .rcp => (zeroF f s, noFlags)
    | .sqrt => if s then nan else (infF f false, noFlags)
    | .rsq => if s then nan else (0, noFlags)
    | .exp2 => if s then (0, noFlags) else (infF f false, noFlags)
    | .log2 => if s then nan else (infF f false, noFlags)
    | .sin | .cos => nan
  | .fin s m e =>
    if m = 0 then match op with
      | .rcp | .rsq => (infF f s, { dz := true })
      | .sqrt | .sin => (zeroF f s, noFlags)
      | .exp2 | .cos => one
      | .log2 => (infF f true, { dz := true })
    else if s && (op == .sqrt || op == .rsq || op == .log2) then nan
    else ftzOut f ftz (funFin op f rm pi s m e)

/-- One element of FRND (R126). -/
def rndElem (f : Fmt) (rm : RMode) (ftz : Bool) (a : Nat) : Nat × Flags :=
  let a := ftzIn f ftz a
  match decodeF f a with
  | .nan s => (canonNan f, { nv := s })
  | .inf _ => (a, noFlags)
  | .fin s m e =>
    if m = 0 then (a, noFlags) else
    let p := scale2 m 1 e
    let n := (roundUnits rm s p.1 p.2 0).1
    if n = 0 then (zeroF f s, noFlags) else ((roundDy f .rne true s n 0).1, noFlags)

/-- FRND (R126). -/
def rndVal (t : FType) (rm : RMode) (ftz : Bool) (a : Nat) : Nat × Flags :=
  perElem t (fun a _ _ => rndElem (ftFmt t) rm ftz a) a 0 0

/-- One element of FSCL with exponent n (R127). Beyond 2^14 the exponent lies past every format's range, so it is
clamped there. -/
def sclElem (f : Fmt) (rm : RMode) (ftz : Bool) (a : Nat) (n : Int) : Nat × Flags :=
  match decodeF f (ftzIn f ftz a) with
  | .nan s => (canonNan f, { nv := s })
  | .inf s => (infF f s, noFlags)
  | .fin s m e =>
    if m = 0 then (zeroF f s, noFlags)
    else ftzOut f ftz (roundDy f rm false s m (e + clampInt (-16384) 16384 n))

/-- FSCL (R127). -/
def sclVal (t : FType) (rm : RMode) (ftz : Bool) (a b : Nat) : Nat × Flags :=
  let f := ftFmt t
  if ftX2 t then perElem t (fun a b _ => sclElem f rm ftz a (toSigned 16 b)) a b 0
  else sclElem f rm ftz (a % 2 ^ fmtWidth f) (toSigned 32 (b % 2 ^ 32))

/-- The element format of a format code; none for E8M0 (R129). -/
def cfFmt : CFmt → Option Fmt
  | .f32 => some Machine.f32
  | .f64 => some Machine.f64
  | .f16 | .f16x2 => some Machine.f16
  | .bf16 | .bf16x2 => some Machine.bf16
  | .e5m2 => some Machine.e5m2
  | .e4m3 => some Machine.e4m3
  | .e3m2 => some Machine.e3m2
  | .e2m3 => some Machine.e2m3
  | .e2m1 => some Machine.e2m1
  | .e8m0 => none

/-- Whether a format code packs two elements. -/
def cfX2 (c : CFmt) : Bool := c == .f16x2 || c == .bf16x2

/-- The one-hot class of R128. -/
def classOf (f : Fmt) (x : Nat) : Nat :=
  let s := bit x (f.ebits + f.mbits)
  match decodeF f x with
  | .nan sig => if sig then 1 else 2
  | .inf s => if s then 4 else 2 ^ 9
  | .fin _ m _ =>
    if m = 0 then (if s then 2 ^ 5 else 2 ^ 6)
    else if isSubnormal f x then (if s then 2 ^ 4 else 2 ^ 7)
    else if s then 2 ^ 3 else 2 ^ 8

/-- FCLS (R128). -/
def clsVal (c : CFmt) (a : Nat) : Nat :=
  match cfFmt c with
  | none => 0
  | some f => if cfX2 c then classOf f (bits a 15 0) + classOf f (bits a 31 16) * 2 ^ 16
      else classOf f (a % 2 ^ fmtWidth f)

/-- The E8M0 code of floor(log2 |x|) + 127 - bias, clamped to 0 to 254, for positive m 2^e (R130, R134). -/
def e8m0Of (m : Nat) (e : Int) (sub : Int) : Nat :=
  (clampInt 0 254 (e + Nat.log2 m - sub + 127)).toNat

/-- The value of an E8M0 code (R112). -/
def e8m0Val (c : Nat) : FVal := if c = 255 then .nan false else .fin false 1 ((c : Int) - 127)

/-- A value converted to a format with RM, SAT and FTZ (R130). -/
def cvtTo (f : Fmt) (rm : RMode) (sat ftz : Bool) (x : FVal) : Nat × Flags :=
  match x with
  | .nan s => if fmtHasNan f then (canonNan f, { nv := s }) else (0, nvFlag)
  | .inf s =>
    if fmtHasInf f && !sat then (infF f s, noFlags)
    else if f.nan = .allOnes ∧ ¬ sat then (canonNan f, noFlags)
    else (zeroF f s + maxBits f, noFlags)
  | .fin s m e =>
    if m = 0 then (zeroF f s, noFlags)
    else ftzOut f (ftz && fmtWide f) (roundDy f rm sat s m e)

/-- A source element of FCVT as a value (R130). -/
def cvtSrc (st : CFmt) (ftz : Bool) (x : Nat) : FVal :=
  match cfFmt st with
  | none => e8m0Val (x % 256)
  | some f =>
    let x := x % 2 ^ fmtWidth f
    decodeF f (if fmtWide f then ftzIn f ftz x else x)

/-- One produced element of FCVT (R130). -/
def cvtElem (dt st : CFmt) (rm : RMode) (sat ftz : Bool) (x : Nat) : Nat × Flags :=
  let v := cvtSrc st ftz x
  match cfFmt dt with
  | some f => cvtTo f rm sat ftz v
  | none => match v with
    | .nan _ | .inf _ => (255, nvFlag)
    | .fin _ m e => if m = 0 then (0, noFlags) else (e8m0Of m e 0, noFlags)

/-- FCVT (R129, R130). -/
def cvtVal (o : FcvtOp) (a b : Nat) : Nat × Flags :=
  if cfX2 o.dt then
    let r0 := cvtElem o.dt o.st o.rm o.sat o.ftz (a % 2 ^ 32)
    let r1 := cvtElem o.dt o.st o.rm o.sat o.ftz (b % 2 ^ 32)
    (r0.1 + r1.1 * 2 ^ 16, orFlags r0.2 r1.2)
  else cvtElem o.dt o.st o.rm o.sat o.ftz (if o.hi then bits a 31 16 else a)

/-- The formats of SFmt (R131). -/
def sfFmt : SFmt → Fmt
  | .f32 => Machine.f32
  | .f64 => Machine.f64
  | .f16 => Machine.f16
  | .bf16 => Machine.bf16

/-- Width and signedness of an integer type (R131). -/
def itBits : IType → Nat
  | .n32 | .i32 => 32
  | .n64 | .i64 => 64
def itSgn : IType → Bool
  | .i32 | .i64 => true
  | .n32 | .n64 => false

/-- F2I (R131): the value as an integer pattern of IT and the flags. -/
def f2iVal (st : SFmt) (it : IType) (rm : RMode) (a : Nat) : Nat × Flags :=
  let f := sfFmt st
  let n := itBits it
  let lo : Int := if itSgn it then -(2 ^ (n - 1) : Nat) else 0
  let hi : Int := if itSgn it then (2 ^ (n - 1) : Nat) - 1 else (2 ^ n : Nat) - 1
  match decodeF f (a % 2 ^ fmtWidth f) with
  | .nan _ => (0, nvFlag)
  | .inf s => (ofSigned n (if s then lo else hi), nvFlag)
  | .fin s m e =>
    let p := scale2 m 1 e
    let q := roundUnits rm s p.1 p.2 0
    let v : Int := if s then -(q.1 : Int) else q.1
    if v < lo then (ofSigned n lo, nvFlag)
    else if hi < v then (ofSigned n hi, nvFlag)
    else (ofSigned n v, { nx := q.2 })

/-- I2F (R132). -/
def i2fVal (dt : SFmt) (it : IType) (rm : RMode) (a : Nat) : Nat × Flags :=
  let n := itBits it
  roundDyad (sfFmt dt) rm false false (dyOfInt (interp (itSgn it) n (a % 2 ^ n)))

/-- Element k of an FDOT operand (R133). -/
def dotElem (st : DotFmt) (ftz : Bool) (x k : Nat) : FVal :=
  match st with
  | .f16x2 => decodeF Machine.f16 (ftzIn Machine.f16 ftz (bits x (16 * k + 15) (16 * k)))
  | .bf16x2 => decodeF Machine.bf16 (ftzIn Machine.bf16 ftz (bits x (16 * k + 15) (16 * k)))
  | .e5m2 => decodeF Machine.e5m2 (bits x (8 * k + 7) (8 * k))
  | .e4m3 => decodeF Machine.e4m3 (bits x (8 * k + 7) (8 * k))
  | .e3m2 => decodeF Machine.e3m2 (bits x (8 * k + 5) (8 * k))
  | .e2m3 => decodeF Machine.e2m3 (bits x (8 * k + 5) (8 * k))
  | .e2m1 => decodeF Machine.e2m1 (bits x (4 * k + 3) (4 * k))

/-- The number of elements of an FDOT operand (R133). -/
def dotCount : DotFmt → Nat
  | .f16x2 | .bf16x2 => 2
  | .e5m2 | .e4m3 | .e3m2 | .e2m3 => 4
  | .e2m1 => 8

/-- floor(log2 |d|) of a nonzero dyadic. -/
def dyLog (d : Dy) : Int := d.e + Nat.log2 d.m.natAbs

/-- The largest of a list of integers; none of an empty list. -/
def maxInt? : List Int → Option Int
  | [] => none
  | x :: xs => some (xs.foldl max x)

/-- floor(d 2^k). -/
def dyFloor (d : Dy) (k : Int) : Int :=
  let s := d.e + k
  if s ≥ 0 then d.m * (2 ^ s.toNat : Nat) else d.m / (2 ^ (-s).toNat : Nat)

/-- The aligned sum of R264: each nonzero product cut toward minus infinity below 2^(emax-48). -/
def alignedSum (ps : List Dy) : Dy :=
  let nz := ps.filter fun p => p.m != 0
  match maxInt? (nz.map dyLog) with
  | none => dyZero
  | some emax => ⟨(nz.map fun p => dyFloor p (48 - emax)).foldl (· + ·) 0, emax - 48⟩

/-- The exact sum of a list of dyadics. -/
def dySum (ps : List Dy) : Dy := ps.foldl dyAdd dyZero

/-- The value of a set of products before narrowing (R133, R261): NaN with its NV, an infinity or a finite sum. -/
inductive SumVal where
  | nan (nv : Bool)
  | inf (neg : Bool)
  | fin (d : Dy)
  deriving DecidableEq, Repr

/-- R261's Value over pairs of elements, with the finite sum as given. -/
def sumVal (fin : List Dy → Dy) (xs : List (FVal × FVal)) : SumVal :=
  if xs.any fun p => isNan p.1 || isNan p.2 then .nan (xs.any fun p => isSig p.1 || isSig p.2)
  else
    let ps := xs.map fun p => mulExact p.1 p.2
    let infs := ps.filterMap fun p => match p with
      | some (.inf s) => some s
      | _ => none
    if ps.any (· == none) || (infs.any id && infs.any (!·)) then .nan true
    else match infs with
      | s :: _ => .inf s
      | [] => .fin (fin (ps.map fun p => match p with
          | some v => dyOf v
          | none => dyZero))

/-- FDOT (R133). -/
def fdotVal (st : DotFmt) (rm : RMode) (ftz : Bool) (a b c : Nat) : Nat × Flags :=
  let f := Machine.f32
  let c := ftzIn f ftz (c % 2 ^ 32)
  let z := decodeF f c
  let xs := (List.range (dotCount st)).map fun k => (dotElem st ftz a k, dotElem st ftz b k)
  let v := sumVal (if st = .bf16x2 then alignedSum else dySum) xs
  match v, z with
  | .nan nv, _ =>
    (canonNan f, { nv := if isNan z then isSig z || xs.any fun p => isSig p.1 || isSig p.2 else nv })
  | _, .nan s => (canonNan f, { nv := s || xs.any fun p => isSig p.1 || isSig p.2 })
  | .inf s, .inf t => if s = t then (infF f s, noFlags) else (canonNan f, nvFlag)
  | .inf s, _ => (infF f s, noFlags)
  | _, .inf t => (infF f t, noFlags)
  | .fin v, _ =>
    let r : Nat × Flags := if v.m = 0 then (c, noFlags) else
      let s := dyAdd (dyOf z) v
      if s.m = 0 then (zeroF f (rm == .rdn), noFlags) else roundDyad f rm false false s
    ftzOut f ftz r

/-- The element format and emax of a block format (R134). -/
def efFmt : EFmt → Fmt
  | .e5m2 => Machine.e5m2
  | .e4m3 => Machine.e4m3
  | .e3m2 => Machine.e3m2
  | .e2m3 => Machine.e2m3
  | .e2m1 => Machine.e2m1
def efEmax : EFmt → Int
  | .e5m2 => 15
  | .e4m3 => 8
  | .e3m2 => 4
  | .e2m3 => 2
  | .e2m1 => 2

/-- BQNT.scale (R134). -/
def bqntScaleVal (ef : EFmt) (a : Nat) : Nat × Flags :=
  match decodeF Machine.f32 (a % 2 ^ 32) with
  | .nan _ | .inf _ => (255, nvFlag)
  | .fin _ m e =>
    if m = 0 ∨ isSubnormal Machine.f32 (a % 2 ^ 32) then (0, noFlags) else (e8m0Of m e (efEmax ef), noFlags)

/-- BQNT of one element (R134). -/
def bqntElemVal (ef : EFmt) (rm : RMode) (sat : Bool) (a b : Nat) : Nat × Flags :=
  let f := efFmt ef
  let c := b % 256
  let x := decodeF Machine.f32 (a % 2 ^ 32)
  if c = 255 ∨ isNan x then
    (if fmtHasNan f then canonNan f else 0, { nv := c == 255 || !fmtHasNan f || isSig x })
  else match x with
    | .fin s m e => cvtTo f rm sat false (.fin s m (e + 127 - c))
    | v => cvtTo f rm sat false v

/-- BDQ (R135). -/
def bdqVal (ef : EFmt) (rm : RMode) (a b : Nat) : Nat × Flags :=
  let f := efFmt ef
  let c := b % 256
  match decodeF f (a % 2 ^ fmtWidth f) with
  | .nan _ => (canonNan Machine.f32, noFlags)
  | .inf s => if c = 255 then (canonNan Machine.f32, noFlags) else (infF Machine.f32 s, noFlags)
  | .fin s m e =>
    if c = 255 then (canonNan Machine.f32, noFlags)
    else if m = 0 then (zeroF Machine.f32 s, noFlags)
    else roundDy Machine.f32 rm false s m (e + c - 127)

/-- The Op of R89 on one type: the result and its flags. -/
def foldOp (op : RedOp) (ty : LType) (x y : Nat) : Nat × Flags :=
  let n := match ty with
    | .n32 | .i32 | .f32 => 32
    | _ => 64
  let sgn := ty == .i32 || ty == .i64
  let int := ((match op with
    | .add => (x + y) % 2 ^ n
    | .min => ofSigned n (min (interp sgn n x) (interp sgn n y))
    | .max => ofSigned n (max (interp sgn n x) (interp sgn n y))
    | .and => x &&& y
    | .or => x ||| y
    | .xor => x ^^^ y), noFlags)
  let flt (f : Fmt) : Nat × Flags := match op with
    | .add => arithElem .add f .rne false false x y 0
    | .min => minMaxElem false f x y
    | .max => minMaxElem true f x y
    | _ => int
  match ty with
  | .f32 => flt Machine.f32
  | .f64 => flt Machine.f64
  | _ => int

/-- The identity of an exclusive scan at lane 0 (R89). -/
def foldIdent (op : RedOp) (ty : LType) : Nat :=
  let n := match ty with
    | .n32 | .i32 | .f32 => 32
    | _ => 64
  match op, ty with
  | .add, _ | .or, _ | .xor, _ => 0
  | .and, _ => 2 ^ n - 1
  | .min, .n32 | .min, .n64 => 2 ^ n - 1
  | .min, .i32 | .min, .i64 => 2 ^ (n - 1) - 1
  | .max, .n32 | .max, .n64 => 0
  | .max, .i32 | .max, .i64 => 2 ^ (n - 1)
  | .min, .f32 => infF Machine.f32 false
  | .min, .f64 => infF Machine.f64 false
  | .max, .f32 => infF Machine.f32 true
  | .max, .f64 => infF Machine.f64 true

/-- The fold of R89 over the values of lanes 0 to `last`; the identity where `vs` is empty. -/
def foldLanes (op : RedOp) (ty : LType) (vs : List Nat) : Nat × Flags :=
  match vs with
  | [] => (foldIdent op ty, noFlags)
  | v :: rest => rest.foldl (fun acc w =>
      let r := foldOp op ty acc.1 w
      (r.1, orFlags acc.2 r.2)) (v, noFlags)

/-- The latency in cc of a float form (R39): 8 where a source or destination is binary64. -/
def fpLat (dbl : Bool) : Nat := if dbl then 8 else 4

end Sys2Proof.Machine
end

