-- ==== Sys2Proof/Machine/Cones.lean ====
section
/-! DEFINITION. Watch cones: what an event matches, the slump and its action (R383 to R391), and halt requests (R393). -/

namespace Sys2Proof.Machine
open Sys2Proof

/-- The words of a cone as numbers. -/
structure ConeNum where
  cw : Nat
  c0 : Nat
  c1 : Nat
  deriving DecidableEq, Repr

def Cone.num (c : Cone) : ConeNum := ⟨c.cw.toNat, c.cmp0.toNat, c.cmp1.toNat⟩

/-- x ≤ y as reals, with -0 equal to +0; false where one is a NaN. -/
def leReal (f : Fmt) (x y : Nat) : Bool :=
  !isNan (decodeF f x) && !isNan (decodeF f y) &&
    ((isZero (decodeF f x) && isZero (decodeF f y)) || !lessNum f y x)

/-- The value comparison of R386, for a value of w bytes. -/
def valueMatch (c : ConeNum) (v w : Nat) : Bool :=
  let vmode := bits c.cw 11 10
  let n := if bit c.cw 12 then 64 else 32
  let signed := toSigned (8 * w) v
  let x := if vmode = 1 ∧ 8 * w < n then ofSigned n signed else v % 2 ^ n
  let lo := c.c0 % 2 ^ n
  let hi := c.c1 % 2 ^ n
  match vmode with
  | 0 => (x &&& hi) == (lo &&& hi)
  | 1 => decide (toSigned n lo ≤ toSigned n x ∧ toSigned n x ≤ toSigned n hi)
  | 2 => decide (lo ≤ x ∧ x ≤ hi)
  | _ =>
    if 8 * w ≠ n then false else
    let f := if n = 64 then f64 else f32
    if isNan (decodeF f x) then bit c.cw 13 else leReal f lo x && leReal f x hi

/-- SPC (R384). -/
def spcMatch (c : ConeNum) (space : Option Nat) : Bool := bits c.cw 9 7 == 7 || space == some (bits c.cw 9 7)

/-- HIT where the cone's own fields match an event (R385 to R387, R390); 0 where they do not. -/
def coneHit (c : ConeNum) (ev : ConeEv) : Nat :=
  match bits c.cw 2 0, ev with
  | 1, .mem k sp a l _ =>
    if bit c.cw (3 + k) ∧ spcMatch c sp ∧ max a c.c0 ≤ min l c.c1 then 2 ^ k else 0
  | 2, .mem k sp _ _ (some (v, w)) => if bit c.cw (3 + k) ∧ spcMatch c sp ∧ valueMatch c v w then 2 ^ k else 0
  | 3, .exc cls _ => cls &&& bits c.cw 17 14
  | _, _ => 0

/-- The filters of R388 on a thread of a team, for a cone of another or the same team. -/
def conePasses (cw : Nat) (own : Bool) (t : Thread) : Bool :=
  (own || bit cw 45) && t.crew != 7 &&
  (!bit cw 25 || t.crew == bits cw 24 22) && (!bit cw 31 || t.tid / 64 == bits cw 30 26) &&
  (!bit cw 44 || t.tid == bits cw 43 32)

/-- The cone can slump: bound, in use and armed before this cc (R383, R389, R398). -/
def Cone.armed (c : Cone) : Bool := c.bound && !c.fresh && bits c.cw.toNat 2 0 != 0 && c.cstat.getLsbD 33

/-- HIT of a cone of a list under LINK (R388). -/
def linkedHit (cones : List Cone) (n : Nat) (c : Cone) (ev : ConeEv) : Nat :=
  let h := coneHit c.num ev
  let l := bits c.cw.toNat 49 46
  if ¬ bit c.cw.toNat 50 ∨ l = n then h else
  match cones[l]? with
  | some d => if d.bound && coneHit d.num ev != 0 then h else 0
  | none => 0

/-- The physical cones of a core in use (R383). -/
def State.conesUsed (s : State) (core : Nat) : Nat :=
  s.teams.foldl (fun n tm => if tm.core = core then n + (tm.cones.filter fun c => c.bound).length else n) 0
/-- Logical cones in use and not bound take the free physical cones of their core, in ascending logical order (R398). -/
def State.bindCones (s : State) (core : Nat) : State :=
  (List.range 16).foldl (fun s n => s.teams.foldl (fun s tm =>
    match tm.cones[n]? with
    | some c =>
      if tm.core = core ∧ ¬ c.bound ∧ bits c.cw.toNat 2 0 ≠ 0 ∧ s.conesUsed core < 16 then
        s.modTeam tm.id fun tm => { tm with cones := tm.cones.modify n fun c => { c with bound := true } }
      else s
    | none => s) s) s

/-- CADDR and CVAL of an event (R390). -/
def ConeEv.addr : ConeEv → Nat
  | .mem _ _ a l _ => if a ≤ l then a else 0
  | .exc _ _ => 0
def ConeEv.val : ConeEv → Nat
  | .mem _ _ _ _ (some (v, _)) => v
  | .mem _ _ _ _ none => 0
  | .exc _ v => v

/-- The place of a slump among those of one cc: its lane, then its crew number, then its TID (R389); of the record that a
cone holds, as CSTAT has it (R390). -/
def slumpPlace (lane crew tid : Nat) : Nat := (lane * 8 + crew % 8) * 4096 + tid % 4096
def Cone.recPlace (c : Cone) : Nat :=
  slumpPlace (bits c.cstat.toNat 45 40) (bits c.cstat.toNat 60 58) (bits c.cstat.toNat 57 46)
/-- The cone after a slump: COUNT saturates, and the record takes the first slump, of those of one cc the one on the lowest
lane, then of the lowest crew and TID (R389, R390). -/
def Cone.slump (c : Cone) (t : Thread) (teamIx hit : Nat) (n : ConeNote) : Cone :=
  let st := c.cstat.toNat
  let cnt := min (st % 2 ^ 32 + 1) (2 ^ 32 - 1)
  if bit st 32 ∧ ¬ (c.taken ∧ slumpPlace t.lane t.crew t.tid < c.recPlace) then
    { c with cstat := BitVec.ofNat 64 (st / 2 ^ 32 * 2 ^ 32 + cnt) } else
  { c with
    taken := true
    cstat := BitVec.ofNat 64
      (cnt + 2 ^ 32 + bits st 33 33 * 2 ^ 33 + t.lane * 2 ^ 40 + t.tid % 4096 * 2 ^ 46 + t.crew % 8 * 2 ^ 58 +
        teamIx % 8 * 2 ^ 61)
    cwhere := BitVec.ofNat 64 (n.ord.toNat % 2 ^ 16 + n.op % 256 * 2 ^ 16 + hit % 16 * 2 ^ 24)
    caddr := BitVec.ofNat 64 n.ev.addr
    cval := BitVec.ofNat 64 n.ev.val
    ciaddr := n.iaddr }

/-- A cone at the end of a cc: one whose ONCE is set and that holds a slump is disarmed (R389). -/
def Cone.settle (c : Cone) : Cone :=
  { c with
    fresh := false
    taken := false
    cstat := if c.cw.getLsbD 21 ∧ c.cstat.getLsbD 32 ∧ c.cstat.getLsbD 33 then c.cstat &&& ~~~(BitVec.ofNat 64 (2 ^ 33)) else c.cstat }
/-- The end of a cc for the cones of the cores that satisfy a test (R389). -/
def State.settleCones (s : State) (f : Nat → Bool) : State :=
  { s with teams := s.teams.map fun tm => if f tm.core then { tm with cones := tm.cones.map Cone.settle } else tm }

/-- A thread halts, with its trace record (R393, R400, R406). -/
def State.putHalt (s : State) (tm : Team) (i : Nat) (t : Thread) (cause cone : Nat) (inplace : Bool) : State :=
  let d : Debug := { halted := true, hcause := cause, cone := cone, inplace := inplace }
  (s.modThr tm.id i fun t => { t with dbg := d }).trace
    tm.core 7 tm.asid t.who (natLe 8 t.pc.toNat ++ natLe 8 (cause % 16 + cone % 16 * 16))
/-- A requested halt lands on a thread (R393, R394). -/
def State.landHalt (s : State) (id i : Nat) (inplace : Bool) : State :=
  match s.team? id, s.thr? id i with
  | some tm, some t =>
    match t.dbg.req with
    | none => s
    | some (cause, cone) => s.putHalt tm i t cause cone inplace
  | _, _ => s

/-- Nothing of the thread is in flight or reported: it has drained (R393). -/
def Thread.quiet (t : Thread) : Bool := t.pend.isEmpty && t.wb.isEmpty && t.late.isEmpty
/-- A halt request on a thread (R391, R393, R394, R404); none is made on the system crew. On an idle thread and in a YIELD
pause it lands at once, and the thread reads as halted once it has drained. -/
def State.requestHalt (s : State) (id cause cone i : Nat) : State :=
  match s.thr? id i with
  | none => s
  | some t =>
    if t.crew = 7 ∨ t.status = .ended ∨ t.dbg.halted ∨ t.dbg.req.isSome then s else
    let s1 := s.modThr id i fun t => { t with dbg := { t.dbg with req := some (cause, cone) } }
    if t.status ≠ .idle ∧ t.yieldLeft = 0 then s1
    else if t.quiet then s1.landHalt id i false
    else s1.modThr id i fun t => { t with dbg := { t.dbg with landed := true } }

/-- The threads that an ACT of a cone halts (R391). -/
def haltSet (tm : Team) (i act : Nat) : List Nat :=
  match tm.threads[i]? with
  | none => []
  | some t =>
    match act with
    | 2 => [i]
    | 3 => (List.range tm.threads.length).filter fun j => (tm.threads[j]?.map (·.crew)) == some t.crew
    | _ => (List.range tm.threads.length).filter fun j => (tm.threads[j]?.map (·.crew)) != some 7

/-- ACT of a slump of cone n (R391): count, log, or halt where the context holds the debug right. -/
def State.coneAct (s : State) (tm : Team) (t : Thread) (i n act : Nat) (note : ConeNote) : State :=
  if act = 0 then s else
  let right : Bool := match s.ctx? tm.asid with | some c => c.debug | none => false
  if act = 1 ∨ ¬ right then
    s.logViol tm.asid
      { addr := note.ev.addr, iaddr := note.iaddr.toNat, code := 112 + n
        space := match note.ev with | .mem _ (some sp) _ _ _ => sp | _ => 0
        agent := 11, core := tm.core, lane := t.lane, opc := note.op, ord := note.ord.toNat, who := t.who }
  else (haltSet tm i act).foldl (fun s j => s.requestHalt tm.id 3 n j) s

/-- An event of thread i of a team is shown to one cone of a team (R388 to R391). -/
def State.showCone (s : State) (owner : Nat) (tm : Team) (t : Thread) (i n : Nat) (note : ConeNote) : State :=
  match s.team? owner with
  | none => s
  | some ow =>
    match ow.cones[n]? with
    | none => s
    | some c =>
      if ¬ c.armed ∨ ¬ conePasses c.cw.toNat (owner == tm.id) t then s else
      let hit := linkedHit ow.cones n c note.ev
      if hit = 0 then s else
      let s1 := s.modTeam owner fun o => { o with cones := o.cones.modify n fun c => c.slump t tm.teamIx hit note }
      let s2 := s1.trace tm.core 6 tm.asid t.who (natLe 8 note.iaddr.toNat ++ natLe 8 note.ev.val)
      s2.coneAct tm t i n (bits c.cw.toNat 20 18) note

/-- An event of a thread is shown to every cone of its context on its core (R383, R388). -/
def State.observe (s : State) (id i : Nat) (note : ConeNote) : State :=
  match s.team? id with
  | none => s
  | some tm =>
    match tm.threads[i]? with
    | none => s
    | some t =>
      if t.crew = 7 then s else
      let owners := s.teams.filter fun o => o.core == tm.core && o.asid == tm.asid && o.cones.any Cone.armed
      owners.foldl (fun s o => (List.range 16).foldl (fun s n => s.showCone o.id tm t i n note) s) s

end Sys2Proof.Machine
end

