-- ==== Sys2Proof/Machine/Uses.lean ====
section
/-! DEFINITION. What each instruction names: its common fields, the V registers it reads and writes (R45, R46, R92), the
crews that may issue it (R355, R404) and the tensor-shape slot or tile it names (R46, R276). -/

namespace Sys2Proof.Machine
open Sys2Proof

/-- The common fields of an instruction word (R36); those of an unguarded word with no flag for an event. -/
def commonOf : Instr → Common
  | .nop c _ | .bra c _ | .brx c _ _ | .call c _ _ | .callx c _ _ | .ret c _ | .retChecked c _ _ | .jinitLive c _
  | .jinitSelf c _ | .jinitClear c _ | .jinitK c _ _ | .join c _ | .jleave c _ | .jtest c _ _ _ | .exit c | .yield c _
  | .iadd c _ | .isub c _ | .imul c _ | .imulh c _ | .imad c _ | .imadw c _ | .iabs c _ | .imin c _ | .imax c _
  | .and c _ | .or c _ | .xor c _ | .shl c _ | .shr c _ | .sar c _ | .bfe c _ | .bfi c _ | .popc c _ | .clz c _
  | .brev c _ | .icmp c _ | .sel c _ | .mov c _ | .movi c _ | .lea c _ | .plop c _ | .smovRead c _ | .smovWrite c _
  | .kmovToK c _ | .kmovFromK c _ | .elect c _ | .iaddi c _ | .lopi c _ | .fadd c _ | .fsub c _ | .fmul c _ | .ffma c _
  | .fmin c _ | .fmax c _ | .fcmp c _ | .frcp c _ | .fsqrt c _ | .frsq c _ | .fexp2 c _ | .flog2 c _ | .fsin c _
  | .fcos c _ | .frnd c _ | .fscl c _ | .fcls c _ | .fcvt c _ | .f2i c _ | .i2f c _ | .fdot c _ | .bqntScale c _
  | .bqntElement c _ | .bdq c _ | .shfl c _ | .vote c _ | .lred c _ | .lscan c _ | .matchLanes c _ | .ld c _ | .st c _
  | .stt c _ | .pref c _ | .ipref c _ | .ipin c _ | .iunpin c _ | .fenceRel c _ | .fenceAcq c _ | .fenceAr c _
  | .cflushL1 c _ | .cflushClean c _ | .cflushInval c _ | .cflushTlb c _ | .cflushAsid c _ | .cflushCtx c _
  | .feset c _ | .feclr c _ | .monitor c _ | .waitm c | .atom c _ | .atomcas c _ | .red c _ | .xadd c _ | .xread c _
  | .xclr c _ | .xclrLine c _ | .glaze c _ | .glzins c _ | .glzq c _ | .bari c _ | .bara c _ | .barw c _ | .bart c _
  | .bartPoison c _ | .barp c _ | .qcfgSet c _ | .qcfgGrant c _ | .qcfgStat c _ | .qcfgOff c _ | .qpush c _ | .qpop c _
  | .qtry c _ | .sqadd c _ | .sqwait c _ | .sqrd c _ | .cpl c _ | .cpt c _ | .cpm c _ | .cpg c _ | .cpclose c
  | .cpwait c _ | .chkw c _ | .chkt c _ | .tload c _ | .tevict c _ | .sort c _ | .mmx c _ | .mmzero c _ | .mmld c _
  | .mmst c _ | .mmrd c _ | .mmwake c _ | .mmstat c _ | .rast c _ | .attr c _ | .oenter c | .oleave c | .flcfgSet c _
  | .flcfgGrow c _ | .flcfgOff c _ | .flins c _ | .flres c _ | .flresClr c _ | .flrd c _ | .splat c _ | .raybox c _
  | .raytri c _ | .launch c _ | .wgemit c _ | .wgdone c _ | .dqpush c _ | .dqpop c _ | .dqsteal c _ | .quiesceArm c _
  | .quiesceRd c _ | .trap c _ | .srd c _ | .swr c _ | .cont c _ | .contOff c | .resumeSvc c | .resume c _ | .tretRec c
  | .tretNext c | .tretKill c | .tretTerm c _ | .coneset c _ | .coneclr c _ | .coneclrRec c _ | .coneclrAll c _
  | .haltSelf c | .haltCrew c | .haltTeam c | .haltThr c _ | .haltRel c _ | .inspr c _ | .inspw c _ | .step c _
  | .tmark c _ => c
  | _ => {}

/-- n consecutive V registers. -/
def vrange (v : VReg) (n : Nat) : List Nat := (List.range n).map fun i => v.val + i
/-- One register, or a pair where wide (R92). -/
def vreg2 (wide : Bool) (v : VReg) : List Nat := if wide then [v.val, v.val + 1] else [v.val]
/-- The V registers of an operand that may be V or K. -/
def sreg2 (wide : Bool) : Src → List Nat
  | .v n => vreg2 wide n
  | .k _ => []
def oreg2 (wide : Bool) : Option Src → List Nat
  | some x => sreg2 wide x
  | none => []

/-- The V registers that an instruction's source operands name (R46). -/
def readsOf : Instr → List Nat
  | .brx _ r _ | .callx _ r _ | .ret _ r | .retChecked _ r _ => vreg2 true r
  | .iadd _ o | .isub _ o | .imul _ o | .imulh _ o | .imin _ o | .imax _ o => sreg2 o.wide o.a ++ sreg2 o.wide o.b
  | .imad _ o => sreg2 o.wide o.a ++ sreg2 o.wide o.b ++ sreg2 o.wide o.c
  | .imadw _ o => sreg2 false o.a ++ sreg2 false o.b ++ sreg2 true o.c
  | .iabs _ o => sreg2 o.wide o.a
  | .iaddi _ o => sreg2 o.wide o.a
  | .lopi _ o => sreg2 o.wide o.a
  | .and _ o | .or _ o | .xor _ o => sreg2 o.wide o.a ++ sreg2 o.wide o.b
  | .shl _ o | .shr _ o | .sar _ o | .bfe _ o => sreg2 o.wide o.a ++ sreg2 o.wide o.b
  | .bfi _ o => sreg2 o.wide o.a ++ sreg2 o.wide o.b ++ sreg2 o.wide o.c
  | .popc _ o | .clz _ o | .brev _ o | .mov _ o => sreg2 o.wide o.a
  | .icmp _ o => sreg2 o.wide o.a ++ sreg2 o.wide o.b
  | .sel _ o => sreg2 o.wide o.a ++ sreg2 o.wide o.b
  | .lea _ o => sreg2 true o.a ++ sreg2 true o.b
  | .smovWrite _ o => sreg2 o.wide o.a
  | .kmovToK _ o => vreg2 o.wide o.v
  | .fadd _ o | .fsub _ o | .fmul _ o | .fmin _ o | .fmax _ o | .fscl _ o =>
    sreg2 (isF64 o.ft) o.a ++ sreg2 (isF64 o.ft) o.b
  | .ffma _ o => sreg2 (isF64 o.ft) o.a ++ sreg2 (isF64 o.ft) o.b ++ sreg2 (isF64 o.ft) o.c
  | .fcmp _ o => sreg2 (isF64 o.ft) o.a ++ sreg2 (isF64 o.ft) o.b
  | .frcp _ o | .fsqrt _ o | .frsq _ o | .fexp2 _ o | .flog2 _ o | .fsin _ o | .fcos _ o | .frnd _ o =>
    sreg2 (isF64 o.ft) o.a
  | .fcls _ o => sreg2 (o.fmt == .f64) o.a
  | .fcvt _ o => sreg2 o.wide o.a ++ oreg2 false o.b
  | .f2i _ o | .i2f _ o => sreg2 o.wide o.a
  | .fdot _ o => sreg2 false o.a ++ sreg2 false o.b ++ sreg2 false o.c
  | .bqntScale _ o => sreg2 false o.a
  | .bqntElement _ o => sreg2 false o.a ++ sreg2 false o.b
  | .bdq _ o => sreg2 false o.a ++ sreg2 false o.b
  | .shfl _ o => vreg2 o.wide o.a ++ sreg2 o.wide o.b ++ oreg2 o.wide o.fill
  | .lred _ o | .lscan _ o => vreg2 (ltWide o.ty) o.a ++ oreg2 (ltWide o.ty) o.fill
  | .matchLanes _ o => vreg2 o.wide o.a
  | .ld _ o => sreg2 (isMem o.space) o.base
  | .st _ o | .stt _ o => sreg2 (isMem o.space) o.base ++ vreg2 (o.w == .n64) o.data
  | .pref _ o => sreg2 true o.base
  | .cflushL1 _ o | .cflushClean _ o | .cflushInval _ o | .cflushTlb _ o | .cflushAsid _ o | .cflushCtx _ o =>
    sreg2 true o.base
  | .feset _ o | .feclr _ o => sreg2 false o.base
  | .monitor _ o => sreg2 (isMem o.space) o.base
  | .atom _ o => sreg2 (isMem o.space) o.a ++ sreg2 (atWide o.ty) o.b
  | .atomcas _ o => sreg2 (isMem o.space) o.a ++ sreg2 o.wide o.b ++ sreg2 o.wide o.c
  | .red _ o => sreg2 (isMem o.space) o.a ++ sreg2 (atWide o.ty) o.b
  | .xadd _ o => sreg2 (!o.chip) o.a ++ sreg2 false o.b
  | .xread _ o => sreg2 (!o.chip) o.a
  | .xclr _ o | .xclrLine _ o => sreg2 (!o.chip) o.a
  | .glaze _ o => sreg2 (!o.chip) o.a ++ [o.b.val] ++ sreg2 false o.c
  | .glzins _ o => sreg2 true o.a ++ sreg2 false o.c
  | .glzq _ o => sreg2 false o.c
  | .bari _ o => sreg2 false o.a ++ sreg2 false o.b ++ sreg2 false o.c
  | .bara _ o => sreg2 false o.a ++ oreg2 false o.cnt
  | .barw _ o | .bart _ o => sreg2 false o.a ++ sreg2 false o.b
  | .bartPoison _ o => sreg2 false o.a
  | .barp _ o => sreg2 false o.a
  | .qcfgSet _ o => sreg2 false o.a
  | .qcfgGrant _ o => sreg2 false o.b
  | .sqadd _ o | .sqwait _ o => sreg2 false o.a ++ sreg2 o.wide o.b
  | .sqrd _ o => sreg2 false o.a
  | .cpl _ o => sreg2 (isMem o.dsp) o.d ++ sreg2 (isMem o.ssp) o.a ++ sreg2 false o.b
  | .cpt _ o => sreg2 false o.d ++ [o.a.val] ++ sreg2 false o.b
  | .cpm _ o | .cpg _ o => sreg2 false o.d ++ [o.a.val] ++ sreg2 false o.b ++ sreg2 false o.c
  | .chkw _ o => sreg2 false o.a ++ vreg2 true o.b
  | .chkt _ o => sreg2 false o.a ++ vreg2 true o.b
  | .tload _ o => sreg2 true o.a
  | .sort _ a | .mmx _ a | .rast _ a | .splat _ a => sreg2 false a
  | .mmld _ o => sreg2 false o.a ++ sreg2 false o.b ++ oreg2 false o.ew
  | .mmst _ o => sreg2 o.mem o.a ++ sreg2 false o.b ++ oreg2 false o.bar
  | .mmrd _ o => sreg2 false o.b
  | .attr _ o => sreg2 false o.b
  | .flcfgSet _ o => sreg2 o.mem o.a
  | .flins _ o => sreg2 false o.a ++ vreg2 true o.b ++ oreg2 false (o.px.map Prod.snd)
  | .flres _ o | .flresClr _ o => sreg2 false o.a
  | .flrd _ o => sreg2 false o.a ++ sreg2 false o.b
  | .raybox _ o | .raytri _ o => sreg2 (!o.core) o.a ++ vrange o.b 8
  | .launch _ a => sreg2 true a
  | .wgemit _ o => sreg2 false o.a ++ sreg2 false o.b
  | .wgdone _ o | .dqpush _ o => sreg2 true o.a
  | .dqsteal _ o => oreg2 false o.victim
  | .quiesceArm _ o => sreg2 false o.a ++ sreg2 false o.b ++ sreg2 true o.c
  | .quiesceRd _ o => sreg2 false o.a
  | .swr _ o => sreg2 o.wide o.a
  | .resume _ o => sreg2 false o.a ++ vreg2 true o.b
  | .coneset _ o => sreg2 true o.a ++ sreg2 true o.b ++ sreg2 true o.c
  | .inspr _ o => sreg2 false o.a ++ sreg2 false o.b
  | .inspw _ o => sreg2 false o.a ++ sreg2 false o.b ++ sreg2 o.wide o.c
  | .step _ o => sreg2 false o.a
  | _ => []

/-- The V registers whose contents an instruction reads: those its source operands name, but for the odd register of a
pair of which only the low register is read (R87, R99, R100, R106, R113, R127), and for a range whose length the state
gives (`rangesOf`). -/
def contentsOf : Instr → List Nat
  | .shl _ o | .shr _ o | .sar _ o | .bfe _ o => sreg2 o.wide o.a ++ sreg2 false o.b
  | .bfi _ o => sreg2 o.wide o.a ++ sreg2 o.wide o.b ++ sreg2 false o.c
  | .lea _ o => sreg2 true o.a ++ sreg2 (o.idx == .full) o.b
  | .fscl _ o => sreg2 (isF64 o.ft) o.a ++ sreg2 false o.b
  | .fcvt _ o => sreg2 (o.st == .f64) o.a ++ oreg2 false o.b
  | .f2i _ o => sreg2 (o.f == .f64) o.a
  | .i2f _ o => sreg2 (o.i == .n64 || o.i == .i64) o.a
  | .shfl _ o => vreg2 o.wide o.a ++ sreg2 false o.b ++ oreg2 o.wide o.fill
  | .cpt _ o => sreg2 false o.d ++ sreg2 false o.b
  | .cpm _ o | .cpg _ o => sreg2 false o.d ++ sreg2 false o.b ++ sreg2 false o.c
  | .glaze _ o => sreg2 (!o.chip) o.a ++ sreg2 false o.c
  | i => readsOf i

/-- The V registers an instruction writes. -/
def writesOf : Instr → List Nat
  | .call _ r _ | .callx _ r _ => vreg2 true r
  | .iadd _ o | .isub _ o | .imul _ o | .imulh _ o | .imin _ o | .imax _ o => vreg2 o.wide o.d
  | .imad _ o => vreg2 o.wide o.d
  | .imadw _ o => vreg2 true o.d
  | .iabs _ o => vreg2 o.wide o.d
  | .iaddi _ o => vreg2 o.wide o.d
  | .lopi _ o => vreg2 o.wide o.d
  | .and _ o | .or _ o | .xor _ o => vreg2 o.wide o.d
  | .shl _ o | .shr _ o | .sar _ o | .bfe _ o => vreg2 o.wide o.d
  | .bfi _ o => vreg2 o.wide o.d
  | .popc _ o | .clz _ o | .brev _ o | .mov _ o => vreg2 o.wide o.d
  | .sel _ o => vreg2 o.wide o.d
  | .movi _ o => vreg2 (o.kind != .n32) o.d
  | .lea _ o => vreg2 true o.d
  | .smovRead _ o => vreg2 o.wide o.d
  | .kmovFromK _ o => vreg2 o.wide o.v
  | .elect _ o => match o.lane with | some v => vreg2 false v | none => []
  | .fadd _ o | .fsub _ o | .fmul _ o | .fmin _ o | .fmax _ o | .fscl _ o => vreg2 (isF64 o.ft) o.d
  | .ffma _ o => vreg2 (isF64 o.ft) o.d
  | .frcp _ o | .fsqrt _ o | .frsq _ o | .fexp2 _ o | .flog2 _ o | .fsin _ o | .fcos _ o | .frnd _ o =>
    vreg2 (isF64 o.ft) o.d
  | .fcls _ o => vreg2 (o.fmt == .f64) o.d
  | .fcvt _ o => vreg2 o.wide o.d
  | .f2i _ o | .i2f _ o => vreg2 o.wide o.d
  | .fdot _ o => vreg2 false o.d
  | .bqntScale _ o => vreg2 false o.d
  | .bqntElement _ o => vreg2 false o.d
  | .bdq _ o => vreg2 false o.d
  | .shfl _ o => vreg2 o.wide o.d
  | .vote _ o => match o.dst with | .ballot d => vreg2 true d | _ => []
  | .lred _ o | .lscan _ o => vreg2 (ltWide o.ty) o.d
  | .matchLanes _ o => vreg2 true o.d
  | .ld _ o => vreg2 (o.w == .n64) o.data
  | .stt _ o => vreg2 false o.data
  | .atom _ o => vreg2 (atWide o.ty) o.d
  | .atomcas _ o => vreg2 o.wide o.d
  | .xread _ o => vreg2 o.wide o.d
  | .glaze _ o => vreg2 false o.d
  | .glzins _ o => vreg2 false o.d
  | .glzq _ o => vreg2 false o.d
  | .bara _ o => match o.ret with | some v => vreg2 false v | none => []
  | .qcfgStat _ o => vreg2 true o.d
  | .sqrd _ o => vreg2 true o.d
  | .mmrd _ o => vrange o.d (2 ^ o.nw.val)
  | .mmstat _ o => vreg2 true o.d
  | .attr _ o => vrange o.d (if o.deriv then 3 else 1)
  | .flres _ o | .flresClr _ o => vrange o.d 3
  | .flrd _ o => vrange o.d 4
  | .raybox _ o => vrange o.d 9
  | .raytri _ o => vrange o.d 5
  | .dqpop _ o => vreg2 true o.d
  | .dqsteal _ o => vreg2 true o.d
  | .quiesceRd _ o => vreg2 true o.d
  | .srd _ o => vreg2 o.wide o.d
  | .inspr _ o => vreg2 o.wide o.d
  | _ => []

/-- Reserved to the system crew (R172, R355, R379, R382). -/
def sysOnly : Instr → Bool
  | .cflushTlb .. | .cflushAsid .. | .cflushCtx .. | .srd .. | .swr .. | .tretRec .. | .tretNext .. | .tretKill ..
  | .tretTerm .. => true
  | _ => false

/-- Illegal in the system crew (R84, R355, R404). -/
def notSys : Instr → Bool
  | .exit .. | .cont .. | .contOff .. | .resumeSvc .. | .resume .. | .haltSelf .. | .haltCrew .. | .haltTeam ..
  | .haltThr .. | .haltRel .. => true
  | _ => false

/-- The tensor-shape slot an instruction names (R46). -/
def slotOf : Instr → Option Nat
  | .cpt _ o => some o.slot.val
  | .cpm _ o | .cpg _ o => some o.slot.val
  | .tload _ o => some o.slot.val
  | .tevict _ n => some n.val
  | _ => none

/-- One past the highest tile an instruction names (R276). -/
def tilesOf : Instr → Nat
  | .mmzero _ o => o.n.val + (if o.pair then 2 else 1)
  | .mmld _ o => o.n.val + (if o.pair then 2 else 1)
  | .mmst _ o => o.n.val + 1
  | .mmrd _ o => o.n.val + 1
  | _ => 0

end Sys2Proof.Machine
end

