-- ==== Sys2Proof/Machine/Operands.lean ====
section
/-! DEFINITION. Operand forms: registers, pairs, K registers, predicates and guards as a thread reads them (R37, R45,
R92, R202), register writes, and system registers by number (R96). -/

namespace Sys2Proof.Machine
open Sys2Proof

/-- Register Vn, and the pair Vn:Vn+1 with Vn as its low half (R92). -/
def Thread.v32 (t : Thread) (n : Nat) : Nat := (t.v.getD n 0).toNat
def Thread.v64 (t : Thread) (n : Nat) : Nat := t.v32 n + 2 ^ 32 * t.v32 (n + 1)
def Thread.vw (t : Thread) (wide : Bool) (n : Nat) : Nat := if wide then t.v64 n else t.v32 n

/-- Kx as its low 32 bits, or whole (R92). -/
def kVal (k : List DWord) (wide : Bool) (n : Nat) : Nat :=
  let x := (k.getD n 0).toNat
  if wide then x else x % 2 ^ 32

/-- An operand that is a V register, a pair, or a K register (R92, R202). -/
def srcVal (k : List DWord) (t : Thread) (wide : Bool) : Src → Nat
  | .v n => t.vw wide n
  | .k n => kVal k wide n
/-- An optional operand; 0 where it is absent. -/
def optVal (k : List DWord) (t : Thread) (wide : Bool) : Option Src → Nat
  | some x => srcVal k t wide x
  | none => 0

/-- Pn; number 7 is PT, always true (R36, R92). -/
def Thread.pr (t : Thread) (p : PReg) : Bool := if p.val = 7 then true else t.p.getD p.val false
/-- The guard of an instruction (R37). -/
def Thread.guard (t : Thread) (c : Common) : Bool := t.pr c.pred != c.pneg

/-! ### Ranges whose length the state gives -/

/-- The registers of one element; one for an unconfigured queue (R220). -/
def QReg.regs (q : QReg) : Nat := if q.conf then 2 ^ q.esize else 1
def Team.queue (tm : Team) (n : Nat) : QReg := tm.queues.getD n {}
/-- The registers of a pop (R221). -/
def Team.popRegs (tm : Team) (n : Nat) : Nat := if n < 8 then 4 else (tm.queue n).regs
/-- INDEX, NREQ, NRET and EXPVER of a descriptor (R198). -/
def descIndex (d : Nat) : Nat := d % 64
def descReq (d : Nat) : Nat := bits d 11 8
def descRet (d : Nat) : Nat := bits d 15 12
def descVer (d : Nat) : Nat := bits d 31 16
/-- The registers of a GLAZE's request and return ranges (R198). -/
def glzReqRegs (o : GlazeOp) (d : Nat) : List Nat := vrange o.b (min (descReq d) 8)
def glzRetRegs (o : GlazeOp) (d : Nat) : List Nat := vrange o.d (min (descRet d) 8 + b2n o.nt)
/-- The coordinates of a tile copy: NDIM of its slot, one register where that is empty (R236; DEDUCED, log 44). -/
def Team.coordRegs (tm : Team) (slot : Nat) : Nat := match tm.shapes.getD slot none with | some h => h.ndim | none => 1

/-- The registers read and those written whose number a queue, a tensor-shape slot or the thread's descriptor gives
(R198, R220, R221, R236). -/
def rangesOf (tm : Team) (k : List DWord) (t : Thread) : Instr → List Nat × List Nat
  | .qpush _ o => (vrange o.v (tm.queue o.q.val).regs, [])
  | .qpop _ o => ([], vrange o.v (tm.popRegs o.q.val))
  | .qtry _ o => ([], vrange o.d (tm.popRegs o.q.val))
  | .cpt _ o => (vrange o.a (tm.coordRegs o.slot.val), [])
  | .cpm _ o | .cpg _ o => (vrange o.a (tm.coordRegs o.slot.val), [])
  | .glaze _ o => let d := srcVal k t false o.c; (glzReqRegs o d, glzRetRegs o d)
  | _ => ([], [])

/-- The writes of a value to a register or a pair. -/
def vPut (wide : Bool) (d : Nat) (x : Nat) : List (Nat × Word) :=
  if wide then [(d, BitVec.ofNat 32 x), (d + 1, BitVec.ofNat 32 (x / 2 ^ 32))] else [(d, BitVec.ofNat 32 x)]
/-- The writes of consecutive words. -/
def vPuts (d : Nat) (ws : List Nat) : List (Nat × Word) :=
  (List.range ws.length).map fun i => (d + i, BitVec.ofNat 32 (ws.getD i 0))
/-- The thread with register writes done; a write repairs an uncorrectable register (R375). -/
def Thread.putV (t : Thread) (ws : List (Nat × Word)) : Thread :=
  { t with
    v := ws.foldl (fun v w => v.set w.1 w.2) t.v
    badRegs := t.badRegs.filter fun r => !(ws.any fun w => w.1 == r) }
def Thread.putP (t : Thread) (n : Nat) (b : Bool) : Thread := { t with p := t.p.set n b }

/-- The poison pattern of R161. -/
def poisonWord : Nat := 0x7FA00BAD

/-- A system register as the thread reads it (R96). -/
def State.sysRead (s : State) (tm : Team) (t : Thread) (cc : Nat) (n : Nat) : Nat :=
  match n with
  | 0 => t.lane
  | 1 => t.tid
  | 2 => t.tid / 64
  | 3 => t.crew
  | 4 => match tm.crew? t.crew with | some c => c.threads | none => 0
  | 5 => tm.teamIx
  | 6 => tm.bandIx
  | 7 => tm.spanIx
  | 8 => tm.lotid
  | 9 => tm.core
  | 10 => clusterOf tm.core
  | 11 => tm.asid
  | 12 => t.sys.waker.toNat
  | 13 => t.sys.region.toNat
  | 14 => t.sys.fxf.toNat
  | 15 => t.sys.lastord.toNat
  | 16 => t.sys.pxi.toNat
  | 17 => t.sys.fcode.toNat
  | 18 => t.sys.faddr.toNat
  | 19 => t.sys.fword.toNat
  | 20 => t.sys.frec.toNat
  | 21 => t.sys.ford.toNat
  | 22 => t.sys.dbgedit.toNat
  | 32 => max cc (match s.cores[tm.core]? with | some c => c.cc | none => 0)
  | n => if 24 ≤ n ∧ n ≤ 31 then (t.cpb.getD (n - 24) 0).toNat else 0

/-- The registers that SMOV, SWR or a debugger may write: FXF keeps its reserved bits zero (R5, R119), and the fault
record (R379). DESIGN CHOICE (log 115): FCODE keeps all 32 bits written, those above bit 16 too. -/
def SysRegs.write (r : SysRegs) (n v : Nat) : SysRegs :=
  match n with
  | 14 => { r with fxf := BitVec.ofNat 32 (v % 32) }
  | 17 => { r with fcode := BitVec.ofNat 32 v }
  | 18 => { r with faddr := BitVec.ofNat 64 v }
  | 19 => { r with fword := BitVec.ofNat 64 v }
  | 20 => { r with frec := BitVec.ofNat 64 v }
  | 21 => { r with ford := BitVec.ofNat 32 v }
  | _ => r

end Sys2Proof.Machine
end

