-- ==== Sys2Proof/Machine/Flags.lean ====
section
/-! DEFINITION. Completion flags (R41, R42) and the sticky float exception flags (R119). -/

namespace Sys2Proof.Machine
open Sys2Proof

/-- The flag that SETF names (R36). -/
def setfOf (c : Common) : Option Nat := if c.setf.val < 12 then some c.setf.val else none
/-- Fk + 1, at issue (R41). -/
def Thread.incF (t : Thread) : Option Nat → Thread
  | some k => { t with f := t.f.modify k (· + 1) }
  | none => t
/-- Fk - 1, at completion (R41). -/
def Thread.decF (t : Thread) : Option Nat → Thread
  | some k => { t with f := t.f.modify k (· - 1) }
  | none => t
/-- ORs flags into FXF (R119). -/
def Thread.orFx (t : Thread) (fx : Nat) : Thread :=
  { t with sys := { t.sys with fxf := t.sys.fxf ||| BitVec.ofNat 32 (fx % 32) } }
/-- A write of the thread's own FXF in flight is ORed with flags that come in before it takes effect (R107). -/
def Wb.orFx (fx : Nat) (e : Wb) : Wb :=
  match e.x with
  | some ⟨none, 14, v⟩ => { e with x := some ⟨none, 14, v ||| fx⟩ }
  | _ => e
/-- The flags of a flagged operation come in (R107, R119). -/
def Thread.raiseFx (t : Thread) (fx : Nat) : Thread := { t.orFx fx with wb := t.wb.map (Wb.orFx fx) }

/-- Every counter named by the WAIT bits of a header is zero (R42). -/
def Thread.waitMet (t : Thread) (hdr : DWord) : Bool :=
  (List.range 12).all fun k => !hdr.getLsbD (7 + k) || t.f.getD k 0 == 0
/-- The drain of R42: every flagged instruction has completed, and every fixed-latency result has been written. -/
def Thread.drained (t : Thread) : Bool := t.pend.isEmpty && t.wb.isEmpty

/-- The classes of R387 of a float result: NaN or subnormal among its elements, and NV or OF raised. -/
def excClasses (nan sub : Bool) (fl : Flags) : Nat := b2n nan + 2 * b2n fl.nv + 4 * b2n fl.ovf + 8 * b2n sub
/-- The elements of a value in a format of a width. -/
def elemsOf (f : Fmt) (n x : Nat) : List Nat := (List.range n).map fun k => x / 2 ^ (k * fmtWidth f) % 2 ^ fmtWidth f
/-- The event an EXC cone sees of a float result of n elements (R387, R390). -/
def excEvent (f : Fmt) (n x : Nat) (fl : Flags) : ConeEv :=
  .exc (excClasses ((elemsOf f n x).any fun e => isNan (decodeF f e)) ((elemsOf f n x).any (isSubnormal f)) fl) x

end Sys2Proof.Machine
end

