-- ==== Sys2Proof/Machine/Ops.lean ====
section
/-! DEFINITION. The shared operations of the meanings: taking a fault (R359 to R365), termination (R368), writing
fixed-latency results (R39, R40), issuing a word for an issue group (R37, R38, R50), flagged operations (R41, R42) and
waits (R74, R201). -/

namespace Sys2Proof.Machine
open Sys2Proof

abbrev Out := Host.Outcome State Fault Refusal

/-! ### Termination -/

/-- A thread stops where it is (R368). -/
def Thread.stop (t : Thread) : Thread :=
  if t.status = .ended then t else
  { t with status := .stopped, waits := [], late := [], yieldLeft := 0, dbg := { t.dbg with halted := false, req := none, landed := false } }
/-- A team of a terminated context stops: its threads, and its engine work at the next boundary (R368). -/
def Team.stop (tm : Team) : Team := { tm with threads := tm.threads.map Thread.stop, trapq := [] }

/-- STATUS with STATE 1 and the reason (R357, R368); DBGEDIT keeps its value. -/
def statusTerminating (tsrc tkind tcode v : Nat) : Nat :=
  1 + bits v 2 2 * 4 + tsrc % 256 * 2 ^ 16 + tkind % 256 * 2 ^ 24 + tcode % 2 ^ 32 * 2 ^ 32

/-- Steps 1 to 3 of R368. -/
def State.terminate (s : State) (asid tsrc tkind tcode : Nat) : State :=
  match s.ctx? asid with
  | none => s
  | some c =>
    if c.status.toNat % 4 ≠ 0 then s else
    let s := s.setStatus asid (statusTerminating tsrc tkind tcode)
    let own := fun id => s.teams.any fun t => t.id == id && t.asid == asid
    { s with
      lots := s.lots.filter fun l => l.asid != asid
      ctxs := s.ctxs.map fun c => if c.r.asid = asid then { c with nodes := List.replicate 64 {} } else c
      issues := s.issues.filter fun x => !own x.team
      holds := s.holds.filter fun h => !own h.team
      spans := s.spans.map fun p => if p.asid = asid then { p with want := false, saving := none } else p
      saved := s.saved.filter fun p => p.span.asid != asid
      teams := s.teams.map fun t => if t.asid = asid then t.stop else t }

/-- The context is live and not being terminated (R357, R368). -/
def State.runs (s : State) (asid : Nat) : Bool :=
  match s.ctx? asid with | some c => c.status.toNat % 4 == 0 | none => false

/-! ### Taking a fault -/

/-- The record of a fault of a thread now (R359). -/
def Thread.mkRec (t : Thread) (kind cause : Nat) (addr word : DWord) : FRec :=
  { kind := kind, cause := cause, addr := addr, word := word, frec := t.sys.region, ord := t.sys.lastord }
/-- FCODE of a record (R359). -/
def FRec.code (r : FRec) (redir : Bool) : Word :=
  BitVec.ofNat 32 (r.kind % 256 + r.cause % 256 * 2 ^ 8 + b2n redir * 2 ^ 16)
/-- The record is written to the thread's registers in one step (R359). -/
def SysRegs.putRec (g : SysRegs) (r : FRec) (redir : Bool) : SysRegs :=
  { g with fcode := r.code redir, faddr := r.addr, fword := r.word, frec := r.frec, ford := r.ord }

/-- Delivery to the crew continuation (R362). -/
def Thread.toContinuation (t : Thread) (r : FRec) (ticket : Nat) (conta : DWord) : Thread :=
  { t with
    sys := t.sys.putRec r false
    rpt := t.sys.region, ticket := ticket, contact := true
    pc := conta, must := none, waits := [], status := .ready, dbg := { t.dbg with landed := false } }
/-- Delivery to the trap queue (R365): the thread is trapped. -/
def Thread.toTrap (t : Thread) (r : FRec) : Thread :=
  { t with
    sys := t.sys.putRec r (32 ≤ r.kind), status := .trapped
    dbg := { t.dbg with halted := t.isHalted, landed := false, stepping := false, stepped := false } }

/-- A wait of a thread for its page-service entry to be written (R364). -/
def psrWait (id ticket : Nat) : Op := { id := id, i := .nop {} 0, vals := [ticket] }
/-- The wait of a clause header's DRAIN (R42). -/
def drainWait (id : Nat) : Op := { id := id, i := .nop {} 0, stage := 1, waited := true }
def Op.isDrain (o : Op) : Bool := match o.i with | .nop .. => o.stage == 1 | _ => false

/-- Taking a fault: the record, the page-service request of a page not present, and the delivery of its class (R358,
R362, R364, R365, R367). -/
def State.deliver (s : State) (id i : Nat) (f : FaultRep) : State :=
  match s.team? id, s.thr? id i with
  | some tm, some t =>
    let svc := if f.r.kind = 32 then s.pageService tm.asid f.r.addr.toNat f.svc tm.core t.who else (s, 0)
    let s1 := svc.1
    if t.crew = 7 then (s1.modThr id i fun t => { t with sys := t.sys.putRec f.r false }).terminate tm.asid 2 f.r.kind 0 else
    let wait := fun (s : State) => if s1.psrWritten tm.asid svc.2 then s else
      s.modThr id i fun t => { t with waits := t.waits ++ [psrWait f.id svc.2] }
    let conta := (tm.crew? t.crew).bind fun c => c.conta
    if 32 ≤ f.r.kind ∧ conta.isSome ∧ ¬ t.contact then
      wait (s1.modThr id i fun t => t.toContinuation f.r svc.2 (conta.getD 0))
    else
      wait ((s1.modThr id i fun t => t.toTrap f.r).modTeam id fun tm =>
        { tm with trapq := tm.trapq ++ [⟨some i, f.r, f.iaddr⟩] })
  | _, _ => s

/-- The fault of the earliest instruction among those reported (R360). -/
def earliest : List FaultRep → Option FaultRep
  | [] => none
  | f :: fs => match earliest fs with
    | none => some f
    | some g => if g.id < f.id then some g else some f

/-- An LD of `.lane` or `.core` with FEQ 00 is fixed at 8 cc (R165). -/
def ldFixed (o : LdOp) : Bool := (o.space == .lane || o.space == .core) && o.feq == .ignore
/-- The operation is the read of a fixed-latency load, no flagged instruction. -/
def Op.fixed (o : Op) : Bool := match o.i with | .ld _ q => ldFixed q | _ => false
/-- Every flagged instruction of the thread has completed or reported (R360). -/
def Thread.reported (t : Thread) : Bool := t.pend.all Op.fixed
/-- A thread with reported faults takes the earliest once every flagged instruction has completed or reported (R360). -/
def State.takeLate (s : State) (id i : Nat) : State :=
  match s.thr? id i with
  | none => s
  | some t =>
    if ¬ t.reported then s else
    match earliest t.late with
    | none => s
    | some f => (s.modThr id i fun t => { t with late := [] }).deliver id i f

/-- A thread leaves the issue groups and the released groups of its team (R69). -/
def State.leaveGroup (s : State) (id i : Nat) : State :=
  { s with
    holds := (s.holds.map fun h => if h.team = id then { h with members := h.members.filter (· != i) } else h).filter
      fun h => !h.members.isEmpty
    issues := s.issues.map fun x =>
      if x.team = id then { x with members := x.members.filter (· != i), stalled := x.stalled.filter (· != i) } else x }

/-! ### Fixed-latency results -/

/-- An older result loses what a younger producer has written (R40). -/
def Wb.voidBy (e younger : Wb) : Wb :=
  { e with
    v := e.v.filter fun w => !(younger.v.any fun y => y.1 == w.1)
    p := match e.p, younger.p with
      | some a, some b => if a.1 = b.1 then none else some a
      | a, _ => a }

/-- A result is written to the thread: registers, predicate, FXF (with its flags) and the completion flag (R39, R41,
R107, R120). -/
def Thread.applyWb (t : Thread) (e : Wb) : Thread :=
  let t := t.putV e.v
  let t := match e.p with | some (n, b) => t.putP n b | none => t
  let t := match e.x with
    | some ⟨none, n, v⟩ => { t with sys := t.sys.write n v }
    | _ => t
  (t.orFx e.fx).decF e.setf

/-- The results due at cc `now` in program order, with the ones not yet due and the ones written (R39, R40); `fx` are the
flags that older ones have set, which a write of FXF does not lose (R107). -/
def commitGo (now : Nat) : List Wb → Nat → Thread → List Wb → Thread × List Wb × List Wb
  | [], _, t, kept => (t, kept, [])
  | e :: es, fx, t, kept =>
    if e.due ≤ now then
      let r := commitGo now es (fx ||| e.fx) (t.applyWb (e.orFx fx)) (kept.map fun k => k.voidBy e)
      (r.1, r.2.1, e :: r.2.2)
    else commitGo now es fx t (kept ++ [e.orFx fx])

/-- A write of the destination of a pending flagged operation: the register ends holding either value (R40). -/
def Op.overwritten (tick : Nat) (ws : List (Nat × Word)) (o : Op) : Op :=
  if o.dst.any fun r => ws.any fun w => w.1 == r then
    { o with dst := o.dst.filter fun r => !((ws.any fun w => w.1 == r) && Config.freeBit tick (2 ^ 64 * (o.id + 1) + r)) }
  else o

/-- The stamp of a write of a K register: one more than the CCOUNT at which it issued; 0 stands for the launch (R95). -/
def Wb.stamp (e : Wb) : Nat := e.issued + 1
/-- A write of a K register with its stamp (R95): writes apply in issue order, so one that a younger write has come before is
only a value the register has held; of two that issued in one cc either stands (R11). -/
def Crew.writeK (c : Crew) (tick stamp n : Nat) (x : DWord) : Crew :=
  let last := tabGet 0 c.kAt n
  if stamp < last then { c with kOld := c.kOld ++ [⟨n, last, x⟩] }
  else if stamp = last ∧ Config.freeBit tick (2 ^ 55 + n) then c
  else { c with k := c.k.set n x, kOld := c.kOld ++ [⟨n, stamp, c.k.getD n 0⟩], kAt := tabPut 0 c.kAt n stamp }
/-- What a reader takes of the K registers, `seen` being the youngest write of each that is ordered before it (R95): each
register's value, or one that a younger write has taken the place of (R11). -/
def Crew.seenAt (tick : Nat) (seen : List (Nat × Nat)) (c : Crew) : Crew :=
  { c with
    k := ((List.range c.kOld.length).zip c.kOld).foldl (fun k o =>
      if tabGet 0 seen o.2.n < o.2.stamp ∧ Config.freeBit tick (2 ^ 58 + o.1) then k.set o.2.n o.2.v else k) c.k }
/-- The younger write of each K register of two tables of stamps. -/
def youngerK (a b : List (Nat × Nat)) : List (Nat × Nat) := b.foldl (fun t e => tabPut 0 t e.1 (max (tabGet 0 t e.1) e.2)) a
/-- Writes of K registers come before the later reads of a thread (R95). -/
def State.orderK (s : State) (id i : Nat) (ks : List (Nat × Nat)) : State :=
  s.modThr id i fun t => { t with kSeen := youngerK t.kSeen ks }
/-- A thread makes an event of R95 after its own writes `ks` of K registers. -/
def State.noteK (s : State) (id i : Nat) (ev : KEvent) (ks : List (Nat × Nat)) : State :=
  match s.thr? id i with
  | some t => { s with kNotes := s.kNotes ++ ks.map fun e => ⟨ev, id, t.crew, e.1, e.2⟩ }
  | none => s
/-- A thread of a crew comes after an event of R95, and so after the writes of its crew that came before it. -/
def State.followK (s : State) (id i : Nat) (ev : KEvent) : State :=
  match s.thr? id i with
  | some t => s.orderK id i
      ((s.kNotes.filter fun m => m.ev == ev && m.team == id && m.crew == t.crew).map fun m => (m.n, m.stamp))
  | none => s
/-- The flip of a barrier object comes after the arrivals toward it (R95). -/
def State.flipK (s : State) (key : Nat) : State :=
  { s with kNotes := s.kNotes.map fun m => if m.ev = .toward key then { m with ev := .flip key } else m }
/-- Events that are over leave: those of an object made anew, of an element popped or of a queue configured again. -/
def State.forgetK (s : State) (f : KEvent → Bool) : State := { s with kNotes := s.kNotes.filter fun m => !f m.ev }

/-- The effects of written results beyond the thread: K registers (R95), a served thread (R379), the cones (R389). -/
def State.afterWb (s : State) (id i : Nat) (e : Wb) : State :=
  let s := match e.k, s.thr? id i with
    | some (n, some x), some t => (s.modCrew id t.crew fun c => c.writeK s.tick e.stamp n x).orderK id i [(n, e.stamp)]
    | some (n, none), _ => s.orderK id i [(n, e.stamp)]
    | _, _ => s
  let s := match e.x with
    | some ⟨some j, n, v⟩ => s.modThr id j fun t => { t with sys := t.sys.write n v }
    | _ => s
  match e.note with
  | some n => s.observe id i n
  | none => s

/-- The results of a thread that are due at `now` are written. -/
def State.commit (s : State) (id i now : Nat) : State :=
  match s.thr? id i with
  | none => s
  | some t =>
    let r := commitGo now t.wb 0 t []
    let ws := r.2.2.flatMap fun e => e.v
    let s1 := s.modThr id i fun _ =>
      { r.1 with wb := r.2.1, pend := r.1.pend.map fun o => o.overwritten s.tick ws }
    r.2.2.foldl (fun s e => s.afterWb id i e) s1
/-- The time at which a result of a thread that is due last is due. -/
def lastDue (wb : List Wb) : Nat := wb.foldl (fun a e => max a e.due) 0
/-- The time at which the result of a waiting instruction is due that ended as it issued: the end of its clause, whenever
that is (R201). -/
def endDue : Nat := 2 ^ 128
/-- The results due at the end of the thread's clause are written. -/
def State.commitEnd (s : State) (id i : Nat) : State :=
  match s.thr? id i with
  | none => s
  | some t =>
    if t.wb.all fun e => e.due != endDue then s else
    (s.modThr id i fun t => { t with wb := t.wb.map fun e => if e.due = endDue then { e with due := 0 } else e }).commit id i 0

/-- A thread's fault is reported, and it is taken when no flagged instruction of the thread is in flight; fixed-latency
results are still written at their times (R50, R360). -/
def State.raiseRep (s : State) (id i : Nat) (f : FaultRep) : State :=
  let s := (s.commitEnd id i).leaveGroup id i
  (s.modThr id i fun t => { t with status := .faulting, late := t.late ++ [f] }).takeLate id i

/-- A fault of a flagged operation reported after issue (R360): taken at the next clause boundary. -/
def State.reportLate (s : State) (id i : Nat) (f : FaultRep) : State :=
  s.modThr id i fun t => { t with late := t.late ++ [f] }

/-! ### Issuing a word -/

/-- The address of the word in hand, and the word (R27). -/
def Issue.iaddr (x : Issue) : DWord := x.ca + BitVec.ofNat 64 (8 * (x.idx + 1))
def Issue.word (x : Issue) : DWord := x.words.getD x.idx 0
def Issue.op (x : Issue) : Nat := x.word.toNat / 2 ^ 56
/-- The clause that follows by fall-through: CA + 8·(CNT + 2) (R27, R78). -/
def fallOf (ca hdr : DWord) : DWord := ca + BitVec.ofNat 64 (8 * (hdr.toNat % 16 + 2))
def Issue.fall (x : Issue) : DWord := fallOf x.ca x.hdr

/-- A fault of a thread found now, with its word and address (R360). -/
def State.raiseAt (s : State) (id i kind cause addr : Nat) (word iaddr : DWord) (svc : Nat) : State :=
  match s.thr? id i with
  | none => s
  | some t =>
    ({ s with nextId := s.nextId + 1 }).raiseRep id i
      { id := s.nextId, r := t.mkRec kind cause (BitVec.ofNat 64 addr) word, iaddr := iaddr, svc := svc }
/-- A fault found when the word in hand issues (R360): kind, cause and FADDR. -/
def State.raise (s : State) (x : Issue) (i kind cause addr : Nat) (svc : Nat := 0) : State :=
  s.raiseAt x.team i kind cause addr x.word x.iaddr svc

/-- The violation-log entry of a thread (R164): its core, lane, ordinal and name with the instruction's OP. -/
def threadEnt (tm : Team) (t : Thread) (op addr iaddr code space agent : Nat) : VEnt :=
  { addr := addr, iaddr := iaddr, code := code, space := space, agent := agent, core := tm.core, lane := t.lane, opc := op
    ord := t.sys.lastord.toNat, who := t.who }
/-- A violation of the thread at issue: logged, then taken (R162). -/
def State.violate (s : State) (x : Issue) (i code addr space : Nat) (agent : Nat := 0) : State :=
  match s.team? x.team, s.thr? x.team i with
  | some tm, some t =>
    (s.logViol tm.asid (threadEnt tm t x.op addr x.iaddr.toNat code space agent)).raise x i 6 code addr
  | _, _ => s
/-- The illegal-instruction conditions that depend on the crew: register numbers and ranges at or above the budget, the
slot share, and who may issue it (R46, R50, R355). -/
def illegalIn (tm : Team) (cr : Crew) (i : Instr) : Bool :=
  (readsOf i).any (cr.budget ≤ ·) || (writesOf i).any (cr.budget ≤ ·) || (sysOnly i && cr.num != 7) ||
  (notSys i && cr.num == 7) || (match slotOf i with | some n => tm.slotShare ≤ n | none => false) ||
  tm.tileShare < tilesOf i

/-- The members for which a register range whose length the state gives passes the budget (R198, R220, R221, R236). -/
def overBudget (tm : Team) (cr : Crew) (i : Instr) (ms : List Nat) : List Nat :=
  ms.filter fun j => match tm.threads[j]? with
    | some t => let r := rangesOf tm cr.k t i; r.1.any (cr.budget ≤ ·) || r.2.any (cr.budget ≤ ·)
    | none => false

/-- The first register an instruction reads that holds an uncorrectable error (R375). -/
def badSource (tm : Team) (cr : Crew) (t : Thread) (i : Instr) : Option Nat :=
  (contentsOf i ++ (rangesOf tm cr.k t i).1).find? fun r => t.badRegs.contains r

/-- The members for which the word in hand has still to issue: those that waited before issue, or all. -/
def Issue.active (x : Issue) : List Nat := if x.stalled.isEmpty then x.members else x.stalled

/-- The youngest writes of K registers ordered before a read of its members: a group reads each K register once (DEDUCED,
log 106). -/
def Issue.kSeen (x : Issue) (tm : Team) : List (Nat × Nat) :=
  x.members.foldl (fun m i => match tm.threads[i]? with | some t => youngerK m t.kSeen | none => m) []

/-- The first clause in issue with its team, and its crew as the group reads it (R95): who issues. -/
def State.issuer (s : State) : Option (Issue × Team × Crew) :=
  match s.issues with
  | [] => none
  | x :: _ =>
    match s.team? x.team with
    | none => none
    | some tm => match tm.crew? x.crew with
      | none => none
      | some cr => some (x, tm, cr.seenAt s.tick (x.kSeen tm))

/-- The members of the group whose guard is true (R37). -/
def guardTrue (tm : Team) (c : Common) (ms : List Nat) : List Nat :=
  ms.filter fun i => match tm.threads[i]? with | some t => t.guard c | none => false
/-- Those of them with a bad source register (R375). -/
def badMembers (tm : Team) (cr : Crew) (i : Instr) (ms : List Nat) : List Nat :=
  ms.filter fun j => match tm.threads[j]? with | some t => (badSource tm cr t i).isSome | none => false

/-- The word in hand issues for the group (R37, R50): an illegal instruction faults its members whatever their guards, a
bad source register faults its reader (R375), and the effect takes place for the other members whose guard is true. -/
def runGroup (i : Instr) (body : Issue → Team → Crew → List Nat → State → State) (s : State) : Out :=
  match s.issuer with
  | none => .fault .noIssue
  | some (x, tm, cr) =>
    let act := x.active
    let s := { s with issues := s.issues.modify 0 fun y => { y with stalled := [], room := [] } }
    if illegalIn tm cr i then
      .next (act.foldl (fun s j => s.raise x j 2 0 x.iaddr.toNat) s)
    else
      let past := overBudget tm cr i act
      let s := past.foldl (fun s j => s.raise x j 2 0 x.iaddr.toNat) s
      let ms := guardTrue tm (commonOf i) (act.filter fun j => !past.contains j)
      let bad := badMembers tm cr i ms
      let s := bad.foldl (fun s j => s.raise x j 7 2 (((tm.threads[j]?.bind fun t => badSource tm cr t i)).getD 0)) s
      .next (body x tm cr (ms.filter fun j => !bad.contains j) s)

/-- The effect of an instruction that acts for each member on its own. -/
def runEach (i : Instr) (body : Issue → Crew → Thread → Nat → State → State) (s : State) : Out :=
  runGroup i (fun x _ cr ms s => ms.foldl (fun s j => match s.thr? x.team j with
    | some t => body x cr t j s
    | none => s) s) s

/-- The member waits with the word in hand before it issues (R73): for room. -/
def State.stallFor (s : State) (x : Issue) (i : Nat) : State :=
  { s with issues := s.issues.map fun y => if y.id = x.id then { y with stalled := y.stalled ++ [i] } else y }

/-- What a fixed-latency instruction computes. -/
structure Res where
  v : List (Nat × Word) := []
  p : Option (Nat × Bool) := none
  k : Option (Nat × Option DWord) := none
  x : Option SysW := none
  fx : Nat := 0
  ev : Option ConeEv := none
  deriving DecidableEq, Repr

/-- The result of the word in hand goes in flight: its flag is counted, and it is written `lat` cc after issue (R39,
R41). -/
def resWb (x : Issue) (t : Thread) (c : Common) (lat : Nat) (r : Res) : Wb :=
  { due := x.t0 + x.now + lat, v := r.v, p := r.p, k := r.k, x := r.x, fx := r.fx, setf := setfOf c, issued := x.t0 + x.now
    note := r.ev.map fun e => { ev := e, op := x.op, iaddr := x.iaddr, ord := t.sys.lastord } }
def Thread.pushRes (x : Issue) (c : Common) (lat : Nat) (r : Res) (t : Thread) : Thread :=
  let t1 := t.incF (setfOf c)
  { t1 with wb := t.wb ++ [resWb x t c lat r] }

/-- A fixed-latency instruction whose result is a function of the issuing thread and its crew's K registers. -/
def regOp (i : Instr) (lat : Nat) (f : List DWord → Thread → Res) (s : State) : Out :=
  runEach i (fun x cr t j s => s.modThr x.team j fun _ => t.pushRes x (commonOf i) lat (f cr.k t)) s

/-! ### Flagged operations -/

/-- The word in hand as an operation in flight. -/
def mkOp (x : Issue) (t : Thread) (i : Instr) (id : Nat) (vals : List Nat) : Op :=
  { id := id, i := i, setf := setfOf (commonOf i), vals := vals, dst := writesOf i, iaddr := x.iaddr, word := x.word
    frec := t.sys.region, ord := t.sys.lastord, kOwn := t.kOwn }
/-- A flagged operation goes in flight; `f` completes its record (R41). -/
def State.pushOp (s : State) (x : Issue) (j : Nat) (i : Instr) (vals : List Nat) (f : Op → Op := id) : State :=
  { s with nextId := s.nextId + 1 }.modThr x.team j fun t =>
    { t.incF (setfOf (commonOf i)) with pend := t.pend ++ [f (mkOp x t i s.nextId vals)] }

def Thread.op? (t : Thread) (id : Nat) : Option Op := t.pend.find? fun o => o.id == id
def Thread.modOp (t : Thread) (id : Nat) (f : Op → Op) : Thread :=
  { t with pend := t.pend.map fun o => if o.id = id then f o else o }
def State.op? (s : State) (tm i id : Nat) : Option Op := (s.thr? tm i).bind fun t => t.op? id
def State.modOp (s : State) (tm i id : Nat) (f : Op → Op) : State := s.modThr tm i fun t => t.modOp id f

/-- Register writes of a completing operation: those it still owns; an older pending operation with the same
destination ends holding either value (R40). -/
def Thread.opWrites (tick : Nat) (t : Thread) (o : Op) (ws : List (Nat × Word)) : Thread :=
  let ws := ws.filter fun w => o.dst.contains w.1
  let t := t.putV ws
  { t with pend := t.pend.map fun q => if q.id = o.id then q else q.overwritten tick ws }

/-- The operation leaves, and its flag counts down (R41). -/
def Thread.retire (t : Thread) (o : Op) : Thread :=
  ({ t with pend := t.pend.filter fun q => q.id != o.id }).decF o.setf

/-- A performed operation writes its registers and completes. -/
def State.completeOp (s : State) (tm i : Nat) (o : Op) (ws : List (Nat × Word)) : State :=
  s.modThr tm i fun t => (t.opWrites s.tick o ws).retire o

/-- A predicate result of a flagged operation. -/
def State.setPred (s : State) (tm i : Nat) (p : PReg) (b : Bool) : State :=
  if p.val = 7 then s else s.modThr tm i fun t => t.putP p.val b

/-- A flagged operation faults after issue: it has no effect, and the fault is reported (R360). -/
def State.failOp (s : State) (tm i : Nat) (o : Op) (kind cause addr : Nat) (svc : Nat := 0) : State :=
  (s.modThr tm i fun t => t.retire o).reportLate tm i
    { id := o.id, r := ⟨kind, cause, BitVec.ofNat 64 addr, o.word, o.frec, o.ord⟩, iaddr := o.iaddr, svc := svc }

/-- A violation found after issue: logged, and reported for the next clause boundary (R162, R360). -/
def State.violateLate (s : State) (id i : Nat) (o : Op) (code addr space : Nat) (agent : Nat := 0) : State :=
  match s.team? id, s.thr? id i with
  | some tm, some t =>
    (s.logViol tm.asid { threadEnt tm t (o.word.toNat / 2 ^ 56) addr o.iaddr.toNat code space agent with ord := o.ord.toNat }).failOp
      id i o 6 code addr
  | _, _ => s

/-! ### Waits -/

/-- A wait that does not keep the core from banking: all but those on the thread's own flagged instructions (R73). -/
def Op.banks (o : Op) : Bool :=
  match o.i with
  | .exit .. | .fenceRel .. | .fenceAcq .. | .fenceAr .. | .trap .. | .tretRec .. | .tretNext .. | .tretKill ..
  | .tretTerm .. | .nop .. | .monitor .. | .oleave .. => false
  | .resume .. | .resumeSvc .. => o.stage != 0
  | _ => true
/-- A waiting instruction at which a halt or a save stops its thread in place, not issued (R201, R369, R393). -/
def haltsInPlace (o : Op) : Bool :=
  match o.i with
  | .barw .. | .qpush .. | .qpop .. | .sqwait .. | .waitm .. | .cpwait .. | .chkw .. | .oenter .. | .resume ..
  | .resumeSvc .. => true
  | _ => false
/-- Thread i of a team keeps its core from banking (R73). -/
def State.awake (s : State) (tm : Team) (i : Nat) (t : Thread) : Bool :=
  if t.dbg.halted && !t.dbg.stepping then false else
  match t.status with
  | .trapped | .ended | .joined _ => false
  | .idle => t.crew == 7 && !tm.trapq.isEmpty
  | .grouped => s.holds.any fun h => h.team == tm.id && h.slot && h.members.contains i
  | .issuing => !(s.issues.any fun x => x.team == tm.id && x.stalled.contains i)
  | .stopped | .faulting => true
  | .ready => t.dbg.stepping || t.yieldLeft != 0 || t.waits.isEmpty || t.waits.any fun o => !o.banks
/-- Thread i of a team apart, every thread of its core banks (R73). -/
def State.bankedBut (s : State) (tm : Team) (i : Nat) : Bool :=
  s.teams.all fun o => o.core != tm.core || (List.range o.threads.length).all fun j =>
    (o.id == tm.id && j == i) || match o.threads[j]? with | some t => !s.awake o j t | none => true

/-- Every thread of a core banks (R73). -/
def State.banks (s : State) (core : Nat) : Bool :=
  s.teams.all fun o => o.core != core || (List.range o.threads.length).all fun j =>
    match o.threads[j]? with | some t => !s.awake o j t | none => true

/-- WAKER after a wait that ended with a reason (R74), with its BANKED bit. -/
def State.setWaker (s : State) (tm i code : Nat) (banked : Bool) : State :=
  s.modThr tm i fun t => { t with sys := { t.sys with waker := BitVec.ofNat 32 (code % 16 + 16 * b2n banked) } }
/-- BANKED of an event that ends a wait now with a reason (R73, R74). A wait for the thread's own flagged instructions and
a YIELD pause keep the core awake. -/
def State.bankedNow (s : State) (tm i code : Nat) : Bool :=
  code != 8 && code != 12 && match s.team? tm with | some team => s.bankedBut team i | none => false
/-- A wait ends with a reason, by an event now (R74). -/
def State.wake (s : State) (tm i code : Nat) : State := s.setWaker tm i code (s.bankedNow tm i code)
/-- The word in hand issues for a member: where it waited for room, WAKER takes the reason, with whether the core was banked as
the room came (R73, R74). -/
def State.wakeRoom (s : State) (x : Issue) (j code : Nat) : State :=
  if x.stalled.contains j then
    s.setWaker x.team j code (match x.room.find? fun r => r.1 == j with | some r => r.2 | none => s.bankedNow x.team j code)
  else s

/-- The word in hand waits: the thread's next clause begins only after it completes (R201). -/
def State.pushWait (s : State) (x : Issue) (j : Nat) (i : Instr) (vals : List Nat) (f : Op → Op := id) : State :=
  { s with nextId := s.nextId + 1 }.modThr x.team j fun t =>
    { t with waits := t.waits ++ [f (mkOp x t i s.nextId vals)] }
/-- A wait is over. -/
def State.dropWait (s : State) (tm i id : Nat) : State :=
  s.modThr tm i fun t => { t with waits := t.waits.filter fun o => o.id != id }
/-- Marks a wait as one that found its condition unmet (R74). -/
def State.markWaited (s : State) (tm i id : Nat) : State :=
  s.modThr tm i fun t => { t with waits := t.waits.map fun u => if u.id = id then { u with waited := true, banked := none } else u }
/-- A wait ends, with its code if it waited for its condition (R74): BANKED is of the moment the condition came to hold. -/
def State.endWait (s : State) (tm i : Nat) (o : Op) (code : Nat) : State :=
  let s1 := s.dropWait tm i o.id
  if o.waited then s1.setWaker tm i code (o.banked.getD (s.bankedNow tm i code)) else s1

end Sys2Proof.Machine
end

