-- ==== Sys2Proof/Machine/Fetch.lean ====
section
/-! DEFINITION. Instruction fetch (R51, R78) and the decode-time rules of a clause (R29, R30, R33 to R35). -/

namespace Sys2Proof.Machine
open Sys2Proof

/-- The result of fetching one word. -/
inductive FRes where
  | ok (w : DWord)
  | viol (code : Nat)
  | absent
  | poison
  deriving DecidableEq, Repr

/-- The bytes a line of an instruction cache holds for an address and its translation (R51). -/
def State.icWord (s : State) (core asid va pa : Nat) : Option Nat :=
  (s.icache.find? fun l => l.core == core && l.asid == asid && l.line == va / 128 && l.pa == pa - va % 128).map fun l =>
    leNat ((l.data.drop (va % 128)).take 8)

/-- The word at a code address: the stored word, or the one a cache line still holds (R51). -/
def State.fetchWord (s : State) (c : Context) (core va : Nat) (sys : Bool) : FRes :=
  if 2 ^ 57 ≤ va then .viol 5 else
  if 2 ^ 49 ≤ va then (if (s.peerEntry c (va / 2 ^ 49)).isSome then .viol 11 else .viol 10) else
  match s.xlate c (some (clusterOf core)) va .ex sys with
  | .viol n => .viol n
  | .absent => .absent
  | .ok pa =>
    if s.poisoned pa 8 then .poison else
    let new := s.read pa 8
    match s.icWord core c.r.asid va pa with
    | none => .ok (BitVec.ofNat 64 new)
    | some old => .ok (BitVec.ofNat 64 (if old = new then new else if Config.freeBit s.tick (2 ^ 60 + va) then old else new))

/-- The header at an address, and the words it counts, in order; or the first address that cannot be fetched. -/
def State.fetchClause (s : State) (c : Context) (core va : Nat) (sys : Bool) : Nat → Except (Nat × FRes) (List DWord)
  | 0 => .ok []
  | n + 1 =>
    match s.fetchWord c core va sys with
    | .ok w => (s.fetchClause c core (va + 8) sys n).map fun ws => w :: ws
    | r => .error (va, r)

/-- The lines of an instruction cache of 128 KiB (R14). -/
def icLines : Nat := 1024
/-- Brings the line of a code address into the instruction cache of a core for a lot, where it can be fetched (R51, R170), from its
home, which recalls it (R145, R177). A full cache loses a line that is not pinned (R14, R170): DESIGN CHOICE, log 6, for which. -/
def State.fillLine (s : State) (c : Context) (core lot va : Nat) (sys : Bool) : State :=
  let line := va / 128
  if 2 ^ 49 ≤ va then s else
  let s := s.walkTouch c va
  match s.xlate c (some (clusterOf core)) (line * 128) .ex sys with
  | .ok pa =>
    let mine := fun (l : ICLine) => l.core == core && l.asid == c.r.asid && l.line == line
    if s.icache.any fun l => mine l && l.pa == pa then
      { s with icache := s.icache.map fun l => if mine l ∧ lot ∉ l.lots then { l with lots := l.lots ++ [lot] } else l }
    else if s.poisoned pa 128 then s
    else
      let kept := makeRoom icLines (fun k => Config.freeBit s.tick (2 ^ 69 + k)) (fun l => l.core == core)
        (fun l => l.pins.isEmpty) (s.icache.filter fun l => !mine l)
      let s := (s.recall pa 128).homeLine c.r.asid c.r.seed (pa / 128)
      { s with icache := kept ++ [⟨core, c.r.asid, line, pa, s.bytes pa 128, [], [lot]⟩] }
  | _ => s

/-! ### Classes of opcodes -/

/-- The engine class of an assigned opcode (R29, R47); NOP is of any class, and unassigned opcodes of none. -/
def classOfOp (op : Nat) : Option Nat :=
  if (0x10 ≤ op ∧ op ≤ 0x2E) ∨ (0x30 ≤ op ∧ op ≤ 0x46) ∨ (0x60 ≤ op ∧ op ≤ 0x64) then some 0
  else if 0x70 ≤ op ∧ op ≤ 0x7C then some 1
  else if 0xC0 ≤ op ∧ op ≤ 0xC6 then some 2
  else if 0xB0 ≤ op ∧ op ≤ 0xBA then some 3
  else if 0xD0 ≤ op ∧ op ≤ 0xDA then some 4
  else if (0x01 ≤ op ∧ op ≤ 0x0B) ∨ (0xA0 ≤ op ∧ op ≤ 0xAB) ∨ (0xF0 ≤ op ∧ op ≤ 0xF5) ∨ (0xF8 ≤ op ∧ op ≤ 0xFE) then some 5
  else if 0x90 ≤ op ∧ op ≤ 0x98 then some 6
  else if 0xE0 ≤ op ∧ op ≤ 0xE6 then some 7
  else none

/-- The control-flow instructions (R30). -/
def isControl (op : Nat) : Bool :=
  (1 ≤ op && op ≤ 5) || op == 0x07 || op == 0x0A || op == 0x0B || op == 0xF0 || op == 0xF4 || op == 0xF5

/-- The non-idempotent instructions (R33); FLRES in its clearing form, bit 2 of X. -/
def isOneShot (w : DWord) : Bool :=
  let op := w.toNat / 2 ^ 56
  [0x90, 0x91, 0x92, 0x93, 0x95, 0x96, 0xA6, 0xA7, 0xA1, 0xA4, 0xB0, 0xB1, 0xB2, 0xB3, 0xBA, 0xA9, 0xE1, 0xE2, 0xE3,
    0xE4, 0xE5, 0xD5, 0xE0, 0x72].contains op || (op == 0xD6 && w.getLsbD 2)

/-- CNT, CLASS, STOP, ORD, REGION, PAD and LTAG of a header (R28). -/
def hdrCnt (h : DWord) : Nat := h.toNat % 16
def hdrClass (h : DWord) : Nat := bits h.toNat 6 4
def hdrDrain (h : DWord) : Bool := h.getLsbD 19
def hdrStop (h : DWord) : Bool := h.getLsbD 20
def hdrOrd (h : DWord) : Nat := bits h.toNat 36 21
def hdrRegion (h : DWord) : Bool := h.getLsbD 37
def hdrPad (h : DWord) : Bool := h.getLsbD 38
def hdrTag (h : DWord) : Nat := bits h.toNat 50 39

/-- Whether a word breaks the class rule of its clause (R29). -/
def classBreach (cls : Nat) (last : Bool) (w : DWord) : Bool :=
  let op := w.toNat / 2 ^ 56
  match classOfOp op with
  | some k => k != cls && !(isControl op && last)
  | none => false

/-- The words of a clause but the last. -/
def notLast (ws : List DWord) : List DWord := ws.take (ws.length - 1)

/-- The lowest cause of an illegal clause that applies (R35); `must`: the clause is the fall-through of a
non-idempotent instruction, begun next. -/
def clauseCause (h : DWord) (ws : List DWord) (must : Bool) : Option Nat :=
  let cls := hdrClass h
  if bits h.toNat 63 51 ≠ 0 then some 1
  else if (!hdrStop h && hdrOrd h != 0) || (!hdrPad h && hdrTag h != 0) then some 2
  else if (notLast ws).any (classBreach cls false) || (ws.drop (ws.length - 1)).any (classBreach cls true) then some 3
  else if (notLast ws).any fun w => isControl (w.toNat / 2 ^ 56) then some 4
  else if (notLast ws).any isOneShot then some 5
  else if must && !hdrRegion h then some 6
  else none

/-- The SETF counts a clause adds to flag k at most (R38, R41). -/
def setfCount (ws : List DWord) (k : Nat) : Nat := (ws.filter fun w => bits w.toNat 52 49 == k).length

end Sys2Proof.Machine
end

