-- ==== Sys2Proof/Machine/Rejoin.lean ====
section
/-! DEFINITION. Rejoin masks, held groups and the end of a thread (R65 to R69, R84). -/

namespace Sys2Proof.Machine
open Sys2Proof

/-- The strand of a thread (R18). -/
def Thread.strand (t : Thread) : Nat := t.tid / 64
def Crew.rejoin (c : Crew) (str j : Nat) : Rejoin := (c.strands.getD str []).getD j ⟨0, 0⟩
def Crew.modRejoin (c : Crew) (str j : Nat) (f : Rejoin → Rejoin) : Crew :=
  { c with strands := c.strands.modify str fun js => js.modify j f }

/-- The thread has not exited: a fragment-crew thread has between its fragments (R84, R286); a system-crew thread has
not while it is idle (R365). -/
def Thread.live (t : Thread) : Bool := t.status != .ended && (t.status != .idle || t.crew == 7)
/-- The live lanes of a strand: those whose thread has not exited (R80). -/
def liveLanes (tm : Team) (crew str : Nat) : Nat :=
  tm.threads.foldl (fun m t => if t.crew = crew ∧ t.strand = str ∧ t.live then m ||| 2 ^ t.lane else m) 0

/-- Jn is complete: not empty, and every lane of it has arrived (R66). -/
def Rejoin.complete (r : Rejoin) : Bool := r.mask != 0 && (r.mask &&& r.arr) == r.mask

/-- The threads arrived at Jn of a strand. -/
def arrived (tm : Team) (crew str j : Nat) : List Nat :=
  (List.range tm.threads.length).filter fun i => match tm.threads[i]? with
    | some t => t.crew == crew && t.strand == str && t.status == .joined j
    | none => false

/-- Inserts into a strictly rising list. -/
def insertNat (a : Nat) : List Nat → List Nat
  | [] => [a]
  | b :: t => if a < b then a :: b :: t else if a = b then b :: t else b :: insertNat a t

/-- The continuation addresses of released threads, ascending (R67). -/
def contAddrs (tm : Team) (ms : List Nat) : List Nat :=
  ms.foldl (fun l i => match tm.threads[i]? with | some t => insertNat t.pc.toNat l | none => l) []

/-- One held group for each continuation address, ascending (R67). -/
def groupsOf (tm : Team) (crew : Nat) (first : Nat) (ms : List Nat) : List Hold :=
  let as := contAddrs tm ms
  (List.range as.length).map fun k =>
    { id := first + k, team := tm.id, crew := crew, ca := BitVec.ofNat 64 (as.getD k 0), slot := false
      members := ms.filter fun i => (tm.threads[i]?.map fun t => t.pc.toNat) == some (as.getD k 0) }

/-- WHO of the record of a group (R400): that of its first thread. DESIGN CHOICE (log 111): R400 does not say of which thread. -/
def Team.firstWho (tm : Team) (ms : List Nat) : Nat :=
  match ms.head?.bind fun i => tm.threads[i]? with | some t => t.who | none => 0
/-- Tests completion of Jn; a completion releases its arrival set into held groups (R66, R67, R74). `banked`: the core was
banked as the completion came. The release orders the K writes of the threads that arrived (R95). DESIGN CHOICE (log 114):
the completion and the release are one step, so no JTEST.done finds Jn complete. -/
def State.testJoin (s : State) (id crew str j : Nat) (banked : Bool) : State :=
  match s.team? id with
  | none => s
  | some tm =>
    match tm.crew? crew with
    | none => s
    | some c =>
      if ¬ (c.rejoin str j).complete then s else
      let ms := arrived tm crew str j
      let hs := groupsOf tm crew s.nextId ms
      let s1 := { s with nextId := s.nextId + hs.length, holds := s.holds ++ hs }.modCrew id crew fun c =>
        c.modRejoin str j fun r => { r with arr := 0 }
      let ks := ms.foldl (fun l i => match tm.threads[i]? with | some t => youngerK l t.kOwn | none => l) []
      let s2 := ms.foldl (fun s i =>
        ((s.modThr id i fun t => { t with status := .grouped }).orderK id i ks).setWaker id i 1 banked) s1
      s2.trace tm.core 2 tm.asid (tm.firstWho ms) (natLe 8 j ++ natLe 8 (c.rejoin str j).arr)

/-- The core of a team banks now (R73). -/
def State.teamBanks (s : State) (id : Nat) : Bool := match s.team? id with | some tm => s.banks tm.core | none => false
/-- A change of one mask of the thread's strand, and the test of completion (R66); `banked` as for `testJoin`. -/
def State.modJ (s : State) (id crew str j : Nat) (f : Rejoin → Rejoin) (banked : Bool) : State :=
  (s.modCrew id crew fun c => c.modRejoin str j f).testJoin id crew str j banked

/-- The operations that a fence, a JOIN and the release forms wait for: reads, writes and atomics of memory (R154), the reads
of blocks and of waiting instructions included. -/
def fenceWaits : Instr → Bool
  | .ld .. | .st .. | .stt .. | .atom .. | .atomcas .. | .red .. | .xadd .. | .xread .. | .xclr .. | .xclrLine ..
  | .glaze .. | .glzins .. | .glzq .. | .bari .. | .bara .. | .bart .. | .bartPoison .. | .barp .. | .feset ..
  | .feclr .. | .sqadd .. | .sqrd .. | .chkt .. | .flins .. | .flres .. | .flresClr .. | .flrd .. | .attr ..
  | .raybox .. | .raytri .. | .qcfgSet .. | .qcfgGrant .. | .qcfgStat .. | .qcfgOff .. | .qtry .. | .wgemit ..
  | .wgdone .. | .dqpush .. | .dqpop .. | .dqsteal .. | .launch .. | .tload .. | .sort .. | .splat .. | .rast ..
  | .flcfgSet .. | .flcfgGrow .. | .barw .. | .qpush .. | .qpop .. | .sqwait .. | .chkw .. => true
  | _ => false
/-- Every access that the thread issued before operation `id` has performed, those of its waiting instructions included
(R154). -/
def Thread.accessesDone (t : Thread) (id : Nat) : Bool :=
  (t.pend ++ t.waits).all fun o => !(fenceWaits o.i && o.id < id && o.res.isNone)

/-- The instructions that read memory and write none, their blocks and records included (R234, R284, R308, R352): the loads
that an acquire waits for (R154). -/
def acquireWaits : Instr → Bool
  | .ld .. | .xread .. | .glzq .. | .bart .. | .bartPoison .. | .chkt .. | .sqrd .. | .attr .. | .raybox .. | .raytri ..
  | .flrd .. | .qcfgSet .. | .launch .. | .wgemit .. | .tload .. | .sort .. | .splat .. | .rast .. | .flcfgSet ..
  | .flcfgGrow .. | .barw .. | .qpop .. | .sqwait .. | .chkw .. => true
  | _ => false
/-- Every load issued before operation `id` has performed (R154). -/
def Thread.loadsDone (t : Thread) (id : Nat) : Bool :=
  (t.pend ++ t.waits).all fun o => !(acquireWaits o.i && o.id < id && o.res.isNone)

/-- The batch slots of a thread are all retired (R229). -/
def Thread.copiesDone (t : Thread) : Bool := t.batches.all fun b => b.state == 0

/-- The thread leaves every rejoin mask and arrival set of its strand (R84). -/
def State.leaveMasks (s : State) (id i : Nat) : State :=
  match s.thr? id i with
  | none => s
  | some t =>
    (List.range 16).foldl (fun s j => s.modJ id t.crew t.strand j (fun r =>
      { mask := r.mask - (r.mask &&& 2 ^ t.lane), arr := r.arr - (r.arr &&& 2 ^ t.lane) }) (s.teamBanks id)) s

/-- The end of a thread, or a fragment-crew thread becoming idle (R84, R286), which a pending halt stops at once (R394).
Its fragment counts as left. -/
def State.endThread (s : State) (id i : Nat) : State :=
  match s.team? id with
  | none => s
  | some tm =>
    match tm.threads[i]? with
    | none => s
    | some t =>
      let s := s.leaveMasks id i
      let idle := (tm.crew? t.crew).map (fun c => c.role) == some .fragment
      let s := s.modThr id i fun t =>
        { t with status := if idle then .idle else .ended, frag := none, must := none, waits := []
                 dbg := { t.dbg with req := if idle then t.dbg.req else none, halted := false, landed := false, stepping := false
                                     stepped := false, inplace := false } }
      s.landHalt id i false

/-! ### The start of a thread -/

/-- A thread of a team at its start (R340). -/
def Thread.start (crew tid budget : Nat) (pc : DWord) (status : TStat) : Thread where
  crew := crew
  tid := tid
  v := List.replicate budget 0
  p := List.replicate 7 false
  f := List.replicate 12 0
  sys := {}
  cpb := List.replicate 8 0
  badRegs := []
  pc := pc
  must := none
  wb := []
  pend := []
  waits := []
  late := []
  status := status
  yieldLeft := 0
  rpt := 0
  ticket := 0
  contact := false
  mon := none
  dbg := {}
  served := none
  serveInfo := none
  hdrWait := false
  frag := none
  batches := List.replicate 8 {}

end Sys2Proof.Machine
end

