-- ==== Sys2Proof/Machine/Control.lean ====
section
/-! DEFINITION. Meanings of the control-flow class, chapters 02_encoding.md and 03_control.md: NOP, ILL, branches and
calls (R78), rejoin instructions (R80 to R83), EXIT and YIELD (R84, R85). -/

namespace Sys2Proof.Machine
open Sys2Proof

/-- Where a branch goes: the target, the tag it must find if it is checked, the TGT bits for the record, the link pair. -/
structure Branch where
  target : Nat
  tag : Option Nat
  link : Option VReg
  deriving DecidableEq, Repr

/-- A fault of a branch's fetch of its target header (R51, R78, R358). -/
def State.targetFault (s : State) (x : Issue) (j t : Nat) : FRes → State
  | .ok _ => s
  | .viol n =>
    match s.team? x.team, s.thr? x.team j with
    | some tm, some th =>
      (s.logViol tm.asid (threadEnt tm th 0 t t n 0 0)).raiseAt x.team j 4 n t 0 (BitVec.ofNat 64 t) 0
    | _, _ => s
  | .absent => s.raise x j 32 1 t 2
  | .poison => s.raise x j 7 1 t

/-- Sets the clause the thread begins next (R78). -/
def State.goto (s : State) (id j t : Nat) : State := s.modThr id j fun th => { th with pc := BitVec.ofNat 64 t, must := none }

/-- The link pair and the next clause of a branch that passed its checks (R78). -/
def State.linkTo (s : State) (x : Issue) (c : Common) (j : Nat) (b : Branch) : State :=
  let s1 := s.goto x.team j b.target
  match b.link with
  | some r => s1.modThr x.team j fun t => t.pushRes x c 1 { v := vPut true r.val x.fall.toNat }
  | none => s1

/-- A taken branch of a thread: its checks in order, then the link and the next clause (R78). -/
def State.branch (s : State) (x : Issue) (tm : Team) (c : Common) (j : Nat) (b : Branch) : State :=
  if b.target % 8 ≠ 0 then s.raise x j 3 1 b.target else
  match s.ctx? tm.asid with
  | none => s
  | some cx =>
    match s.fetchWord cx tm.core b.target (x.crew == 7) with
    | .ok h =>
      match b.tag with
      | some g =>
        if ¬ hdrPad h then s.raise x j 3 2 b.target
        else if hdrTag h ≠ g then s.raise x j 3 3 b.target
        else s.linkTo x c j b
      | none => s.linkTo x c j b
    | r => s.targetFault x j b.target r

/-- The lanes of some threads as a set. -/
def laneSet (tm : Team) (ms : List Nat) : Nat :=
  ms.foldl (fun m i => match tm.threads[i]? with | some t => m ||| 2 ^ t.lane | none => m) 0

/-- The next clauses of a group's members are not all one (R400, KIND 1). -/
def diverged (tm : Team) (ms : List Nat) : Bool := 1 < (contAddrs tm ms).length

/-- A branch of a group: each member whose guard is true takes its branch; a group that parts is traced (R78, R400). -/
def branchOp (i : Instr) (f : Issue → List DWord → Thread → Branch) (s : State) : Out :=
  runGroup i (fun x tm cr ms s =>
    let s1 := ms.foldl (fun s j => match s.thr? x.team j with
      | some t => s.branch x tm (commonOf i) j (f x cr.k t)
      | none => s) s
    match s1.team? x.team with
    | some tm1 =>
      if diverged tm1 x.members then
        s1.trace tm.core 1 tm.asid (tm.firstWho x.members) (natLe 8 x.ca.toNat ++ natLe 8 (laneSet tm ms))
      else s1
    | none => s1) s

/-- The target of a direct branch (R78). -/
def directTarget (x : Issue) (tgt : BitVec 32) : Nat := (x.ca + BitVec.signExtend 64 tgt * 8).toNat

/-- NOP (R48): it only spends its DIST. -/
def execNop (c : Common) (imm : BitVec 32) (s : State) : Out := runEach (.nop c imm) (fun _ _ _ _ s => s) s

/-- ILL (R49): the illegal-instruction fault in every member, whatever its guard. -/
def execIll (imm : BitVec 32) (s : State) : Out :=
  runGroup (.ill imm) (fun x _ _ _ s => x.active.foldl (fun s j => s.raise x j 2 0 x.iaddr.toNat) s) s

/-- BRA (R78). -/
def execBra (c : Common) (tgt : BitVec 32) (s : State) : Out :=
  branchOp (.bra c tgt) (fun x _ _ => ⟨directTarget x tgt, none, none⟩) s
/-- BRX (R78). -/
def execBrx (c : Common) (r : VReg) (tag : BitVec 12) (s : State) : Out :=
  branchOp (.brx c r tag) (fun _ _ t => ⟨t.v64 r.val, some tag.toNat, none⟩) s
/-- CALL (R78). -/
def execCall (c : Common) (r : VReg) (tgt : BitVec 32) (s : State) : Out :=
  branchOp (.call c r tgt) (fun x _ _ => ⟨directTarget x tgt, none, some r⟩) s
/-- CALLX (R78): the target is read before the link is written. -/
def execCallx (c : Common) (r : VReg) (tag : BitVec 12) (s : State) : Out :=
  branchOp (.callx c r tag) (fun _ _ t => ⟨t.v64 r.val, some tag.toNat, some r⟩) s
/-- RET (R78, R79). -/
def execRet (c : Common) (r : VReg) (s : State) : Out :=
  branchOp (.ret c r) (fun _ _ t => ⟨t.v64 r.val, none, none⟩) s
/-- RET with a tag (R78). -/
def execRetChecked (c : Common) (r : VReg) (tag : BitVec 12) (s : State) : Out :=
  branchOp (.retChecked c r tag) (fun _ _ t => ⟨t.v64 r.val, some tag.toNat, none⟩) s

/-- A JINIT form: the new mask from the old one, the strand's live lanes and the thread's lane (R80). -/
def jinitOp (i : Instr) (j : Fin 16) (f : Crew → Nat → Nat → Nat → Nat) (s : State) : Out :=
  runEach i (fun x cr t _ s =>
    let live := match s.team? x.team with | some tm => liveLanes tm t.crew t.strand | none => 0
    s.modJ x.team t.crew t.strand j.val (fun r => { r with mask := f cr live t.lane r.mask }) (s.teamBanks x.team)) s

/-- JINIT.live (R80). -/
def execJinitLive (c : Common) (j : Fin 16) (s : State) : Out := jinitOp (.jinitLive c j) j (fun _ live _ _ => live) s
/-- JINIT.self (R80). -/
def execJinitSelf (c : Common) (j : Fin 16) (s : State) : Out :=
  jinitOp (.jinitSelf c j) j (fun _ _ lane m => m ||| 2 ^ lane) s
/-- JINIT.clear (R80). -/
def execJinitClear (c : Common) (j : Fin 16) (s : State) : Out := jinitOp (.jinitClear c j) j (fun _ _ _ _ => 0) s
/-- JINIT.k (R80): Kx as a 64-bit lane set, and the live lanes. -/
def execJinitK (c : Common) (j : Fin 16) (k : KReg) (s : State) : Out :=
  jinitOp (.jinitK c j k) j (fun cr live _ _ => kVal cr.k true k.val &&& live) s

/-- The thread holds its ordered section (R291). -/
def Thread.inSection (t : Thread) : Bool := match t.frag with | some f => f.holds | none => false

/-- The arrival of a thread at Jn, and the test of completion (R66, R81); `banked` as for `testJoin`. -/
def State.arrive (s : State) (id i j : Nat) (banked : Bool) : State :=
  match s.thr? id i with
  | none => s
  | some t =>
    let s1 := s.modThr id i fun t => { t with status := .joined j }
    s1.modJ id t.crew t.strand j (fun r => { r with arr := r.arr ||| 2 ^ t.lane }) banked

/-- JOIN (R81): a thread whose lane is in Jn releases at team scope, arrives and waits; any other goes on. Inside an
ordered section it raises the order-region fault (R293). -/
def execJoin (c : Common) (j : Fin 16) (s : State) : Out :=
  runEach (.join c j) (fun x cr t i s =>
    if t.inSection then s.raise x i 8 1 x.iaddr.toNat
    else if ¬ (cr.rejoin t.strand j.val).mask.testBit t.lane then s
    else if t.accessesDone s.nextId && t.waits.isEmpty then s.arrive x.team i j.val (s.teamBanks x.team)
    else s.pushWait x i (.join c j) []) s

/-- JLEAVE (R82). -/
def execJleave (c : Common) (j : Fin 16) (s : State) : Out :=
  runEach (.jleave c j) (fun x _ t _ s =>
    s.modJ x.team t.crew t.strand j.val (fun r => { r with mask := r.mask - (r.mask &&& 2 ^ t.lane) })
      (s.teamBanks x.team)) s

/-- The value JTEST writes (R83). -/
def jtestVal (kind : JtestKind) (r : Rejoin) (lane : Nat) : Bool :=
  match kind with
  | .inMask => r.mask.testBit lane
  | .done => r.complete
  | .empty => r.mask == 0

/-- JTEST (R83), fixed at 2 cc. -/
def execJtest (c : Common) (kind : JtestKind) (j : Fin 16) (p : PReg) (s : State) : Out :=
  runEach (.jtest c kind j p) (fun x cr t i s =>
    s.modThr x.team i fun _ => t.pushRes x c 2 { p := some (p.val, jtestVal kind (cr.rejoin t.strand j.val) t.lane) }) s

/-- A control-flow instruction that first waits as for DRAIN: its effect now where nothing is in flight, else a wait. -/
def drainThen (i : Instr) (vals : List Nat) (ready : Crew → Thread → Bool) (eff : Nat → Nat → Op → State → State)
    (s : State) : Out :=
  runEach i (fun x cr t j s =>
    if ready cr t && t.waits.isEmpty && t.late.isEmpty then eff x.team j (mkOp x t i s.nextId vals) s else s.pushWait x j i vals fun u => { u with waited := !ready cr t }) s

/-- EXIT may end the thread: it has drained, and a fragment-crew thread's copies have retired (R84, R286). -/
def exitReady (cr : Crew) (t : Thread) : Bool := t.drained && (cr.role != .fragment || t.copiesDone)

/-- EXIT (R84). -/
def execExit (c : Common) (s : State) : Out := drainThen (.exit c) [] exitReady (fun id j _ s => s.endThread id j) s

/-- YIELD n (R85): the thread goes on at its fall-through clause, not ready for n cc. -/
def execYield (c : Common) (n : BitVec 12) (s : State) : Out :=
  runEach (.yield c n) (fun x _ _ j s =>
    s.modThr x.team j fun t => { t with yieldLeft := if n.toNat = 0 then 0 else n.toNat + 1 }) s

/-- The end of a YIELD pause (R74, R85): enabled once its cc have passed. -/
def execYieldPauseEnd (o : ThRef) (s : State) : Out :=
  match s.thr? o.team o.thr with
  | some t =>
    if t.yieldLeft = 1 ∧ ¬ t.isHalted ∧ ¬ t.dbg.landed then
      .next ((s.modThr o.team o.thr fun t => { t with yieldLeft := 0 }).wake o.team o.thr 12)
    else .next s
  | none => .next s

/-- The hold slots of a core in use (R67). -/
def State.slotsUsed (s : State) (core : Nat) : Nat :=
  (s.holds.filter fun h => h.slot && (s.team? h.team).map (fun t => t.core) == some core).length
/-- The first released group of a core that waits for a slot (R67): completions in order, groups in their order. -/
def State.nextHold (s : State) (core : Nat) : Option Nat :=
  (s.holds.find? fun h => !h.slot && (s.team? h.team).map (fun t => t.core) == some core).map fun h => h.id

/-- A released group takes a free hold slot (R67). -/
def execHoldSlotGrant (core : Fin 96) (s : State) : Out :=
  match s.nextHold core.val with
  | none => .next s
  | some id =>
    if 4 ≤ s.slotsUsed core.val then .next s else
    .next { s with holds := s.holds.map fun h => if h.id = id then { h with slot := true } else h }

end Sys2Proof.Machine
end

