-- ==== Sys2Proof/Machine/Integer.lean ====
section
/-! DEFINITION. Meanings of the integer, address and predicate instructions, chapter 04_integer.md (R91 to R109). Every
one is fixed at 2 cc (R39). -/

namespace Sys2Proof.Machine
open Sys2Proof

/-- IADD (R97). -/
def execIadd (c : Common) (o : IntBin) (s : State) : Out :=
  regOp (.iadd c o) 2 (fun k t => { v := vPut o.wide o.d.val (iaddVal o.wide o.sgn o.sat (srcVal k t o.wide o.a) (srcVal k t o.wide o.b)) }) s

/-- ISUB (R97). -/
def execIsub (c : Common) (o : IntBin) (s : State) : Out :=
  regOp (.isub c o) 2 (fun k t => { v := vPut o.wide o.d.val (isubVal o.wide o.sgn o.sat (srcVal k t o.wide o.a) (srcVal k t o.wide o.b)) }) s

/-- IMUL (R97). -/
def execImul (c : Common) (o : IntBin) (s : State) : Out :=
  regOp (.imul c o) 2 (fun k t => { v := vPut o.wide o.d.val (imulVal o.wide o.sgn o.sat (srcVal k t o.wide o.a) (srcVal k t o.wide o.b)) }) s

/-- IMULH (R97). -/
def execImulh (c : Common) (o : IntBin) (s : State) : Out :=
  regOp (.imulh c o) 2 (fun k t => { v := vPut o.wide o.d.val (imulhVal o.wide o.sgn o.sat (srcVal k t o.wide o.a) (srcVal k t o.wide o.b)) }) s

/-- IMIN (R97). -/
def execImin (c : Common) (o : IntBin) (s : State) : Out :=
  regOp (.imin c o) 2 (fun k t => { v := vPut o.wide o.d.val (iminVal o.wide o.sgn o.sat (srcVal k t o.wide o.a) (srcVal k t o.wide o.b)) }) s

/-- IMAX (R97). -/
def execImax (c : Common) (o : IntBin) (s : State) : Out :=
  regOp (.imax c o) 2 (fun k t => { v := vPut o.wide o.d.val (imaxVal o.wide o.sgn o.sat (srcVal k t o.wide o.a) (srcVal k t o.wide o.b)) }) s

/-- IMAD (R97). -/
def execImad (c : Common) (o : IntTri) (s : State) : Out :=
  regOp (.imad c o) 2 (fun k t => { v := vPut o.wide o.d.val (imadVal o.wide o.sgn o.sat (srcVal k t o.wide o.a) (srcVal k t o.wide o.b) (srcVal k t o.wide o.c)) }) s

/-- IMADW (R97): 32-bit a and b, 64-bit c and result. -/
def execImadw (c : Common) (o : IntTri) (s : State) : Out :=
  regOp (.imadw c o) 2 (fun k t =>
    { v := vPut true o.d.val (imadwVal o.sgn o.sat (srcVal k t false o.a) (srcVal k t false o.b) (srcVal k t true o.c)) }) s

/-- IABS (R97). -/
def execIabs (c : Common) (o : IabsOp) (s : State) : Out :=
  regOp (.iabs c o) 2 (fun k t => { v := vPut o.wide o.d.val (iabsVal o.wide o.sat (srcVal k t o.wide o.a)) }) s

/-- IADDI (R97). -/
def execIaddi (c : Common) (o : IaddiOp) (s : State) : Out :=
  regOp (.iaddi c o) 2 (fun k t => { v := vPut o.wide o.d.val (iaddiVal o.wide o.sgn o.sat (srcVal k t o.wide o.a) o.imm.toNat) }) s

/-- AND (R98). -/
def execAnd (c : Common) (o : LogBin) (s : State) : Out :=
  regOp (.and c o) 2 (fun k t => { v := vPut o.wide o.d.val (logVal .and o.wide o.nb (srcVal k t o.wide o.a) (srcVal k t o.wide o.b)) }) s

/-- OR (R98). -/
def execOr (c : Common) (o : LogBin) (s : State) : Out :=
  regOp (.or c o) 2 (fun k t => { v := vPut o.wide o.d.val (logVal .or o.wide o.nb (srcVal k t o.wide o.a) (srcVal k t o.wide o.b)) }) s

/-- XOR (R98). -/
def execXor (c : Common) (o : LogBin) (s : State) : Out :=
  regOp (.xor c o) 2 (fun k t => { v := vPut o.wide o.d.val (logVal .xor o.wide o.nb (srcVal k t o.wide o.a) (srcVal k t o.wide o.b)) }) s

/-- LOPI (R98). -/
def execLopi (c : Common) (o : LopiOp) (s : State) : Out :=
  regOp (.lopi c o) 2 (fun k t => { v := vPut o.wide o.d.val (lopiVal o.op o.wide o.ni (srcVal k t o.wide o.a) o.imm.toNat) }) s

/-- SHL (R99). -/
def execShl (c : Common) (o : FlagBin) (s : State) : Out :=
  regOp (.shl c o) 2 (fun k t => { v := vPut o.wide o.d.val (shlVal o.wide o.flag (srcVal k t o.wide o.a) (srcVal k t o.wide o.b)) }) s

/-- SHR (R99). -/
def execShr (c : Common) (o : FlagBin) (s : State) : Out :=
  regOp (.shr c o) 2 (fun k t => { v := vPut o.wide o.d.val (shrVal o.wide o.flag (srcVal k t o.wide o.a) (srcVal k t o.wide o.b)) }) s

/-- SAR (R99). -/
def execSar (c : Common) (o : FlagBin) (s : State) : Out :=
  regOp (.sar c o) 2 (fun k t => { v := vPut o.wide o.d.val (sarVal o.wide o.flag (srcVal k t o.wide o.a) (srcVal k t o.wide o.b)) }) s

/-- BFE (R100). -/
def execBfe (c : Common) (o : FlagBin) (s : State) : Out :=
  regOp (.bfe c o) 2 (fun k t => { v := vPut o.wide o.d.val (bfeVal o.wide o.flag (srcVal k t o.wide o.a) (srcVal k t o.wide o.b)) }) s

/-- BFI (R100). -/
def execBfi (c : Common) (o : BfiOp) (s : State) : Out :=
  regOp (.bfi c o) 2 (fun k t => { v := vPut o.wide o.d.val (bfiVal o.wide (srcVal k t o.wide o.a) (srcVal k t o.wide o.b) (srcVal k t o.wide o.c)) }) s

/-- POPC (R101). -/
def execPopc (c : Common) (o : UnOp) (s : State) : Out :=
  regOp (.popc c o) 2 (fun k t => { v := vPut o.wide o.d.val (popcVal o.wide (srcVal k t o.wide o.a)) }) s

/-- CLZ (R101). -/
def execClz (c : Common) (o : UnOp) (s : State) : Out :=
  regOp (.clz c o) 2 (fun k t => { v := vPut o.wide o.d.val (clzVal o.wide (srcVal k t o.wide o.a)) }) s

/-- BREV (R101). -/
def execBrev (c : Common) (o : UnOp) (s : State) : Out :=
  regOp (.brev c o) 2 (fun k t => { v := vPut o.wide o.d.val (brevVal o.wide (srcVal k t o.wide o.a)) }) s

/-- MOV (R105). -/
def execMov (c : Common) (o : UnOp) (s : State) : Out :=
  regOp (.mov c o) 2 (fun k t => { v := vPut o.wide o.d.val (srcVal k t o.wide o.a) }) s

/-- MOVI (R105). -/
def execMovi (c : Common) (o : MoviOp) (s : State) : Out :=
  regOp (.movi c o) 2 (fun _ _ => { v := vPut (o.kind != .n32) o.d.val (moviVal o.kind o.imm.toNat) }) s

/-- LEA (R106). -/
def execLea (c : Common) (o : LeaOp) (s : State) : Out :=
  regOp (.lea c o) 2 (fun k t =>
    { v := vPut true o.d.val (leaVal o.s.val o.idx (srcVal k t true o.a) (srcVal k t true o.b)) }) s

/-- SEL (R103). -/
def execSel (c : Common) (o : SelOp) (s : State) : Out :=
  regOp (.sel c o) 2 (fun k t => { v := vPut o.wide o.d.val (if t.pr o.p != o.neg then srcVal k t o.wide o.a else srcVal k t o.wide o.b) }) s

/-- ICMP (R102). -/
def execIcmp (c : Common) (o : IcmpOp) (s : State) : Out :=
  regOp (.icmp c o) 2 (fun k t =>
    let n := widthOf o.wide
    let r := cmpInt o.cmp (interp o.sgn n (srcVal k t o.wide o.a)) (interp o.sgn n (srcVal k t o.wide o.b))
    { p := some (o.d.val, match o.comb with | some (b, p) => boolOpP b r (t.pr p) | none => r) }) s

/-- PLOP (R104). -/
def execPlop (c : Common) (o : PlopOp) (s : State) : Out :=
  regOp (.plop c o) 2 (fun _ t => { p := some (o.d.val, plopVal o.lut.toNat (t.pr o.a) (t.pr o.b) (t.pr o.c)) }) s

/-- SMOV as a read (R107). CCOUNT reads the core's count at this cc (R96). -/
def execSmovRead (c : Common) (o : SmovRead) (s : State) : Out :=
  runEach (.smovRead c o) (fun x _ t j s => match s.team? x.team with
    | some tm => s.modThr x.team j fun _ =>
        t.pushRes x c 2 { v := vPut o.wide o.d.val (s.sysRead tm t (x.t0 + x.now) o.sr.val) }
    | none => s) s

/-- SMOV as a write, of FXF (R107). -/
def execSmovWrite (c : Common) (o : SmovWrite) (s : State) : Out :=
  regOp (.smovWrite c o) 2 (fun k t =>
    { x := some ⟨none, o.sr.val, srcVal k t o.wide o.a⟩ }) s

/-- The member on the highest lane (R95). -/
def highest (tm : Team) (ms : List Nat) : Option Nat :=
  ms.foldl (fun best j => match best, tm.threads[j]? with
    | none, _ => some j
    | some b, some t => match tm.threads[b]? with
      | some u => if u.lane < t.lane then some j else some b
      | none => some j
    | some b, none => some b) none

/-- KMOV into K (R95, R108): the value of the guard-true writer on the highest lane stands; the others are ordered as it
is. -/
def execKmovToK (c : Common) (o : KmovOp) (s : State) : Out :=
  runGroup (.kmovToK c o) (fun x tm _ ms s =>
    ms.foldl (fun s j => match s.thr? x.team j with
      | some t => s.modThr x.team j fun _ =>
          { t.pushRes x c 2
              { k := some (o.k.val, if highest tm ms = some j then some (BitVec.ofNat 64 (t.vw o.wide o.v.val)) else none) } with
            kOwn := tabPut 0 t.kOwn o.k.val (x.t0 + x.now + 1) }
      | none => s) s) s

/-- KMOV out of K (R108). -/
def execKmovFromK (c : Common) (o : KmovOp) (s : State) : Out :=
  regOp (.kmovFromK c o) 2 (fun k _ => { v := vPut o.wide o.v.val (kVal k o.wide o.k.val) }) s

/-- The least lane among some threads (R109). -/
def leastLane (tm : Team) (ms : List Nat) : Nat :=
  ms.foldl (fun m j => match tm.threads[j]? with | some t => min m t.lane | none => m) 64

/-- ELECT (R109): the participants are the guard-true members of the issue group (R71, R72). -/
def execElect (c : Common) (o : ElectOp) (s : State) : Out :=
  runGroup (.elect c o) (fun x tm _ ms s =>
    let m := leastLane tm ms
    ms.foldl (fun s j => match s.thr? x.team j with
      | some t => s.modThr x.team j fun _ => t.pushRes x c 2
          { p := some (o.d.val, t.lane == m), v := match o.lane with | some v => vPut false v.val m | none => [] }
      | none => s) s) s

end Sys2Proof.Machine
end

