-- ==== Sys2Proof/Machine/Float.lean ====
section
/-! DEFINITION. Meanings of the float instructions, chapter 05_float.md (R110 to R135). Latencies follow R39: 4 cc, 8 cc
in the `.f64` forms, 12 cc for 0x37 to 0x3D. Flags go to FXF when the result is written (R120). -/

namespace Sys2Proof.Machine
open Sys2Proof

/-- The EXC event of a result in a float type (R387). -/
def ftEvent (t : FType) (r : Nat × Flags) : ConeEv := excEvent (ftFmt t) (if ftX2 t then 2 else 1) r.1 r.2
/-- The EXC event of a conversion (R387); an E8M0 code is NaN at 0xFF (R112). -/
def cvtEvent (d : CFmt) (r : Nat × Flags) : ConeEv :=
  match cfFmt d with
  | some f => excEvent f (if cfX2 d then 2 else 1) r.1 r.2
  | none => .exc (excClasses (r.1 == 255) false r.2) r.1

/-- FADD (R122). -/
def execFadd (c : Common) (o : FpBin) (s : State) : Out :=
  regOp (.fadd c o) (fpLat (isF64 o.ft)) (fun k t =>
    let r := arithVal .add o.ft o.rm o.ftz o.sat (srcVal k t (isF64 o.ft) o.a) (srcVal k t (isF64 o.ft) o.b) 0
    { v := vPut (isF64 o.ft) o.d.val r.1, fx := flagBits r.2, ev := some (ftEvent o.ft r) }) s

/-- FSUB (R122). -/
def execFsub (c : Common) (o : FpBin) (s : State) : Out :=
  regOp (.fsub c o) (fpLat (isF64 o.ft)) (fun k t =>
    let r := arithVal .sub o.ft o.rm o.ftz o.sat (srcVal k t (isF64 o.ft) o.a) (srcVal k t (isF64 o.ft) o.b) 0
    { v := vPut (isF64 o.ft) o.d.val r.1, fx := flagBits r.2, ev := some (ftEvent o.ft r) }) s

/-- FMUL (R122). -/
def execFmul (c : Common) (o : FpBin) (s : State) : Out :=
  regOp (.fmul c o) (fpLat (isF64 o.ft)) (fun k t =>
    let r := arithVal .mul o.ft o.rm o.ftz o.sat (srcVal k t (isF64 o.ft) o.a) (srcVal k t (isF64 o.ft) o.b) 0
    { v := vPut (isF64 o.ft) o.d.val r.1, fx := flagBits r.2, ev := some (ftEvent o.ft r) }) s

/-- FFMA (R122). -/
def execFfma (c : Common) (o : FpTri) (s : State) : Out :=
  regOp (.ffma c o) (fpLat (isF64 o.ft)) (fun k t =>
    let r := arithVal .fma o.ft o.rm o.ftz o.sat (srcVal k t (isF64 o.ft) o.a) (srcVal k t (isF64 o.ft) o.b) (srcVal k t (isF64 o.ft) o.c)
    { v := vPut (isF64 o.ft) o.d.val r.1, fx := flagBits r.2, ev := some (ftEvent o.ft r) }) s

/-- FMIN (R123). -/
def execFmin (c : Common) (o : FpBin) (s : State) : Out :=
  regOp (.fmin c o) (fpLat (isF64 o.ft)) (fun k t =>
    let r := minMaxVal false o.ft o.ftz (srcVal k t (isF64 o.ft) o.a) (srcVal k t (isF64 o.ft) o.b)
    { v := vPut (isF64 o.ft) o.d.val r.1, fx := flagBits r.2, ev := some (ftEvent o.ft r) }) s

/-- FMAX (R123). -/
def execFmax (c : Common) (o : FpBin) (s : State) : Out :=
  regOp (.fmax c o) (fpLat (isF64 o.ft)) (fun k t =>
    let r := minMaxVal true o.ft o.ftz (srcVal k t (isF64 o.ft) o.a) (srcVal k t (isF64 o.ft) o.b)
    { v := vPut (isF64 o.ft) o.d.val r.1, fx := flagBits r.2, ev := some (ftEvent o.ft r) }) s

/-- FCMP (R124). -/
def execFcmp (c : Common) (o : FcmpOp) (s : State) : Out :=
  regOp (.fcmp c o) (fpLat (isF64 o.ft)) (fun k t =>
    let r := fcmpVal o.ft o.cmp o.ftz (srcVal k t (isF64 o.ft) o.a) (srcVal k t (isF64 o.ft) o.b)
    let b := match o.comb with | some (b, p) => boolOpP b r.1 (t.pr p) | none => r.1
    { p := some (o.d.val, b), fx := flagBits r.2, ev := some (.exc (excClasses false false r.2) (b2n b)) }) s

/-- FRCP (R125), fixed at 12 cc. -/
def execFrcp (c : Common) (o : FpUn) (s : State) : Out :=
  regOp (.frcp c o) 12 (fun k t =>
    let r := funVal .rcp o.ft o.rm o.ftz o.pi (srcVal k t (isF64 o.ft) o.a)
    { v := vPut (isF64 o.ft) o.d.val r.1, fx := flagBits r.2, ev := some (ftEvent o.ft r) }) s

/-- FSQRT (R125), fixed at 12 cc. -/
def execFsqrt (c : Common) (o : FpUn) (s : State) : Out :=
  regOp (.fsqrt c o) 12 (fun k t =>
    let r := funVal .sqrt o.ft o.rm o.ftz o.pi (srcVal k t (isF64 o.ft) o.a)
    { v := vPut (isF64 o.ft) o.d.val r.1, fx := flagBits r.2, ev := some (ftEvent o.ft r) }) s

/-- FRSQ (R125), fixed at 12 cc. -/
def execFrsq (c : Common) (o : FpUn) (s : State) : Out :=
  regOp (.frsq c o) 12 (fun k t =>
    let r := funVal .rsq o.ft o.rm o.ftz o.pi (srcVal k t (isF64 o.ft) o.a)
    { v := vPut (isF64 o.ft) o.d.val r.1, fx := flagBits r.2, ev := some (ftEvent o.ft r) }) s

/-- FEXP2 (R125), fixed at 12 cc. -/
def execFexp2 (c : Common) (o : FpUn) (s : State) : Out :=
  regOp (.fexp2 c o) 12 (fun k t =>
    let r := funVal .exp2 o.ft o.rm o.ftz o.pi (srcVal k t (isF64 o.ft) o.a)
    { v := vPut (isF64 o.ft) o.d.val r.1, fx := flagBits r.2, ev := some (ftEvent o.ft r) }) s

/-- FLOG2 (R125), fixed at 12 cc. -/
def execFlog2 (c : Common) (o : FpUn) (s : State) : Out :=
  regOp (.flog2 c o) 12 (fun k t =>
    let r := funVal .log2 o.ft o.rm o.ftz o.pi (srcVal k t (isF64 o.ft) o.a)
    { v := vPut (isF64 o.ft) o.d.val r.1, fx := flagBits r.2, ev := some (ftEvent o.ft r) }) s

/-- FSIN (R125), fixed at 12 cc. -/
def execFsin (c : Common) (o : FpUn) (s : State) : Out :=
  regOp (.fsin c o) 12 (fun k t =>
    let r := funVal .sin o.ft o.rm o.ftz o.pi (srcVal k t (isF64 o.ft) o.a)
    { v := vPut (isF64 o.ft) o.d.val r.1, fx := flagBits r.2, ev := some (ftEvent o.ft r) }) s

/-- FCOS (R125), fixed at 12 cc. -/
def execFcos (c : Common) (o : FpUn) (s : State) : Out :=
  regOp (.fcos c o) 12 (fun k t =>
    let r := funVal .cos o.ft o.rm o.ftz o.pi (srcVal k t (isF64 o.ft) o.a)
    { v := vPut (isF64 o.ft) o.d.val r.1, fx := flagBits r.2, ev := some (ftEvent o.ft r) }) s

/-- FRND (R126). -/
def execFrnd (c : Common) (o : FpUn) (s : State) : Out :=
  regOp (.frnd c o) (fpLat (isF64 o.ft)) (fun k t =>
    let r := rndVal o.ft o.rm o.ftz (srcVal k t (isF64 o.ft) o.a)
    { v := vPut (isF64 o.ft) o.d.val r.1, fx := flagBits r.2, ev := some (ftEvent o.ft r) }) s

/-- FSCL (R127). -/
def execFscl (c : Common) (o : FpBin) (s : State) : Out :=
  regOp (.fscl c o) (fpLat (isF64 o.ft)) (fun k t =>
    let r := sclVal o.ft o.rm o.ftz (srcVal k t (isF64 o.ft) o.a) (srcVal k t (isF64 o.ft) o.b)
    { v := vPut (isF64 o.ft) o.d.val r.1, fx := flagBits r.2, ev := some (ftEvent o.ft r) }) s

/-- FCLS (R128): raises no flag. -/
def execFcls (c : Common) (o : FclsOp) (s : State) : Out :=
  regOp (.fcls c o) (fpLat (o.fmt == .f64)) (fun k t =>
    { v := vPut (o.fmt == .f64) o.d.val (clsVal o.fmt (srcVal k t (o.fmt == .f64) o.a)) }) s

/-- FCVT (R129, R130). -/
def execFcvt (c : Common) (o : FcvtOp) (s : State) : Out :=
  regOp (.fcvt c o) (fpLat o.wide) (fun k t =>
    let r := cvtVal o (srcVal k t o.wide o.a) (optVal k t false o.b)
    { v := vPut o.wide o.d.val r.1, fx := flagBits r.2, ev := some (cvtEvent o.dt r) }) s

/-- F2I (R131). In a W form a 32-bit result is extended into the odd register: by its sign for `.i32` (R113). -/
def execF2i (c : Common) (o : CvtIntOp) (s : State) : Out :=
  regOp (.f2i c o) (fpLat (o.f == .f64)) (fun k t =>
    let r := f2iVal o.f o.i o.rm (srcVal k t o.wide o.a)
    let v := if o.wide && o.i == .i32 then ofSigned 64 (toSigned 32 r.1) else r.1
    { v := vPut o.wide o.d.val v, fx := flagBits r.2, ev := some (.exc (excClasses false false r.2) v) }) s

/-- I2F (R132). -/
def execI2f (c : Common) (o : CvtIntOp) (s : State) : Out :=
  regOp (.i2f c o) (fpLat (o.f == .f64)) (fun k t =>
    let r := i2fVal o.f o.i o.rm (srcVal k t o.wide o.a)
    { v := vPut o.wide o.d.val r.1, fx := flagBits r.2, ev := some (excEvent (sfFmt o.f) 1 r.1 r.2) }) s

/-- FDOT (R133). -/
def execFdot (c : Common) (o : FdotOp) (s : State) : Out :=
  regOp (.fdot c o) 4 (fun k t =>
    let r := fdotVal o.st o.rm o.ftz (srcVal k t false o.a) (srcVal k t false o.b) (srcVal k t false o.c)
    { v := vPut false o.d.val r.1, fx := flagBits r.2, ev := some (excEvent Machine.f32 1 r.1 r.2) }) s

/-- BQNT.scale (R134): writes an E8M0 code, which is NaN at 0xFF. -/
def execBqntScale (c : Common) (o : BqntScale) (s : State) : Out :=
  regOp (.bqntScale c o) 4 (fun k t =>
    let r := bqntScaleVal o.ef (srcVal k t false o.a)
    { v := vPut false o.d.val r.1, fx := flagBits r.2, ev := some (.exc (excClasses (r.1 == 255) false r.2) r.1) }) s

/-- BQNT of an element (R134). -/
def execBqntElement (c : Common) (o : BqntElem) (s : State) : Out :=
  regOp (.bqntElement c o) 4 (fun k t =>
    let r := bqntElemVal o.ef o.rm o.sat (srcVal k t false o.a) (srcVal k t false o.b)
    { v := vPut false o.d.val r.1, fx := flagBits r.2, ev := some (excEvent (efFmt o.ef) 1 r.1 r.2) }) s

/-- BDQ (R135). -/
def execBdq (c : Common) (o : BdqOp) (s : State) : Out :=
  regOp (.bdq c o) 4 (fun k t =>
    let r := bdqVal o.ef o.rm (srcVal k t false o.a) (srcVal k t false o.b)
    { v := vPut false o.d.val r.1, fx := flagBits r.2, ev := some (excEvent Machine.f32 1 r.1 r.2) }) s

end Sys2Proof.Machine
end

