-- ==== Sys2Proof/Machine/Cross.lean ====
section
/-! DEFINITION. Meanings of the cross-lane instructions (R71, R72, R86 to R90), fixed at 4 cc. The participants are the
guard-true members of the issue group, held or not; the result outside a held clause is one of the set of R72 because the
action list chooses the group. -/

namespace Sys2Proof.Machine
open Sys2Proof

/-- The participants by lane, each with its thread. -/
def partsOf (tm : Team) (ms : List Nat) : List (Nat × Thread) :=
  ms.filterMap fun j => (tm.threads[j]?).map fun t => (t.lane, t)
/-- The participant on a lane. -/
def partAt (ps : List (Nat × Thread)) (lane : Nat) : Option Thread := (ps.find? fun p => p.1 == lane).map fun p => p.2

/-- A cross-lane instruction: a function of the participants, the crew's K registers and the receiving thread. -/
def crossOp (i : Instr) (f : List (Nat × Thread) → List DWord → Thread → Res) (s : State) : Out :=
  runGroup i (fun x _ cr ms s =>
    match s.team? x.team with
    | none => s
    | some tm =>
      let ps := partsOf tm ms
      ms.foldl (fun s j => match s.thr? x.team j with
        | some t => s.modThr x.team j fun _ => t.pushRes x (commonOf i) 4 (f ps cr.k t)
        | none => s) s) s

/-- The source lane of SHFL, or none below 0 (R87). -/
def shflSource (m : ShflMode) (lane b : Nat) : Option Nat :=
  match m with
  | .idx => some b
  | .up => if b ≤ lane then some (lane - b) else none
  | .down => some (lane + b)
  | .xor => some (lane ^^^ b)

/-- SHFL (R87). -/
def execShfl (c : Common) (o : ShflOp) (s : State) : Out :=
  crossOp (.shfl c o) (fun ps k t =>
    let b := srcVal k t false o.b
    let fill := optVal k t o.wide o.fill
    let r := match shflSource o.mode t.lane b with
      | some l => match partAt ps l with | some u => u.vw o.wide o.a.val | none => fill
      | none => fill
    { v := vPut o.wide o.d.val r }) s

/-- The value a lane delivers to VOTE (R88). -/
def voteAt (ps : List (Nat × Thread)) (p : PReg) (fill : Bool) (lane : Nat) : Bool :=
  match partAt ps lane with | some u => u.pr p | none => fill

/-- VOTE (R88). -/
def execVote (c : Common) (o : VoteOp) (s : State) : Out :=
  crossOp (.vote c o) (fun ps _ _ =>
    let v := voteAt ps o.p o.fill
    match o.dst with
    | .any d => { p := some (d.val, (List.range 64).any v) }
    | .all d => { p := some (d.val, (List.range 64).all v) }
    | .ballot d => { v := vPut true d.val ((List.range 64).foldl (fun a j => a + b2n (v j) * 2 ^ j) 0) }) s

/-- The values of lanes 0 to n - 1 (R89). -/
def foldSources (ps : List (Nat × Thread)) (wide : Bool) (a : VReg) (fill n : Nat) : List Nat :=
  (List.range n).map fun j => match partAt ps j with | some u => u.vw wide a.val | none => fill

/-- The EXC event of a float fold; none for an integer one (R387). -/
def foldEvent (t : LType) (r : Nat × Flags) : Option ConeEv :=
  match t with
  | .f32 => some (excEvent Machine.f32 1 r.1 r.2)
  | .f64 => some (excEvent Machine.f64 1 r.1 r.2)
  | _ => none

/-- The result of a fold over the lanes below n; the identity where n is 0 (R89). -/
def foldRes (o : FoldOp) (ps : List (Nat × Thread)) (k : List DWord) (t : Thread) (n : Nat) : Res :=
  let w := ltWide o.ty
  let r := if n = 0 then (foldIdent o.op o.ty, noFlags)
    else foldLanes o.op o.ty (foldSources ps w o.a (optVal k t w o.fill) n)
  { v := vPut w o.d.val r.1, fx := flagBits r.2, ev := foldEvent o.ty r }

/-- LRED (R89). -/
def execLred (c : Common) (o : FoldOp) (s : State) : Out := crossOp (.lred c o) (fun ps k t => foldRes o ps k t 64) s

/-- LSCAN (R89): lanes up to the thread's own, or below it under EXCL. -/
def execLscan (c : Common) (o : FoldOp) (s : State) : Out :=
  crossOp (.lscan c o) (fun ps k t => foldRes o ps k t (if o.excl then t.lane else t.lane + 1)) s

/-- MATCH (R90). -/
def execMatchLanes (c : Common) (o : MatchOp) (s : State) : Out :=
  crossOp (.matchLanes c o) (fun ps _ t =>
    let m := t.vw o.wide o.a.val
    let eq := fun j => match partAt ps j with | some u => u.vw o.wide o.a.val == m | none => false
    { v := vPut true o.d.val ((List.range 64).foldl (fun a j => a + b2n (eq j) * 2 ^ j) 0) }) s

end Sys2Proof.Machine
end

