-- ==== Sys2Proof/Machine/Former.lean ====
section
/-! DEFINITION. The issue-group former: which threads may begin a clause (R42, R60), the PC table and the overflow lists of a
core (R59, R62), the pipes (R38), and the order of the candidates (R61). -/

namespace Sys2Proof.Machine
open Sys2Proof

/-- The flagged instructions that acquire, if they succeed: no access of a later clause performs before them (R214, R218,
R223, R241; DEDUCED, log 120, from R154, by which an acquire orders the next and later clauses). -/
def acquires : Instr → Bool
  | .bart .. | .qtry .. | .qcfgGrant .. | .sqrd .. | .chkt .. => true
  | _ => false
/-- The thread may begin its next clause as far as it is concerned itself (R42, R85, R201, R360, R393, R409). -/
def Thread.canBegin (t : Thread) : Bool :=
  t.waits.isEmpty && t.late.isEmpty && t.pend.all (fun o => !(acquires o.i && o.res.isNone)) && t.yieldLeft == 0 && !t.dbg.landed && (!t.dbg.halted || (t.dbg.stepping && !t.dbg.stepped))

/-- The members stand on strictly rising lanes: one thread a lane (R60). -/
def lanesRise (tm : Team) : List Nat → Bool
  | [] => true
  | [_] => true
  | i :: j :: rest =>
    (match tm.threads[i]?, tm.threads[j]? with
    | some t, some u => decide (t.lane < u.lane)
    | _, _ => false) && lanesRise tm (j :: rest)

/-- The members are of one crew, at one clause address, and may begin; `st` is the state the rule asks of them. A thread
that is stepped issues alone (R409). -/
def groupOk (tm : Team) (crew : Nat) (ms : List Nat) (st : TStat) (pc : DWord) : Bool :=
  !ms.isEmpty && lanesRise tm ms && ms.all fun i => match tm.threads[i]? with
    | some t => t.crew == crew && t.status == st && t.pc == pc && t.canBegin && (!t.dbg.stepping || ms.length == 1)
    | none => false

/-- Instructions whose flagged operation may still report a recoverable fault after issue (R361). -/
def lateRecoverable : Instr → Bool
  | .flins .. | .flres .. | .flresClr .. | .flrd .. | .glaze .. | .glzins .. | .glzq .. | .attr .. | .raybox ..
  | .raytri .. | .rast .. => true
  | _ => false

/-- A cone that halts and that the thread passes is armed on its core (R393). -/
def State.haltConeWatches (s : State) (tm : Team) (t : Thread) : Bool :=
  s.teams.any fun o => o.core == tm.core && o.asid == tm.asid &&
    o.cones.any fun c => c.armed && 2 ≤ bits c.cw.toNat 20 18 && conePasses c.cw.toNat (o.id == tm.id) t
/-- A result of the thread is still to be evaluated when it is written (R389, R393). -/
def Thread.lateEval (t : Thread) : Bool :=
  t.pend.any fun o => match o.i with | .ld .. | .xread .. | .mmrd .. | .attr .. => true | _ => false

/-- The span of the team is being saved (R369). -/
def State.savingTeam (s : State) (tm : Team) : Bool := s.spans.any fun p => p.id == tm.span && p.saving.isSome

/-- The thread may begin a clause with this header and words now (R31, R38, R42, R361, R369, R393). -/
def State.headerOk (s : State) (tm : Team) (h : DWord) (ws : List DWord) (t : Thread) : Bool :=
  (!hdrStop h || t.dbg.stepping || ((t.dbg.req.isNone || t.crew == 7) && !s.savingTeam tm &&
    !(t.lateEval && s.haltConeWatches tm t))) &&
  (!hdrRegion h || t.pend.all fun o => !lateRecoverable o.i) &&
  (List.range 12).all fun k => decide (t.f.getD k 0 + setfCount ws k ≤ 63)

/-- DIST of a word (R36). -/
def wordDist (w : DWord) : Nat := bits w.toNat 55 53


/-! ### Pipes -/

/-- The pipe of a core that takes an instruction of a class (R14): the vector pipes, the memory pipe, and the port of engine
commands; DESIGN CHOICE (log 125): the control class, for which R14 lists no unit, has a pipe of its own. -/
def pipeOf : Nat → Nat
  | 0 => 0
  | 1 | 6 => 1
  | 5 => 3
  | _ => 2
/-- The issue groups that the pipes of a kind take in one cc (R14). -/
def pipeRoom (p : Nat) : Nat := if p = 0 then 2 else 1
/-- The cc at which words issue, the first at `t`, each with its pipe (R38); NOP and a word of no class take none. -/
def wordTimes (t : Nat) : List DWord → List (Nat × Nat)
  | [] => []
  | w :: ws =>
    let rest := match ws with | [] => [] | v :: _ => wordTimes (t + max (wordDist v) 1) ws
    match classOfOp (w.toNat / 2 ^ 56) with
    | some c => (t, pipeOf c) :: rest
    | none => rest
/-- The cc at which the word in hand is to issue: max(DIST, 1) after the word before it (R38). -/
def Issue.nextNow (x : Issue) : Nat :=
  if x.stalled.isEmpty && x.idx != 0 then x.now + max (wordDist x.word) 1 else x.now
/-- The pipes that a clause in issue is still to take, with their cc; a word that waits before issue takes none. -/
def Issue.times (x : Issue) : List (Nat × Nat) :=
  if x.stalled.isEmpty then wordTimes (x.t0 + x.nextNow) (x.words.drop x.idx) else []
/-- The pipes that the clauses in issue on a core are still to take. -/
def State.pipesTaken (s : State) (core : Nat) : List (Nat × Nat) :=
  s.issues.flatMap fun x => match s.team? x.team with | some tm => if tm.core = core then x.times else [] | none => []
/-- The pipes that the words of a clause need are free at their times (R38). -/
def State.pipesFree (s : State) (core t : Nat) (ws : List DWord) : Bool :=
  let taken := s.pipesTaken core
  (wordTimes t ws).all fun q => decide ((taken.filter (· == q)).length < pipeRoom q.2)

/-- The cc at which the first word of a clause that starts now issues: a cc or more from now, as its DIST delays it (R38),
and not before the earlier fixed-latency results of its threads are written (R39). -/
def State.firstWordAt (s : State) (tm : Team) (ms : List Nat) (ws : List DWord) : Nat :=
  ms.foldl (fun m i => match tm.threads[i]? with | some t => max m (lastDue t.wb) | none => m)
    (s.coreCc tm.core + max (wordDist (ws.getD 0 0)) 1)

/-! ### The PC table -/

/-- The entry is that of a crew of a team at a clause address. -/
def PcEnt.isAt (e : PcEnt) (team crew ca : Nat) : Bool := e.team == team && e.crew == crew && e.ca == ca
/-- A thread that stands at its clause address (R59). -/
def Thread.stands (t : Thread) : Bool := t.status == .ready
/-- The thread has met the WAIT condition of its next clause (R42, R59). -/
def State.waitNow (s : State) (tm : Team) (t : Thread) : Bool :=
  match s.ctx? tm.asid with
  | some c => match s.fetchWord c tm.core t.pc.toNat (t.crew == 7) with
    | .ok h => t.waitMet h
    | _ => true
  | none => false
/-- The threads of a core that stand at a clause address, each with its team and index. -/
def State.standing (s : State) (core : Nat) : List (Team × Nat × Thread) :=
  (s.teams.filter fun tm => tm.core == core).flatMap fun tm =>
    ((List.range tm.threads.length).zip tm.threads).filterMap fun q => if q.2.stands then some (tm, q.1, q.2) else none
/-- The set of a clause address has a free way, of 8 (R59). -/
def hasWay (es : List PcEnt) (ca : Nat) : Bool :=
  es.length < 8 || (es.filter fun e => Config.pcSet e.ca == Config.pcSet ca).length < 8
/-- A thread that stands at no entry takes a new one, or joins or stays in the overflow list (R59, R62). -/
def placeThread (cc : Nat) (a : List PcEnt × List PcOver) (o : PcOver) : List PcEnt × List PcOver :=
  if a.1.any fun e => e.isAt o.e.team o.e.crew o.e.ca then a
  else if hasWay a.1 o.e.ca then (a.1 ++ [{ team := o.e.team, crew := o.e.crew, ca := o.e.ca, born := cc }], a.2)
  else (a.1, a.2 ++ [o])
/-- The thread of an overflow list. -/
def PcOver.isOf (o : PcOver) (tm : Team) (i : Nat) (t : Thread) : Bool :=
  o.thr == i && o.e.isAt tm.id t.crew t.pc.toNat
/-- The PC table and the overflow lists of a core as its threads stand now: entries at which no thread stands are gone, the
overflow threads of the oldest waiting address take a way that is free, and threads that have come take places (R59, R62). -/
def State.formedCore (s : State) (k : Nat) (c : Core) : Core :=
  let us := s.standing k
  if us.isEmpty && c.pct.isEmpty && c.ovf.isEmpty then c else
  let ovf := c.ovf.filter fun o => us.any fun u => o.isOf u.1 u.2.1 u.2.2
  let inTable := us.filter fun u => !(ovf.any fun o => o.isOf u.1 u.2.1 u.2.2)
  let pct := c.pct.filter fun e => inTable.any fun u => e.isAt u.1.id u.2.2.crew u.2.2.pc.toNat
  let new := inTable.map fun u =>
    { thr := u.2.1, e := { team := u.1.id, crew := u.2.2.crew, ca := u.2.2.pc.toNat, born := c.cc } : PcOver }
  let r := (ovf ++ new).foldl (placeThread c.cc) (pct, [])
  let ready := fun (e : PcEnt) => us.any fun u => e.isAt u.1.id u.2.2.crew u.2.2.pc.toNat &&
    !(r.2.any fun o => o.isOf u.1 u.2.1 u.2.2) && u.2.2.canBegin && s.waitNow u.1 u.2.2
  { c with
    pct := r.1.map fun e => { e with since := if ready e then some (e.since.getD c.cc) else none }
    ovf := r.2 }
/-- The PC tables of every core as its threads stand now. -/
def State.formed (s : State) : State :=
  { s with cores := ((List.range s.cores.length).zip s.cores).map fun q => s.formedCore q.1 q.2 }

/-! ### The order of the candidates -/

/-- A candidate of the former (R61): what it is ranked by. -/
structure Cand where
  held : Bool
  prio : Nat
  born : Nat
  since : Nat
  passed : Nat
  deriving DecidableEq, Repr

/-- The rank of a crew: 0 to 3, and the system crew above (R61, R366). -/
def Crew.rank (c : Crew) : Nat := if c.num = 7 then 4 else c.cpri
/-- Threads that stand at a clause address, or the members of a held group, could start its clause now on the pipe of a
class (R38, R61): one of them, or all where `every`. -/
def State.couldStart (s : State) (tm : Team) (p : Nat) (st : TStat) (every : Bool) (ms : List Nat) (ca : Nat) (sys : Bool) : Bool :=
  match s.ctx? tm.asid with
  | none => false
  | some c =>
    match s.fetchWord c tm.core ca sys with
    | .ok h =>
      pipeOf (hdrClass h) == p && match s.fetchClause c tm.core (ca + 8) sys (hdrCnt h + 1) with
      | .ok ws =>
        let can := fun i => match tm.threads[i]? with
          | some t => t.status == st && t.canBegin && t.waitMet h && s.headerOk tm h ws t
          | none => false
        let ready := fun (is : List Nat) => (clauseCause h ws false).isNone && s.pipesFree tm.core (s.firstWordAt tm is ws) ws
        if every then ms.all can && ready ms else ms.any fun i => can i && ready [i]
      | .error _ => false
    | _ => false
/-- The threads that stand at an entry. -/
def Core.atEntry (c : Core) (tm : Team) (e : PcEnt) : List Nat :=
  (List.range tm.threads.length).filter fun i => match tm.threads[i]? with
    | some t => t.stands && e.isAt tm.id t.crew t.pc.toNat && !(c.ovf.any fun o => o.isOf tm i t)
    | none => false
/-- An entry, or an overflow thread as an entry of its own age, as a candidate; none where its mask is zero. -/
def PcEnt.cand (e : PcEnt) (cr : Crew) : Option Cand :=
  e.since.map fun n => { held := false, prio := cr.rank, born := e.born, since := n, passed := e.passed }
/-- A released group as a candidate. -/
def heldCand (cr : Crew) : Cand := { held := true, prio := cr.rank, born := 0, since := 0, passed := 0 }
/-- The overflow threads that may go: the oldest of their lanes among those that could start (R62). -/
def State.overflowFirst (s : State) (core p : Nat) (c : Core) : List PcOver :=
  let could := c.ovf.filter fun o => match s.team? o.e.team with
    | some tm => s.couldStart tm p .ready false [o.thr] o.e.ca (o.e.crew == 7)
    | none => false
  let lane := fun (o : PcOver) => ((s.thr? o.e.team o.thr).map Thread.lane).getD core
  could.filter fun o => could.all fun q => lane q != lane o || o.e.born ≤ q.e.born
/-- The candidates for a pipe of a core that can start now (R61). -/
def State.cands (s : State) (core p : Nat) (c : Core) : List Cand :=
  let ents := c.pct.filterMap fun e => (s.team? e.team).bind fun tm => (tm.crew? e.crew).bind fun cr =>
    if s.couldStart tm p .ready false (c.atEntry tm e) e.ca (e.crew == 7) then e.cand cr else none
  let overs := (s.overflowFirst core p c).filterMap fun o => (s.team? o.e.team).bind fun tm => (tm.crew? o.e.crew).bind fun cr =>
    PcEnt.cand { o.e with since := some o.e.born } cr
  let helds := s.holds.filterMap fun h => (s.team? h.team).bind fun tm => (tm.crew? h.crew).bind fun cr =>
    if tm.core = core ∧ h.slot ∧ s.couldStart tm p .grouped true h.members h.ca.toNat (h.crew == 7) then some (heldCand cr) else none
  ents ++ overs ++ helds
/-- Where a candidate stands in the order of R61, `top` being the highest crew priority present; lower goes first. -/
def Cand.place (top : Nat) (d : Cand) : Nat × Nat :=
  if ¬ d.held ∧ 256 ≤ d.passed then (0, d.born)
  else if d.prio ≠ top then (3, 0)
  else if d.held then (1, 0) else (2, d.since)
/-- No candidate goes before this one (R61). -/
def Cand.isFirst (cs : List Cand) (d : Cand) : Bool :=
  let top := (d :: cs).foldl (fun m e => max m e.prio) 0
  cs.all fun e => let a := e.place top; let b := d.place top; !(a.1 < b.1 || (a.1 == b.1 && a.2 < b.2))

/-- What the former chooses: threads of a crew that stand at a clause address, or a released group. -/
def State.chosenCand (c : Core) (tm : Team) (cr : Crew) (ms : List Nat) (ca : Nat) (held : Bool) : Option Cand :=
  if held then some (heldCand cr) else
  match c.ovf.find? fun o => o.e.isAt tm.id cr.num ca && ms.contains o.thr with
  | some o => if ms.length = 1 then PcEnt.cand { o.e with since := some o.e.born } cr else none
  | none => (c.pct.find? fun e => e.isAt tm.id cr.num ca).bind fun e => e.cand cr
/-- The clauses that have started in this cc on the pipes of a kind. -/
def Core.startsNow (c : Core) (p : Nat) : Nat := (c.starts.filter fun q => q.1 == p && q.2 == c.cc).length
/-- The former may start this clause now (R38, R61): its pipes are free at its times, fewer clauses have started on them in
this cc than they take, and no other candidate goes before it. The core's PC table is `formed`. -/
def State.mayStart (s : State) (tm : Team) (cr : Crew) (ms : List Nat) (ca : Nat) (h : DWord) (ws : List DWord) (held : Bool) : Bool :=
  match s.cores[tm.core]? with
  | none => false
  | some c =>
    let p := pipeOf (hdrClass h)
    s.pipesFree tm.core (s.firstWordAt tm ms ws) ws && decide (c.startsNow p < pipeRoom p) &&
      match State.chosenCand c tm cr ms ca held with
      | some d => d.isFirst (s.cands tm.core p c)
      | none => false

/-- The entry was passed over in a cc (R61). -/
def PcEnt.passOver (cc : Nat) (e : PcEnt) : PcEnt :=
  if e.last = cc + 1 then e else { e with passed := e.passed + 1, last := cc + 1 }
/-- A clause starts on a pipe: what could have started there and was not chosen is passed over, and what was chosen is not
passed over any more (R61). -/
def State.noteStart (s : State) (tm : Team) (crew : Nat) (ms : List Nat) (ca p : Nat) (held : Bool) : State :=
  { s with cores := ((List.range s.cores.length).zip s.cores).map fun q =>
      if q.1 ≠ tm.core then q.2 else
      let c := q.2
      let mark := fun (e : PcEnt) (is : List Nat) (mine : Bool) =>
        if mine then { e with passed := 0, last := 0 }
        else match s.team? e.team with
          | some u => if s.couldStart u p .ready false is e.ca (e.crew == 7) then e.passOver c.cc else e
          | none => e
      { c with
        starts := (c.starts.filter fun r => r.2 == c.cc) ++ [(p, c.cc)]
        pct := c.pct.map fun e =>
          let own := !held && e.isAt tm.id crew ca && !(c.ovf.any fun o => o.e.isAt tm.id crew ca && ms.contains o.thr)
          mark e (match s.team? e.team with | some u => c.atEntry u e | none => []) own
        ovf := c.ovf.map fun o => { o with e := mark o.e [o.thr] (!held && o.e.isAt tm.id crew ca && ms.contains o.thr) } } }

end Sys2Proof.Machine
end

