-- ==== Sys2Proof/Machine/Clause.lean ====
section
/-! DEFINITION. Clauses: the start of a clause by an issue group (R27 to R35, R38, R42, R51, R60, R67), the issue of its
words in their cc (R38, R39), its end, and the taking of a late fault (R360). -/

namespace Sys2Proof.Machine
open Sys2Proof

/-- A fetch fault of a clause for one thread (R51, R358): FWORD is the header where it was fetched. -/
def State.clauseFetchFault (s : State) (id i : Nat) (ca : DWord) (a : Nat) (hdr : Option DWord) : FRes → State
  | .ok _ => s
  | .viol n =>
    match s.team? id, s.thr? id i with
    | some tm, some t =>
      (s.logViol tm.asid (threadEnt tm t 0 a ca.toNat n 0 0)).raiseAt id i 4 n a (hdr.getD 0) ca 0
    | _, _ => s
  | .absent => s.raiseAt id i 32 1 a (hdr.getD 0) ca 2
  | .poison => s.raiseAt id i 7 1 a (hdr.getD 0) ca 0

/-- The thread begins to issue the clause: REC, LASTORD, and its fall-through as the next clause (R27, R31, R32). -/
def Thread.begin (ca h : DWord) (t : Thread) : Thread :=
  { t with
    sys := { t.sys with
      region := if hdrRegion h then ca else t.sys.region
      lastord := if hdrStop h then BitVec.ofNat 32 (hdrOrd h) else t.sys.lastord }
    pc := fallOf ca h, must := none, status := .issuing, hdrWait := false
    dbg := { t.dbg with stepped := t.dbg.stepping } }

/-- The members that begin, each with the WAKER code of a header wait that ended (R42, R74). -/
def State.beginAll (s : State) (id : Nat) (ca h : DWord) (ms : List Nat) : State :=
  ms.foldl (fun s i =>
    let s1 := match s.thr? id i with
      | some t => if t.hdrWait then s.wake id i 8 else s
      | none => s
    s1.modThr id i (Thread.begin ca h)) s

/-- Each member takes an illegal-clause fault or begins (R33, R35). -/
def State.decodeClause (s : State) (tm : Team) (crew : Nat) (ca h : DWord) (ws : List DWord) (ms : List Nat)
    (held : Bool) : State :=
  let must := fun i => match tm.threads[i]? with | some t => t.must == some ca | none => false
  let s1 := ms.foldl (fun s i => match clauseCause h ws (must i) with
    | some n => s.raiseAt tm.id i 1 n ca.toNat h ca 0
    | none => s) s
  let go := ms.filter fun i => (clauseCause h ws (must i)).isNone
  if go.isEmpty then s1 else
  let t0 := s1.firstWordAt tm go ws
  let s2 := s1.beginAll tm.id ca h go
  { s2 with
    nextId := s2.nextId + 1
    issues := s2.issues ++ [{ id := s2.nextId, team := tm.id, crew := crew, ca := ca, hdr := h, words := ws, idx := 0
                              now := 0, t0 := t0, members := go, stalled := [], held := held, late := false }] }

/-- A clause starts for a group that may begin: fetched whole, then decoded (R51), in the order of R61. DESIGN CHOICE (log
116): a fetch fault is taken before the header's WAIT is tested. -/
def State.startClause (s : State) (cx : Context) (tm : Team) (cr : Crew) (ms : List Nat) (ca : DWord) (held : Bool) :
    State :=
  let crew := cr.num
  let sys := crew == 7
  match s.fetchWord cx tm.core ca.toNat sys with
  | .ok h =>
    match s.fetchClause cx tm.core (ca.toNat + 8) sys (hdrCnt h + 1) with
    | .error (a, r) => ms.foldl (fun s i => s.clauseFetchFault tm.id i ca a (some h) r) s
    | .ok ws =>
      let ts := ms.filterMap fun i => tm.threads[i]?
      if ¬ ts.all fun t => s.headerOk tm h ws t then s
      else if ¬ ts.all fun t => t.waitMet h then
        ms.foldl (fun s i => s.modThr tm.id i fun t => if t.waitMet h then t else { t with hdrWait := true }) s
      else if (clauseCause h ws false).isNone ∧ ¬ s.mayStart tm cr ms ca.toNat h ws held then s
      else
        let s0 := if (clauseCause h ws false).isNone then s.noteStart tm crew ms ca.toNat (pipeOf (hdrClass h)) held else s
        let s1 := (s0.fillLine cx tm.core tm.lot ca.toNat sys).fillLine cx tm.core tm.lot (ca.toNat + 8 * (hdrCnt h + 1)) sys
        s1.decodeClause tm crew ca h ws ms held
  | r => ms.foldl (fun s i => s.clauseFetchFault tm.id i ca ca.toNat none r) s

/-- The released group with exactly these members that holds a slot (R67). -/
def State.heldGroup (s : State) (id : Nat) (ms : List Nat) : Option Hold :=
  s.holds.find? fun h => h.slot && h.team == id && h.members == ms

/-- CLAUSE_ISSUE: an issue group, or a held group, starts its clause (R60, R61, R67). -/
def execClauseIssue (o : ClauseIssueOp) (s : State) : Out :=
  let s := s.formed
  match s.team? o.team with
  | none => .next s
  | some tm =>
    match s.ctx? tm.asid, tm.crew? o.crew.val, o.members.head?.bind fun i => tm.threads[i]? with
    | some cx, some cr, some t0 =>
      if cx.status.toNat % 4 ≠ 0 then .next s else
      if groupOk tm o.crew.val o.members .ready t0.pc then .next (s.startClause cx tm cr o.members t0.pc false)
      else if (s.heldGroup tm.id o.members).isSome ∧ groupOk tm o.crew.val o.members .grouped t0.pc then
        .next (s.startClause cx tm cr o.members t0.pc true)
      else .next s
    | _, _, _ => .next s

/-! ### The words of a clause -/

/-- CCOUNT of the core on which a clause issues. -/
def State.issueCc (s : State) (x : Issue) : Nat := match s.team? x.team with | some tm => s.coreCc tm.core | none => 0
/-- The cc until the word in hand of a clause is to issue; none are left for a word that waited before issue. -/
def State.dueIn (s : State) (x : Issue) : Nat := x.t0 + x.nextNow - s.issueCc x
/-- No clause in issue has a word that is to issue before n cc have passed. -/
def State.mayPass (s : State) (n : Nat) : Bool := s.issues.all fun x => !x.stalled.isEmpty || decide (n ≤ s.dueIn x)

/-- The k-th clause in issue comes first; its word's cc is now. -/
def State.prepare (s : State) (k : Nat) (late : Bool) : State :=
  match s.issues[k]? with
  | none => s
  | some x =>
    let y := { x with now := max x.nextNow (s.issueCc x - x.t0), late := late }
    let s1 := { s with issues := y :: s.issues.eraseIdx k }
    if isOneShot y.word then
      y.members.foldl (fun s i => s.modThr y.team i fun t => { t with must := some y.fall }) s1
    else s1

/-- The thread still issued its clause to the end, or its JOIN has taken it from there (R42, R81). -/
def TStat.endsClause : TStat → Bool
  | .issuing | .joined _ | .grouped => true
  | _ => false
/-- The end of a clause for a member: under DRAIN it parks until it has drained (R42). -/
def State.endMember (s : State) (x : Issue) (i : Nat) : State :=
  let s1 := { s.commitEnd x.team i with nextId := s.nextId + 1 }
  s1.modThr x.team i fun t =>
    { t with
      status := if t.status = .issuing then .ready else t.status
      waits := if hdrDrain x.hdr ∧ ¬ t.drained ∧ t.status.endsClause then t.waits ++ [drainWait s.nextId] else t.waits }

/-- The clause leaves issue; a held group leaves its slot (R67). -/
def State.finishClause (s : State) (x : Issue) : State :=
  let s0 : State := { s with issues := s.issues.drop 1 }
  let s1 := x.members.foldl (fun s i => s.endMember x i) s0
  if x.held then
    { s1 with holds := s1.holds.filter fun h => !(h.slot && h.team == x.team && h.crew == x.crew && h.ca == x.ca &&
        h.members.all fun i => x.members.contains i) }
  else s1

/-- After the word in hand of clause `id`: a stalled word stays in hand; else the next word, or the end of the clause. A
clause that a termination has ended is gone (R368). -/
def State.advance (s : State) (id : Nat) : State :=
  match s.issues with
  | [] => s
  | x :: rest =>
    if x.id ≠ id ∨ ¬ x.stalled.isEmpty then s
    else if x.members.isEmpty ∨ x.words.length ≤ x.idx + 1 then s.finishClause x
    else { s with issues := { x with idx := x.idx + 1 } :: rest }

/-! ### Late faults -/

/-- LATE_FAULT_TAKEN: at a clause boundary, once every flagged instruction has completed or reported (R360). -/
def execLateFaultTaken (o : ThRef) (s : State) : Out :=
  match s.thr? o.team o.thr with
  | none => .next s
  | some t =>
    if (t.status = .ready ∨ t.status = .faulting ∨ t.status = .grouped) ∧ ¬ t.late.isEmpty ∧ t.reported then
      .next ((s.leaveGroup o.team o.thr).takeLate o.team o.thr)
    else .next s

end Sys2Proof.Machine
end

