-- ==== Sys2Proof/Machine/Access.lean ====
section
/-! DEFINITION. Accesses of threads: effective addresses and bounds (R136 to R138), their checks (R141 to R143, R162,
R163), the L1 data cache and checked-out lines (R146, R147, R177), and the performing of loads, stores and plain atomics
(R151, R152, R166 to R168, R180 to R183). -/

namespace Sys2Proof.Machine
open Sys2Proof

/-- SPACE of the violation log (R164). -/
def spaceNum : Space → Nat
  | .mem => 0
  | .lane => 1
  | .core => 2
  | .band => 3
  | .chip => 4
/-- The effective address (R136). -/
def effAddr (sp : Space) (base : Nat) (off : BitVec 18) : Nat :=
  (base + (off.signExtend 64).toNat) % 2 ^ (if isMem sp then 64 else 32)
/-- The source of a poison fault (R375). -/
def poisonCause (key : Nat) : Nat := if key < 2 ^ 40 then 1 else if key < 2 ^ 48 then 5 else 3

/-- The team of a band of a span (R137, R138). -/
def State.teamAt (s : State) (tm : Team) (band ix : Nat) : Option Team :=
  s.teams.find? fun u => u.span == tm.span && u.bandIx == band && u.teamIx == ix

/-- The key of a scratchpad address, or the code of the violation (R136 to R138, R163). -/
def State.scratchKey (s : State) (tm : Team) (thr : Nat) (sp : Space) (a : Nat) : Except Nat Nat :=
  match sp with
  | .mem => .error 6
  | .lane => if a < tm.lanesz then .ok (laneKey tm.id thr a) else .error 6
  | .core => if a < tm.coresh then .ok (coreKey tm.id a) else .error 6
  | .band =>
    if tm.bshare = 0 then .error 6 else
    match s.teamAt tm tm.bandIx (a / tm.bshare) with
    | some u => .ok (bandKey u.id (a % tm.bshare))
    | none => .error 6
  | .chip =>
    if a < 2 ^ 31 then
      match s.ctx? tm.asid with
      | some c => if a < c.r.chipsz then .ok (chipKey (c.r.chipbase + a)) else .error 6
      | none => .error 6
    else
      match s.teamAt tm (bits a 30 24 / 8) (bits a 30 24 % 8) with
      | some u => if a % 2 ^ 22 < u.coresh ∧ bits a 23 22 = 0 then .ok (coreKey u.id (a % 2 ^ 22)) else .error 7
      | none => .error 7

/-- The result of checking a thread's access. -/
inductive ARes where
  | ok (key : Nat)
  | peer (k a : Nat)
  | viol (code : Nat)
  | absent
  deriving DecidableEq, Repr

/-- The checks of an access in the order of R163. -/
def State.resolve (s : State) (tm : Team) (thr : Nat) (sys : Bool) (sp : Space) (ea w : Nat) (k : AccKind) : ARes :=
  if isMem sp then
    if 2 ^ 57 ≤ ea then .viol 5
    else if ea % w ≠ 0 then .viol 8
    else match s.ctx? tm.asid with
      | none => .viol 1
      | some c =>
        if 2 ^ 49 ≤ ea then
          (if (s.peerEntry c (ea / 2 ^ 49)).isSome then .peer (ea / 2 ^ 49) (ea % 2 ^ 49) else .viol 10)
        else match s.xlate c (some (clusterOf tm.core)) ea k sys with
          | .ok pa => .ok pa
          | .viol n => .viol n
          | .absent => .absent
  else if ea % w ≠ 0 then .viol 8
  else match s.scratchKey tm thr sp ea, s.scratchKey tm thr sp (ea + w - 1) with
    | .ok key, .ok _ => .ok key
    | .error n, _ => .viol n
    | _, .error n => .viol n

/-- A fault of the word in hand that is reported after issue (R360, R442). -/
def State.reportIssue (s : State) (x : Issue) (j kind cause addr : Nat) (svc : Nat := 0) : State :=
  match s.thr? x.team j with
  | none => s
  | some t =>
    { s with nextId := s.nextId + 1 }.reportLate x.team j
      { id := s.nextId, r := t.mkRec kind cause (BitVec.ofNat 64 addr) x.word, iaddr := x.iaddr, svc := svc }
/-- A violation of the word in hand that is reported after issue: logged, then reported (R162). -/
def State.violateIssue (s : State) (x : Issue) (j code addr space : Nat) (agent : Nat := 0) : State :=
  match s.team? x.team, s.thr? x.team j with
  | some tm, some t =>
    (s.logViol tm.asid (threadEnt tm t x.op addr x.iaddr.toNat code space agent)).reportIssue x j 6 code addr
  | _, _ => s

/-- The note a cone takes of an event of the word in hand (R390). -/
def Issue.note (x : Issue) (t : Thread) (ev : ConeEv) : ConeNote :=
  { ev := ev, op := x.op, iaddr := x.iaddr, ord := t.sys.lastord }
/-- An event of the word in hand evaluated at issue (R389). -/
def State.observeIssue (s : State) (x : Issue) (j : Nat) (t : Thread) : Option ConeEv → State
  | some e => s.observe x.team j (x.note t e)
  | none => s

/-- An access as its instruction issues it: its checks' result, `svc` the KIND of its page-service request (R364), and
whether its violation may be reported after issue (R162). -/
structure Acc where
  sp : Space
  ea : Nat
  len : Nat
  r : ARes
  svc : Nat
  late : Bool := false
  deriving DecidableEq, Repr

/-- The access of w bytes of a thread, checked (R162, R163). -/
def State.checked (s : State) (x : Issue) (j : Nat) (sp : Space) (ea w : Nat) (k : AccKind) (svc : Nat)
    (late : Bool := false) : Acc :=
  let r := match s.team? x.team with
    | some tm => s.resolve tm j (x.crew == 7) sp ea w k
    | none => .viol 1
  { sp := sp, ea := ea, len := w, r := r, svc := svc, late := late }

/-- A flagged access goes in flight (R41), or faults (R162, R360). `onViol` writes the poison pattern of R162; `evs`
are what cones see at issue. -/
def State.access (s : State) (x : Issue) (t : Thread) (j : Nat) (i : Instr) (a : Acc) (vals : List Nat)
    (onViol : State → State) (evs : List ConeEv) (f : Op → Op := id) : State :=
  match s.team? x.team with
  | none => s
  | some tm =>
    let s := if isMem a.sp then s.sampleMem tm.core tm.asid t.who a.ea else s
    let go := fun key rt => (evs.foldl (fun s e => s.observeIssue x j t (some e)) s).pushOp x j i vals
      fun o => f { o with key := key, len := a.len, route := rt }
    match a.r with
    | .viol n =>
      if a.late ∧ x.late ∧ isMem a.sp then s.violateIssue x j n a.ea (spaceNum a.sp)
      else (onViol s).violate x j n a.ea (spaceNum a.sp)
    | .absent => s.reportIssue x j 32 0 a.ea a.svc
    | .ok key => go key none
    | .peer k ad => go (peerKey k ad) (s.route tm.asid (peerKey k ad))

/-- The poison pattern to registers of a faulting access (R162); `ev` is what cones see of it (R389). -/
def State.poisonDst (s : State) (x : Issue) (j : Nat) (ds : List Nat) (ev : Option ConeEv) : State :=
  s.modThr x.team j fun t =>
    t.pushRes x {} 1 { v := ds.map fun d => (d, BitVec.ofNat 32 poisonWord), ev := ev }

/-- The result of a waiting instruction whose condition was met as it issued: later instructions of its clause read the
previous contents, so it is written at the clause's end (R201). -/
def State.resAtEnd (s : State) (x : Issue) (j : Nat) (r : Res) : State :=
  s.modThr x.team j fun t => { t with wb := t.wb ++ [{ due := endDue, v := r.v, p := r.p, fx := r.fx }] }
/-- A predicate result; 7 writes none. -/
def pRes (p : PReg) (b : Bool) : Res := if p.val = 7 then {} else { p := some (p.val, b) }

/-- Whether a key stands for a peer's bytes. -/
def isPeer (key : Nat) : Bool := 2 ^ 120 ≤ key

/-! ### L1 -/

/-- A thread's own line or, for an invariant load, the line its lot keeps (R147). -/
def State.l1Find (s : State) (core line : Nat) (inv : Option Nat) : Option L1Line :=
  s.l1.find? fun l => l.core == core && l.line == line && l.inv == inv
/-- A line leaves the L1 of a core. -/
def State.l1Drop (s : State) (core line : Nat) : State :=
  { s with l1 := s.l1.filter fun l => !(l.core == core && l.line == line) }
/-- The lines that n bytes touch leave the L1 of a core. -/
def State.l1DropRange (s : State) (core key n : Nat) : State :=
  (unitsOf 128 key n).foldl (fun s l => s.l1Drop core (l / 128)) s
/-- The self-invalidation of an acquire: every line but those of invariant loads (R154). -/
def State.l1Acquire (s : State) (core : Nat) : State :=
  { s with l1 := s.l1.filter fun l => !(l.core == core && l.inv.isNone) }
/-- A store updates the line in the L1 of its core where it is present (R146). -/
def State.l1Update (s : State) (core key : Nat) (bs : List Byte) : State :=
  { s with
    l1 := s.l1.map fun l =>
      if l.core = core ∧ l.line = key / 128 then
        { l with data := l.data.take (key % 128) ++ bs ++ l.data.drop (key % 128 + bs.length) }
      else l }

def overlap (a n b m : Nat) : Bool := decide (a < b + m) && decide (b < a + n)
def isStore : Instr → Bool
  | .st .. | .stt .. => true
  | _ => false
/-- An operation accesses some of n bytes at a key: at its own key, or with the further pieces of a record (R152, R324). -/
def Op.meets (q : Op) (key n : Nat) : Bool := overlap key n q.key q.len || q.spans.any fun p => overlap key n p.1 p.2

/-- The stores of a core not yet performed that overlap n bytes at a key. -/
def State.coreStores (s : State) (core key n : Nat) : List Op :=
  (s.teams.filter fun tm => tm.core == core).flatMap fun tm => tm.threads.flatMap fun t =>
    t.pend.filter fun o => isStore o.i && o.res.isNone && overlap key n o.key o.len
/-- Those of them whose bytes a load has returned from L1: a later load of the core does not pass them (R152). -/
def State.markSeen (s : State) (core key n : Nat) : State :=
  { s with
    teams := s.teams.map fun tm =>
      if tm.core = core then
        { tm with threads := tm.threads.map fun t =>
            { t with pend := t.pend.map fun o =>
                if isStore o.i ∧ o.res.isNone ∧ overlap key n o.key o.len then { o with waited := true } else o } }
      else tm }

/-- The lines of an L1 data cache of 256 KiB (R14). -/
def l1Lines : Nat := 2048
/-- A line filled into the L1 of a core from its home, in place of an older copy (R146); not where the line holds
poison or a store of the core to it is still to perform. A full cache loses a line (R14): DESIGN CHOICE, log 6, for which. -/
def State.l1Fill (s : State) (core line : Nat) (inv : Option Nat) (alloc : Bool) : State :=
  let s1 := { s with l1 := s.l1.filter fun l => !(l.core == core && l.line == line && l.inv == inv) }
  if alloc ∧ ¬ s.poisoned (line * 128) 128 ∧ (s.coreStores core (line * 128) 128).isEmpty then
    let kept := makeRoom l1Lines (fun k => Config.freeBit s.tick (2 ^ 68 + k)) (fun l => l.core == core) (fun _ => true) s1.l1
    { s1 with l1 := kept ++ [⟨core, line, inv, s.bytes (line * 128) 128⟩] }
  else s1

/-- The checkout of a line to a core (R177). -/
def State.checkedOut (s : State) (core line : Nat) : Bool :=
  s.checkouts.any fun c => c.core == core && c.line == line

/-- A request of a core for n bytes at a key recalls their lines, but for one checked out to the core itself (R177). -/
def State.recallFor (s : State) (core key n : Nat) : State :=
  s.returnLines fun c => c.touches key n && c.core != core

/-- What a line held since a lot began and an invariant load of the lot returns in place of its present bytes, by free bits
(R11, R147): nothing where no agent has written the line since then. DESIGN CHOICE (log 126). -/
def State.pastLine (s : State) (lot line : Nat) : Option (List Byte) :=
  match s.teams.find? fun tm => tm.lot == lot with
  | none => none
  | some tm =>
    let olds := s.past.filter fun e => e.line == line && decide (tm.began ≤ e.step)
    ((List.range olds.length).find? fun k => Config.freeBit s.tick (2 ^ 72 + k)).bind fun k => olds[k]?.map fun e => e.data

/-- A load of attached memory by a core: an invariant one may return what the line held earlier in its lot (R147); else from
L1 where it hits and the home copy is not chosen, else from the home slice (R146, R147, R166). None while it must wait; no bytes where the unit is poisoned. `clear`: no earlier access of the thread
to the bytes is still to perform; `hitOk`: none but stores, whose bytes L1 has. -/
def State.memLoad (s : State) (core key w : Nat) (inv : Option Nat) (bypass fresh clear hitOk : Bool) :
    Option (State × Option (List Byte)) :=
  let line := key / 128
  match inv.bind fun lot => s.pastLine lot line with
  | some bs => some (s, some ((bs.drop (key % 128)).take w))
  | none =>
  let own := s.checkedOut core line
  let hit := if own then none else
    match inv with
    | some lot => (s.l1Find core line (some lot)).or (s.l1Find core line none)
    | none => s.l1Find core line none
  let pend := s.coreStores core key w
  match hit.filter fun _ => hitOk && (!fresh || !pend.isEmpty) with
  | some l => some (s.markSeen core key w, some ((l.data.drop (key % 128)).take w))
  | none =>
    if ¬ clear ∨ pend.any (fun o => o.waited) then none
    else
      let s := s.recallFor core key w
      if s.poisoned key w then some (s, none)
      else some (s.l1Fill core line inv (!bypass && !own), some (s.bytes key w))

/-! ### Performing -/

/-- The full-empty instructions change no byte. -/
def isFeOp : Instr → Bool
  | .feset .. | .feclr .. => true
  | _ => false
/-- A load that waits for a full granule does not hold back later writes (R150). -/
def waitsFull : Instr → Bool
  | .ld _ o => o.feq != .ignore
  | _ => false
def isLoad : Instr → Bool
  | .ld .. | .xread .. | .glzq .. => true
  | _ => false
/-- No earlier access of the thread to overlapping bytes is still to perform (R152). DESIGN CHOICE (log 132): an access that is no
load passes the thread's own load that waits for a full granule. -/
def Thread.orderClear (t : Thread) (o : Op) : Bool :=
  t.pend.all fun q => !(q.id < o.id && q.res.isNone && !isFeOp q.i && q.meets o.key o.len) ||
    (waitsFull q.i && !isLoad o.i)

/-- No earlier access of the thread to overlapping bytes but a store is still to perform: a load that hits in L1 does not
pass an earlier load or atomic (R152). -/
def Thread.hitClear (t : Thread) (o : Op) : Bool :=
  t.pend.all fun q => !(q.id < o.id && q.res.isNone && !isFeOp q.i && !isStore q.i && q.meets o.key o.len)

/-- The operation has performed: the registers it will write. -/
def State.performed (s : State) (tm i : Nat) (o : Op) (ws : List (Nat × Word)) : State :=
  s.modOp tm i o.id fun q => { q with res := some ws }
/-- The operation meets poison: its destination takes the poison pattern, and the fault is reported (R161, R166). -/
def State.poisonOp (s : State) (tm i : Nat) (o : Op) (dst : List Nat) (addr : Nat) : State :=
  (s.modThr tm i fun t => t.opWrites s.tick o (dst.map fun r => (r, BitVec.ofNat 32 poisonWord))).failOp tm i o 7
    (poisonCause o.key) addr
/-- What cones see of a load's value (R385). -/
def loadEv (sp : Space) (ea w v : Nat) : ConeEv := .mem 0 (some (spaceNum sp)) ea (ea + w - 1) (some (v, w))
/-- The poison pattern of a load, both words of a pair (R162). -/
def poisonVal (w : Nat) : Nat := if w = 8 then poisonWord + 2 ^ 32 * poisonWord else poisonWord

/-- A load that takes the poison pattern of a violation shows it to the cones (R389). -/
def State.observePoison (s : State) (tm i : Nat) (o : Op) (addr : Nat) : State :=
  match o.i with
  | .ld _ q => s.observe tm i
      { ev := loadEv q.space addr o.len (poisonVal o.len), op := o.word.toNat / 2 ^ 56, iaddr := o.iaddr, ord := o.ord }
  | _ => s
/-- The peer answers with an error: a violation with code 11 (R163, R432). -/
def State.peerError (s : State) (tm i : Nat) (o : Op) (dst : List Nat) (addr : Nat) : State :=
  ((s.modThr tm i fun t => t.opWrites s.tick o (dst.map fun r => (r, BitVec.ofNat 32 poisonWord))).observePoison tm i o
    addr).violateLate tm i o 11 addr 0

/-- The writes of the value of a load (R166): w bytes, zero-extended to 32 bits or a pair. -/
def loadWrites (d w v : Nat) : List (Nat × Word) := vPut (w == 8) d v

/-- The address of an operation, kept as its first value. -/
def Op.ea (o : Op) : Nat := o.vals.getD 0 0

/-- The result of a fixed-latency load takes its value, with what cones see of it. -/
def Wb.fill (id : Nat) (ws : List (Nat × Word)) (n : Option ConeNote) (e : Wb) : Wb :=
  if e.ld = some id then
    { e with ld := none, note := n, v := e.v.map fun w => (w.1, match ws.find? fun x => x.1 == w.1 with | some x => x.2 | none => w.2) }
  else e
/-- A fixed-latency load reads its bytes at some moment before its result is written (R152, R153, R165): the result in flight
takes them, and nothing is left to perform. -/
def State.performFixed (s : State) (tm : Team) (i : Nat) (t : Thread) (l : LdOp) (o : Op) : State :=
  let fill := fun (s : State) (ws : List (Nat × Word)) (n : Option ConeNote) =>
    s.modThr tm.id i fun t => { t with wb := t.wb.map (Wb.fill o.id ws n) }
  if ¬ t.orderClear o then s
  else if s.poisoned o.key o.len then
    (fill s ((vreg2 (o.len == 8) l.data).map fun r => (r, BitVec.ofNat 32 poisonWord)) none).poisonOp tm.id i o [] o.ea
  else
    let v := s.read o.key o.len
    (fill s (loadWrites l.data.val o.len v) (some
      { ev := loadEv l.space o.ea o.len v, op := o.word.toNat / 2 ^ 56, iaddr := o.iaddr, ord := o.ord })).modThr tm.id i fun t => t.retire o

/-- LD performs (R149, R166). -/
def State.performLd (s : State) (tm : Team) (i : Nat) (t : Thread) (l : LdOp) (o : Op) (p : PerformOp) : State :=
  if ldFixed l then s.performFixed tm i t l o
  else if isPeer o.key then
    if ¬ t.orderClear o then s
    else if ¬ p.peerOk ∨ o.route.isNone then s.peerError tm.id i o o.dst o.ea
    else if p.peerBad then s.poisonOp tm.id i { o with key := 0 } o.dst o.ea
    else s.performed tm.id i o (loadWrites l.data.val o.len (leNat (p.peer.take o.len)))
  else if o.key < 2 ^ 40 then
    match s.memLoad tm.core o.key o.len (if l.inv then some tm.lot else none) (l.reuse.val == 7) p.fresh (t.orderClear o)
        (t.hitClear o) with
    | none => s
    | some (s1, some bs) => s1.performed tm.id i o (loadWrites l.data.val o.len (leNat bs))
    | some (s1, none) => s1.poisonOp tm.id i o o.dst o.ea
  else if ¬ t.orderClear o ∨ (l.feq ≠ .ignore ∧ ¬ s.fullAt o.key) then s
  else
    let s1 := if l.feq = .take then s.setFull o.key false else s
    if s.poisoned o.key o.len then s1.poisonOp tm.id i o o.dst o.ea
    else s1.performed tm.id i o (loadWrites l.data.val o.len (s.read o.key o.len))

/-- ST and STT perform at the order point (R148, R151, R167, R168): in the order of the core's overlapping stores. -/
def State.performSt (s : State) (tm : Team) (i : Nat) (t : Thread) (tag : Option VReg) (o : Op) (p : PerformOp) : State :=
  let bs := natLe o.len (o.vals.getD 1 0)
  let ws := fun (v : Nat) => match tag with | some d => vPut false d.val v | none => []
  if ¬ t.orderClear o ∨ (o.key < 2 ^ 40 ∧ (s.coreStores tm.core o.key o.len).any (fun q => q.id < o.id)) then s
  else if isPeer o.key then
    if p.peerOk ∧ o.route.isSome then
      (s.wakePeer tm.asid o.key o.len).performed tm.id i o (ws (leNat (p.peer.take 4)))
    else s.peerError tm.id i o [] o.ea
  else if 2 ^ 40 ≤ o.key ∧ o.key < 2 ^ 48 ∧ s.poisoned o.key o.len then s.failOp tm.id i o 7 5 o.ea
  else
    let s1 := s.store o.key bs
    s1.performed tm.id i o (ws (s1.tagAt o.key))

/-- The float type of an atomic's TYPE (R179). -/
def atomFt : AtomTy → Option FType
  | .f32 => some .f32
  | .f16x2 => some .f16x2
  | .bf16x2 => some .bf16x2
  | _ => none
/-- Op of R180. -/
def atomVal (fn : AtomFn) (ty : AtomTy) (m b : Nat) : Nat :=
  let n := if atWide ty then 64 else 32
  let sgn := ty == .i32 || ty == .i64
  match fn, atomFt ty with
  | .add, some f => (arithVal .add f .rne false false m b 0).1
  | .min, some f => (minMaxVal false f false m b).1
  | .max, some f => (minMaxVal true f false m b).1
  | .add, none => (m + b) % 2 ^ n
  | .min, none => ofSigned n (min (interp sgn n m) (interp sgn n b))
  | .max, none => ofSigned n (max (interp sgn n m) (interp sgn n b))
  | .and, _ => m &&& b
  | .or, _ => m ||| b
  | .xor, _ => m ^^^ b
  | .exch, _ => b

/-- A plain atomic performs its read and write as one step (R181 to R183): `f` gives the new value, or none where
nothing is written; `ret` the register for the old value. It performs at the core where its line is checked out there, else
at the home slice, which recalls the line first (R177); then the line leaves the L1 of the core. -/
def State.performAtom (s : State) (tm : Team) (i : Nat) (t : Thread) (ret : Option VReg) (f : Nat → Option Nat) (o : Op)
    (p : PerformOp) : State :=
  let ws := fun (v : Nat) => match ret with | some d => vPut (o.len == 8) d.val v | none => []
  if ¬ t.orderClear o then s
  else if isPeer o.key then
    if ¬ p.peerOk ∨ o.route.isNone then s.peerError tm.id i o o.dst o.ea
    else if p.peerBad then s.poisonOp tm.id i { o with key := 0 } o.dst o.ea
    else
      let m := leNat (p.peer.take o.len)
      (if (f m).isSome then s.wakePeer tm.asid o.key o.len else s).performed tm.id i o (ws m)
  else if (s.coreStores tm.core o.key o.len).any (fun q => q.waited) then s
  else
    let s1 := s.recallFor tm.core o.key o.len
    if s1.poisoned o.key o.len then s1.poisonOp tm.id i o o.dst o.ea else
    let m := s1.read o.key o.len
    let s2 := match f m with | some v => s1.write o.key (natLe o.len v) | none => s1
    let s3 := if isTagged o.key ∧ o.key < 2 ^ 40 then s2.l1Drop tm.core (o.key / 128) else s2
    s3.performed tm.id i o (ws m)

/-- The new value of ATOMCAS (R183). -/
def casVal (b c m : Nat) : Option Nat := if m = b then some c else none

/-- A store or plain atomic performs; nothing else does. -/
def State.performPlain (s : State) (tm : Team) (i : Nat) (t : Thread) (o : Op) (p : PerformOp) : State :=
  let b := o.vals.getD 1 0
  match o.i with
  | .st _ _ => s.performSt tm i t none o p
  | .stt _ q => s.performSt tm i t (some q.data) o p
  | .atom _ q => s.performAtom tm i t (some q.d) (fun m => some (atomVal q.fn q.ty m b)) o p
  | .red _ q => s.performAtom tm i t none (fun m => some (atomVal q.fn q.ty m b)) o p
  | .atomcas _ q => s.performAtom tm i t (some q.d) (casVal b (o.vals.getD 2 0)) o p
  | _ => s

end Sys2Proof.Machine
end

