-- ==== Sys2Proof/Machine/Atomics.lean ====
section
/-! DEFINITION. Meanings of the atomic class, chapter 07_atomics.md, but for glazes: plain atomics (R179 to R184), exact
accumulation (R185 to R191), and the checkout of lines (R177). -/

namespace Sys2Proof.Machine
open Sys2Proof

/-- What cones see of an atomic (R385). -/
def atomEv (sp : Space) (ea n : Nat) (val : Option (Nat × Nat)) : ConeEv :=
  .mem 2 (some (spaceNum sp)) ea (ea + n - 1) val

/-- A plain atomic issues (R181 to R183). -/
def plainAtom (i : Instr) (sp : Space) (a : Src) (w : Nat) (ret : Option VReg) (vals : List DWord → Thread → List Nat)
    (s : State) : Out :=
  runEach i (fun x cr t j s =>
    let ea := srcVal cr.k t (isMem sp) a
    let vs := vals cr.k t
    let ds := match ret with | some d => vreg2 (w == 8) d | none => []
    s.access x t j i (s.checked x j sp ea w .at 4) (ea :: vs) (fun s => s.poisonDst x j ds none)
      [atomEv sp ea w (some (vs.getLastD 0, w))]) s

/-- ATOM (R181). -/
def execAtom (c : Common) (o : AtomOp) (s : State) : Out :=
  plainAtom (.atom c o) o.space o.a (if atWide o.ty then 8 else 4) (some o.d) (fun k t => [srcVal k t (atWide o.ty) o.b]) s
/-- RED (R182). -/
def execRed (c : Common) (o : RedOpnd) (s : State) : Out :=
  plainAtom (.red c o) o.space o.a (if atWide o.ty then 8 else 4) none (fun k t => [srcVal k t (atWide o.ty) o.b]) s
/-- ATOMCAS (R183). -/
def execAtomcas (c : Common) (o : CasOp) (s : State) : Out :=
  plainAtom (.atomcas c o) o.space o.a (if o.wide then 8 else 4) (some o.d)
    (fun k t => [srcVal k t o.wide o.b, srcVal k t o.wide o.c]) s

/-- ATOMIC_AT_ORDER_POINT (R181): a pending plain atomic performs as one step. -/
def execAtomicAtOrderPoint (p : PerformOp) (s : State) : Out :=
  match s.team? p.team, s.thr? p.team p.thr, s.op? p.team p.thr p.id with
  | some tm, some t, some o =>
    .next (if o.res.isNone then
      match o.i with
      | .atom .. | .atomcas .. | .red .. => s.performPlain tm p.thr t o p
      | _ => s
    else s)
  | _, _, _ => .next s

/-- ORDER_POINT_WRITE (R151): a pending store performs. -/
def execOrderPointWrite (p : PerformOp) (s : State) : Out :=
  match s.team? p.team, s.thr? p.team p.thr, s.op? p.team p.thr p.id with
  | some tm, some t, some o =>
    .next (if o.res.isNone ∧ isStore o.i then s.performPlain tm p.thr t o p else s)
  | _, _, _ => .next s

/-- The lines checked out to a core. -/
def State.heldBy (s : State) (core : Nat) : List Checkout := s.checkouts.filter fun c => c.core == core
/-- An atomic of a core on a line waits to perform. -/
def State.atomPending (s : State) (core line : Nat) : Bool :=
  s.teams.any fun tm => tm.core == core && tm.threads.any fun t => t.pend.any fun o => o.res.isNone && o.key / 128 == line &&
    (match o.i with | .atom .. | .atomcas .. | .red .. => true | _ => false)

/-- LINE_CHECKOUT (R177): for a line of local `.mem` on which the core has an atomic to perform, at most 64 a core. -/
def execLineCheckout (o : LineOp) (s : State) : Out :=
  let line := o.pa / 128
  if o.pa < memBytes ∧ s.atomPending o.core.val line ∧ (s.heldBy o.core.val).length < 64 ∧ ¬ s.checkouts.any (fun c => c.line == line)
  then .next { (s.l1Drop o.core.val line) with checkouts := s.checkouts ++ [⟨o.core.val, line⟩] }
  else .next s
/-- LINE_RECALL (R177): the line's data, poison and tag are at the home slice again, and the core's monitors on it are lost
(R175). -/
def execLineRecall (o : LineOp) (s : State) : Out :=
  .next (s.returnLines fun c => c.core == o.core.val && c.line == o.pa / 128)

/-! ### Exact accumulation -/

/-- The checks of an access to a whole line or accumulator (R176, R188, R190, R198): `okOff` is the rule on the offset. -/
def State.checkedLine (s : State) (x : Issue) (j : Nat) (sp : Space) (ea : Nat) (okOff : Bool) (k : AccKind) (svc : Nat) : Acc :=
  let r :=
    if isMem sp ∧ 2 ^ 57 ≤ ea then ARes.viol 5
    else if ¬ okOff then .viol 8
    else if ¬ isMem sp ∧ 2 ^ 31 ≤ ea then .viol 7
    else if isMem sp ∧ 2 ^ 49 ≤ ea then .viol 10
    else (s.checked x j sp ea 1 k svc).r
  { sp := sp, ea := ea, len := 128, r := r, svc := svc }
/-- The operation covers the whole line of its address. -/
def Op.wholeLine (o : Op) : Op := { o with key := o.key / 128 * 128, len := 128 }

/-- The address names an accumulator (R188). -/
def accOff (ea : Nat) : Bool := ea % 128 == 0 || ea % 128 == 40 || ea % 128 == 80
def chipOr (chip : Bool) : Space := if chip then .chip else .mem

/-- The value of an accumulator in units of 2^-149 (R185). -/
def accValue (line : List Byte) (j : Nat) : Int := toSigned 320 (leNat ((line.drop (40 * j)).take 40))
/-- XST of a line (R186). -/
def lineXst (line : List Byte) : Nat := leNat (line.drop 120)
/-- The status bits an added value raises: NAN, PINF, NINF, OVF, SNAN (R186 to R188). -/
def xaddBits (v : FVal) (ovf : Bool) : Nat :=
  match v with
  | .nan sig => 1 + 16 * b2n sig
  | .inf false => 2
  | .inf true => 4
  | .fin .. => 8 * b2n ovf
/-- A finite value in units of 2^-149. -/
def xaddUnits : FVal → Int
  | .fin neg m e => (if neg then -1 else 1) * ((m * 2 ^ (e + 149).toNat : Nat) : Int)
  | _ => 0
/-- The formats of XADD (R188). -/
def xtyFmt : XTy → Fmt
  | .f32 => f32
  | .bf16 => bf16
  | .f16 => f16
/-- The line after XADD of a value to accumulator j (R187, R188). -/
def xaddLine (line : List Byte) (j : Nat) (v : FVal) : List Byte :=
  let sum := accValue line j + xaddUnits v
  let ovf := decide (sum < -(2 ^ 319 : Int) ∨ (2 ^ 319 : Int) ≤ sum)
  let st := lineXst line
  let adds := (bits st 55 24 + 1) % 2 ^ 32
  let st1 := (st ||| xaddBits v ovf * 2 ^ (8 * j)) % 2 ^ 24 + adds * 2 ^ 24 + bits st 63 56 * 2 ^ 56
  line.take (40 * j) ++ natLe 40 (ofSigned 320 sum) ++ (line.drop (40 * (j + 1))).take (80 - 40 * j) ++ natLe 8 st1

/-- XADD (R188). -/
def execXadd (c : Common) (o : XaddOp) (s : State) : Out :=
  runEach (.xadd c o) (fun x cr t j s =>
    let sp := chipOr o.chip
    let ea := srcVal cr.k t (isMem sp) o.a
    let w := if o.ty = .f32 then 4 else 2
    let b := srcVal cr.k t false o.b % 2 ^ (8 * w)
    let evs := [ConeEv.mem 2 (some (spaceNum sp)) ea (ea + 39) (some (b, w))] ++
      (if isNan (decodeF (xtyFmt o.ty) b) then [.exc 1 0] else [])
    s.access x t j (.xadd c o) (s.checkedLine x j sp ea (accOff ea) .at 4) [ea, b] id evs Op.wholeLine) s

/-- XREAD (R189). -/
def execXread (c : Common) (o : XreadOp) (s : State) : Out :=
  runEach (.xread c o) (fun x cr t j s =>
    let sp := chipOr o.chip
    let ea := srcVal cr.k t (isMem sp) o.a
    let w := if o.wide then 8 else 4
    let ev := loadEv sp ea w (poisonVal w)
    s.access x t j (.xread c o) (s.checkedLine x j sp ea (accOff ea) .rd 0) [ea]
      (fun s => s.poisonDst x j (vreg2 o.wide o.d) (some ev)) [] Op.wholeLine) s

/-- A clear issues (R190). -/
def clearOp (i : Instr) (o : XclrOp) (line : Bool) (s : State) : Out :=
  runEach i (fun x cr t j s =>
    let sp := chipOr o.chip
    let ea := srcVal cr.k t (isMem sp) o.a
    s.access x t j i (s.checkedLine x j sp ea (if line then ea % 128 == 0 else accOff ea) .at 4) [ea] id
      [.mem 2 (some (spaceNum sp)) ea (ea + (if line then 127 else 39)) none] Op.wholeLine) s
/-- XCLR (R190). -/
def execXclr (c : Common) (o : XclrOp) (s : State) : Out := clearOp (.xclr c o) o false s
/-- XCLR.line (R190). -/
def execXclrLine (c : Common) (o : XclrOp) (s : State) : Out := clearOp (.xclrLine c o) o true s

/-- The parts of a write that takes one tag (R148), each cleaning the poison of the units it covers (R161). -/
def State.storeParts (s : State) (line : Nat) (ps : List (Nat × List Byte)) : State :=
  let s0 := s.recall line 128
  let s1 := ps.foldl (fun s p => (s.put (line + p.1) p.2).cleanUnits (line + p.1) p.2.length) s0
  ((s1.bumpTags line 128).wakeMons line 128).voidDogs s0
/-- A write of the home slice to a line: the issuing core's L1 copy leaves with it (R146). -/
def State.slicePut (s : State) (core line : Nat) (ps : List (Nat × List Byte)) : State :=
  let s1 := s.storeParts line ps
  if line < 2 ^ 40 then s1.l1Drop core (line / 128) else s1

/-- The accumulator an operation names (R188). -/
def Op.acc (o : Op) : Nat := o.ea % 128 / 40

/-- XADD and XCLR perform at the slice, which recalls a checked-out line first (R177, R188, R190). DESIGN CHOICE (log 107): a
clear of a poisoned `.chip` accumulator or line writes and raises no fault, as a clear of `.mem` does. -/
def State.performX (s : State) (tm : Team) (i : Nat) (t : Thread) (o : Op) : State :=
  if ¬ t.orderClear o ∨ (s.coreStores tm.core o.key 128).any (fun q => q.waited) then s else
  let s := s.recall o.key 128
  match o.i with
  | .xadd _ q =>
    if s.poisoned o.key 128 then s.failOp tm.id i o 7 (poisonCause o.key) o.ea else
    let line := s.bytes o.key 128
    (s.slicePut tm.core o.key [(0, xaddLine line o.acc (decodeF (xtyFmt q.ty) (o.vals.getD 1 0)))]).performed tm.id i o []
  | .xclr .. =>
    (s.slicePut tm.core o.key [(40 * o.acc, List.replicate 40 0), (120 + o.acc, [0])]).performed tm.id i o []
  | .xclrLine .. => (s.slicePut tm.core o.key [(0, List.replicate 128 0)]).performed tm.id i o []
  | _ => s

/-- XADD_AT_SLICE (R188). -/
def execXaddAtSlice (p : PendRef) (s : State) : Out :=
  match s.team? p.team, s.thr? p.team p.thr, s.op? p.team p.thr p.id with
  | some tm, some t, some o => .next (if o.res.isNone then s.performX tm p.thr t o else s)
  | _, _, _ => .next s

/-- The result of XREAD: the rounded sum and its flags (R189). -/
def xreadVal (line : List Byte) (j : Nat) : Nat × Flags :=
  let st := lineXst line / 2 ^ (8 * j)
  if bit st 0 ∨ (bit st 1 ∧ bit st 2) then (0x7FC00000, nvFlag)
  else if bit st 1 then (infF f32 false, noFlags)
  else if bit st 2 then (infF f32 true, noFlags)
  else roundDyad f32 .rne false false ⟨accValue line j, -149⟩

/-- XREAD performs at the home slice as a load (R189). -/
def State.performXread (s : State) (tm : Team) (i : Nat) (t : Thread) (q : XreadOp) (o : Op) : State :=
  if ¬ t.orderClear o ∨ (s.coreStores tm.core o.key 128).any (fun q => q.waited) then s
  else
    let s := s.recall o.key 128
    if s.poisoned o.key 128 then s.poisonOp tm.id i o o.dst o.ea else
    let line := s.bytes o.key 128
    let r := xreadVal line o.acc
    let st := lineXst line / 2 ^ (8 * o.acc) % 256
    let s1 := if o.key < 2 ^ 40 then s.l1Drop tm.core (o.key / 128) else s
    s1.modOp tm.id i o.id fun u => { u with res := some (vPut q.wide q.d.val (r.1 + 2 ^ 32 * st)), fx := flagBits r.2 }

end Sys2Proof.Machine
end

