-- ==== Sys2Proof/Machine/Slice.lean ====
section
/-! DEFINITION. Slice instructions: the operand file of a glaze routine, the operations of R195 and the run of a routine
(R194 to R197). -/

namespace Sys2Proof.Machine
open Sys2Proof

/-- The operand file of R194; the request words are `m`. -/
structure SliceFile where
  l : List Nat
  m : List Nat
  h : List Nat := List.replicate 8 0
  o : List Nat := List.replicate 8 0
  nret : Nat
  deriving DecidableEq, Repr

/-- The word an operand code reads; none where it is not readable. -/
def SliceFile.get (f : SliceFile) (k : Nat) : Option Nat :=
  if k < 32 then some (f.l.getD k 0)
  else if k < 40 then f.m[k - 32]?
  else if k < 48 then some (f.h.getD (k - 40) 0)
  else if k < 56 then some (f.o.getD (k - 48) 0)
  else if k = 56 then some 0
  else none
/-- The file with a word written; none where the code is not writable. -/
def SliceFile.put (f : SliceFile) (k v : Nat) : Option SliceFile :=
  if k < 32 then some { f with l := f.l.set k v }
  else if k < 40 then none
  else if k < 48 then some { f with h := f.h.set (k - 40) v }
  else if k < 48 + min f.nret 8 then some { f with o := f.o.set (k - 48) v }
  else none

/-- How an operation uses an operand field. -/
inductive SUse where
  | reg | num | unused
  deriving DecidableEq, Repr

/-- The use of A, B and C by an operation and variant; none where R195 does not list them. -/
def sliceForm (op t : Nat) : Option (SUse × SUse × SUse) :=
  if op ∈ [1, 2, 3, 4, 5, 8] then (if t = 0 then some (.reg, .reg, .unused) else none)
  else if op ∈ [6, 7, 9, 14, 15] then (if t ≤ 1 then some (.reg, .reg, .unused) else none)
  else if op = 10 then (if t ≤ 2 then some (.reg, .reg, .num) else none)
  else if op = 11 then (if t = 0 then some (.reg, .reg, .reg) else none)
  else if op = 12 then (if t ≤ 1 then some (.reg, .num, .num) else none)
  else if op = 13 then
    (if t = 0 then some (.reg, .unused, .unused) else if t ≤ 2 then some (.num, .num, .num) else none)
  else if op = 16 then (if t ≤ 1 then some (.reg, .reg, .reg) else none)
  else none

/-- An unused field that is not zero. -/
def SUse.breach (u : SUse) (v : Nat) : Bool := u == .unused && v != 0
/-- The operand of a field. -/
def SliceFile.arg (f : SliceFile) : SUse → Nat → Option Nat
  | .reg, k => f.get k
  | _, k => some k

/-- The float type of a variant. -/
def sliceFt (t : Nat) : FType := if t = 0 then .f32 else .bf16x2
/-- The condition codes of LCMP. -/
def sliceCond : Nat → Cmp × FCmp
  | 0 => (.eq, .eq)
  | 1 => (.ne, .ne)
  | 2 => (.lt, .lt)
  | 3 => (.le, .le)
  | 4 => (.gt, .gt)
  | _ => (.ge, .ge)
/-- LEXT. -/
def sliceExt (sgn : Bool) (a p n : Nat) : Nat :=
  let k := min n (32 - p)
  let v := a / 2 ^ p % 2 ^ k
  if sgn then ofSigned 32 (toSigned k v) else v

/-- The result of an operation and whether it is a float invalid operation (R195): `imm` is bits 19:2, `old` the
destination before. -/
def sliceVal (op t a b c imm old : Nat) : Nat × Bool :=
  let i := fun x => interp (t == 0) 32 x
  match op with
  | 1 => ((a + b) % 2 ^ 32, false)
  | 2 => (ofSigned 32 ((a : Int) - b), false)
  | 3 => (a &&& b, false)
  | 4 => (a ||| b, false)
  | 5 => (a ^^^ b, false)
  | 6 => (ofSigned 32 (min (i a) (i b)), false)
  | 7 => (ofSigned 32 (max (i a) (i b)), false)
  | 8 => (a * 2 ^ (b % 32) % 2 ^ 32, false)
  | 9 => (if t = 0 then a / 2 ^ (b % 32) else ofSigned 32 (toSigned 32 a / (2 ^ (b % 32) : Nat)), false)
  | 10 =>
    if t = 2 then
      let r := fcmpVal .f32 (sliceCond c).2 false a b
      (b2n r.1, r.2.nv)
    else (b2n (cmpInt (sliceCond c).1 (i a) (i b)), false)
  | 11 => (if c ≠ 0 then a else b, false)
  | 12 => (sliceExt (t == 1) a b c, false)
  | 13 =>
    (if t = 0 then a
    else if t = 1 then ofSigned 32 (toSigned 18 imm)
    else old % 2 ^ 14 + imm * 2 ^ 14, false)
  | 14 => let r := arithVal .add (sliceFt t) .rne false false a b 0; (r.1, r.2.nv)
  | 15 => let r := arithVal .mul (sliceFt t) .rne false false a b 0; (r.1, r.2.nv)
  | _ => let r := arithVal .fma (sliceFt t) .rne false false a b c; (r.1, r.2.nv)

/-- One slice instruction: the file after it, or the fault code 36 to 38 (R197). -/
def sliceStep (trap : Bool) (f : SliceFile) (w : Nat) : Except Nat SliceFile :=
  let op := bits w 31 26
  let t := bits w 1 0
  let fa := bits w 19 14
  let fb := bits w 13 8
  let fc := bits w 7 2
  let d := bits w 25 20
  match sliceForm op t with
  | none => .error 36
  | some (ua, ub, uc) =>
    if ua.breach fa || ub.breach fb || uc.breach fc || (op == 10 && 5 < fc) then .error 36 else
    if op = 12 ∧ (31 < fb ∨ fc = 0 ∨ 32 < fc) then .error 37 else
    match f.arg ua fa, f.arg ub fb, f.arg uc fc, f.put d 0 with
    | some a, some b, some c, some _ =>
      let r := sliceVal op t a b c (bits w 19 2) ((f.get d).getD 0)
      if trap ∧ r.2 then .error 38 else
      match f.put d r.1 with
      | some g => .ok g
      | none => .error 37
    | _, _, _, _ => .error 37

/-- The instructions of a routine in order. -/
def sliceRun (trap : Bool) : List Nat → SliceFile → Except Nat SliceFile
  | [], f => .ok f
  | w :: ws, f => match sliceStep trap f w with
    | .ok g => sliceRun trap ws g
    | .error n => .error n

/-- The words of some bytes, little-endian. -/
def wordsOf (bs : List Byte) (n : Nat) : List Nat := (List.range n).map fun k => leNat ((bs.drop (4 * k)).take 4)

/-- A glaze-table entry (R192). -/
structure GlzRow where
  version : Nat
  len : Nat
  flags : Nat
  nreq : Nat
  nret : Nat
  code : List Nat
  deriving DecidableEq, Repr
/-- The entry whose bytes are given; bytes past the end read as zero. -/
def glzRow (bs : List Byte) : GlzRow where
  version := leNat (bs.take 2)
  len := leNat ((bs.drop 2).take 1)
  flags := leNat ((bs.drop 3).take 1)
  nreq := leNat ((bs.drop 4).take 1)
  nret := leNat ((bs.drop 5).take 1)
  code := wordsOf ((bs.drop 16).take 128) 32
/-- A field breaks its range or a reserved byte is not zero (R192). -/
def glzMalformed (bs : List Byte) : Bool :=
  let e := glzRow bs
  e.len == 0 || 32 < e.len || 4 ≤ e.flags || 8 < e.nreq || 8 < e.nret ||
    ((bs.drop 6).take 10).any (· != 0) || (bs.drop 144).any (· != 0)

/-- The checks of R197, steps 2 to 5, in their order: the code of the first that fails. -/
def glzCheck (bs : List Byte) (expver nreq nret : Nat) : Option Nat :=
  let e := glzRow bs
  if ¬ bit e.flags 0 then some 32
  else if expver ≠ 0 ∧ expver ≠ e.version then some 33
  else if glzMalformed bs then some 34
  else if nreq ≠ e.nreq ∨ nret ≠ e.nret then some 35
  else none

/-- A routine run on a line and request words (R196): the line's words and the returned words, or the fault code. -/
def glzRun (e : GlzRow) (line req : List Nat) : Except Nat (List Nat × List Nat) :=
  match sliceRun (bit e.flags 1) (e.code.take e.len) { l := line, m := req.take e.nreq, nret := e.nret } with
  | .ok f => .ok (f.l, f.o.take e.nret)
  | .error n => .error n

end Sys2Proof.Machine
end

