-- ==== Sys2Proof/Machine/Glaze.lean ====
section
/-! DEFINITION. Meanings of GLAZE, GLZINS and GLZQ and the run of a glaze at the home slice, chapter 07_atomics.md (R192
to R200). -/

namespace Sys2Proof.Machine
open Sys2Proof

/-! ### The glaze table and the glaze caches -/

/-- The result of fetching a table entry. -/
inductive GFetch where
  | ok (bs : List Byte)
  | viol (code : Nat)
  | absent
  | poison
  /-- A line of the entry is checked out: the fetch waits for its recall (R177). -/
  | held
  deriving DecidableEq, Repr

/-- The address of entry i of the context's table (R192). -/
def glzAddr (c : Context) (i : Nat) : Nat := c.r.gtb + 256 * i
/-- An entry read from the table (R193). -/
def State.glzTable (s : State) (tm : Team) (thr : Nat) (c : Context) (sys : Bool) (i : Nat) : GFetch :=
  match s.resolve tm thr sys .mem (glzAddr c i) 1 .rd with
  | .ok pa => if s.outAt pa 256 then .held else if s.poisoned pa 256 then .poison else .ok (s.bytes pa 256)
  | .peer _ _ => .viol 10
  | .viol n => .viol n
  | .absent => .absent
/-- The slice of a line: its home, or the slice of a chip segment (R145, R176; DESIGN CHOICE, log 131). -/
def sliceOf (c : Context) (key : Nat) : Nat :=
  if key < 2 ^ 40 then (Config.home c.r.seed (key / 128)).val else (key - 2 ^ 40) / 2 ^ 20 % 48
/-- The contents that word w of entry i at a physical address has held, and its table no longer does, since GLZINS last put it
or its context became live (R193). -/
def State.entryPast (s : State) (c : Context) (pa i w : Nat) : List (List Byte) :=
  let a := pa + 4 * w
  let since := max c.began (tabGet 0 s.glzSince (c.r.asid * 2 ^ 32 + i))
  (s.past.filter fun e => e.line == a / 128 && decide (since < e.step)).map fun e => (e.data.drop (a % 128)).take 4
/-- Bytes of which each 32-bit word is the present one or one of those it has held (R193). -/
def mixWords (bit : Nat → Nat → Bool) (new : List Byte) (olds : Nat → List (List Byte)) : List Byte :=
  (List.range (new.length / 4)).flatMap fun w =>
    match ((List.range (olds w).length).find? (bit w)).bind fun k => (olds w)[k]? with
    | some b => b
    | none => (new.drop (4 * w)).take 4
/-- The entry a slice's cache gives, or the table; where a store has changed the entry, a mixture of the words it has held. An
entry found well formed is kept, one of 512 of the slice (R193): DESIGN CHOICE, log 6, for the one that leaves a full cache. -/
def State.glzFetch (s : State) (tm : Team) (thr : Nat) (c : Context) (sys : Bool) (slice i : Nat) : State × GFetch :=
  let held := s.glazes.find? fun g => g.slice == slice && g.asid == c.r.asid && g.index == i
  match held.filter fun _ => Config.freeBit s.tick 3 with
  | some g => (s, .ok g.data)
  | none =>
    match s.glzTable tm thr c sys i, s.resolve tm thr sys .mem (glzAddr c i) 1 .rd with
    | .ok new, .ok pa =>
      let olds := fun w => ((held.toList.map fun g => (g.data.drop (4 * w)).take 4) ++ s.entryPast c pa i w).filter fun b => b.length == 4
      let bs := mixWords (fun w k => Config.freeBit s.tick (512 + w + 64 * k)) new olds
      let others := s.glazes.filter fun g => !(g.slice == slice && g.asid == c.r.asid && g.index == i)
      let kept := makeRoom 512 (fun k => Config.freeBit s.tick (2 ^ 70 + k)) (fun g => g.slice == slice) (fun _ => true) others
      ({ s with glazes := if glzMalformed bs then others else kept ++ [⟨slice, c.r.asid, i, bs.take 144⟩] }, .ok bs)
    | r, _ => (s, r)
/-- Every slice drops its entries of a context and index (R199). -/
def State.glzDrop (s : State) (asid i : Nat) : State :=
  { s with glazes := s.glazes.filter fun g => !(g.asid == asid && g.index == i) }
/-- GLZINS has put an entry: it holds one content again (R193). -/
def State.glzPut (s : State) (asid i : Nat) : State :=
  { s.glzDrop asid i with glzSince := tabPut 0 s.glzSince (asid * 2 ^ 32 + i) s.tick }
/-- Every slice drops the entries of a context: they never serve another (R193). -/
def State.glzForget (s : State) (asid : Nat) : State := { s with glazes := s.glazes.filter fun g => g.asid != asid }

/-! ### Issue -/

/-- GLAZE (R198). -/
def execGlaze (c : Common) (o : GlazeOp) (s : State) : Out :=
  runEach (.glaze c o) (fun x cr t j s =>
    let sp := chipOr o.chip
    let ea := srcVal cr.k t (isMem sp) o.a
    let d := srcVal cr.k t false o.c
    let rq := glzReqRegs o d
    let rt := glzRetRegs o d
    s.access x t j (.glaze c o) (s.checkedLine x j sp ea (ea % 128 == 0) .at 4) [ea, d]
      (fun s => s.poisonDst x j (rt.take 1) none) [.mem 2 (some (spaceNum sp)) ea (ea + 127) none]
      fun u => { u with dst := rt, data := rq.map fun r => t.v.getD r 0 }) s

/-- GLZINS (R199): the image's address is checked at issue. -/
def execGlzins (c : Common) (o : GlzinsOp) (s : State) : Out :=
  runEach (.glzins c o) (fun x cr t j s =>
    let ea := srcVal cr.k t true o.a
    s.access x t j (.glzins c o) (s.checked x j .mem ea 256 .rd 0) [ea, srcVal cr.k t false o.c]
      (fun s => s.poisonDst x j (vreg2 false o.d) none) []) s

/-- GLZQ (R200): the entry's address is checked at issue, as a load's. -/
def execGlzq (c : Common) (o : GlzqOp) (s : State) : Out :=
  runEach (.glzq c o) (fun x cr t j s =>
    let i := descIndex (srcVal cr.k t false o.c)
    let ea := match (s.team? x.team).bind fun tm => s.ctx? tm.asid with | some cx => glzAddr cx i | none => 0
    s.access x t j (.glzq c o) (s.checked x j .mem ea 1 .rd 0) [ea, i] (fun s => s.poisonDst x j (vreg2 false o.d) none)
      [] fun u => { u with len := 6 }) s

/-! ### Performing -/

/-- A log entry of an operation in flight (R164); IADDR is 0 where the thread runs on. -/
def State.logOp (s : State) (tm : Team) (t : Thread) (o : Op) (code addr space agent : Nat) (runsOn : Bool) : State :=
  s.logViol tm.asid { threadEnt tm t (o.word.toNat / 2 ^ 56) addr (if runsOn then 0 else o.iaddr.toNat) code space agent with
    ord := o.ord.toNat }

/-- A glaze fault (R197, R198): a status under NT, else the fault of the thread. -/
def State.glazeFault (s : State) (tm : Team) (i : Nat) (t : Thread) (q : GlazeOp) (o : Op) (g : Nat) : State :=
  let s1 := s.logOp tm t o g o.ea (spaceNum (chipOr q.chip)) 7 q.nt
  if q.nt then s1.performed tm.id i o (vPut false q.d.val g) else s1.failOp tm.id i o 9 g o.ea

/-- GLAZE runs at the slice (R193, R196, R197). -/
def State.performGlaze (s : State) (tm : Team) (i : Nat) (t : Thread) (q : GlazeOp) (o : Op) : State :=
  if ¬ t.orderClear o ∨ (s.coreStores tm.core o.key 128).any (fun q => q.waited) then s else
  match s.ctx? tm.asid with
  | none => s
  | some c =>
    let d := o.vals.getD 1 0
    let f := s.glzFetch tm i c (t.crew == 7) (sliceOf c o.key) (descIndex d)
    let s := f.1
    let ea := glzAddr c (descIndex d)
    match f.2 with
    | .viol n =>
      (s.modThr tm.id i fun t => t.opWrites s.tick o (o.dst.map fun r => (r, BitVec.ofNat 32 poisonWord))).violateLate
        tm.id i o n ea 0 7
    | .absent => s.failOp tm.id i o 32 0 ea 0
    | .poison => s.glazeFault tm i t q o 39
    | .held => s
    | .ok bs =>
      match glzCheck bs (descVer d) (descReq d) (descRet d) with
      | some g => s.glazeFault tm i t q o g
      | none =>
        let s := s.recall o.key 128
        if s.poisoned o.key 128 then s.glazeFault tm i t q o 39 else
        match glzRun (glzRow bs) (wordsOf (s.bytes o.key 128) 32) (o.data.map fun w => w.toNat) with
        | .error g => s.glazeFault tm i t q o g
        | .ok (line, ret) =>
          (s.slicePut tm.core o.key [(0, line.flatMap (natLe 4))]).performed tm.id i o
            (vPuts q.d.val (if q.nt then 0 :: ret else ret))

/-- GLAZE_RUN (R196). -/
def execGlazeRun (p : PendRef) (s : State) : Out :=
  match s.team? p.team, s.thr? p.team p.thr, s.op? p.team p.thr p.id with
  | some tm, some t, some o =>
    .next (if o.res.isNone then
      match o.i with
      | .glaze _ q => s.performGlaze tm p.thr t q o
      | _ => s
    else s)
  | _, _, _ => .next s

/-- GLZINS performs (R199): the image with the next version becomes the entry, and every slice drops the old one. DESIGN
CHOICE (log 107): VERSION of a poisoned entry is read as its bytes stand. -/
def State.performGlzins (s : State) (tm : Team) (i : Nat) (t : Thread) (q : GlzinsOp) (o : Op) : State :=
  if ¬ t.orderClear o then s else
  match s.ctx? tm.asid with
  | none => s
  | some c =>
    let k := descIndex (o.vals.getD 1 0)
    let ea := glzAddr c k
    let bad := (o.dst.map fun r => (r, BitVec.ofNat 32 poisonWord) : List (Nat × Word))
    if isPeer o.key then (s.modThr tm.id i fun t => t.opWrites s.tick o bad).violateLate tm.id i o 10 o.ea 0
    else
    let s := s.recall o.key 256
    if s.poisoned o.key 256 then s.poisonOp tm.id i o o.dst o.ea
    else match s.resolve tm i (t.crew == 7) .mem ea 1 .wr with
      | .viol n => (s.modThr tm.id i fun t => t.opWrites s.tick o bad).violateLate tm.id i o n ea 0 7
      | .peer _ _ => (s.modThr tm.id i fun t => t.opWrites s.tick o bad).violateLate tm.id i o 10 ea 0 7
      | .absent => s.failOp tm.id i o 32 0 ea 1
      | .ok pa =>
        let old := s.read pa 2
        let new := if old = 65535 then 1 else old + 1
        let img := natLe 2 new ++ (s.bytes o.key 256).drop 2
        let s1 := ((s.store pa img).l1DropRange tm.core pa 256).glzPut tm.asid k
        s1.performed tm.id i o (vPut false q.d.val new)

/-- GLZQ performs as a load of bytes 0 to 5 of the entry, through L2 (R200). -/
def State.performGlzq (s : State) (tm : Team) (i : Nat) (t : Thread) (q : GlzqOp) (o : Op) : State :=
  if ¬ t.orderClear o ∨ (s.coreStores tm.core o.key o.len).any (fun q => q.waited) then s
  else if isPeer o.key then
    (s.modThr tm.id i fun t => t.opWrites s.tick o (o.dst.map fun r => (r, BitVec.ofNat 32 poisonWord))).violateLate tm.id
      i o 10 o.ea 0
  else
    let s := s.recall o.key 6
    if s.poisoned o.key 6 then s.poisonOp tm.id i o o.dst o.ea else
    let e := glzRow (s.bytes o.key 6)
    (s.l1DropRange tm.core o.key 6).performed tm.id i o (vPut false q.d.val (e.version + 2 ^ 16 * e.len + 2 ^ 24 * e.flags))

end Sys2Proof.Machine
end

