-- ==== Sys2Proof/Machine/Barrier.lean ====
section
/-! DEFINITION. Barrier objects, chapter 08_sync.md: the steps on an object (R203 to R206), its watchdogs (R207), the
barrier instructions (R210 to R214) and engine events (R205). -/

namespace Sys2Proof.Machine
open Sys2Proof

/-! ### Objects -/

/-- A barrier object's four words (R203). -/
structure BarObj where
  st : Nat
  conf : Nat
  expb : Nat
  bytes : Nat
  deriving DecidableEq, Repr

def State.barObj (s : State) (key : Nat) : BarObj :=
  ⟨s.read key 4, s.read (key + 4) 4, s.read (key + 8) 4, s.read (key + 12) 4⟩
def BarObj.enc (b : BarObj) : List Byte := natLe 4 b.st ++ natLe 4 b.conf ++ natLe 4 b.expb ++ natLe 4 b.bytes
def BarObj.phase (b : BarObj) : Bool := bit b.st 0
def BarObj.poison (b : BarObj) : Bool := bit b.st 1
def BarObj.wdon (b : BarObj) : Bool := bit b.st 2
def BarObj.pcause (b : BarObj) : Nat := bits b.st 5 3
def BarObj.arr (b : BarObj) : Nat := bits b.st 31 8
def BarObj.expa (b : BarObj) : Nat := b.conf % 2 ^ 24
/-- Poison(c) of R206. -/
def BarObj.poisonBy (b : BarObj) (c : Nat) : BarObj :=
  { b with st := (b.st ||| 2) + (if b.pcause = 0 then c * 8 else 0) }
def BarObj.setWdon (b : BarObj) (on : Bool) : BarObj := { b with st := b.st - b2n b.wdon * 4 + b2n on * 4 }

/-- The step of R205 with whether the phase flips. -/
def BarObj.arrive (b : BarObj) (a n : Nat) : BarObj × Bool :=
  if b.poison then (b, false)
  else if b.expa < b.arr + a then (b.poisonBy 3, false)
  else if b.expb < b.bytes + n then (b.poisonBy 4, false)
  else
    let arr := b.arr + a
    let bytes := b.bytes + n
    if arr = b.expa ∧ bytes = b.expb then
      ({ b with st := (b.st % 256 ^^^ 1), bytes := 0 }, true)
    else ({ b with st := b.st % 256 + arr * 256, bytes := bytes }, false)

/-- A step writes the object: 16 bytes, a tag on a `.chip` line, no full-empty bit (R204). -/
def State.putBar (s : State) (key : Nat) (b : BarObj) : State :=
  (((s.put key b.enc).bumpTags key 16).wakeMons key 16)

/-! ### Watchdogs -/

/-- The agent that executes the steps of an object at a key: a core, or 128 plus the slice beside the segment (R204).
DESIGN CHOICE (log 131): each 1 MiB of the chip scratchpad in order is one segment. -/
def State.barAgent (s : State) (key : Nat) : Nat :=
  if key < 2 ^ 48 then 128 + (key - 2 ^ 40) / 2 ^ 20 % 48
  else match s.team? (key / 2 ^ 48 - 1) with | some tm => tm.core | none => 0
/-- The slots of an agent in use. -/
def State.dogsAt (s : State) (agent : Nat) : Nat := (s.dogs.filter fun d => d.bound && d.agent == agent).length
/-- Unbound watchdogs take the free slots of their agent in order (R207); those of a saved span have no agent. -/
def State.bindDogs (s : State) : State :=
  s.dogs.foldl (fun s d =>
    if ¬ d.bound ∧ d.agent < 256 ∧ s.dogsAt d.agent < 32 then
      { s with dogs := s.dogs.map fun e => if e.id = d.id then { e with bound := true } else e }
    else s) s
/-- The watchdogs that satisfy a test leave. -/
def State.dropDogs (s : State) (f : Dog → Bool) : State := { s with dogs := s.dogs.filter fun d => !f d }.bindDogs
/-- The timeout of CONF in cc (R203). -/
def dogTime (conf : Nat) : Nat := bits conf 27 24 * 2 ^ (bits conf 31 28 + 10)
/-- A phase flip reloads the watchdog of the object, and comes after the arrivals toward it (R95). -/
def State.flipped (s : State) (key : Nat) : State :=
  { s.flipK key with dogs := s.dogs.map fun d => if d.key = key ∧ d.bound then { d with left := d.count } else d }

/-- A thread of the watchdog's participants (R207). -/
def Dog.covers (d : Dog) (tm : Team) : Bool :=
  tm.span == d.span && (d.scope == 2 || (tm.bandIx == d.band && (d.scope == 1 || tm.id == d.team)))
/-- The watchdog counts now: something has come, nothing is poisoned, and no participant is halted or saved (R207). -/
def State.dogCounts (s : State) (d : Dog) : Bool :=
  let b := s.barObj d.key
  d.bound && (b.arr != 0 || b.bytes != 0) && !b.poison &&
    !(s.teams.any fun tm => d.covers tm && (tm.threads.any Thread.isHalted)) &&
    !(s.spans.any fun p => p.id == d.span && p.saving.isSome)
/-- n cc pass for the watchdogs, 2n fc at a slice; slots that a changed object has freed are taken first. -/
def State.runDogs (s0 : State) (n : Nat) : State :=
  let s := s0.bindDogs
  { s with dogs := s.dogs.map fun d => if s.dogCounts d then { d with left := d.left - n } else d }

/-! ### Steps -/

/-- Who makes a step on an object, as its trace record has it (R400): the core whose unit takes it, the context, WHO, and the
object's address. -/
structure BarBy where
  core : Nat
  asid : Nat
  who : Nat
  addr : Nat
  deriving DecidableEq, Repr
/-- The KIND 3 record of a step: 1 arrival, 2 flip, 3 poison (R400). DEDUCED (log 111): a step makes one record. -/
def State.traceBar (s : State) (b : BarBy) (key code : Nat) : State :=
  s.trace b.core 3 b.asid b.who (natLe 8 b.addr ++ natLe 4 (s.barObj key).st ++ natLe 4 code)
/-- An arrival or engine event on an object whose bytes are sound (R205). -/
def State.barEvent (s : State) (b : BarBy) (key a n : Nat) : State :=
  let old := s.barObj key
  let r := old.arrive a n
  let s1 := s.putBar key r.1
  (if r.2 then s1.flipped key else s1).traceBar b key (if r.2 then 2 else if r.1.poison ∧ ¬ old.poison then 3 else 1)
/-- Poison(c) on an object (R206). -/
def State.barPoison (s : State) (b : BarBy) (key c : Nat) : State := (s.putBar key ((s.barObj key).poisonBy c)).traceBar b key 3
/-- The address of an object as a team's engine work names it: an offset in the context's chip allocation, a core share, or
its band's window (R137, R138). -/
def State.barAddr (s : State) (tm : Team) (key : Nat) : Nat :=
  if key < 2 ^ 48 then key - 2 ^ 40 - (match s.ctx? tm.asid with | some c => c.r.chipbase | none => 0)
  else if key % 2 ^ 48 < 2 ^ 32 then key % 2 ^ 32
  else key % 2 ^ 32 + (match s.team? (key / 2 ^ 48 - 1) with | some u => u.teamIx * u.bshare | none => 0)
/-- A step by engine work of a team (R205); WHO is 0 (DEDUCED from R364, log 111). -/
def State.byEngine (s : State) (tm : Team) (key : Nat) : BarBy := ⟨tm.core, tm.asid, 0, s.barAddr tm key⟩
/-- A step by a thread's instruction. -/
def byThread (tm : Team) (t : Thread) (o : Op) : BarBy := ⟨tm.core, tm.asid, t.who, o.ea⟩

/-- The teams that can reach the object at a key (R137, R138, R204): of the context, for the chip scratchpad; of the span,
for a core share; of the band, for its window. -/
def State.reaches (s : State) (asid key : Nat) (tm : Team) : Bool :=
  if key < 2 ^ 48 then tm.asid == asid else
  match s.team? (key / 2 ^ 48 - 1) with
  | some u => tm.span == u.span && (key % 2 ^ 48 < 2 ^ 32 || tm.bandIx == u.bandIx)
  | none => false
/-- Lines that an engine wrote leave the L1 of every core where a team that `sees` the completion stands, before it is seen
(R159). -/
def State.dropStale (s : State) (sees : Team → Bool) (ranges : List (Nat × Nat)) : State :=
  let lines := (ranges.filter fun r => r.1 < 2 ^ 40).flatMap fun r => (unitsOf 128 r.1 r.2).map (· / 128)
  { s with l1 := s.l1.filter fun l => !(lines.contains l.line && s.teams.any fun tm => tm.core == l.core && sees tm) }

/-- BARRIER_ENGINE_EVENT (R205): the first pending event of the team with this name is performed, unless its context is being
terminated (R368). On an object whose bytes hold an uncorrectable error it changes nothing. -/
def execBarrierEngineEvent (o : WorkRef) (s : State) : Out :=
  match (s.team? o.team).bind fun tm => (tm.events.find? fun e => e.id == o.id).map fun e => (tm, e) with
  | none => .next s
  | some (tm, e) =>
    if ¬ s.runs tm.asid then .next s else
    let s1 := (s.modTeam o.team fun tm => { tm with events := tm.events.filter fun q => q.id != e.id }).dropStale
      (s.reaches tm.asid e.key) e.ranges
    .next (if s1.poisoned e.key 16 then s1
      else if e.poison ≠ 0 then s1.barPoison (s.byEngine tm e.key) e.key e.poison
      else s1.barEvent (s.byEngine tm e.key) e.key e.arr e.bytes)

/-- WATCHDOG_EXPIRY (R207): the object is poisoned, the slot freed, the log written, and the fault raised in the system
crew of the arming team; not while the context is being terminated (R368). An object whose bytes hold an uncorrectable
error is not written (R204; DEDUCED that the rest happens, log 108). -/
def execWatchdogExpiry (id : Nat) (s : State) : Out :=
  match s.dogs.find? fun d => d.id == id && d.left == 0 && s.dogCounts d && s.runs d.asid with
  | none => .next s
  | some d =>
    let s0 := if s.poisoned d.key 16 then s
      else (s.putBar d.key (((s.barObj d.key).poisonBy 5).setWdon false)).traceBar ⟨d.core, d.asid, d.who, d.addr⟩ d.key 3
    let s1 := s0.dropDogs fun e => e.id == d.id
    let s2 := s1.logViol d.asid
      { addr := d.addr, iaddr := d.iaddr, code := 48, space := d.space, agent := 8, core := d.core, lane := d.lane
        opc := 0xA0, ord := d.ord, who := d.who }
    .next (s2.modTeam d.team fun tm =>
      { tm with trapq := tm.trapq ++ [⟨none, ⟨10, 0, BitVec.ofNat 64 d.addr, 0, 0, 0⟩, 0⟩] })

/-! ### Instructions -/

/-- The checked access of a barrier instruction: 16 bytes, aligned to 16 (R204). -/
def State.checkedBar (s : State) (x : Issue) (j : Nat) (sp : Space) (ea : Nat) : Acc := s.checked x j sp ea 16 .at 0

/-- A flagged barrier instruction issues (R202, R210). -/
def barOp (i : Instr) (sp : Space) (a : Src) (vals : List DWord → Thread → List Nat) (s : State) : Out :=
  runEach i (fun x cr t j s =>
    let ea := srcVal cr.k t false a
    s.access x t j i (s.checkedBar x j sp ea) (ea :: vals cr.k t) id []) s

/-- BARI (R211). -/
def execBari (c : Common) (o : BariOp) (s : State) : Out :=
  barOp (.bari c o) o.space o.a (fun k t => [srcVal k t false o.b, srcVal k t false o.c]) s
/-- BARA (R212). -/
def execBara (c : Common) (o : BaraOp) (s : State) : Out :=
  barOp (.bara c o) o.space o.a (fun k t => [optVal k t false o.cnt]) s
/-- BART (R214). -/
def execBart (c : Common) (o : BarwOp) (s : State) : Out :=
  barOp (.bart c o) o.space o.a (fun k t => [srcVal k t false o.b]) s
/-- BART.poison (R214). -/
def execBartPoison (c : Common) (o : BartPOp) (s : State) : Out :=
  barOp (.bartPoison c o) o.space o.a (fun _ _ => []) s
/-- BARP (R214). -/
def execBarp (c : Common) (o : BarpOp) (s : State) : Out := barOp (.barp c o) o.space o.a (fun _ _ => []) s

/-- SCOPE as a number (R203). -/
def bscopeNum : BScope → Nat
  | .team => 0
  | .band => 1
  | .span => 2

/-- The watchdog that a BARI arms, taking the slot bound to the object or a free one; none where there is none (R207,
R211). -/
def State.armDog (s0 : State) (tm : Team) (t : Thread) (q : BariOp) (o : Op) (conf : Nat) : Option State :=
  let s := s0.bindDogs
  let agent := s.barAgent o.key
  let had := s.dogs.any fun d => d.key == o.key && d.bound
  let s := { s with dogs := s.dogs.filter fun d => d.key != o.key }
  if had ∨ s.dogsAt agent < 32 then
    some { s with
      nextId := s.nextId + 1
      dogs := s.dogs ++ [{ id := s.nextId, key := o.key, space := spaceNum q.space, addr := o.ea, agent := agent, bound := true
                           team := tm.id, asid := tm.asid, core := tm.core, lane := t.lane, who := t.who
                           iaddr := o.iaddr.toNat, ord := o.ord.toNat, scope := bscopeNum q.scope, span := tm.span
                           band := tm.bandIx, count := dogTime conf, left := dogTime conf }] }
  else none

/-- BARI performs (R211): the state after it and whether the watchdog is armed as asked. -/
def State.bariStep (s : State) (tm : Team) (t : Thread) (q : BariOp) (o : Op) : State × Bool :=
  let conf := o.vals.getD 1 0
  let expb := o.vals.getD 2 0
  let b : BarObj := ⟨bscopeNum q.scope * 64, conf, expb, 0⟩
  let b := if conf % 2 ^ 24 = 0 ∧ expb = 0 then b.poisonBy 3 else b
  if bits conf 27 24 ≠ 0 then
    match s.armDog tm t q o conf with
    | some s1 => (s1.putBar o.key (b.setWdon true), true)
    | none => (({ s with dogs := s.dogs.filter fun d => d.key != o.key }).putBar o.key b, false)
  else ((s.dropDogs fun d => d.key == o.key).putBar o.key b, true)

/-- A predicate result of a flagged operation that has performed, then its completion. -/
def State.completePred (s : State) (tm i : Nat) (o : Op) (p : PReg) (b : Bool) : State :=
  (s.setPred tm i p b).completeOp tm i o (o.res.getD [])

/-- A barrier instruction performs at the object's order point and completes (R204, R211 to R214). -/
def State.performBar (s : State) (tm : Team) (i : Nat) (t : Thread) (o : Op) : State :=
  if ¬ t.orderClear o then s
  else if s.poisoned o.key 16 then s.poisonOp tm.id i o [] o.ea
  else
    let b := s.barObj o.key
    match o.i with
    | .bari _ q =>
      let r := (s.forgetK fun e => e == .toward o.key || e == .flip o.key).bariStep tm t q o
      (if (r.1.barObj o.key).poison then r.1.traceBar (byThread tm t o) o.key 3 else r.1).completePred tm.id i o q.d r.2
    | .bara _ q =>
      let s1 := (s.noteK tm.id i (.toward o.key) o.kOwn).barEvent (byThread tm t o) o.key 1 (o.vals.getD 1 0)
      s1.completeOp tm.id i o (match q.ret with | some d => vPut false d.val b.st | none => [])
    | .bart _ q =>
      let ok := b.phase != bit (o.vals.getD 1 0) 0
      (if ok then s.followK tm.id i (.flip o.key) else s).completePred tm.id i o q.d ok
    | .bartPoison _ q => s.completePred tm.id i o q.d b.poison
    | .barp .. => (s.barPoison (byThread tm t o) o.key 1).completeOp tm.id i o []
    | _ => s

/-! ### BARW -/

/-- A waiting instruction ends in a fault found after issue (R360). -/
def State.failWait (s : State) (tm i : Nat) (o : Op) (kind cause addr : Nat) : State :=
  (s.dropWait tm i o.id).reportLate tm i
    { id := o.id, r := ⟨kind, cause, BitVec.ofNat 64 addr, o.word, o.frec, o.ord⟩, iaddr := o.iaddr }

/-- The outcome of a BARW test: none to wait on, else the value of ok (R213). -/
def barwTest (b : BarObj) (ph : Nat) : Option Bool :=
  if b.phase != bit ph 0 then some true else if b.poison then some false else none

/-- BARW (R213): its condition is tested as it issues. -/
def execBarw (c : Common) (o : BarwOp) (s : State) : Out :=
  runEach (.barw c o) (fun x cr t j s =>
    let ea := srcVal cr.k t false o.a
    let b := srcVal cr.k t false o.b
    let a := s.checkedBar x j o.space ea
    if t.inSection then s.raise x j 8 1 x.iaddr.toNat else
    match a.r with
    | .ok key =>
      let later := s.pushWait x j (.barw c o) [ea, b] fun u => { u with key := key, len := 16, waited := true }
      if s.poisoned key 16 then s.raise x j 7 (poisonCause key) ea
      else if ¬ t.waits.isEmpty ∨ ¬ t.orderClear { (mkOp x t (.barw c o) s.nextId []) with key := key, len := 16 } then
        s.pushWait x j (.barw c o) [ea, b] fun u => { u with key := key, len := 16 }
      else match barwTest (s.barObj key) b with
        | some ok => (if ok then s.followK x.team j (.flip key) else s).resAtEnd x j (pRes o.d ok)
        | none => later
    | _ => s.access x t j (.barw c o) a [ea] id []) s

/-- A waiting BARW tests its object again (R213, R74). DESIGN CHOICE (log 133): a wake's test is a step of its own, so a second
flip may come before it. -/
def State.retryBarw (s : State) (tm : Team) (i : Nat) (t : Thread) (q : BarwOp) (o : Op) : State :=
  if s.poisoned o.key 16 then s.failWait tm.id i o 7 (poisonCause o.key) o.ea
  else if ¬ t.orderClear o then s
  else match barwTest (s.barObj o.key) (o.vals.getD 1 0) with
    | some ok =>
      ((if ok then s.followK tm.id i (.flip o.key) else s).setPred tm.id i q.d ok).endWait tm.id i o (if ok then 2 else 3)
    | none => s.markWaited tm.id i o.id

end Sys2Proof.Machine
end

