-- ==== Sys2Proof/Machine/MatrixFn.lean ====
section
/-! DEFINITION. The sums of matrix passes as functions of the operand bytes, chapter 10_matrix.md (R251, R258, R261 to
R266), and the conversions of an epilogue word (R260, R279). -/

namespace Sys2Proof.Machine
open Sys2Proof

/-- The float format of a format code (R258). -/
def mxFmt : Nat → Fmt
  | 1 => f64
  | 2 => f16
  | 3 => bf16
  | 6 => e5m2
  | 7 => e4m3
  | 8 => e3m2
  | 9 => e2m3
  | 10 => e2m1
  | _ => f32
/-- The width in bits of an element (R256). -/
def mxBits (c : Nat) : Nat := if c = 12 then 8 else fmtWidth (mxFmt c)
/-- Elements and B registers a pass (R251). -/
def mxKp (c : Nat) : Nat := if c = 1 then 16 else if c = 2 ∨ c = 3 then 12 else if c = 10 then 96 else 24
def mxPb (c : Nat) : Nat := if c = 1 then 32 else if c = 10 then 12 else 6
/-- Whether the codes form a pair of R251 (R258). -/
def mxPair (a b : Nat) : Bool :=
  (a == b && [1, 2, 3, 10, 12].contains a) || ([6, 7, 8, 9].contains a && [6, 7, 8, 9].contains b)
/-- S of a block kind (R256). -/
def mxBlockSize (blk : Nat) : Nat := if blk = 2 then 32 else 24

/-- ⌈a / b⌉. -/
def ceilDiv (a b : Nat) : Nat := (a + b - 1) / b
/-- Passes of an operation (R251). -/
def MxBlk.total (b : MxBlk) : Nat := ceilDiv b.kcnt (mxKp b.afmt)
/-- Elements of pass p. -/
def MxBlk.elems (b : MxBlk) (p : Nat) : Nat := min (mxKp b.afmt * p + mxKp b.afmt) b.kcnt - mxKp b.afmt * p

/-- Element i of a packed array (R114). -/
def packElem (w : Nat) (bs : List Byte) (i : Nat) : Nat := leNat ((bs.drop (i * w / 8)).take 9) / 2 ^ (i * w % 8) % 2 ^ w

/-- Status bits of a Q1 record (R271): NV, OF, NX. -/
def xfBits (f : Flags) : Nat := b2n f.nv + 2 * b2n f.ovf + 4 * b2n f.nx

/-- Acc(x, v) of R261 in a format. -/
def accF (f : Fmt) (x : Nat) (v : SumVal) : Nat × Flags :=
  match decodeF f x, v with
  | .nan _, _ => (canonNan f, noFlags)
  | _, .nan _ => (canonNan f, noFlags)
  | .inf s, .inf t => if s = t then (infF f s, noFlags) else (canonNan f, nvFlag)
  | .inf s, _ => (infF f s, noFlags)
  | _, .inf t => (infF f t, noFlags)
  | z, .fin d =>
    if d.m = 0 then (x, noFlags) else
    let t := dyAdd (dyOf z) d
    if t.m = 0 then (0, noFlags) else roundDyad f .rne false false t
/-- NV of a Value (R261). -/
def SumVal.flags : SumVal → Flags
  | .nan nv => { nv := nv }
  | _ => noFlags
/-- A bit pattern as a value. -/
def sumOf (f : Fmt) (x : Nat) : SumVal :=
  match decodeF f x with
  | .nan _ => .nan false
  | .inf s => .inf s
  | v => .fin (dyOf v)
/-- Status bits of two parts of a step together. -/
def withXf (r : Nat × Flags) (xf : Nat) : Nat × Nat := (r.1, xfBits r.2 ||| xf)

/-- An int8 pass (R262). -/
def intStep (fl : Nat) (as bs : List Nat) (x : Nat) : Nat :=
  let rd := fun (sgn : Bool) (v : Nat) => interp sgn 8 v
  let sum := ((as.zip bs).map fun p => rd (bit fl 2) p.1 * rd (bit fl 3) p.2).foldl (· + ·) 0
  let t := toSigned 32 x + sum
  ofSigned 32 (if bit fl 1 then clampInt (-(2 ^ 31)) (2 ^ 31 - 1) t else t)

/-- A segment's value under block scales (R265). -/
def segValue (ps : List (FVal × FVal)) (ca cb : Nat) : SumVal × Nat :=
  if ca = 255 ∨ cb = 255 then
    let nv := ps.any fun p => isSig p.1 || isSig p.2
    (.nan nv, xfBits { nv := nv })
  else match sumVal dySum ps with
    | .fin d =>
      if d.m = 0 then (.fin d, 0) else
      let r := roundDyad f32 .rne false false ⟨d.m, d.e + (ca : Int) + cb - 254⟩
      (sumOf f32 r.1, xfBits r.2)
    | v => (v, xfBits v.flags)
/-- Elements with their block numbers cut into segments, each with its block (R265). -/
def segments : List (Nat × (FVal × FVal)) → List (Nat × List (FVal × FVal))
  | [] => []
  | (b, p) :: rest => match segments rest with
    | (c, ps) :: more => if b = c then (c, p :: ps) :: more else (b, [p]) :: (c, ps) :: more
    | [] => [(b, [p])]
/-- A narrow pass with block scales: `sc` gives the scale codes of a block (R265). -/
def scaledStep (ps : List (Nat × (FVal × FVal))) (sc : Nat → Nat × Nat) (x : Nat) : Nat × Nat :=
  (segments ps).foldl (fun r g =>
    let v := segValue g.2 (sc g.1).1 (sc g.1).2
    let a := accF f32 r.1 v.1
    (a.1, r.2 ||| v.2 ||| xfBits a.2)) (x, 0)

/-- RoundInt(d 2^k), ties to even. -/
def roundInt (d : Dy) (k : Int) : Int :=
  if d.m = 0 then 0 else
  let q := scale2 d.m.natAbs 1 (d.e + k)
  let n : Int := (roundUnits .rne (d.m < 0) q.1 q.2 0).1
  if d.m < 0 then -n else n
/-- The largest binade of nonzero elements. -/
def maxBinade (ds : List Dy) : Option Int := maxInt? ((ds.filter fun d => d.m != 0).map dyLog)
/-- A K-block of slice mode (R266). -/
def sliceBlock (ps : List (FVal × FVal)) (x : Nat) : Nat × Nat :=
  match sumVal dySum ps with
  | .fin _ =>
    let as := ps.map fun p => dyOf p.1
    let bs := ps.map fun p => dyOf p.2
    let y : SumVal × Nat := match maxBinade as, maxBinade bs with
      | some ea, some eb =>
        let d := ((as.zip bs).map fun p => roundInt p.1 (54 - ea) * roundInt p.2 (54 - eb)).foldl (· + ·) 0
        if d = 0 then (.fin dyZero, 0) else
        let r := roundDyad f64 .rne false false ⟨d, ea + eb - 108⟩
        (sumOf f64 r.1, xfBits r.2)
      | _, _ => (.fin dyZero, 0)
    withXf (accF f64 x y.1) y.2
  | v => withXf (accF f64 x v) (xfBits v.flags)

/-- Step(x, pass) of R261: the new word and the status bits. `as` and `bs` are the elements of the pass, from element
`k0` of the operation; `sc` gives a block's scale codes. -/
def mxStep (b : MxBlk) (k0 : Nat) (as bs : List Nat) (sc : Nat → Nat × Nat) (x : Nat) : Nat × Nat :=
  if b.afmt = 12 then (intStep b.flags as bs x, 0) else
  let ps := (as.map (decodeF (mxFmt b.afmt))).zip (bs.map (decodeF (mxFmt b.bfmt)))
  if b.afmt = 1 then sliceBlock ps x
  else if b.blk ≠ 0 then
    scaledStep (((List.range ps.length).map fun i => (k0 + i) / mxBlockSize b.blk).zip ps) sc x
  else
    let v := sumVal (if b.afmt = 3 then alignedSum else dySum) ps
    withXf (accF f32 x v) (xfBits v.flags)

/-! ### Epilogue words -/

/-- z of an epilogue word (R279). -/
def epiSize (e : Nat) : Nat :=
  match e % 16 with
  | 0 => 4
  | 1 => 8
  | 2 | 3 => 2
  | _ => 1
/-- An epilogue word that R260 allows on tile n of a share, for binary32 contents or others. -/
def epiOk (e n share : Nat) (f32Words : Bool) : Bool :=
  [0, 1, 2, 3, 6, 7].contains (e % 16) && bits e 6 4 ≤ 4 && e / 2 ^ 17 == 0 && (2 ≤ e % 16 || e / 16 == 0) &&
    (e % 16 != 1 || (n % 2 == 0 && n + 1 < share)) && (e % 16 < 2 || f32Words)
/-- A converted element (R260, R279): ERELU, the exact scale, then FCVT from binary32 (R130). -/
def epiConvert (e w : Nat) : Nat × Flags :=
  let v := decodeF f32 w
  let v := if bit e 16 ∧ isNeg v then FVal.fin false 0 0 else v
  let v := match v with
    | .fin s m x => FVal.fin s m (x + toSigned 8 (bits e 15 8))
    | v => v
  cvtTo (mxFmt (e % 16)) ((rmodeOfCode (bits e 6 4)).getD .rne) (bit e 7) false v

end Sys2Proof.Machine
end

