-- ==== Sys2Proof/Machine/Queue.lean ====
section
/-! DEFINITION. Queue registers, chapter 08_sync.md: their state (R215 to R217), configuration, pushes and pops in queue
order (R218 to R221) and the posting of result records (R215). -/

namespace Sys2Proof.Machine
open Sys2Proof

/-- ESIZE in bytes (R216). -/
def QReg.bytes (q : QReg) : Nat := 4 * 2 ^ q.esize
/-- The state QCFG.stat returns (R217). -/
def QReg.stat (q : QReg) : Nat :=
  q.occ + 2 ^ 16 * q.alw + 2 ^ 32 * q.held + 2 ^ 48 * b2n q.err + 2 ^ 49 * b2n q.conf + 2 ^ 50 * b2n q.manual + 2 ^ 51 * b2n q.band
def State.modQueue (s : State) (id n : Nat) (f : QReg → QReg) : State :=
  s.modTeam id fun tm => { tm with queues := tm.queues.modify n f }
/-- The keys and lengths of slot k of a queue (R217): an element in the band window may lie in the contributions of two
teams (R137). -/
def State.qSlot (s : State) (tm : Team) (q : QReg) (k : Nat) : List (Nat × Nat) :=
  let a := q.base + q.bytes * k
  let n := if q.band then min q.bytes (tm.bshare - a % tm.bshare) else q.bytes
  [(a, n), (a + n, q.bytes - n)].filterMap fun p =>
    if p.2 = 0 then none else
    match s.scratchKey tm 0 (if q.band then .band else .core) p.1 with
    | .ok key => some (key, p.2)
    | .error _ => none

/-- The queue an instruction of the class acts on. -/
def queueOf : Instr → Option Nat
  | .qcfgSet _ o => some o.q.val
  | .qcfgGrant _ o => some o.q.val
  | .qcfgStat _ o => some o.q.val
  | .qcfgOff _ n => some n.val
  | .qpush _ o | .qpop _ o => some o.q.val
  | .qtry _ o => some o.q.val
  | _ => none
/-- No earlier operation of the thread on the same queue, pending or waiting, is still to perform (R218). -/
def Thread.queueClear (t : Thread) (id : Nat) (i : Instr) : Bool :=
  (t.pend ++ t.waits).all fun o => !(o.id < id && (queueOf o.i).isSome && queueOf o.i == queueOf i)
/-- The release that stands before a queue operation, and its place in queue order (R218). -/
def Thread.queueReady (t : Thread) (id : Nat) (i : Instr) : Bool := t.accessesDone id && t.queueClear id i

/-! ### QCFG -/

/-- QCFG.set (R216, R219): the block's address is checked at issue. -/
def execQcfgSet (c : Common) (o : QcfgSet) (s : State) : Out :=
  runEach (.qcfgSet c o) (fun x cr t j s =>
    let ea := srcVal cr.k t false o.a
    s.access x t j (.qcfgSet c o) (s.checked x j .core ea 16 .rd 0) [ea] id []) s
/-- QCFG.grant (R219). -/
def execQcfgGrant (c : Common) (o : QcfgGrant) (s : State) : Out :=
  runEach (.qcfgGrant c o) (fun x cr t j s => s.pushOp x j (.qcfgGrant c o) [srcVal cr.k t false o.b]) s
/-- QCFG.stat (R219). -/
def execQcfgStat (c : Common) (o : QcfgStat) (s : State) : Out :=
  runEach (.qcfgStat c o) (fun x _ _ j s => s.pushOp x j (.qcfgStat c o) []) s
/-- QCFG.off (R219). -/
def execQcfgOff (c : Common) (q : Fin 32) (s : State) : Out :=
  runEach (.qcfgOff c q) (fun x _ _ j s => s.pushOp x j (.qcfgOff c q) []) s

/-- The queue that a configuration block describes; none where it is malformed (R216). -/
def State.qBlock (s : State) (tm : Team) (key : Nat) : Option QReg :=
  let depth := s.read (key + 4) 2
  let allow := s.read (key + 6) 2
  let es := s.read (key + 8) 1
  let fl := s.read (key + 9) 1
  let q : QReg := { alw := allow, conf := true, manual := bit fl 1, band := bit fl 0, base := s.read key 4, depth := depth, esize := es }
  let limit := if bit fl 0 then tm.bshare * tm.bandTeams else tm.coresh
  if q.base % 16 = 0 ∧ 1 ≤ depth ∧ depth ≤ 4096 ∧ 1 ≤ allow ∧ allow ≤ depth ∧ es ≤ 4 ∧ fl < 4 ∧
      s.read (key + 10) 6 = 0 ∧ q.base + depth * q.bytes ≤ limit then some q else none

/-- The grant of R219. -/
def QReg.grant (q : QReg) (k : Nat) : QReg :=
  if ¬ q.conf then q else
  let g := min k q.held
  { q with held := q.held - g, alw := q.alw + g, err := q.err || q.held < k }

/-- A push of an element of a configured queue by thread i (R220), after its writes `ks` of K registers (R95). -/
def State.qPush (s : State) (tm : Team) (i n : Nat) (ws : List Word) (ks : List (Nat × Nat)) : State :=
  let q := tm.queue n
  let s := s.noteK tm.id i (.elem tm.id n q.pushi) ks
  let bs := (ws.take q.regs).flatMap fun w => natLe 4 w.toNat
  let s1 := ((s.qSlot tm q q.pushi).foldl (fun (r : State × List Byte) p => (r.1.store p.1 (r.2.take p.2), r.2.drop p.2)) (s, bs)).1
  s1.modQueue tm.id n fun q => { q with alw := q.alw - 1, pushi := (q.pushi + 1) % q.depth, occ := q.occ + 1 }
/-- The address of the element that the next pop takes, where its bytes are poisoned (R166, R375). -/
def State.qPopBad (s : State) (tm : Team) (n : Nat) : Option Nat :=
  let q := tm.queue n
  if 8 ≤ n ∧ (s.qSlot tm q q.popi).any (fun p => s.poisoned p.1 p.2) then some (q.base + q.bytes * q.popi) else none
/-- A pop by thread i: the words of the element or record, and the state after it (R221), which orders the pusher's K writes
before it (R95). A record acquires the bytes it names
(R215); one of Q4 has what its fragments or inserts did before it (R288, R318). -/
def State.qPop (s : State) (tm : Team) (i n : Nat) : State × List Nat :=
  if n < 8 then
    match (tm.recs.getD n []).head? with
    | some r =>
      let s1 := (s.modTeam tm.id fun tm => { tm with recs := tm.recs.modify n List.tail }).dropStale
        (fun u => u.id == tm.id) r.ranges
      (if n = 4 then s1.l1Acquire tm.core else s1, wordsOf r.data 4)
    | none => (s, [])
  else
    let q := tm.queue n
    let bs := (s.qSlot tm q q.popi).flatMap fun p => s.bytes p.1 p.2
    let ws := if (s.qPopBad tm n).isSome then List.replicate q.regs poisonWord else wordsOf bs q.regs
    let ev := KEvent.elem tm.id n q.popi
    (((s.followK tm.id i ev).forgetK (· == ev)).modQueue tm.id n fun q =>
      let q := { q with popi := (q.popi + 1) % q.depth, occ := q.occ - 1 }
      if q.manual then { q with held := q.held + 1 } else { q with alw := q.alw + 1 }, ws)
/-- The poison fault of an operation that popped a poisoned element (R166, R221). -/
def State.popFault (s : State) (i : Nat) (tm : Team) (o : Op) : Option Nat → State
  | some a => s.reportLate tm.id i ⟨o.id, ⟨7, 3, BitVec.ofNat 64 a, o.word, o.frec, o.ord⟩, o.iaddr, 0⟩
  | none => s
/-- OCC of a queue, an engine queue's records included. -/
def Team.qOcc (tm : Team) (n : Nat) : Nat := if n < 8 then (tm.recs.getD n []).length else (tm.queue n).occ

/-- A queue configured anew: its elements are gone. -/
def State.newQueue (s : State) (id n : Nat) (r : QReg) : State :=
  (s.forgetK fun e => match e with | .elem a b _ => a == id && b == n | _ => false).modQueue id n fun _ => r
/-- QCFG and QTRY perform in queue order and complete (R218, R219, R221). -/
def State.performQueue (s : State) (tm : Team) (i : Nat) (t : Thread) (o : Op) : State :=
  if ¬ t.orderClear o ∨ ¬ t.queueClear o.id o.i then s else
  match o.i with
  | .qcfgSet _ q =>
    if s.poisoned o.key 16 then s.poisonOp tm.id i o [] o.ea else
    match s.qBlock tm o.key with
    | some r => (s.newQueue tm.id q.q.val r).completeOp tm.id i o []
    | none => (s.newQueue tm.id q.q.val {}).failOp tm.id i o 11 0 o.ea
  | .qcfgGrant _ q =>
    if ¬ t.accessesDone o.id then s else (s.modQueue tm.id q.q.val fun r => r.grant o.ea).completeOp tm.id i o []
  | .qcfgStat _ q => s.completeOp tm.id i o (vPut true q.d.val (tm.queue q.q.val).stat)
  | .qcfgOff _ q => (s.newQueue tm.id q.val {}).completeOp tm.id i o []
  | .qtry _ q =>
    let n := q.q.val
    if tm.qOcc n = 0 then s.completePred tm.id i o q.p false
    else if ¬ t.accessesDone o.id then s
    else
      let regs := tm.popRegs n
      if t.v.length < q.d.val + regs then s.failOp tm.id i o 2 0 o.iaddr.toNat
      else
        let r := s.qPop tm i n
        ((r.1.setPred tm.id i q.p true).completeOp tm.id i { o with dst := vrange q.d regs } (vPuts q.d.val r.2)).popFault
          i tm o (s.qPopBad tm n)
  | _ => s

/-! ### QPUSH, QPOP, QTRY -/

/-- A push may be made now (R220). -/
def Team.qRoom (tm : Team) (n : Nat) : Bool := (tm.queue n).conf && (tm.queue n).alw != 0

/-- QPUSH (R220): up to 16 registers are read as it issues. -/
def execQpush (c : Common) (o : QueueOp) (s : State) : Out :=
  runEach (.qpush c o) (fun x _ t j s =>
    match s.team? x.team with
    | none => s
    | some tm =>
      let n := o.q.val
      let ws := (t.v.drop o.v.val).take 16
      if t.waits.isEmpty ∧ tm.qRoom n ∧ t.queueReady s.nextId (.qpush c o) then s.qPush tm j n ws t.kOwn
      else s.pushWait x j (.qpush c o) [] fun u => { u with data := ws, waited := !tm.qRoom n }) s

/-- QPOP (R221); inside an ordered section it raises the order-region fault (R293). -/
def execQpop (c : Common) (o : QueueOp) (s : State) : Out :=
  runEach (.qpop c o) (fun x _ t j s =>
    match s.team? x.team with
    | none => s
    | some tm =>
      let n := o.q.val
      if t.inSection then s.raise x j 8 1 x.iaddr.toNat
      else if t.waits.isEmpty ∧ 0 < tm.qOcc n ∧ t.queueReady s.nextId (.qpop c o) then
        let r := s.qPop tm j n
        let s1 := r.1.resAtEnd x j { v := vPuts o.v.val r.2 }
        match s.qPopBad tm n with
        | some a => s1.reportIssue x j 7 3 a
        | none => s1
      else s.pushWait x j (.qpop c o) [] fun u => { u with waited := tm.qOcc n == 0 }) s

/-- QTRY (R221). -/
def execQtry (c : Common) (o : QtryOp) (s : State) : Out :=
  runEach (.qtry c o) (fun x _ _ j s =>
    match s.team? x.team with
    | none => s
    | some tm => s.pushOp x j (.qtry c o) [] fun u => { u with dst := vrange o.d (tm.popRegs o.q.val) }) s

/-- A waiting QPUSH or QPOP tries again (R220, R221): the register range is checked again at the queue step. DEDUCED (log
12): a record of the core's own engine shows no banked core. -/
def State.retryQueue (s : State) (tm : Team) (i : Nat) (t : Thread) (o : Op) : State :=
  match o.i with
  | .qpush _ q =>
    if ¬ tm.qRoom q.q.val then s.markWaited tm.id i o.id
    else if ¬ t.queueReady o.id o.i then s
    else if t.v.length < q.v.val + (tm.queue q.q.val).regs then s.failWait tm.id i o 2 0 o.iaddr.toNat
    else (s.qPush tm i q.q.val o.data o.kOwn).endWait tm.id i o 4
  | .qpop _ q =>
    if tm.qOcc q.q.val = 0 then s.markWaited tm.id i o.id
    else if ¬ t.queueReady o.id o.i then s
    else if t.v.length < q.v.val + tm.popRegs q.q.val then s.failWait tm.id i o 2 0 o.iaddr.toNat
    else
      let r := s.qPop tm i q.q.val
      (r.1.modThr tm.id i fun t => t.opWrites s.tick { o with dst := vrange q.v 16 } (vPuts q.v.val r.2)).endWait tm.id i
        { o with banked := if q.q.val < 8 then some false else o.banked } 4 |>.popFault
        i tm o (s.qPopBad tm q.q.val)
  | _ => s

/-- QUEUE_RECORD_POST (R215): the oldest record held for the queue is posted where it has room, after the engine event that
comes before it (R247, R288, R318); not while the context is being terminated (R368). -/
def execQueueRecordPost (o : TeamQueue) (s : State) : Out :=
  match s.team? o.team with
  | none => .next s
  | some tm =>
    match tm.posts.find? fun p => p.q == o.q.val with
    | none => .next s
    | some p =>
      if 64 ≤ (tm.recs.getD o.q.val []).length ∨ ¬ s.runs tm.asid ∨ tm.events.any (fun e => some e.id == p.after) then .next s
      else
      .next (s.modTeam tm.id fun tm =>
        { tm with
          posts := tm.posts.erase p
          recs := tm.recs.modify o.q.val fun l => l ++ [p.r] })

end Sys2Proof.Machine
end

