-- ==== Sys2Proof/Machine/Counter.lean ====
section
/-! DEFINITION. Sequence counters, chapter 08_sync.md (R222 to R224). -/

namespace Sys2Proof.Machine
open Sys2Proof

/-- The absolute counter of an operand, if it is in the context's window (R222). -/
def ctrOf (c : Context) (n : Nat) : Option Nat := if n < 4096 ∧ n < c.r.sqn then some (c.r.sqb + n) else none
def State.ctrIn (s : State) (asid n : Nat) : Option Nat := (s.ctx? asid).bind fun c => ctrOf c n

/-- The acquire of a scope by a thread's core (R154). -/
def State.acquireAt (s : State) (core : Nat) (sc : Scope) : State := if sc = .team then s else s.l1Acquire core
/-- The release of `.sys` returns the lines checked out to the core (R178). -/
def State.releaseAt (s : State) (core : Nat) (sc : Scope) : State :=
  if sc = .sys then s.returnLines fun c => c.core == core else s

/-- A counter instruction issues for a counter of the window; another operand is a violation with code 6 (R222). Where
`waits`, it raises the order-region fault inside an ordered section first (R293). -/
def ctrOp (i : Instr) (a : Src) (waits : Bool) (f : Issue → Crew → Thread → Nat → Nat → Nat → State → State) (s : State) : Out :=
  runEach i (fun x cr t j s =>
    let n := srcVal cr.k t false a
    if waits ∧ t.inSection then s.raise x j 8 1 x.iaddr.toNat else
    match (s.team? x.team).bind fun tm => s.ctrIn tm.asid n with
    | some k => f x cr t j n k s
    | none => s.violate x j 6 n 4) s

/-- SQADD (R224). -/
def execSqadd (c : Common) (o : SqOp) (s : State) : Out :=
  ctrOp (.sqadd c o) o.a false (fun x cr t j n k s =>
    s.pushOp x j (.sqadd c o) [n, k, srcVal cr.k t o.wide o.b] fun u => { u with key := chipKey (8 * k), len := 8 }) s
/-- SQRD (R224). -/
def execSqrd (c : Common) (o : SqrdOp) (s : State) : Out :=
  ctrOp (.sqrd c o) o.a false (fun x _ _ j n k s =>
    s.pushOp x j (.sqrd c o) [n, k] fun u => { u with key := chipKey (8 * k), len := 8 }) s

/-- SQADD and SQRD perform at the counter and complete (R223, R224): SQRD reads, then acquires once the loads before it
have performed (R154). -/
def State.performCtr (s : State) (tm : Team) (i : Nat) (t : Thread) (o : Op) : State :=
  let n := o.ea
  let k := o.vals.getD 1 0
  if ¬ t.orderClear o then s
  else match o.i with
  | .sqadd _ q =>
    if ¬ t.accessesDone o.id then s
    else if s.poisoned o.key 8 then s.poisonOp tm.id i o [] o.ea
    else (((s.noteK tm.id i (.counter k) o.kOwn).releaseAt tm.core q.scope).addCounter k (o.vals.getD 2 0)).completeOp tm.id i o []
  | .sqrd _ q =>
    if o.stage = 0 then
      if s.poisoned o.key 8 then s.poisonOp tm.id i o o.dst o.ea
      else s.modOp tm.id i o.id fun u => { u with stage := 1, vals := [n, k, s.counter k] }
    else if ¬ t.loadsDone o.id then s
    else (s.acquireAt tm.core q.scope).completeOp tm.id i o (vPut true q.d.val (o.vals.getD 2 0))
  | _ => s

/-- SQWAIT (R224). -/
def execSqwait (c : Common) (o : SqOp) (s : State) : Out :=
  ctrOp (.sqwait c o) o.a true (fun x cr t j n k s =>
    let th := srcVal cr.k t o.wide o.b
    let tm := s.team? x.team
    let q := fun (u : Op) => { u with key := chipKey (8 * k), len := 8, waited := decide (s.counter k < th) }
    if s.poisoned (chipKey (8 * k)) 8 then s.raise x j 7 5 n
    else if t.waits.isEmpty ∧ th ≤ s.counter k ∧ t.orderClear (q (mkOp x t (.sqwait c o) s.nextId [])) ∧
        t.loadsDone s.nextId then
      match tm with | some tm => (s.acquireAt tm.core o.scope).followK x.team j (.counter k) | none => s
    else s.pushWait x j (.sqwait c o) [n, k, th] q) s

/-- A waiting SQWAIT tests its counter again (R74, R224). -/
def State.retrySqwait (s : State) (tm : Team) (i : Nat) (t : Thread) (q : SqOp) (o : Op) : State :=
  if s.poisoned o.key 8 then s.failWait tm.id i o 7 5 o.ea
  else if s.counter (o.vals.getD 1 0) < o.vals.getD 2 0 then s.markWaited tm.id i o.id
  else if ¬ t.orderClear o ∨ ¬ t.loadsDone o.id then s
  else ((s.acquireAt tm.core q.scope).followK tm.id i (.counter (o.vals.getD 1 0))).endWait tm.id i o 5

end Sys2Proof.Machine
end

