-- ==== Sys2Proof/Machine/Memory.lean ====
section
/-! DEFINITION. Meanings of the memory class, chapter 06_memory.md: loads and stores (R165 to R168), prefetches and pins
(R169, R170), fences (R154, R171), CFLUSH (R172), the full-empty instructions (R173), the monitor (R174, R175), and the
page walk (R144). -/

namespace Sys2Proof.Machine
open Sys2Proof

/-- The width in bytes (R140). -/
def widthBytes : Width → Nat
  | .n8 => 1
  | .n16 => 2
  | .n32 => 4
  | .n64 => 8

/-- The earlier overlapping accesses of a thread perform in program order, before a read that is to be made now; a load that
waits for a full granule is left (R152). -/
def State.forceEarlier (s : State) (id i key n : Nat) : State :=
  match s.thr? id i with
  | none => s
  | some t =>
    (t.pend.filter fun o => o.res.isNone && o.meets key n).foldl (fun s o =>
      match s.team? id, s.thr? id i with
      | some tm, some t =>
        let t := { t with pend := [] }
        match o.i with
        | .bari .. | .bara .. | .barp .. => s.performBar tm i t o
        | .ld _ q => s.performLd tm i t q o { team := id, thr := i, id := o.id }
        | _ => s.performPlain tm i t o { team := id, thr := i, id := o.id }
      | _, _ => s) s

/-- A fixed-latency load issues: its result goes in flight, and its read with it. -/
def State.pushFixed (s : State) (x : Issue) (j : Nat) (i : Instr) (o : LdOp) (ea key w : Nat) : State :=
  { s with nextId := s.nextId + 1 }.modThr x.team j fun t =>
    { t.incF (setfOf (commonOf i)) with
      wb := t.wb ++ [{ resWb x t (commonOf i) 8 { v := (vreg2 (w == 8) o.data).map fun d => (d, 0) } with ld := some s.nextId }]
      pend := t.pend ++ [{ mkOp x t i s.nextId [ea] with setf := none, dst := [], key := key, len := w }] }
/-- LD (R166). -/
def execLd (c : Common) (o : LdOp) (s : State) : Out :=
  runEach (.ld c o) (fun x cr t j s =>
    let w := widthBytes o.w
    let ea := effAddr o.space (srcVal cr.k t (isMem o.space) o.base) o.off
    let a := s.checked x j o.space ea w .rd 0
    let onViol := fun (s : State) => s.poisonDst x j (vreg2 (w == 8) o.data) (some (loadEv o.space ea w (poisonVal w)))
    match a.r with
    | .ok key =>
      if ldFixed o then s.pushFixed x j (.ld c o) o ea key w
      else s.access x t j (.ld c o) a [ea] onViol []
    | _ => s.access x t j (.ld c o) a [ea] onViol []) s

/-- A store issues: its checks, and the copy in the core's L1 (R146, R167). -/
def storeOp (i : Instr) (o : StOp) (tagged : Bool) (s : State) : Out :=
  runEach i (fun x cr t j s =>
    let w := widthBytes o.w
    let ea := effAddr o.space (srcVal cr.k t (isMem o.space) o.base) o.off
    let v := t.vw (w == 8) o.data.val % 2 ^ (8 * w)
    let a := s.checked x j o.space ea w .wr 1 (late := true)
    let a := match a.r with
      | .ok _ => if tagged ∧ o.space = .chip ∧ 2 ^ 31 ≤ ea then { a with r := .viol 7 } else a
      | _ => a
    let s1 := s.access x t j i a [ea, v] id [.mem 1 (some (spaceNum o.space)) ea (ea + w - 1) (some (v, w))]
    match a.r, s.team? x.team with
    | .ok key, some tm => if key < 2 ^ 40 then s1.l1Update tm.core key (natLe w v) else s1
    | _, _ => s1) s
/-- ST (R167). -/
def execSt (c : Common) (o : StOp) (s : State) : Out := storeOp (.st c o) o false s
/-- STT (R168). -/
def execStt (c : Common) (o : StOp) (s : State) : Out := storeOp (.stt c o) o true s

/-! ### Prefetches and pins -/

/-- PREF (R169): dropped where it would violate or its page is not present. -/
def execPref (c : Common) (o : PrefOp) (s : State) : Out :=
  runEach (.pref c o) (fun x cr t j s =>
    let ea := effAddr .mem (srcVal cr.k t true o.base) o.off
    match s.team? x.team with
    | none => s
    | some tm =>
      let s := s.sampleMem tm.core tm.asid t.who ea
      match (s.checked x j .mem ea 1 .rd 0).r with
      | .ok key => s.pushOp x j (.pref c o) [ea, key, 1]
      | _ => s.pushOp x j (.pref c o) [ea, 0, 0]) s
/-- A prefetch ends: under `.l1` the line is filled into L1 where it is not present (R169). -/
def State.performPref (s : State) (tm : Team) (i : Nat) (o : Op) (q : PrefOp) : State :=
  let line := o.vals.getD 1 0 / 128
  let s1 := if o.vals.getD 2 0 = 1 ∧ ¬ q.l2 ∧ q.reuse.val ≠ 7 ∧ (s.l1Find tm.core line none).isNone ∧
      ¬ s.checkedOut tm.core line then (s.recallFor tm.core (line * 128) 128).l1Fill tm.core line none true else s
  s1.completeOp tm.id i o []

/-- The lines of code a range names (R170). -/
def codeLines (x : Issue) (o : IprefOp) : List Nat :=
  (List.range (2 ^ o.n.val)).map fun k => (directTarget x o.tgt / 128 + k) * 128
/-- An instruction-line operation: each line of the range is fetched where it can be, then `f` acts on its record. -/
def linesOp (i : Instr) (o : IprefOp) (fill : Bool) (f : State → Team → Nat → State) (s : State) : Out :=
  runEach i (fun x _ _ _ s =>
    match s.team? x.team with
    | none => s
    | some tm => match s.ctx? tm.asid with
      | none => s
      | some cx => (codeLines x o).foldl (fun s va =>
          f (if fill then s.fillLine cx tm.core tm.lot va (x.crew == 7) else s) tm (va / 128)) s) s
/-- IPREF (R170). -/
def execIpref (c : Common) (o : IprefOp) (s : State) : Out := linesOp (.ipref c o) o true (fun s _ _ => s) s
/-- The lines of a core that hold pins. -/
def State.pinnedLines (s : State) (core : Nat) : Nat := (s.icache.filter fun l => l.core == core && !l.pins.isEmpty).length
/-- One more pin by a team on a line; none beyond 256 pinned lines of the core (R170). -/
def State.addPin (s : State) (tm : Team) (line : Nat) : State :=
  { s with icache := s.icache.map fun l =>
      if l.core = tm.core ∧ l.asid = tm.asid ∧ l.line = line ∧ (¬ l.pins.isEmpty ∨ s.pinnedLines tm.core < 256) then
        { l with pins := l.pins ++ [tm.id] }
      else l }
/-- One pin by the team less (R170). -/
def State.dropPin (s : State) (tm : Team) (line : Nat) : State :=
  { s with icache := s.icache.map fun l =>
      if l.core = tm.core ∧ l.asid = tm.asid ∧ l.line = line then { l with pins := l.pins.erase tm.id } else l }
/-- IPIN (R170). -/
def execIpin (c : Common) (o : IprefOp) (s : State) : Out := linesOp (.ipin c o) o true (fun s tm l => s.addPin tm l) s
/-- IUNPIN (R170). -/
def execIunpin (c : Common) (o : IprefOp) (s : State) : Out := linesOp (.iunpin c o) o false (fun s tm l => s.dropPin tm l) s

/-! ### Fences -/

/-- What a fence waits for: earlier loads for an acquire, every access for a release (R154). -/
def fenceReady (rel : Bool) (t : Thread) (id : Nat) : Bool := if rel then t.accessesDone id else t.loadsDone id
/-- The effect of a fence whose waits are done (R154, R178). -/
def State.fenceEffect (s : State) (id : Nat) (rel acq : Bool) (sc : Scope) : State :=
  match s.team? id with
  | none => s
  | some tm =>
    let s1 := if rel then s.releaseAt tm.core sc else s
    if acq then s1.acquireAt tm.core sc else s1
/-- A fence issues (R171). -/
def fenceOp (i : Instr) (rel acq : Bool) (sc : Scope) (s : State) : Out :=
  runEach i (fun x _ t j s =>
    if fenceReady rel t s.nextId ∧ t.waits.isEmpty then s.fenceEffect x.team rel acq sc
    else s.pushWait x j i [] fun u => { u with waited := !fenceReady rel t s.nextId }) s
/-- FENCE.rel (R171). -/
def execFenceRel (c : Common) (sc : Scope) (s : State) : Out := fenceOp (.fenceRel c sc) true false sc s
/-- FENCE.acq (R171). -/
def execFenceAcq (c : Common) (sc : Scope) (s : State) : Out := fenceOp (.fenceAcq c sc) false true sc s
/-- FENCE.ar (R171). -/
def execFenceAr (c : Common) (sc : Scope) (s : State) : Out := fenceOp (.fenceAr c sc) true true sc s
/-- A waiting fence ends once its waits are done (R74). -/
def State.retryFence (s : State) (tm : Team) (i : Nat) (t : Thread) (o : Op) (rel acq : Bool) (sc : Scope) : State :=
  if fenceReady rel t o.id then (s.fenceEffect tm.id rel acq sc).endWait tm.id i o 8 else s.markWaited tm.id i o.id

/-! ### CFLUSH -/

/-- A CFLUSH of a line issues (R172): it needs a valid leaf, and does nothing where the page is not present. DESIGN CHOICE
(log 118): nor does it on a peer window. -/
def flushOp (i : Instr) (o : FlushOp) (s : State) : Out :=
  runEach i (fun x cr t j s =>
    let ea := effAddr .mem (srcVal cr.k t true o.base) o.off
    let a := s.checked x j .mem ea 1 .any 0
    match a.r with
    | .viol n => s.violate x j n ea 0
    | .ok key => s.pushOp x j i [ea, key, 1]
    | _ => s.pushOp x j i [ea, 0, 0]) s
/-- CFLUSH.l1 (R172). -/
def execCflushL1 (c : Common) (o : FlushOp) (s : State) : Out := flushOp (.cflushL1 c o) o s
/-- CFLUSH.clean (R172). -/
def execCflushClean (c : Common) (o : FlushOp) (s : State) : Out := flushOp (.cflushClean c o) o s
/-- CFLUSH.inval (R172). -/
def execCflushInval (c : Common) (o : FlushOp) (s : State) : Out := flushOp (.cflushInval c o) o s
/-- A CFLUSH of the system crew issues (R172). -/
def flushSys (i : Instr) (o : FlushOp) (s : State) : Out :=
  runEach i (fun x cr t j s => s.pushOp x j i [effAddr .mem (srcVal cr.k t true o.base) o.off]) s
/-- CFLUSH.tlb (R172). -/
def execCflushTlb (c : Common) (o : FlushOp) (s : State) : Out := flushSys (.cflushTlb c o) o s
/-- CFLUSH.asid (R172). -/
def execCflushAsid (c : Common) (o : FlushOp) (s : State) : Out := flushSys (.cflushAsid c o) o s
/-- CFLUSH.ctx (R172). -/
def execCflushCtx (c : Common) (o : FlushOp) (s : State) : Out := flushSys (.cflushCtx c o) o s

/-- Drops the translations of a context, those of the page of an address or all (R172, R428). -/
def State.dropTlb (s : State) (asid : Nat) (va : Option Nat) : State :=
  { s with tlb := s.tlb.filter fun t => !(t.asid == asid && (match va with
      | some a => t.base ≤ a && a < t.base + t.size
      | none => true)) }
/-- The lines that satisfy a test leave L2 (R145, R172). -/
def State.unhome (s : State) (f : L2Line → Bool) : State := { s with l2 := s.l2.filter fun e => !f e }
/-- CFLUSH.ctx of a context, as RETIRE makes it too (R172, R177, R428): every line homed under its seed goes back, with every
line checked out; the monitors on lines of contexts that have the seed are lost (R175). -/
def State.flushCtx (s : State) (c : Context) : State :=
  let seedOf := fun (asid : Nat) => (s.ctx? asid).map fun d => d.r.seed
  ((s.unhome fun e => e.seed == c.r.seed).returnLines fun _ => true).loseMons
    fun u b => b < 2 ^ 40 && seedOf u.asid == some c.r.seed
/-- The action of a CFLUSH, and its completion (R172). -/
def State.performFlush (s : State) (tm : Team) (i : Nat) (o : Op) : State :=
  let key := o.vals.getD 1 0
  let line := key / 128
  let valid := o.vals.getD 2 0 == 1
  let onLine := fun (_ : Team) (b : Nat) => b == line * 128
  let seed := match s.ctx? tm.asid with | some c => c.r.seed | none => 0
  let s1 := match o.i with
    | .cflushL1 .. => if valid then ((s.recall key 1).l1Drop tm.core line).loseMons onLine else s
    | .cflushClean .. => if valid then (s.recall key 1).loseMons onLine else s
    | .cflushInval .. =>
      if valid then ((s.unhome fun e => e.line == line && e.seed == seed).recall key 1).l1Drop tm.core line |>.loseMons onLine
      else s
    | .cflushTlb .. => s.dropTlb tm.asid (some o.ea)
    | .cflushAsid .. => s.dropTlb tm.asid none
    | .cflushCtx .. => match s.ctx? tm.asid with | some c => s.flushCtx c | none => s
    | _ => s
  s1.completeOp tm.id i o []

/-! ### Full-empty bits -/

/-- A full-empty instruction issues (R173): 2^n granules at a multiple of their size. -/
def feOp (i : Instr) (o : FeOp) (s : State) : Out :=
  runEach i (fun x cr t j s =>
    let ea := effAddr o.space (srcVal cr.k t false o.base) o.off
    s.access x t j i (s.checked x j o.space ea (16 * 2 ^ o.n.val) .any 0) [ea] id []) s
/-- FESET (R173). -/
def execFeset (c : Common) (o : FeOp) (s : State) : Out := feOp (.feset c o) o s
/-- FECLR (R173). -/
def execFeclr (c : Common) (o : FeOp) (s : State) : Out := feOp (.feclr c o) o s
/-- The bits change after every earlier write of the thread to their granules (R149). -/
def State.performFe (s : State) (tm : Team) (i : Nat) (t : Thread) (o : Op) (b : Bool) : State :=
  if ¬ t.orderClear o ∨ t.pend.any (fun q => isFeOp q.i && q.id < o.id && overlap q.key q.len o.key o.len) then s
  else ((unitsOf 16 o.key o.len).foldl (fun s g => s.setFull g b) s).completeOp tm.id i o []

/-! ### The monitor -/

/-- The armed monitors of a core, with their threads. -/
def State.armedMons (s : State) (core : Nat) : List Monitor :=
  (s.teams.filter fun tm => tm.core == core).flatMap fun tm =>
    tm.threads.filterMap fun t => t.mon.filter fun m => m.event.isNone
/-- Beyond 256 armed monitors the oldest is lost (R174). -/
def State.limitMons (s : State) (core : Nat) : State :=
  let ms := s.armedMons core
  if ms.length ≤ 256 then s else
  let old := ms.foldl (fun a m => min a m.serial) s.nextId
  { s with teams := s.teams.map fun tm =>
      if tm.core = core then
        { tm with threads := tm.threads.map fun t =>
            match t.mon with
            | some m => if m.event.isNone ∧ m.serial = old then { t with mon := some { m with event := some 7 } } else t
            | none => t }
      else tm }

/-- MONITOR (R174). DESIGN CHOICE (log 118): on a peer window it arms on the peer's block, which the stores of this device's
own context and its engines through the window wake (`State.wakePeer`), and the peer's own writes (`State.wakeNow`). DESIGN
CHOICE (log 130): a `.mem` block needs the right to read, and a page not present is the recoverable fault. -/
def execMonitor (c : Common) (o : MonOp) (s : State) : Out :=
  runEach (.monitor c o) (fun x cr t j s =>
    let ea := effAddr o.space (srcVal cr.k t (isMem o.space) o.base) o.off
    let arm := fun (key : Nat) => match s.team? x.team with
      | none => s
      | some tm =>
        let s1 := { s with nextId := s.nextId + 1 }.modThr x.team j fun t =>
          { t with mon := some { block := key / 128 * 128, event := none, serial := s.nextId } }
        (s1.l1Drop tm.core (key / 128)).limitMons tm.core
    match (s.checked x j o.space ea 1 .rd 0).r with
    | .ok key => arm key
    | .peer k a => arm (peerKey k a)
    | .absent => s.reportIssue x j 32 0 ea 0
    | .viol n => s.violate x j n ea (spaceNum o.space)) s

/-- The wake event of a thread's monitor; code 7 where none is armed (R175). -/
def Thread.wakeEvent (t : Thread) : Option Nat :=
  match t.mon with
  | some m => m.event
  | none => some 7
/-- The wake event of a thread's monitor now: an eviction of a line of attached memory, which the model does not follow
otherwise, may come at any time (R175; DESIGN CHOICE, log 6), and so may a write of the peer to its own block (log 118). -/
def State.wakeNow (s : State) (t : Thread) : Option Nat :=
  match t.wakeEvent with
  | some c => some c
  | none =>
    if ¬ Config.freeBit s.tick 6 then none
    else if t.mon.any fun m => m.block < 2 ^ 40 then some 7
    else if t.mon.any fun m => isPeer m.block then some 6 else none
/-- WAITM (R175); inside an ordered section it raises the order-region fault (R293). -/
def execWaitm (c : Common) (s : State) : Out :=
  runEach (.waitm c) (fun x _ t j s =>
    if t.inSection then s.raise x j 8 1 x.iaddr.toNat
    else if (s.wakeNow t).isSome ∧ t.waits.isEmpty then s.modThr x.team j fun t => { t with mon := none }
    else s.pushWait x j (.waitm c) [] fun u => { u with waited := (s.wakeNow t).isNone }) s
/-- A waiting WAITM ends with a wake event, or with no cause (R175, codes 6, 7, 11). -/
def State.retryWaitm (s : State) (tm : Team) (i : Nat) (t : Thread) (o : Op) : State :=
  match s.wakeNow t with
  | some c => (s.modThr tm.id i fun t => { t with mon := none }).endWait tm.id i o c
  | none =>
    if Config.freeBit s.tick 5 then
      (s.modThr tm.id i fun t => { t with mon := none }).endWait tm.id i { o with waited := true } 11
    else s.markWaited tm.id i o.id

/-! ### The page walker -/

/-- PAGE_WALK_COMPLETE (R144): a valid leaf is kept by the cluster's translation cache; nothing else is. -/
def execPageWalkComplete (o : WalkOp) (s : State) : Out :=
  match s.ctx? o.asid.val with
  | none => .next s
  | some c =>
    if 2 ^ 49 ≤ o.va then .next s else
    match s.walkFrom o.va walkLevels c.r.ptroot with
    | .leaf e sh =>
      let base := o.va / 2 ^ sh * 2 ^ sh
      let others := s.tlb.filter fun t => !(t.cluster == o.cluster.val && t.asid == o.asid.val &&
        t.base < base + 2 ^ sh && base < t.base + t.size)
      .next { s with tlb := others ++ [⟨o.cluster.val, o.asid.val, base, 2 ^ sh, BitVec.ofNat 64 e⟩] }
    | _ => .next s

end Sys2Proof.Machine
end

