-- ==== Sys2Proof/Machine/Engine.lean ====
section
/-! DEFINITION. What the engines share: the binding of crews (R20), checks at issue (R226, R442), accesses of engines to
memory (R159, R243), waits for pages (R364), records, events and log entries of engine work (R164, R205, R215). -/

namespace Sys2Proof.Machine
open Sys2Proof

/-- The crew is bound to the engine of a BIND bit (R20, R335). -/
def Crew.bound (c : Crew) (b : Nat) : Bool := bit c.bind b

/-- The origin of work issued by the word in hand. -/
def originOf (tm : Team) (x : Issue) (t : Thread) (j : Nat) : Origin := ⟨j, x.op, t.sys.lastord.toNat, tm.core⟩
/-- The origin of work that an operation in flight issues. -/
def Op.origin (o : Op) (tm : Team) (thr : Nat) : Origin := ⟨thr, o.word.toNat / 2 ^ 56, o.ord.toNat, tm.core⟩

/-- A log entry of an engine on behalf of the issuing thread (R164). -/
def State.logEngine (s : State) (tm : Team) (o : Origin) (code addr space agent : Nat) (iaddr : Nat := 0) : State :=
  match tm.threads[o.thr]? with
  | some t => s.logViol tm.asid { threadEnt tm t o.op addr iaddr code space agent with ord := o.ord, core := o.core }
  | none => s

/-- A record for a result queue of the team (R215). -/
def State.postRec (s : State) (id q : Nat) (data : List Byte) (ranges : List (Nat × Nat) := []) (after : Option Nat := none) :
    State :=
  s.modTeam id fun tm => { tm with posts := tm.posts ++ [{ q := q, r := { data := data, ranges := ranges }, after := after }] }
/-- An engine event on an object, or its poisoning, to be performed (R205, R206). -/
def State.postEvent (s : State) (id key a n poison : Nat) (ranges : List (Nat × Nat) := []) : State :=
  State.modTeam { s with nextId := s.nextId + 1 } id fun tm =>
    { tm with events := tm.events ++ [{ id := s.nextId, key := key, arr := a, bytes := n, poison := poison, ranges := ranges }] }

/-- An engine event where `key` gives an object, then a record (R247, R288, R318): the record is posted after the event. -/
def State.postBoth (s : State) (id : Nat) (key : Option Nat) (a n poison q : Nat) (data : List Byte)
    (ranges : List (Nat × Nat) := []) : State :=
  match key with
  | some k => (s.postEvent id k a n poison ranges).postRec id q data ranges (some s.nextId)
  | none => s.postRec id q data ranges

/-- The engines of a team run: its context is not being terminated (R368) and, for work that stops at a save, its span
is not being saved (R369, R371). -/
def State.engineOn (s : State) (tm : Team) (stops : Bool) : Bool := s.runs tm.asid && !(stops && s.savingTeam tm)
/-- The work waits for a page (R243). -/
def Team.pageWaiting (tm : Team) (id : Nat) : Bool := tm.pageWaits.any fun w => w.id == id
/-- A page an engine meets not present: the request, and the wait (R364). -/
def State.engineMiss (s : State) (tm : Team) (id va : Nat) (write : Bool) : State :=
  let r := s.pageService tm.asid va (8 + b2n write) tm.core 0
  r.1.modTeam tm.id fun tm => { tm with pageWaits := tm.pageWaits ++ [{ id := id, ticket := r.2 }] }

/-- ENGINE_PAGE_RETRY (R364): the wait ends once counter PSC has reached the ticket. -/
def execEnginePageRetry (o : WorkRef) (s : State) : Out :=
  match s.team? o.team with
  | none => .next s
  | some tm =>
    match s.ctx? tm.asid, tm.pageWaits.find? fun w => w.id == o.id with
    | some c, some w =>
      if s.counter (c.r.sqb + c.r.psc) < w.ticket then .next s
      else .next (s.modTeam tm.id fun tm => { tm with pageWaits := tm.pageWaits.filter fun v => v.id != o.id })
    | _, _ => .next s

/-- A peer's answer to engine work: bytes, or an error or poison indication. -/
structure PeerAns where
  data : List Byte
  ok : Bool
  bad : Bool
  deriving DecidableEq, Repr

/-- The result of an engine's access; a violation with its code, address and SPACE (R164). -/
inductive ERes where
  | ok (bs : List Byte)
  | viol (code addr space : Nat)
  | absent (va : Nat)
  /-- A line of the bytes is checked out: the request waits for its recall (R177). -/
  | held
  deriving DecidableEq, Repr

/-- Bytes of a key as an engine reads them; code 64 where they are poisoned (R243). -/
def State.engKey (s : State) (key n addr space : Nat) : ERes :=
  if s.outAt key n then .held else if s.poisoned key n then .viol 64 addr space else .ok (s.bytes key n)
/-- n bytes of `.mem` of one line as an engine of the team reads them; `skip` bytes of the peer's answer come before
its own (R159, R243). -/
def State.engRead (s : State) (tm : Team) (va n : Nat) (p : PeerAns) (skip : Nat) : ERes :=
  match s.resolve tm 0 false .mem va 1 .rd with
  | .ok key => s.engKey key n va 0
  | .peer k a =>
    if ¬ p.ok ∨ ¬ s.peerOpen tm.asid (peerKey k a) then .viol 11 va 0
    else if p.bad then .viol 64 va 0 else .ok ((p.data.drop skip).take n)
  | .viol c => .viol c va 0
  | .absent => .absent va
/-- The key where an engine of the team writes `.mem`. -/
def State.engSlot (s : State) (tm : Team) (va : Nat) (p : PeerAns) : Except ERes Nat :=
  match s.resolve tm 0 false .mem va 1 .wr with
  | .ok key => .ok key
  | .peer k a => if p.ok ∧ s.peerOpen tm.asid (peerKey k a) then .ok (peerKey k a) else .error (.viol 11 va 0)
  | .viol c => .error (.viol c va 0)
  | .absent => .error (.absent va)

/-- The `.mem` requests of engine work pass the sampler of the team's core, in the name of the thread that issued it (R399). -/
def State.sampleFor (s : State) (tm : Team) (o : Origin) (rs : List (Nat × Nat)) : State :=
  s.sampleLines tm.core tm.asid (match tm.threads[o.thr]? with | some t => t.who | none => 0) rs
/-- The `.mem` requests of a thread's instruction that reads a block or record (R399). -/
def State.sampleThr (s : State) (tm : Team) (j : Nat) (rs : List (Nat × Nat)) : State :=
  s.sampleLines tm.core tm.asid (match tm.threads[j]? with | some t => t.who | none => 0) rs

/-- n bytes at an address cut into lines. -/
def lineSpans (a n : Nat) : List (Nat × Nat) :=
  (unitsOf 128 a n).map fun l => (max a l, min (a + n) (l + 128) - max a l)

/-- Adjacent pieces of one line joined. -/
def mergeRuns : List (Nat × List Byte) → List (Nat × List Byte)
  | [] => []
  | (k, b) :: rest =>
    match mergeRuns rest with
    | (l, c) :: more => if k + b.length = l ∧ k / 128 = l / 128 then (k, b ++ c) :: more else (k, b) :: (l, c) :: more
    | [] => [(k, b)]
/-- A write of an engine of a context: a peer performs its own, which wakes the monitors armed on it (R175). -/
def State.enginePut (s : State) (asid key : Nat) (bs : List Byte) : State :=
  if isPeer key then s.wakePeer asid key bs.length else s.engineStore key bs
/-- Pieces written by an engine, one write for each run of a line (R148, R149). -/
def State.storeRuns (s : State) (asid : Nat) (ps : List (Nat × List Byte)) : State :=
  (mergeRuns ps).foldl (fun s p => s.enginePut asid p.1 p.2) s
/-- n bytes at a key end unspecified (R243, R246, R250): DESIGN CHOICE, log 7. An engine write of free values with its tag
(R148), or none. -/
def State.freeBytes (s : State) (key n : Nat) : State :=
  if ¬ isPeer key ∧ Config.freeBit s.tick (2 ^ 57 + key) then
    (lineSpans key n).foldl (fun s p => s.engineStore p.1 ((List.range p.2).map fun i => Config.freeByte s.tick (p.1 + i))) s
  else s

/-- Bytes that have been written in this step touch one of the ranges. -/
def State.wroteIn (s : State) (rs : List (Nat × Nat)) : Bool := s.wrote.any fun w => rs.any fun r => overlap w.1 w.2 r.1 r.2

/-- A free 64-bit value: DESIGN CHOICE, log 7. -/
def State.freeDword (s : State) : Nat := leNat ((List.range 8).map fun i => Config.freeByte s.tick i)

/-! ### Checks at issue -/

/-- A checked address operand of an engine instruction (R226, R442 step 3): the key of a scratchpad address, none for
`.mem`; or the code of the violation. -/
def State.engAddr (s : State) (tm : Team) (thr : Nat) (sp : Space) (ea n al : Nat) : Except Nat (Option Nat) :=
  if isMem sp then
    (if 2 ^ 57 ≤ ea then .error 5 else if ea % al ≠ 0 then .error 8 else .ok none)
  else if ea % al ≠ 0 then .error 8
  else match s.scratchKey tm thr sp ea, s.scratchKey tm thr sp (ea + n - 1) with
    | .ok key, .ok _ => .ok (some key)
    | .error c, _ => .error c
    | _, .error c => .error c

/-- A word of an engine class issues (R442 steps 1 to 3): the binding, then the address operands in order. -/
structure EngOpnd where
  sp : Space
  ea : Nat
  n : Nat
  al : Nat
  deriving DecidableEq, Repr
/-- The first operand that violates, with its code. -/
def State.badOpnd (s : State) (tm : Team) (thr : Nat) : List EngOpnd → Option (EngOpnd × Nat)
  | [] => none
  | o :: os => match s.engAddr tm thr o.sp o.ea o.n o.al with
    | .error c => some (o, c)
    | .ok _ => s.badOpnd tm thr os
/-- An instruction that issues engine work: `bindBit` is the binding it needs, `opnds` its address operands; `go` has
them checked. -/
def engineOp (i : Instr) (bindBit : Option Nat) (opnds : List DWord → Thread → List EngOpnd)
    (go : Issue → Team → Crew → Thread → Nat → State → State) (s : State) : Out :=
  runEach i (fun x cr t j s =>
    match s.team? x.team with
    | none => s
    | some tm =>
      if (match bindBit with | some b => !cr.bound b | none => false) then s.raise x j 5 0 x.iaddr.toNat else
      match s.badOpnd tm j (opnds cr.k t) with
      | some (o, c) => s.violate x j c o.ea (spaceNum o.sp)
      | none => go x tm cr t j s) s

/-- The accepted instruction completes with its flag (R225). -/
def State.pushDone (s : State) (x : Issue) (j : Nat) (i : Instr) : State :=
  s.pushOp x j i [] fun o => { o with res := some [] }

/-- A block in `.mem` that an instruction reads: its page is checked as it issues, and its faults are late (R442 step
5). -/
def State.pushMemRead (s : State) (x : Issue) (tm : Team) (j : Nat) (i : Instr) (ea n : Nat) (vals : List Nat) : State :=
  let s := s.sampleThr tm j [(ea, n)]
  match s.resolve tm j (x.crew == 7) .mem ea 1 .rd with
  | .ok key => s.pushOp x j i (ea :: vals) fun o => { o with key := key, len := n }
  | .peer k a => s.pushOp x j i (ea :: vals) fun o =>
      { o with key := peerKey k a, len := n, route := s.route tm.asid (peerKey k a) }
  | .viol c => s.violateIssue x j c ea 0
  | .absent => s.reportIssue x j 32 0 ea 0
/-- A block in scratchpad that an instruction reads as a load. -/
def State.pushKeyRead (s : State) (x : Issue) (tm : Team) (j : Nat) (i : Instr) (sp : Space) (ea n : Nat) (vals : List Nat) :
    State :=
  match s.scratchKey tm j sp ea with
  | .ok key => s.pushOp x j i (ea :: vals) fun o => { o with key := key, len := n, slots := tm.targets }
  | .error c => s.violateIssue x j c ea (spaceNum sp)

/-- The block of a pending operation may be read: the thread's earlier writes to it have performed (R152). -/
def State.blockReady (s : State) (tm : Team) (t : Thread) (o : Op) : Bool :=
  t.orderClear o && !(s.coreStores tm.core o.key o.len).any fun q => q.waited
/-- The bytes of the block of a pending operation; none where they are poisoned. -/
def State.blockBytes (s : State) (o : Op) : Option (List Byte) :=
  if s.poisoned o.key o.len then none else some (s.bytes o.key o.len)
/-- The commands of the thread to Q4 before operation `id` have been accepted, so that Q4 keeps program order (R305). -/
def Thread.q4Turn (t : Thread) (id : Nat) : Bool :=
  t.pend.all fun o => !(decide (o.id < id) && match o.i with | .rast .. | .splat .. => true | _ => false)
/-- A field of a block: n bytes at an offset. -/
def fld (bs : List Byte) (off n : Nat) : Nat := leNat ((bs.drop off).take n)

end Sys2Proof.Machine
end

