-- ==== Sys2Proof/Machine/Copy.lean ====
section
/-! DEFINITION. Copies, chapter 09_copy.md: per-lane copies and batches (R227 to R232), tensor-shape slots (R233 to R235),
tile copies (R236 to R240), their faults (R243, R244), and CHKW and CHKT (R241). -/

namespace Sys2Proof.Machine
open Sys2Proof

/-! ### Batches -/

/-- Whether the thread has an open batch; it is the last one opened (R229). -/
def Thread.openBatch (t : Thread) : Option Nat :=
  if t.nextBatch ≠ 0 ∧ (t.batches.getD ((t.nextBatch - 1) % 8) {}).state = 1 then some (t.nextBatch - 1) else none
/-- The thread must wait for the slot of its next batch (R229). -/
def Thread.batchFull (t : Thread) : Bool :=
  t.openBatch.isNone && (t.batches.getD (t.nextBatch % 8) {}).state == 2
/-- CPBk set from its fields (R230). -/
def cpbBits (done : Nat) (isOpen closed fault : Bool) : Word :=
  BitVec.ofNat 32 (done % 2 ^ 24 + b2n isOpen * 2 ^ 24 + b2n closed * 2 ^ 25 + b2n fault * 2 ^ 26)
/-- Opens the next batch (R229). -/
def Thread.newBatch (t : Thread) : Thread :=
  let k := t.nextBatch % 8
  { t with
    batches := t.batches.set k { num := t.nextBatch, state := 1, copies := 0 }
    cpb := t.cpb.set k (cpbBits 0 true false false), nextBatch := t.nextBatch + 1 }
/-- One copy more in a batch. -/
def Thread.addCopy (t : Thread) (num : Nat) : Thread :=
  { t with batches := t.batches.modify (num % 8) fun b => { b with copies := b.copies + 1 } }

/-- The closed batches that retire, from the oldest, up to one that cannot (R229); `k` counts the slots left. -/
def Thread.retireGo (t : Thread) : Nat → Thread
  | 0 => t
  | k + 1 =>
    let i := (t.nextBatch + 7 - k) % 8
    let b := t.batches.getD i {}
    if b.state = 0 then t.retireGo k
    else if b.state = 2 ∧ b.copies = 0 then
      { t with
        batches := t.batches.set i { b with state := 0 }
        cpb := t.cpb.modify i fun w => w &&& ~~~(BitVec.ofNat 32 (2 ^ 25)) }.retireGo k
    else t
/-- Every batch that may retire does, in number order (R229). -/
def Thread.retireBatches (t : Thread) : Thread := t.retireGo 8
/-- A copy of n bytes finished (R227). -/
def Thread.copyDone (t : Thread) (num n : Nat) (fault : Bool) : Thread :=
  { t with
    batches := t.batches.modify (num % 8) fun b => { b with copies := b.copies - 1 }
    cpb := t.cpb.modify (num % 8) fun w =>
      if fault then w ||| BitVec.ofNat 32 (2 ^ 26)
      else BitVec.ofNat 32 (w.toNat / 2 ^ 24 * 2 ^ 24 + (w.toNat + n) % 2 ^ 24) }.retireBatches
/-- The open batch closes (R231). -/
def Thread.closeBatch (t : Thread) : Thread :=
  match t.openBatch with
  | none => t
  | some q =>
    { t with
      batches := t.batches.modify (q % 8) fun b => { b with state := 2 }
      cpb := t.cpb.modify (q % 8) fun w =>
        (w &&& ~~~(BitVec.ofNat 32 (2 ^ 24))) ||| BitVec.ofNat 32 (2 ^ 25) }.retireBatches
/-- The batches closed and not retired. -/
def Thread.closedBatches (t : Thread) : Nat := (t.batches.filter fun b => b.state == 2).length

/-- CPCLOSE (R231). -/
def execCpclose (c : Common) (s : State) : Out :=
  runEach (.cpclose c) (fun x _ _ j s => s.modThr x.team j Thread.closeBatch) s

/-- CPWAIT (R232). -/
def execCpwait (c : Common) (n : Fin 8) (s : State) : Out :=
  runEach (.cpwait c n) (fun x _ t j s =>
    if t.inSection then s.raise x j 8 1 x.iaddr.toNat
    else if t.closedBatches ≤ n.val ∧ t.waits.isEmpty then s
    else s.pushWait x j (.cpwait c n) [] fun u => { u with waited := n.val < t.closedBatches }) s
/-- A waiting CPWAIT tests again (R74). DEDUCED (log 12): reason 14 of a CPWAIT or a CHKW shows no banked core, as the tables of
R413 and 14_system.md list its values. -/
def State.retryCpwait (s : State) (tm : Team) (i : Nat) (t : Thread) (n : Nat) (o : Op) : State :=
  if t.closedBatches ≤ n then s.endWait tm.id i { o with banked := some false } 14 else s.markWaited tm.id i o.id

/-! ### CPL -/

/-- The key of a scratchpad operand; none for `.mem`. -/
def State.opndKey (s : State) (tm : Team) (thr : Nat) (sp : Space) (ea : Nat) : Option Nat :=
  if isMem sp then none else match s.scratchKey tm thr sp ea with | .ok key => some key | .error _ => none

/-- The effective address of an operand with no offset (R136). -/
def opndEa (k : List DWord) (t : Thread) (sp : Space) (a : Src) : Nat := srcVal k t (isMem sp) a
/-- s, v, d and a of a CPL (R227). -/
structure CplVals where
  size : Nat
  v : Nat
  d : Nat
  a : Nat
  deriving DecidableEq, Repr
def cplVals (k : List DWord) (t : Thread) (o : CplOp) : CplVals :=
  let n := 4 * 2 ^ o.size.val
  ⟨n, min (srcVal k t false o.b) n, opndEa k t o.dsp o.d, opndEa k t o.ssp o.a⟩

/-- A CPL is accepted: it joins the open batch, or opens the next one (R227, R229). -/
def State.acceptCpl (s : State) (x : Issue) (tm : Team) (t : Thread) (j : Nat) (i : Instr) (o : CplOp) (q : CplVals) : State :=
  let s1 := if t.openBatch.isNone then s.modThr x.team j Thread.newBatch else s
  let num := t.openBatch.getD t.nextBatch
  let s2 := s1.modThr x.team j fun t => t.addCopy num
  let c : CplCopy :=
    { id := s.nextId, o := originOf tm x t j, num := num, size := q.size, v := q.v, dsp := o.dsp, d := q.d, ssp := o.ssp
      a := q.a, dkey := s.opndKey tm j o.dsp q.d, akey := if q.v = 0 then none else s.opndKey tm j o.ssp q.a }
  let s3 := State.modTeam { s2 with nextId := s.nextId + 1 } x.team fun tm => { tm with cpls := tm.cpls ++ [c] }
  (s3.observeIssue x j t (some (.mem 3 (some (spaceNum o.dsp)) q.d (q.d + q.size - 1) none))).pushDone x j i

/-- CPL (R227, R229): it waits for the slot of its batch before it issues. -/
def execCpl (c : Common) (o : CplOp) (s : State) : Out :=
  engineOp (.cpl c o) (some 0)
    (fun k t =>
      let q := cplVals k t o
      ⟨o.dsp, q.d, q.size, q.size⟩ :: (if q.v = 0 then [] else [⟨o.ssp, q.a, q.v, q.size⟩]))
    (fun x tm cr t j s =>
      if t.batchFull then s.stallFor x j else
      (s.wakeRoom x j 14).acceptCpl x tm t j (.cpl c o) o (cplVals cr.k t o)) s

/-- WHO of a thread's records (R244, R164). -/
def Team.whoOf (tm : Team) (i : Nat) : Nat := match tm.threads[i]? with | some t => t.who | none => 0
/-- A Q2 record (R244). -/
def copyRec (kind cause who land addr : Nat) : List Byte :=
  natLe 1 kind ++ natLe 1 cause ++ natLe 2 who ++ natLe 4 land ++ natLe 8 addr

/-- The copy's source bytes (R227). -/
def State.cplSource (s : State) (tm : Team) (c : CplCopy) (p : PeerAns) : ERes :=
  if c.v = 0 then .ok [] else
  match c.akey with
  | some key => s.engKey key c.v c.a (spaceNum c.ssp)
  | none => s.engRead tm c.a c.v p 0
/-- Where its bytes go. -/
def State.cplDest (s : State) (tm : Team) (c : CplCopy) (p : PeerAns) : Except ERes Nat :=
  match c.dkey with
  | some key => .ok key
  | none => s.engSlot tm c.d p

/-- The copy leaves: the thread's batch counts it (R227, R243). -/
def State.cplLeaves (s : State) (tm : Team) (c : CplCopy) (fault : Bool) : State :=
  (s.modTeam tm.id fun tm => { tm with cpls := tm.cpls.filter fun q => q.id != c.id }).modThr tm.id c.o.thr fun t =>
    t.copyDone c.num c.size fault
/-- A copy ends by a fault (R243): the destination's bytes, where it has any, are free. -/
def State.cplFault (s : State) (tm : Team) (c : CplCopy) (dst : Option Nat) (code addr space : Nat) : State :=
  let s1 := match dst with | some key => s.freeBytes key c.size | none => s
  let s2 := s1.logEngine tm c.o code addr space 1
  (s2.postRec tm.id 2 (copyRec 4 code (tm.whoOf c.o.thr) (c.num % 8) addr)).cplLeaves tm c true

/-- The copy is made (R227, R228). -/
def State.cplFinish (s : State) (tm : Team) (c : CplCopy) (p : PeerAns) : State :=
  match s.cplDest tm c p, s.cplSource tm c p with
  | .error (.absent va), _ => s.engineMiss tm c.id va true
  | .error (.viol n a sp), _ => s.cplFault tm c none n a sp
  | .error (.ok _), _ | .error .held, _ | .ok _, .held => s
  | .ok _, .absent va => s.engineMiss tm c.id va false
  | .ok d, .viol n a sp => s.cplFault tm c (some d) n a sp
  | .ok key, .ok bs =>
    ((s.enginePut tm.asid key (bs ++ List.replicate (c.size - bs.length) 0)).l1DropRange tm.core key
      (if key < 2 ^ 40 then c.size else 0)).cplLeaves tm c false

/-- CPL_COPY_FINISH (R227, R243): a copy of the team that no page holds back is made. -/
def execCplCopyFinish (o : WorkRef) (s : State) : Out :=
  match s.team? o.team with
  | none => .next s
  | some tm =>
    match tm.cpls.find? fun c => c.id == o.id with
    | none => .next s
    | some c =>
      if tm.pageWaiting c.id ∨ ¬ s.engineOn tm false then .next s
      else
        let rs := (if c.akey.isNone ∧ c.v ≠ 0 then [(c.a, c.v)] else []) ++ if c.dkey.isNone then [(c.d, c.size)] else []
        .next ((s.sampleFor tm c.o rs).cplFinish tm c ⟨o.peer, o.peerOk, o.peerBad⟩)

/-! ### Tensor-shape slots -/

/-- T of a descriptor (R233). -/
def Shape.bytes (h : Shape) : Nat := h.e * h.box.foldl (· * ·) 1
/-- C of a tile (R235). -/
def Shape.chunks (h : Shape) : Nat := (h.bytes + 511) / 512

/-- The descriptor in 64 bytes; none where it is malformed (R233). -/
def shapeOf (bs : List Byte) : Option Shape :=
  let esz := fld bs 8 1
  let ndim := fld bs 9 1
  let h : Shape :=
    { base := fld bs 0 8, e := 2 ^ (esz % 8), ndim := ndim, swz := fld bs 10 1, tsp := fld bs 11 1
      size := (List.range 5).map fun k => fld bs (12 + 4 * k) 4
      strd := 0 :: (List.range 4).map fun k => fld bs (32 + 5 * k) 5
      box := (List.range 5).map fun k => fld bs (52 + 2 * k) 2 }
  if h.base % 16 = 0 ∧ esz ≤ 4 ∧ 1 ≤ ndim ∧ ndim ≤ 5 ∧ h.swz ≤ 3 ∧ (h.tsp = 1 ∨ h.tsp = 2) ∧ fld bs 62 2 = 0 ∧
      h.size.all (fun n => 1 ≤ n && n < 2 ^ 31) ∧ h.strd.all (fun n => n % 16 == 0) ∧
      h.box.all (fun n => 1 ≤ n && n ≤ 256) ∧
      (h.size.drop ndim).all (· == 1) ∧ (h.box.drop ndim).all (· == 1) ∧ (h.strd.drop ndim).all (· == 0) ∧
      (h.box.getD 0 0 * h.e) % 16 = 0 ∧ h.bytes ≤ 2 ^ 17 then some h else none

/-- A tensor-shape slot takes a descriptor or becomes empty. -/
def State.setShape (s : State) (id n : Nat) (h : Option Shape) : State :=
  s.modTeam id fun tm => { tm with shapes := tm.shapes.set n h }

/-- TLOAD (R234): alignment is checked at issue, the page late (R442). -/
def execTload (c : Common) (o : TloadOp) (s : State) : Out :=
  engineOp (.tload c o) none (fun k t => [⟨.mem, srcVal k t true o.a, 64, 64⟩])
    (fun x tm cr t j s => s.pushMemRead x tm j (.tload c o) (srcVal cr.k t true o.a) 64 []) s
/-- TEVICT (R234). -/
def execTevict (c : Common) (n : Fin 32) (s : State) : Out :=
  runEach (.tevict c n) (fun x _ _ _ s => s.setShape x.team n.val none) s

/-- A descriptor or record read by a pending operation: its bytes, or the fault it meets (R161, R166, R432). -/
def State.blockRead (s : State) (tm : Team) (i : Nat) (t : Thread) (o : Op) (p : PerformOp)
    (go : State → List Byte → State) : State :=
  if ¬ s.blockReady tm t o then s else
  let s := s.recallFor tm.core o.key o.len
  if isPeer o.key then
    if ¬ p.peerOk ∨ o.route.isNone then s.peerError tm.id i o [] o.ea
    else if p.peerBad then s.poisonOp tm.id i { o with key := 0 } [] o.ea
    else go s ((p.peer ++ List.replicate o.len 0).take o.len)
  else match s.blockBytes o with
    | none => s.poisonOp tm.id i o [] o.ea
    | some bs => go s bs

/-- TLOAD performs and completes: the slot holds the descriptor, or is empty where it is malformed (R234). -/
def State.performTload (s : State) (tm : Team) (i : Nat) (t : Thread) (n : Nat) (o : Op) (p : PerformOp) : State :=
  s.blockRead tm i t o p fun s bs =>
    match shapeOf bs with
    | some h => (s.setShape tm.id n (some h)).completeOp tm.id i o []
    | none => (s.setShape tm.id n none).failOp tm.id i o 12 0 o.ea

/-! ### The elements of a tile -/

/-- The 16-byte unit where a logical unit stands in the tile (R235). -/
def swizzle (swz o : Nat) : Nat :=
  let span := 16 * 2 ^ swz
  o / span * span + 16 * ((o % span / 16) ^^^ (o / 128 % (span / 16)))
/-- The box indexes of the element at a logical offset (R235). -/
def boxIndex (e : Nat) (box : List Nat) (o : Nat) : List Nat :=
  (box.foldl (fun (r : List Nat × Nat) b => (r.1 ++ [r.2 % b], r.2 / b)) ([], o / e)).1
/-- In-bounds bytes of the logical unit at o: their offset in it, their address and their number; none where there are
none (R235). `row`: the row a gather gives instead of x1 + i1. -/
def unitSpan (h : Shape) (xs : List Int) (row : Option Int) (o : Nat) : Option (Nat × Nat × Nat) :=
  let ix := boxIndex h.e h.box o
  let c : List Int := (List.range 5).map fun k =>
    match row with
    | some r => if k = 1 then r else xs.getD k 0 + ix.getD k 0
    | none => xs.getD k 0 + ix.getD k 0
  let inB := fun k => decide (0 ≤ c.getD k 0) && decide (c.getD k 0 < (h.size.getD k 0 : Nat))
  if ¬ (inB 1 && inB 2 && inB 3 && inB 4) then none else
  let c0 := c.getD 0 0
  let lo := (max 0 (-c0)).toNat
  let hi := (min ((16 / h.e : Nat) : Int) ((h.size.getD 0 0 : Nat) - c0)).toNat
  if hi ≤ lo then none else
  let rows := (List.range 5).foldl (fun a k => a + (h.strd.getD k 0 : Int) * c.getD k 0) 0
  some (h.e * lo, ((h.base : Int) + h.e * (c0 + lo) + rows).toNat, h.e * (hi - lo))
/-- n bytes at an address cut at the ends of 128-byte lines. -/
def linePieces (a n : Nat) : List (Nat × Nat) :=
  if n = 0 then [] else
  if a % 128 + n ≤ 128 then [(a, n)] else [(a, 128 - a % 128), (a + (128 - a % 128), n - (128 - a % 128))]
/-- TSP as a space. -/
def tileSpace (h : Shape) : Space := if h.tsp = 2 then .band else .core
/-- The logical units of chunk k (R235). -/
def chunkUnits (h : Shape) (k : Nat) : List Nat :=
  (List.range ((min (512 * k + 512) h.bytes - 512 * k) / 16)).map fun u => 512 * k + 16 * u
/-- The length of chunk k. -/
def chunkLen (h : Shape) (k : Nat) : Nat := min (512 * k + 512) h.bytes - 512 * k

/-- The pieces read one after another, with the bytes of a peer's answer used so far. -/
def State.readPieces (s : State) (tm : Team) (p : PeerAns) : List (Nat × Nat) → Nat → Except ERes (List Byte × Nat)
  | [], skip => .ok ([], skip)
  | (a, n) :: rest, skip =>
    match s.engRead tm a n p skip with
    | .ok bs =>
      (s.readPieces tm p rest (if 2 ^ 49 ≤ a then skip + n else skip)).map fun r => (bs ++ r.1, r.2)
    | e => .error e
/-- A gathered row of a CPG (R239): the list's entry. -/
def State.gatherRow (s : State) (tm : Team) (c : TileCopy) (o : Nat) : Except ERes (Option Int) :=
  if c.kind ≠ 3 then .ok none else
  let a := c.list + 4 * (boxIndex c.sh.e c.sh.box o).getD 1 0
  match s.scratchKey tm 0 .core a with
  | .ok key => match s.engKey key 4 a 2 with
    | .ok bs => .ok (some (toSigned 32 (leNat bs)))
    | e => .error e
  | .error n => .error (.viol n a 2)

/-- The tile's bytes of a chunk of a `.ld` copy, unit by unit in logical order (R237). -/
def State.loadUnits (s : State) (tm : Team) (c : TileCopy) (p : PeerAns) : List Nat → Nat → Except ERes (List (List Byte))
  | [], _ => .ok []
  | o :: os, skip =>
    match s.gatherRow tm c o with
    | .error e => .error e
    | .ok row =>
      match unitSpan c.sh c.xs row o with
      | none => (s.loadUnits tm c p os skip).map fun r => List.replicate 16 0 :: r
      | some (lo, a, n) =>
        match s.readPieces tm p (linePieces a n) skip with
        | .error e => .error e
        | .ok (bs, skip) => (s.loadUnits tm c p os skip).map fun r =>
            (List.replicate lo 0 ++ bs ++ List.replicate (16 - lo - n) 0) :: r
/-- The keys of the tile's units of a chunk, in logical order (R235). -/
def State.tileKeys (s : State) (tm : Team) (h : Shape) (d : Nat) (units : List Nat) : List (Option Nat) :=
  units.map fun o => s.opndKey tm 0 (tileSpace h) (d + swizzle h.swz o)

/-- Bytes to be written by a `.st` copy cut into pieces, each at its key (R237). -/
def State.slotPieces (s : State) (tm : Team) (p : PeerAns) : List (Nat × Nat) → List Byte →
    Except ERes (List (Nat × List Byte))
  | [], _ => .ok []
  | (a, n) :: rest, bs =>
    match s.engSlot tm a p with
    | .error e => .error e
    | .ok key => (s.slotPieces tm p rest (bs.drop n)).map fun r => (key, bs.take n) :: r
/-- The pieces that a chunk of a `.st` copy writes (R237). -/
def State.storeUnits (s : State) (tm : Team) (c : TileCopy) (p : PeerAns) : List Nat → Except ERes (List (Nat × List Byte))
  | [] => .ok []
  | o :: os =>
    match unitSpan c.sh c.xs none o with
    | none => s.storeUnits tm c p os
    | some (lo, a, n) =>
      let ta := c.d + swizzle c.sh.swz o + lo
      match s.opndKey tm 0 (tileSpace c.sh) ta with
      | none => .error (.viol 6 ta (spaceNum (tileSpace c.sh)))
      | some key =>
        match s.engKey key n ta (spaceNum (tileSpace c.sh)) with
        | .ok bs => match s.slotPieces tm p (linePieces a n) bs, s.storeUnits tm c p os with
          | .ok ps, .ok r => .ok (ps ++ r)
          | .error e, _ => .error e
          | _, .error e => .error e
        | e => .error e

/-! ### Tile copies -/

/-- The lowest and highest byte a copy may write, for the cones (R385). -/
def tileRange (c : TileCopy) : Option (Nat × Nat) :=
  if ¬ c.st then some (c.d, c.d + c.sh.bytes - 1) else
  let units := (List.range (c.sh.bytes / 16)).filterMap fun u => unitSpan c.sh c.xs none (16 * u)
  match units with
  | [] => none
  | u :: us => some (us.foldl (fun a v => min a v.2.1) u.2.1,
      us.foldl (fun a v => max a (v.2.1 + v.2.2 - 1)) (u.2.1 + u.2.2 - 1))
def TileCopy.coneEv (c : TileCopy) : Option ConeEv :=
  (tileRange c).map fun r => .mem 3 (some (if c.st then 0 else spaceNum (tileSpace c.sh))) r.1 r.2 none

/-- The bands and the teams that a CPM's masks select (R238). -/
def cpmBands (c : Nat) : List Nat := (List.range 12).filter fun b => bit c b
def cpmTeamIx (c : Nat) : List Nat := (List.range 8).filter fun t => bit c (12 + t)
/-- A mask bit of a CPM names no team of the span (R238). -/
def State.cpmMisses (s : State) (tm : Team) (c : Nat) : Bool :=
  let has := fun b t => (s.teamAt tm b t).isSome
  (cpmBands c).any (fun b => !(List.range 8).any fun t => has b t) ||
    (cpmTeamIx c).any (fun t => !(List.range 12).any fun b => has b t) ||
    (cpmBands c).any fun b => (cpmTeamIx c).any fun t => !has b t
/-- The teams a CPM's masks select; none where a mask bit names no team, or a reserved bit is set (R238). -/
def State.cpmTeams (s : State) (tm : Team) (c : Nat) : Option (List Nat) :=
  if c / 2 ^ 20 % 2 ^ 12 ≠ 0 ∨ s.cpmMisses tm c then none
  else some ((cpmBands c).flatMap fun b => (cpmTeamIx c).filterMap fun t => (s.teamAt tm b t).map fun u => u.id)

/-- What a tile copy names. -/
structure TileOpnds where
  kind : Nat
  st : Bool
  bar : Bool
  post : Bool
  slot : Nat
  d : Nat
  a : Nat
  b : Nat
  c : Nat
  deriving DecidableEq, Repr

/-- The MAP words of a landing block are zeroed in one step (R236). -/
def State.zeroMap (s : State) (id : Nat) (c : TileCopy) (r : Nat) : State :=
  let s1 := match (s.team? r).bind fun u => s.opndKey u 0 .core c.land with
    | some key => s.store key (List.replicate (8 * ((c.sh.chunks + 63) / 64)) 0)
    | none => s
  s1.modTeam id fun tm => { tm with copies := tm.copies.map fun q =>
    if q.id = c.id then { q with recvs := q.recvs.map fun v => if v.team = r then { v with zeroed := true } else v } else q }

/-- A tile copy is accepted (R225, R236): its MAP words may be zeroed at once. -/
def State.acceptTile (s : State) (x : Issue) (t : Thread) (j : Nat) (i : Instr) (c : TileCopy) : State :=
  let s1 := State.modTeam { s with nextId := s.nextId + 1 } x.team fun tm =>
    { tm with copies := if c.recvs.isEmpty then tm.copies else tm.copies ++ [c] }
  let s2 := if Config.freeBit s.tick 6 then c.recvs.foldl (fun s r => s.zeroMap x.team c r.team) s1 else s1
  (s2.observeIssue x j t c.coneEv).pushDone x j i

/-- Steps 6 and 7 of R442 for a tile copy, reported after issue: the copy parameters, then the tile range and the index
list: kind, cause, address and space. -/
def State.tileLate (s : State) (tm : Team) (q : TileOpnds) (h : Shape) : Option (Nat × Nat × Nat × Nat) :=
  let sp := tileSpace h
  if (q.kind = 2 ∧ h.tsp ≠ 1) ∨ (q.kind = 3 ∧ (h.ndim < 2 ∨ (h.box.drop 2).any (· != 1))) then some (13, 0, q.b, 0)
  else match s.engAddr tm 0 sp q.d h.bytes (if h.swz = 0 then 16 else 128) with
    | .error n => some (6, n, q.d, spaceNum sp)
    | .ok _ =>
      if q.kind = 3 then
        match s.engAddr tm 0 .core q.c (4 * h.box.getD 1 0) 4 with
        | .error n => some (6, n, q.c, 2)
        | .ok _ => none
      else none

/-- CPT, CPM and CPG issue (R236 to R239, R442). DESIGN CHOICE (log 137): SPACE of the entry for a misaligned D of an empty slot
is 2. -/
def tileOp (i : Instr) (vals : List DWord → Thread → TileOpnds) (s : State) : Out :=
  runEach i (fun x cr t j s =>
    match s.team? x.team with
    | none => s
    | some tm =>
      let q := vals cr.k t
      let sh := (tm.shapes.getD q.slot none)
      let recvs := if q.kind = 2 then s.cpmTeams tm q.c else some [tm.id]
      if ¬ cr.bound 0 then s.raise x j 5 0 x.iaddr.toNat
      else if q.d % 16 ≠ 0 then s.violate x j 8 q.d (match sh with | some h => spaceNum (tileSpace h) | none => 2)
      else match s.badOpnd tm j (⟨.core, q.b, 48, 16⟩ :: if q.kind = 3 then [⟨.core, q.c, 1, 4⟩] else []) with
      | some (o, n) => s.violate x j n o.ea 2
      | none => match recvs, sh with
        | none, _ => (match s.thr? x.team j with
            | some t => if s.cpmMisses tm q.c then
                s.logViol tm.asid (threadEnt tm t x.op q.b x.iaddr.toNat 7 2 0) else s
            | none => s).raise x j 13 0 q.b
        | _, none => s.raise x j 33 0 q.slot
        | some rs, some h => match s.tileLate tm q h with
          | some (6, n, a, sp) => s.violateIssue x j n a sp
          | some (k, cause, a, _) => s.reportIssue x j k cause a
          | none => s.acceptTile x t j i
              { id := s.nextId, o := originOf tm x t j, kind := q.kind, st := q.st, bar := q.bar, post := q.post, sh := h
                xs := (List.range 5).map fun k => if k < h.ndim then toSigned 32 (t.v32 (q.a + k)) else 0
                d := q.d, land := q.b, list := q.c, recvs := rs.map fun r => ⟨r, 0, false⟩ }) s

/-- CPT (R237). -/
def execCpt (c : Common) (o : CptOp) (s : State) : Out :=
  tileOp (.cpt c o) (fun k t =>
    ⟨1, o.st, o.bar, o.post, o.slot.val, srcVal k t false o.d, o.a.val, srcVal k t false o.b, 0⟩) s
/-- CPM (R238). -/
def execCpm (c : Common) (o : CpmOp) (s : State) : Out :=
  tileOp (.cpm c o) (fun k t =>
    ⟨2, false, o.bar, o.post, o.slot.val, srcVal k t false o.d, o.a.val, srcVal k t false o.b, srcVal k t false o.c⟩) s
/-- CPG (R239). -/
def execCpg (c : Common) (o : CpmOp) (s : State) : Out :=
  tileOp (.cpg c o) (fun k t =>
    ⟨3, false, o.bar, o.post, o.slot.val, srcVal k t false o.d, o.a.val, srcVal k t false o.b, srcVal k t false o.c⟩) s

/-! ### Chunks -/

/-- The MAP bit of a chunk is set, and with `.bar` the barrier takes the engine event: one step (R240). -/
def State.landChunk (s : State) (c : TileCopy) (r k : Nat) (count : Bool) : State :=
  match (s.team? r).bind fun u => s.opndKey u 0 .core c.land with
  | none => s
  | some key =>
    let w := key + 8 * (k / 64)
    let s1 := ((s.put w (natLe 8 (s.read w 8 ||| 2 ^ (k % 64)))).wakeMons w 8).voidDogs s
    match s.team? r with
    | some u =>
      if c.bar ∧ count ∧ ¬ s1.poisoned (key + 32) 16 then
        s1.barEvent (s1.byEngine u (key + 32)) (key + 32) 0 (chunkLen c.sh k)
      else s1
    | none => s1
/-- The receiver's chunk counts as done. -/
def State.markChunk (s : State) (id : Nat) (c : TileCopy) (r k : Nat) : State :=
  s.modTeam id fun tm => { tm with copies := tm.copies.map fun q =>
    if q.id = c.id then
      { q with recvs := q.recvs.map fun v => if v.team = r then { v with done := v.done ||| 2 ^ k } else v }
    else q }
/-- After the last chunk the copy leaves, and with `.post` its record is posted (R240, R244). -/
def State.tileLeaves (s : State) (id cid : Nat) : State :=
  match (s.team? id).bind fun tm => (tm.copies.find? fun c => c.id == cid).map fun c => (tm, c) with
  | none => s
  | some (tm, c) =>
    if c.recvs.all fun v => v.done == 2 ^ c.sh.chunks - 1 then
      let s1 := s.modTeam id fun tm => { tm with copies := tm.copies.filter fun q => q.id != cid }
      if c.post then s1.postRec id 2 (copyRec c.kind 0 (tm.whoOf c.o.thr) c.land 0) else s1
    else s

/-- The bytes of a chunk at a receiver of a `.ld` copy end unspecified (R243). -/
def State.freeTile (s : State) (keys : List (Option Nat)) : State :=
  keys.foldl (fun s k => match k with | some key => s.freeBytes key 16 | none => s) s
/-- The bytes of a chunk of a `.st` copy end unspecified (R243). -/
def State.freeUnits (s : State) (tm : Team) (c : TileCopy) (p : PeerAns) (units : List Nat) : State :=
  (units.filterMap (unitSpan c.sh c.xs none)).foldl (fun s u => (linePieces u.2.1 u.2.2).foldl (fun s q =>
    match s.engSlot tm q.1 p with
    | .ok key => s.freeBytes key q.2
    | .error _ => s) s) s
/-- The chunks not done of a receiver. -/
def TileCopy.undone (c : TileCopy) (v : Recv) : List Nat := (List.range c.sh.chunks).filter fun k => !bit v.done k
/-- What a faulted copy leaves at a receiver: free bytes, the MAP bits of its chunks not done, the barrier poisoned
(R243). DESIGN CHOICE (log 135): MAP words not yet zeroed are not zeroed first. -/
def State.faultAt (s : State) (tm : Team) (c : TileCopy) (p : PeerAns) (v : Recv) : State :=
  let s1 := (c.undone v).foldl (fun s k =>
    let s1 := if c.st then s.freeUnits tm c p (chunkUnits c.sh k)
      else match s.team? v.team with
        | some ru => s.freeTile (s.tileKeys ru c.sh c.d (chunkUnits c.sh k))
        | none => s
    s1.landChunk c v.team k false) s
  match (s1.team? v.team).bind fun u => s1.opndKey u 0 .core (c.land + 32) with
  | some key => if c.bar ∧ ¬ s1.poisoned key 16 then s1.barPoison (s1.byEngine tm key) key 2 else s1
  | none => s1
/-- A tile copy ends by a fault (R243): every receiver's chunks not done, then one record. -/
def State.tileFault (s : State) (tm : Team) (c : TileCopy) (p : PeerAns) (code addr space : Nat) : State :=
  let s1 := c.recvs.foldl (fun s v => s.faultAt tm c p v) (s.logEngine tm c.o code addr space 1)
  let s2 := s1.postRec tm.id 2 (copyRec (4 + c.kind) code (tm.whoOf c.o.thr) c.land addr)
  s2.modTeam tm.id fun tm => { tm with copies := tm.copies.filter fun q => q.id != c.id }

/-- A chunk of a `.ld` copy lands at a receiver (R237 to R239). -/
def State.runLoad (s : State) (tm ru : Team) (c : TileCopy) (k : Nat) (p : PeerAns) : State :=
  let units := chunkUnits c.sh k
  let keys := s.tileKeys ru c.sh c.d units
  let got : Except ERes (List (List Byte)) := match c.buf.find? fun b => b.1 == k with
    | some b => .ok ((List.range units.length).map fun u => (b.2.drop (16 * u)).take 16)
    | none => s.loadUnits tm c p units 0
  match got with
  | .error (.absent va) => s.engineMiss tm c.id va false
  | .error (.viol n a sp) => s.tileFault tm c p n a sp
  | .error (.ok _) | .error .held => s
  | .ok us =>
    let s1 := s.storeRuns ru.asid ((keys.zip us).filterMap fun q => q.1.map fun key => (key, q.2))
    let s2 := if c.kind = 2 then s1.modTeam tm.id fun tm => { tm with copies := tm.copies.map fun q =>
        if q.id = c.id ∧ (q.buf.all fun b => b.1 != k) then { q with buf := q.buf ++ [(k, us.flatten)] } else q } else s1
    ((s2.landChunk c ru.id k true).markChunk tm.id c ru.id k).tileLeaves tm.id c.id
/-- A chunk of a `.st` copy is written (R237). -/
def State.runStore (s : State) (tm : Team) (c : TileCopy) (k : Nat) (p : PeerAns) : State :=
  match s.storeUnits tm c p (chunkUnits c.sh k) with
  | .error (.absent va) => s.engineMiss tm c.id va true
  | .error (.viol n a sp) => s.tileFault tm c p n a sp
  | .error (.ok _) | .error .held => s
  | .ok ps =>
    let s1 := s.storeRuns tm.asid ps
    let rs := (ps.filter fun q => q.1 < 2 ^ 40).map fun q => (q.1, q.2.length)
    let s2 := if c.bar then s1.dropStale (fun u => u.span == tm.span) rs else rs.foldl (fun s r => s.l1DropRange tm.core r.1 r.2) s1
    ((s2.landChunk c tm.id k true).markChunk tm.id c tm.id k).tileLeaves tm.id c.id

/-- The `.mem` bytes of a chunk. -/
def State.chunkMem (s : State) (tm : Team) (c : TileCopy) (k : Nat) : List (Nat × Nat) :=
  (chunkUnits c.sh k).filterMap fun o => match s.gatherRow tm c o with
    | .ok row => (unitSpan c.sh c.xs row o).map fun u => u.2
    | .error _ => none
/-- CHUNK (R236, R240, R243): chunk k of a copy lands at a receiver, its MAP words zeroed before the first. DESIGN
CHOICE (log 135): no chunk lands at a receiver that has ended, so the copy stays in flight. -/
def execChunk (o : ChunkOp) (s : State) : Out :=
  match s.team? o.team with
  | none => .next s
  | some tm =>
    match tm.copies.find? fun c => c.id == o.id, s.team? o.recv with
    | some c, some ru =>
      match c.recvs.find? fun v => v.team == o.recv with
      | none => .next s
      | some v =>
        if tm.pageWaiting c.id ∨ ¬ s.engineOn tm (c.kind != 2) ∨ c.sh.chunks ≤ o.k ∨ bit v.done o.k then .next s else
        let s0 := s.sampleFor tm c.o (if c.buf.any fun b => b.1 == o.k then [] else s.chunkMem tm c o.k)
        let s1 := if v.zeroed then s0 else s0.zeroMap tm.id c ru.id
        let p : PeerAns := ⟨o.peer, o.peerOk, o.peerBad⟩
        .next (if c.st then s1.runStore tm c o.k p else s1.runLoad tm ru c o.k p)
    | _, _ => .next s

/-! ### CHKW and CHKT -/

/-- (word AND m) = m (R241). -/
def State.mapTest (s : State) (key m : Nat) : Bool := (s.read key 8 &&& m) == m

/-- CHKW (R241): its condition is tested as it issues. -/
def execChkw (c : Common) (o : ChkwOp) (s : State) : Out :=
  runEach (.chkw c o) (fun x cr t j s =>
    let ea := srcVal cr.k t false o.a
    let m := t.v64 o.b.val
    let a := s.checked x j .core ea 8 .rd 0
    if t.inSection then s.raise x j 8 1 x.iaddr.toNat else
    match a.r with
    | .ok key =>
      let w := fun (u : Op) => { u with key := key, len := 8, waited := !s.mapTest key m }
      if s.poisoned key 8 then s.raise x j 7 (poisonCause key) ea
      else if s.mapTest key m ∧ t.waits.isEmpty ∧ t.orderClear (w (mkOp x t (.chkw c o) s.nextId [])) then s
      else s.pushWait x j (.chkw c o) [ea, m] w
    | _ => s.access x t j (.chkw c o) a [ea] id []) s
/-- A waiting CHKW tests again (R74). -/
def State.retryChkw (s : State) (tm : Team) (i : Nat) (t : Thread) (o : Op) : State :=
  if s.poisoned o.key 8 then s.failWait tm.id i o 7 (poisonCause o.key) o.ea
  else if ¬ s.mapTest o.key (o.vals.getD 1 0) then s.markWaited tm.id i o.id
  else if ¬ t.orderClear o then s
  else s.endWait tm.id i { o with banked := some false } 14

/-- CHKT (R241). -/
def execChkt (c : Common) (o : ChktOp) (s : State) : Out :=
  runEach (.chkt c o) (fun x cr t j s =>
    let ea := srcVal cr.k t false o.a
    s.access x t j (.chkt c o) (s.checked x j .core ea 8 .rd 0) [ea, t.v64 o.b.val] id []) s
/-- CHKT performs and completes (R241). -/
def State.performChkt (s : State) (tm : Team) (i : Nat) (t : Thread) (o : Op) (p : PReg) : State :=
  if ¬ t.orderClear o then s
  else if s.poisoned o.key 8 then s.poisonOp tm.id i o [] o.ea
  else s.completePred tm.id i o p (s.mapTest o.key (o.vals.getD 1 0))

end Sys2Proof.Machine
end

