-- ==== Sys2Proof/Machine/Sort.lean ====
section
/-! DEFINITION. The key sort engine, chapter 09_copy.md (R245 to R248). -/

namespace Sys2Proof.Machine
open Sys2Proof

/-- SORT issues (R247, R442): the block is read as a load of the thread. -/
def execSort (c : Common) (a : Src) (s : State) : Out :=
  engineOp (.sort c a) (some 0) (fun k t => [⟨.core, srcVal k t false a, 48, 16⟩])
    (fun x tm cr t j s => s.pushKeyRead x tm j (.sort c a) .core (srcVal cr.k t false a) 48 []) s

/-- The bytes of a key, and of an array of n. -/
def SortJob.kb (q : SortJob) : Nat := if q.k64 then 8 else 4
/-- The space of the arrays. -/
def SortJob.space (q : SortJob) : Space := if q.core then .core else .mem
/-- The four arrays with their lengths: keys, values, work arrays (R245). -/
def SortJob.arrays (q : SortJob) : List (Nat × Nat) :=
  let k := q.count * q.kb
  let v := q.count * 4
  if q.noval then [(q.keys, k), (q.tkeys, k)] else [(q.keys, k), (q.vals, v), (q.tkeys, k), (q.tvals, v)]
/-- An array is aligned, and within the core share where it lies there (R245). -/
def arrayOk (tm : Team) (core : Bool) (a : Nat × Nat) : Bool :=
  a.1 % 16 == 0 && (!core || (a.1 + a.2 ≤ tm.coresh))

/-- The job a parameter block describes; none where it is malformed (R245). -/
def sortBlock (tm : Team) (o : Op) (thr : Nat) (bs : List Byte) (id : Nat) : Option SortJob :=
  let fl := fld bs 36 1
  let ib := fld bs 44 4
  let q : SortJob :=
    { id := id, o := o.origin tm thr, block := o.ea, keys := fld bs 0 8, vals := fld bs 8 8
      tkeys := fld bs 16 8, tvals := fld bs 24 8, count := fld bs 32 4, k64 := bit fl 0, core := bit fl 1
      noval := bit fl 2, kt := bits fl 4 3, bar := bit fl 5, dlo := fld bs 37 1, dhi := fld bs 38 1, obar := fld bs 40 4
      ibar := ib }
  if q.count ≤ 2 ^ 28 ∧ q.kt ≠ 3 ∧ fl < 64 ∧ q.dlo ≤ q.dhi ∧ q.dhi < q.kb ∧ fld bs 39 1 = 0 ∧ bits ib 3 2 = 0 ∧
      q.arrays.all (arrayOk tm q.core) then some q else none
/-- IBAR's enable, address and phase (R245). -/
def SortJob.ibarOn (q : SortJob) : Bool := bit q.ibar 1
def SortJob.ibarAddr (q : SortJob) : Nat := q.ibar / 16 * 16

/-- The key of a barrier of the sort's team. -/
def State.coreAt (s : State) (tm : Team) (a : Nat) : Option Nat := s.opndKey tm 0 .core a

/-- The keys and lengths of the arrays' bytes (R159). -/
def State.arrRanges (s : State) (tm : Team) (q : SortJob) : List (Nat × Nat) :=
  q.arrays.flatMap fun a =>
    if q.core then (match s.coreAt tm a.1 with | some key => [(key, a.2)] | none => []) else
    (lineSpans a.1 a.2).filterMap fun l => match s.resolve tm 0 false .mem l.1 1 .wr with
      | .ok key => some (key, l.2)
      | _ => none
/-! ### Misuse of the areas of a sort or a splat (R250, R321) -/

def SplatCmd.core (c : SplatCmd) : Bool := bit c.flags 0
def SplatCmd.lmode (c : SplatCmd) : Bool := bit c.flags 1
/-- n bytes at an address of a splat's area, as keys; those that cannot be read are left out. -/
def State.splatKeysAt (s : State) (tm : Team) (core : Bool) (a n : Nat) : List (Nat × Nat) :=
  if core then (match s.coreAt tm a with | some key => [(key, n)] | none => []) else
  (lineSpans a n).filterMap fun l => match s.resolve tm 0 false .mem l.1 1 .rd with
    | .ok key => some (key, l.2)
    | _ => none
/-- The feature words that the records name, as addresses (R313). -/
def State.splatFeatAt (s : State) (tm : Team) (c : SplatCmd) : List (Nat × Nat) :=
  let bs := (s.splatKeysAt tm c.core c.list (32 * c.count)).flatMap fun r => s.bytes r.1 r.2
  (List.range (bs.length / 32)).map fun i => (c.feat + fld (bs.drop (32 * i)) 28 4 * c.fstr, 4 * c.nch)
/-- LIST, FEAT, WORK and OUT, where they can be read (R321). -/
def State.splatAreas (s : State) (tm : Team) (c : SplatCmd) : List (Nat × Nat) :=
  s.splatKeysAt tm c.core c.list (32 * c.count) ++ s.splatKeysAt tm true c.work (16 * c.count) ++
    (if c.lmode then [] else s.splatKeysAt tm true c.out 8192) ++
    (s.splatFeatAt tm c).flatMap fun f => s.splatKeysAt tm c.core f.1 f.2
/-- The sorts and splats of a team that have begun note the writes of this step to their areas. -/
def State.noteTeam (s : State) (tm : Team) : Team :=
  { tm with
    sorts := tm.sorts.map fun q => { q with clash := q.clash || (q.started && s.wroteIn (s.arrRanges tm q)) }
    splats := tm.splats.map fun c => { c with clash := c.clash || (c.begun && s.wroteIn (s.splatAreas tm c)) } }
/-- Every sort and splat in flight, those of saved spans included, notes the writes of this step to its areas (R250, R321). -/
def State.noteMisuse (s : State) : State :=
  if s.wrote.isEmpty then s else
  { s with teams := s.teams.map s.noteTeam, saved := s.saved.map fun p => { p with teams := p.teams.map s.noteTeam } }
/-- The writes since `s0` are those of the unit that makes them: every other sort and splat notes them. -/
def State.ownWrites (s s0 : State) : State := { s.noteMisuse with wrote := s0.wrote }

/-- SORT completes (R247, R442): the block is checked, and the sort accepted. -/
def State.performSort (s : State) (tm : Team) (i : Nat) (t : Thread) (o : Op) : State :=
  if ¬ s.blockReady tm t o then s else
  match s.blockBytes o with
  | none => s.poisonOp tm.id i o [] o.ea
  | some bs =>
    match sortBlock tm o i bs s.nextId with
    | none => s.failOp tm.id i o 13 0 o.ea
    | some q =>
      let opnds : List EngOpnd := (if q.bar then [⟨.core, q.obar, 16, 16⟩] else []) ++
        (if q.ibarOn then [⟨.core, q.ibarAddr, 16, 16⟩] else [])
      match s.badOpnd tm i opnds with
      | some (b, n) => s.violateLate tm.id i o n b.ea 2
      | none =>
        (State.modTeam { s with nextId := s.nextId + 1 } tm.id fun tm => { tm with sorts := tm.sorts ++ [q] }).completeOp
          tm.id i o []

/-! ### Running -/

/-- The Q3 record of a sort (R248). -/
def sortRec (status : Nat) (q : SortJob) (who : Nat) : List Byte :=
  natLe 4 status ++ natLe 4 q.block ++ natLe 4 q.count ++ natLe 4 who
/-- The sort leaves. -/
def State.sortLeaves (s : State) (tm : Team) (q : SortJob) : State :=
  s.modTeam tm.id fun tm => { tm with sorts := tm.sorts.filter fun r => r.id != q.id }
def State.modSort (s : State) (id sid : Nat) (f : SortJob → SortJob) : State :=
  s.modTeam id fun tm => { tm with sorts := tm.sorts.map fun r => if r.id = sid then f r else r }
/-- An array read by the engine (R243, R247). -/
def State.readArr (s : State) (tm : Team) (q : SortJob) (p : PeerAns) (a : Nat × Nat) : Except ERes (List Byte) :=
  if q.core then
    match s.coreAt tm a.1 with
    | some key => match s.engKey key a.2 a.1 2 with
      | .ok bs => .ok bs
      | e => .error e
    | none => .error (.viol 6 a.1 2)
  else (s.readPieces tm p (lineSpans a.1 a.2) 0).map fun r => r.1
/-- Where an array's bytes are written, line by line. -/
def State.arrPieces (s : State) (tm : Team) (q : SortJob) (p : PeerAns) (a : Nat) (bs : List Byte) :
    Except ERes (List (Nat × List Byte)) :=
  if q.core then
    match s.coreAt tm a with
    | some key => .ok [(key, bs)]
    | none => .error (.viol 6 a 2)
  else s.slotPieces tm p (lineSpans a bs.length) bs
/-- Every array of the sort takes free bytes (R243, R250). -/
def State.freeArrays (s : State) (rs : List (Nat × Nat)) : State := rs.foldl (fun s r => s.freeBytes r.1 r.2) s

/-- The object that a sort's completion counts into (R245). -/
def State.obarKey (s : State) (tm : Team) (q : SortJob) : Option Nat := if q.bar then s.coreAt tm q.obar else none
/-- A sort ends by a fault (R243). -/
def State.sortFault (s : State) (tm : Team) (q : SortJob) (code addr space : Nat) : State :=
  let s1 := (s.freeArrays (s.arrRanges tm q)).logEngine tm q.o code addr space 2
  (s1.postBoth tm.id (s.obarKey tm q) 0 0 2 3 (sortRec code q (tm.whoOf q.o.thr))).sortLeaves tm q

/-- The sort of a team by its name. -/
def State.sort? (s : State) (o : WorkRef) : Option (Team × SortJob) :=
  (s.team? o.team).bind fun tm => (tm.sorts.find? fun q => q.id == o.id).map fun q => (tm, q)
/-- The sort engine of a cluster runs a sort, of a SORT or of a SPLAT (R247, R314). -/
def State.sorting (s : State) (cluster : Nat) : Bool :=
  s.teams.any fun tm => clusterOf tm.core == cluster && ((tm.sorts.any fun q => q.going) || tm.splats.any fun c => c.going)

/-- SORT_START (R247): the sort begins once its input barrier lets it, or after a restore goes on, with the cluster's engine;
a poisoned barrier ends it. DESIGN CHOICE (log 136): an uncorrectable error in the barrier's bytes is a fault of the sort. -/
def execSortStart (o : WorkRef) (s : State) : Out :=
  match s.sort? o with
  | none => .next s
  | some (tm, q) =>
    if s.sorting (clusterOf tm.core) ∨ ¬ s.engineOn tm true then .next s else
    let go := s.modSort tm.id q.id fun r => { r with started := true, going := true }
    if q.started ∨ ¬ q.ibarOn then .next go else
    match s.coreAt tm q.ibarAddr with
    | none => .next s
    | some key =>
      if s.poisoned key 16 then .next (s.sortFault tm q 64 q.ibarAddr 2)
      else match barwTest (s.barObj key) (q.ibar % 2) with
        | none => .next s
        | some true => .next go
        | some false =>
          .next ((s.postBoth tm.id (s.obarKey tm q) 0 0 6 3 (sortRec 65 q (tm.whoOf q.o.thr))).sortLeaves tm q)

/-- The transformed key (R246). -/
def sortKey (q : SortJob) (k : Nat) : Nat :=
  let top := 2 ^ (8 * q.kb - 1)
  match q.kt with
  | 0 => k
  | 1 => k ^^^ top
  | _ => if top ≤ k then (2 * top - 1) - k else k + top
/-- One stable pass on a digit (R246). -/
def sortDigit (q : SortJob) (d : Nat) (ps : List (Nat × Nat)) : List (Nat × Nat) :=
  (List.range 256).flatMap fun v => ps.filter fun p => sortKey q p.1 / 2 ^ (8 * d) % 256 == v

/-- The passes of a sort: one a digit, and a copy where they are odd (R246). -/
def SortJob.total (q : SortJob) : Nat :=
  if q.count = 0 then 0 else
  let n := q.dhi - q.dlo + 1
  n + n % 2
/-- The arrays that pass p reads and writes. -/
def SortJob.source (q : SortJob) (p : Nat) : Nat × Nat := if p % 2 = 0 then (q.keys, q.vals) else (q.tkeys, q.tvals)
def SortJob.target (q : SortJob) (p : Nat) : Nat × Nat := q.source (p + 1)
/-- Bytes as numbers of w bytes. -/
def wordsBy (w n : Nat) (bs : List Byte) : List Nat := (List.range n).map fun i => leNat ((bs.drop (w * i)).take w)

/-- A pass moves the pairs from one pair of arrays to the other (R246); an access that cannot be made, with whether it
is a write. -/
def State.movePass (s : State) (tm : Team) (q : SortJob) (p : PeerAns) : Except (ERes × Bool) State :=
  let src := q.source q.passes
  let dst := q.target q.passes
  let p2 : PeerAns := { p with data := p.data.drop (q.count * q.kb) }
  match s.readArr tm q p (src.1, q.count * q.kb), if q.noval then .ok [] else s.readArr tm q p2 (src.2, q.count * 4) with
  | .error e, _ => .error (e, false)
  | _, .error e => .error (e, false)
  | .ok kb, .ok vb =>
    let ks := wordsBy q.kb q.count kb
    let vs := if q.noval then List.replicate q.count 0 else wordsBy 4 q.count vb
    let d := q.dlo + q.passes
    let ps := if q.dhi < d then ks.zip vs else sortDigit q d (ks.zip vs)
    match s.arrPieces tm q p dst.1 (ps.flatMap fun x => natLe q.kb x.1),
        if q.noval then .ok [] else s.arrPieces tm q p dst.2 (ps.flatMap fun x => natLe 4 x.2) with
    | .error e, _ => .error (e, true)
    | _, .error e => .error (e, true)
    | .ok kp, .ok vp => .ok (s.storeRuns tm.asid (kp ++ vp))
/-- A pass of the sort, or what it meets (R243, R246). -/
def State.sortPass (s : State) (tm : Team) (q : SortJob) (p : PeerAns) : State :=
  match s.movePass tm q p with
  | .error (.absent va, w) => s.engineMiss tm q.id va w
  | .error (.viol n a sp, _) => s.sortFault tm q n a sp
  | .error (.ok _, _) | .error (.held, _) => s
  | .ok s1 => (s1.ownWrites s).modSort tm.id q.id fun r => { r with passes := r.passes + 1, clash := q.clash }

/-- SORT_PASS (R246). -/
def execSortPass (o : WorkRef) (s : State) : Out :=
  match s.sort? o with
  | none => .next s
  | some (tm, q) =>
    if ¬ q.going ∨ q.total ≤ q.passes ∨ tm.pageWaiting q.id ∨ ¬ s.engineOn tm true then .next s
    else
      let rs := if q.core then [] else [q.source q.passes, q.target q.passes].flatMap fun a =>
        (a.1, q.count * q.kb) :: if q.noval then [] else [(a.2, 4 * q.count)]
      .next ((s.sampleFor tm q.o rs).sortPass tm q ⟨o.peer, o.peerOk, o.peerBad⟩)

/-- Two arrays of the sort overlap (R250). -/
def overlapAny : List (Nat × Nat) → Bool
  | [] => false
  | a :: as => as.any (fun b => overlap a.1 a.2 b.1 b.2) || overlapAny as

/-- SORT_COMPLETE (R246 to R248, R250): the work arrays, or all where they overlap or another agent has written them, end
unspecified; the barrier counts, then the record is posted. -/
def execSortComplete (o : WorkRef) (s : State) : Out :=
  match s.sort? o with
  | none => .next s
  | some (tm, q) =>
    if ¬ q.going ∨ q.passes ≠ q.total ∨ ¬ s.engineOn tm true then .next s else
    let rs := s.arrRanges tm q
    let work := s.arrRanges tm { q with keys := q.tkeys, vals := q.tvals }
    let s1 := s.freeArrays (if overlapAny q.arrays || q.clash then rs else work)
    let n := q.count * (q.kb + if q.noval then 0 else 4)
    .next ((s1.postBoth tm.id (s1.obarKey tm q) 0 n 0 3 (sortRec 0 q (tm.whoOf q.o.thr)) rs).sortLeaves tm q)

end Sys2Proof.Machine
end

