-- ==== Sys2Proof/Machine/Matrix.lean ====
section
/-! DEFINITION. Matrix commands, chapter 10_matrix.md: Q0 (R267, R268), MMX and its passes (R251 to R261, R269, R277), the
other commands (R278 to R280), power gating (R273, R274, R281) and MMSTAT (R282). -/

namespace Sys2Proof.Machine
open Sys2Proof

/-! ### Tiles -/

/-- The key of word (r, c) of tile n in the team's accumulator table, and of double (r, c) of the pair n, n + 1 (R252). -/
def accKey (n r c : Nat) : Nat := n * 8192 + r * 64 + c
def accKey64 (n r c : Nat) : Nat := accKey (n + c / 32) r (2 * (c % 32))
/-- A word, or a double, of a tile (R252). -/
def Team.accGet (tm : Team) (wide : Bool) (n r c : Nat) : Nat :=
  if wide then tabGet 0 tm.acc (accKey64 n r c) + 2 ^ 32 * tabGet 0 tm.acc (accKey64 n r c + 1)
  else tabGet 0 tm.acc (accKey n r c)
def Team.accPut (tm : Team) (wide : Bool) (n r c v : Nat) : Team :=
  { tm with acc := if wide then
      tabPut 0 (tabPut 0 tm.acc (accKey64 n r c) (v % 2 ^ 32)) (accKey64 n r c + 1) (v / 2 ^ 32 % 2 ^ 32)
    else tabPut 0 tm.acc (accKey n r c) (v % 2 ^ 32) }
/-- The words of a tile are 0. -/
def Team.accZero (tm : Team) (n : Nat) : Team := { tm with acc := tm.acc.filter fun e => e.1 / 8192 != n }
def Team.epiOf (tm : Team) (n : Nat) : Nat := tabGet 0 tm.epi n
def Team.setEpi (tm : Team) (n e : Nat) : Team := { tm with epi := tabPut 0 tm.epi n e }
def Team.tileBad (tm : Team) (n : Nat) : Bool := tabGet false tm.accBad n
def Team.setTileBad (tm : Team) (n : Nat) (b : Bool) : Team := { tm with accBad := tabPut false tm.accBad n b }

/-! ### Q0 -/

/-- A command enters Q0, an MMX with its block; or its thread waits for room before it issues (R267). DESIGN CHOICE (log 129):
the commands of one issue group enter in the order of their lanes. -/
def State.pushCmd (s : State) (x : Issue) (tm : Team) (t : Thread) (j : Nat) (i : Instr) (vals : List Nat)
    (blk : Option MxBlk := none) : State :=
  if 16 ≤ tm.q0.length then s.stallFor x j else
  let s1 := s.wakeRoom x j 4
  (s1.pushOp x j i vals).modTeam x.team fun tm =>
    { tm with q0 := tm.q0 ++ [{ id := s1.nextId, o := originOf tm x t j, i := i, vals := vals, blk := blk }] }
def State.modCmd (s : State) (id cid : Nat) (f : MxCmd → MxCmd) : State :=
  s.modTeam id fun tm => { tm with q0 := tm.q0.map fun c => if c.id = cid then f c else c }
def State.dropCmd (s : State) (id cid : Nat) : State :=
  s.modTeam id fun tm => { tm with q0 := tm.q0.filter fun c => c.id != cid }
/-- The command completes: it leaves Q0 and its thread's counter decrements (R268). -/
def State.mxDone (s : State) (tm : Team) (c : MxCmd) (ws : List (Nat × Word)) : State :=
  match s.op? tm.id c.o.thr c.id with
  | some o => (s.dropCmd tm.id c.id).completeOp tm.id c.o.thr o ws
  | none => s.dropCmd tm.id c.id
/-- A Q1 record, after the event of its operation's barrier if any (its key, arrivals and the cause of a poisoning); KIND 2
to 5 set the sticky POIS (R271, R277, R282). -/
def State.mxRecord (s : State) (tm : Team) (c : MxCmd) (kind xf tag addr : Nat) (bar : Option (Nat × Nat × Nat) := none) :
    State :=
  let data := natLe 1 kind ++ natLe 1 xf ++ natLe 2 (tm.whoOf c.o.thr) ++ natLe 4 tag ++ natLe 8 addr
  let s1 := match bar with
    | some (key, a, poison) => s.postBoth tm.id (some key) a 0 poison 1 data
    | none => s.postRec tm.id 1 data
  if 2 ≤ kind then s1.modTeam tm.id fun tm => { tm with mxSticky := tm.mxSticky ||| 8 } else s1
/-- Status bits join the sticky bits (R282). -/
def State.mxStatus (s : State) (id xf : Nat) : State := s.modTeam id fun tm => { tm with mxSticky := tm.mxSticky ||| xf }
/-- An event, or a poisoning, of a barrier of the team's core share (R205, R206). -/
def State.coreEvent (s : State) (tm : Team) (a arr n poison : Nat) (ranges : List (Nat × Nat) := []) : State :=
  match s.coreAt tm a with
  | some key => s.postEvent tm.id key arr n poison ranges
  | none => s

/-! ### Issue -/

/-- A shape operand: stride, rows (R276). -/
def shapeStride (v : Nat) : Nat := v % 2 ^ 20
def shapeRows (v : Nat) : Nat := bits v 26 20 + 1
def shapeOk (v : Nat) : Bool := shapeStride v % 16 == 0 && v / 2 ^ 27 == 0
/-- The address operand of a matrix instruction. -/
def coreOpnd (a n al : Nat) : EngOpnd := ⟨.core, a, n, al⟩

/-- MMZERO (R278). -/
def execMmzero (c : Common) (o : MmzeroOp) (s : State) : Out :=
  engineOp (.mmzero c o) (some 1) (fun _ _ => []) (fun x tm _ t j s => s.pushCmd x tm t j (.mmzero c o) []) s
/-- The row length of an MMLD (R278). -/
def mmldRow (o : MmldOp) : Nat := if o.pair then 512 else 256
/-- MMLD (R278): its source range, shape and epilogue word are checked at issue (R276, R442). -/
def execMmld (c : Common) (o : MmldOp) (s : State) : Out :=
  engineOp (.mmld c o) (some 1)
    (fun k t =>
      let b := srcVal k t false o.b
      [coreOpnd (srcVal k t false o.a) ((shapeRows b - 1) * shapeStride b + mmldRow o) (if o.pair then 8 else 4)])
    (fun x tm cr t j s =>
      let b := srcVal cr.k t false o.b
      let e := optVal cr.k t false o.ew
      if ¬ shapeOk b ∨ shapeStride b < mmldRow o then s.raise x j 14 0 b
      else if ¬ epiOk e o.n.val tm.tileShare (!o.pair) then s.raise x j 14 0 e
      else s.pushCmd x tm t j (.mmld c o) [srcVal cr.k t false o.a, b, e]) s
/-- MMST (R279): its barrier and shape are checked at issue, its destination when it runs. -/
def execMmst (c : Common) (o : MmstOp) (s : State) : Out :=
  engineOp (.mmst c o) (some 1)
    (fun k t => match o.bar with | some d => [coreOpnd (srcVal k t false d) 16 16] | none => [])
    (fun x tm cr t j s =>
      let a := srcVal cr.k t o.mem o.a
      let b := srcVal cr.k t false o.b
      if ¬ shapeOk b then s.raise x j 14 0 b else
      let z := epiSize (tm.epiOf o.n.val)
      let s1 := if tm.q0.length < 16 then
          s.observeIssue x j t (some (.mem 3 (some (if o.mem then 0 else 2)) a
            (a + (shapeRows b - 1) * shapeStride b + 64 * z - 1) none))
        else s
      s1.pushCmd x tm t j (.mmst c o) [a, b, optVal cr.k t false o.bar]) s
/-- The position of an MMRD: row and first column (R280). -/
def mmrdRow (b : Nat) : Nat := b % 128
def mmrdCol (b : Nat) : Nat := bits b 13 8
/-- MMRD (R280). -/
def execMmrd (c : Common) (o : MmrdOp) (s : State) : Out :=
  engineOp (.mmrd c o) (some 1) (fun _ _ => []) (fun x tm cr t j s =>
    let b := srcVal cr.k t false o.b
    if mmrdCol b % 2 ^ o.nw.val ≠ 0 then s.raise x j 14 0 b else s.pushCmd x tm t j (.mmrd c o) [b]) s

/-! ### The parameter block -/

/-- A block's fields (R256). -/
def mxBlock (ea : Nat) (bs : List Byte) : MxBlk :=
  { ea := ea, abase := fld bs 0 4, astr := fld bs 4 4, asc := fld bs 8 4, bsc := fld bs 12 4, ascstr := fld bs 16 2
    bscstr := fld bs 18 2, kcnt := fld bs 20 4, afmt := fld bs 24 1, bfmt := fld bs 25 1, blk := fld bs 26 1
    mb := fld bs 27 1, nq := fld bs 28 1, acc := fld bs 29 1, breg := fld bs 30 1, bstrand := fld bs 31 1
    flags := fld bs 32 2, ibar := fld bs 36 4, obar := fld bs 40 4, epi := fld bs 44 4, tag := fld bs 48 4 }
/-- ZERO, BAR, POST and REUSEA (R257). -/
def MxBlk.zero (b : MxBlk) : Bool := bit b.flags 0
def MxBlk.bar (b : MxBlk) : Bool := bit b.flags 4
def MxBlk.post (b : MxBlk) : Bool := bit b.flags 5
def MxBlk.reuse (b : MxBlk) : Bool := bit b.flags 6
def MxBlk.wide (b : MxBlk) : Bool := b.afmt == 1
/-- IBAR's enable and address (R256). -/
def MxBlk.ibarOn (b : MxBlk) : Bool := bit b.ibar 1
def MxBlk.ibarAddr (b : MxBlk) : Nat := b.ibar / 16 * 16
/-- The block is well formed for a team and crew (R259). -/
def mxBlockOk (tm : Team) (cr : Crew) (b : MxBlk) (bs : List Byte) : Bool :=
  mxPair b.afmt b.bfmt && 1 ≤ b.kcnt && b.kcnt ≤ 2 ^ 20 && b.blk ≤ 2 &&
  (b.blk == 0 || (6 ≤ b.afmt && b.afmt ≤ 10 && 6 ≤ b.bfmt && b.bfmt ≤ 10)) &&
  1 ≤ b.mb && b.mb ≤ 4 && 1 ≤ b.nq && b.nq ≤ 4 && b.flags < 2 ^ 7 && fld bs 34 2 == 0 && fld bs 52 12 == 0 &&
  bits b.ibar 3 2 == 0 && (b.afmt == 12 || bits b.flags 3 1 == 0) &&
  b.astr % 16 == 0 && ceilDiv (b.kcnt * mxBits b.afmt) 8 ≤ b.astr &&
  (b.blk == 0 || (ceilDiv b.kcnt (mxBlockSize b.blk) ≤ b.ascstr && ceilDiv b.kcnt (mxBlockSize b.blk) ≤ b.bscstr)) &&
  (if b.wide then b.acc % 2 == 0 && b.acc + 1 < tm.tileShare else b.acc < tm.tileShare) &&
  b.breg + mxPb b.afmt * b.total ≤ cr.budget && 64 * (b.bstrand + 1) ≤ cr.threads &&
  epiOk b.epi b.acc tm.tileShare (!b.wide && b.afmt != 12) && (b.afmt != 12 || b.epi % 16 == 0)
/-- The address fields of a block in ascending offset (R259, R442). -/
def mxOpnds (b : MxBlk) : List EngOpnd :=
  let k := ceilDiv b.kcnt (mxBlockSize b.blk)
  [coreOpnd b.abase (32 * b.mb * b.astr) 16] ++
  (if b.blk = 0 then [] else [coreOpnd b.asc ((32 * b.mb - 1) * b.ascstr + k) 1,
    coreOpnd b.bsc ((16 * b.nq - 1) * b.bscstr + k) 1]) ++
  (if b.ibarOn then [coreOpnd b.ibarAddr 16 16] else []) ++ (if b.bar then [coreOpnd b.obar 16 16] else [])

/-- MMX (R277): the block is read as a load of the thread (R152) and checked (R259), its faults late (R442); then the command
enters Q0, where there is room. -/
def execMmx (c : Common) (a : Src) (s : State) : Out :=
  engineOp (.mmx c a) (some 1) (fun k t => [coreOpnd (srcVal k t false a) 64 64]) (fun x tm cr t j s =>
    let ea := srcVal cr.k t false a
    match s.scratchKey tm j .core ea with
    | .error n => s.violateIssue x j n ea 2
    | .ok key =>
      let s1 := s.forceEarlier x.team j key 64
      let bs := s1.bytes key 64
      let b := mxBlock ea bs
      if s1.poisoned key 64 then s1.reportIssue x j 7 (poisonCause key) ea
      else if ¬ mxBlockOk tm cr b bs then s1.reportIssue x j 14 0 ea
      else match s1.badOpnd tm j (mxOpnds b) with
        | some (q, n) => s1.violateIssue x j n q.ea 2
        | none => s1.pushCmd x tm t j (.mmx c a) [] (some b)) s

/-! ### Arrays -/

def State.modArray (s : State) (core q : Nat) (f : ArrayUnit → ArrayUnit) : State :=
  s.modCore core fun c => { c with arrays := c.arrays.modify q f }
def State.array (s : State) (core q : Nat) : ArrayUnit := ((s.cores[core]?.map fun c => c.arrays).getD []).getD q {}
/-- WAKE of MXCAP (R273). -/
def mxWake : Nat := 96
/-- A wake starts where the array is gated; an awake array's idle count restarts (R274, R281). -/
def ArrayUnit.wake (a : ArrayUnit) : ArrayUnit :=
  if ¬ a.gated then { a with idle := 0 } else if a.waking ≠ 0 then a else { a with waking := mxWake + 1 }
/-- The command at the head of Q0 that runs on the arrays now, with its block. -/
def Team.running (tm : Team) : Option (MxCmd × MxBlk) :=
  match tm.q0.head? with
  | some c => match c.blk with
    | some b => if c.started then some (c, b) else none
    | none => none
  | none => none
/-- An array has a pass to run. -/
def State.arrayBusy (s : State) (core q : Nat) : Bool :=
  s.teams.any fun tm => tm.core == core && match tm.running with
    | some (c, b) => q < b.mb && decide (c.passes < b.total)
    | none => false
/-- n cc pass for an array that has a pass to run, or has none (R274). -/
def ArrayUnit.run (n : Nat) (busy : Bool) (a : ArrayUnit) : ArrayUnit :=
  { a with idle := if busy then 0 else a.idle + n, waking := if a.waking = 0 then 0 else max 1 (a.waking - n) }
/-- n cc pass for the arrays of every core (R274). -/
def State.runArrays (s : State) (n : Nat) : State :=
  { s with cores := ((List.range s.cores.length).zip s.cores).map fun c =>
      { c.2 with arrays := ((List.range c.2.arrays.length).zip c.2.arrays).map fun a =>
          a.2.run n (s.arrayBusy c.1 a.1) } }

/-- ARRAY_IDLE_GATE (R273, R274). -/
def execArrayIdleGate (o : ArrayRef) (s : State) : Out :=
  match s.cores[o.core.val]? with
  | none => .next s
  | some c =>
    let a := s.array o.core.val o.q.val
    let lim := c.mxgate.toNat % 2 ^ 16
    if lim ≠ 0 ∧ ¬ a.gated ∧ lim ≤ a.idle ∧ ¬ s.arrayBusy o.core.val o.q.val then
      .next (s.modArray o.core.val o.q.val fun a => { a with gated := true, waking := 0 })
    else .next s
/-- ARRAY_WAKE_COMPLETE (R274): once its cc have passed. -/
def execArrayWakeComplete (o : ArrayRef) (s : State) : Out :=
  let a := s.array o.core.val o.q.val
  if a.gated ∧ a.waking = 1 then
    .next (s.modArray o.core.val o.q.val fun a => { a with gated := false, waking := 0, idle := 0 })
  else .next s

/-- MMWAKE (R281). -/
def execMmwake (c : Common) (mask : Fin 16) (s : State) : Out :=
  engineOp (.mmwake c mask) (some 1) (fun _ _ => []) (fun x tm _ _ j s =>
    let s1 := (List.range 4).foldl (fun s q => if bit mask.val q then s.modArray tm.core q ArrayUnit.wake else s) s
    s1.pushOp x j (.mmwake c mask) []) s
/-- MMWAKE completes when the named arrays are awake (R281). -/
def State.performMmwake (s : State) (tm : Team) (i : Nat) (mask : Nat) (o : Op) : State :=
  if (List.range 4).all fun q => !bit mask q || !(s.array tm.core q).gated then s.completeOp tm.id i o [] else s

/-- MMSTAT (R282). -/
def execMmstat (c : Common) (o : MmstatOp) (s : State) : Out :=
  runEach (.mmstat c o) (fun x _ _ j s => s.pushOp x j (.mmstat c o) []) s
/-- MMSTAT reads the status, clears the sticky bits if asked, and completes (R282). -/
def State.performMmstat (s : State) (tm : Team) (i : Nat) (q : MmstatOp) (o : Op) : State :=
  let gated := (List.range 4).foldl (fun m a => m + b2n (s.array tm.core a).gated * 2 ^ a) 0
  let v := tm.q0.length % 32 + gated * 2 ^ 5 + tm.mxSticky % 16 * 2 ^ 9 + tm.mxDone % 2 ^ 32 * 2 ^ 16
  let s1 := if q.clr then s.modTeam tm.id fun tm => { tm with mxSticky := 0 } else s
  s1.completeOp tm.id i o (vPut true q.d.val v)

/-! ### An MMX runs -/

/-- The rows of A of array q: the whole rows in memory (R253). -/
def State.aRows (s : State) (tm : Team) (b : MxBlk) (q : Nat) : List (List Byte) :=
  let n := ceilDiv (b.kcnt * mxBits b.afmt) 8
  (List.range 32).map fun i => match s.coreAt tm (b.abase + (32 * q + i) * b.astr) with
    | some key => s.bytes key n
    | none => []
/-- The fields a buffer is valid for (R255). -/
def MxBlk.bufFields (b : MxBlk) : List Nat := [b.abase, b.astr, b.kcnt, b.afmt, b.blk, b.mb] ++ (if b.blk = 0 then [] else [b.asc, b.ascstr])
/-- The buffer of array q is valid for the operation (R255). -/
def State.bufValid (s : State) (tm : Team) (b : MxBlk) (q : Nat) : Bool :=
  b.reuse && match (s.array tm.core q).buf with
    | some u => u.team == tm.id && u.fields == b.bufFields
    | none => false
/-- The A buffers as the operation leaves them (R255): kept where it is valid, else filled where the rows fit. DESIGN
CHOICE (log 138): a buffer filled from bytes with an uncorrectable error holds them as they stand, without the error. -/
def State.fillBufs (s : State) (tm : Team) (b : MxBlk) : State :=
  let fits := ceilDiv (b.kcnt * mxBits b.afmt) 8 ≤ 1536
  (List.range 4).foldl (fun s q =>
    if s.bufValid tm b q then s
    else if q < b.mb ∧ fits then s.modArray tm.core q fun a =>
      { a with buf := some { team := tm.id, fields := b.bufFields, rows := s.aRows tm b q } }
    else if q < b.mb ∨ ¬ b.reuse then s.modArray tm.core q fun a => { a with buf := none }
    else s) s

/-- The tiles of an operation: ACC, or its pair in slice mode. -/
def MxBlk.tiles (b : MxBlk) : List Nat := if b.wide then [b.acc, b.acc + 1] else [b.acc]
/-- The arrays an operation needs start their wakes where they are gated (R274). -/
def State.wakeArrays (s : State) (core : Nat) (b : MxBlk) : State :=
  (List.range 4).foldl (fun s q => if q < b.mb then s.modArray core q ArrayUnit.wake else s) s
/-- The operation begins (R260, R277): epilogue word, zeroed words under ZERO, the A buffers and the wakes it needs. -/
def State.beginMmx (s : State) (tm : Team) (c : MxCmd) (b : MxBlk) : State :=
  let use := (List.range 4).map fun q => s.bufValid tm b q && Config.freeBit s.tick q
  let s1 := s.modTeam tm.id fun tm =>
    let tm := tm.setEpi b.acc b.epi
    if b.zero then
      (List.range (32 * b.mb)).foldl (fun tm r => (List.range (16 * b.nq)).foldl (fun tm j => tm.accPut b.wide b.acc r j 0) tm) tm
    else tm
  ((s1.fillBufs tm b).wakeArrays tm.core b).modCmd tm.id c.id fun c => { c with started := true, useBuf := use }

/-- The operation retires (R268, R269, R277): OBAR, then the record; DONE, completion. -/
def State.retireMmx (s : State) (tm : Team) (c : MxCmd) (b : MxBlk) (kind poison : Nat) : State :=
  let arr := if poison = 0 then 1 else 0
  let bar := if b.bar then (s.coreAt tm b.obar).map fun key => (key, arr, poison) else none
  let s2 := if kind = 1 ∧ ¬ b.post then (if b.bar then s.coreEvent tm b.obar arr 0 poison else s)
    else s.mxRecord tm c kind c.xf b.tag b.ea bar
  ((s2.mxStatus tm.id c.xf).modTeam tm.id fun tm => { tm with mxDone := (tm.mxDone + 1) % 2 ^ 32 }).mxDone tm c []

/-- The bytes of pass p of row r of A, from the buffer while it is valid or from memory; none where they are poisoned (R253,
R255). -/
def State.aBytes (s : State) (tm : Team) (c : MxCmd) (b : MxBlk) (p r : Nat) : Option (List Byte) :=
  let off := mxKp b.afmt * mxBits b.afmt / 8 * p
  let n := ceilDiv (b.elems p * mxBits b.afmt) 8
  match (s.array tm.core (r / 32)).buf.filter fun u =>
      c.useBuf.getD (r / 32) false && u.team == tm.id && u.fields == b.bufFields with
  | some u => some (((u.rows.getD (r % 32) []).drop off).take n)
  | none => match s.coreAt tm (b.abase + r * b.astr + off) with
    | some key => if s.poisoned key n then none else some (s.bytes key n)
    | none => none
/-- The elements of a pass in its bytes. -/
def passElems (code n : Nat) (bs : List Byte) : List Nat := (List.range n).map fun i => packElem (mxBits code) bs i
/-- The scale byte of row or column i and a block; none where it is poisoned (R256). -/
def State.scaleByte (s : State) (tm : Team) (base str i blk : Nat) : Option Nat :=
  match s.coreAt tm (base + i * str + blk) with
  | some key => if s.poisoned key 1 then none else some (s.read key 1)
  | none => none
/-- The blocks that pass p touches (R265). -/
def passBlocks (b : MxBlk) (p : Nat) : List Nat :=
  if b.blk = 0 then [] else
  let k0 := mxKp b.afmt * p
  (List.range ((k0 + b.elems p - 1) / mxBlockSize b.blk - k0 / mxBlockSize b.blk + 1)).map fun i => k0 / mxBlockSize b.blk + i
/-- Every value of a list of options; none where one is absent. -/
def allSome {α : Type} : List (Option α) → Option (List α)
  | [] => some []
  | some a :: r => (allSome r).map fun l => a :: l
  | none :: _ => none

/-- The thread on lane j of strand BSTRAND of the issuing crew (R254). -/
def colThread (tm : Team) (c : MxCmd) (b : MxBlk) (j : Nat) : Option Thread :=
  match tm.threads[c.o.thr]? with
  | some t => tm.threads.find? fun u => u.crew == t.crew && u.strand == b.bstrand && u.lane == j
  | none => none
/-- A B register of column j, as read ahead of its pass or as it stands; none where it holds an uncorrectable error (R254). -/
def bReg (tm : Team) (c : MxCmd) (b : MxBlk) (j r : Nat) : Option Word :=
  match c.got.find? fun g => g.1 == (j, r) with
  | some g => g.2
  | none => match colThread tm c b j with
    | none => none
    | some t => if t.badRegs.contains r then none else some (BitVec.ofNat 32 (t.v32 r))
/-- The B registers of pass p that hold elements below KCNT (R251, R254). -/
def MxBlk.passRegs (b : MxBlk) (p : Nat) : List Nat :=
  (List.range (ceilDiv (ceilDiv (b.elems p * mxBits b.bfmt) 8) 4)).map fun i => b.breg + mxPb b.afmt * p + i
/-- The B string of pass p of column j (R254); none where a register of it holds an uncorrectable error. -/
def bBytes (tm : Team) (c : MxCmd) (b : MxBlk) (p j : Nat) : Option (List Byte) :=
  (allSome ((b.passRegs p).map fun r => bReg tm c b j r)).map fun ws => ws.flatMap fun w => natLe 4 w.toNat

/-- The scale codes of the rows or columns, one list each. -/
def State.scales (s : State) (tm : Team) (b : MxBlk) (base str n p : Nat) : Option (List (List Nat)) :=
  allSome ((List.range n).map fun i => allSome ((passBlocks b p).map fun k => s.scaleByte tm base str i k))
/-- Pass p: the tile's new words and the status; none where it meets an uncorrectable error (R261, R269). -/
def State.passResult (s : State) (tm : Team) (c : MxCmd) (b : MxBlk) (p : Nat) : Option (Team × Nat) :=
  let rows := 32 * b.mb
  let cols := 16 * b.nq
  let k0 := mxKp b.afmt * p
  let n := b.elems p
  let b0 := k0 / mxBlockSize b.blk
  match allSome ((List.range rows).map fun r => s.aBytes tm c b p r), allSome ((List.range cols).map fun j => bBytes tm c b p j),
      s.scales tm b b.asc b.ascstr rows p, s.scales tm b b.bsc b.bscstr cols p with
  | some as, some bs, some sa, some sb =>
    let ae := as.map (passElems b.afmt n)
    let be := bs.map (passElems b.bfmt n)
    some ((List.range rows).foldl (fun q r => (List.range cols).foldl (fun (q : Team × Nat) j =>
      let sc := fun k => (((sa.getD r []).getD (k - b0) 0), ((sb.getD j []).getD (k - b0) 0))
      let w := mxStep b k0 (ae.getD r []) (be.getD j []) sc (q.1.accGet b.wide b.acc r j)
      (q.1.accPut b.wide b.acc r j w.1, q.2 ||| w.2)) q) (tm, 0))
  | _, _, _, _ => none

/-- B registers of an operation that are read at step `tick`, ahead of their passes (R11). -/
def aheadRegs (tm : Team) (tick : Nat) (c : MxCmd) (b : MxBlk) : List ((Nat × Nat) × Option Word) :=
  (List.range (16 * b.nq)).flatMap fun j => ((List.range b.total).flatMap b.passRegs).filterMap fun r =>
    if (c.got.any fun g => g.1 == (j, r)) ∨ ¬ Config.freeBit tick (2 ^ 56 + 4096 * j + r) then none
    else some ((j, r), bReg tm c b j r)
/-- Some B registers of the MMXs in Q0 are read now (R254). -/
def State.readAhead (s : State) (tm : Team) : State :=
  s.modTeam tm.id fun u => { u with q0 := u.q0.map fun c => match c.blk with
    | none => c
    | some b => { c with got := c.got ++ aheadRegs tm s.tick c b } }

/-- Every command of Q0 is an MMX: the others complete before a save, and so do the MMX before them (R272, R371). -/
def Team.onlyMmx (tm : Team) : Bool := tm.q0.all fun c => match c.i with | .mmx .. => true | _ => false
/-- MATRIX_OP_START (R269, R277): the MMX at the head of Q0 begins once its input barrier lets it; until then, behind
another command, and once it runs, the engine may read B registers ahead. DESIGN CHOICE (log 136): an uncorrectable error in the
barrier's bytes counts as its poison. -/
def execMatrixOpStart (team : Nat) (s : State) : Out :=
  match s.team? team with
  | none => .next s
  | some tm =>
    match tm.q0.head?, tm.q0.head?.bind fun c => c.blk with
    | some c, some b =>
      if ¬ s.engineOn tm tm.onlyMmx then .next s
      else if c.started then .next (s.readAhead tm)
      else if ¬ b.ibarOn then .next (s.beginMmx tm c b)
      else match s.coreAt tm b.ibarAddr with
        | none => .next s
        | some key =>
          if s.poisoned key 16 then .next (s.retireMmx tm c b 2 6)
          else match barwTest (s.barObj key) (b.ibar % 2) with
            | none => .next (s.readAhead tm)
            | some true => .next (s.beginMmx tm c b)
            | some false => .next (s.retireMmx tm c b 2 6)
    | some _, none => .next (if s.engineOn tm tm.onlyMmx then s.readAhead tm else s)
    | none, _ => .next s

/-- MATRIX_PASS (R251, R261, R274): the next pass of the running operation; where an array it needs is gated, its wake starts
instead. -/
def execMatrixPass (team : Nat) (s : State) : Out :=
  match s.team? team with
  | none => .next s
  | some tm =>
    match tm.running with
    | none => .next s
    | some (c, b) =>
      if b.total ≤ c.passes ∨ ¬ s.engineOn tm tm.onlyMmx then .next s
      else if (List.range b.mb).any fun q => (s.array tm.core q).gated then .next (s.wakeArrays tm.core b)
      else match s.passResult tm c b c.passes with
        | some (u, xf) => .next ((s.modTeam tm.id fun _ => u).modCmd tm.id c.id fun c =>
            { c with passes := c.passes + 1, xf := c.xf ||| xf })
        | none => .next ((s.modTeam tm.id fun tm => b.tiles.foldl (fun tm n => tm.setTileBad n true) tm).modCmd tm.id c.id fun c =>
            { c with passes := b.total, bad := true })

/-! ### The other commands run -/

/-- MMZERO (R278). -/
def State.runMmzero (s : State) (tm : Team) (c : MxCmd) (o : MmzeroOp) : State :=
  let ns := if o.pair then [o.n.val, o.n.val + 1] else [o.n.val]
  (s.modTeam tm.id fun tm => ns.foldl (fun tm n => ((tm.accZero n).setEpi n 0).setTileBad n false) tm).mxDone tm c []

/-- MMLD (R278): rows from the core share; an uncorrectable error poisons the tile (R269). -/
def State.runMmld (s : State) (tm : Team) (c : MxCmd) (o : MmldOp) : State :=
  let a := c.vals.getD 0 0
  let sh := c.vals.getD 1 0
  let n := o.n.val
  let h := shapeRows sh
  let rows := (List.range h).map fun r => s.coreAt tm (a + r * shapeStride sh)
  let bad := rows.any fun k => match k with | some key => s.poisoned key (mmldRow o) | none => false
  let w := if o.pair then 8 else 4
  let put := fun (tm : Team) (r : Nat) => (List.range 64).foldl (fun tm j =>
    match rows.getD r none with
    | some key => tm.accPut o.pair n r j (s.read (key + w * j) w)
    | none => tm) tm
  let ns := if o.pair then [n, n + 1] else [n]
  let s1 := s.modTeam tm.id fun tm =>
    ns.foldl (fun tm k => tm.setTileBad k bad) (((List.range h).foldl put tm).setEpi n (c.vals.getD 2 0))
  (if bad then s1.mxRecord tm c 5 0 0 a else s1).mxDone tm c []

/-- The bytes of row r of a tile as MMST converts them, with the flags (R279). -/
def mmstRow (tm : Team) (n e r : Nat) : List Byte × Nat :=
  let cells := (List.range 64).map fun c =>
    if e % 16 = 1 then (natLe 8 (tm.accGet true n r c), 0)
    else if e % 16 = 0 then (natLe 4 (tm.accGet false n r c), 0)
    else
      let v := epiConvert e (tm.accGet false n r c)
      (natLe (epiSize e) v.1, xfBits v.2)
  (cells.flatMap fun c => c.1, cells.foldl (fun f c => f ||| c.2) 0)

/-- The pieces an MMST writes, with their keys; the first violation or absent page otherwise. -/
def State.mmstPieces (s : State) (tm : Team) (mem : Bool) : List (Nat × List Byte) → Except ERes (List (Nat × List Byte))
  | [] => .ok []
  | (a, bs) :: rest =>
    let here : Except ERes (List (Nat × List Byte)) :=
      if mem then s.slotPieces tm ⟨[], Config.freeBit s.tick 7, false⟩ (lineSpans a bs.length) bs
      else match s.engAddr tm 0 .core a bs.length 1 with
        | .ok (some key) => .ok [(key, bs)]
        | .ok none => .ok []
        | .error n => .error (.viol n a 2)
    match here, s.mmstPieces tm mem rest with
    | .ok p, .ok q => .ok (p ++ q)
    | .error e, _ => .error e
    | _, .error e => .error e
/-- The pieces that can be written. -/
def State.mmstReach (s : State) (tm : Team) (mem : Bool) (rows : List (Nat × List Byte)) : List (Nat × List Byte) :=
  rows.flatMap fun r => match s.mmstPieces tm mem [r] with | .ok p => p | .error _ => []

/-- An MMST ends by a fault (R270). -/
def State.mmstFault (s : State) (tm : Team) (c : MxCmd) (o : MmstOp) (xf code addr : Nat) : State :=
  let s1 := (s.logEngine tm c.o code addr (if o.mem then 0 else 2) 3).mxRecord tm c 4 xf 0 addr
  let s2 := if o.bar.isSome then s1.coreEvent tm (c.vals.getD 2 0) 0 0 2 else s1
  s2.mxDone tm c []

/-- The units of written pieces are marked poisoned (R269). -/
def State.poisonUnits (s : State) (ps : List (Nat × List Byte)) : State :=
  (ps.filter fun p => !isPeer p.1).foldl (fun s p =>
    (unitsOf (unitSize p.1) p.1 p.2.length).foldl (fun s u => s.setPoison u true) s) s
/-- MMST (R269, R270, R279): the destination is checked, then the rows are written; of a poisoned tile, as poisoned units. -/
def State.runMmst (s : State) (tm : Team) (c : MxCmd) (o : MmstOp) : State :=
  let a := c.vals.getD 0 0
  let sh := c.vals.getD 1 0
  let n := o.n.val
  let e := tm.epiOf n
  let z := epiSize e
  let rows := (List.range (shapeRows sh)).map fun r => (a + r * shapeStride sh, mmstRow tm n e r)
  let xf := rows.foldl (fun f r => f ||| r.2.2) 0
  let rows := rows.map fun r => (r.1, r.2.1)
  let s := if o.mem then s.sampleFor tm c.o (rows.map fun r => (r.1, r.2.length)) else s
  let bad := tm.tileBad n || (e % 16 == 1 && tm.tileBad (n + 1))
  let xf := if bad then 0 else xf
  if o.mem ∧ 2 ^ 57 ≤ a then s.mmstFault tm c o 0 5 a
  else if a % z ≠ 0 then s.mmstFault tm c o 0 8 a
  else if shapeStride sh < 64 * z then s.mmstFault tm c o 0 67 a
  else match s.mmstPieces tm o.mem rows with
    | .error (.absent va) => s.engineMiss tm c.id va true
    | .error (.viol k ad _) =>
      (((s.mmstReach tm o.mem rows).foldl (fun s p => s.freeBytes p.1 p.2.length) s).mxStatus tm.id xf).mmstFault tm c o xf k ad
    | .error (.ok _) | .error .held => s
    | .ok ps =>
      let rs := (ps.filter fun p => p.1 < 2 ^ 40).map fun p => (p.1, p.2.length)
      let s1 := rs.foldl (fun s r => s.l1DropRange tm.core r.1 r.2) (s.storeRuns tm.asid ps)
      if bad then (s1.poisonUnits ps).mmstFault tm c o 0 64 a else
      let s2 := if o.bar.isSome then s1.coreEvent tm (c.vals.getD 2 0) 0 (shapeRows sh * 64 * z) 0 rs else s1
      (s2.mxStatus tm.id xf).mxDone tm c []

/-- MMRD (R280): the words to the registers, or the poison pattern and the fault (R269). -/
def State.runMmrd (s : State) (tm : Team) (c : MxCmd) (o : MmrdOp) : State :=
  let b := c.vals.getD 0 0
  let n := 2 ^ o.nw.val
  match s.op? tm.id c.o.thr c.id with
  | none => s.dropCmd tm.id c.id
  | some op =>
    if tm.tileBad o.n.val then
      ((s.modThr tm.id c.o.thr fun t => t.opWrites s.tick op (op.dst.map fun r => (r, BitVec.ofNat 32 poisonWord))).dropCmd
        tm.id c.id).failOp tm.id c.o.thr op 7 4 s.freeDword
    else
      let ws := (List.range n).map fun k => tm.accGet false o.n.val (mmrdRow b) (mmrdCol b + k)
      let s1 := s.mxDone tm c (vPuts o.d.val ws)
      ws.foldl (fun s w => s.observe tm.id c.o.thr
        { ev := .mem 0 none 1 0 (some (w, 4)), op := c.o.op, iaddr := op.iaddr, ord := op.ord }) s1

/-- MATRIX_COMMAND_COMPLETE (R267, R268): the command at the head of Q0 takes effect and completes; an MMX after its last
pass. -/
def execMatrixCommandComplete (team : Nat) (s : State) : Out :=
  match s.team? team with
  | none => .next s
  | some tm =>
    match tm.q0.head? with
    | none => .next s
    | some c =>
      if tm.pageWaiting c.id ∨ ¬ s.engineOn tm false then .next s else
      .next (match c.i with
        | .mmzero _ o => s.runMmzero tm c o
        | .mmld _ o => s.runMmld tm c o
        | .mmst _ o => s.runMmst tm c o
        | .mmrd _ o => s.runMmrd tm c o
        | _ => match tm.running with
          | some (_, b) =>
            if c.passes < b.total then s else if c.bad then s.retireMmx tm c b 3 2 else s.retireMmx tm c b 1 0
          | none => s)

end Sys2Proof.Machine
end

