-- ==== Sys2Proof/Machine/Raster.lean ====
section
/-! DEFINITION. The raster unit and its fragments, chapter 11_fragment.md: RAST (R283 to R290, R305), ATTR (R306) and
ordered sections (R291 to R293, R307). -/

namespace Sys2Proof.Machine
open Sys2Proof

/-! ### Geometry -/

/-- The edge functions of a triangle (R285). -/
def triVert (vs : List (Int × Int)) (v : Nat) : Int × Int := vs.getD (v % 3) (0, 0)
def triDx (vs : List (Int × Int)) (v : Nat) : Int := (triVert vs (v + 2)).1 - (triVert vs (v + 1)).1
def triDy (vs : List (Int × Int)) (v : Nat) : Int := (triVert vs (v + 2)).2 - (triVert vs (v + 1)).2
def triE (vs : List (Int × Int)) (v : Nat) (x y : Int) : Int :=
  triDx vs v * (y - (triVert vs (v + 1)).2) - triDy vs v * (x - (triVert vs (v + 1)).1)
/-- A of R285. -/
def triArea (vs : List (Int × Int)) : Int := triE vs 0 0 0 + triE vs 1 0 0 + triE vs 2 0 0
/-- Whether a sample is covered (R285). -/
def sampleIn (vs : List (Int × Int)) (x y : Int) : Bool :=
  let s : Int := if triArea vs < 0 then -1 else 1
  (List.range 3).all fun v =>
    let top := s * triDy vs v < 0 ∨ (s * triDy vs v = 0 ∧ 0 < s * triDx vs v)
    decide (0 < s * triE vs v x y) || (triE vs v x y == 0 && decide top)
/-- Sample positions (R285). -/
def samplePos (ms4 : Bool) : List (Int × Int) := if ms4 then [(96, 32), (224, 96), (32, 160), (160, 224)] else [(128, 128)]
/-- The sample mask of a pixel (R285). -/
def sampleMask (vs : List (Int × Int)) (ms4 : Bool) (x y : Nat) : Nat :=
  (List.range 4).foldl (fun m k => match (samplePos ms4)[k]? with
    | some (ox, oy) => if sampleIn vs (256 * (x : Int) + ox) (256 * (y : Int) + oy) then m + 2 ^ k else m
    | none => m) 0
/-- The record yields no fragment: no area, or culled (R285). -/
def triCulled (vs : List (Int × Int)) (cull : Nat) : Bool :=
  let a := triArea vs
  a == 0 || (cull == 1 && a < 0) || (cull == 2 && 0 < a)
/-- A plane through three vertex values at a point: the exact quotient rounded once; a value that is not finite gives the
canonical NaN (R287, R306). `w v` is the weight of vertex v. -/
def planeAt (vs : List (Int × Int)) (z : List Nat) (w : Nat → Int) : Nat × Flags :=
  if z.any fun q => !isFin (decodeF f32 q) then (canonNan f32, nvFlag) else
  let n := (List.range 3).foldl (fun a v => dyAdd a (dyMul (dyOf (decodeF f32 (z.getD v 0))) (dyOfInt (w v)))) dyZero
  roundQuot f32 .rne n (dyOfInt (triArea vs))
/-- The pixel centre (R287). -/
def centre (p : Nat) : Int := 256 * (p : Int) + 128

/-- A triangle record in 64 bytes; none where it is malformed (R283). -/
def triRec (bs : List Byte) : Option TriRec :=
  let c := fun (k : Nat) => toSigned 32 (fld bs (4 * k) 4)
  let r : TriRec :=
    { verts := [(c 0, c 1), (c 2, c 3), (c 4, c 5)], z := [fld bs 24 4, fld bs 28 4, fld bs 32 4], pseq := fld bs 36 4
      attrb := fld bs 40 8, nattr := fld bs 48 2 }
  if ((List.range 6).all fun k => decide (-(2 ^ 30) ≤ c k ∧ c k < 2 ^ 30)) ∧ r.attrb % 4 = 0 ∧ r.nattr ≤ 4096 ∧
      fld bs 50 14 = 0 then some r else none

/-! ### RAST -/

/-- RAST (R305): the block is read as a load of the thread. -/
def execRast (c : Common) (a : Src) (s : State) : Out :=
  engineOp (.rast c a) (some 2) (fun k t => [coreOpnd (srcVal k t false a) 32 32])
    (fun x tm cr t j s => s.pushKeyRead x tm j (.rast c a) .core (srcVal cr.k t false a) 32 []) s

/-- The command a raster block describes (R284). -/
def rastBlock (tm : Team) (o : Op) (thr : Nat) (bs : List Byte) (id : Nat) : RastCmd :=
  { id := id, o := o.origin tm thr, block := o.ea, bin := fld bs 0 8, entry := fld bs 8 8
    count := fld bs 16 4, tx := fld bs 20 2, ty := fld bs 22 2, flags := fld bs 24 2, obar := fld bs 28 4 }
def RastCmd.cull (c : RastCmd) : Nat := c.flags % 4
def RastCmd.ms4 (c : RastCmd) : Bool := bit c.flags 2
def RastCmd.post (c : RastCmd) : Bool := bit c.flags 3
def RastCmd.bar (c : RastCmd) : Bool := bit c.flags 4
/-- The fragment crew of a team. -/
def Team.fragCrew (tm : Team) : Option Crew := tm.crews.find? fun c => c.role == .fragment
/-- The block is well formed (R284, R287, R305). -/
def rastOk (tm : Team) (c : RastCmd) (etag : Nat) : Bool :=
  c.bin % 64 == 0 && c.count ≤ 2 ^ 20 && c.tx ≤ 4095 && c.ty ≤ 4095 && c.cull != 3 && c.flags < 32 && etag < 2 ^ 12 &&
  match tm.fragCrew with | some cr => 8 ≤ cr.budget | none => false

/-- A checked branch target read for a pending operation: its landing or fetch fault is reported late (R78, R305);
FWORD of a header that could not be fetched is 0 (R358, R359). -/
def State.landingLate (s : State) (tm : Team) (i : Nat) (t : Thread) (o : Op) (target tag : Nat) (ok : State) : State :=
  if target % 8 ≠ 0 then s.failOp tm.id i o 3 1 target else
  match s.ctx? tm.asid with
  | none => s
  | some cx =>
    match s.fetchWord cx tm.core target (t.crew == 7) with
    | .ok h =>
      if ¬ hdrPad h then s.failOp tm.id i o 3 2 target else if hdrTag h ≠ tag then s.failOp tm.id i o 3 3 target else ok
    | .viol n => (s.logViol tm.asid { threadEnt tm t 0 target target n 0 0 with ord := o.ord.toNat }).failOp tm.id i
        { o with word := 0 } 4 n target
    | .absent => s.failOp tm.id i o 32 1 target 2
    | .poison => s.failOp tm.id i o 7 1 target

/-- RAST completes: the block is checked, and the command enters Q4 (R305, R442). -/
def State.performRast (s : State) (tm : Team) (i : Nat) (t : Thread) (o : Op) : State :=
  if ¬ s.blockReady tm t o ∨ ¬ t.q4Turn o.id then s else
  match s.blockBytes o with
  | none => s.poisonOp tm.id i o [] o.ea
  | some bs =>
    let c := rastBlock tm o i bs s.nextId
    if ¬ rastOk tm c (fld bs 26 2) then s.failOp tm.id i o 15 0 o.ea
    else match s.badOpnd tm i (if c.bar then [coreOpnd c.obar 16 16] else []) with
      | some (q, n) => s.violateLate tm.id i o n q.ea 2
      | none => s.landingLate tm i t o c.entry (fld bs 26 2)
          ((State.modTeam { s with nextId := s.nextId + 1 } tm.id fun tm => { tm with rasts := tm.rasts ++ [c] }).completeOp
            tm.id i o [])

/-! ### Fragments -/

/-- The command has launched all it will (R286, R289). -/
def RastCmd.over (c : RastCmd) : Bool := c.stop.isSome || c.idx == c.count
/-- The command whose fragments are launched now: the first in Q4 order that has not launched all (R286). -/
def Team.rasting (tm : Team) : Option RastCmd := tm.rasts.find? fun c => !c.over
def State.modRast (s : State) (id cid : Nat) (f : RastCmd → RastCmd) : State :=
  s.modTeam id fun tm => { tm with rasts := tm.rasts.map fun c => if c.id = cid then f c else c }
/-- The next pixel of the record in hand that has a fragment, in row-major order (R285, R286). -/
def RastCmd.nextPixel (c : RastCmd) (r : TriRec) : Option Nat :=
  if triCulled r.verts c.cull then none else
  ((List.range 256).drop c.pix).find? fun p => sampleMask r.verts c.ms4 (16 * c.tx + p % 16) (16 * c.ty + p / 16) != 0
/-- The record in hand is finished. -/
def RastCmd.nextRecord (c : RastCmd) : RastCmd := { c with idx := c.idx + 1, pix := 0, cur := none }
/-- The record in hand where it still has a fragment to launch, else the next record. -/
def RastCmd.settle (c : RastCmd) : RastCmd :=
  match c.cur with
  | some r => if (c.nextPixel r).isNone then c.nextRecord else c
  | none => c

/-- RASTER_RECORD (R283, R289): the unit reads its next record. -/
def execRasterRecord (team : Nat) (s : State) : Out :=
  match s.team? team with
  | none => .next s
  | some tm =>
    match tm.rasting with
    | none => .next s
    | some c =>
      if c.cur.isSome ∨ tm.pageWaiting c.id ∨ ¬ s.engineOn tm true then .next s else
      let p : PeerAns := ⟨(List.range 64).map fun i => Config.freeByte s.tick i, Config.freeBit s.tick 7, Config.freeBit s.tick 8⟩
      let a := c.bin + 64 * c.idx
      let s := s.sampleFor tm c.o [(a, 64)]
      .next (match s.engRead tm a 64 p 0 with
        | .absent va => s.engineMiss tm c.id va false
        | .held => s
        | .viol n ad _ => (s.logEngine tm c.o n ad 0 9).modRast tm.id c.id fun c => { c with stop := some n }
        | .ok bs => match triRec bs with
          | none => s.modRast tm.id c.id fun c => { c.nextRecord with skip := c.skip + 1 }
          | some r => s.modRast tm.id c.id fun c => { c with cur := some r }.settle)

/-- The thread of a delivered fragment (R287): pixel p of the record in hand. -/
def fragThread (t : Thread) (budget : Nat) (c : RastCmd) (r : TriRec) (p seq : Nat) : Thread :=
  let x := 16 * c.tx + p % 16
  let y := 16 * c.ty + p / 16
  let m := sampleMask r.verts c.ms4 x y
  let z := planeAt r.verts r.z fun v => triE r.verts v (centre x) (centre y)
  let n := Thread.start t.crew t.tid budget (BitVec.ofNat 64 c.entry) .ready
  { n with
    v := ([x + y * 2 ^ 16, m + b2n (decide (0 < triArea r.verts)) * 16, r.pseq, z.1, c.idx].map (BitVec.ofNat 32)) ++
      List.replicate (budget - 5) 0
    sys := { n.sys with region := BitVec.ofNat 64 c.entry }
    frag := some { rast := c.id, seq := seq, tx := c.tx, ty := c.ty, x := x, y := y, mask := m, verts := r.verts
                   attrb := r.attrb, nattr := r.nattr, entered := false, holds := false, left := false } }

/-- FRAGMENT_LAUNCH (R286, R287): the next fragment goes to an idle thread of the fragment crew. -/
def execFragmentLaunch (o : ThRef) (s : State) : Out :=
  match s.team? o.team, s.thr? o.team o.thr with
  | some tm, some t =>
    match tm.rasting, tm.fragCrew with
    | some c, some cr =>
      match c.cur.bind fun r => (c.nextPixel r).map fun p => (r, p) with
      | none => .next s
      | some (r, p) =>
        if t.crew ≠ cr.num ∨ t.status ≠ .idle ∨ t.dbg.halted ∨ t.dbg.req.isSome ∨ ¬ s.engineOn tm true then .next s else
        let s1 := State.modThr { s with nextId := s.nextId + 1 } o.team o.thr fun t =>
          fragThread t cr.budget c r p s.nextId
        .next (s1.modRast o.team c.id fun c => { c with frags := c.frags + 1, pix := p + 1 }.settle)
    | _, _ => .next s
  | _, _ => .next s

/-- A Q4 record of the raster unit (R289). -/
def rastRec (kind cause who : Nat) (c : RastCmd) : List Byte :=
  natLe 1 kind ++ natLe 1 cause ++ natLe 2 who ++ natLe 4 c.frags ++ natLe 4 c.block ++ natLe 4 c.skip

/-- RAST_COMPLETE (R288, R289): every fragment launched has executed EXIT. The first such command completes. -/
def execRastComplete (team : Nat) (s : State) : Out :=
  match s.team? team with
  | none => .next s
  | some tm =>
    match tm.rasts.find? fun c => c.over && tm.threads.all fun t => (t.frag.map fun f => f.rast) != some c.id with
    | none => .next s
    | some c =>
      if ¬ s.engineOn tm true then .next s else
      let s1 := s.modTeam tm.id fun tm => { tm with rasts := tm.rasts.filter fun q => q.id != c.id }
      let who := tm.whoOf c.o.thr
      let key := if c.bar then s1.coreAt tm c.obar else none
      .next (match c.stop with
        | some n => s1.postBoth tm.id key 0 0 2 4 (rastRec 2 n who c)
        | none =>
          if c.post then s1.postBoth tm.id key 1 0 0 4 (rastRec 1 0 who c)
          else if c.bar then s1.coreEvent tm c.obar 1 0 0 else s1)

/-! ### ATTR -/

/-- The addresses ATTR reads (R306). -/
def attrAddrs (f : Frag) (i : Nat) : List Nat := (List.range 3).map fun v => f.attrb + 12 * i + 4 * v
/-- The first read that cannot be made; else the keys of all. -/
def State.attrKeys (s : State) (tm : Team) (j : Nat) (sys : Bool) : List Nat → Except (Nat × ARes) (List Nat)
  | [] => .ok []
  | a :: as => match s.resolve tm j sys .mem a 4 .rd with
    | .ok key => (s.attrKeys tm j sys as).map fun ks => key :: ks
    | .peer k d => (s.attrKeys tm j sys as).map fun ks => peerKey k d :: ks
    | r => .error (a, r)

/-- ATTR (R306). -/
def execAttr (c : Common) (o : AttrOp) (s : State) : Out :=
  runEach (.attr c o) (fun x cr t j s =>
    let ds := vrange o.d (if o.deriv then 3 else 1)
    match t.frag, s.team? x.team with
    | some f, some tm =>
      let i := srcVal cr.k t false o.b
      if f.nattr ≤ i then s.pushOp x j (.attr c o) [] fun u => { u with res := some (ds.map fun d => (d, 0)) }
      else match s.attrKeys tm j (x.crew == 7) (attrAddrs f i) with
        | .ok ks => (s.sampleThr tm j [(f.attrb + 12 * i, 12)]).pushOp x j (.attr c o) ((f.attrb + 12 * i) :: ks)
        | .error (a, .viol n) => (s.poisonDst x j ds none).violate x j n a 0
        | .error (a, .absent) => s.reportIssue x j 32 0 a 0
        | .error _ => s
    | none, _ => s.raise x j 8 3 x.iaddr.toNat
    | _, none => s) s

/-- The outputs of ATTR with their flags (R306). -/
def attrOut (f : Frag) (deriv : Bool) (a : List Nat) : List (Nat × Flags) :=
  let w := fun (v : Nat) => triE f.verts v (centre f.x) (centre f.y)
  planeAt f.verts a w :: (if deriv then
    [planeAt f.verts a fun v => -256 * triDy f.verts v, planeAt f.verts a fun v => 256 * triDx f.verts v] else [])
/-- ATTR performs: its three values are read (R159, R306). -/
def State.performAttr (s : State) (tm : Team) (i : Nat) (t : Thread) (q : AttrOp) (o : Op) (p : PerformOp) : State :=
  let ks := o.vals.drop 1
  if ks.any (fun k => isPeer k && !(p.peerOk && s.peerOpen tm.asid k)) then s.peerError tm.id i o o.dst o.ea
  else if ks.any isPeer ∧ p.peerBad then s.poisonOp tm.id i { o with key := 0 } o.dst o.ea
  else
  let s := (ks.filter fun k => !isPeer k).foldl (fun s k => s.recallFor tm.core k 4) s
  match ks.find? fun k => !isPeer k && s.poisoned k 4 with
    | some k => s.poisonOp tm.id i { o with key := k } o.dst (o.ea + 4 * (ks.takeWhile (· != k)).length)
    | none => match t.frag with
      | none => s.performed tm.id i o []
      | some f =>
        let a := (List.range 3).map fun v =>
          let k := ks.getD v 0
          if isPeer k then leNat ((p.peer.drop (4 * v)).take 4) else s.read k 4
        let r := attrOut f q.deriv a
        let fl := r.foldl (fun g y => orFlags g y.2) noFlags
        (s.performed tm.id i o (vPuts q.d.val (r.map fun y => y.1))).modOp tm.id i o.id fun u => { u with fx := flagBits fl }

/-! ### Ordered sections -/

/-- Every earlier fragment that shares a sample has left its section or exited (R291). -/
def sectionFree (tm : Team) (f : Frag) : Bool :=
  tm.threads.all fun t => match t.frag with
    | some g => !(g.seq < f.seq && g.x == f.x && g.y == f.y && (g.mask &&& f.mask) != 0 && !g.left)
    | none => true
/-- The section is entered, with an acquire at `.chip` (R291, R292), for which every earlier load has performed (R154). -/
def State.enterSection (s : State) (tm : Team) (i : Nat) : State :=
  (s.l1Acquire tm.core).modThr tm.id i fun t =>
    { t with frag := t.frag.map fun f => { f with entered := true, holds := true } }
/-- OENTER (R307). -/
def execOenter (c : Common) (s : State) : Out :=
  runEach (.oenter c) (fun x _ t j s =>
    match t.frag, s.team? x.team with
    | some f, some tm =>
      if f.entered then s.raise x j 8 2 x.iaddr.toNat
      else if t.waits.isEmpty ∧ sectionFree tm f ∧ t.loadsDone s.nextId then s.enterSection tm j
      else s.pushWait x j (.oenter c) [] fun u => { u with waited := !sectionFree tm f }
    | none, _ => s.raise x j 8 3 x.iaddr.toNat
    | _, none => s) s
/-- A waiting OENTER tests again (R74). -/
def State.retryOenter (s : State) (tm : Team) (i : Nat) (t : Thread) (o : Op) : State :=
  match t.frag with
  | some f =>
    if ¬ sectionFree tm f then s.markWaited tm.id i o.id
    else if ¬ t.loadsDone o.id then s
    else (s.enterSection tm i).endWait tm.id i o 13
  | none => s.dropWait tm.id i o.id

/-- The section is released (R291). -/
def State.leaveSection (s : State) (id i : Nat) : State :=
  s.modThr id i fun t => { t with frag := t.frag.map fun f => { f with holds := false, left := true } }
/-- OLEAVE (R307): on a thread that holds its section it waits as FENCE.rel.chip does. -/
def execOleave (c : Common) (s : State) : Out :=
  runEach (.oleave c) (fun x _ t j s =>
    if ¬ t.inSection then s
    else if fenceReady true t s.nextId ∧ t.waits.isEmpty then s.leaveSection x.team j
    else s.pushWait x j (.oleave c) [] fun u => { u with waited := !fenceReady true t s.nextId }) s
/-- A waiting OLEAVE tests again (R74, R307). -/
def State.retryOleave (s : State) (tm : Team) (i : Nat) (t : Thread) (o : Op) : State :=
  if fenceReady true t o.id then (s.leaveSection tm.id i).endWait tm.id i o 8 else s.markWaited tm.id i o.id

end Sys2Proof.Machine
end

