-- ==== Sys2Proof/Machine/SetterFn.lean ====
section
/-! DEFINITION. Entries of a multi-layer render target and their merges, chapter 11_fragment.md (R296, R298 to R300). -/

namespace Sys2Proof.Machine
open Sys2Proof

/-- The contents of a node, the index it links to, and its reserved bits (R296). -/
structure FlEnt where
  depth : Nat
  payload : Nat
  mcount : Nat
  src : Nat
  next : Nat
  resv : Nat
  deriving DecidableEq, Repr

/-- NEXTI of the last node (R296). -/
def flNone : Nat := 0xFFFFFF
/-- The 128-bit word of a node (R296). -/
def FlEnt.word (e : FlEnt) : Nat :=
  e.depth + e.payload * 2 ^ 32 + e.next % 2 ^ 24 * 2 ^ 96 + e.mcount % 16 * 2 ^ 120 + e.src % 4 * 2 ^ 124 +
    e.resv % 4 * 2 ^ 126
def flEnt (w : Nat) : FlEnt := ⟨bits w 31 0, bits w 95 32, bits w 123 120, bits w 125 124, bits w 119 96, bits w 127 126⟩

/-- 1 - x, exact. -/
def oneMinus : FVal → FVal
  | .nan s => .nan s
  | .inf s => .inf (!s)
  | v =>
    let d := dySub (dyOfInt 1) (dyOf v)
    .fin (decide (d.m < 0)) d.m.natAbs d.e
/-- Round(x + y, f, rne) of a merge, a NaN canonical (R299). -/
def mergeSum (f : Fmt) (x y : FVal) : Nat :=
  if isNan x || isNan y then canonNan f else (addVal f .rne false x y).1
/-- Round(n + w·f, f16, rne) of one channel (R299). -/
def overChannel (w : FVal) (n f : Nat) : Nat :=
  let x := decodeF f16 f
  if isNan w || isNan x then canonNan f16 else
  match mulExact w x with
  | some p => mergeSum f16 (decodeF f16 n) p
  | none => canonNan f16
/-- Channel k of a payload of four binary16. -/
def chan (p k : Nat) : Nat := bits p (16 * k + 15) (16 * k)
/-- The payload of a merge by a rule other than ROUTINE (R299). -/
def mergePayload (rule n f : Nat) : Nat :=
  match rule with
  | 0 =>
    let w := oneMinus (decodeF f16 (chan n 3))
    (List.range 4).foldl (fun a k => a + overChannel w (chan n k) (chan f k) * 2 ^ (16 * k)) 0
  | 1 => (List.range 4).foldl (fun a k =>
      a + mergeSum f16 (decodeF f16 (chan n k)) (decodeF f16 (chan f k)) * 2 ^ (16 * k)) 0
  | 2 => n
  | _ => (List.range 2).foldl (fun a k =>
      a + mergeSum f32 (decodeF f32 (bits n (32 * k + 31) (32 * k))) (decodeF f32 (bits f (32 * k + 31) (32 * k))) *
        2 ^ (32 * k)) 0
/-- The payload by a routine, or its fault code (R300). -/
def mergeRoutine (row : GlzRow) (n f : FlEnt) : Except Nat Nat :=
  let ws := fun (e : FlEnt) => (List.range 4).map fun k => bits e.word (32 * k + 31) (32 * k)
  match glzRun row (ws n ++ ws f ++ List.replicate 24 0) [] with
  | .ok (_, o) => .ok (o.getD 0 0 + o.getD 1 0 * 2 ^ 32)
  | .error g => .error g
/-- Merge(n, f) of R299; `row` is the routine where RULE is ROUTINE. -/
def mergeEnt (rule : Nat) (row : Option GlzRow) (n f : FlEnt) : Except Nat FlEnt :=
  let p : Except Nat Nat := match row with
    | some r => mergeRoutine r n f
    | none => .ok (mergePayload rule n.payload f.payload)
  p.map fun p => { n with payload := p, mcount := min (n.mcount + f.mcount) 15 }

/-- a ≤ b of depths, -0 equal to +0. -/
def depthLe (a b : Nat) : Bool := leReal f32 a b
/-- The place of a new entry: before the first whose DEPTH is above it (R298). -/
def placeOf (d : Nat) (l : List FlEnt) : Nat := (l.takeWhile fun e => depthLe e.depth d).length
/-- The gap of two depths; none is +inf (R298). -/
def gapOf (a b : Nat) : Option Dy :=
  match decodeF f32 a, decodeF f32 b with
  | .inf s, .inf t => if s = t then some dyZero else none
  | .inf _, _ => none
  | _, .inf _ => none
  | x, y => some (dySub (dyOf y) (dyOf x))
/-- A gap not above another. -/
def gapLe : Option Dy → Option Dy → Bool
  | _, none => true
  | none, some _ => false
  | some a, some b => dyLe a b
/-- The k of the smallest gap among neighbours; on a tie the largest k (R298). -/
def minGap (l : List FlEnt) : Nat :=
  let gap := fun k => gapOf ((l.getD k ⟨0, 0, 0, 0, 0, 0⟩).depth) ((l.getD (k + 1) ⟨0, 0, 0, 0, 0, 0⟩).depth)
  (List.range (l.length - 1)).foldl (fun b k => if gapLe (gap k) (gap b) then k else b) 0
/-- The list with entries k and k + 1 merged. -/
def mergeAt (rule : Nat) (row : Option GlzRow) (l : List FlEnt) (k : Nat) : Except Nat (List FlEnt) :=
  match l[k]?, l[k + 1]? with
  | some n, some f => (mergeEnt rule row n f).map fun m => l.take k ++ m :: l.drop (k + 2)
  | _, _ => .ok (l.take k)
/-- A front-to-back fold of a pixel's entries (R310). -/
def resolveEnts (rule : Nat) (row : Option GlzRow) : List FlEnt → Except Nat FlEnt
  | [] => .ok ⟨0, 0, 0, 0, 0, 0⟩
  | e :: es => es.foldl (fun r f => match r with | .ok n => mergeEnt rule row n f | .error g => .error g) (.ok e)

end Sys2Proof.Machine
end

