-- ==== Sys2Proof/Machine/Setter.lean ====
section
/-! DEFINITION. Multi-layer render targets, chapter 11_fragment.md: the setter's steps (R296 to R303) and FLCFG, FLINS,
FLRES and FLRD (R304, R308 to R311). -/

namespace Sys2Proof.Machine
open Sys2Proof

/-! ### What the setter meets -/

/-- Why a step of the setter ends (R300, R301, R309). -/
inductive FlErr where
  | viol (code addr agent : Nat)
  | absent (va : Nat) (write : Bool)
  | poison (key addr : Nat)
  | glaze (code : Nat)
  | full
  /-- A line of the bytes is checked out: the step waits for its recall (R177). -/
  | held
  deriving DecidableEq, Repr

/-- On whose behalf the setter acts: the team, the thread, and whether it is of the system crew. -/
structure FlUser where
  tm : Team
  thr : Nat
  sys : Bool
  deriving DecidableEq, Repr

/-- The key of w bytes of a target (R295, R309). -/
def State.flKey (s : State) (u : FlUser) (g : Target) (a w : Nat) (wr : Bool) : Except FlErr Nat :=
  if g.imm then
    match s.resolve u.tm u.thr u.sys .mem a w (if wr then .wr else .rd) with
    | .ok key => .ok key
    | .peer _ _ => .error (.viol 10 a 6)
    | .viol n => .error (.viol n a 6)
    | .absent => .error (.absent a wr)
  else if a % w ≠ 0 then .error (.viol 8 a 6)
  else if a + w ≤ u.tm.coresh then .ok (coreKey u.tm.id a) else .error (.viol 6 a 6)
/-- The value of w bytes of a target. -/
def State.flGet (s : State) (u : FlUser) (g : Target) (a w : Nat) : Except FlErr Nat :=
  match s.flKey u g a w false with
  | .ok key =>
    if s.outAt key w then .error .held else if s.poisoned key w then .error (.poison key a) else .ok (s.read key w)
  | .error e => .error e
/-- The address of node i (R296, R308). -/
def State.nodeAddr (s : State) (u : FlUser) (g : Target) (i : Nat) : Except FlErr Nat :=
  match s.flGet u g (g.shtab + 8 * (i / 256)) 8 with
  | .ok w => if w % 4096 ≠ 0 then .error (.viol 8 (w + 16 * (i % 256)) 6) else .ok (w + 16 * (i % 256))
  | .error e => .error e

/-- A node reached: its address and its entry. -/
structure FlNode where
  addr : Nat
  ent : FlEnt
  deriving DecidableEq, Repr
/-- The nodes of a pixel, at most n (R303). -/
def State.flWalk (s : State) (u : FlUser) (g : Target) : Nat → Nat → Except FlErr (List FlNode)
  | 0, _ => .ok []
  | n + 1, i =>
    if 256 * g.shelves ≤ i then .ok [] else
    match s.nodeAddr u g i with
    | .error e => .error e
    | .ok a => match s.flGet u g a 16 with
      | .error e => .error e
      | .ok w => (s.flWalk u g n (flEnt w).next).map fun l => ⟨a, flEnt w⟩ :: l
/-- The address of a pixel's head entry (R296). -/
def headAddr (g : Target) (px py : Nat) : Nat := g.head + 4 * (py * g.width + px)
/-- A pixel: its head address, first index, count and nodes. -/
structure FlPixel where
  ha : Nat
  first : Nat
  c : Nat
  nodes : List FlNode
  deriving DecidableEq, Repr
def State.flPixel (s : State) (u : FlUser) (g : Target) (px py : Nat) : Except FlErr FlPixel :=
  let ha := headAddr g px py
  match s.flGet u g ha 4 with
  | .error e => .error e
  | .ok h => (s.flWalk u g (h / 2 ^ 24) (h % 2 ^ 24)).map fun l => ⟨ha, h % 2 ^ 24, h / 2 ^ 24, l⟩

/-- Writes of the setter with their keys (R309). -/
def State.flKeys (s : State) (u : FlUser) (g : Target) : List (Nat × List Byte) → Except FlErr (List (Nat × List Byte))
  | [] => .ok []
  | (a, bs) :: rest =>
    match s.flKey u g a bs.length true with
    | .error e => .error e
    | .ok key =>
      if s.poisoned key bs.length && bs.length < unitSize key then .error (.poison key a)
      else (s.flKeys u g rest).map fun ks => (key, bs) :: ks
/-- Writes of the setter, in their order: all their places are found before the first is made (R297, R309). -/
def State.flPut (s : State) (u : FlUser) (g : Target) (ws : List (Nat × List Byte)) : Except FlErr State :=
  (s.flKeys u g ws).map fun ks => ks.foldl (fun s k => s.store k.1 k.2) s

/-- The routine of a ROUTINE target, checked (R300). -/
def State.flRoutine (s : State) (u : FlUser) (g : Target) (ha : Nat) : State × Except FlErr (Option GlzRow) :=
  if g.rule ≠ 4 then (s, .ok none) else
  match s.ctx? u.tm.asid with
  | none => (s, .error (.glaze 32))
  | some c =>
    let slice := match s.flKey u g ha 4 false with
      | .ok key => if g.imm then sliceOf c key else 48 + u.tm.core
      | .error _ => 48 + u.tm.core
    let f := s.glzFetch u.tm u.thr c u.sys slice g.gslot
    (f.1, match f.2 with
      | .viol n => .error (.viol n (glzAddr c g.gslot) 7)
      | .absent => .error (.absent (glzAddr c g.gslot) false)
      | .poison => .error (.glaze 39)
      | .held => .error .held
      | .ok bs => match glzCheck bs 0 0 2 with
        | some n => .error (.glaze n)
        | none => .ok (some (glzRow bs)))

/-! ### Insert -/

/-- DEGR of a target's block goes up by one (R297, R298, R301). -/
def State.flDegrade (s : State) (u : FlUser) (g : Target) : Except FlErr State :=
  match s.flGet u g (g.blk + 36) 4 with
  | .error e => .error e
  | .ok n => s.flPut u g [(g.blk + 36, natLe 4 (n + 1))]
/-- An allocation at the block: the index, and NEXT advanced; none where the pool is exhausted (R297, R298). -/
def State.flAlloc (s : State) (u : FlUser) (g : Target) : Except FlErr (Option (Nat × State)) :=
  match s.flGet u g (g.blk + 32) 4 with
  | .error e => .error e
  | .ok n => if 256 * g.shelves ≤ n then .ok none
    else (s.flPut u g [(g.blk + 32, natLe 4 (n + 1))]).map fun s1 => some (n, s1)
/-- The bytes of a node. -/
def FlEnt.enc (e : FlEnt) : List Byte := natLe 16 e.word

/-- A step of the setter's insert: the state and whether the insert was degraded; a fault leaves the state but for an
allocation already made (R309). -/
abbrev FlOut := State × Except FlErr Bool
def flDone (s0 : State) (r : Except FlErr State) (deg : Bool) : FlOut :=
  match r with
  | .ok s => (s, .ok deg)
  | .error e => (s0, .error e)

/-- A new node linked at place k (R298). -/
def State.flLink (s : State) (u : FlUser) (g : Target) (p : FlPixel) (i : Nat) (new : FlEnt) : FlOut :=
  let k := placeOf new.depth (p.nodes.map fun n => n.ent)
  let prev := if k = 0 then none else p.nodes[k - 1]?
  let nxt := match prev with
    | some n => n.ent.next
    | none => if p.nodes.isEmpty then flNone else p.first
  let nxt := if k < p.nodes.length then nxt else flNone
  match s.nodeAddr u g i with
  | .error e => (s, .error e)
  | .ok a =>
    let link := match prev with
      | some n => [(n.addr, { n.ent with next := i }.enc)]
      | none => []
    let head := (if prev.isSome then p.first else i) + (p.c + 1) * 2 ^ 24
    flDone s (s.flPut u g ((a, { new with next := nxt }.enc) :: link ++ [(p.ha, natLe 4 head)])) false
/-- B + 1 entries: the pair of the smallest gap merges, and the B entries go into the pixel's nodes (R298, R299). -/
def State.flMerge (s : State) (u : FlUser) (g : Target) (p : FlPixel) (new : FlEnt) : FlOut :=
  let l := p.nodes.map fun n => n.ent
  let k := placeOf new.depth l
  let es := l.take k ++ new :: l.drop k
  match s.flRoutine u g p.ha with
  | (_, .error e) => (s, .error e)
  | (s1, .ok row) => match mergeAt g.rule row es (minGap es) with
    | .error n => (s, .error (.glaze n))
    | .ok es => flDone s (s1.flPut u g ((p.nodes.zip es).map fun q =>
        (q.1.addr, { q.2 with next := q.1.ent.next }.enc))) false
/-- A degraded insert: the entry merges with the last node, or is dropped (R301). -/
def State.flLast (s : State) (u : FlUser) (g : Target) (p : FlPixel) (new : FlEnt) : FlOut :=
  match p.nodes.getLast? with
  | none => flDone s (s.flDegrade u g) true
  | some n =>
    let nearer := depthLe new.depth n.ent.depth && !depthLe n.ent.depth new.depth
    match s.flRoutine u g p.ha with
    | (_, .error e) => (s, .error e)
    | (s1, .ok row) => match if nearer then mergeEnt g.rule row new n.ent else mergeEnt g.rule row n.ent new with
      | .error k => (s, .error (.glaze k))
      | .ok m =>
        flDone s ((s1.flPut u g [(n.addr, { m with depth := n.ent.depth, next := n.ent.next }.enc)]).bind fun s2 =>
          s2.flDegrade u g) true

/-- The entry that an insert makes (R298). -/
def State.flNew (s : State) (d payload src : Nat) : FlEnt := ⟨d, payload, 1, src, s.freeDword % 2 ^ 24, 0⟩
/-- The allocation of an insert that needs a node and meets nothing that makes it wait (R297, R298): the node's index, and the
state once it is taken. -/
def State.flTake (s : State) (u : FlUser) (g : Target) (px py d payload src : Nat) : Option (Nat × State) :=
  if isNan (decodeF f32 d) then none else
  match s.flPixel u g px py, s.flAlloc u g with
  | .ok p, .ok (some (i, s1)) =>
    if g.budget ≤ p.c then none else
    match (s1.flLink u g p i (s.flNew d payload src)).2 with
    | .error (.absent _ _) | .error .held => none
    | _ => some (i, s1)
  | _, _ => none
/-- Insert of R298 and R301: `trap` says that an exhausted pool faults, and `node` is the node already taken. A page not present
leaves no effect (R309). -/
def State.flInsert (s : State) (u : FlUser) (g : Target) (px py : Nat) (trap : Bool) (d payload src : Nat) (node : Option Nat) :
    FlOut :=
  if isNan (decodeF f32 d) then flDone s (s.flDegrade u g) true else
  match s.flPixel u g px py with
  | .error e => (s, .error e)
  | .ok p =>
    let new := s.flNew d payload src
    if g.budget ≤ p.c then s.flMerge u g p new else
    match node with
    | some i => s.flLink u g p i new
    | none => match s.flAlloc u g with
      | .error e => (s, .error e)
      | .ok (some (i, s1)) => (s, (s1.flLink u g p i new).2)
      | .ok none => if trap then (s, .error .full) else s.flLast u g p new

/-- The key of a pixel's head entry. -/
def State.headKey (s : State) (u : FlUser) (g : Target) (px py : Nat) : Option Nat :=
  (s.flKey u g (headAddr g px py) 4 false).toOption
/-- Another insert is between its allocation and its step on the pixel: operations on one pixel are totally ordered (R297). -/
def State.pixelTaken (s : State) (u : FlUser) (g : Target) (px py id : Nat) : Bool :=
  match s.headKey u g px py with
  | none => false
  | some key => s.teams.any fun tm =>
      ((List.range tm.threads.length).any fun i => match tm.threads[i]? with
        | some t => t.pend.any fun o => o.id != id && o.stage == 1 && (match o.i with | .flins .. => true | _ => false) &&
            (match o.tgt with
              | some h => s.headKey ⟨tm, i, t.crew == 7⟩ h (o.vals.getD 0 0) (o.vals.getD 1 0) == some key
              | none => false)
        | none => false) ||
      tm.splats.any fun c => c.id != id && (match c.node, c.tgt with
        | some n, some h => s.headKey ⟨tm, c.o.thr, false⟩ h n.2.1 n.2.2 == some key
        | _, _ => false)

/-! ### FLCFG -/

/-- The 64-byte block of a slot is read as a load of the thread. -/
def State.readTarget (s : State) (x : Issue) (tm : Team) (j : Nat) (i : Instr) (mem : Bool) (a : Nat) : State :=
  if mem then s.pushMemRead x tm j i a 64 [] else s.pushKeyRead x tm j i .core a 64 []
/-- FLCFG.set (R308). -/
def execFlcfgSet (c : Common) (o : FlcfgSet) (s : State) : Out :=
  engineOp (.flcfgSet c o) none (fun k t => [⟨if o.mem then .mem else .core, srcVal k t o.mem o.a, 64, 64⟩])
    (fun x tm cr t j s => s.readTarget x tm j (.flcfgSet c o) o.mem (srcVal cr.k t o.mem o.a)) s
/-- FLCFG.grow (R308). -/
def execFlcfgGrow (c : Common) (n : Fin 4) (s : State) : Out :=
  runEach (.flcfgGrow c n) (fun x _ _ j s =>
    match s.team? x.team with
    | none => s
    | some tm => match tm.targets.getD n.val none with
      | none => s.raise x j 16 1 s.freeDword
      | some g => s.readTarget x tm j (.flcfgGrow c n) g.imm g.blk) s
def State.setTarget (s : State) (id n : Nat) (g : Option Target) : State :=
  s.modTeam id fun tm => { tm with targets := tm.targets.set n g }
/-- FLCFG.off (R308). -/
def execFlcfgOff (c : Common) (n : Fin 4) (s : State) : Out :=
  runEach (.flcfgOff c n) (fun x _ _ j s => (s.setTarget x.team n.val none).pushDone x j (.flcfgOff c n)) s

/-- The slot contents of a block; none where a field or address breaks a rule, shelf words apart (R295, R308). -/
def targetOf (tm : Team) (mem : Bool) (blk : Nat) (bs : List Byte) : Option Target :=
  let mode := fld bs 42 1
  let g : Target :=
    { blk := blk, imm := bit mode 0, head := fld bs 0 8, shtab := fld bs 8 8, orgx := toSigned 32 (fld bs 16 4)
      orgy := toSigned 32 (fld bs 20 4), width := fld bs 24 2, height := fld bs 26 2, shelves := fld bs 28 4
      budget := fld bs 40 1, rule := fld bs 41 1, degrade := bit mode 1, gslot := fld bs 43 1 }
  if g.head % 4 = 0 ∧ g.shtab % 8 = 0 ∧ 1 ≤ g.width ∧ g.width ≤ 32768 ∧ 1 ≤ g.height ∧ g.height ≤ 32768 ∧
      1 ≤ g.shelves ∧ g.shelves ≤ 65535 ∧ 1 ≤ g.budget ∧ g.budget ≤ 15 ∧ g.rule ≤ 4 ∧ mode < 4 ∧ g.gslot ≤ 63 ∧
      (g.gslot = 0 ∨ g.rule = 4) ∧ fld bs 44 20 = 0 ∧ g.imm = mem ∧
      (g.imm ∨ g.head + 4 * g.width * g.height ≤ tm.coresh) then some g else none
/-- The shelf words that FLCFG checks in tile mode (R308); none where one is poisoned. -/
def State.shelvesOk (s : State) (tm : Team) (g : Target) (n : Nat) : Option Bool :=
  if g.imm then some true
  else if tm.coresh < g.shtab + 8 * n then some false
  else if s.poisoned (coreKey tm.id g.shtab) (8 * n) then none
  else some ((List.range n).all fun k =>
    let w := s.read (coreKey tm.id (g.shtab + 8 * k)) 8
    w % 4096 == 0 && decide (w + 4096 ≤ tm.coresh))

/-- FLCFG.set completes: the slot takes the block, or is empty where it is malformed (R308). -/
def State.performFlset (s : State) (tm : Team) (i : Nat) (t : Thread) (q : FlcfgSet) (o : Op) (p : PerformOp) : State :=
  s.blockRead tm i t o p fun s bs =>
    let bad := (s.setTarget tm.id q.slot.val none).failOp tm.id i o 16 2 o.ea
    match targetOf tm q.mem o.ea bs with
    | none => bad
    | some g => match s.shelvesOk tm g g.shelves with
      | none => s.poisonOp tm.id i { o with key := coreKey tm.id g.shtab } [] g.shtab
      | some false => bad
      | some true => (s.setTarget tm.id q.slot.val (some g)).completeOp tm.id i o []
/-- FLCFG.grow completes (R308). -/
def State.performFlgrow (s : State) (tm : Team) (i : Nat) (t : Thread) (n : Nat) (o : Op) (p : PerformOp) : State :=
  s.blockRead tm i t o p fun s bs =>
    let k := fld bs 28 4
    match tm.targets.getD n none with
    | none => s.failOp tm.id i o 16 1 o.ea
    | some g =>
      if k < g.shelves then s.failOp tm.id i o 16 3 o.ea
      else if 65535 < k then s.failOp tm.id i o 16 2 o.ea
      else match s.shelvesOk tm g k with
        | none => s.poisonOp tm.id i { o with key := coreKey tm.id g.shtab } [] g.shtab
        | some false => s.failOp tm.id i o 16 2 o.ea
        | some true => (s.setTarget tm.id n (some { g with shelves := k })).completeOp tm.id i o []

/-! ### FLINS, FLRES, FLRD -/

/-- A pixel operand on a target: the target pixel; none where it lies outside (R304, R309). -/
def targetPixel (g : Target) (pix : Nat) : Option (Nat × Nat) :=
  let px := (bits pix 15 0 : Int) - g.orgx
  let py := (bits pix 31 16 : Int) - g.orgy
  if 0 ≤ px ∧ px < g.width ∧ 0 ≤ py ∧ py < g.height then some (px.toNat, py.toNat) else none
/-- A key that stands for a pixel of a target, to keep one thread's operations on it in order (R297). -/
def pixelKey (g : Target) (px py : Nat) : Nat := 2 ^ 122 + g.blk * 2 ^ 32 + py * 2 ^ 16 + px
/-- An operation on a target issues: the slot and the pixel are checked (R308, R309), and the request to the home slice of an
immediate-mode target passes the sampler (R297, R399). -/
def targetOp (i : Instr) (slot : Nat) (pixel : List DWord → Thread → Nat) (frag : Bool) (vals : List DWord → Thread → List Nat)
    (s : State) : Out :=
  runEach i (fun x cr t j s =>
    match s.team? x.team with
    | none => s
    | some tm => match tm.targets.getD slot none with
      | none => s.raise x j 16 1 s.freeDword
      | some g =>
        if frag ∧ t.frag.isNone then s.raise x j 8 3 x.iaddr.toNat else
        let pix := pixel cr.k t % 2 ^ 32
        match targetPixel g pix with
        | none => s.violate x j 80 pix (if g.imm then 0 else 2)
        | some (px, py) =>
          (if g.imm then s.sampleThr tm j [(headAddr g px py, 4)] else s).pushOp x j i (px :: py :: vals cr.k t) fun u =>
            { u with tgt := some g, key := pixelKey g px py, len := 1 }) s

/-- The pixel of a FLINS (R309). -/
def flinsPixel (o : FlinsOp) (k : List DWord) (t : Thread) : Nat :=
  match o.px with
  | some (_, c) => srcVal k t false c
  | none => match t.frag with | some f => f.x + f.y * 2 ^ 16 | none => 0
/-- SRC of a FLINS (R304). -/
def flSrcNum (o : FlinsOp) : Nat :=
  match o.px with
  | some (.splat, _) => 1
  | some (.ray, _) => 2
  | _ => 0
/-- FLINS (R309). -/
def execFlins (c : Common) (o : FlinsOp) (s : State) : Out :=
  targetOp (.flins c o) o.slot.val (flinsPixel o) o.px.isNone
    (fun k t => [srcVal k t false o.a, t.v64 o.b.val, flSrcNum o]) s
/-- FLRES (R310). -/
def execFlres (c : Common) (o : FlresOp) (s : State) : Out :=
  targetOp (.flres c o) o.slot.val (fun k t => srcVal k t false o.a) false (fun _ _ => []) s
/-- FLRES.clr (R310). -/
def execFlresClr (c : Common) (o : FlresOp) (s : State) : Out :=
  targetOp (.flresClr c o) o.slot.val (fun k t => srcVal k t false o.a) false (fun _ _ => []) s
/-- FLRD (R311). -/
def execFlrd (c : Common) (o : FlrdOp) (s : State) : Out :=
  targetOp (.flrd c o) o.slot.val (fun k t => srcVal k t false o.a) false (fun k t => [srcVal k t false o.b]) s

/-- A step of the setter that faults: the operation's fault (R300, R301, R309). -/
def State.flFail (s : State) (tm : Team) (i : Nat) (t : Thread) (g : Target) (o : Op) (ha : Nat) : FlErr → State
  | .viol n a agent => s.violateLate tm.id i o n a (if g.imm ∨ agent = 7 then 0 else 2) agent
  | .absent va w => s.failOp tm.id i o 32 0 va (b2n w)
  | .poison key a => s.failOp tm.id i o 7 (poisonCause key) a
  | .glaze n => (s.logOp tm t o n (ha / 128 * 128) (if g.imm then 0 else 2) 6 false).failOp tm.id i o 9 n (ha / 128 * 128)
  | .full => s.failOp tm.id i o 34 0 g.blk
  | .held => s
/-- The results of FLRES (R310). -/
def flresOut (l : List FlEnt) (r : FlEnt) : Nat × Nat := (r.payload, l.length + 16 * l.foldl (fun a e => a + e.mcount) 0)
/-- The result of FLRD (R311). -/
def flrdOut (l : List FlEnt) (k : Nat) : List Nat :=
  match l[k]? with
  | none => [0, 0, 0, 0xC0000000]
  | some e =>
    let w := { e with next := if k + 1 < l.length then k + 1 else flNone }.word
    (List.range 4).map fun n => bits w (32 * n + 31) (32 * n)

/-- FLRES and FLRES.clr at the setter (R310). -/
def State.performFlres (s : State) (tm : Team) (i : Nat) (t : Thread) (g : Target) (q : FlresOp) (clr : Bool) (o : Op) :
    State :=
  let u : FlUser := ⟨tm, i, t.crew == 7⟩
  let px := o.vals.getD 0 0
  let py := o.vals.getD 1 0
  let fail := s.flFail tm i t g o (headAddr g px py)
  match s.flPixel u g px py with
  | .error e => fail e
  | .ok p =>
    let l := p.nodes.map fun n => n.ent
    let r := if 2 ≤ l.length then s.flRoutine u g p.ha else (s, .ok none)
    match r.2 with
    | .error e => fail e
    | .ok row => match resolveEnts g.rule row l with
      | .error n => fail (.glaze n)
      | .ok e =>
        let out := flresOut l e
        let ws := vPut true q.d.val out.1 ++ vPut false (q.d.val + 2) out.2
        if clr then
          match r.1.flPut u g [(p.ha, natLe 4 flNone)] with
          | .ok s1 => s1.completeOp tm.id i o ws
          | .error e => fail e
        else r.1.completeOp tm.id i o ws

/-- A FLINS performs (R297, R309): where it needs a node the allocation is a step of its own, then the step on the pixel. -/
def State.performFlins (s : State) (tm : Team) (i : Nat) (t : Thread) (g : Target) (q : FlinsOp) (o : Op) : State :=
  let u : FlUser := ⟨tm, i, t.crew == 7⟩
  let v := fun n => o.vals.getD n 0
  match if o.stage = 0 then s.flTake u g (v 0) (v 1) (v 2) (v 3) (v 4) else none with
  | some (n, s1) => s1.modOp tm.id i o.id fun u => { u with stage := 1, vals := u.vals ++ [n] }
  | none =>
    let r := s.flInsert u g (v 0) (v 1) (!g.degrade) (v 2) (v 3) (v 4) (if o.stage = 0 then none else some (v 5))
    match r.2 with
    | .ok deg => r.1.completePred tm.id i o q.d deg
    | .error e => r.1.flFail tm i t g o (headAddr g (v 0) (v 1)) e
/-- A FLINS, FLRES or FLRD performs as one step at the setter and completes (R297, R309 to R311). -/
def State.performTarget (s : State) (tm : Team) (i : Nat) (t : Thread) (o : Op) : State :=
  match o.tgt with
  | none => s
  | some g =>
    let u : FlUser := ⟨tm, i, t.crew == 7⟩
    let px := o.vals.getD 0 0
    let py := o.vals.getD 1 0
    if ¬ t.orderClear o ∨ s.pixelTaken u g px py o.id then s else
    match o.i with
    | .flins _ q => s.performFlins tm i t g q o
    | .flres _ q => s.performFlres tm i t g q false o
    | .flresClr _ q => s.performFlres tm i t g q true o
    | .flrd _ q => match s.flPixel u g px py with
      | .error e => s.flFail tm i t g o (headAddr g px py) e
      | .ok p => s.completeOp tm.id i o (vPuts q.d.val (flrdOut (p.nodes.map fun n => n.ent) (o.vals.getD 2 0)))
    | _ => s

/-- SETTER_INSERT (R297): an operation on a target performs at its setter, but for a context that is being terminated (R368). -/
def execSetterInsert (p : PendRef) (s : State) : Out :=
  match s.team? p.team, s.thr? p.team p.thr, s.op? p.team p.thr p.id with
  | some tm, some t, some o =>
    .next (if o.res.isNone ∧ s.runs tm.asid ∧ t.status ≠ .stopped then s.performTarget tm p.thr t o else s)
  | _, _, _ => .next s

end Sys2Proof.Machine
end

