-- ==== Sys2Proof/Machine/Splat.lean ====
section
/-! DEFINITION. The splat unit, chapter 12_splat_ray.md: SPLAT (R323, R442), its sort (R314), the composite of a pixel
(R315), its outputs (R316, R317), completion, faults and misuse (R318 to R321). -/

namespace Sys2Proof.Machine
open Sys2Proof

/-! ### SPLAT -/

/-- The SPLATs of a team that are not complete, those still being checked included (R323). -/
def Team.splatsOpen (tm : Team) : Nat :=
  tm.splats.length + tm.threads.foldl (fun n t =>
    n + (t.pend.filter fun o => match o.i with | .splat .. => true | _ => false).length) 0
/-- The command a splat block describes (R313). -/
def splatBlock (tm : Team) (o : Op) (thr : Nat) (bs : List Byte) (id : Nat) : SplatCmd :=
  { id := id, o := o.origin tm thr, block := o.ea, list := fld bs 0 8, feat := fld bs 8 8
    count := fld bs 16 4, tx := fld bs 20 2, ty := fld bs 22 2, work := fld bs 24 4, out := fld bs 28 4, splt := fld bs 32 4
    amin := fld bs 36 4, amax := fld bs 40 4, fstr := fld bs 44 2, nch := fld bs 46 1, flags := fld bs 47 1
    obar := fld bs 48 4, ibar := fld bs 52 4, tag := fld bs 56 4 }
def SplatCmd.slot (c : SplatCmd) : Nat := bits c.flags 3 2
def SplatCmd.post (c : SplatCmd) : Bool := bit c.flags 4
def SplatCmd.bar (c : SplatCmd) : Bool := bit c.flags 5
def SplatCmd.ibarOn (c : SplatCmd) : Bool := bit c.ibar 1
def SplatCmd.ibarAddr (c : SplatCmd) : Nat := c.ibar / 16 * 16
/-- 1.0 in binary32. -/
def one32 : Nat := 0x3F800000
/-- The block is well formed (R313). -/
def splatOk (c : SplatCmd) (resv : Nat) : Bool :=
  (if c.core then decide (c.list < 2 ^ 32) && decide (c.feat < 2 ^ 32) else c.list % 32 == 0 && c.feat % 4 == 0) &&
  c.count ≤ 65536 && c.tx ≤ 4095 && c.ty ≤ 4095 && leReal f32 0 c.splt && leReal f32 c.splt one32 &&
  leReal f32 0 c.amin && !leReal f32 c.amin 0 && leReal f32 c.amin one32 && leReal f32 c.amin c.amax &&
  leReal f32 c.amax one32 && 1 ≤ c.nch && c.nch ≤ 4 && c.fstr % 4 == 0 && 4 * c.nch ≤ c.fstr && c.flags < 64 &&
  bits c.ibar 3 2 == 0 && resv == 0 && (c.lmode || c.slot == 0) && (!c.lmode || c.out == 0)

/-- A range of n bytes; of an empty one only the alignment is checked. -/
def splatRange (a n al : Nat) : List EngOpnd := if n = 0 ∧ a % al = 0 then [] else [coreOpnd a n al]
/-- The addresses a splat block names, in the order of their fields (R323, R442). -/
def splatOpnds (c : SplatCmd) : List EngOpnd :=
  (if c.core then splatRange c.list (32 * c.count) 32 ++ [coreOpnd c.feat 4 4] else []) ++
  splatRange c.work (16 * c.count) 16 ++ (if c.lmode then [] else [coreOpnd c.out 8192 32]) ++
  (if c.bar then [coreOpnd c.obar 16 16] else []) ++ (if c.ibarOn then [coreOpnd c.ibarAddr 16 16] else [])
/-- WORK and OUT overlap each other, or the list in `.core` (R321). -/
def SplatCmd.overlaps (c : SplatCmd) : Bool :=
  let w := (c.work, 16 * c.count)
  let o := if c.lmode then [] else [(c.out, 8192)]
  let l := if c.core then [(c.list, 32 * c.count)] else []
  (o ++ l).any (fun a => overlap w.1 w.2 a.1 a.2) || o.any fun b => l.any fun a => overlap b.1 b.2 a.1 a.2

/-- The areas of a splat that begins overlap, its features among them (R321). -/
def State.splatOverlaps (s : State) (tm : Team) (c : SplatCmd) : Bool :=
  c.overlaps || (c.core && (s.splatFeatAt tm c).any fun f =>
    overlap f.1 f.2 c.work (16 * c.count) || (!c.lmode && overlap f.1 f.2 c.out 8192))

/-- The first check of a splat block that fails, in the order of R442: an address that violates, with its code, or a fault with
its kind, cause and FADDR (R323). -/
inductive SplatBad where
  | viol (code addr : Nat)
  | fault (kind cause addr : Nat)
  deriving DecidableEq, Repr
def State.splatBad (s : State) (tm : Team) (i : Nat) (c : SplatCmd) (resv : Nat) (g : Option Target) : Option SplatBad :=
  if ¬ splatOk c resv then some (.fault 17 0 c.block) else
  match s.badOpnd tm i (splatOpnds c) with
  | some (q, n) => some (.viol n q.ea)
  | none => if c.lmode ∧ g.isNone then some (.fault 16 1 s.freeDword) else none

/-- A SPLAT finds no room in Q4: its block is read and checked, and it waits with the word in hand (R323). -/
def State.stallSplat (s : State) (x : Issue) (tm : Team) (j : Nat) (t : Thread) (o : Op) : State :=
  if ¬ s.blockReady tm t o then s.stallFor x j else
  match s.blockBytes o with
  | none => s.reportIssue x j 7 (poisonCause o.key) o.ea
  | some bs =>
    let c := splatBlock tm o j bs o.id
    match s.splatBad tm j c (fld bs 60 4) (tm.targets.getD c.slot none) with
    | some (.viol n a) => s.violateIssue x j n a 2
    | some (.fault k n a) => s.reportIssue x j k n a
    | none => s.stallFor x j
/-- SPLAT (R323): the block is read as a load of the thread; it waits for room before it issues. -/
def execSplat (c : Common) (a : Src) (s : State) : Out :=
  engineOp (.splat c a) (some 2) (fun k t => [coreOpnd (srcVal k t false a) 64 64])
    (fun x tm cr t j s =>
      let ea := srcVal cr.k t false a
      if 16 ≤ tm.splatsOpen then
        match s.scratchKey tm j .core ea with
        | .ok key => s.stallSplat x tm j t { mkOp x t (.splat c a) s.nextId [ea] with key := key, len := 64 }
        | .error n => s.violateIssue x j n ea 2
      else (s.wakeRoom x j 4).pushKeyRead x tm j (.splat c a) .core ea 64 []) s

/-- SPLAT completes: the block is checked, and the command enters Q4 with the target that its slot held at issue (R317, R323,
R442). -/
def State.performSplat (s : State) (tm : Team) (i : Nat) (t : Thread) (o : Op) : State :=
  if ¬ s.blockReady tm t o ∨ ¬ t.q4Turn o.id then s else
  match s.blockBytes o with
  | none => s.poisonOp tm.id i o [] o.ea
  | some bs =>
    let c := splatBlock tm o i bs s.nextId
    let g := if c.lmode then o.slots.getD c.slot none else none
    match s.splatBad tm i c (fld bs 60 4) g with
    | some (.viol n a) => s.violateLate tm.id i o n a 2
    | some (.fault k n a) => s.failOp tm.id i o k n a
    | none => (State.modTeam { s with nextId := s.nextId + 1 } tm.id fun tm =>
        { tm with splats := tm.splats ++ [{ c with tgt := g }] }).completeOp tm.id i o []

/-! ### Running -/

def State.modSplat (s : State) (id cid : Nat) (f : SplatCmd → SplatCmd) : State :=
  s.modTeam id fun tm => { tm with splats := tm.splats.map fun c => if c.id = cid then f c else c }
def State.splatLeaves (s : State) (id cid : Nat) : State :=
  s.modTeam id fun tm => { tm with splats := tm.splats.filter fun c => c.id != cid }
/-- A Q4 record of the splat unit (R319). -/
def splatRec (kind cause who : Nat) (c : SplatCmd) : List Byte :=
  natLe 1 kind ++ natLe 1 cause ++ natLe 2 who ++ natLe 4 c.tag ++ natLe 4 c.block ++ natLe 4 c.skip
/-- n bytes of the team's core share take free values (R314, R321): DESIGN CHOICE, log 7. -/
def State.freeCore (s : State) (tm : Team) (a n : Nat) : State :=
  match s.coreAt tm a with
  | some key => s.freeBytes key n
  | none => s
/-- WORK and OUT end unspecified where the SPLAT was misused (R321). -/
def State.splatMess (s : State) (tm : Team) (c : SplatCmd) : State :=
  if ¬ c.clash then s else
  let s1 := s.freeCore tm c.work (16 * c.count)
  if c.lmode then s1 else s1.freeCore tm c.out 8192
/-- The SPLAT ends early with a record of this KIND and Poison(n) on its barrier (R320). -/
def State.splatStop (s : State) (tm : Team) (c : SplatCmd) (kind cause n : Nat) : State :=
  ((s.splatMess tm c).postBoth tm.id (if c.bar then s.coreAt tm c.obar else none) 0 0 n 4
    (splatRec kind cause (tm.whoOf c.o.thr) c)).splatLeaves tm.id c.id
/-- A fault of the SPLAT (R320). -/
def State.splatFault (s : State) (tm : Team) (c : SplatCmd) (code addr space agent : Nat) : State :=
  (s.logEngine tm c.o code addr space agent).splatStop tm c 17 code 2
/-- What a read or write of the unit meets (R320). -/
def State.splatMeets (s : State) (tm : Team) (c : SplatCmd) (e : ERes) (w : Bool) : State :=
  match e with
  | .absent va => s.engineMiss tm c.id va w
  | .viol n a sp => s.splatFault tm c n a sp 4
  | .ok _ | .held => s

/-- n bytes of a record or feature (R320); `idx` numbers the bytes a peer would answer. -/
def State.splatRead (s : State) (tm : Team) (c : SplatCmd) (a n idx : Nat) : ERes :=
  if c.core then
    match s.coreAt tm a with
    | some key => s.engKey key n a 2
    | none => .viol 6 a 2
  else s.engRead tm a n
    ⟨(List.range n).map fun i => Config.freeByte s.tick (idx + i), Config.freeBit s.tick 7, Config.freeBit s.tick 8⟩ 0
/-- The sort a SPLAT makes (R314). -/
def SplatCmd.job (c : SplatCmd) : SortJob :=
  { id := c.id, o := c.o, block := c.block, keys := c.work, vals := c.work + 4 * c.count, tkeys := c.work + 8 * c.count
    tvals := c.work + 12 * c.count, count := c.count, k64 := false, core := true, noval := false, kt := 2, bar := false
    dlo := 0, dhi := 3, obar := 0, ibar := 0, started := true, going := true, passes := c.passes }
/-- DKEY of n records from record i (R314). -/
def State.splatKeys (s : State) (tm : Team) (c : SplatCmd) (i : Nat) : Nat → Except ERes (List Nat)
  | 0 => .ok []
  | n + 1 => match s.splatRead tm c (c.list + 32 * i + 24) 4 (32 * i) with
    | .ok bs => (s.splatKeys tm c (i + 1) n).map fun l => leNat bs :: l
    | e => .error e
/-- The fill (R314), whose reads of the list pass the sampler (R399). -/
def State.splatFill (s : State) (tm : Team) (c : SplatCmd) : State :=
  let s := s.sampleFor tm c.o (if c.core then [] else [(c.list, 32 * c.count)])
  match s.splatKeys tm c 0 c.count with
  | .error e => s.splatMeets tm c e false
  | .ok ks =>
    let put := fun (s : State) (a : Nat) (l : List Nat) => match s.coreAt tm a with
      | some key => s.storeRuns tm.asid ((lineSpans key (4 * l.length)).map fun p =>
          (p.1, ((l.flatMap (natLe 4)).drop (p.1 - key)).take p.2))
      | none => s
    let s1 := put (put s c.work ks) (c.work + 4 * c.count) (List.range c.count)
    (s1.ownWrites s).modSplat tm.id c.id fun r => { r with filled := true, clash := c.clash }

/-- The splat unit of a cluster serves a SPLAT (R323). -/
def State.splatting (s : State) (cluster : Nat) : Bool :=
  s.teams.any fun tm => clusterOf tm.core == cluster && tm.splats.any fun c => c.serving

/-- The SPLAT at the head of Q4 begins once its input barrier lets it; a poisoned one ends it (R320). -/
def State.splatBegin (s : State) (tm : Team) (c : SplatCmd) : State :=
  let go := s.modSplat tm.id c.id fun c => { c with begun := true, serving := true, going := true, clash := s.splatOverlaps tm c }
  if s.splatting (clusterOf tm.core) ∨ s.sorting (clusterOf tm.core) then s
  else if ¬ c.ibarOn then go else
  match s.coreAt tm c.ibarAddr with
  | none => s
  | some key =>
    if s.poisoned key 16 then s.splatFault tm c 64 c.ibarAddr 2 4
    else match barwTest (s.barObj key) (c.ibar % 2) with
      | none => s
      | some true => go
      | some false => s.splatStop tm c 18 0 6

/-- SPLAT_START (R314, R323): the SPLAT begins, or after a restore has the unit again, then fills, then makes its four sort
passes, one move each. -/
def execSplatStart (team : Nat) (s : State) : Out :=
  match s.team? team with
  | none => .next s
  | some tm =>
    match tm.splats.head? with
    | none => .next s
    | some c =>
      if tm.pageWaiting c.id ∨ ¬ s.engineOn tm true then .next s
      else if ¬ c.begun then .next (s.splatBegin tm c)
      else if ¬ c.serving then
        .next (if s.splatting (clusterOf tm.core) then s else s.modSplat tm.id c.id fun c => { c with serving := true })
      else if 4 ≤ c.passes then .next s
      else if ¬ c.going then
        .next (if s.sorting (clusterOf tm.core) then s else s.modSplat tm.id c.id fun c => { c with going := true })
      else if c.clash ∨ c.count = 0 then
        .next (s.modSplat tm.id c.id fun c => { c with filled := true, passes := 4, going := false })
      else if ¬ c.filled then .next (s.splatFill tm c)
      else .next (match s.movePass tm c.job ⟨[], true, false⟩ with
        | .error (e, w) => s.splatMeets tm c e w
        | .ok s1 => (s1.ownWrites s).modSplat tm.id c.id fun r =>
            { r with passes := c.passes + 1, going := c.passes != 3, clash := c.clash })

/-! ### The composite -/

/-- KH (R315). -/
def splatKh : Nat := 0x3F38AA3B
/-- A binary32 operation rounded to nearest even (R116). -/
def op32 (op : FArith) (a b c : Nat) : Nat := (arithElem op f32 .rne false false a b c).1
/-- x + 0.5 in binary32. -/
def half32 (x : Nat) : Nat := (roundDyad f32 .rne false false ⟨2 * (x : Int) + 1, -1⟩).1
/-- An exact product; NaN where it is invalid or a factor is one. -/
def mulF (a b : FVal) : FVal := if isNan a || isNan b then .nan false else (mulExact a b).getD (.nan false)
/-- Twice a value. -/
def twiceF : FVal → FVal
  | .fin s m e => .fin s m (e + 1)
  | v => v
/-- q of R315; none where it is a NaN. -/
def splatQ (ca cb cc dx dy : Nat) : Option Nat :=
  let x := decodeF f32 dx
  let y := decodeF f32 dy
  match sumVal dySum [(mulF (decodeF f32 ca) x, x), (mulF (twiceF (decodeF f32 cb)) x, y), (mulF (decodeF f32 cc) y, y)] with
  | .nan _ => none
  | .inf s => some (infF f32 s)
  | .fin d => some (roundDyad f32 .rne false false d).1
/-- a < b as reals. -/
def ltReal32 (a b : Nat) : Bool := leReal f32 a b && !leReal f32 b a
/-- The alpha of a record at a pixel centre; none where it does not contribute (R315). -/
def splatAlpha (c : SplatCmd) (r : List Byte) (xc yc : Nat) : Option Nat :=
  match splatQ (fld r 8 4) (fld r 12 4) (fld r 16 4) (op32 .sub xc (fld r 0 4) 0) (op32 .sub yc (fld r 4 4) 0) with
  | none => none
  | some q =>
    if ltReal32 q 0 then none else
    let g := (funVal .exp2 .f32 .rne false false (op32 .mul splatKh q 0 ^^^ 2 ^ 31)).1
    let a := op32 .mul (fld r 20 4) g 0
    let a := if ltReal32 c.amax a then c.amax else a
    if leReal f32 c.amin a then some a else none

/-- The accumulators of a pixel (R315). -/
structure SplatAcc where
  t : Nat := one32
  col : List Nat := [0, 0, 0, 0]
  n : Nat := 0
  last : Nat := 2 ^ 32 - 1
  fkey : Nat := 0x7FC00000
  deriving DecidableEq, Repr

/-- The feature channels of a record from channel k (R313). -/
def State.splatFeats (s : State) (tm : Team) (c : SplatCmd) (r : List Byte) (k : Nat) : Nat → Except ERes (List Nat)
  | 0 => .ok []
  | n + 1 =>
    match s.splatRead tm c (c.feat + fld r 28 4 * c.fstr + 4 * k) 4 (32 * 65536 + 4 * k) with
    | .ok bs => (s.splatFeats tm c r (k + 1) n).map fun l => leNat bs :: l
    | e => .error e
/-- The channels after a contribution of weight w. -/
def splatBlend (w : Nat) (col feats : List Nat) : List Nat :=
  (List.range 4).map fun k => match feats[k]? with
    | some f => op32 .fma w f (col.getD k 0)
    | none => col.getD k 0

/-- The composite of a pixel over the records in sorted order (R315); none where the misuse of R321 shows. -/
def State.splatGo (s : State) (tm : Team) (c : SplatCmd) (xc yc : Nat) :
    List Nat → SplatAcc → Except ERes (Option SplatAcc)
  | [], acc => .ok (some acc)
  | i :: is, acc =>
    if c.count ≤ i then .ok none else
    match s.splatRead tm c (c.list + 32 * i) 32 (32 * i) with
    | .ok r =>
      match splatAlpha c r xc yc with
      | none => s.splatGo tm c xc yc is acc
      | some a =>
        let tn := op32 .mul acc.t (op32 .sub one32 a 0) 0
        if ltReal32 tn c.splt then .ok (some acc) else
        match s.splatFeats tm c r 0 c.nch with
        | .error e => .error e
        | .ok fs => s.splatGo tm c xc yc is
            { t := tn, col := splatBlend (op32 .mul a acc.t 0) acc.col fs, n := acc.n + 1, last := i
              fkey := if acc.n = 0 then fld r 24 4 else acc.fkey }
    | e => .error e
/-- The pixel in hand (R315, R322). -/
def State.splatPixel (s : State) (tm : Team) (c : SplatCmd) : Except ERes (Option SplatAcc) :=
  if c.clash then .ok none
  else if c.count = 0 then .ok (some {})
  else match s.coreAt tm (c.work + 4 * c.count) with
    | none => .error (.viol 6 (c.work + 4 * c.count) 2)
    | some key => match s.engKey key (4 * c.count) (c.work + 4 * c.count) 2 with
      | .ok bs => s.splatGo tm c (half32 (16 * c.tx + c.pix % 16)) (half32 (16 * c.ty + c.pix / 16))
          (wordsBy 4 c.count bs) {}
      | e => .error e

/-! ### Outputs -/

/-- The bytes of a pixel in the tile buffer (R316). -/
def SplatAcc.bytes (a : SplatAcc) : List Byte :=
  ((a.col ++ [a.t, a.n, a.last, a.fkey]).flatMap fun w => natLe 4 w)
/-- The payload of a pixel's insert (R317). -/
def SplatAcc.payload (a : SplatAcc) : Nat :=
  let h := fun (v : FVal) => (cvtTo f16 .rne false false v).1
  h (decodeF f32 (a.col.getD 0 0)) + h (decodeF f32 (a.col.getD 1 0)) * 2 ^ 16 + h (decodeF f32 (a.col.getD 2 0)) * 2 ^ 32 +
    h (oneMinus (decodeF f32 a.t)) * 2 ^ 48
/-- The pixel is output; `skip` counts it in SKIP. -/
def State.splatNext (s : State) (tm : Team) (c : SplatCmd) (skip : Bool) : State :=
  s.modSplat tm.id c.id fun c => { c with pix := c.pix + 1, skip := c.skip + b2n skip, node := none }
/-- The insert of a pixel into the target (R317, R320): where it needs a node the allocation is a step of its own (R297). -/
def State.splatInsert (s : State) (tm : Team) (c : SplatCmd) (g : Target) (a : SplatAcc) : State :=
  let x := 16 * c.tx + c.pix % 16
  let y := 16 * c.ty + c.pix / 16
  match targetPixel g (x + y * 2 ^ 16) with
  | none => s.splatNext tm c true
  | some (px, py) =>
    let u : FlUser := ⟨tm, c.o.thr, false⟩
    if s.pixelTaken u g px py c.id then s else
    match if c.node.isNone then s.flTake u g px py a.fkey a.payload 1 else none with
    | some (n, s1) => s1.modSplat tm.id c.id fun c => { c with node := some (n, px, py) }
    | none =>
    let sp := if g.imm then 0 else 2
    let s := if g.imm then s.sampleFor tm c.o [(headAddr g px py, 4)] else s
    let r := s.flInsert u g px py false a.fkey a.payload 1 (c.node.map fun n => n.1)
    match r.2 with
    | .ok _ => r.1.splatNext tm c false
    | .error (.absent va w) => s.engineMiss tm c.id va w
    | .error (.viol n ad agent) => r.1.splatFault tm c n ad (if agent = 7 then 0 else sp) 6
    | .error (.poison _ ad) => r.1.splatFault tm c 64 ad sp 6
    | .error (.glaze n) => (r.1.logEngine tm c.o n (headAddr g px py / 128 * 128) sp 6).splatNext tm c true
    | .error .full => r.1.splatNext tm c true
    | .error .held => s

/-- SPLAT_PIXEL_OUTPUT (R315 to R317): the next pixel in row-major order is composited and output. DESIGN CHOICE (log 124):
the reads of the records and features pass the sampler with the first pixel, as the unit works on all pixels together. -/
def execSplatPixelOutput (team : Nat) (s : State) : Out :=
  match s.team? team with
  | none => .next s
  | some tm =>
    match tm.splats.head? with
    | none => .next s
    | some c =>
      if c.passes ≠ 4 ∨ 256 ≤ c.pix ∨ ¬ c.serving ∨ tm.pageWaiting c.id ∨ ¬ s.engineOn tm c.node.isNone then .next s else
      let s := s.sampleFor tm c.o (if c.core ∨ c.pix ≠ 0 then [] else (c.list, 32 * c.count) :: s.splatFeatAt tm c)
      .next (match s.splatPixel tm c with
        | .error e => s.splatMeets tm c e false
        | .ok r =>
          let s1 := s.modSplat tm.id c.id fun q => { q with clash := c.clash || r.isNone }
          let w := fun (i : Nat) => leNat ((List.range 4).map fun k => Config.freeByte s.tick (4 * i + k))
          let a : SplatAcc := r.getD
            { t := w 0, col := [w 1, w 2, w 3, w 4], n := b2n (Config.freeBit s.tick 9), last := w 5, fkey := w 6 }
          if c.lmode then
            match c.tgt with
            | some g => if a.n = 0 then s1.splatNext tm c false else s1.splatInsert tm c g a
            | none => s1.splatNext tm c false
          else match s.coreAt tm (c.out + 32 * c.pix) with
            | some key => (((s1.engineStore key a.bytes).ownWrites s).modSplat tm.id c.id fun q =>
                { q with clash := c.clash || r.isNone }).splatNext tm c false
            | none => s1.splatNext tm c false)

/-- SPLAT_COMPLETE (R318): every pixel is output. -/
def execSplatComplete (team : Nat) (s : State) : Out :=
  match s.team? team with
  | none => .next s
  | some tm =>
    match tm.splats.head? with
    | none => .next s
    | some c =>
      if c.pix ≠ 256 ∨ ¬ c.serving ∨ ¬ s.engineOn tm true then .next s else
      let s1 := if c.count = 0 then s else s.freeCore tm (c.work + 8 * c.count) (8 * c.count)
      let s2 := s1.splatMess tm c
      let key := if c.bar then s2.coreAt tm c.obar else none
      let n := if c.lmode then 0 else 8192
      let s3 := if c.post then s2.postBoth tm.id key (b2n c.lmode) n 0 4 (splatRec 16 0 (tm.whoOf c.o.thr) c)
        else if c.bar then s2.coreEvent tm c.obar (b2n c.lmode) n 0 else s2
      .next (s3.splatLeaves tm.id c.id)

end Sys2Proof.Machine
end

