-- ==== Sys2Proof/Machine/Ray.lean ====
section
/-! DEFINITION. The ray unit, chapter 12_splat_ray.md: RAYBOX and RAYTRI (R324 to R333). -/

namespace Sys2Proof.Machine
open Sys2Proof

/-! ### Arithmetic -/

/-- A ray: origin, direction and bounds (R325). -/
structure Ray where
  o : List Nat
  d : List Nat
  tmin : Nat
  tmax : Nat
  deriving DecidableEq, Repr
def rayOf (ws : List Word) : Ray :=
  let n := ws.map BitVec.toNat
  ⟨n.take 3, (n.drop 3).take 3, n.getD 6 0, n.getD 7 0⟩
/-- The value of a binary32 pattern. -/
def val32 (x : Nat) : FVal := decodeF f32 x
/-- The ray is invalid (R325). -/
def Ray.invalid (r : Ray) : Bool :=
  (r.o ++ r.d).any (fun x => !isFin (val32 x)) || r.d.all (fun x => isZero (val32 x)) || isNan (val32 r.tmin) ||
    isNan (val32 r.tmax)

/-- x or y, the greater as reals; x where they are equal. -/
def max32 (x y : Nat) : Nat := if leReal f32 y x then x else y
/-- x or y, the lesser as reals; x where they are equal. -/
def min32 (x y : Nat) : Nat := if leReal f32 x y then x else y

/-- (b - o) / d rounded under a mode, for finite o and nonzero d; an infinite bound gives an infinity (R328). -/
def slabT (rm : RMode) (b o d : Nat) : Nat :=
  match val32 b with
  | .inf s => infF f32 (s != isNeg (val32 d))
  | v => (roundQuot f32 rm (dySub (dyOf v) (dyOf (val32 o))) (dyOf (val32 d))).1
/-- The box of a child: MIN and MAX of each axis, or none where it is empty (R326). -/
def boxOf (bs : List Byte) (i : Nat) : Option (List Nat × List Nat) :=
  let b := (List.range 6).map fun k => fld bs (24 * i + 4 * k) 4
  let lo := b.take 3
  let hi := b.drop 3
  if (List.range 3).all fun a => leReal f32 (lo.getD a 0) (hi.getD a 0) then some (lo, hi) else none
/-- The axis a of the box test: the bounds narrowed, or none where the axis excludes the box (R328). Rounding is
monotone, so that the least of the rounded quotients is the rounded least. -/
def slabStep (r : Ray) (lo hi : List Nat) (acc : Option (Nat × Nat)) (a : Nat) : Option (Nat × Nat) :=
  match acc with
  | none => none
  | some (l, h) =>
    let o := r.o.getD a 0
    let d := r.d.getD a 0
    let mn := lo.getD a 0
    let mx := hi.getD a 0
    if isZero (val32 d) then (if leReal f32 mn o && leReal f32 o mx then acc else none)
    else some (max32 l (min32 (slabT .rdn mn o d) (slabT .rdn mx o d)), min32 h (max32 (slabT .rup mn o d) (slabT .rup mx o d)))
/-- The entry of child i; none where it is not hit (R328). -/
def boxEntry (r : Ray) (bs : List Byte) (i : Nat) : Option Nat :=
  if r.invalid || fld bs (96 + 4 * i) 4 == 2 ^ 32 - 1 then none else
  match boxOf bs i with
  | none => none
  | some (lo, hi) => match (List.range 3).foldl (slabStep r lo hi) (some (r.tmin, r.tmax)) with
    | none => none
    | some (l, h) => if leReal f32 l h then some (if isZero (val32 l) then 0 else l) else none
/-- A hit goes after those with no greater entry: ties keep the lower child first (R332). -/
def insertHit (h : Nat × Nat) : List (Nat × Nat) → List (Nat × Nat)
  | [] => [h]
  | g :: gs => if leReal f32 g.1 h.1 then g :: insertHit h gs else h :: g :: gs
/-- The hits as entry and child index, in order (R332). -/
def boxHits (r : Ray) (bs : List Byte) : List (Nat × Nat) :=
  (List.range 4).foldl (fun l i => match boxEntry r bs i with | some e => insertHit (e, i) l | none => l) []
/-- The nine results of RAYBOX (R332). -/
def rayboxOut (r : Ray) (bs : List Byte) : List Nat :=
  let hs := boxHits r bs
  (hs.foldl (fun m h => m + 2 ^ h.2) 0 + 16 * hs.length + 128 * b2n r.invalid) ::
  (List.range 4).map (fun k => match hs[k]? with | some h => fld bs (96 + 4 * h.2) 4 | none => 2 ^ 32 - 1) ++
  (List.range 4).map fun k => match hs[k]? with | some h => h.1 | none => infF f32 false

/-- Exact vectors. -/
def vecAt (l : List Dy) (k : Nat) : Dy := l.getD k dyZero
def vecSub (a b : List Dy) : List Dy := (List.range 3).map fun k => dySub (vecAt a k) (vecAt b k)
def vecDot (a b : List Dy) : Dy := (List.range 3).foldl (fun s k => dyAdd s (dyMul (vecAt a k) (vecAt b k))) dyZero
def vecCross (a b : List Dy) : List Dy :=
  (List.range 3).map fun k =>
    let i := (k + 1) % 3
    let j := (k + 2) % 3
    dySub (dyMul (vecAt a i) (vecAt b j)) (dyMul (vecAt a j) (vecAt b i))
/-- A vertex of a triangle record as its three components. -/
def vertBits (bs : List Byte) (v : Nat) : List Nat := (List.range 3).map fun k => fld bs (12 * v + 4 * k) 4
/-- The result of the triangle test: whether det is above 0, and t, u, v of a hit. -/
structure TriHit where
  npos : Bool
  hit : Option (Nat × Nat × Nat)
  deriving DecidableEq, Repr
/-- The triangle test (R329). -/
def triTest (r : Ray) (bs : List Byte) : TriHit :=
  let vs := (List.range 3).map (vertBits bs)
  if r.invalid || bit (fld bs 40 4) 0 || vs.any (fun v => v.any fun x => !isFin (val32 x)) then ⟨false, none⟩ else
  let vec := fun (l : List Nat) => l.map fun x => dyOf (val32 x)
  let o := vec r.o
  let d := vec r.d
  let p := fun (k : Nat) => vec (vs.getD k [])
  let q := fun (k : Nat) => vecSub (p k) o
  let n := vecCross (vecSub (p 1) (p 0)) (vecSub (p 2) (p 0))
  let det := vecDot d n
  let w0 := vecDot d (vecCross (q 1) (q 2))
  let w1 := vecDot d (vecCross (q 2) (q 0))
  let w2 := vecDot d (vecCross (q 0) (q 1))
  let pos := decide (0 < det.m)
  let opp := fun (w : Dy) => w.m != 0 && decide (w.m < 0) != decide (det.m < 0)
  if det.m = 0 ∨ opp w0 ∨ opp w1 ∨ opp w2 then ⟨pos, none⟩ else
  let t := (roundQuot f32 .rne (vecDot (q 0) n) det).1
  if leReal f32 r.tmin t && leReal f32 t r.tmax then
    ⟨pos, some (t, (roundQuot f32 .rne w1 det).1, (roundQuot f32 .rne w2 det).1)⟩
  else ⟨pos, none⟩
/-- The five results of RAYTRI (R332). -/
def raytriOut (r : Ray) (bs : List Byte) : List Nat :=
  let h := triTest r bs
  let f := 2 * b2n h.npos + 4 * b2n r.invalid
  match h.hit with
  | some (t, u, v) => [f + 1, t, u, v, fld bs 36 4]
  | none => [f, infF f32 false, 0, 0, fld bs 36 4]

/-! ### RAYBOX and RAYTRI -/

/-- The address checks of a ray test (R331, R333): the first violating line, or the keys of its lines. -/
def State.rayKeys (s : State) (tm : Team) (j : Nat) (sys core : Bool) (ea n al : Nat) : Except (Nat × ARes) (List (Nat × Nat)) :=
  if ea % al ≠ 0 then .error (ea, .viol (if ¬ core ∧ 2 ^ 57 ≤ ea then 5 else 8))
  else if core then
    match s.scratchKey tm j .core ea, s.scratchKey tm j .core (ea + n - 1) with
    | .ok key, .ok _ => .ok [(key, n)]
    | .error c, _ => .error (ea, .viol c)
    | _, .error c => .error (ea, .viol c)
  else (linePieces ea n).foldl (fun r p =>
    match r with
    | .error e => .error e
    | .ok l => match s.resolve tm j sys .mem p.1 1 .rd with
      | .ok key => .ok (l ++ [(key, p.2)])
      | .peer k a => .ok (l ++ [(peerKey k a, p.2)])
      | e => .error (p.1, e)) (.ok [])

/-- A ray test issues (R331, R333): the ray is read, and the address checked. -/
def rayOp (i : Instr) (o : RayOp) (n al : Nat) (s : State) : Out :=
  runEach i (fun x cr t j s =>
    match s.team? x.team with
    | none => s
    | some tm =>
      let ea := srcVal cr.k t (!o.core) o.a
      let sp := if o.core then 2 else 0
      let s := if o.core then s else s.sampleMem tm.core tm.asid t.who ea
      match s.rayKeys tm j (x.crew == 7) o.core ea n al with
      | .ok ks => s.pushOp x j i (ea :: ks.flatMap fun p => [p.1, p.2]) fun u =>
          { u with data := (vrange o.b 8).map fun r => BitVec.ofNat 32 (t.v32 r), spans := ks }
      | .error (a, .viol c) => (s.poisonDst x j (writesOf i) none).violate x j c a sp 5
      | .error (a, .absent) => s.reportIssue x j 32 0 a 0
      | .error _ => s) s
/-- RAYBOX (R331). META is not read (R326). -/
def execRaybox (c : Common) (o : RayOp) (s : State) : Out := rayOp (.raybox c o) o 112 128 s
/-- RAYTRI (R331). -/
def execRaytri (c : Common) (o : RayOp) (s : State) : Out := rayOp (.raytri c o) o 48 16 s

/-- What the reads of a ray test give (R324): its bytes, or why it has none yet. -/
inductive RayRead where
  | ok (s : State) (bs : List Byte)
  | wait
  | peerError (addr : Nat)
  | poison (s : State) (key addr : Nat)
  deriving DecidableEq, Repr
/-- The pieces read as loads of the thread with REUSE 0 (R152, R324). -/
def State.rayRead (s : State) (tm : Team) (t : Thread) (o : Op) (p : PerformOp) (ea : Nat) (skip : Nat) : List Nat → RayRead
  | key :: n :: rest =>
    if ¬ t.orderClear { o with key := key, len := n } then .wait
    else
      let go := fun (s1 : State) (bs : List Byte) (skip : Nat) => match s1.rayRead tm t o p (ea + n) skip rest with
        | .ok s2 more => .ok s2 (bs ++ more)
        | r => r
      if isPeer key then
        if ¬ p.peerOk ∨ ¬ s.peerOpen tm.asid key then .peerError ea else if p.peerBad then .poison s 0 ea
        else go s (((p.peer ++ List.replicate 128 0).drop skip).take n) (skip + n)
      else if key < 2 ^ 40 then
        match s.memLoad tm.core key n none false p.fresh true true with
        | none => .wait
        | some (s1, some bs) => go s1 bs skip
        | some (s1, none) => .poison s1 key ea
      else if s.poisoned key n then .poison s key ea
      else go s (s.bytes key n) skip
  | _ => .ok s []
/-- The keys of the 8-byte units of some pieces. -/
def unitPairs : List Nat → List Nat
  | key :: n :: rest => (List.range (n / 8)).map (fun k => key + 8 * k) ++ unitPairs rest
  | _ => []
/-- A ray test performs (R324, R333): it reads the next `pick` units of 8 bytes of its node or record, or all that are left,
and with the last makes its results. -/
def State.performRay (s : State) (tm : Team) (i : Nat) (t : Thread) (d : Nat) (out : Ray → List Byte → List Nat) (o : Op)
    (p : PerformOp) : State :=
  let us := (unitPairs (o.vals.drop 1)).drop (o.stage / 8)
  let now := if p.pick = 0 then us else us.take p.pick
  match s.rayRead tm t o p (o.ea + o.stage) o.stage (now.flatMap fun u => [u, 8]) with
  | .wait => s
  | .peerError a => s.peerError tm.id i o o.dst a
  | .poison s1 key a => s1.poisonOp tm.id i { o with key := key } o.dst a
  | .ok s1 bs =>
    let data := o.data ++ (wordsBy 4 (bs.length / 4) bs).map (BitVec.ofNat 32)
    if now.length < us.length then
      s1.modOp tm.id i o.id fun u => { u with stage := o.stage + 8 * now.length, data := data }
    else s1.performed tm.id i o (vPuts d (out (rayOf (data.take 8)) ((data.drop 8).flatMap fun w => natLe 4 w.toNat)))

end Sys2Proof.Machine
end

