-- ==== Sys2Proof/Machine/Lots.lean ====
section
/-! DEFINITION. Launch records and lots, chapter 13_tasks.md: the record (R334 to R336), what fits (R19, R339), the order of
lots (R337), rejection and completion (R342), and LAUNCH (R352). -/

namespace Sys2Proof.Machine
open Sys2Proof

/-! ### Launch records -/

/-- Pieces of `.mem` as a unit of the device reads them for a context: code 64 where bytes are poisoned, 10 for a peer
window (R342, R353). -/
def State.unitPieces (s : State) (c : Context) (sys : Bool) : List (Nat × Nat) → ERes
  | [] => .ok []
  | (a, n) :: rest =>
    if 2 ^ 57 ≤ a then .viol 5 a 0 else if 2 ^ 49 ≤ a then .viol 10 a 0 else
    match s.xlate c none a .rd sys with
    | .viol k => .viol k a 0
    | .absent => .absent a
    | .ok pa =>
      if s.outAt pa n then .held else if s.poisoned pa n then .viol 64 a 0 else
      match s.unitPieces c sys rest with
      | .ok more => .ok (s.bytes pa n ++ more)
      | e => e
/-- n bytes at a virtual address as a unit of the device reads them. -/
def State.unitRead (s : State) (c : Context) (va n : Nat) (sys : Bool := true) : ERes := s.unitPieces c sys (lineSpans va n)
/-- The lines of such bytes that are checked out return (R177). -/
def State.unitRecall (s : State) (c : Context) (va n : Nat) (sys : Bool := true) : State :=
  (lineSpans va n).foldl (fun s p => match s.xlate c none p.1 .rd sys with | .ok pa => s.recall pa p.2 | _ => s) s

def roleOf : Nat → Option Role
  | 0 => some .general
  | 1 => some .copy
  | 2 => some .matrix
  | 3 => some .epilogue
  | 4 => some .fragment
  | _ => none
/-- The bindings a role may have (R335). -/
def bindOk (role : Role) (b : Nat) : Bool :=
  b < 8 && (!bit b 0 || role == .copy) && (!bit b 1 || role == .matrix) && (!bit b 2 || role == .fragment)
/-- A crew entry; none where it is malformed (R335). -/
def crewOf (bs : List Byte) : Option CrewRec :=
  match roleOf (fld bs 0 1) with
  | none => none
  | some role =>
    let r : CrewRec :=
      { role := role, bind := fld bs 1 1, budget := 8 * fld bs 2 1, cpri := fld bs 3 1, threads := fld bs 4 2
        kcnt := fld bs 6 1, kinit := fld bs 8 8 }
    if bindOk role r.bind ∧ 8 ≤ r.budget ∧ r.budget ≤ 256 ∧ r.cpri < 4 ∧ 1 ≤ r.threads ∧ r.threads ≤ 2047 ∧ r.kcnt ≤ 64 ∧
        fld bs 7 1 = 0 ∧ r.kinit % 8 = 0 ∧ (r.kcnt ≠ 0 ∨ r.kinit = 0) then some r else none
/-- A dependency pair: none where it is malformed, else the counter and threshold where it is enabled (R336). -/
def depOf (c : Context) (bs : List Byte) : Option (Option (Nat × Nat)) :=
  let w := fld bs 0 4
  if bits w 30 12 ≠ 0 ∨ fld bs 4 4 ≠ 0 then none
  else if ¬ bit w 31 then some none
  else match ctrOf c (w % 4096) with
    | some _ => some (some (w % 4096, fld bs 8 8))
    | none => none
/-- Band contribution in bytes (R334). -/
def shareOf (b : Nat) : Nat := if b = 0 then 0 else 2 ^ (17 + b)
/-- The n bytes of a record at an offset. -/
def sub (bs : List Byte) (off n : Nat) : List Byte := (bs.drop off).take n

/-- The launch record in 256 bytes; none where it is malformed (R334 to R336). -/
def launchOf (c : Context) (bs : List Byte) : Option LaunchRec :=
  let ncrew := fld bs 20 1
  let dctr := fld bs 32 4
  let doneOn := bit (fld bs 31 1) 0
  match allSome ((List.range ncrew).map fun k => crewOf (sub bs (128 + 16 * k) 16)),
      allSome ((List.range 4).map fun k => depOf c (sub bs (64 + 16 * k) 16)) with
  | some crews, some deps =>
    let r : LaunchRec :=
      { entry := BitVec.ofNat 64 (fld bs 0 8), lotid := fld bs 8 4, spans := fld bs 12 4, bands := fld bs 16 1
        teams := fld bs 17 1, threads := fld bs 18 2, lpri := fld bs 21 1, share := shareOf (fld bs 22 1)
        tiles := fld bs 23 1, coresh := fld bs 24 4, lanesz := fld bs 28 2, slots := fld bs 30 1
        done := if doneOn then some (dctr % 4096, fld bs 40 8) else none, deps := deps.filterMap id, crews := crews }
    if fld bs 0 8 % 8 = 0 ∧ 1 ≤ r.spans ∧ r.spans ≤ 2 ^ 20 ∧ 1 ≤ r.bands ∧ r.bands ≤ 12 ∧ 1 ≤ r.teams ∧ r.teams ≤ 8 ∧
        1 ≤ r.threads ∧ r.threads + c.r.sysn ≤ 2048 ∧ r.threads = crews.foldl (fun n k => n + k.threads) 0 ∧
        1 ≤ ncrew ∧ ncrew ≤ 7 ∧ r.lpri < 4 ∧ fld bs 22 1 ≤ 3 ∧ r.tiles ≤ 32 ∧ r.coresh % 4096 = 0 ∧ r.lanesz % 16 = 0 ∧
        r.slots ≤ 32 ∧ fld bs 31 1 < 2 ∧ dctr < 4096 ∧ (¬ doneOn ∨ (ctrOf c dctr).isSome) ∧ fld bs 36 4 = 0 ∧
        fld bs 48 16 = 0 ∧ (sub bs (128 + 16 * ncrew) (128 - 16 * ncrew)).all (· == 0) then some r else none
  | _, _ => none

/-! ### What fits -/

/-- The threads of one crew: how many, their register budget, and whether it is the system crew. -/
structure Load where
  threads : Nat
  budget : Nat
  sys : Bool
  deriving DecidableEq, Repr
/-- The threads of a crew on a lane (R18). -/
def Load.onLane (l : Load) (lane : Nat) : Nat := (l.threads + 63 - (if l.sys then 63 - lane else lane)) / 64
/-- The limits of R19 on every lane. -/
def lanesOk (ls : List Load) : Bool :=
  (List.range 64).all fun lane =>
    decide (ls.foldl (fun n l => n + l.onLane lane) 0 ≤ 32) &&
    decide (ls.foldl (fun n l => n + l.budget * l.onLane lane) 0 ≤ 4096)
/-- What a team takes of a core: its crews, scratchpad bytes, tiles and shape slots (R339). -/
structure CoreLoad where
  loads : List Load
  bytes : Nat
  tiles : Nat
  slots : Nat
  deriving DecidableEq, Repr
def Team.load (tm : Team) : CoreLoad :=
  { loads := tm.crews.map fun c => ⟨c.threads, c.budget, c.num == 7⟩
    bytes := tm.coresh + tm.lanesz * tm.threads.length + tm.bshare, tiles := tm.tileShare, slots := tm.slotShare }
def LaunchRec.load (c : Context) (r : LaunchRec) : CoreLoad :=
  { loads := (r.crews.map fun k => ⟨k.threads, k.budget, false⟩) ++ [⟨c.r.sysn, 8 * c.r.sysb, true⟩]
    bytes := r.coresh + r.lanesz * (r.threads + c.r.sysn) + r.share, tiles := r.tiles, slots := r.slots }
/-- Teams fit together on one core (R339). -/
def loadsFit (ts : List CoreLoad) : Bool :=
  decide (ts.length ≤ 4) && lanesOk (ts.flatMap fun t => t.loads) &&
  decide (ts.foldl (fun n t => n + t.bytes) 0 ≤ 2 ^ 22) && decide (ts.foldl (fun n t => n + t.tiles) 0 ≤ 32) &&
  decide (ts.foldl (fun n t => n + t.slots) 0 ≤ 32)
def State.coreOn (s : State) (k : Nat) : Bool := match s.cores[k]? with | some c => c.on | none => false
/-- A team fits on a core beside those resident there (R339). -/
def State.fitsOn (s : State) (l : CoreLoad) (core : Nat) : Bool :=
  s.coreOn core && loadsFit (l :: (s.teams.filter fun t => t.core == core).map Team.load)
/-- The bands of a span find clusters with enough cores that satisfy a test (R18, R339). -/
def canHost (ok : Nat → Bool) (bands teams : Nat) : Bool :=
  decide (bands ≤ ((List.range 12).filter fun q =>
    teams ≤ ((List.range 8).filter fun k => ok (8 * q + k)).length).length)
/-- A span of the record never fits (R339). -/
def State.neverFits (s : State) (c : Context) (r : LaunchRec) : Bool :=
  !canHost (fun k => s.coreOn k && loadsFit [r.load c]) r.bands r.teams
/-- The cores chosen for teams of some bands fit them and are distinct; those of one band, and no others, share a cluster
(R18, R339). -/
def State.coresFit (s : State) (ls : List CoreLoad) (bands cores : List Nat) : Bool :=
  ls.length == cores.length && bands.length == cores.length && decide cores.Nodup &&
  ((ls.zip cores).all fun p => s.fitsOn p.1 p.2) &&
  (bands.zip cores).all fun p => (bands.zip cores).all fun q => (p.1 == q.1) == (clusterOf p.2 == clusterOf q.2)
/-- The cores chosen for the teams of a span, band by band, are as R339 asks. -/
def State.coresOk (s : State) (l : CoreLoad) (bands teams : Nat) (cores : List Nat) : Bool :=
  s.coresFit (List.replicate (bands * teams) l) ((List.range (bands * teams)).map fun k => k / teams) cores

/-! ### Lots -/

/-- A lot enters the launcher (R337). -/
def State.enterLot (s : State) (c : Context) (r : LaunchRec) (addr : Nat) (batch : Option Nat) : State :=
  let l : Lot :=
    { id := s.nextId, asid := c.r.asid, addr := addr, r := r, batch := batch, began := s.tick
      ready := if s.lotMet c.r.sqb r then some s.nextId else none }
  { s with nextId := s.nextId + 1, lots := s.lots ++ [l] }
/-- The launcher's log entry (R342). -/
def State.logLauncher (s : State) (asid code addr : Nat) : State :=
  s.logViol asid { addr := addr, code := code, agent := 10 }
/-- The lot still has a span to place: one never placed, or a saved one (R338). -/
def State.lotWaits (s : State) (l : Lot) : Bool :=
  l.ready.isSome && (decide (l.placed.length < l.r.spans) || s.saved.any fun p => p.span.lot == l.id)
/-- Lot a stands before lot b (R337). -/
def lotBefore (a b : Lot) : Bool :=
  decide (b.r.lpri < a.r.lpri) || (a.r.lpri == b.r.lpri && decide (a.ready.getD 0 < b.ready.getD 0))
/-- The lot is first in the launcher's order (R337). -/
def State.lotFirst (s : State) (l : Lot) : Bool := s.lotWaits l && s.lots.all fun k => !(s.lotWaits k && lotBefore k l)
/-- A lot whose spans have all ended completes (R342). -/
def State.lotDone (s : State) (id : Nat) : State :=
  match s.lots.find? fun l => l.id == id with
  | none => s
  | some l =>
    if l.live ≠ 0 ∨ l.placed.length < l.r.spans then s else
    let s1 := { s with lots := s.lots.filter fun k => k.id != id }
    match l.r.done, s.ctx? l.asid with
    | some (n, a), some c => s1.addCounter (c.r.sqb + n) a
    | _, _ => s1
/-- The last span of a lot has ended, or one more span is in place. -/
def State.modLot (s : State) (id : Nat) (f : Lot → Lot) : State :=
  { s with lots := s.lots.map fun l => if l.id = id then f l else l }

/-! ### LAUNCH -/

/-- The LAUNCHes of all threads still being checked. -/
def State.launching (s : State) : Nat :=
  s.teams.foldl (fun n tm => tm.threads.foldl (fun n t =>
    n + (t.pend.filter fun o => match o.i with | .launch .. => true | _ => false).length) n) 0
/-- The keys of the pieces that a thread's instruction reads of `.mem`; or the first that cannot be read. -/
def State.pieceKeys (s : State) (tm : Team) (j : Nat) (sys : Bool) : List (Nat × Nat) → Except (Nat × ARes) (List Nat)
  | [] => .ok []
  | (a, n) :: rest => match s.resolve tm j sys .mem a 1 .rd with
    | .ok key => (s.pieceKeys tm j sys rest).map fun l => key :: n :: l
    | .peer k d => (s.pieceKeys tm j sys rest).map fun l => peerKey k d :: n :: l
    | r => .error (a, r)
/-- Keys and lengths as pairs. -/
def pairsOf : List Nat → List (Nat × Nat)
  | key :: n :: rest => (key, n) :: pairsOf rest
  | _ => []
/-- The lots that may yet be entered by LAUNCHes count against the limit (R337). -/
def State.lotsFull (s : State) : Bool := decide (4096 ≤ s.lots.length + s.launching)
/-- What is wrong with a launch record, as its cause (R352). -/
def State.launchBad (s : State) (c : Context) (lpri : Nat) (bs : List Byte) : Option Nat :=
  match launchOf c bs with
  | none => some 1
  | some r => if s.neverFits c r then some 2 else if lpri < r.lpri then some 3 else none
/-- A LAUNCH finds no room: after its release it reads its record as a load and checks it (R352), and waits with the word in
hand. DESIGN CHOICE (log 109): a record behind a peer window is read once there is room. -/
def State.stallLaunch (s : State) (x : Issue) (tm : Team) (j : Nat) (t : Thread) (c : Context) (o : Op) : State :=
  if (o.vals.drop 1).any isPeer ∨ ¬ t.accessesDone o.id then s.stallFor x j else
  match s.rayRead tm t o { team := tm.id, thr := j, id := o.id, fresh := x.late } o.ea 0 (o.vals.drop 1) with
  | .poison s1 key a => s1.reportIssue x j 7 (poisonCause key) a
  | .ok s1 bs => match s1.launchBad c tm.lpri bs with
    | some n => s1.reportIssue x j 18 n o.ea
    | none => s1.stallFor x j
  | _ => s.stallFor x j
/-- LAUNCH (R352): it waits for room before it issues. -/
def execLaunch (c : Common) (a : Src) (s : State) : Out :=
  engineOp (.launch c a) none (fun k t => [⟨.mem, srcVal k t true a, 256, 64⟩])
    (fun x tm cr t j s =>
      let ea := srcVal cr.k t true a
      match s.pieceKeys tm j (x.crew == 7) (lineSpans ea 256), s.ctx? tm.asid with
      | .ok ks, some cx =>
        if s.lotsFull then s.stallLaunch x tm j t cx (mkOp x t (.launch c a) s.nextId (ea :: ks))
        else ((s.wakeRoom x j 4).sampleThr tm j [(ea, 256)]).pushOp x j (.launch c a) (ea :: ks) fun o =>
          { o with spans := pairsOf ks }
      | .error (b, .viol n), _ => s.violateIssue x j n b 0
      | .error (b, .absent), _ => s.reportIssue x j 32 0 b 0
      | _, _ => s) s
/-- The bytes a pending operation has read, handed on; or what the reads met. -/
def State.readOp (s : State) (tm : Team) (i : Nat) (t : Thread) (o : Op) (p : PerformOp) (go : State → List Byte → State) :
    State :=
  match s.rayRead tm t o p o.ea 0 (o.vals.drop 1) with
  | .wait => s
  | .peerError a => s.peerError tm.id i o [] a
  | .poison s1 key a => s1.poisonOp tm.id i { o with key := key } [] a
  | .ok s1 bs => go s1 bs
/-- LAUNCH performs (R352): after its release, the record is read and checked, and the lot entered. -/
def State.performLaunch (s : State) (tm : Team) (i : Nat) (t : Thread) (o : Op) (p : PerformOp) : State :=
  if ¬ t.accessesDone o.id then s else
  match s.ctx? tm.asid with
  | none => s
  | some c => s.readOp tm i t o p fun s bs =>
    match s.launchBad c tm.lpri bs, launchOf c bs with
    | some n, _ => s.failOp tm.id i o 18 n o.ea
    | none, some r => (s.enterLot c r o.ea none).completeOp tm.id i o []
    | none, none => s

end Sys2Proof.Machine
end

