-- ==== Sys2Proof/Machine/Graph.lean ====
section
/-! DEFINITION. Work graphs and deques, chapter 13_tasks.md: node descriptors (R344), bins and seals (R345 to R348),
termination detectors (R349), deques (R350), and WGEMIT, WGDONE, QUIESCE, DQPUSH, DQPOP and DQSTEAL (R351 to R354). -/

namespace Sys2Proof.Machine
open Sys2Proof

/-! ### Detectors -/

/-- The teams of a context that count in LIVE of a graph, saved ones included (R349). -/
def State.liveTeams (s : State) (asid g : Nat) : Nat :=
  ((s.teams ++ s.saved.flatMap fun p => p.teams).filter fun tm => tm.asid == asid && tm.graph == some g).length
def State.modGraph (s : State) (asid g : Nat) (f : Detector → Detector) : State :=
  s.modCtx asid fun c => { c with graphs := c.graphs.modify g f }
/-- An armed detector with nothing in flight and nothing live fires (R349). -/
def State.detect (s : State) (asid g : Nat) : State :=
  match s.ctx? asid with
  | none => s
  | some c =>
    let d := c.graphs.getD g {}
    if ¬ d.armed ∨ d.inflight ≠ 0 ∨ s.liveTeams asid g ≠ 0 then s else
    (s.modGraph asid g fun d => { d with armed := false, fired := true }).addCounter (c.r.sqb + d.ctr) d.amount

/-! ### Nodes -/

/-- Whether a descriptor is VALID (R344). -/
def nodeValid (bs : List Byte) : Bool := bit (fld bs 19 1) 0
/-- A node descriptor; none where it is malformed (R344). -/
def nodeOf (c : Context) (bs : List Byte) : Option NodeDesc :=
  let fl := fld bs 19 1
  let d : NodeDesc :=
    { tmpl := fld bs 0 8, base := fld bs 8 4, rsize := fld bs 12 2, coal := fld bs 14 2, nbatch := fld bs 16 2
      graph := fld bs 18 1, persist := bit fl 1, timer := fld bs 20 4 }
  if d.base % 16 = 0 ∧ d.base < 2 ^ 31 ∧ d.rsize % 16 = 0 ∧ 16 ≤ d.rsize ∧ d.rsize ≤ 256 ∧ 1 ≤ d.coal ∧ d.coal ≤ 4096 ∧
      1 ≤ d.nbatch ∧ d.nbatch ≤ 256 ∧ d.graph ≤ 15 ∧ fl < 4 ∧ (bs.drop 24).all (· == 0) ∧
      d.base + d.nbatch * d.coal * d.rsize ≤ c.r.chipsz then some d else none
/-- The address of a node's descriptor. -/
def descAddr (c : Context) (i : Nat) : Nat := c.r.ntb + 64 * i
def Context.node (c : Context) (i : Nat) : NodeSt := c.nodes.getD i {}
def State.modNode (s : State) (asid i : Nat) (f : NodeSt → NodeSt) : State :=
  s.modCtx asid fun c => { c with nodes := c.nodes.modify i f }
/-- The first free buffer after the last one sealed, ascending and wrapping (R345). -/
def NodeSt.freeBuf (n : NodeSt) (d : NodeDesc) : Option Nat :=
  let start := match n.last with | some b => b + 1 | none => 0
  ((List.range d.nbatch).map fun k => (start + k) % d.nbatch).find? fun b => n.sealed.all fun q => q.buf != b
/-- A buffer is current or free (R353). -/
def NodeSt.hasRoom (n : NodeSt) (d : NodeDesc) : Bool := n.cur.isSome || (n.freeBuf d).isSome
/-- The records that the current buffer and the free ones can take (R345). -/
def NodeSt.room (n : NodeSt) (d : NodeDesc) : Nat :=
  (if n.cur.isSome then d.coal - n.n else 0) +
  d.coal * ((List.range d.nbatch).filter fun b => n.cur != some b && n.sealed.all fun q => q.buf != b).length
/-- The `.chip` address of a buffer (R344). -/
def NodeDesc.bufAddr (d : NodeDesc) (b : Nat) : Nat := d.base + b * d.coal * d.rsize
/-- The handle of a batch (R346). -/
def handleOf (d : NodeDesc) (i : Nat) (q : BinBatch) : Nat :=
  d.bufAddr q.buf + (q.cnt - 1) * 2 ^ 32 + i * 2 ^ 44 + q.serial * 2 ^ 50

/-- A template as the unit reads it (R344, R346): fit, unfit with the code of its log entry, not present, or on a line that
is still to be recalled. -/
inductive Tmpl where
  | fit (r : LaunchRec)
  | unfit (code : Nat)
  | absent (va : Nat)
  | held
  deriving DecidableEq, Repr
def State.tmplOf (s : State) (c : Context) (d : NodeDesc) : Tmpl :=
  match s.unitRead c d.tmpl 256 with
  | .absent va => .absent va
  | .viol _ _ _ => .unfit 98
  | .held => .held
  | .ok bs => match launchOf c bs with
    | none => .unfit 96
    | some r => if r.spans = 1 ∧ r.bands = 1 ∧ r.teams = 1 ∧ r.deps.isEmpty ∧ r.done.isNone then .fit r else .unfit 96

/-- A batch of a node is released (R353): its buffer is free, and INFLIGHT falls by n. -/
def State.release (s : State) (asid i serial n : Nat) : State :=
  match s.ctx? asid with
  | none => s
  | some c =>
    let g := match (c.node i).desc with | some d => d.graph | none => 0
    ((s.modNode asid i fun k => { k with sealed := k.sealed.filter fun q => q.serial != serial }).modGraph asid g fun d =>
      { d with inflight := (d.inflight + 2 ^ 32 - n) % 2 ^ 32 }).detect asid g
/-- The batch a handle names, not released (R353). -/
def Context.batchOf (c : Context) (h : Nat) : Option BinBatch :=
  ((c.node (bits h 49 44)).sealed).find? fun q => q.serial == bits h 63 50
/-- The batch of a handle is released as WGDONE does, if it is not yet (R341, R346). -/
def State.releaseHandle (s : State) (asid h : Nat) : State :=
  match (s.ctx? asid).bind fun c => c.batchOf h with
  | some q => s.release asid (bits h 49 44) q.serial (bits h 43 32 + 1)
  | none => s

def State.modBatch (s : State) (asid i serial : Nat) (f : BinBatch → BinBatch) : State :=
  s.modNode asid i fun k => { k with sealed := k.sealed.map fun q => if q.serial = serial then f q else q }
/-- A batch that has its template becomes a lot where it fits and there is room, or is released with a log entry (R346). -/
def State.handLot (s : State) (c : Context) (i : Nat) (d : NodeDesc) (q : BinBatch) (r : LaunchRec) : State :=
  let asid := c.r.asid
  if s.neverFits c r then (s.logLauncher asid 97 d.tmpl).release asid i q.serial q.cnt
  else if s.lotsFull then s.modBatch asid i q.serial fun q => { q with ticket := 0, tmpl := some r }
  else (s.modBatch asid i q.serial fun q => { q with todo := false, ticket := 0 }).enterLot c r d.tmpl (some (handleOf d i q))
/-- A sealed batch of a node without PERSIST is handed on with its template as the unit reads it at the seal (R346); the
read waits for a page that is not present. -/
def State.handOn (s : State) (asid i : Nat) (d : NodeDesc) (q : BinBatch) : State :=
  match s.ctx? asid with
  | none => s
  | some c =>
    if ¬ q.todo ∨ d.persist ∨ (q.ticket ≠ 0 ∧ s.counter (c.r.sqb + c.r.psc) < q.ticket) then s else
    match q.tmpl with
    | some r => s.handLot c i d q r
    | none =>
      let s := s.unitRecall c d.tmpl 256
      match s.tmplOf c d with
      | .absent va =>
        let r := s.pageService asid va 8 255 0
        r.1.modBatch asid i q.serial fun q => { q with ticket := r.2 }
      | .unfit code => (s.logLauncher asid code d.tmpl).release asid i q.serial q.cnt
      | .fit r => s.handLot c i d q r
      | .held => s
/-- Sealed batches that wait are handed on where they now can be (R346). -/
def State.retrySeals (s : State) : State :=
  s.ctxs.foldl (fun s c => (List.range 64).foldl (fun s i =>
    match (c.node i).desc with
    | none => s
    | some d => (c.node i).sealed.foldl (fun s q => s.handOn c.r.asid i d q) s) s) s

/-- Seal() (R345): the current buffer becomes a batch and is handed on. -/
def State.seal (s : State) (asid i : Nat) : State :=
  match (s.ctx? asid).map fun c => c.node i with
  | none => s
  | some k => match k.cur, k.desc with
    | some b, some d =>
      let q : BinBatch := { buf := b, cnt := k.n, serial := k.serial, todo := true }
      (s.modNode asid i fun k =>
        { k with cur := none, n := 0, timer := 0, last := some b, serial := (k.serial + 1) % 2 ^ 14
                 sealed := k.sealed ++ [q] }).handOn asid i d q
    | _, _ => s
/-- The `.chip` address, in the context's allocation, of the next record of a node and the buffer it goes to (R345). -/
def NodeSt.slot (k : NodeSt) (d : NodeDesc) : Option (Nat × Nat) :=
  (k.cur.or (k.freeBuf d)).map fun b => (b, d.bufAddr b + (if k.cur.isSome then k.n else 0) * d.rsize)
/-- One WGEMIT step in the bin order (R345). -/
def State.emit (s : State) (c : Context) (i : Nat) (d : NodeDesc) (bs : List Byte) : State :=
  let asid := c.r.asid
  let k := c.node i
  match k.slot d with
  | none => s
  | some (b, a) =>
    let n := if k.cur.isSome then k.n else 0
    let timer := if k.cur.isSome then k.timer else if d.timer = 0 then 0 else d.timer + 1
    let s1 := s.modNode asid i fun k => { k with desc := some d, cur := some b, n := n + 1, timer := timer }
    let s2 := s1.store (chipKey (c.r.chipbase + a)) bs
    let s3 := s2.modGraph asid d.graph fun g => { g with inflight := (g.inflight + 1) % 2 ^ 32 }
    if n + 1 = d.coal then s3.seal asid i else s3
/-- n fc pass for the bin timers (R345). -/
def State.runTimers (s : State) (n : Nat) : State :=
  { s with ctxs := s.ctxs.map fun c =>
      { c with nodes := c.nodes.map fun k => if k.timer = 0 then k else { k with timer := max 1 (k.timer - n) } } }

/-- The WGEMITs of a context to a node that have issued and not performed. -/
def State.emitting (s : State) (asid i : Nat) : Nat :=
  (s.teams.filter fun tm => tm.asid == asid).foldl (fun n tm => tm.threads.foldl (fun n t =>
    n + (t.pend.filter fun o => match o.i with | .wgemit .. => o.vals.getD 1 0 == i | _ => false).length) n) 0
/-- BIN_TIMER_EXPIRY (R345). DESIGN CHOICE (log 109): where the free buffers could not take the records on their way, the timer's
seal follows their steps. -/
def execBinTimerExpiry (o : NodeRef) (s : State) : Out :=
  match s.ctx? o.asid.val with
  | none => .next s
  | some c =>
    let k := c.node o.node.val
    let fits := match k.desc with | some d => decide (s.emitting c.r.asid o.node.val + (d.coal - k.n) ≤ k.room d) | none => true
    if k.timer = 1 ∧ 0 < k.n ∧ k.cur.isSome ∧ fits = true then .next (s.seal o.asid.val o.node.val) else .next s

/-! ### Deques -/

/-- The key of deque k of a context, where it lies in the chip allocation (R350). -/
def dequeKey (c : Context) (k : Nat) : Option Nat :=
  if c.r.dqb + 4096 * (k + 1) ≤ c.r.chipsz then some (chipKey (c.r.chipbase + c.r.dqb + 4096 * k)) else none
/-- The number of handles in a deque; bytes that say more than 256 are taken modulo 256 (R350). -/
def State.dequeCount (s : State) (key : Nat) : Nat :=
  let n := (s.read (key + 4) 4 + 2 ^ 32 - s.read key 4) % 2 ^ 32
  if n ≤ 256 then n else n % 256
/-- The key of slot i (R350). -/
def slotKey (key i : Nat) : Nat := key + 32 + 8 * (i % 256)
/-- What a deque operation accesses holds poison (R375): the ends, and the slot they name where it has one to take or
fill. -/
def State.dequeBad (s : State) (key i : Nat) (slot : Bool) : Bool :=
  s.poisoned key 8 || (slot && s.poisoned (slotKey key i) 8)
/-- A handle goes to the bottom of a deque that has room (R354). -/
def State.dequePush (s : State) (key h : Nat) : State :=
  let b := s.read (key + 4) 4
  (s.store (slotKey key b) (natLe 8 h)).store (key + 4) (natLe 4 (b + 1))

/-- PERSIST_DELIVERY (R347): the first batch of a persistent node that waits is pushed onto a deque with room. -/
def execPersistDelivery (o : NodeRef) (s : State) : Out :=
  match s.ctx? o.asid.val with
  | none => .next s
  | some c =>
    let k := c.node o.node.val
    match k.desc, k.sealed.find? fun q => q.todo, dequeKey c o.core.val with
    | some d, some q, some key =>
      if ¬ d.persist ∨ 256 ≤ s.dequeCount key ∨ s.poisoned key 8 then .next s
      else .next ((s.dequePush key (handleOf d o.node.val q)).modBatch o.asid.val o.node.val q.serial fun q =>
        { q with todo := false })
    | _, _, _ => .next s

/-! ### WGEMIT and WGDONE -/

/-- SP of a WGEMIT (R351). -/
def emitSpace (o : WgemitOp) : Space := if o.lane then .lane else .core
/-- The descriptor that a WGEMIT has read, as its operation keeps it. -/
def Op.nodeDesc (o : Op) (c : Context) : Option NodeDesc := nodeOf c (o.data.flatMap fun w => natLe 4 w.toNat)
/-- A WGEMIT whose descriptor and template are good issues where the node has room, else waits with the word in hand (R353):
a place in a buffer that a record on its way will take is no room for another (DESIGN CHOICE, log 109). -/
def State.emitRoom (s : State) (x : Issue) (tm : Team) (j : Nat) (i : Instr) (cx : Context) (n b : Nat) (sp : Space) (d : NodeDesc)
    (bs : List Byte) : State :=
  match s.scratchKey tm j sp b, s.scratchKey tm j sp (b + d.rsize - 1) with
  | .ok key, .ok _ =>
    if ((s.ctx? tm.asid).getD cx |>.node n).room d ≤ s.emitting tm.asid n then s.stallFor x j else
    ((s.wakeRoom x j 4).modThr x.team j fun t => { t with stall := 0 }).pushOp x j i
      [b, n] fun o => { o with key := key, len := d.rsize, data := (wordsBy 4 16 bs).map (BitVec.ofNat 32) }
  | .error k, _ => s.violateIssue x j k b (spaceNum sp)
  | _, .error k => s.violateIssue x j k b (spaceNum sp)
/-- The template of a WGEMIT without PERSIST is checked (R353); it waits with the word in hand for a page of it (R344). -/
def State.emitTmpl (s : State) (x : Issue) (tm : Team) (j : Nat) (t : Thread) (cx : Context) (n : Nat) (d : NodeDesc)
    (go : State → State) : State :=
  if d.persist then go s
  else if t.stall ≠ 0 ∧ s.counter (cx.r.sqb + cx.r.psc) < t.stall then s.stallFor x j else
  let s := s.unitRecall cx d.tmpl 256
  match s.tmplOf cx d with
  | .fit _ => go s
  | .unfit _ => s.reportIssue x j 19 3 (descAddr cx n)
  | .absent va =>
    let r := s.pageService tm.asid va 8 tm.core 0
    (r.1.modThr x.team j fun t => { t with stall := r.2 }).stallFor x j
  | .held => s.stallFor x j
/-- WGEMIT (R353, R442): causes 1 to 3 and the bounds of its source, and then it waits for room before it issues. -/
def execWgemit (c : Common) (o : WgemitOp) (s : State) : Out :=
  engineOp (.wgemit c o) none (fun k t => [⟨emitSpace o, srcVal k t false o.b, 16, 16⟩])
    (fun x tm cr t j s =>
      let n := srcVal cr.k t false o.a
      match s.ctx? tm.asid with
      | none => s
      | some cx =>
        let a := descAddr cx n
        if 64 ≤ n then s.raise x j 19 1 a else
        let s := s.unitRecall cx a 64
        match s.unitRead cx a 64 with
        | .absent va => s.reportIssue x j 32 0 va
        | .viol k _ _ => if k = 64 then s.reportIssue x j 7 1 a else s.violateIssue x j k a 0 10
        | .held => s.stallFor x j
        | .ok bs =>
          if ¬ nodeValid bs then s.reportIssue x j 19 1 a else
          match nodeOf cx bs with
          | none => s.reportIssue x j 19 2 a
          | some d => s.emitTmpl x tm j t cx n d fun s =>
            s.emitRoom x tm j (.wgemit c o) cx n (srcVal cr.k t false o.b) (emitSpace o) d bs) s
/-- WGEMIT performs (R353): after its release, the record is read as loads of the thread and one step is made, in the place
that it issued for. -/
def State.performWgemit (s : State) (tm : Team) (i : Nat) (t : Thread) (o : Op) : State :=
  match s.ctx? tm.asid with
  | none => s
  | some c =>
    let k := c.node (o.vals.getD 1 0)
    match o.nodeDesc c with
    | none => s
    | some d => match k.slot d with
      | none => s
      | some (_, a) =>
        if ¬ t.accessesDone o.id ∨ ¬ t.orderClear o then s
        else if s.poisoned o.key o.len then s.poisonOp tm.id i o [] o.ea
        else if s.poisoned (chipKey (c.r.chipbase + a)) o.len then s.failOp tm.id i o 7 5 a
        else (s.emit c (o.vals.getD 1 0) d (s.bytes o.key o.len)).completeOp tm.id i o []

/-- WGDONE (R353). -/
def execWgdone (c : Common) (o : HandleOp) (s : State) : Out :=
  runEach (.wgdone c o) (fun x cr t j s => s.pushOp x j (.wgdone c o) [srcVal cr.k t true o.a]) s
/-- WGDONE performs (R353): after its release, the batch its handle names is released. -/
def State.performWgdone (s : State) (tm : Team) (i : Nat) (t : Thread) (q : HandleOp) (o : Op) : State :=
  if ¬ t.accessesDone o.id then s else
  let named := match s.ctx? tm.asid with | some c => (c.batchOf o.ea).isSome | none => false
  (s.releaseHandle tm.asid o.ea).completePred tm.id i o q.d named

/-! ### QUIESCE -/

/-- A QUIESCE issues (R353): its graph, and for `.arm` the team's graph and the counter, are checked. -/
def execQuiesceArm (c : Common) (o : QuiesceArm) (s : State) : Out :=
  runEach (.quiesceArm c o) (fun x cr t j s =>
    let g := srcVal cr.k t false o.a
    let n := srcVal cr.k t false o.b
    match s.team? x.team with
    | none => s
    | some tm =>
      if 16 ≤ g then s.raise x j 19 5 g
      else if tm.graph.isSome ∧ tm.graph ≠ some g then s.raise x j 19 4 g
      else match s.ctrIn tm.asid n with
        | none => s.violate x j 6 n 4
        | some _ => s.pushOp x j (.quiesceArm c o) [g, n, srcVal cr.k t true o.c]) s
/-- QUIESCE.rd (R353). -/
def execQuiesceRd (c : Common) (o : QuiesceRd) (s : State) : Out :=
  runEach (.quiesceRd c o) (fun x cr t j s =>
    let g := srcVal cr.k t false o.a
    if 16 ≤ g then s.raise x j 19 5 g else s.pushOp x j (.quiesceRd c o) [g]) s
/-- The state of a detector as QUIESCE.rd returns it (R349). -/
def detectorWord (d : Detector) (live : Nat) : Nat :=
  d.inflight % 2 ^ 32 + live % 2 ^ 16 * 2 ^ 32 + b2n d.armed * 2 ^ 48 + b2n d.fired * 2 ^ 49
/-- QUIESCE performs and completes (R353). Another `.arm` of the team may have attached it since this one issued: cause 4. -/
def State.performQuiesce (s : State) (tm : Team) (i : Nat) (o : Op) : State :=
  match o.i with
  | .quiesceArm .. =>
    if tm.graph.isSome ∧ tm.graph ≠ some o.ea then s.failOp tm.id i o 19 4 o.ea else
    let s1 := s.modTeam tm.id fun tm => { tm with graph := some o.ea }
    ((s1.modGraph tm.asid o.ea fun d =>
      { d with ctr := o.vals.getD 1 0, amount := o.vals.getD 2 0, armed := true, fired := false }).completeOp tm.id i o
        []).detect tm.asid o.ea
  | .quiesceRd _ q =>
    let d := match s.ctx? tm.asid with | some c => c.graphs.getD o.ea {} | none => {}
    s.completeOp tm.id i o (vPut true q.d.val (detectorWord d (s.liveTeams tm.asid o.ea)))
  | _ => s

/-! ### DQPUSH, DQPOP, DQSTEAL -/

/-- DQPUSH (R354). -/
def execDqpush (c : Common) (o : HandleOp) (s : State) : Out :=
  runEach (.dqpush c o) (fun x cr t j s => s.pushOp x j (.dqpush c o) [srcVal cr.k t true o.a]) s
/-- DQPOP (R354). -/
def execDqpop (c : Common) (o : DqpopOp) (s : State) : Out :=
  runEach (.dqpop c o) (fun x _ _ j s => s.pushOp x j (.dqpop c o) []) s
/-- DQSTEAL (R354). -/
def execDqsteal (c : Common) (o : DqstealOp) (s : State) : Out :=
  runEach (.dqsteal c o) (fun x cr t j s => s.pushOp x j (.dqsteal c o) [optVal cr.k t false o.victim]) s

/-- The nonempty deques of a context (R354). -/
def State.fullDeques (s : State) (c : Context) : List Nat :=
  (List.range 96).filter fun k => match dequeKey c k with | some key => s.dequeCount key != 0 | none => false
/-- The deque an operation acts on (R354): its own, the victim, or a nonempty one; none where there is none. -/
def State.dequeOf (s : State) (c : Context) (tm : Team) (o : Op) (pick : Nat) : Option Nat :=
  match o.i with
  | .dqsteal _ q =>
    if q.victim.isSome then (if o.ea ≤ 95 then some o.ea else none)
    else if (s.fullDeques c).contains pick then some pick else (s.fullDeques c).head?
  | _ => some tm.core
/-- A pop or steal takes handle i: the ends as they then stand, an acquire, the registers and the predicate (R350, R354). -/
def State.dequeTake (s : State) (tm : Team) (i : Nat) (o : Op) (d : VReg) (p : PReg) (key idx off v : Nat) : State :=
  let h := s.read (slotKey key idx) 8
  let s1 := ((s.store (key + off) (natLe 4 v)).l1Acquire tm.core).setPred tm.id i p true
  s1.completeOp tm.id i o (vPut true d.val h)
/-- A deque operation performs and completes (R350, R354). -/
def State.performDeque (s : State) (tm : Team) (i : Nat) (t : Thread) (o : Op) (pick : Nat) : State :=
  match s.ctx? tm.asid with
  | none => s
  | some c =>
    let k := s.dequeOf c tm o pick
    let empty := fun (p : PReg) => s.completePred tm.id i o p false
    match k, o.i with
    | none, .dqsteal _ q => empty q.p
    | none, _ => s
    | some k, op =>
      match dequeKey c k with
      | none => s.violateLate tm.id i o 6 (c.r.dqb + 4096 * k) 4
      | some key =>
        let top := s.read key 4
        let bot := s.read (key + 4) 4
        let idx := match op with | .dqpush .. => bot | .dqpop .. => bot + 2 ^ 32 - 1 | _ => top
        let uses := match op with | .dqpush .. => decide (s.dequeCount key < 256) | _ => s.dequeCount key != 0
        if s.dequeBad key idx uses then s.poisonOp tm.id i { o with key := key } o.dst (c.r.dqb + 4096 * k) else
        match op with
        | .dqpush _ q =>
          if ¬ t.accessesDone o.id then s
          else if 256 ≤ s.dequeCount key then empty q.d
          else (s.dequePush key o.ea).completePred tm.id i o q.d true
        | .dqpop _ q =>
          if s.dequeCount key = 0 then empty q.p
          else s.dequeTake tm i o q.d q.p key idx 4 ((bot + 2 ^ 32 - 1) % 2 ^ 32)
        | .dqsteal _ q =>
          if s.dequeCount key = 0 then empty q.p else s.dequeTake tm i o q.d q.p key idx 0 (top + 1)
        | _ => s

end Sys2Proof.Machine
end

