-- ==== Sys2Proof/Machine/Spans.lean ====
section
/-! DEFINITION. Spans and teams: placement (R337, R339, R340), the end of a team (R341, R342), host launch queues (R343),
pre-emption, saving and restoring (R338, R369 to R374), and the end of a terminated context (R368). -/

namespace Sys2Proof.Machine
open Sys2Proof

/-! ### Placement -/

/-- The K registers of the crews of a record from KINIT (R340). -/
def State.kinits (s : State) (c : Context) : List CrewRec → Except ERes (List (List DWord))
  | [] => .ok []
  | k :: ks =>
    match s.unitRead c k.kinit (8 * k.kcnt) false with
    | .ok bs => (s.kinits c ks).map fun l =>
        ((wordsBy 8 k.kcnt bs).map (BitVec.ofNat 64) ++ List.replicate (64 - k.kcnt) 0) :: l
    | e => .error e
/-- The K registers of a lot's crews: KINIT is read before the first of its spans runs (R340; DEDUCED, log 73). -/
def State.lotKs (s : State) (c : Context) (l : Lot) : Except ERes (List (List DWord)) :=
  match l.kinit with
  | some ks => .ok ks
  | none => s.kinits c l.r.crews
/-- K63 of a crew of a bin lot holds the handle (R346). -/
def withHandle (batch : Option Nat) (k : List DWord) : List DWord :=
  match batch with
  | some h => k.set 63 (BitVec.ofNat 64 h)
  | none => k
/-- A crew of a placed team (R335, R340). -/
def mkCrew (num first : Nat) (role : Role) (bind budget cpri threads : Nat) (k : List DWord) : Crew :=
  { num := num, role := role, bind := bind, budget := budget, cpri := cpri, threads := threads, first := first, k := k
    conta := none, strands := List.replicate ((threads + 63) / 64) (List.replicate 16 ⟨0, 0⟩) }
/-- The crews of a record, with the index of each one's first thread (R335). -/
def crewsFrom (num first : Nat) : List (CrewRec × List DWord) → List Crew
  | [] => []
  | (r, k) :: rest => mkCrew num first r.role r.bind r.budget r.cpri r.threads k :: crewsFrom (num + 1) (first + r.threads) rest
/-- The threads of an ordinary crew at the kernel entry (R340). -/
def crewThreads (entry : DWord) (c : Crew) : List Thread :=
  (List.range c.threads).map fun i =>
    let t := Thread.start c.num i c.budget entry .ready
    { t with sys := { t.sys with region := entry } }

/-- A team as it is placed (R340): everything zero or empty but what the record gives. -/
def mkTeam (c : Context) (l : Lot) (ks : List (List DWord)) (id span ix band team core : Nat) : Team :=
  let crews := crewsFrom 0 0 (l.r.crews.zip (ks.map (withHandle l.batch)))
  let sys := mkCrew 7 l.r.threads .system 0 (8 * c.r.sysb) 0 c.r.sysn (List.replicate 64 0)
  { id := id, asid := l.asid, lot := l.id, lotid := l.r.lotid, span := span, spanIx := ix, bandIx := band, teamIx := team
    core := core, entry := l.r.entry, lpri := l.r.lpri, coresh := l.r.coresh, lanesz := l.r.lanesz, bshare := l.r.share
    tileShare := l.r.tiles, slotShare := l.r.slots, crews := crews ++ [sys]
    threads := (crews.flatMap (crewThreads l.r.entry)) ++
      (List.range c.r.sysn).map fun i => Thread.start 7 i (8 * c.r.sysb) c.r.hentry .idle
    trapq := [], cones := List.replicate 16 {}
    bandTeams := l.r.teams
    began := l.began
    graph := l.batch.bind fun h => (c.node (bits h 49 44)).desc.map fun d => d.graph
    bin := l.batch }

/-- The teams of a span on their cores. -/
def spanTeams (c : Context) (l : Lot) (ks : List (List DWord)) (span ix : Nat) (cores : List Nat) : List Team :=
  (List.range cores.length).map fun k =>
    mkTeam c l ks (span + 1 + k) span ix (k / l.r.teams) (k % l.r.teams) (cores.getD k 0)
/-- A span is placed: readiness acquires at the cores (R337). -/
def State.putSpan (s : State) (c : Context) (l : Lot) (ks : List (List DWord)) (ix : Nat) (cores : List Nat) : State :=
  let ts := spanTeams c l ks s.nextId ix cores
  let s1 := cores.foldl (fun s k => s.l1Acquire k) s
  { s1 with
    nextId := s.nextId + 1 + cores.length
    teams := s1.teams ++ ts
    spans := s1.spans ++ [{ id := s.nextId, asid := l.asid, lot := l.id, ix := ix, teams := ts.map fun t => t.id }]
    lots := s1.lots.map fun k => if k.id = l.id then { k with placed := k.placed ++ [ix], live := k.live + 1 } else k }
/-- A lot is rejected (R342, R346): it runs no further span, and adds nothing to DONECTR. -/
def State.rejectLot (s : State) (l : Lot) (code : Nat) : State :=
  let s1 := { s with lots := s.lots.filter fun k => k.id != l.id }.logLauncher l.asid code l.addr
  match l.batch with
  | some h => s1.releaseHandle l.asid h
  | none => s1
/-- The context's lots may be placed: it is active (R368). -/
def Context.active (c : Context) : Bool := c.status.toNat % 4 == 0

/-- SPAN_PLACE (R337, R339, R340): a span of the first lot in order is placed on cores where all its teams fit. -/
def execSpanPlace (o : PlaceOp) (s : State) : Out :=
  match s.lots.find? fun l => l.id == o.id with
  | none => .next s
  | some l =>
    match s.ctx? l.asid with
    | none => .next s
    | some c =>
      let cores := o.cores.map fun k => k.val
      if ¬ c.active ∨ ¬ s.lotFirst l ∨ l.r.spans ≤ o.ix ∨ l.placed.contains o.ix ∨
          ¬ s.coresOk (l.r.load c) l.r.bands l.r.teams cores ∨
          (l.wait ≠ 0 ∧ s.counter (c.r.sqb + c.r.psc) < l.wait) then .next s else
      .next (match s.lotKs c l with
        | .ok ks => (s.modLot l.id fun l => { l with kinit := some ks }).putSpan c l ks o.ix cores
        | .error (.absent va) =>
          let r := s.pageService l.asid va 8 255 0
          r.1.modLot l.id fun l => { l with wait := r.2 }
        | .error .held => s
        | .error _ => s.rejectLot l 98)

/-! ### Leaving a core -/

/-- The keys of a team's scratchpad bytes. -/
def teamKey (id key : Nat) : Bool := key / 2 ^ 48 == id + 1 && key < 2 ^ 120
/-- A line of an instruction cache after a team has gone (R51, R170): its pins are off, and with the last team of its lot the
line is kept for the other lots that have used it, or gone. -/
def ICLine.leave (tm : Team) (last : Bool) (l : ICLine) : Option ICLine :=
  let lots := if last then l.lots.filter fun k => k != tm.lot else l.lots
  if lots.isEmpty then none else
  some { l with lots := lots, pins := if l.core = tm.core then l.pins.filter fun p => p != tm.id else l.pins }
/-- What a team leaves on its core when it goes: pins, A buffers, invariant lines of a lot that has no other team there,
checked-out lines, and physical cones (R147, R170, R255, R383). -/
def State.leaveCore (s : State) (tm : Team) : State :=
  let others := s.teams.filter fun t => t.core == tm.core && t.id != tm.id
  let last := s.teams.all fun t => t.id == tm.id || t.lot != tm.lot
  let s := s.returnLines fun k => k.core == tm.core
  let s1 : State := { s with
    icache := s.icache.filterMap (ICLine.leave tm last)
    l1 := s.l1.filter fun (l : L1Line) => !(l.core == tm.core && l.inv == some tm.lot && others.all fun t => t.lot != tm.lot)
    issues := s.issues.filter fun (x : Issue) => x.team != tm.id
    holds := s.holds.filter fun (h : Hold) => h.team != tm.id
    teams := s.teams.filter fun (t : Team) => t.id != tm.id }
  (s1.modCore tm.core fun k => { k with arrays := k.arrays.map fun (a : ArrayUnit) =>
    match a.buf with
    | some b => if b.team = tm.id then { a with buf := none } else a
    | none => a }).bindCones tm.core
/-- The watchdogs armed by a team, or on an object in its scratchpad, are freed, and WDON is cleared (R207). DESIGN
CHOICE (log 134): the clearing is a write of the object that takes a line tag, whether or not its bytes hold an error. -/
def State.freeDogs (s : State) (id : Nat) : State :=
  let mine := fun (d : Dog) => d.team == id || teamKey id d.key
  ((s.dogs.filter mine).foldl (fun s d => s.putBar d.key ((s.barObj d.key).setWdon false)) s).dropDogs mine
/-- A team's registers, scratchpad and slots are returned (R341, R368). -/
def State.removeTeam (s : State) (tm : Team) : State :=
  let s1 := (s.freeDogs tm.id).leaveCore tm
  { s1 with
    mem := s1.mem.filter fun c => !teamKey tm.id c.1
    full := s1.full.filter fun c => !teamKey tm.id c.1
    bad := s1.bad.filter fun c => !teamKey tm.id c.1 }

/-! ### The end of a team -/

/-- The team may end (R341): its ordinary threads have ended with nothing of theirs in flight and every batch retired, and
no RAST, SPLAT or matrix command is left, the barrier events of their completions included. DESIGN CHOICE (log 110): a tile copy or a sort not finished then is dropped. -/
def Team.done (tm : Team) : Bool :=
  tm.threads.all (fun t =>
    (t.crew == 7 || t.status == .ended || t.status == .idle) && t.pend.isEmpty && t.wb.isEmpty && t.copiesDone) &&
  tm.q0.isEmpty && tm.rasts.isEmpty && tm.splats.isEmpty && tm.events.isEmpty
/-- A team leaves its span; a span without teams leaves its lot, which may then be complete (R342). -/
def State.spanLoses (s : State) (tm : Team) : State :=
  let s1 : State := { s with spans := s.spans.map fun (p : Span) => if p.id = tm.span then { p with teams := p.teams.filter fun i => i != tm.id } else p }
  match s1.spans.find? fun p => p.id == tm.span with
  | some p =>
    if p.teams.isEmpty then
      ({ s1 with spans := s1.spans.filter fun (q : Span) => q.id != tm.span }.modLot tm.lot fun l => { l with live := l.live - 1 }).lotDone tm.lot
    else s1
  | none => s1
/-- The graph a team leaves may fire (R349). -/
def State.leaveGraph (s : State) (tm : Team) : State :=
  match tm.graph with
  | some g => s.detect tm.asid g
  | none => s

/-- TEAM_END (R341, R342). -/
def execTeamEnd (team : Nat) (s : State) : Out :=
  match s.team? team with
  | none => .next s
  | some tm =>
    match s.ctx? tm.asid with
    | none => .next s
    | some c =>
      if ¬ c.active ∨ ¬ tm.done ∨ s.savingTeam tm ∨ s.issues.any (fun x => x.team == team) then .next s else
      let s1 := (s.removeTeam tm).spanLoses tm
      let s2 := match tm.bin with | some h => s1.releaseHandle tm.asid h | none => s1
      .next (s2.leaveGraph tm)

/-! ### Host launch queues -/

/-- The descriptor in 32 bytes; none where it is malformed (R343). -/
def queueDesc (c : Context) (bs : List Byte) : Option QueueDesc :=
  let d : QueueDesc := ⟨fld bs 0 8, fld bs 8 4, fld bs 12 4, fld bs 16 8⟩
  if d.ring % 8 = 0 ∧ 1 ≤ d.depth ∧ d.depth ≤ 65536 ∧ 2 ^ Nat.log2 d.depth = d.depth ∧ d.ctr < 4096 ∧
      (ctrOf c d.ctr).isSome ∧ fld bs 24 8 = 0 then some d else none
def State.modLq (s : State) (asid q : Nat) (f : LaunchQ → LaunchQ) : State :=
  s.modCtx asid fun c => { c with lqs := c.lqs.modify q f }
/-- A page the launcher meets not present (R343). -/
def State.lqMiss (s : State) (asid q va : Nat) : State :=
  let r := s.pageService asid va 8 255 0
  r.1.modLq asid q fun l => { l with ticket := r.2 }
/-- A descriptor found bad is logged at the first such read, and nothing is taken from it (R343). -/
def State.lqBad (s : State) (asid q : Nat) (l : LaunchQ) (a : Nat) : State :=
  (if l.logged then s else s.logLauncher asid 99 a).modLq asid q fun _ => { due := false, desc := none, logged := true }
/-- The launcher reads the descriptor of a queue (R343). -/
def State.lqRead (s : State) (c : Context) (q : Nat) (l : LaunchQ) : State :=
  let asid := c.r.asid
  let a := c.r.lqb + 32 * q
  match s.unitRead c a 32 with
  | .absent va => s.lqMiss asid q va
  | .viol _ _ _ => s.lqBad asid q l a
  | .held => s
  | .ok bs => match queueDesc c bs, s.devSlot c (a + 16) 8 with
    | some d, some _ => s.modLq asid q fun _ => { due := false, desc := some d, logged := false }
    | _, _ => s.lqBad asid q l a
/-- One submitted entry is taken (R343): the lot it names is entered, or its failure is logged. -/
def State.lqEntry (s : State) (c : Context) (d : QueueDesc) (q : Nat) (done : State → State) : State :=
  let asid := c.r.asid
  let a := d.ring + 8 * (d.taken % d.depth)
  match s.unitRead c a 8 with
  | .absent va => s.lqMiss asid q va
  | .viol _ _ _ => done (s.logLauncher asid 98 a)
  | .held => s
  | .ok bs =>
    let ra := leNat bs
    if ra % 64 ≠ 0 then done (s.logLauncher asid 96 ra) else
    match s.unitRead c ra 256 with
    | .absent va => s.lqMiss asid q va
    | .viol _ _ _ => done (s.logLauncher asid 98 ra)
    | .held => s
    | .ok bs => match launchOf c bs with
      | none => done (s.logLauncher asid 96 ra)
      | some r => if s.neverFits c r then done (s.logLauncher asid 97 ra) else done (s.enterLot c r ra none)
/-- The launcher takes the next entry of a queue, where one is submitted and there is room (R343): TAKEN advances past it. -/
def State.lqTake (s : State) (c : Context) (q : Nat) (d : QueueDesc) : State :=
  match s.devSlot c (c.r.lqb + 32 * q + 16) 8 with
  | none => s
  | some pa =>
    if s.lotsFull ∨ s.counter (c.r.sqb + d.ctr) ≤ d.taken then s else
    s.lqEntry c d q fun s => (s.modLq c.r.asid q fun l =>
      { l with ticket := 0, desc := some { d with taken := d.taken + 1 } }).store pa (natLe 8 (d.taken + 1))
/-- LAUNCH_QUEUE_TAKE (R343): the read of the descriptor that is due, else the next entry. -/
def execLaunchQueueTake (o : LqRef) (s : State) : Out :=
  match s.ctx? o.asid.val with
  | none => .next s
  | some c =>
    let l := c.lqs.getD o.q.val {}
    if ¬ c.active ∨ c.r.lqn ≤ o.q.val ∨ (l.ticket ≠ 0 ∧ s.counter (c.r.sqb + c.r.psc) < l.ticket) then .next s
    else if l.due then .next (s.lqRead c o.q.val l)
    else match l.desc with
      | some d => .next (s.lqTake c o.q.val d)
      | none => .next s

/-! ### Saving -/

def State.modSpan (s : State) (id : Nat) (f : Span → Span) : State :=
  { s with spans := s.spans.map fun p => if p.id = id then f p else p }
/-- The save slots of a context in use (R369, R372). -/
def State.slotsTaken (s : State) (asid : Nat) : List Nat :=
  ((s.saved.filter fun p => p.span.asid == asid).flatMap fun p => p.slots.map fun x => x.1) ++
  (s.spans.filter fun p => p.asid == asid).flatMap fun p => (p.saving.getD []).map fun x => x.1
/-- The lowest n free slots, where there are so many (R372). -/
def State.slotsFor (s : State) (c : Context) (n : Nat) : Option (List Nat) :=
  let used := s.slotsTaken c.r.asid
  let free := ((List.range (min c.r.sac (used.length + n))).filter fun i => !used.contains i).take n
  if free.length = n then some free else none
/-- The size of a team's image body (R372): DESIGN CHOICE, log 7. -/
def State.bodySize (s : State) (team : Nat) : Nat :=
  leNat ((List.range 3).map fun i => Config.freeByte s.tick (16 * team + i))

/-- LAUNCHER_PREEMPT (R338): a span is to be pre-empted for a ready lot of higher priority that cannot place its next
span. -/
def execLauncherPreempt (span : Nat) (s : State) : Out :=
  match s.spans.find? fun p => p.id == span with
  | none => .next s
  | some p =>
    match s.lots.find? fun l => l.id == p.lot with
    | none => .next s
    | some low =>
      let need := s.lots.any fun l => s.lotWaits l && decide (low.r.lpri < l.r.lpri) && match s.ctx? l.asid with
        | some c => c.active && !canHost (s.fitsOn (l.r.load c)) l.r.bands l.r.teams
        | none => false
      if need then .next (s.modSpan span fun p => { p with want := true }) else .next s

/-- SPAN_SAVE (R369): the save of a span begins, one at a time, where there is a slot for each of its teams and each image
fits; else the span is not pre-empted. -/
def execSpanSave (span : Nat) (s : State) : Out :=
  match s.spans.find? fun p => p.id == span && p.want && p.saving.isNone with
  | none => .next s
  | some p =>
    match s.ctx? p.asid with
    | none => .next s
    | some c =>
      if ¬ c.active ∨ s.spans.any (fun q => q.saving.isSome) then .next s else
      let sizes := p.teams.map s.bodySize
      match s.slotsFor c p.teams.length with
      | some slots =>
        if sizes.all fun n => decide (64 + n ≤ c.r.sas) then
          .next ((s.modSpan span fun p => { p with want := false, saving := some (slots.zip sizes) }).setStatus p.asid fun v =>
            v ||| 8)
        else .next (s.modSpan span fun p => { p with want := false })
      | none => .next (s.modSpan span fun p => { p with want := false })

/-- The clause a thread would begin next is a stop site (R31, R369). -/
def State.atStop (s : State) (c : Context) (tm : Team) (t : Thread) : Bool :=
  match s.fetchWord c tm.core t.pc.toNat (t.crew == 7) with
  | .ok h => hdrStop h
  | _ => false
/-- An operation in flight at the save: an MMX of Q0 (R371), a load that waits for a full granule and what waits behind it
(R150). Any other completes first. -/
def State.staysPending (s : State) (tm : Team) (t : Thread) (o : Op) : Bool :=
  (tm.q0.any fun k => k.id == o.id) ||
  (o.res.isNone && match o.i with
    | .ld .. => (waitsFull o.i && !s.fullAt o.key) || !t.orderClear o
    | _ => false)
/-- The clause that thread i issues stands at a word that waits for room before it issues (R351, R369). -/
def State.stalledAt (s : State) (tm : Team) (i : Nat) : Bool :=
  s.issues.any fun x => x.team == tm.id && x.members.contains i && !x.stalled.isEmpty
/-- Thread i has stopped for the save (R369): at a stop site, or in place at a waiting instruction. A system-crew thread
stops at a stop site only (R366). -/
def State.threadStill (s : State) (c : Context) (tm : Team) (i : Nat) (t : Thread) : Bool :=
  t.pend.all (s.staysPending tm t) && t.wb.isEmpty && !t.dbg.stepping &&
  match t.status with
  | .idle | .ended | .trapped | .stopped => true
  | .joined _ => t.crew != 7
  | .issuing => t.crew != 7 && s.stalledAt tm i
  | .faulting => false
  | .grouped => t.isHalted || s.atStop c tm t
  | .ready => t.isHalted || t.yieldLeft != 0 ||
      (if t.waits.isEmpty then t.late.isEmpty && s.atStop c tm t else t.crew != 7 && t.waits.all haltsInPlace)
/-- The engine work that completes at a save is done, and the rest is at a boundary (R371). -/
def Team.enginesStill (tm : Team) : Bool := tm.cpls.isEmpty && tm.onlyMmx && (tm.copies.all fun c => c.kind != 2) &&
  tm.splats.all fun c => c.node.isNone
/-- Every thread and engine of a team has stopped for the save. -/
def State.teamStill (s : State) (c : Context) (tm : Team) : Bool :=
  tm.enginesStill && (List.range tm.threads.length).all fun i => match tm.threads[i]? with
    | some t => s.threadStill c tm i t
    | none => true

/-- n bytes written by the device at a virtual address, line by line, where they can be. -/
def State.devWrite (s : State) (c : Context) (va : Nat) (bs : List Byte) : State :=
  (lineSpans va bs.length).foldl (fun s p => match s.devSlot c p.1 p.2 with
    | some pa => s.store pa ((bs.drop (p.1 - va)).take p.2)
    | none => s) s
/-- The 64-byte header of a team image (R372). -/
def imageHeader (tm : Team) (size : Nat) : List Byte :=
  let count := fun (f : Thread → Bool) => (tm.threads.filter f).length
  natLe 4 (1 + 0x00B0 * 2 ^ 16) ++ natLe 4 (1 + 2 * b2n (tm.threads.any fun t => t.sys.dbgedit != 0)) ++ natLe 4 tm.lotid ++
  natLe 4 tm.spanIx ++ natLe 1 tm.bandIx ++ natLe 1 tm.teamIx ++ natLe 2 tm.threads.length ++ natLe 4 size ++
  natLe 8 tm.entry.toNat ++ natLe 4 (count fun t => t.status == .trapped) ++ natLe 4 (count fun t => t.dbg.halted) ++
  natLe 24 0
/-- A team image is written to its slot: a body whose layout is not architected, then the header (R369, R372). -/
def State.writeImage (s : State) (c : Context) (tm : Team) (slot size : Nat) : State :=
  let a := c.r.sab + slot * c.r.sas
  let s1 := s.devWrite c (a + 64) ((List.range size).map fun i => Config.freeByte s.tick (a + 64 + i))
  s1.devWrite c a (imageHeader tm size)

/-- A team as its image holds it: no monitor armed, cones unbound (R398), no A buffer used (R255), no engine of the cluster
kept, and every K register with its newest value alone (R373). -/
def Team.image (tm : Team) : Team :=
  { tm with
    threads := tm.threads.map fun t => { t with mon := none }
    crews := tm.crews.map fun c => { c with kOld := [], kAt := [] }
    q0 := tm.q0.map fun c => { c with useBuf := [], got := [] }
    sorts := tm.sorts.map fun q => { q with going := false }
    splats := tm.splats.map fun c => { c with going := false, serving := false }
    cones := tm.cones.map fun c => { c with bound := false } }
/-- The watchdogs of a saved span leave their slots with the counts left (R207). -/
def State.saveDogs (s : State) (span : Nat) : State :=
  { s with dogs := s.dogs.map fun (d : Dog) => if d.span = span then { d with bound := false, agent := 256 } else d }.bindDogs

/-- SAVE_COMPLETE (R369 to R373): every thread and engine of the span has stopped; the images are written and the span
leaves its cores. -/
def execSaveComplete (span : Nat) (s : State) : Out :=
  match s.spans.find? fun p => p.id == span with
  | none => .next s
  | some p =>
    match s.ctx? p.asid, p.saving with
    | some c, some slots =>
      let ts := s.teams.filter fun t => t.span == span
      if ¬ c.active ∨ ¬ (ts.all fun tm => s.teamStill c tm) then .next s else
      let s1 := (ts.zip slots).foldl (fun s q => s.writeImage c q.1 q.2.1 q.2.2) s
      let s2 := ts.foldl (fun s tm => s.leaveCore tm) s1
      let sv : SavedSpan :=
        { span := { p with saving := none }, teams := ts.map Team.image, slots := slots
          holds := s.holds.filter fun h => ts.any fun t => t.id == h.team
          issues := s.issues.filter fun x => ts.any fun t => t.id == x.team }
      let cmd := s2.hcmd.map fun (k : HostCmd) => if k.op = 3 ∧ k.span = span then { k with saved := true } else k
      let s3 : State :=
        { s2.saveDogs span with
          spans := s2.spans.filter fun (q : Span) => q.id != span
          saved := s2.saved ++ [sv]
          hcmd := cmd }
      .next (s3.setStatus p.asid fun v => v - v % 16 + v % 8)
    | _, _ => .next s

/-! ### Restoring -/

/-- The progress indexes of the engine work of a team, with its name and thread (R249, R275, R290, R322). -/
def Team.progress (tm : Team) : List (Nat × Nat × Nat) :=
  ((tm.copies.filter fun c => c.recvs.any fun v => v.done != 0).map fun c =>
    (c.id, c.o.thr, c.recvs.foldl (fun n v => n + popcount 256 v.done) 0)) ++
  ((tm.sorts.filter fun q => q.started).map fun q => (q.id, q.o.thr, q.passes + 16 * b2n q.ibarOn)) ++
  ((tm.q0.filter fun c => c.started).map fun c =>
    (c.id, c.o.thr, c.passes % 2 ^ 21 + 2 ^ 21 * b2n (match c.blk with | some b => b.ibarOn | none => false))) ++
  ((tm.rasts.filter fun c => c.idx != 0 || c.pix != 0).map fun c => (c.id, c.o.thr, c.idx % 2 ^ 20 + c.pix % 256 * 2 ^ 20)) ++
  ((tm.splats.filter fun c => c.begun).map fun c =>
    (c.id, c.o.thr, c.pix + c.passes * 2 ^ 9 + b2n c.filled * 2 ^ 12 + b2n c.ibarOn * 2 ^ 13))
/-- PXI of a thread after a restore (R371): that of the most recent of its operations in progress; else as it was saved
(R373). -/
def Team.pxiOf (tm : Team) (i pxi : Nat) : Nat :=
  ((tm.progress.filter fun q => q.2.1 == i).foldl (fun (a : Nat × Nat) q => if a.1 ≤ q.1 then (q.1, q.2.2) else a) (0, pxi)).2
/-- A waiting instruction that a restore issues again (R374): it has not waited yet. -/
def Op.again (o : Op) : Op := if haltsInPlace o then { o with waited := false, banked := none, stage := 0, redo := true } else o
/-- A restored thread (R374): one at a waiting instruction issues it again, with reason 9; a WAITM wakes at once. -/
def restoreThread (tm : Team) (i : Nat) (t : Thread) : Thread :=
  let waiting := t.waits.any haltsInPlace || (match t.status with | .joined _ => true | _ => false)
  { t with
    sys := { t.sys with pxi := BitVec.ofNat 64 (tm.pxiOf i t.sys.pxi.toNat), waker := if waiting then 9 else t.sys.waker }
    waits := (t.waits.filter fun o => match o.i with | .waitm .. => false | _ => true).map Op.again }
/-- A restored team on its new core. -/
def Team.restore (tm : Team) (core : Nat) : Team :=
  { tm with core := core, threads := (List.range tm.threads.length).filterMap fun i => tm.threads[i]?.map (restoreThread tm i) }
/-- An image fails its restore (R374): its format does not match, or it reads as poisoned. -/
def State.imageBad (s : State) (c : Context) (slot : Nat × Nat) : Bool :=
  let a := c.r.sab + slot.1 * c.r.sas
  match s.unitRead c a (64 + slot.2) with
  | .ok bs => fld bs 0 4 != 1 + 0x00B0 * 2 ^ 16
  | .viol _ _ _ => true
  | .absent _ | .held => false
/-- The image lines that are checked out return as a restore reads them (R177). -/
def State.recallImages (s : State) (c : Context) (slots : List (Nat × Nat)) : State :=
  slots.foldl (fun s k => s.unitRecall c (c.r.sab + k.1 * c.r.sas) (64 + k.2)) s
/-- The watchdogs of a restored span bind again at their objects' agents (R207); one without a free slot becomes unbound
after those that are so already. -/
def State.restoreDogs (s : State) (span : Nat) : State :=
  { s with dogs := (s.dogs.filter fun (d : Dog) => d.span != span) ++
      (s.dogs.filter fun (d : Dog) => d.span == span).map fun (d : Dog) => { d with agent := s.barAgent d.key } }.bindDogs
/-- Released groups come back (R373): those that had a hold slot take one where the new core has one free (R67). -/
def State.restoreHolds (s : State) (hs : List Hold) : State :=
  hs.foldl (fun s h =>
    let free := match s.team? h.team with | some tm => decide (s.slotsUsed tm.core < 4) | none => false
    { s with holds := s.holds ++ [{ h with slot := h.slot && free }] }) s
/-- A completion test for every rejoin mask of a team's strands (R66). -/
def State.testJoins (s : State) (tm : Team) : State :=
  tm.crews.foldl (fun s c => (List.range c.strands.length).foldl (fun s str =>
    (List.range 16).foldl (fun s j => s.testJoin tm.id c.num str j (s.teamBanks tm.id)) s) s) s

/-- SPAN_RESTORE (R374): a saved span of the first lot in order is placed on cores that fit. -/
def execSpanRestore (o : PlaceOp) (s : State) : Out :=
  match s.saved.find? fun p => p.span.id == o.id with
  | none => .next s
  | some p =>
    match s.ctx? p.span.asid, s.lots.find? fun l => l.id == p.span.lot with
    | some c, some l =>
      let cores := o.cores.map fun k => k.val
      if ¬ c.active ∨ ¬ s.lotFirst l ∨
          ¬ s.coresFit (p.teams.map Team.load) (p.teams.map fun t => t.bandIx) cores then .next s else
      let s := s.recallImages c p.slots
      if p.slots.any (s.imageBad c) then .next (s.terminate p.span.asid 4 0 0)
      else
        let ts := (p.teams.zip cores).map fun q => q.1.restore q.2
        let s1 := cores.foldl (fun s k => s.l1Acquire k) s
        let s2 := { s1 with
          teams := s1.teams ++ ts, spans := s1.spans ++ [p.span], issues := s1.issues ++ p.issues
          saved := s1.saved.filter fun q => q.span.id != o.id }
        let s3 := cores.foldl (fun s k => s.bindCones k) ((s2.restoreDogs o.id).restoreHolds p.holds)
        .next (ts.foldl (fun s tm => s.testJoins tm) s3)
    | _, _ => .next s

/-! ### Termination -/

/-- CONTEXT_TERMINATE (R368): a termination asked for by system software begins. -/
def execContextTerminate (asid : Fin 512) (s : State) : Out :=
  match s.ctx? asid.val with
  | none => .next s
  | some c => match c.term with
    | none => .next s
    | some (src, kind, code) => .next ((s.modCtx asid.val fun c => { c with term := none }).terminate asid.val src kind code)
/-- Nothing of the context is in flight any more: what has not performed is dropped (R368). -/
def State.dropSaved (s : State) (asid : Nat) : State :=
  let gone := fun (key : Nat) => s.saved.any fun p => p.span.asid == asid && p.teams.any fun t => teamKey t.id key
  { s with
    mem := s.mem.filter fun c => !gone c.1
    full := s.full.filter fun c => !gone c.1
    bad := s.bad.filter fun c => !gone c.1
    saved := s.saved.filter fun p => p.span.asid != asid }
/-- TERMINATION_COMPLETE (R368): the teams are removed, STATE becomes 2, TCTR is raised and the host told. -/
def execTerminationComplete (asid : Fin 512) (s : State) : Out :=
  match s.ctx? asid.val with
  | none => .next s
  | some c =>
    if c.status.toNat % 4 ≠ 1 then .next s else
    let s1 := (s.teams.filter fun t => t.asid == asid.val).foldl (fun s tm => s.removeTeam tm) s
    let s2 := { s1 with spans := s1.spans.filter fun p => p.asid != asid.val, dogs := s1.dogs.filter fun d => d.asid != asid.val }
    let s3 := (s2.glzForget asid.val).setStatus asid.val fun v => v - v % 16 + v % 16 / 4 * 4 % 8 + 2
    let s4 := s3.addCounter (c.r.sqb + c.r.tctr) 1
    let v := match s4.ctx? asid.val with | some c => c.status.toNat | none => 0
    .next ((s4.modCtx asid.val fun c => { c with psq := [] }).hostEvent 4 asid.val 0 v)

end Sys2Proof.Machine
end

