-- ==== Sys2Proof/Machine/System.lean ====
section
/-! DEFINITION. System, trap and context instructions, chapter 14_system.md: TRAP (R378), SRD and SWR (R379), CONT (R380),
RESUME (R381), TRET (R382), the dispatch of a trap (R365) and soft errors (R375). -/

namespace Sys2Proof.Machine
open Sys2Proof

/-! ### TRAP -/

/-- The software trap of a TRAP that has drained (R378). -/
def State.softTrap (id j : Nat) (q : TrapOp) (o : Op) (s : State) : State :=
  s.raiseRep id j
    { id := o.id, r := ⟨21, q.code.toNat, BitVec.ofNat 64 q.imm.toNat, o.word, o.frec, o.ord⟩, iaddr := o.iaddr }

/-- TRAP (R378). -/
def execTrap (c : Common) (o : TrapOp) (s : State) : Out :=
  drainThen (.trap c o) [] (fun _ t => t.drained) (fun id j u s => s.softTrap id j o u) s

/-! ### System registers -/

/-- The thread that an SRD or SWR acts on: the issuing thread, or its served thread (R379). -/
def Thread.target (t : Thread) (j : Nat) (tgt : Bool) : Option Nat := if tgt then t.served else some j

/-- SRD (R379): with `.t` and no served thread it returns 0. -/
def execSrd (c : Common) (o : SrdOp) (s : State) : Out :=
  runEach (.srd c o) (fun x _ t j s => match s.team? x.team with
    | some tm =>
      let v := match (t.target j o.tgt).bind fun k => tm.threads[k]? with
        | some u => s.sysRead tm u (x.t0 + x.now) o.num.val
        | none => 0
      s.modThr x.team j fun _ => t.pushRes x c 2 { v := vPut o.wide o.d.val v }
    | none => s) s

/-- SWR (R379). -/
def execSwr (c : Common) (o : SwrOp) (s : State) : Out :=
  runEach (.swr c o) (fun x cr t j s =>
    let v := srcVal cr.k t o.wide o.a
    let w : Option SysW :=
      if o.tgt then t.served.map fun k => ⟨some k, o.num.val, v⟩
      else some ⟨none, o.num.val, v⟩
    s.modThr x.team j fun _ => t.pushRes x c 2 { x := w }) s

/-! ### CONT and RESUME -/

/-- The continuation address of the thread's crew is written, and the instruction completes (R380). -/
def contOp (i : Instr) (f : Issue → Option DWord) (s : State) : Out :=
  runEach i (fun x cr t j s =>
    (s.modCrew x.team cr.num fun q => { q with conta := f x }).modThr x.team j fun _ => t.pushRes x (commonOf i) 2 {}) s

/-- CONT (R380). -/
def execCont (c : Common) (tgt : BitVec 32) (s : State) : Out :=
  contOp (.cont c tgt) (fun x => some (BitVec.ofNat 64 (directTarget x tgt))) s
/-- CONT.off (R380). -/
def execContOff (c : Common) (s : State) : Out := contOp (.contOff c) (fun _ => none) s

/-- The return of a RESUME (R381): it acquires at `.sys`, CONTACT is cleared, and the thread goes on at RPT. -/
def State.resumeNow (s : State) (tm : Team) (j : Nat) : State :=
  (s.acquireAt tm.core .sys).modThr tm.id j fun t => { t with contact := false, pc := t.rpt, must := none }

/-- A RESUME that has drained: its counter is reached, or it waits for it (R381). -/
def State.resumeStep (s : State) (tm : Team) (j k th : Nat) (wait : State → State) (bad : State → State)
    (done : State → State) : State :=
  if s.poisoned (chipKey (8 * k)) 8 then bad s
  else if th ≤ s.counter k then done (s.resumeNow tm j) else wait s

/-- A RESUME form's counter, its absolute number or none where it is outside the window, and its threshold (R381). -/
abbrev ResumeArgs := Context → Crew → Thread → Nat × Option Nat × Nat
/-- RESUME.svc (R381): counter PSC and the TICKET of the frame. -/
def resumeSvcArgs : ResumeArgs := fun cx _ t => (cx.r.psc, ctrOf cx cx.r.psc, t.ticket)
/-- RESUME on a counter and a threshold (R381). -/
def resumeArgs (o : ResumeOp) : ResumeArgs :=
  fun cx cr t => (srcVal cr.k t false o.a, ctrOf cx (srcVal cr.k t false o.a), t.v64 o.b.val)

/-- A RESUME issues (R381): outside a continuation it faults. It drains first, and then reads its operands and checks its
counter. -/
def resumeOp (i : Instr) (f : ResumeArgs) (s : State) : Out :=
  runEach i (fun x cr t j s =>
    match s.team? x.team, (s.team? x.team).bind fun tm => s.ctx? tm.asid with
    | some tm, some cx =>
      if ¬ t.contact then s.raise x j 20 1 x.iaddr.toNat else
      if ¬ (t.drained && t.waits.isEmpty && t.late.isEmpty) then s.pushWait x j i [] fun u => { u with waited := !t.drained } else
      match f cx cr t with
      | (n, none, _) => s.violate x j 6 n 4
      | (n, some k, th) => s.resumeStep tm j k th (fun s => s.pushWait x j i [n, k, th] fun u => { u with stage := 1, waited := true })
          (fun s => s.raise x j 7 5 n) (fun s => s)
    | _, _ => s) s

/-- RESUME.svc (R381). -/
def execResumeSvc (c : Common) (s : State) : Out := resumeOp (.resumeSvc c) resumeSvcArgs s
/-- RESUME on a counter and a threshold (R381). -/
def execResume (c : Common) (o : ResumeOp) (s : State) : Out := resumeOp (.resume c o) (resumeArgs o) s

/-- The operands of a waiting RESUME: read as it has drained, and kept while it waits for its counter (R381). -/
def resumeVals (f : ResumeArgs) (cx : Context) (cr : Crew) (t : Thread) (o : Op) : Nat × Option Nat × Nat :=
  if o.stage = 0 then f cx cr t else (o.vals.getD 0 0, some (o.vals.getD 1 0), o.vals.getD 2 0)
/-- A waiting RESUME tests its drain, then its counter (R74, R381). -/
def State.retryResume (s : State) (tm : Team) (j : Nat) (t : Thread) (cr : Crew) (f : ResumeArgs) (o : Op) : State :=
  if o.stage = 0 ∧ ¬ t.drained then s.markWaited tm.id j o.id else
  match s.ctx? tm.asid with
  | none => s
  | some cx =>
    let s1 := if o.stage = 0 ∧ o.waited then s.wake tm.id j 8 else s
    match resumeVals f cx cr t o with
    | (n, none, _) => (s1.dropWait tm.id j o.id).violateLate tm.id j o 6 n 4
    | (n, some k, th) =>
      s1.resumeStep tm j k th
        (fun s => s.modThr tm.id j fun t =>
          { t with waits := t.waits.map fun u =>
              if u.id = o.id then { u with stage := 1, waited := true, banked := none, vals := [n, k, th] } else u })
        (fun s => s.failWait tm.id j o 7 5 n)
        (fun s => s.endWait tm.id j { o with waited := o.stage == 1 && o.waited } 5)

/-! ### TRET -/

/-- The handler thread becomes idle (R365, R382). -/
def State.handlerIdle (s : State) (id j : Nat) : State :=
  s.modThr id j fun t => { t with status := .idle, served := none, serveInfo := none, must := none, waits := [] }

/-- A served thread becomes ready at a clause; an instruction that waited has had no effect (R201, R382). -/
def Thread.resumeAt (t : Thread) (pc : DWord) : Thread :=
  { t with
    status := .ready, pc := pc, must := none
    waits := t.waits.filter fun o => match o.i with | .nop .. => true | _ => false }

/-- TRET.rec (R382): the thread goes on at its FREC; a misaligned one raises the landing fault with cause 1. -/
def State.tretTo (s : State) (id k : Nat) (t : Thread) (r : FRec) (iaddr : DWord) : State :=
  if t.sys.frec.toNat % 8 = 0 then s.modThr id k fun t => t.resumeAt t.sys.frec
  else s.raiseAt id k 3 1 t.sys.frec.toNat r.word iaddr 0

/-- A killed thread ends as by EXIT (R84, R382): at once where it may, else when it has drained. -/
def State.tretKill (s : State) (id k : Nat) (cr : Crew) (t : Thread) : State :=
  let s := s.modThr id k fun t => { t with dbg := { t.dbg with halted := false, req := none, landed := false } }
  if exitReady cr t then s.endThread id k else
  { s with nextId := s.nextId + 1 }.modThr id k fun t =>
    { t with status := .ready, waits := [{ id := s.nextId, i := .exit {} }] }

/-- TRET.next (R382): after an illegal clause the clause that follows it, after a fetch fault as kill, else the clause the
thread would have begun next. -/
def State.tretNextClause (s : State) (id k : Nat) (cr : Crew) (t : Thread) (r : FRec) : State :=
  if r.kind = 4 then s.tretKill id k cr t
  else if r.kind = 1 then s.modThr id k fun t => { t with status := .ready, pc := fallOf r.addr r.word, must := none }
  else s.modThr id k fun t => { t with status := .ready }

/-- What TRET does with the served thread (R382). -/
inductive TretMode where
  | record | next | kill
  deriving DecidableEq, Repr

/-- TRET after its drain and release (R382): the served thread leaves the trap queue, the handler becomes idle. -/
def State.tretServe (m : TretMode) (id j : Nat) (_ : Op) (s : State) : State :=
  match s.team? id, s.thr? id j with
  | some tm, some h =>
    let s1 := s.handlerIdle id j
    match h.served, h.serveInfo with
    | some k, some (r, iaddr) =>
      match tm.threads[k]? with
      | some t =>
        match m, tm.crew? t.crew with
        | .record, _ => s1.tretTo id k t r iaddr
        | .next, some cr => s1.tretNextClause id k cr t r
        | .kill, some cr => s1.tretKill id k cr t
        | _, none => s1
      | none => s1
    | _, _ => s1
  | _, _ => s
/-- TRET.term after its drain and release (R368, R382). -/
def State.tretTerm (imm : BitVec 32) (id _j : Nat) (_ : Op) (s : State) : State :=
  match s.team? id with
  | some tm => s.terminate tm.asid 1 0 imm.toNat
  | none => s

/-- TRET.rec (R382). -/
def execTretRec (c : Common) (s : State) : Out :=
  drainThen (.tretRec c) [] (fun _ t => t.drained) (State.tretServe .record) s
/-- TRET.next (R382). -/
def execTretNext (c : Common) (s : State) : Out :=
  drainThen (.tretNext c) [] (fun _ t => t.drained) (State.tretServe .next) s
/-- TRET.kill (R382). -/
def execTretKill (c : Common) (s : State) : Out :=
  drainThen (.tretKill c) [] (fun _ t => t.drained) (State.tretServe .kill) s
/-- TRET.term (R382). -/
def execTretTerm (c : Common) (imm : BitVec 32) (s : State) : Out :=
  drainThen (.tretTerm c imm) [] (fun _ t => t.drained) (State.tretTerm imm) s

/-! ### Dispatch -/

/-- V0 of a handler (R365): TID, CREW and LANE of the faulting thread, or NOTHREAD. -/
def trapWord : Option Thread → Nat
  | some t => t.tid % 4096 + t.crew % 8 * 2 ^ 12 + t.lane % 64 * 2 ^ 16
  | none => 2 ^ 31

/-- The start of an idle handler thread on an entry (R365). -/
def Thread.serve (h : Thread) (u : Option Thread) (e : TrapEnt) (hentry : DWord) : Thread :=
  let g := match u with
    | some t => { h.sys with
        fcode := t.sys.fcode, faddr := t.sys.faddr, fword := t.sys.fword, frec := t.sys.frec, ford := t.sys.ford }
    | none => h.sys.putRec e.r false
  { h.putV (vPut false 0 (trapWord u) ++ vPut true 2 e.iaddr.toNat) with
    p := List.replicate 7 false, f := List.replicate 12 0, sys := { g with fxf := 0, region := hentry }, pc := hentry
    must := none, status := .ready, served := e.thr, serveInfo := some (e.r, e.iaddr) }

/-- TRAP_DISPATCH (R365): an idle system-crew thread takes the oldest entry of its team's trap queue. -/
def execTrapDispatch (o : ThRef) (s : State) : Out :=
  match s.team? o.team with
  | none => .next s
  | some tm =>
    match tm.threads[o.thr]?, tm.trapq, s.ctx? tm.asid with
    | some h, e :: rest, some c =>
      if h.crew = 7 ∧ h.status = .idle ∧ c.active ∧ ¬ s.savingTeam tm then
        .next ((s.modTeam o.team fun tm => { tm with trapq := rest }).modThr o.team o.thr fun h =>
          h.serve (e.thr.bind fun k => tm.threads[k]?) e c.r.hentry)
      else .next s
    | _, _, _ => .next s

/-! ### Soft errors -/

/-- An uncorrectable error in a structure (R375). -/
def State.eccHit (s : State) : EccTarget → State
  | .regFile team thr reg => s.modThr team thr fun t =>
      if reg.val < t.v.length ∧ ¬ t.badRegs.contains reg.val then { t with badRegs := t.badRegs ++ [reg.val] } else t
  | .scratch key => if (2 ^ 40 ≤ key ∧ key < 2 ^ 40 + 48 * 2 ^ 20) ∨ isScratch key then s.setPoison key true else s
  | .feBits team g => s.setPoison (coreKey team (16 * g)) true
  | .l1d core pa => s.l1Drop core.val (pa / 128)
  | .l1i core va => { s with icache := s.icache.filter fun (l : ICLine) => !(l.core == core.val && l.line == va / 128) }
  | .l2Clean _ => s
  | .l2Dirty pa => if pa < memBytes then s.setPoison pa true else s
  | .mem pa => if pa < memBytes then s.setPoison pa true else s
  | .acc team tile => s.modTeam team fun tm => tm.setTileBad tile true
  | .tlb cluster asid va => { s with
      tlb := s.tlb.filter fun (t : TlbEnt) =>
        !(t.cluster == cluster.val && t.asid == asid.val && t.base ≤ va && va < t.base + t.size) }
  | .glaze slice asid index => { s with
      glazes := s.glazes.filter fun (g : GlzEnt) => !(g.slice == slice.val && g.asid == asid.val && g.index == index.val) }
  | .control asid => s.terminate asid.val 5 0 0

/-- ECC_UNCORRECTABLE (R375). -/
def execEccUncorrectable (o : EccTarget) (s : State) : Out := .next (s.eccHit o)

/-- ECC_CORRECTED (R375, R425): no value changes, and CECOUNT counts, saturating. -/
def execEccCorrected (_ : EccTarget) (s : State) : Out :=
  .next { s with host := { s.host with cecount := BitVec.ofNat 32 (min (s.host.cecount.toNat + 1) (2 ^ 32 - 1)) } }

end Sys2Proof.Machine
end

