-- ==== Sys2Proof/Machine/Debug.lean ====
section
/-! DEFINITION. Watch cones and debugging, chapter 15_watch.md: CONESET and CONECLR (R402, R403), HALT (R404), INSPR and
INSPW (R405 to R408), STEP (R409), TMARK (R410), the landing of halts (R393, R394), revocation (R397) and the trace unit
(R399). -/

namespace Sys2Proof.Machine
open Sys2Proof

/-! ### Cones -/

/-- A cone whose words keep the rules of R384. -/
def coneWordOk (c : ConeNum) : Bool :=
  let m := bits c.cw 2 0
  let kinds := bits c.cw 6 3
  let spc := bits c.cw 9 7
  let value := bits c.cw 13 10
  let ecls := bits c.cw 17 14
  let tail := c.cw / 2 ^ 51 == 0 && bits c.cw 20 18 ≤ 4 && !bit c.cw 43
  match m with
  | 0 => c.cw == 0 && c.c0 == 0 && c.c1 == 0
  | 1 => tail && kinds != 0 && spc != 5 && spc != 6 && value == 0 && ecls == 0
  | 2 => tail && kinds != 0 && kinds < 8 && spc != 5 && spc != 6 && (bits c.cw 11 10 == 3 || !bit c.cw 13) && ecls == 0
  | 3 => tail && kinds == 0 && spc == 0 && value == 0 && ecls != 0 && c.c0 == 0 && c.c1 == 0
  | _ => false

def Team.cone (tm : Team) (n : Nat) : Cone := tm.cones.getD n {}
def State.modCone (s : State) (id n : Nat) (f : Cone → Cone) : State :=
  s.modTeam id fun tm => { tm with cones := tm.cones.modify n f }
/-- ARMED in CSTAT (R390). -/
def cstatArmed : DWord := BitVec.ofNat 64 (2 ^ 33)
/-- CONECLR of some cones of a team: each is free again, and a lost cone of the core takes its place (R398, R403). -/
def State.clearCones (s : State) (tm : Team) (ns : List Nat) : State :=
  (ns.foldl (fun s n => s.modCone tm.id n fun _ => {}) s).bindCones tm.core
/-- The cone armed again, its record zero (R402, R403). -/
def Cone.rearm (c : Cone) : Cone := { c with cstat := cstatArmed, cwhere := 0, caddr := 0, cval := 0, ciaddr := 0, taken := false }
/-- CONESET of a cone (R402), with its status. -/
def State.setCone (s : State) (tm : Team) (n : Nat) (c : ConeNum) : State × Bool :=
  if ¬ coneWordOk c then (s, false)
  else if c.cw % 8 = 0 then (s.clearCones tm [n], true)
  else if ¬ (tm.cone n).bound ∧ 16 ≤ s.conesUsed tm.core then (s, false)
  else
    (s.modCone tm.id n fun d =>
      { d.rearm with
        cw := BitVec.ofNat 64 c.cw, cmp0 := BitVec.ofNat 64 c.c0, cmp1 := BitVec.ofNat 64 c.c1, bound := true, fresh := true },
      true)

/-- A debug instruction that has acted: its registers and its predicate are written when it completes (R401). -/
def State.pushActed (s : State) (x : Issue) (j : Nat) (i : Instr) (ws : List (Nat × Word)) (p : PReg) (ok : Bool) : State :=
  s.pushOp x j i [b2n ok] fun u => { u with res := some ws, pdst := if p.val = 7 then none else some p.val }

/-- A CONESET in flight arms its cone, and completes (R402). -/
def State.performConeset (s : State) (tm : Team) (i : Nat) (q : ConesetOp) (o : Op) : State :=
  let r := s.setCone tm q.n.val ⟨o.vals.getD 0 0, o.vals.getD 1 0, o.vals.getD 2 0⟩
  (r.1.setPred tm.id i q.d r.2).completeOp tm.id i o []
/-- The CONESETs of a thread in flight complete: its debug instructions act in issue order (R401). -/
def State.armPending (s : State) (id j : Nat) : State :=
  match s.thr? id j with
  | none => s
  | some t => t.pend.foldl (fun s o => match o.i, s.team? id with
    | .coneset _ q, some tm => s.performConeset tm j q o
    | _, _ => s) s
/-- CONESET issues (R402), after the thread's earlier ones (R401). -/
def execConeset (c : Common) (o : ConesetOp) (s : State) : Out :=
  runEach (.coneset c o) (fun x cr t j s =>
    (s.armPending x.team j).pushOp x j (.coneset c o) [srcVal cr.k t true o.a, srcVal cr.k t true o.b, srcVal cr.k t true o.c]) s

/-- What a CONECLR does to the issuing team (R403). -/
def coneclrOp (i : Instr) (f : State → Team → State) (s : State) : Out :=
  runEach i (fun x _ _ j s => match (s.armPending x.team j).team? x.team with
    | some tm => f (s.armPending x.team j) tm
    | none => s) s
/-- CONECLR.rec of some cones (R403): a free cone is left as it is. -/
def State.rearmCones (s : State) (tm : Team) (ns : List Nat) : State :=
  ns.foldl (fun s n => s.modCone tm.id n fun c => if bits c.cw.toNat 2 0 = 0 then c else c.rearm) s

/-- CONECLR n (R403). -/
def execConeclr (c : Common) (n : Fin 16) (s : State) : Out :=
  coneclrOp (.coneclr c n) (fun s tm => s.clearCones tm [n.val]) s
/-- CONECLR.rec n (R403). -/
def execConeclrRec (c : Common) (n : Fin 16) (s : State) : Out :=
  coneclrOp (.coneclrRec c n) (fun s tm => s.rearmCones tm [n.val]) s
/-- CONECLR.all, with or without REC (R401, R403). -/
def execConeclrAll (c : Common) (rec : Bool) (s : State) : Out :=
  coneclrOp (.coneclrAll c rec) (fun s tm =>
    if rec then s.rearmCones tm (List.range 16) else s.clearCones tm (List.range 16)) s

/-! ### Halt and release -/

/-- The context of a team holds the debug right (R392). -/
def State.hasRight (s : State) (tm : Team) : Bool := match s.ctx? tm.asid with | some c => c.debug | none => false
/-- The thread of a team that a selector names; none for the system crew (R401, R404). -/
def Team.select (tm : Team) (tid crew : Nat) : Option Nat :=
  (List.range tm.threads.length).find? fun i => match tm.threads[i]? with
    | some t => t.crew == crew && t.tid == tid && crew != 7
    | none => false
/-- A selector in a register: bits 31:15 are zero (R401). -/
def Team.selectReg (tm : Team) (sel : Nat) : Option Nat :=
  if sel / 2 ^ 15 = 0 then tm.select (sel % 2 ^ 12) (bits sel 14 12) else none

/-- The waits of a released thread: its waiting instruction issues again (R396), and a WAITM ends (R175). -/
def againWaits (ws : List Op) : List Op :=
  (ws.filter fun o => match o.i with | .waitm .. => false | _ => true).map fun o => { o with waited := false, redo := haltsInPlace o }
/-- A thread after its release (R396). -/
def Thread.released (t : Thread) : Thread :=
  let waitm := t.waits.any fun o => match o.i with | .waitm .. => true | _ => false
  { t with
    waits := againWaits t.waits, mon := if waitm then none else t.mon
    dbg := { t.dbg with halted := false, req := none, landed := false, inplace := false } }
/-- The release of a halted thread (R396). -/
def State.release1 (s : State) (id i : Nat) : State :=
  match s.thr? id i with
  | some t => if t.isHalted then (s.wake id i 10).modThr id i Thread.released else s
  | none => s

/-- A HALT form acts where the context holds the debug right (R404). -/
def haltOp (i : Instr) (f : Team → Thread → Nat → List Nat) (act : State → Nat → Nat → State) (s : State) : Out :=
  runEach i (fun x _ t j s =>
    let s := s.armPending x.team j
    match s.team? x.team with
    | some tm => if s.hasRight tm then (f tm t j).foldl (fun s k => act s x.team k) s else s
    | none => s) s

/-- HALT.self (R404). -/
def execHaltSelf (c : Common) (s : State) : Out :=
  haltOp (.haltSelf c) (fun _ _ j => [j]) (fun s id k => s.requestHalt id 1 0 k) s
/-- HALT.crew (R404). -/
def execHaltCrew (c : Common) (s : State) : Out :=
  haltOp (.haltCrew c) (fun tm _ j => haltSet tm j 3) (fun s id k => s.requestHalt id 1 0 k) s
/-- HALT.team (R404). -/
def execHaltTeam (c : Common) (s : State) : Out :=
  haltOp (.haltTeam c) (fun tm _ j => haltSet tm j 4) (fun s id k => s.requestHalt id 1 0 k) s
/-- HALT.thr (R404). -/
def execHaltThr (c : Common) (o : HaltSel) (s : State) : Out :=
  haltOp (.haltThr c o) (fun tm _ _ => (tm.select o.tid.toNat o.crew.val).toList) (fun s id k => s.requestHalt id 2 0 k) s
/-- The threads a HALT.rel releases (R404). -/
def relSet (tm : Team) : RelSel → List Nat
  | .thr o => (tm.select o.tid.toNat o.crew.val).toList
  | .all _ => haltSet tm 0 4
/-- HALT.rel (R396, R404). -/
def execHaltRel (c : Common) (o : RelSel) (s : State) : Out :=
  haltOp (.haltRel c o) (fun tm _ _ => relSet tm o) (fun s id k => s.release1 id k) s

/-- The members of the released group of a thread, itself included (R69). -/
def State.groupMembers (s : State) (id i : Nat) : List Nat :=
  match s.holds.find? fun h => h.team == id && h.members.contains i with
  | some h => h.members
  | none => [i]
/-- A halt lands on a member of a pending held group: a thread with no request of its own takes that of the member (R69). -/
def landReq (r : Option (Nat × Nat)) (t : Thread) : Thread :=
  if t.dbg.halted then t else
  { t with dbg := { t.dbg with req := if t.dbg.req.isNone then r else t.dbg.req, landed := true } }

/-- A header wait ends before the halt reads: the flags are zero (R74, R393). -/
def State.endHdrWait (s : State) (id i : Nat) : State :=
  match s.thr? id i with
  | some t => if t.hdrWait then (s.wake id i 8).modThr id i fun t => { t with hdrWait := false } else s
  | none => s

/-- A requested halt lands where it may (R69, R393, R394). -/
def State.haltStop (s : State) (c : Context) (tm : Team) (i : Nat) (t : Thread) : State :=
  match t.status with
  | .ready =>
    if t.yieldLeft ≠ 0 then s.landHalt tm.id i false
    else if t.dbg.landed then (s.endHdrWait tm.id i).landHalt tm.id i true
    else if t.waits.isEmpty then (if s.atStop c tm t then (s.endHdrWait tm.id i).landHalt tm.id i false else s)
    else if t.waits.all haltsInPlace then s.landHalt tm.id i true
    else s
  | .joined _ => s.landHalt tm.id i true
  | .idle => s.landHalt tm.id i false
  | .grouped =>
    let s1 := (s.groupMembers tm.id i).foldl (fun s k => s.modThr tm.id k (landReq t.dbg.req)) s
    if t.quiet then (s1.endHdrWait tm.id i).landHalt tm.id i true else s1
  | _ => s

/-- The end of a STEP (R409): the clause is done, or the thread is still waiting where it was. -/
def Thread.stepOver (t : Thread) : Option Bool :=
  match t.status with
  | .joined _ => some true
  | .ready =>
    if t.waits.isEmpty then (if t.dbg.stepped then some false else none)
    else if t.waits.all (fun o => haltsInPlace o && o.waited) then some true
    else none
  | .grouped => if t.dbg.stepped then some true else none
  | _ => none

/-- HALT_LAND (R393, R394, R409). -/
def execHaltLand (o : ThRef) (s : State) : Out :=
  match s.team? o.team with
  | none => .next s
  | some tm =>
    match tm.threads[o.thr]?, s.ctx? tm.asid with
    | some t, some c =>
      if ¬ c.active ∨ (¬ t.quiet ∧ ¬ (t.status = .grouped ∧ t.dbg.req.isSome)) ∨ t.isHalted then .next s
      else if t.dbg.stepping then
        match t.stepOver with
        | some inplace => .next (s.putHalt tm o.thr t 4 0 inplace)
        | none => .next s
      else if t.dbg.req.isSome then .next (s.haltStop c tm o.thr t)
      else .next s
    | _, _ => .next s

/-! ### Inspection -/

/-- The item of an item selector, with its index; none where the selector is bad (R405). -/
inductive Item where
  | v (n : Nat) | p | f (n : Nat) | next | sreg (n : Nat) | k (n : Nat) | stateWord | cone (word n : Nat) | ctx
  deriving DecidableEq, Repr

/-- The width of a system register: 64 bits or 32; none where R96 does not assign the number. -/
def sregWide (n : Nat) : Option Bool :=
  if n ∈ [13, 16, 18, 19, 20, 32] then some true
  else if n ≤ 22 ∨ (24 ≤ n ∧ n ≤ 31) then some false else none

/-- The decoding of an item selector for a width (R405); the index of a V register is checked with the target. -/
def itemOf (sel : Nat) (wide : Bool) : Option Item :=
  let n := sel % 256
  if sel / 2 ^ 12 ≠ 0 then none else
  match bits sel 11 8 with
  | 0 => if wide ∧ n % 2 ≠ 0 then none else some (.v n)
  | 1 => if wide ∨ n ≠ 0 then none else some .p
  | 2 => if wide ∨ 11 < n then none else some (.f n)
  | 3 => if ¬ wide ∨ n ≠ 0 then none else some .next
  | 4 => if sregWide n = some wide then some (.sreg n) else none
  | 5 => if ¬ wide ∨ 63 < n then none else some (.k n)
  | 6 => if wide ∨ n ≠ 0 then none else some .stateWord
  | 7 => if ¬ wide ∨ 127 < n then none else some (.cone (n / 16) (n % 16))
  | 8 => if wide ∨ n ≠ 0 then none else some .ctx
  | _ => none

/-- CSTAT as it reads: LOST where a cone in use is unbound (R390, R398). -/
def Cone.stat (c : Cone) : Nat :=
  c.cstat.toNat ||| (if ¬ c.bound ∧ bits c.cw.toNat 2 0 ≠ 0 then 2 ^ 34 else 0)
/-- A word of a cone (R405, FILE 7). -/
def Cone.word (c : Cone) : Nat → Nat
  | 0 => c.cw.toNat
  | 1 => c.cmp0.toNat
  | 2 => c.cmp1.toNat
  | 3 => c.stat
  | 4 => c.cwhere.toNat
  | 5 => c.caddr.toNat
  | 6 => c.cval.toNat
  | _ => c.ciaddr.toNat

/-- The thread's next clause is held by the WAIT of its header (R406). -/
def State.hdrHeld (s : State) (tm : Team) (t : Thread) : Bool :=
  match s.ctx? tm.asid with
  | some c => match s.fetchWord c tm.core t.pc.toNat (t.crew == 7) with
    | .ok h => !t.waitMet h
    | _ => false
  | none => false
/-- The released group of a thread waits for a hold slot (R67, R406). -/
def State.slotless (s : State) (id i : Nat) : Bool :=
  s.holds.any fun h => h.team == id && h.members.contains i && !h.slot
/-- The thread waits before issue for room (R73). -/
def State.stalledFor (s : State) (id i : Nat) : Bool := s.issues.any fun x => x.team == id && x.stalled.contains i
/-- STATE of a thread (R406). -/
def State.stateOf (s : State) (tm : Team) (i : Nat) (t : Thread) : Nat :=
  if t.dbg.stepping then 6 else if t.dbg.halted then 2 else
  match t.status with
  | .trapped => 3
  | .idle => 4
  | .ended => 5
  | .joined _ => 1
  | .grouped => b2n (s.slotless tm.id i || s.hdrHeld tm t)
  | .ready => b2n (!t.waits.isEmpty || t.yieldLeft != 0 || s.hdrHeld tm t)
  | _ => b2n (!t.waits.isEmpty || s.stalledFor tm.id i)
/-- The state word (R406). -/
def State.stateWord (s : State) (tm : Team) (i : Nat) (t : Thread) : Nat :=
  s.stateOf tm i t + t.dbg.hcause % 16 * 2 ^ 4 + (if t.dbg.hcause = 3 then t.dbg.cone % 16 * 2 ^ 8 else 0) +
    t.sys.dbgedit.toNat % 2 * 2 ^ 12 + b2n (t.isHalted && t.dbg.inplace) * 2 ^ 13

/-- An item may be read or written of a target (R405, R407): whether it needs the right and a halted target, and the V
register range. -/
def State.itemOk (s : State) (tm : Team) (cr : Crew) (self : Nat) (tgt : Option Nat) (wide : Bool) (it : Item) : Bool :=
  let free := match tgt.bind fun k => tm.threads[k]? with
    | some _ => tgt != some self
    | none => false
  match it with
  | .cone .. | .ctx => true
  | .stateWord => free
  | _ =>
    free && s.hasRight tm && cr.num != 7 && (match tgt.bind fun k => tm.threads[k]? with
      | some u => u.isHalted && (match it with
        | .v n => n + b2n wide < (match tm.crew? u.crew with | some q => q.budget | none => 0)
        | _ => true)
      | none => false)

/-- The value of an item (R405). -/
def State.itemVal (s : State) (tm : Team) (k cc : Nat) (wide : Bool) (it : Item) : Nat :=
  match it, tm.threads[k]? with
  | .cone w n, _ => (tm.cone n).word w
  | .ctx, _ => b2n (s.hasRight tm) + (match s.ctx? tm.asid with | some c => bits c.status.toNat 2 2 * 2 | none => 0)
  | .v n, some u => u.vw wide n
  | .p, some u => (List.range 7).foldl (fun a i => a + b2n (u.p.getD i false) * 2 ^ i) 0
  | .f n, some u => u.f.getD n 0
  | .next, some u => u.pc.toNat
  | .sreg n, some u => s.sysRead tm u cc n
  | .k n, some u => kVal (match tm.crew? u.crew with | some q => q.k | none => []) true n
  | .stateWord, some u => s.stateWord tm k u
  | _, none => 0

/-- INSPR (R407). -/
def execInspr (c : Common) (o : InsprOp) (s : State) : Out :=
  runEach (.inspr c o) (fun x cr t j s =>
    let s := s.armPending x.team j
    match s.team? x.team with
    | some tm =>
      let tgt := tm.selectReg (srcVal cr.k t false o.a)
      match itemOf (srcVal cr.k t false o.b) o.wide with
      | some it =>
        if s.itemOk tm cr j tgt o.wide it then
          s.pushActed x j (.inspr c o) (vPut o.wide o.d.val (s.itemVal tm (tgt.getD j) (x.t0 + x.now) o.wide it)) o.p true
        else s.pushActed x j (.inspr c o) [] o.p false
      | none => s.pushActed x j (.inspr c o) [] o.p false
    | none => s) s

/-- The item may be written with the value (R405, R408). -/
def itemWritable (v : Nat) : Item → Bool
  | .v _ | .p | .k _ => true
  | .sreg n => n == 14
  | .next => v % 8 == 0
  | _ => false

/-- A thread whose next clause is set by a debugger: a waiting instruction at which it halted is abandoned (R408). -/
def State.setNext (s : State) (tm : Team) (k : Nat) (u : Thread) (v : Nat) : State :=
  let place := fun (t : Thread) =>
    { t with
      pc := BitVec.ofNat 64 v, must := none, waits := []
      status := match t.status with | .joined _ | .grouped => .ready | q => q
      dbg := { t.dbg with inplace := false } }
  let s1 := match u.status with
    | .joined n => s.modCrew tm.id u.crew fun q =>
        q.modRejoin u.strand n fun r => { r with arr := r.arr - (r.arr &&& 2 ^ u.lane) }
    | _ => s.leaveGroup tm.id k
  s1.modThr tm.id k place

/-- A KMOV into a K register by a thread, now (R95, R408). -/
def State.kmovBy (s : State) (tm : Team) (k : Nat) (u : Thread) (n : Nat) (v : DWord) : State :=
  let stamp := s.coreCc tm.core + 1
  ((s.modCrew tm.id u.crew fun c => c.writeK s.tick stamp n v).modThr tm.id k fun t =>
    { t with kOwn := tabPut 0 t.kOwn n stamp }).orderK tm.id k [(n, stamp)]
/-- The write of an item (R408). -/
def State.putItem (s : State) (tm : Team) (k : Nat) (u : Thread) (wide : Bool) (v : Nat) : Item → State
  | .v n => s.modThr tm.id k fun t => t.putV (vPut wide n v)
  | .p => s.modThr tm.id k fun t => { t with p := (List.range 7).map fun i => bit v i }
  | .next => s.setNext tm k u v
  | .sreg n => s.modThr tm.id k fun t => { t with sys := t.sys.write n v }
  | .k n => s.kmovBy tm k u n (BitVec.ofNat 64 v)
  | _ => s
/-- DBGEDIT of the thread and of STATUS (R408). -/
def State.markEdit (s : State) (tm : Team) (k : Nat) : State :=
  (s.modThr tm.id k fun t => { t with sys := { t.sys with dbgedit := 1 } }).setStatus tm.asid fun v => v ||| 4

/-- INSPW (R408). -/
def execInspw (c : Common) (o : InspwOp) (s : State) : Out :=
  runEach (.inspw c o) (fun x cr t j s =>
    let s := s.armPending x.team j
    match s.team? x.team with
    | some tm =>
      let tgt := tm.selectReg (srcVal cr.k t false o.a)
      let v := srcVal cr.k t o.wide o.c
      match itemOf (srcVal cr.k t false o.b) o.wide, tgt, tgt.bind fun k => tm.threads[k]? with
      | some it, some k, some u =>
        if s.itemOk tm cr j tgt o.wide it && itemWritable v it then
          ((s.putItem tm k u o.wide v it).markEdit tm k).pushActed x j (.inspw c o) [] o.d true
        else s.pushActed x j (.inspw c o) [] o.d false
      | _, _, _ => s.pushActed x j (.inspw c o) [] o.d false
    | none => s) s

/-! ### STEP -/

/-- A halted thread begins its step; the hold of a pending held clause is dissolved (R69, R409). -/
def State.beginStep (s : State) (tm : Team) (k : Nat) (u : Thread) : State :=
  let s1 := if u.status = .grouped then
      let ms := s.groupMembers tm.id k
      let s0 : State := { s with holds := s.holds.filter fun (h : Hold) => !(h.team == tm.id && h.members.contains k) }
      ms.foldl (fun s m => s.modThr tm.id m fun t => if t.status = .grouped then { t with status := .ready } else t) s0
    else s
  s1.modThr tm.id k fun t =>
    { t with waits := t.waits.map (fun o => { o with waited := false, redo := haltsInPlace o })
             dbg := { t.dbg with stepping := true, stepped := false, inplace := false } }

/-- STEP (R409): refused, it completes with false; else it completes when the step is over. -/
def execStep (c : Common) (o : StepOp) (s : State) : Out :=
  runEach (.step c o) (fun x cr t j s =>
    let s := s.armPending x.team j
    match s.team? x.team with
    | some tm =>
      let tgt := tm.selectReg (srcVal cr.k t false o.a)
      match tgt, tgt.bind fun k => tm.threads[k]? with
      | some k, some u =>
        if k ≠ j ∧ s.hasRight tm ∧ cr.num ≠ 7 ∧ u.isHalted then
          (s.beginStep tm k u).pushOp x j (.step c o) [1, k] fun q => { q with pdst := if o.d.val = 7 then none else some o.d.val }
        else s.pushActed x j (.step c o) [] o.d false
      | _, _ => s.pushActed x j (.step c o) [] o.d false
    | none => s) s

/-- A debug instruction in flight completes (R401, R402, R409). -/
def State.performDebug (s : State) (tm : Team) (i : Nat) (o : Op) : State :=
  let stepDone := match tm.threads[o.vals.getD 1 0]? with | some u => !u.dbg.stepping | none => true
  let fin := fun (s : State) (ws : List (Nat × Word)) =>
    let s1 := match o.pdst with
      | some p => s.modThr tm.id i fun t => t.putP p (o.vals.getD 0 0 == 1)
      | none => s
    s1.completeOp tm.id i o ws
  match o.i, o.res with
  | .coneset _ q, _ => s.performConeset tm i q o
  | _, some ws => fin s ws
  | _, none => if stepDone then fin s [] else s

/-! ### TMARK -/

/-- TMARK (R400, R410): a KIND 4 record for each thread that issues it. -/
def execTmark (c : Common) (o : TmarkOp) (s : State) : Out :=
  runEach (.tmark c o) (fun x _ t _ s => match s.team? x.team with
    | some tm => s.trace tm.core 4 tm.asid t.who (natLe 4 o.cls.toNat ++ natLe 4 o.imm.toNat ++ natLe 8 x.ca.toNat)
    | none => s) s

/-- TRACE_RECORD_WRITE (R399): the oldest record of a core's write queue goes to its ring. -/
def execTraceRecordWrite (core : Fin 96) (s : State) : Out :=
  match s.cores[core.val]? with
  | none => .next s
  | some k =>
    match k.trace.queue with
    | [] => .next s
    | r :: rest =>
      let t := k.trace
      let a := t.base.toNat + 32 * (t.head.toNat % t.size.toNat)
      if t.base = 0 ∨ t.size = 0 then .next (s.modCore core.val fun c => { c with trace := { t with queue := rest } }) else
      let s1 := s.modCore core.val fun c => { c with trace := { t with queue := rest, head := t.head + 1 } }
      .next (if a + 32 ≤ memBytes then s1.store a r else s1)

/-! ### Revocation -/

/-- A thread of a context that loses the debug right (R397, R409). -/
def Thread.revoked (t : Thread) : Thread :=
  { t with dbg := { t.dbg with halted := false, req := none, landed := false, stepping := false, stepped := false, inplace := false } }
/-- A thread of a saved image: the release writes WAKER (R396). -/
def Thread.revokedSaved (t : Thread) : Thread :=
  let t1 : Thread := if t.isHalted then { t with sys := { t.sys with waker := 10 } } else t
  t1.revoked
/-- The debug right of a context is revoked (R397). -/
def State.revoke (s : State) (asid : Nat) : State :=
  let s1 := s.modCtx asid fun c => { c with debug := false }
  let mine := s1.teams.filter fun tm => tm.asid == asid
  let s2 := mine.foldl (fun s tm => (List.range tm.threads.length).foldl (fun s i => s.release1 tm.id i) s) s1
  let s3 := mine.foldl (fun s tm =>
    (s.modTeam tm.id fun tm => { tm with threads := tm.threads.map Thread.revoked }).clearCones tm (List.range 16)) s2
  { s3 with
    saved := s3.saved.map fun (p : SavedSpan) => if p.span.asid = asid then
      { p with teams := p.teams.map fun (tm : Team) =>
          { tm with threads := tm.threads.map Thread.revokedSaved, cones := List.replicate 16 {} } }
      else p }

end Sys2Proof.Machine
end

