-- ==== Sys2Proof/Machine/Link.lean ====
section
/-! DEFINITION. The Fisal Link, chapter 18_host.md: windows and packets (R423, R424), registers (R425), the order of host
accesses (R426), host commands (R428) and counter watches (R430). -/

namespace Sys2Proof.Machine
open Sys2Proof

/-- HERR counts, saturating (R423, R425). -/
def State.countHerr (s : State) : State :=
  { s with host := { s.host with herr := BitVec.ofNat 32 (min (s.host.herr.toNat + 1) (2 ^ 32 - 1)) } }
/-- The link carries a packet: the main side runs. -/
def overLink (f : State → State) (s : State) : Out := .next (if s.mgmt.mainUp then f s else s)

/-! ### Windows -/

/-- Attached memory, the register window and the counter window (R423). -/
def regWindow : Nat := 2 ^ 46
def ctrWindow : Nat := 2 ^ 47
def inMemWindow (a : Nat) : Bool := a < memBytes
def inRegWindow (a : Nat) : Bool := regWindow ≤ a && a < regWindow + 2 ^ 24
def inCtrWindow (a : Nat) : Bool := ctrWindow ≤ a && a < ctrWindow + 2 ^ 15
/-- The smallest power of two at or above n, for n from 1 to 64. -/
def pow2Up (n : Nat) : Nat := if n ≤ 1 then 1 else 2 ^ (Nat.log2 (n - 1) + 1)
/-- A memory access of n bytes that R423 allows. -/
def memAccessOk (a n : Nat) : Bool := inMemWindow a && 1 ≤ n && n ≤ 64 && a % pow2Up n == 0
/-- A register or counter access of 4 or 8 bytes, naturally aligned. -/
def wordAccessOk (a n : Nat) : Bool := (n == 4 || n == 8) && a % n == 0

/-! ### Register reads -/

/-- The fields of the global registers with their bytes (R425); HCMD is write-only. -/
def State.globalFields (s : State) : List (Nat × List Byte) :=
  let h := s.host
  [(0x000, natLe 8 h.ssw.toNat), (0x008, natLe 12 h.ecm), (0x018, natLe 4 h.hseed.toNat), (0x01C, natLe 4 h.herr.toNat),
    (0x028, natLe 8 h.hcmdarg.toNat), (0x030, natLe 8 h.hcmdstat.toNat), (0x040, natLe 8 h.evbase.toNat),
    (0x048, natLe 4 h.evsize.toNat), (0x050, natLe 8 h.evhead.toNat), (0x058, natLe 4 h.plim.toNat),
    (0x05C, natLe 4 h.cecount.toNat), (0x060, natLe 96 h.crm)] ++
  (List.range 64).map fun i =>
    (0x1000 + 16 * i, match h.watch[i]? with
      | some (ctl, th) => natLe 4 ctl.toNat ++ natLe 4 0 ++ natLe 8 th.toNat
      | none => [])
/-- MXCAP (R273): WAKE 96, four arrays, slice mode present. -/
def mxcap : Nat := 0x1460
/-- The fields of the registers of a core (R273, R399, R425, R435). -/
def Core.fields (c : Core) : List (Nat × List Byte) :=
  [(0x00, natLe 4 c.mxgate.toNat), (0x04, natLe 4 mxcap), (0x10, natLe 4 c.trace.ctl.toNat),
    (0x18, natLe 8 c.trace.base.toNat), (0x20, natLe 4 c.trace.size.toNat), (0x28, natLe 8 c.trace.head.toNat),
    (0x30, natLe 4 c.bsw.toNat)]
/-- The byte at an offset among some fields; 0 where no field is (R5, R425). -/
def fieldByte (fs : List (Nat × List Byte)) (a : Nat) : Byte :=
  match fs.find? fun f => f.1 ≤ a && a < f.1 + f.2.length with
  | some f => f.2.getD (a - f.1) 0
  | none => 0
/-- n bytes of the register window. -/
def State.regBytes (s : State) (off n : Nat) : List Byte :=
  let fs := if off < 0x100000 then s.globalFields else
    match s.cores[(off - 0x100000) / 0x1000]? with
    | some c => c.fields
    | none => []
  let base := if off < 0x100000 then off else (off - 0x100000) % 0x1000
  (List.range n).map fun i => fieldByte fs (base + i)

/-! ### Reads -/

/-- Bytes as a host reads them (R161): the poison pattern in each word of a poisoned unit, and whether there is one. -/
def State.hostBytes (s : State) (key n : Nat) : List Byte × Bool :=
  ((List.range n).map fun i =>
    if s.poisoned (key + i) 1 then (natLe 4 poisonWord).getD ((key + i) % 4) 0 else tabGet 0 s.mem (key + i), s.poisoned key n)
/-- The completion of a read (R424). -/
def State.complete (s : State) (o : HostReadOp) (stat : Nat) (data : List Byte) : State :=
  { s with hostOut := s.hostOut ++ [packet 3 stat o.tag.toNat o.len.val o.addr.toNat data] }
/-- A read request is accepted, with its status and data where it has performed (R424). -/
def State.acceptRead (s : State) (o : HostReadOp) (res : Option (Nat × List Byte) := none) : State :=
  { s with hostReads := s.hostReads ++ [⟨o, res⟩] }
/-- A dropped read: zeros with the dropped status (R423). -/
def State.dropRead (s : State) (o : HostReadOp) : State := s.countHerr.acceptRead o (some (1, List.replicate (o.len.val + 1) 0))
/-- The bytes that a read of memory or of the counter window reads; none for another address. -/
def hostKey (a : Nat) : Option Nat :=
  if inCtrWindow a then some (chipKey (a - ctrWindow)) else if inMemWindow a then some a else none
/-- A read performs, after the writes that preceded it on the link: its lines return home (R177, R424). -/
def State.readKey (s : State) (o : HostReadOp) (key : Nat) : State × (Nat × List Byte) :=
  let n := o.len.val + 1
  let s1 := s.recall key n
  let r := s1.hostBytes key n
  (s1, if r.2 then 2 else 0, r.1)
/-- An outstanding read performs, or completes once it has (R424). -/
def State.serveRead (s : State) (r : HostRead) : State :=
  match r.res, hostKey r.o.addr.toNat with
  | some v, _ => ({ s with hostReads := s.hostReads.filter fun q => q.o.tag != r.o.tag }).complete r.o v.1 v.2
  | none, some key =>
    let p := s.readKey r.o key
    { p.1 with hostReads := p.1.hostReads.map fun q => if q.o.tag = r.o.tag then { q with res := some p.2 } else q }
  | none, none => s
/-- One outstanding read goes on, by free bits: reads perform and complete in any order (R424; DESIGN CHOICE, log 92). -/
def State.serveReads (s : State) : State :=
  match ((List.range s.hostReads.length).find? fun k => Config.freeBit s.tick (2 ^ 73 + k)).bind fun k => s.hostReads[k]? with
  | some r => s.serveRead r
  | none => s
/-- A read of n bytes that R423 allows: in the register window its value is read as it is accepted. -/
def State.requestRead (s : State) (o : HostReadOp) : State :=
  let a := o.addr.toNat
  let n := o.len.val + 1
  if inRegWindow a then
    (if wordAccessOk a n then s.acceptRead o (some (0, s.regBytes (a - regWindow) n)) else s.dropRead o)
  else if inCtrWindow a then (if wordAccessOk a n then s.acceptRead o else s.dropRead o)
  else if memAccessOk a n then s.acceptRead o
  else s.dropRead o

/-- HOST_READ_REQUEST (R423, R424): a packet of another type, or a read with a tag that is outstanding, is discarded and
counted. -/
def execHostReadRequest (o : HostReadOp) (s : State) : Out :=
  overLink (fun s => if o.type ≠ 1 ∨ s.hostReads.any (fun r => r.o.tag == o.tag) then s.countHerr else s.requestRead o) s

/-- HOST_COUNTER_READ (R426). -/
def execHostCounterRead (o : HostReadOp) (s : State) : Out :=
  if inCtrWindow o.addr.toNat then execHostReadRequest o s else .next s

/-! ### Register writes -/

/-- PLIM after a write (R441). -/
def clampWatts (v : Nat) : Nat := min (max (v % 2 ^ 16) 300) 950
/-- The field at `off` with the bytes of a write at `w` in it. -/
def mergeField (old : List Byte) (off : Nat) (bs : List Byte) (w : Nat) : List Byte :=
  (List.range old.length).map fun i => if w ≤ off + i ∧ off + i < w + bs.length then bs.getD (off + i - w) 0 else old.getD i 0
/-- A write touches a field. -/
def touches (off len w n : Nat) : Bool := overlap off len w n

/-- A watch entry after a write, which fires at once if its counter is there (R430). -/
def State.putWatch (s : State) (i : Nat) (v : List Byte) : State :=
  let ctl := leNat (v.take 4)
  let s1 := { s with host := { s.host with
    watch := s.host.watch.set i (BitVec.ofNat 32 (ctl % 4096 + ctl / 2 ^ 31 * 2 ^ 31), BitVec.ofNat 64 (fld v 8 8)) } }
  if bit ctl 31 then s1.fireWatches (ctl % 4096) else s1
/-- A write over the watches (R425, R430). -/
def State.writeWatches (s : State) (w : Nat) (bs : List Byte) : State :=
  (List.range 64).foldl (fun s i =>
    let off := 0x1000 + 16 * i
    if touches off 16 w bs.length then
      match s.host.watch[i]? with
      | some (ctl, th) => s.putWatch i (mergeField (natLe 4 ctl.toNat ++ natLe 4 0 ++ natLe 8 th.toNat) off bs w)
      | none => s
    else s) s

/-- A register of the host record takes a value. -/
def State.modHost (s : State) (f : HostRegs → HostRegs) : State := { s with host := f s.host }
/-- One writable field after a write: `v` its bytes with those written, `z` with zeros for those not written (R425, R428). -/
def HostRegs.put (h : HostRegs) (off v z : Nat) : HostRegs :=
  match off with
  | 0x018 => { h with hseed := BitVec.ofNat 32 v }
  | 0x01C => { h with herr := if v = 0 then 0 else h.herr }
  | 0x028 => { h with hcmdarg := BitVec.ofNat 64 v }
  | 0x030 => { h with hcmdstat := if bit z 8 then h.hcmdstat &&& ~~~(0x100 : DWord) else h.hcmdstat }
  | 0x040 => { h with evbase := BitVec.ofNat 64 v }
  | 0x048 => { h with evsize := BitVec.ofNat 32 v }
  | 0x058 => { h with plim := BitVec.ofNat 32 (clampWatts v) }
  | 0x05C => { h with cecount := if v = 0 then 0 else h.cecount }
  | _ => h
/-- The writable global fields but the watches and HCMD. -/
def writableFields : List (Nat × Nat) :=
  [(0x018, 4), (0x01C, 4), (0x028, 8), (0x030, 8), (0x040, 8), (0x048, 4), (0x058, 4), (0x05C, 4)]
/-- A write of the global registers but HCMD. -/
def State.writeGlobal (s : State) (w : Nat) (bs : List Byte) : State :=
  let fs := s.globalFields
  (writableFields.foldl (fun s f =>
    if touches f.1 f.2 w bs.length then
      let old := (List.range f.2).map fun i => fieldByte fs (f.1 + i)
      s.modHost fun h => h.put f.1 (leNat (mergeField old f.1 bs w)) (leNat (mergeField (List.replicate f.2 0) f.1 bs w))
    else s) s).writeWatches w bs
/-- One writable field of a core after a write (R273, R399). -/
def Core.put (c : Core) (off v : Nat) : Core :=
  match off with
  | 0x00 => { c with mxgate := BitVec.ofNat 32 (v % 2 ^ 16) }
  | 0x10 => { c with trace := { c.trace with ctl := BitVec.ofNat 32 (v % 2 ^ 12 + v / 2 ^ 16 * 2 ^ 16) } }
  | 0x18 => { c with trace := { c.trace with base := BitVec.ofNat 64 v } }
  | 0x20 => { c with trace := { c.trace with size := BitVec.ofNat 32 v } }
  | _ => c
/-- A write of the registers of a core. -/
def Core.write (c : Core) (w : Nat) (bs : List Byte) : Core :=
  c.fields.foldl (fun d f => if touches f.1 f.2.length w bs.length then d.put f.1 (leNat (mergeField f.2 f.1 bs w)) else d) c
/-- A write of the register window but HCMD. -/
def State.regPut (s : State) (off : Nat) (bs : List Byte) : State :=
  if off < 0x100000 then s.writeGlobal off bs
  else s.modCore ((off - 0x100000) / 0x1000) fun c => c.write ((off - 0x100000) % 0x1000) bs

/-! ### Host commands -/

/-- BUSY of HCMDSTAT. -/
def State.busy (s : State) : Bool := s.host.hcmdstat.getLsbD 0
/-- The fields of a context record (R356). -/
def recOf (bs : List Byte) : CtxRec where
  ptroot := fld bs 0 8
  asid := fld bs 8 2
  sysn := fld bs 10 1
  sysb := fld bs 11 1
  seed := fld bs 12 4
  hentry := BitVec.ofNat 64 (fld bs 16 8)
  chipbase := fld bs 24 4
  chipsz := fld bs 28 4
  vlog := fld bs 32 8
  gtb := fld bs 40 8
  ntb := fld bs 48 8
  lqb := fld bs 56 8
  lqn := fld bs 64 1
  sqb := fld bs 66 2
  sqn := fld bs 68 2
  psc := fld bs 70 2
  tctr := fld bs 72 2
  dqb := fld bs 76 4
  peert := fld bs 80 8
  psr := fld bs 88 8
  psn := fld bs 96 4
  sas := fld bs 100 4
  sab := fld bs 104 8
  sac := fld bs 112 4
/-- A record that keeps every range of R356 (with R192 and R350), its reserved bytes zero. -/
def recOk (bs : List Byte) : Bool :=
  let r := recOf bs
  fld bs 65 1 == 0 && fld bs 74 2 == 0 && fld bs 116 4 == 0 && fld bs 136 120 == 0 &&
  r.ptroot % 4096 == 0 && r.asid ≤ 511 && 1 ≤ r.sysn && r.sysn ≤ 64 && 1 ≤ r.sysb && r.sysb ≤ 32 &&
  r.hentry.toNat % 8 == 0 && r.chipbase % 65536 == 0 && r.chipsz % 65536 == 0 && r.vlog % 64 == 0 && r.gtb % 256 == 0 &&
  r.lqn ≤ 16 && r.sqb ≤ 4095 && 1 ≤ r.sqn && r.sqn + r.sqb ≤ 4096 && r.psc < r.sqn && r.tctr < r.sqn && r.dqb % 4096 == 0 &&
  r.peert % 16 == 0 && r.psr % 64 == 0 && 1 ≤ r.psn && r.psn ≤ 65536 && 2 ^ Nat.log2 r.psn == r.psn && r.sas % 65536 == 0 &&
  r.sab % 65536 == 0 && r.sac ≤ 2 ^ 20
/-- The allocation lies in the segment and holds no retired block (R356, R428, R436). -/
def chipOk (crm : Nat) (r : CtxRec) : Bool :=
  65536 ≤ r.chipbase && r.chipbase + r.chipsz ≤ 48 * 2 ^ 20 &&
    (List.range (r.chipsz / 65536)).all fun i => !bit crm (r.chipbase / 65536 + i)
/-- The allocation of a context overlaps another's. -/
def chipClash (r : CtxRec) (c : Context) : Bool := overlap r.chipbase r.chipsz c.r.chipbase c.r.chipsz
/-- The RESULT of REGISTER (R428). -/
def State.registerResult (s : State) (pa : Nat) : Nat :=
  if pa % 256 ≠ 0 ∨ memBytes < pa + 256 ∨ s.poisoned pa 256 ∨ ¬ recOk (s.bytes pa 256) then 1 else
  let r := recOf (s.bytes pa 256)
  if (s.ctx? r.asid).isSome then 2
  else if ¬ chipOk s.host.crm r then 3
  else if s.ctxs.any (chipClash r) then 10
  else 0
/-- Zeros, no poison and tags of 0 in a chip allocation (R148, R428). -/
def State.clearChip (s : State) (off n : Nat) : State :=
  let gone := fun (k : Nat) => decide (chipKey off ≤ k ∧ k < chipKey off + n)
  { s.zero (chipKey off) n with
    bad := s.bad.filter fun (c : Nat × Bool) => !gone c.1, tags := s.tags.filter fun (c : Nat × Nat) => !gone c.1 }
/-- REGISTER of a record that passed its checks (R356, R428). -/
def State.makeLive (s : State) (pa : Nat) : State :=
  let r := recOf (s.bytes pa 256)
  let s1 := ((s.store (pa + 120) (natLe 16 0)).clearChip r.chipbase r.chipsz).glzForget r.asid
  { s1 with ctxs := s1.ctxs ++ [{ r := r, recAddr := pa, status := 0, psCount := 0, debug := false, psq := [], began := s.tick }] }

/-- The span a PREEMPT names (R428). -/
def State.spanNamed (s : State) (asid harg : Nat) : Option Span :=
  s.spans.find? fun p => p.asid == asid && p.ix == bits harg 51 32 &&
    s.teams.any fun tm => tm.span == p.id && tm.lotid == harg % 2 ^ 32

/-- The first n bytes of a digest or a signature. -/
def fixedBytes (n : Nat) (bs : List Byte) : List Byte := (List.range n).map fun i => bs.getD i 0
/-- The signed bytes of the attestation report (R439): DESIGN CHOICE, log 10, for what the keys and the firmware are. -/
def State.reportHead (s : State) (nonce : List Byte) : List Byte :=
  nonce ++ fixedBytes 48 (Config.sha384 s.mgmt.fw) ++ fixedBytes 48 (Config.sha384 Config.identityKeys) ++ natLe 8 s.host.ssw.toNat ++ natLe 12 s.host.ecm ++ natLe 4 0
/-- The report with its two signatures (R439). -/
def State.report (s : State) (nonce : List Byte) : List Byte :=
  let h := s.reportHead nonce
  h ++ fixedBytes 384 (Config.rsaSign h) ++ fixedBytes 16224 (Config.slhSign h)

/-- The effect of a command as it starts, with what HOST_COMMAND_COMPLETE needs (R428). -/
def State.runCmd (s : State) (op arg harg : Nat) : State × HostCmd :=
  let c : HostCmd := { op := op, arg := arg, harg := harg, result := 0, asid := if arg < 512 then arg else 0xFFFF }
  let fail := fun (n : Nat) => (s, { c with result := n })
  match op with
  | 1 =>
    let r := s.registerResult harg
    if r = 0 then (s.makeLive harg, { c with asid := (recOf (s.bytes harg 256)).asid }) else (s, { c with result := r, asid := 0xFFFF })
  | 2 => if (s.ctx? arg).isNone then fail 4 else
    (s.modCtx arg fun x => if x.status.toNat % 4 = 0 then { x with term := some (3, 0, 0) } else x, c)
  | 3 =>
    match s.ctx? arg, s.spanNamed arg harg with
    | some x, some p =>
      if (s.slotsFor x p.teams.length).isNone then fail 5
      else (s.modSpan p.id fun p => if p.saving.isSome then p else { p with want := true }, { c with span := p.id })
    | _, _ => fail 4
  | 4 => if (s.ctx? arg).isNone then fail 4 else (s.modCtx arg fun x => { x with debug := true }, c)
  | 5 => if (s.ctx? arg).isNone then fail 4 else (s.revoke arg, c)
  | 6 =>
    match s.ctx? arg with
    | none => fail 4
    | some x =>
      if x.status.toNat % 4 ≠ 2 then fail 6 else
      let s1 := ((s.flushCtx x).dropTlb arg none).glzForget arg
      ({ s1 with ctxs := s1.ctxs.filter fun (y : Context) => y.r.asid != arg }, c)
  | 7 =>
    if Config.freeBit s.tick 40 ∨ memBytes < harg + 16760 then (s, { c with result := 8, asid := 0xFFFF }) else
    (s.store harg (s.report (s.bytes harg 32)), { c with asid := 0xFFFF })
  | 8 =>
    if 4095 < arg then (s, { c with result := 9, asid := 0xFFFF }) else (s.setCounter arg harg, { c with asid := 0xFFFF })
  | 9 =>
    if (s.ctx? arg).isNone then fail 4
    else if bits harg 15 1 ≠ 0 ∨ bits harg 63 57 ≠ 0 then fail 11
    else (s.dropTlb arg (if bit harg 0 then none else some (bits harg 56 16 * 2 ^ 16)), c)
  | _ => (s, { c with result := 7, asid := 0xFFFF })

/-- A write of HCMD (R428): a command starts, or is dropped while one runs. -/
def State.hcmdWrite (s : State) (op arg : Nat) : State :=
  if s.busy then s.modHost fun h => { h with hcmdstat := h.hcmdstat ||| 0x100 } else
  let r := (s.modHost fun h => { h with hcmdstat := h.hcmdstat ||| 1 }).runCmd op arg s.host.hcmdarg.toNat
  { r.1 with hcmd := some r.2 }

/-- REGISTER (R428). -/
def execRegister (o : HcmdOp) (s : State) : Out := overLink (fun s => s.hcmdWrite 1 o.arg.toNat) s
/-- TERMINATE (R428). -/
def execTerminate (o : HcmdOp) (s : State) : Out := overLink (fun s => s.hcmdWrite 2 o.arg.toNat) s
/-- PREEMPT (R428). -/
def execPreempt (o : HcmdOp) (s : State) : Out := overLink (fun s => s.hcmdWrite 3 o.arg.toNat) s
/-- DEBUGON (R392, R428). -/
def execDebugon (o : HcmdOp) (s : State) : Out := overLink (fun s => s.hcmdWrite 4 o.arg.toNat) s
/-- DEBUGOFF (R397, R428). -/
def execDebugoff (o : HcmdOp) (s : State) : Out := overLink (fun s => s.hcmdWrite 5 o.arg.toNat) s
/-- RETIRE (R428). -/
def execRetire (o : HcmdOp) (s : State) : Out := overLink (fun s => s.hcmdWrite 6 o.arg.toNat) s
/-- ATTEST (R428, R439). -/
def execAttest (o : HcmdOp) (s : State) : Out := overLink (fun s => s.hcmdWrite 7 o.arg.toNat) s
/-- SETCTR (R428). -/
def execSetctr (o : HcmdOp) (s : State) : Out := overLink (fun s => s.hcmdWrite 8 o.arg.toNat) s
/-- INVTLB (R428). -/
def execInvtlb (o : HcmdOp) (s : State) : Out := overLink (fun s => s.hcmdWrite 9 o.arg.toNat) s
/-- A command with an unlisted OP (R428). -/
def execHcmdUnknown (op : Fin 16) (o : HcmdOp) (s : State) : Out :=
  overLink (fun s => if 1 ≤ op.val ∧ op.val ≤ 9 then s else s.hcmdWrite op.val o.arg.toNat) s
/-- HCMD_BUSY_DROP (R428): a write of HCMD while a command runs sets OVR. -/
def execHcmdBusyDrop (_ : BitVec 64) (s : State) : Out :=
  overLink (fun s => if s.busy then s.modHost fun h => { h with hcmdstat := h.hcmdstat ||| 0x100 } else s) s

/-- The RESULT of the running command once it may complete (R428). -/
def State.cmdResult (s : State) (c : HostCmd) : Option Nat :=
  if c.result ≠ 0 then some c.result else
  match c.op with
  | 2 => match s.ctx? c.arg with
    | some x => if x.status.toNat % 4 = 2 then some 0 else none
    | none => some 0
  | 3 =>
    if c.saved then some 0
    else match s.spans.find? fun p => p.id == c.span with
      | some p => if p.want || p.saving.isSome then none else some 5
      | none => some 4
  | _ => some 0
/-- HCMDSTAT at completion: RESULT, SEQ + 1 and BUSY 0 in one step (R428). -/
def statDone (v : DWord) (result : Nat) : DWord :=
  BitVec.ofNat 64 (result % 16 * 2 ^ 4 + b2n (v.getLsbD 8) * 2 ^ 8 + (v.toNat / 2 ^ 32 + 1) % 2 ^ 32 * 2 ^ 32)
/-- HOST_COMMAND_COMPLETE (R428, R429). -/
def execHostCommandComplete (s : State) : Out :=
  match s.hcmd with
  | none => .next s
  | some c =>
    match s.cmdResult c with
    | none => .next s
    | some r =>
      let v := statDone s.host.hcmdstat r
      .next ({ s with hcmd := none, host := { s.host with hcmdstat := v } }.hostEvent 3 c.asid (v.toNat / 2 ^ 32) v.toNat)

/-! ### Writes by register -/

/-- A write of 4 or 8 bytes to the register window (R423, R425, R428). -/
def State.regWrite (s : State) (off : Nat) (bs : List Byte) : State :=
  if ¬ wordAccessOk off bs.length ∨ 2 ^ 24 < off + bs.length then s.countHerr
  else if touches 0x020 8 off bs.length then
    (if bs.length = 8 then s.hcmdWrite (leNat bs % 16) (leNat bs / 2 ^ 32) else s.countHerr)
  else s.regPut off bs

/-! ### Writes -/

/-- A write of the counter window (R423, R426): 8 bytes add, saturating; a 4-byte write is dropped. -/
def State.ctrWrite (s : State) (a : Nat) (bs : List Byte) : State :=
  if bs.length ≠ 8 ∨ a % 8 ≠ 0 then s.countHerr
  else if s.poisoned (chipKey (a - ctrWindow)) 8 then s
  else s.addCounter ((a - ctrWindow) / 8) (leNat bs)
/-- HOST_MEMORY_WRITE (R423, R426): a write packet. In the memory window it performs at its home slice; in another window it acts
as that window's writes do; elsewhere it is dropped. -/
def execHostMemoryWrite (o : HostWriteOp) (s : State) : Out :=
  overLink (fun s =>
    let a := o.addr.toNat
    if inRegWindow a then s.regWrite (a - regWindow) o.data
    else if inCtrWindow a then s.ctrWrite a o.data
    else if memAccessOk a o.data.length then s.store a o.data
    else s.countHerr) s
/-- HOST_COUNTER_ADD (R423, R426). -/
def execHostCounterAdd (o : HostWriteOp) (s : State) : Out :=
  overLink (fun s => if inCtrWindow o.addr.toNat then s.ctrWrite o.addr.toNat o.data else s) s

/-- REGISTER_WRITE (R425). -/
def execRegisterWrite (o : RegWriteOp) (s : State) : Out :=
  overLink (fun s => s.regWrite o.off (natLe (if o.wide then 8 else 4) o.val.toNat)) s
/-- HERR_WRITE (R425). -/
def execHerrWrite (v : BitVec 32) (s : State) : Out := overLink (fun s => s.regWrite 0x01C (natLe 4 v.toNat)) s
/-- CECOUNT_WRITE (R425). -/
def execCecountWrite (v : BitVec 32) (s : State) : Out := overLink (fun s => s.regWrite 0x05C (natLe 4 v.toNat)) s
/-- HCMDSTAT_WRITE (R428). -/
def execHcmdstatWrite (v : BitVec 64) (s : State) : Out := overLink (fun s => s.regWrite 0x030 (natLe 8 v.toNat)) s
/-- WATCH_WRITE (R430): a write of 4 or 8 bytes in an entry. -/
def execWatchWrite (o : WatchOp) (s : State) : Out :=
  overLink (fun s =>
    if 16 < o.off.val + o.data.length then s.countHerr else s.regWrite (0x1000 + 16 * o.n.val + o.off.val) o.data) s
/-- PLIM_WRITE (R441): by the host, or by the Dolmir port, which writes the same register. -/
def execPlimWrite (v : BitVec 32) (s : State) : Out :=
  .next (s.modHost fun h => { h with plim := BitVec.ofNat 32 (clampWatts v.toNat) })

end Sys2Proof.Machine
end

