-- ==== Sys2Proof/Machine/Start.lean ====
section
/-! DEFINITION. Peers, start-up, the Dolmir port and the power limiter, chapter 18_host.md (R431 to R441). -/

namespace Sys2Proof.Machine
open Sys2Proof

/-! ### Incoming peer requests -/

/-- Bytes a peer reads, free where they are poisoned (R161): DESIGN CHOICE, log 7. -/
def State.peerBytes (s : State) (key n : Nat) : List Byte :=
  (List.range n).map fun i => if s.poisoned (key + i) 1 then Config.freeByte s.tick i else tabGet 0 s.mem (key + i)

/-- What the request needs of the leaf, its size and its KIND bits (R143, R364). -/
def peerNeeds : PeerKind → AccKind × Nat × Nat
  | .load n => (.rd, n, 0)
  | .store d => (.wr, d.length, 1)
  | .atom _ ty _ => (.at, if atWide ty then 8 else 4, 4)
  | .cas w _ _ => (.at, if w then 8 else 4, 4)
/-- An atomic is naturally aligned (R141). -/
def peerAligned (k : PeerKind) (a : Nat) : Bool :=
  match k with
  | .load _ | .store _ => true
  | _ => a % (peerNeeds k).2.1 == 0

/-- An atomic of a peer at the home slice, which recalls the line first (R177, R433): no write where the bytes are poisoned. -/
def State.peerAtom (s0 : State) (pa n : Nat) (f : Nat → Option Nat) : State × PeerResp :=
  let s := s0.recall pa n
  let bad := s.poisoned pa n
  let r : PeerResp := ⟨true, bad, s.peerBytes pa n⟩
  if bad then (s, r) else
  match f (s.read pa n) with
  | some v => (s.store pa (natLe n v), r)
  | none => (s, r)
/-- The response to two requests made as one. -/
def PeerResp.join (a b : PeerResp) : PeerResp := ⟨a.ok && b.ok, a.bad || b.bad, a.data ++ b.data⟩
/-- A load or a store performs line by line at the physical addresses of its pieces (R433): `d` are a store's bytes. -/
def State.peerPieces (s : State) (d : Option (List Byte)) : List (Nat × Nat) → State × PeerResp
  | [] => (s, ⟨true, false, []⟩)
  | (pa, n) :: rest =>
    let one : State × PeerResp := match d with
      | none => (s.recall pa n, ⟨true, s.poisoned pa n, s.peerBytes pa n⟩)
      | some bs => (s.store pa (bs.take n), ⟨true, false, []⟩)
    let more := one.1.peerPieces (d.map (·.drop n)) rest
    (more.1, one.2.join more.2)
/-- The request performs at the physical addresses of its pieces (R433); an atomic has one. -/
def State.peerPerform (s : State) (ps : List (Nat × Nat)) : PeerKind → State × PeerResp
  | .load _ => s.peerPieces none ps
  | .store d => s.peerPieces (some d) ps
  | .atom fn ty b => s.peerAtom (ps.headD (0, 0)).1 (if atWide ty then 8 else 4) fun m => some (atomVal fn ty m b)
  | .cas w b c => s.peerAtom (ps.headD (0, 0)).1 (if w then 8 else 4) (casVal b c)
/-- The physical pieces of a request, line by line, each translated (R143); or the first that cannot be, with its address. An
address past bit 48 wraps. -/
def State.peerXlate (s : State) (c : Context) (k : AccKind) : List (Nat × Nat) → Except (Nat × XRes) (List (Nat × Nat))
  | [] => .ok []
  | (a, n) :: rest =>
    match s.xlate c none (a % 2 ^ 49) k false with
    | .ok pa => (s.peerXlate c k rest).map fun l => (pa, n) :: l
    | r => .error (a % 2 ^ 49, r)

/-- An incoming request is run in its context (R433): a response, or a wait for a page. -/
def State.peerServe (s : State) (o : PeerOp) : State :=
  let respond := fun (s : State) (r : PeerResp) => { s with peerOut := s.peerOut ++ [r] }
  let a := o.addr % 2 ^ 49
  match s.ctx? o.tasid.val with
  | none => respond s ⟨false, false, []⟩
  | some c =>
    let viol := fun (a n : Nat) => respond (s.logViol o.tasid.val { addr := a, code := n, agent := 12 }) ⟨false, false, []⟩
    if ¬ peerAligned o.kind a then viol a 8 else
    let needs := peerNeeds o.kind
    match s.peerXlate c needs.1 (lineSpans a needs.2.1) with
    | .ok ps => let r := s.peerPerform ps o.kind; respond r.1 r.2
    | .error (b, .viol n) => viol b n
    | .error (b, _) =>
      let r := s.pageService o.tasid.val b needs.2.2 255 0
      { r.1 with peerWait := r.1.peerWait ++ [(o, r.2)] }

/-- PEER_REQUEST_INCOMING (R433). -/
def execPeerRequestIncoming (o : PeerOp) (s : State) : Out := .next (if s.mgmt.mainUp then s.peerServe o else s)

/-- The page of a waiting request has been serviced, or its context is gone (R364, R433). -/
def State.peerDue (s : State) (w : PeerOp × Nat) : Bool :=
  match s.ctx? w.1.tasid.val with
  | some c => w.2 ≤ s.counter (c.r.sqb + c.r.psc)
  | none => true
/-- The requests whose page has been serviced run again. -/
def State.retryPeers (s : State) : State :=
  let due := s.peerWait.filter s.peerDue
  due.foldl (fun s w => s.peerServe w.1) { s with peerWait := s.peerWait.filter fun (w : PeerOp × Nat) => !s.peerDue w }

/-- The peer ports whose links are up take a bit. -/
def State.setPort (s : State) (port : Nat) (up : Bool) : State :=
  { s with mgmt := { s.mgmt with ports := if up then s.mgmt.ports ||| 2 ^ port else s.mgmt.ports - (s.mgmt.ports &&& 2 ^ port) } }
/-- A request in flight on a port loses its route with the port's link. -/
def Op.unroute (port : Nat) (o : Op) : Op :=
  match o.route with
  | some r => if r.port = port then { o with route := none } else o
  | none => o
/-- PEER_LINK_DOWN (R432): the requests in flight on the port receive an error response, and later ones hash over the remaining
ports. -/
def execPeerLinkDown (port : Fin 16) (s : State) : Out :=
  let s1 := s.setPort port.val false
  .next { s1 with
    teams := s1.teams.map fun (tm : Team) => { tm with threads := tm.threads.map fun t =>
      { t with pend := t.pend.map (Op.unroute port.val) } } }
/-- PEER_LINK_UP (R432). -/
def execPeerLinkUp (port : Fin 16) (s : State) : Out := .next (if s.mgmt.mainUp then s.setPort port.val true else s)

/-! ### Start-up -/

/-- The main side without power or in reset: what the standby side keeps stays (R434, R440). -/
def State.mainOff (s : State) : State :=
  { State.reset with
    agenda := s.agenda, tick := s.tick, nextId := s.nextId, hostMem := s.hostMem, hostOut := s.hostOut, peerOut := s.peerOut
    cores := List.replicate 96 { Core.reset with on := false }
    host := { HostRegs.reset with ssw := 0, ecm := 0 }
    mgmt := { s.mgmt with boot := none, mainUp := false, linkUp := false, ports := 0, clock := 64 } }

/-- The highest alternate level of a step (R434); step 9 is skipped at any level. -/
def altMax : Nat → Nat
  | 3 | 4 | 6 | 7 | 8 => 1
  | 5 => 2
  | 9 => 2 ^ 8
  | _ => 0
/-- The level at which a step runs under a start record (R434). -/
def StartRec.level (r : StartRec) (n : Nat) : Nat := if r.last = n then r.altlvl else 0
/-- Step 1 reads the start record (R434). -/
def StartRec.begin (r : StartRec) : StartRec :=
  let r1 := { r with starts := (r.starts + 1) % 2 ^ 32 }
  if r.cur = 0 then r1 else
  { r1 with
    altlvl := (if r.last = r.cur then r.altlvl + 1 else 1) % 256, last := r.cur, fails := min 255 (r.fails + 1) }
/-- Start-up stops after step 1 (R434). -/
def StartRec.stuck (r : StartRec) : Bool := 8 ≤ r.fails || (r.last != 0 && altMax r.last < r.altlvl)

/-- SSW of a start (R437) with the last step completed: a step that has not run shows in none of its fields. -/
def sswOf (r : StartRec) (step ncores repairs : Nat) (done mgmtOnly l2deg : Bool) : Nat :=
  let lv := fun n => if n ≤ step then r.level n else 0
  step + b2n done * 2 ^ 4 + b2n mgmtOnly * 2 ^ 5 + b2n (lv 3 != 0) * 2 ^ 6 + b2n (lv 4 != 0) * 2 ^ 7 +
  lv 5 % 4 * 2 ^ 8 + b2n (lv 8 != 0) * 2 ^ 10 + b2n (lv 9 != 0) * 2 ^ 11 + b2n l2deg * 2 ^ 12 +
  ncores % 128 * 2 ^ 13 + min repairs 4095 * 2 ^ 20 + r.last % 16 * 2 ^ 32 + min r.altlvl 15 * 2 ^ 36

/-- A start begins (R434): the main side is off, and step 1 reads the record; it stops there, or goes on to step 2. -/
def State.startUp (s : State) (o : StartOp) : State :=
  let s1 := s.mainOff
  let r := s1.mgmt.start.begin
  if r.stuck then
    { s1 with
      host := { s1.host with ssw := BitVec.ofNat 64 (sswOf r 1 0 s1.mgmt.repairs.length false true false) }
      mgmt := { s1.mgmt with start := r } }
  else { s1 with mgmt := { s1.mgmt with start := { r with cur := 2 }, boot := some (2, o) } }

/-! ### Repairs -/

/-- CORE, UNIT, BANK, SPARE and ROW of a repair-table entry (R435). -/
def repCore (e : DWord) : Nat := bits e.toNat 7 0
def repUnit (e : DWord) : Nat := bits e.toNat 15 8
def repBank (e : DWord) : Nat := bits e.toNat 23 16
def repSpare (e : DWord) : Nat := bits e.toNat 31 24
def repRow (e : DWord) : Nat := bits e.toNat 47 32
/-- Two rows share their spares: those of one lane or bank of a core, or of one slice (R435, R436). -/
def sameBank (a b : DWord) : Bool :=
  repBank a == repBank b && (if repUnit a < 2 then repUnit b == repUnit a && repCore b == repCore a else 2 ≤ repUnit b)
/-- Two entries name one row. -/
def sameRow (a b : DWord) : Bool := sameBank a b && repUnit a == repUnit b && repRow a == repRow b
/-- An entry names a row that there is: of a lane or bank of a core, or of a slice (R435, R436). -/
def rowOk (e : DWord) : Bool :=
  if repUnit e < 2 then repCore e < 96 && repBank e < 64 && repRow e < (if repUnit e = 0 then 256 else 1024)
  else repUnit e < 4 && repCore e == 255 && repBank e < 48
/-- The spare rows for a row: 4 of its lane or bank, or 8 of its slice (R435, R436). -/
def sparesFor (e : DWord) : Nat := if repUnit e < 2 then 4 else 8
/-- A failing row is mapped to a spare and appended to the table, which holds 4096 entries (R435, R436); a row that has no
spare, or is mapped already, is not. DESIGN CHOICE (log 128): the spare it names if that is unused, else the lowest unused one. -/
def addRepair (table : List DWord) (e : DWord) : List DWord :=
  let used := (table.filter (sameBank e)).map repSpare
  let spares := (repSpare e :: List.range (sparesFor e)).filter fun n => n < sparesFor e ∧ n ∉ used
  match spares.head? with
  | some n =>
    if table.any (sameRow e) ∨ 4096 ≤ table.length ∨ ¬ rowOk e then table else
    table ++ [BitVec.ofNat 64 (e.toNat % 2 ^ 24 + n * 2 ^ 24 + repRow e * 2 ^ 32)]
  | none => table
/-- The failing rows that the tests of step 6 or 7 of a start find; none where they are skipped (R434 to R436). -/
def failingRows (r : StartRec) (o : StartOp) (step : Nat) : List DWord :=
  if r.level step ≠ 0 then [] else o.repairs.filter fun e => rowOk e && (decide (repUnit e < 2) == (step == 6))
/-- Those of them that have no spare. -/
def unspared (r : StartRec) (o : StartOp) (step : Nat) (table : List DWord) : List DWord :=
  (failingRows r o step).filter fun e => !table.any (sameRow e)
/-- The cores that a start enables (R435): those the outcome has, but for one with a fifth failing row in a lane or bank. -/
def enabledCores (r : StartRec) (o : StartOp) (table : List DWord) : Nat :=
  let lost := unspared r o 6 table
  ((List.range 96).filter fun k => bit o.ecm k && !lost.any fun e => repCore e == k).foldl (fun m k => m + 2 ^ k) 0
/-- BSW of a core (R435): passes unless a row found no spare, DISABLED, SKIPPED, and the rows of the register file and of the
scratchpad that the table repairs. -/
def bswOf (r : StartRec) (o : StartOp) (table : List DWord) (k : Nat) : Word :=
  let v := ((o.bsw[k]?).getD 0).toNat
  let lost := fun u => (unspared r o 6 table).any fun e => repCore e == k && repUnit e == u
  let rep := fun u => min 255 (table.filter fun e => repCore e == k && repUnit e == u).length
  BitVec.ofNat 32 (b2n (bit v 0 && !lost 0) + b2n (bit v 1 && !lost 1) * 2 + b2n (!bit (enabledCores r o table) k) * 4 +
    b2n (r.level 6 != 0) * 8 + rep 0 * 16 + rep 1 * 2 ^ 12)
/-- The 64 KiB blocks of the chip scratchpad that hold a row with no spare (R436). DESIGN CHOICE (log 128): row n of a slice is
bytes 64·n to 64·n + 63 of its segment. -/
def retiredBlocks (r : StartRec) (o : StartOp) (table : List DWord) : Nat :=
  (((unspared r o 7 table).filter fun e => repUnit e == 3).map fun e => 16 * repBank e + repRow e / 1024 % 16).eraseDups.foldl
    (fun m b => m + 2 ^ b) 0
/-- The ways that a slice has lost (R436). -/
def lostWays (r : StartRec) (o : StartOp) (table : List DWord) (slice : Nat) : Nat :=
  (((unspared r o 7 table).filter fun e => repUnit e == 2 && repBank e == slice).map fun e =>
    (Config.l2Way slice (repRow e)).val).eraseDups.length
/-- Step 7 passes (R436): every slice keeps 8 of its 16 ways (R13), and the counters' block is not retired. -/
def step7Ok (r : StartRec) (o : StartOp) (table : List DWord) : Bool :=
  (List.range 48).all (fun k => decide (lostWays r o table k ≤ 8)) && !bit (retiredBlocks r o table) 0
/-- The repair table as a step leaves it (R435, R436). -/
def repairsAfter (r : StartRec) (o : StartOp) (step : Nat) (table : List DWord) : List DWord :=
  if step = 6 ∨ step = 7 then (failingRows r o step).foldl addRepair table else table
/-- The enabled cores of a mask. -/
def coresIn (ecm : Nat) : Nat := ((List.range 96).filter fun k => bit ecm k).length

/-- Step 10 (R434, R437): the main side is up. -/
def State.startDone (s : State) (o : StartOp) : State :=
  let r := s.mgmt.start
  let table := s.mgmt.repairs
  let ecm := enabledCores r o table
  let crm := retiredBlocks r o table
  let deg := crm != 0 || (List.range 48).any fun k => lostWays r o table k != 0
  let r1 := { r with cur := 0, fails := 0 }
  { s with
    cores := (List.range 96).map fun k => { Core.reset with on := bit ecm k, bsw := bswOf r o table k }
    host := { HostRegs.reset with
      ssw := BitVec.ofNat 64 (sswOf r1 10 (coresIn ecm) table.length true false deg), ecm := ecm, crm := crm }
    mgmt := { s.mgmt with start := r1, boot := none, mainUp := true, ports := if r.level 9 = 0 then 0xFFFF else 0 } }

/-- The check of step 3 on an image (R438): both keys are the fused ones, both signatures verify, and its security version is
at least the fused minimum. -/
def imagePasses (x : FwImage) : Bool :=
  Config.sha384 x.keyRsa == Config.fuses.rsaHash && Config.sha384 x.keySlh == Config.fuses.slhHash &&
  Config.rsaVerifies x.keyRsa x.bytes x.sigRsa && Config.slhVerifies x.keySlh x.bytes x.sigSlh &&
  decide (Config.fuses.minVersion ≤ x.version)
/-- The image that step 3 verifies (R434): slot A, at level 1 slot B. -/
def StartRec.image (r : StartRec) (o : StartOp) : FwImage := if r.level 3 = 0 then o.slotA else o.slotB

/-- The step of a start in progress ends well, and the next begins (R434). Step 3 passes only where its image does (R438),
and step 7 only as R436 says. -/
def State.bootStep (s : State) : State :=
  match s.mgmt.boot with
  | none => s
  | some (n, o) =>
    let x := s.mgmt.start.image o
    let table := repairsAfter s.mgmt.start o n s.mgmt.repairs
    if n = 3 ∧ ¬ imagePasses x ∨ n = 7 ∧ ¬ step7Ok s.mgmt.start o table then s
    else if n = 10 then s.startDone o
    else
      { s with mgmt := { s.mgmt with
        start := { s.mgmt.start with cur := n + 1 }, boot := some (n + 1, o), linkUp := s.mgmt.linkUp || n == 8
        repairs := table, fw := if n = 3 then x.bytes else s.mgmt.fw } }

/-- POWER_ON (R434): a start from step 1 under the start record. -/
def execPowerOn (o : StartOp) (s : State) : Out := .next (s.startUp o)
/-- POWER_LOSS (R434): the main side is lost, and the step in progress has failed: CUR still names it. -/
def execPowerLoss (s : State) : Out :=
  let s1 := s.mainOff
  .next { s1 with mgmt := { s1.mgmt with thermtrip := false, dyn := none, ptr := 0 } }
/-- STARTUP_STEP_FAIL (R434): a failed check of the step in progress resets the main side, and a new start begins. The check
of step 3 fails exactly where its image does not pass (R438). -/
def execStartupStepFail (step : Fin 11) (o : StartOp) (s : State) : Out :=
  match s.mgmt.boot with
  | some (n, q) => .next (if n = step.val ∧ ¬ (n = 3 ∧ imagePasses (s.mgmt.start.image q)) then s.startUp o else s)
  | none => .next s

/-! ### Power -/

/-- The sensors are read: DESIGN CHOICE, log 11, for what they give. -/
def State.sense (s : State) : State :=
  { s with mgmt := { s.mgmt with temp := (Config.sensor 0 s.tick).toNat % 256, watts := (Config.sensor 1 s.tick).toNat } }
/-- The limiter is engaged (R441): the averaged power is above WATTS, or the junction is at 105 degrees or more. -/
def State.limits (s : State) : Bool := s.host.plim.toNat % 2 ^ 16 < s.mgmt.watts || 105 ≤ s.mgmt.temp
/-- LIMITER_STEP (R441): both clocks go to n/64 of nominal, down while the limiter is engaged and up while it is not; a change
between limiting and not writes an event. DESIGN CHOICE (log 102): by any number of steps of 1/64. -/
def execLimiterStep (n : Fin 65) (s : State) : Out :=
  if ¬ s.mgmt.mainUp ∨ n.val < 16 ∨ ¬ (if s.limits then n.val < s.mgmt.clock else s.mgmt.clock < n.val) then .next s else
  let s1 := { s with mgmt := { s.mgmt with clock := n.val } }
  .next (if (s.mgmt.clock == 64) == (n.val == 64) then s1 else s1.hostEvent 5 0xFFFF n.val 0)
/-- THERMTRIP (R441): at 115 degrees the main rails are removed. -/
def execThermtrip (s : State) : Out :=
  if s.mgmt.temp < 115 then .next s else
  let s1 := s.mainOff
  .next { s1 with mgmt := { s1.mgmt with thermtrip := true } }

/-! ### The Dolmir port -/

/-- The 16 bytes of the start record (R434). -/
def StartRec.bytes (r : StartRec) : List Byte :=
  natLe 1 r.cur ++ natLe 1 r.last ++ natLe 1 r.altlvl ++ natLe 1 r.fails ++ natLe 4 r.starts ++ natLe 8 0
/-- A write of byte i of the record (R440): bytes 1 to 3 are writable; LAST := 0 sets ALTLVL := 0. -/
def StartRec.put (r : StartRec) (i v : Nat) : StartRec :=
  match i with
  | 1 => if v = 0 then { r with last := 0, altlvl := 0 } else { r with last := v }
  | 2 => { r with altlvl := v }
  | 3 => { r with fails := v }
  | _ => r
/-- DSTAT (R440), with the junction temperature as last read. -/
def State.dstat (s : State) : Nat :=
  b2n s.mgmt.mainUp + b2n s.mgmt.linkUp * 2 + b2n s.mgmt.thermtrip * 4 + s.mgmt.temp % 256 * 2 ^ 8
/-- The fields of the Dolmir map (R440). -/
def State.dolmirFields (s : State) : List (Nat × List Byte) :=
  let h := if s.mgmt.mainUp then s.host else { s.host with ssw := 0, ecm := 0, cecount := 0 }
  [(0x0000, natLe 4 s.dstat), (0x0010, s.mgmt.start.bytes), (0x0020, natLe 8 h.ssw.toNat), (0x0028, natLe 12 h.ecm),
    (0x0040, natLe 4 h.plim.toNat), (0x0044, natLe 4 s.mgmt.watts), (0x0048, natLe 4 h.cecount.toNat)]
/-- A byte of the map; 0 outside it. -/
def State.dolmirByte (s : State) (a : Nat) : Byte :=
  if 0x1000 ≤ a ∧ a < 0x9000 then
    match s.mgmt.repairs[(a - 0x1000) / 8]? with
    | some e => (natLe 8 e.toNat).getD (a % 8) 0
    | none => 0
  else fieldByte s.dolmirFields a
/-- The start record under a write at an address (R440). -/
def StartRec.write (r : StartRec) (a : Nat) (d : List Byte) : StartRec :=
  (List.range d.length).foldl (fun r i =>
    if 0x10 ≤ a + i ∧ a + i < 0x20 then r.put (a + i - 0x10) (d.getD i 0).toNat else r) r
/-- DSTAT under a write: THERMTRIP is cleared by a one. -/
def State.clearTrip (s : State) (v : Nat) : State :=
  if bit v 2 then { s with mgmt := { s.mgmt with thermtrip := false } } else s

/-- DOLMIR_DYNAMIC_ADDRESS (R440). -/
def execDolmirDynamicAddress (addr : BitVec 7) (s : State) : Out := .next { s with mgmt := { s.mgmt with dyn := some addr } }
/-- The last address of the port. -/
def State.setPtr (s : State) (a : Nat) : State := { s with mgmt := { s.mgmt with ptr := a % 2 ^ 16 } }
/-- The write holds both bytes of MRST with the value that resets the main side (R440). -/
def keyWrite (o : DolmirWrite) : Bool :=
  o.addr.toNat ≤ 0x50 && 0x52 ≤ o.addr.toNat + o.data.length && fld o.data (0x50 - o.addr.toNat) 2 == 0x5254
/-- DOLMIR_PRIVATE_WRITE (R440): the address, then the bytes of the map that can be written; one that resets the main side
begins a start whose outcome is open (log 2). -/
def execDolmirPrivateWrite (o : DolmirWrite) (s : State) : Out :=
  let a := o.addr.toNat
  let n := o.data.length
  let s1 := if a ≤ 0 ∧ 0 < n then s.clearTrip (o.data.getD 0 0).toNat else s
  let s2 := { s1 with mgmt := { s1.mgmt with start := s1.mgmt.start.write a o.data } }
  let s3 := if touches 0x40 4 a n then
      s2.modHost fun h => { h with plim := BitVec.ofNat 32 (clampWatts (leNat (mergeField (natLe 4 h.plim.toNat) 0x40 o.data a))) }
    else s2
  let s4 := if a ≤ 0x48 ∧ 0x4C ≤ a + n then
      s3.modHost fun h => { h with cecount := if fld o.data (0x48 - a) 4 = 0 then 0 else h.cecount }
    else s3
  let s5 := s4.setPtr (a + n)
  .next (if keyWrite o then s5.startUp (Config.startOutcome s.tick) else s5)
/-- DOLMIR_PRIVATE_READ (R440). -/
def execDolmirPrivateRead (len : Nat) (s : State) : Out :=
  let bs := (List.range len).map fun i => s.dolmirByte ((s.mgmt.ptr + i) % 2 ^ 16)
  .next ({ s with mgmt := { s.mgmt with sent := s.mgmt.sent ++ [bs] } }.setPtr (s.mgmt.ptr + len))
/-- START_RECORD_WRITE (R440). -/
def execStartRecordWrite (o : DolmirWrite) (s : State) : Out :=
  let s1 := { s with mgmt := { s.mgmt with start := s.mgmt.start.write o.addr.toNat o.data } }
  .next (s1.setPtr (o.addr.toNat + o.data.length))
/-- MRST (R440): 0x5254 resets the main side, which ends every context without writing its STATUS, and a start begins. -/
def execMrst (v : BitVec 16) (o : StartOp) (s : State) : Out := .next (if v = 0x5254 then s.startUp o else s)
/-- THERMTRIP_CLEAR (R440). -/
def execThermtripClear (v : BitVec 32) (s : State) : Out := .next (s.clearTrip v.toNat)

/-! ### Time on the fabric -/

/-- What time on the fabric brings forward: the sensors are read, a start-up step ends, and peer requests whose pages are there
run. -/
def State.passStart (s : State) : State := s.sense.bootStep.retryPeers

end Sys2Proof.Machine
end

