-- ==== Sys2Proof/Machine/Complete.lean ====
section
/-! DEFINITION. The completion of flagged instructions (R41, R42) and of waiting instructions (R74, R201): which operation
performs, what its completion writes and shows the cones, and what a thread that waits tests. -/

namespace Sys2Proof.Machine
open Sys2Proof

/-! ### Flagged operations -/

/-- Flags from their bits in FXF (R119). -/
def bitsFlags (n : Nat) : Flags := { nv := bit n 0, dz := bit n 1, ovf := bit n 2, uf := bit n 3, nx := bit n 4 }
/-- The value of the words of a result, the first lowest. -/
def wordsVal (ws : List (Nat × Word)) : Nat := ws.foldr (fun w a => w.2.toNat + 2 ^ 32 * a) 0
/-- What the completion of an operation shows the cones (R385, R387, R389). -/
def doneEvents (o : Op) (ws : List (Nat × Word)) : List ConeEv :=
  let v := wordsVal ws
  match o.i with
  | .ld _ q => [.mem 0 (some (spaceNum q.space)) o.ea (o.ea + o.len - 1) (some (v, o.len))]
  | .xread _ q =>
    let w := if q.wide then 8 else 4
    [.mem 0 (some (spaceNum (chipOr q.chip))) o.ea (o.ea + w - 1) (some (v, w)),
      .exc (match excEvent f32 1 (v % 2 ^ 32) (bitsFlags o.fx) with | .exc c _ => c | _ => 0) (v % 2 ^ 64)]
  | .attr .. => [.exc (match excEvent f32 ws.length v (bitsFlags o.fx) with | .exc c _ => c | _ => 0) (v % 2 ^ 64)]
  | _ => []

/-- A performed operation completes: registers, FXF, its flag, and the cones (R41, R119, R389). -/
def State.finishOp (s : State) (tm : Team) (i : Nat) (o : Op) (ws : List (Nat × Word)) : State :=
  let s1 := s.modThr tm.id i fun t => (((t.opWrites s.tick o ws).raiseFx o.fx).retire o)
  (doneEvents o ws).foldl (fun s e =>
    s.observe tm.id i { ev := e, op := o.word.toNat / 2 ^ 56, iaddr := o.iaddr, ord := o.ord }) s1

/-- An operation in flight performs, or goes on towards it. -/
def State.performOp (s : State) (tm : Team) (i : Nat) (t : Thread) (o : Op) (p : PerformOp) : State :=
  match o.i with
  | .ld _ q => s.performLd tm i t q o p
  | .st .. | .stt .. | .atom .. | .red .. | .atomcas .. => s.performPlain tm i t o p
  | .xadd .. | .xclr .. | .xclrLine .. => s.performX tm i t o
  | .xread _ q => s.performXread tm i t q o
  | .glaze _ q => s.performGlaze tm i t q o
  | .glzins _ q => s.performGlzins tm i t q o
  | .glzq _ q => s.performGlzq tm i t q o
  | .bari .. | .bara .. | .bart .. | .bartPoison .. | .barp .. => s.performBar tm i t o
  | .qcfgSet .. | .qcfgGrant .. | .qcfgStat .. | .qcfgOff .. | .qtry .. => s.performQueue tm i t o
  | .sqadd .. | .sqrd .. => s.performCtr tm i t o
  | .pref _ q => s.performPref tm i o q
  | .cflushL1 .. | .cflushClean .. | .cflushInval .. | .cflushTlb .. | .cflushAsid .. | .cflushCtx .. =>
    s.performFlush tm i o
  | .feset .. => s.performFe tm i t o true
  | .feclr .. => s.performFe tm i t o false
  | .tload _ q => s.performTload tm i t q.slot.val o p
  | .chkt _ q => s.performChkt tm i t o q.d
  | .sort .. => s.performSort tm i t o
  | .mmwake _ m => s.performMmwake tm i m.val o
  | .mmstat _ q => s.performMmstat tm i q o
  | .rast .. => s.performRast tm i t o
  | .attr _ q => s.performAttr tm i t q o p
  | .flcfgSet _ q => s.performFlset tm i t q o p
  | .flcfgGrow _ n => s.performFlgrow tm i t n.val o p
  | .flins .. | .flres .. | .flresClr .. | .flrd .. => s.performTarget tm i t o
  | .splat .. => s.performSplat tm i t o
  | .raybox _ q => s.performRay tm i t q.d.val rayboxOut o p
  | .raytri _ q => s.performRay tm i t q.d.val raytriOut o p
  | .launch .. => s.performLaunch tm i t o p
  | .wgemit .. => s.performWgemit tm i t o
  | .wgdone _ q => s.performWgdone tm i t q o
  | .quiesceArm .. | .quiesceRd .. => s.performQuiesce tm i o
  | .dqpush .. | .dqpop .. | .dqsteal .. => s.performDeque tm i t o p.pick
  | .coneset .. | .inspr .. | .inspw .. | .step .. => s.performDebug tm i o
  | _ => s

/-- A write or atomic of a stopped thread may still perform (R368). -/
def performsStopped : Instr → Bool
  | .st .. | .stt .. | .atom .. | .red .. | .atomcas .. | .xadd .. | .xclr .. | .xclrLine .. => true
  | _ => false
/-- A fixed-latency result that is still to be written stands at a destination of the operation. -/
def Thread.wbBlocks (t : Thread) (o : Op) : Bool := t.wb.any fun e => e.v.any fun w => o.dst.contains w.1
/-- A debug instruction writes its predicate when it completes (R401). -/
def isDebugOp : Instr → Bool
  | .coneset .. | .inspr .. | .inspw .. | .step .. => true
  | _ => false

/-- FLAGGED_COMPLETION (R41, R42): the operation performs; once it has, one of its registers is written before the others,
or it completes. -/
def execFlaggedCompletion (p : PerformOp) (s : State) : Out :=
  match s.team? p.team, s.thr? p.team p.thr, s.op? p.team p.thr p.id with
  | some tm, some t, some o =>
    if t.status = .stopped then .next (if o.res.isNone ∧ performsStopped o.i then s.performOp tm p.thr t o p else s)
    else if t.wbBlocks o then .next s
    else match o.res, p.only with
      | some ws, some r => .next (s.modThr p.team p.thr fun t => t.putV (ws.filter fun w => w.1 == r.val && o.dst.contains w.1))
      | some ws, none => .next (if isDebugOp o.i then s.performDebug tm p.thr o else s.finishOp tm p.thr o ws)
      | none, _ => .next (s.performOp tm p.thr t o p)
  | _, _, _ => .next s

/-! ### Waiting instructions -/

/-- The wait is the oldest of its thread. -/
def Thread.firstWait (t : Thread) (o : Op) : Bool := t.waits.all fun q => o.id ≤ q.id

/-- A control-flow instruction that drains first: its effect once nothing is in flight (R84, R378, R382). -/
def State.afterDrain (s : State) (tm : Team) (i : Nat) (t : Thread) (o : Op) (ready : Bool) (eff : Op → State → State) : State :=
  if ready && t.firstWait o then eff o (s.endWait tm.id i o 8) else s.markWaited tm.id i o.id

/-- A waiting instruction issues again for its thread alone, as the word in hand of a clause of its own: it reads its guard and
its operands anew (R374, R396). -/
def State.issueAgain (s : State) (id i : Nat) (o : Op) : State :=
  match s.team? id, s.thr? id i with
  | some tm, some t =>
    let x : Issue :=
      { id := s.nextId, team := id, crew := t.crew, ca := o.iaddr - 8, hdr := 0, words := [o.word], idx := 0, now := 0
        t0 := s.coreCc tm.core, members := [i], stalled := [], held := false, late := false }
    let s1 := { s with nextId := s.nextId + 1, issues := x :: s.issues }
    let r : Out := match o.i with
      | .barw c q => execBarw c q s1
      | .qpush c q => execQpush c q s1
      | .qpop c q => execQpop c q s1
      | .sqwait c q => execSqwait c q s1
      | .cpwait c n => execCpwait c n s1
      | .chkw c q => execChkw c q s1
      | .oenter c => execOenter c s1
      | .resume c q => execResume c q s1
      | .resumeSvc c => execResumeSvc c s1
      | _ => .next s1
    match r with
    | .next s2 => { s2 with issues := s2.issues.filter fun y => y.id != x.id }
    | _ => s
  | _, _ => s
/-- The waiting instructions at which a thread was restored, or released from a halt, issue again in program order (R374,
R396). -/
def State.reissue (s : State) (id i : Nat) : State :=
  match s.thr? id i with
  | none => s
  | some t =>
    let s1 := s.modThr id i fun t => { t with waits := t.waits.filter fun o => !o.redo }
    ((t.waits.filter fun o => o.redo).foldl (fun s o => s.issueAgain id i o) s1).commitEnd id i

/-- A waiting thread tests its wait again (R74, R201). -/
def State.retryWait (s : State) (tm : Team) (i : Nat) (t : Thread) (cr : Crew) (o : Op) : State :=
  if o.redo then s.reissue tm.id i else
  match o.i with
  | .nop .. =>
    if o.stage = 0 then (if s.psrWritten tm.asid o.ea then s.dropWait tm.id i o.id else s)
    else if t.drained then s.endWait tm.id i o 8 else s
  | .barw _ q => s.retryBarw tm i t q o
  | .qpush .. | .qpop .. => s.retryQueue tm i t o
  | .sqwait _ q => s.retrySqwait tm i t q o
  | .fenceRel _ sc => s.retryFence tm i t o true false sc
  | .fenceAcq _ sc => s.retryFence tm i t o false true sc
  | .fenceAr _ sc => s.retryFence tm i t o true true sc
  | .waitm _ => s.retryWaitm tm i t o
  | .cpwait _ n => s.retryCpwait tm i t n.val o
  | .chkw .. => s.retryChkw tm i t o
  | .oenter _ => s.retryOenter tm i t o
  | .oleave _ => s.retryOleave tm i t o
  | .join _ j =>
    if t.accessesDone o.id && t.firstWait o then (s.dropWait tm.id i o.id).arrive tm.id i j.val (s.teamBanks tm.id) else s
  | .exit _ => s.afterDrain tm i t o (exitReady cr t) fun _ s => s.endThread tm.id i
  | .trap _ q => s.afterDrain tm i t o t.drained fun o s => s.softTrap tm.id i q o
  | .tretRec _ => s.afterDrain tm i t o t.drained fun o s => s.tretServe .record tm.id i o
  | .tretNext _ => s.afterDrain tm i t o t.drained fun o s => s.tretServe .next tm.id i o
  | .tretKill _ => s.afterDrain tm i t o t.drained fun o s => s.tretServe .kill tm.id i o
  | .tretTerm _ v => s.afterDrain tm i t o t.drained fun o s => s.tretTerm v tm.id i o
  | .resume _ q => if t.firstWait o then s.retryResume tm i t cr (resumeArgs q) o else s
  | .resumeSvc _ => if t.firstWait o then s.retryResume tm i t cr resumeSvcArgs o else s
  | _ => s

/-- The thread tests its waits: it is not issuing, halted or to take a fault, and neither a save nor a halt stops it there
(R369, R393), which they never do to a system-crew thread (R366). -/
def State.mayRetry (s : State) (tm : Team) (t : Thread) (o : Op) : Bool :=
  (t.status == .ready || (o.isDrain && t.status.endsClause && t.status != .issuing)) && !t.isHalted && t.late.isEmpty && 
    !(haltsInPlace o && t.crew != 7 && (s.savingTeam tm || t.dbg.req.isSome))

/-- What a waiting instruction waits for holds (R213, R220, R221, R224, R175, R307, R381); CPWAIT and CHKW show no BANKED. -/
def State.condMet (s : State) (tm : Team) (t : Thread) (o : Op) : Bool :=
  match o.i with
  | .barw .. => s.poisoned o.key 16 || (barwTest (s.barObj o.key) (o.vals.getD 1 0)).isSome
  | .qpush _ q => tm.qRoom q.q.val
  | .qpop _ q => tm.qOcc q.q.val != 0
  | .sqwait .. => decide (o.vals.getD 2 0 ≤ s.counter (o.vals.getD 1 0))
  | .waitm .. => match t.mon with | some m => m.event.isSome | none => true
  | .oenter .. => match t.frag with | some f => sectionFree tm f | none => true
  | .resume .. | .resumeSvc .. => o.stage == 1 && decide (o.vals.getD 2 0 ≤ s.counter (o.vals.getD 1 0))
  | _ => false
/-- There is room for an instruction that waits before it issues (R229, R267, R323, R351). -/
def State.hasRoom (s : State) (tm : Team) (t : Thread) : Instr → Bool
  | .cpl .. => !t.batchFull
  | .mmx .. | .mmzero .. | .mmld .. | .mmst .. | .mmrd .. => tm.q0.length < 16
  | .splat .. => tm.splatsOpen < 16
  | .launch .. => !s.lotsFull
  | .wgemit _ o => match s.ctx? tm.asid, tm.crew? t.crew with
    | some c, some cr =>
      let n := srcVal cr.k t false o.a
      match (c.node n).desc with | some d => (c.node n).hasRoom d | none => false
    | _, _ => false
  | _ => false
/-- The members of a clause in issue for whose word room has come keep whether the core was banked as it came (R74). -/
def State.settleRoom (old s : State) (x : Issue) : Issue :=
  if x.stalled.isEmpty then x else
  match s.team? x.team, decode x.word.toNat with
  | some tm, .ok i =>
    { x with room := x.stalled.filterMap fun j => match tm.threads[j]? with
        | some t => if ¬ s.hasRoom tm t i then none else
          some ((x.room.find? fun r => r.1 == j).getD (j, old.bankedBut tm j))
        | none => none }
  | _, _ => x
/-- A move has taken the device from a state to the next: each wait whose condition has come to hold keeps whether its core
was banked at that moment (R74). -/
def State.settleWaits (old s : State) : State :=
  { s with issues := s.issues.map (State.settleRoom old s), teams := s.teams.map fun tm => { tm with threads := ((List.range tm.threads.length).zip tm.threads).map fun q =>
      { q.2 with waits := q.2.waits.map fun o =>
          if ¬ o.waited then o
          else if ¬ s.condMet tm q.2 o then { o with banked := none }
          else if o.banked.isSome then o else { o with banked := some (old.bankedBut tm q.1) } } } }

/-- WAITING_INSTRUCTION_COMPLETE (R74, R201). -/
def execWaitingInstructionComplete (p : PendRef) (s : State) : Out :=
  match s.team? p.team with
  | none => .next s
  | some tm =>
    match tm.threads[p.thr]? with
    | none => .next s
    | some t =>
      match t.waits.find? fun o => o.id == p.id, tm.crew? t.crew with
      | some o, some cr => .next (if s.mayRetry tm t o then s.retryWait tm p.thr t cr o else s)
      | _, _ => .next s

end Sys2Proof.Machine
end

