-- ==== Sys2Proof/Machine/Dispatch.lean ====
section
/-! DEFINITION. exec: one arm per row of spec/opcode_table.json. An instruction row acts for the first clause in issue
(State.issues); an event row is a move of another agent. -/

namespace Sys2Proof.Machine
open Sys2Proof

def exec (i : Instr) (s : State) : Host.Outcome State Fault Refusal :=
  match i with
  | .nop c imm => Sys2Proof.Machine.execNop c imm s
  | .bra c tgt => Sys2Proof.Machine.execBra c tgt s
  | .brx c reg tag => Sys2Proof.Machine.execBrx c reg tag s
  | .call c reg tgt => Sys2Proof.Machine.execCall c reg tgt s
  | .callx c reg tag => Sys2Proof.Machine.execCallx c reg tag s
  | .ret c reg => Sys2Proof.Machine.execRet c reg s
  | .retChecked c reg tag => Sys2Proof.Machine.execRetChecked c reg tag s
  | .jinitLive c j => Sys2Proof.Machine.execJinitLive c j s
  | .jinitSelf c j => Sys2Proof.Machine.execJinitSelf c j s
  | .jinitClear c j => Sys2Proof.Machine.execJinitClear c j s
  | .jinitK c j k => Sys2Proof.Machine.execJinitK c j k s
  | .join c j => Sys2Proof.Machine.execJoin c j s
  | .jleave c j => Sys2Proof.Machine.execJleave c j s
  | .jtest c kind j p => Sys2Proof.Machine.execJtest c kind j p s
  | .exit c => Sys2Proof.Machine.execExit c s
  | .yield c n => Sys2Proof.Machine.execYield c n s
  | .iadd c o => Sys2Proof.Machine.execIadd c o s
  | .isub c o => Sys2Proof.Machine.execIsub c o s
  | .imul c o => Sys2Proof.Machine.execImul c o s
  | .imulh c o => Sys2Proof.Machine.execImulh c o s
  | .imad c o => Sys2Proof.Machine.execImad c o s
  | .imadw c o => Sys2Proof.Machine.execImadw c o s
  | .iabs c o => Sys2Proof.Machine.execIabs c o s
  | .imin c o => Sys2Proof.Machine.execImin c o s
  | .imax c o => Sys2Proof.Machine.execImax c o s
  | .and c o => Sys2Proof.Machine.execAnd c o s
  | .or c o => Sys2Proof.Machine.execOr c o s
  | .xor c o => Sys2Proof.Machine.execXor c o s
  | .shl c o => Sys2Proof.Machine.execShl c o s
  | .shr c o => Sys2Proof.Machine.execShr c o s
  | .sar c o => Sys2Proof.Machine.execSar c o s
  | .bfe c o => Sys2Proof.Machine.execBfe c o s
  | .bfi c o => Sys2Proof.Machine.execBfi c o s
  | .popc c o => Sys2Proof.Machine.execPopc c o s
  | .clz c o => Sys2Proof.Machine.execClz c o s
  | .brev c o => Sys2Proof.Machine.execBrev c o s
  | .icmp c o => Sys2Proof.Machine.execIcmp c o s
  | .sel c o => Sys2Proof.Machine.execSel c o s
  | .mov c o => Sys2Proof.Machine.execMov c o s
  | .movi c o => Sys2Proof.Machine.execMovi c o s
  | .lea c o => Sys2Proof.Machine.execLea c o s
  | .plop c o => Sys2Proof.Machine.execPlop c o s
  | .smovRead c o => Sys2Proof.Machine.execSmovRead c o s
  | .smovWrite c o => Sys2Proof.Machine.execSmovWrite c o s
  | .kmovToK c o => Sys2Proof.Machine.execKmovToK c o s
  | .kmovFromK c o => Sys2Proof.Machine.execKmovFromK c o s
  | .elect c o => Sys2Proof.Machine.execElect c o s
  | .iaddi c o => Sys2Proof.Machine.execIaddi c o s
  | .lopi c o => Sys2Proof.Machine.execLopi c o s
  | .fadd c o => Sys2Proof.Machine.execFadd c o s
  | .fsub c o => Sys2Proof.Machine.execFsub c o s
  | .fmul c o => Sys2Proof.Machine.execFmul c o s
  | .ffma c o => Sys2Proof.Machine.execFfma c o s
  | .fmin c o => Sys2Proof.Machine.execFmin c o s
  | .fmax c o => Sys2Proof.Machine.execFmax c o s
  | .fcmp c o => Sys2Proof.Machine.execFcmp c o s
  | .frcp c o => Sys2Proof.Machine.execFrcp c o s
  | .fsqrt c o => Sys2Proof.Machine.execFsqrt c o s
  | .frsq c o => Sys2Proof.Machine.execFrsq c o s
  | .fexp2 c o => Sys2Proof.Machine.execFexp2 c o s
  | .flog2 c o => Sys2Proof.Machine.execFlog2 c o s
  | .fsin c o => Sys2Proof.Machine.execFsin c o s
  | .fcos c o => Sys2Proof.Machine.execFcos c o s
  | .frnd c o => Sys2Proof.Machine.execFrnd c o s
  | .fscl c o => Sys2Proof.Machine.execFscl c o s
  | .fcls c o => Sys2Proof.Machine.execFcls c o s
  | .fcvt c o => Sys2Proof.Machine.execFcvt c o s
  | .f2i c o => Sys2Proof.Machine.execF2i c o s
  | .i2f c o => Sys2Proof.Machine.execI2f c o s
  | .fdot c o => Sys2Proof.Machine.execFdot c o s
  | .bqntScale c o => Sys2Proof.Machine.execBqntScale c o s
  | .bqntElement c o => Sys2Proof.Machine.execBqntElement c o s
  | .bdq c o => Sys2Proof.Machine.execBdq c o s
  | .shfl c o => Sys2Proof.Machine.execShfl c o s
  | .vote c o => Sys2Proof.Machine.execVote c o s
  | .lred c o => Sys2Proof.Machine.execLred c o s
  | .lscan c o => Sys2Proof.Machine.execLscan c o s
  | .matchLanes c o => Sys2Proof.Machine.execMatchLanes c o s
  | .ld c o => Sys2Proof.Machine.execLd c o s
  | .st c o => Sys2Proof.Machine.execSt c o s
  | .stt c o => Sys2Proof.Machine.execStt c o s
  | .pref c o => Sys2Proof.Machine.execPref c o s
  | .ipref c o => Sys2Proof.Machine.execIpref c o s
  | .ipin c o => Sys2Proof.Machine.execIpin c o s
  | .iunpin c o => Sys2Proof.Machine.execIunpin c o s
  | .fenceRel c scope => Sys2Proof.Machine.execFenceRel c scope s
  | .fenceAcq c scope => Sys2Proof.Machine.execFenceAcq c scope s
  | .fenceAr c scope => Sys2Proof.Machine.execFenceAr c scope s
  | .cflushL1 c o => Sys2Proof.Machine.execCflushL1 c o s
  | .cflushClean c o => Sys2Proof.Machine.execCflushClean c o s
  | .cflushInval c o => Sys2Proof.Machine.execCflushInval c o s
  | .cflushTlb c o => Sys2Proof.Machine.execCflushTlb c o s
  | .cflushAsid c o => Sys2Proof.Machine.execCflushAsid c o s
  | .cflushCtx c o => Sys2Proof.Machine.execCflushCtx c o s
  | .feset c o => Sys2Proof.Machine.execFeset c o s
  | .feclr c o => Sys2Proof.Machine.execFeclr c o s
  | .monitor c o => Sys2Proof.Machine.execMonitor c o s
  | .waitm c => Sys2Proof.Machine.execWaitm c s
  | .atom c o => Sys2Proof.Machine.execAtom c o s
  | .atomcas c o => Sys2Proof.Machine.execAtomcas c o s
  | .red c o => Sys2Proof.Machine.execRed c o s
  | .xadd c o => Sys2Proof.Machine.execXadd c o s
  | .xread c o => Sys2Proof.Machine.execXread c o s
  | .xclr c o => Sys2Proof.Machine.execXclr c o s
  | .xclrLine c o => Sys2Proof.Machine.execXclrLine c o s
  | .glaze c o => Sys2Proof.Machine.execGlaze c o s
  | .glzins c o => Sys2Proof.Machine.execGlzins c o s
  | .glzq c o => Sys2Proof.Machine.execGlzq c o s
  | .bari c o => Sys2Proof.Machine.execBari c o s
  | .bara c o => Sys2Proof.Machine.execBara c o s
  | .barw c o => Sys2Proof.Machine.execBarw c o s
  | .bart c o => Sys2Proof.Machine.execBart c o s
  | .bartPoison c o => Sys2Proof.Machine.execBartPoison c o s
  | .barp c o => Sys2Proof.Machine.execBarp c o s
  | .qcfgSet c o => Sys2Proof.Machine.execQcfgSet c o s
  | .qcfgGrant c o => Sys2Proof.Machine.execQcfgGrant c o s
  | .qcfgStat c o => Sys2Proof.Machine.execQcfgStat c o s
  | .qcfgOff c q => Sys2Proof.Machine.execQcfgOff c q s
  | .qpush c o => Sys2Proof.Machine.execQpush c o s
  | .qpop c o => Sys2Proof.Machine.execQpop c o s
  | .qtry c o => Sys2Proof.Machine.execQtry c o s
  | .sqadd c o => Sys2Proof.Machine.execSqadd c o s
  | .sqwait c o => Sys2Proof.Machine.execSqwait c o s
  | .sqrd c o => Sys2Proof.Machine.execSqrd c o s
  | .cpl c o => Sys2Proof.Machine.execCpl c o s
  | .cpt c o => Sys2Proof.Machine.execCpt c o s
  | .cpm c o => Sys2Proof.Machine.execCpm c o s
  | .cpg c o => Sys2Proof.Machine.execCpg c o s
  | .cpclose c => Sys2Proof.Machine.execCpclose c s
  | .cpwait c n => Sys2Proof.Machine.execCpwait c n s
  | .chkw c o => Sys2Proof.Machine.execChkw c o s
  | .chkt c o => Sys2Proof.Machine.execChkt c o s
  | .tload c o => Sys2Proof.Machine.execTload c o s
  | .tevict c slot => Sys2Proof.Machine.execTevict c slot s
  | .sort c a => Sys2Proof.Machine.execSort c a s
  | .mmx c a => Sys2Proof.Machine.execMmx c a s
  | .mmzero c o => Sys2Proof.Machine.execMmzero c o s
  | .mmld c o => Sys2Proof.Machine.execMmld c o s
  | .mmst c o => Sys2Proof.Machine.execMmst c o s
  | .mmrd c o => Sys2Proof.Machine.execMmrd c o s
  | .mmwake c mask => Sys2Proof.Machine.execMmwake c mask s
  | .mmstat c o => Sys2Proof.Machine.execMmstat c o s
  | .rast c a => Sys2Proof.Machine.execRast c a s
  | .attr c o => Sys2Proof.Machine.execAttr c o s
  | .oenter c => Sys2Proof.Machine.execOenter c s
  | .oleave c => Sys2Proof.Machine.execOleave c s
  | .flcfgSet c o => Sys2Proof.Machine.execFlcfgSet c o s
  | .flcfgGrow c slot => Sys2Proof.Machine.execFlcfgGrow c slot s
  | .flcfgOff c slot => Sys2Proof.Machine.execFlcfgOff c slot s
  | .flins c o => Sys2Proof.Machine.execFlins c o s
  | .flres c o => Sys2Proof.Machine.execFlres c o s
  | .flresClr c o => Sys2Proof.Machine.execFlresClr c o s
  | .flrd c o => Sys2Proof.Machine.execFlrd c o s
  | .splat c a => Sys2Proof.Machine.execSplat c a s
  | .raybox c o => Sys2Proof.Machine.execRaybox c o s
  | .raytri c o => Sys2Proof.Machine.execRaytri c o s
  | .launch c a => Sys2Proof.Machine.execLaunch c a s
  | .wgemit c o => Sys2Proof.Machine.execWgemit c o s
  | .wgdone c o => Sys2Proof.Machine.execWgdone c o s
  | .dqpush c o => Sys2Proof.Machine.execDqpush c o s
  | .dqpop c o => Sys2Proof.Machine.execDqpop c o s
  | .dqsteal c o => Sys2Proof.Machine.execDqsteal c o s
  | .quiesceArm c o => Sys2Proof.Machine.execQuiesceArm c o s
  | .quiesceRd c o => Sys2Proof.Machine.execQuiesceRd c o s
  | .trap c o => Sys2Proof.Machine.execTrap c o s
  | .srd c o => Sys2Proof.Machine.execSrd c o s
  | .swr c o => Sys2Proof.Machine.execSwr c o s
  | .cont c tgt => Sys2Proof.Machine.execCont c tgt s
  | .contOff c => Sys2Proof.Machine.execContOff c s
  | .resumeSvc c => Sys2Proof.Machine.execResumeSvc c s
  | .resume c o => Sys2Proof.Machine.execResume c o s
  | .tretRec c => Sys2Proof.Machine.execTretRec c s
  | .tretNext c => Sys2Proof.Machine.execTretNext c s
  | .tretKill c => Sys2Proof.Machine.execTretKill c s
  | .tretTerm c imm => Sys2Proof.Machine.execTretTerm c imm s
  | .coneset c o => Sys2Proof.Machine.execConeset c o s
  | .coneclr c n => Sys2Proof.Machine.execConeclr c n s
  | .coneclrRec c n => Sys2Proof.Machine.execConeclrRec c n s
  | .coneclrAll c rec => Sys2Proof.Machine.execConeclrAll c rec s
  | .haltSelf c => Sys2Proof.Machine.execHaltSelf c s
  | .haltCrew c => Sys2Proof.Machine.execHaltCrew c s
  | .haltTeam c => Sys2Proof.Machine.execHaltTeam c s
  | .haltThr c o => Sys2Proof.Machine.execHaltThr c o s
  | .haltRel c o => Sys2Proof.Machine.execHaltRel c o s
  | .inspr c o => Sys2Proof.Machine.execInspr c o s
  | .inspw c o => Sys2Proof.Machine.execInspw c o s
  | .step c o => Sys2Proof.Machine.execStep c o s
  | .tmark c o => Sys2Proof.Machine.execTmark c o s
  | .ill imm => Sys2Proof.Machine.execIll imm s
  | .clauseIssue o => Sys2Proof.Machine.execClauseIssue o s
  | .flaggedCompletion o => Sys2Proof.Machine.execFlaggedCompletion o s
  | .lateFaultTaken o => Sys2Proof.Machine.execLateFaultTaken o s
  | .holdSlotGrant core => Sys2Proof.Machine.execHoldSlotGrant core s
  | .yieldPauseEnd o => Sys2Proof.Machine.execYieldPauseEnd o s
  | .waitingInstructionComplete o => Sys2Proof.Machine.execWaitingInstructionComplete o s
  | .orderPointWrite o => Sys2Proof.Machine.execOrderPointWrite o s
  | .pageWalkComplete o => Sys2Proof.Machine.execPageWalkComplete o s
  | .lineCheckout o => Sys2Proof.Machine.execLineCheckout o s
  | .lineRecall o => Sys2Proof.Machine.execLineRecall o s
  | .atomicAtOrderPoint o => Sys2Proof.Machine.execAtomicAtOrderPoint o s
  | .xaddAtSlice o => Sys2Proof.Machine.execXaddAtSlice o s
  | .glazeRun o => Sys2Proof.Machine.execGlazeRun o s
  | .barrierEngineEvent o => Sys2Proof.Machine.execBarrierEngineEvent o s
  | .watchdogExpiry id => Sys2Proof.Machine.execWatchdogExpiry id s
  | .queueRecordPost o => Sys2Proof.Machine.execQueueRecordPost o s
  | .cplCopyFinish o => Sys2Proof.Machine.execCplCopyFinish o s
  | .chunk o => Sys2Proof.Machine.execChunk o s
  | .enginePageRetry o => Sys2Proof.Machine.execEnginePageRetry o s
  | .sortStart o => Sys2Proof.Machine.execSortStart o s
  | .sortPass o => Sys2Proof.Machine.execSortPass o s
  | .sortComplete o => Sys2Proof.Machine.execSortComplete o s
  | .matrixOpStart team => Sys2Proof.Machine.execMatrixOpStart team s
  | .matrixPass team => Sys2Proof.Machine.execMatrixPass team s
  | .matrixCommandComplete team => Sys2Proof.Machine.execMatrixCommandComplete team s
  | .arrayIdleGate o => Sys2Proof.Machine.execArrayIdleGate o s
  | .arrayWakeComplete o => Sys2Proof.Machine.execArrayWakeComplete o s
  | .rasterRecord team => Sys2Proof.Machine.execRasterRecord team s
  | .fragmentLaunch o => Sys2Proof.Machine.execFragmentLaunch o s
  | .rastComplete team => Sys2Proof.Machine.execRastComplete team s
  | .setterInsert o => Sys2Proof.Machine.execSetterInsert o s
  | .splatStart team => Sys2Proof.Machine.execSplatStart team s
  | .splatPixelOutput team => Sys2Proof.Machine.execSplatPixelOutput team s
  | .splatComplete team => Sys2Proof.Machine.execSplatComplete team s
  | .spanPlace o => Sys2Proof.Machine.execSpanPlace o s
  | .launcherPreempt span => Sys2Proof.Machine.execLauncherPreempt span s
  | .teamEnd team => Sys2Proof.Machine.execTeamEnd team s
  | .launchQueueTake o => Sys2Proof.Machine.execLaunchQueueTake o s
  | .binTimerExpiry o => Sys2Proof.Machine.execBinTimerExpiry o s
  | .persistDelivery o => Sys2Proof.Machine.execPersistDelivery o s
  | .trapDispatch o => Sys2Proof.Machine.execTrapDispatch o s
  | .contextTerminate asid => Sys2Proof.Machine.execContextTerminate asid s
  | .terminationComplete asid => Sys2Proof.Machine.execTerminationComplete asid s
  | .spanSave span => Sys2Proof.Machine.execSpanSave span s
  | .saveComplete span => Sys2Proof.Machine.execSaveComplete span s
  | .spanRestore o => Sys2Proof.Machine.execSpanRestore o s
  | .eccUncorrectable o => Sys2Proof.Machine.execEccUncorrectable o s
  | .eccCorrected o => Sys2Proof.Machine.execEccCorrected o s
  | .haltLand o => Sys2Proof.Machine.execHaltLand o s
  | .traceRecordWrite core => Sys2Proof.Machine.execTraceRecordWrite core s
  | .hostReadRequest o => Sys2Proof.Machine.execHostReadRequest o s
  | .hostMemoryWrite o => Sys2Proof.Machine.execHostMemoryWrite o s
  | .hostCounterAdd o => Sys2Proof.Machine.execHostCounterAdd o s
  | .hostCounterRead o => Sys2Proof.Machine.execHostCounterRead o s
  | .registerWrite o => Sys2Proof.Machine.execRegisterWrite o s
  | .herrWrite v => Sys2Proof.Machine.execHerrWrite v s
  | .cecountWrite v => Sys2Proof.Machine.execCecountWrite v s
  | .hcmdstatWrite v => Sys2Proof.Machine.execHcmdstatWrite v s
  | .hcmdBusyDrop v => Sys2Proof.Machine.execHcmdBusyDrop v s
  | .register o => Sys2Proof.Machine.execRegister o s
  | .terminate o => Sys2Proof.Machine.execTerminate o s
  | .preempt o => Sys2Proof.Machine.execPreempt o s
  | .debugon o => Sys2Proof.Machine.execDebugon o s
  | .debugoff o => Sys2Proof.Machine.execDebugoff o s
  | .retire o => Sys2Proof.Machine.execRetire o s
  | .attest o => Sys2Proof.Machine.execAttest o s
  | .setctr o => Sys2Proof.Machine.execSetctr o s
  | .invtlb o => Sys2Proof.Machine.execInvtlb o s
  | .hcmdUnknown op o => Sys2Proof.Machine.execHcmdUnknown op o s
  | .hostCommandComplete => Sys2Proof.Machine.execHostCommandComplete s
  | .watchWrite o => Sys2Proof.Machine.execWatchWrite o s
  | .plimWrite v => Sys2Proof.Machine.execPlimWrite v s
  | .peerRequestIncoming o => Sys2Proof.Machine.execPeerRequestIncoming o s
  | .peerLinkDown port => Sys2Proof.Machine.execPeerLinkDown port s
  | .powerOn o => Sys2Proof.Machine.execPowerOn o s
  | .powerLoss => Sys2Proof.Machine.execPowerLoss s
  | .startupStepFail step o => Sys2Proof.Machine.execStartupStepFail step o s
  | .limiterStep n => Sys2Proof.Machine.execLimiterStep n s
  | .thermtrip => Sys2Proof.Machine.execThermtrip s
  | .dolmirDynamicAddress addr => Sys2Proof.Machine.execDolmirDynamicAddress addr s
  | .dolmirPrivateWrite o => Sys2Proof.Machine.execDolmirPrivateWrite o s
  | .dolmirPrivateRead len => Sys2Proof.Machine.execDolmirPrivateRead len s
  | .startRecordWrite o => Sys2Proof.Machine.execStartRecordWrite o s
  | .mrst v o => Sys2Proof.Machine.execMrst v o s
  | .thermtripClear v => Sys2Proof.Machine.execThermtripClear v s
  | .peerLinkUp port => Sys2Proof.Machine.execPeerLinkUp port s

end Sys2Proof.Machine
end

