-- ==== Sys2Proof/Machine/Homes.lean ====
section
/-! DEFINITION. Lines of attached memory held at two homes (R145, R427): while a line is homed under two seeds whose hashes
differ, its reads return values it has held, and its tags lose their order. -/

namespace Sys2Proof.Machine
open Sys2Proof

/-- The request of a host or of a peer is homed under a seed: HSEED, or that of the context it names (R145, R427). -/
def State.noteRequest (s : State) : Action → State
  | .event (.hostReadRequest o) => s.homeBytes 0xFFFF s.host.hseed.toNat o.addr.toNat (o.len.val + 1)
  | .event (.hostMemoryWrite o) => s.homeBytes 0xFFFF s.host.hseed.toNat o.addr.toNat o.data.length
  | .event (.peerRequestIncoming o) => s.noteHome o.tasid.val 0 (o.addr % 2 ^ 49)
  | _ => s

/-- What a line holds: its bytes and its tag (R148). -/
def State.lineNow (s : State) (line : Nat) : List Byte × Nat := (s.bytes (line * 128) 128, s.tagAt (line * 128))
/-- Each L2 line keeps what it has held since it was homed. -/
def State.noteHeld (s : State) : State :=
  { s with l2 := s.l2.map fun e => let v := s.lineNow e.line
                                    if e.held.contains v then e else { e with held := e.held ++ [v] } }
/-- A line is held at two homes (R145). -/
def State.twoHomes (s : State) (e : L2Line) : Bool :=
  s.l2.any fun d => d.line == e.line && Config.home d.seed e.line != Config.home e.seed e.line
/-- One of the values that a line has held, by free bits: DESIGN CHOICE, log 113, for the moment and the unit of 8 bytes. -/
def L2Line.pick (bit : Nat → Bool) (e : L2Line) (k : Nat) : Option (List Byte × Nat) :=
  ((List.range e.held.length).find? fun i => bit ((e.line * 32 + k) * 2 ^ 16 + i)).bind fun i => e.held[i]?
/-- The line as its next reader finds it: each aligned unit of 8 bytes, and the tag, is one that it has held (R11, R145). -/
def State.mixLine (s : State) (e : L2Line) : State :=
  let bit := fun n => Config.freeBit s.tick (2 ^ 71 + n)
  let s1 := (List.range 16).foldl (fun s k => match e.pick bit k with
    | some v => s.put (e.line * 128 + 8 * k) ((v.1.drop (8 * k)).take 8)
    | none => s) s
  match e.pick bit 16 with
  | some v => { s1 with tags := tabPut 0 s1.tags (e.line * 128) v.2 }
  | none => s1
/-- The lines at two homes stand as a mixture of what they have held, the others as they were written (R145). -/
def State.settleHomes (s : State) : State :=
  let s1 := s.noteHeld
  (s1.l2.filter s1.twoHomes).foldl State.mixLine s1
/-- A request that brings a line to a second home finds it so (R145, R427). -/
def State.meetRequest (s : State) (a : Action) : State :=
  let s1 := s.noteRequest a
  if ¬ s.mgmt.mainUp ∨ s1.l2 = s.l2 then s else { s1.settleHomes with wrote := s.wrote }

/-! ### What lines have held -/

/-- The keys at which two canonical memories differ, given at least as much fuel as they have cells. -/
def diffKeys : Nat → List Host.Cell → List Host.Cell → List Nat
  | 0, _, _ => []
  | _, [], bs => bs.map fun b => b.1
  | _, as, [] => as.map fun a => a.1
  | n + 1, a :: as, b :: bs =>
    if a.1 < b.1 then a.1 :: diffKeys n as (b :: bs)
    else if b.1 < a.1 then b.1 :: diffKeys n (a :: as) bs
    else if a.2 = b.2 then diffKeys n as bs else a.1 :: diffKeys n as bs
/-- A move has taken the device from a state to the next: what the lines of attached memory held that it wrote over is kept,
while a context is live (R147, R193). -/
def State.notePast (old s : State) : State :=
  if s.mem = old.mem ∨ s.ctxs = [] then s else
  let lines := (((diffKeys (old.mem.length + s.mem.length) old.mem s.mem).filter (· < memBytes)).map (· / 128)).eraseDups
  { s with past := s.past ++ lines.map fun l => ⟨l, old.tick, old.bytes (l * 128) 128⟩ }

end Sys2Proof.Machine
end

