-- ==== Sys2Proof/Machine/Move.lean ====
section
/-! DEFINITION. One move of the device: the issue of a word by a clause in issue, a move of another agent, or the passing
of cycles; and the placing of a single instruction for its issue. -/

namespace Sys2Proof.Machine
open Sys2Proof

/-- The rows of the opcode table that are moves of another agent, not words of a clause. -/
def isEvent : Instr → Bool
  | .clauseIssue .. | .flaggedCompletion .. | .lateFaultTaken .. | .holdSlotGrant .. | .yieldPauseEnd ..
  | .waitingInstructionComplete .. | .orderPointWrite .. | .pageWalkComplete .. | .lineCheckout .. | .lineRecall ..
  | .atomicAtOrderPoint .. | .xaddAtSlice .. | .glazeRun .. | .barrierEngineEvent .. | .watchdogExpiry ..
  | .queueRecordPost .. | .cplCopyFinish .. | .chunk .. | .enginePageRetry .. | .sortStart .. | .sortPass ..
  | .sortComplete .. | .matrixOpStart .. | .matrixPass .. | .matrixCommandComplete .. | .arrayIdleGate ..
  | .arrayWakeComplete .. | .rasterRecord .. | .fragmentLaunch .. | .rastComplete .. | .setterInsert ..
  | .splatStart .. | .splatPixelOutput .. | .splatComplete .. | .spanPlace .. | .launcherPreempt .. | .teamEnd ..
  | .launchQueueTake .. | .binTimerExpiry .. | .persistDelivery .. | .trapDispatch .. | .contextTerminate ..
  | .terminationComplete .. | .spanSave .. | .saveComplete .. | .spanRestore .. | .eccUncorrectable ..
  | .eccCorrected .. | .haltLand .. | .traceRecordWrite .. | .hostReadRequest .. | .hostMemoryWrite ..
  | .hostCounterAdd .. | .hostCounterRead .. | .registerWrite .. | .herrWrite .. | .cecountWrite .. | .hcmdstatWrite ..
  | .hcmdBusyDrop .. | .register .. | .terminate .. | .preempt .. | .debugon .. | .debugoff .. | .retire .. | .attest ..
  | .setctr .. | .invtlb .. | .hcmdUnknown .. | .hostCommandComplete | .watchWrite .. | .plimWrite ..
  | .peerRequestIncoming .. | .peerLinkDown .. | .powerOn .. | .powerLoss | .startupStepFail .. | .limiterStep ..
  | .thermtrip | .dolmirDynamicAddress .. | .dolmirPrivateWrite .. | .dolmirPrivateRead .. | .startRecordWrite ..
  | .mrst .. | .thermtripClear .. | .peerLinkUp .. => true
  | _ => false

/-- What follows the issue of the word in hand of clause `id`. -/
def afterIssue (id : Nat) : Out → Out
  | .next s => .next (s.advance id)
  | .fault f => .fault f
  | .refused r => .refused r

/-- The k-th clause in issue issues its next word: the decoded instruction, or the illegal-instruction fault of a word
that is no instruction (R38, R50). -/
def State.issueWord (s : State) (k : Nat) (late : Bool) : Out :=
  let s1 := s.prepare k late
  match s.issues[k]?, s1.issuer with
  | some _, some (x, _, _) =>
    match decode x.word.toNat with
    | .ok i => afterIssue x.id (exec i s1)
    | .error _ => .next ((x.active.foldl (fun s j => s.raise x j 2 0 x.iaddr.toNat) s1).advance x.id)
  | _, _ => .next s

/-- n cc pass in which no result falls due before the last, and 2n fc (R6, R16): CCOUNT of every core counts (R96), YIELD
pauses run (R85), watchdogs count (R207), arrays idle or wake (R274), and bin timers run (R345). The cc that ends is the last
for a ONCE cone that has slumped (R389). A pause does not run while its thread is halted. -/
def State.elapse (s : State) (n : Nat) : State :=
  let s0 := s.settleCones fun _ => true
  let s1 : State := { s0 with
    cores := s0.cores.map fun c => { c with cc := c.cc + n }
    teams := s0.teams.map fun (tm : Team) => { tm with threads := tm.threads.map fun t =>
      if t.yieldLeft = 0 ∨ t.isHalted ∨ t.dbg.landed then t else { t with yieldLeft := max 1 (t.yieldLeft - n) } } }
  ((s1.runDogs n).runArrays n).runTimers (2 * n)

/-- How many cc from now the fixed-latency results fall due that do so within n, rising (R39). -/
def State.duesIn (s : State) (n : Nat) : List Nat :=
  s.teams.foldl (fun l tm => tm.threads.foldl (fun l t => t.wb.foldl (fun l e =>
    if e.due ≤ s.coreCc tm.core + n then insertNat (max 1 (e.due - s.coreCc tm.core)) l else l) l) l) []
/-- An operation of a thread performs now, whatever came before it. -/
def State.performNow (s : State) (id i : Nat) (o : Op) : State :=
  match s.team? id, s.thr? id i with
  | some tm, some t => s.performOp tm i { t with pend := [] } o { team := id, thr := i, id := o.id }
  | _, _ => s
/-- The read of a fixed-latency load is made, after the earlier overlapping accesses of its thread (R152). DESIGN CHOICE (log
117): a load that waits for a full granule is passed. -/
def State.readNow (s : State) (id i ld : Nat) : State :=
  match s.thr? id i, s.op? id i ld with
  | some t, some o =>
    ((t.pend.filter fun q => q.id < o.id && q.res.isNone && q.meets o.key o.len) ++ [o]).foldl
      (fun s q => s.performNow id i q) s
  | _, _ => s
/-- The fixed-latency loads whose results are due by `now` read their bytes, unless they have. -/
def State.readDue (s : State) (id i now : Nat) (wb : List Wb) : State :=
  wb.foldl (fun s e => if e.due ≤ now then (match e.ld with | some n => s.readNow id i n | none => s) else s) s
/-- The results that are due now are written (R39). -/
def State.writeDue (s : State) : State :=
  s.teams.foldl (fun s tm => (List.range tm.threads.length).foldl (fun s i =>
    match tm.threads[i]? with
    | some t => if t.wb.isEmpty then s else (s.readDue tm.id i (s.coreCc tm.core) t.wb).commit tm.id i (s.coreCc tm.core)
    | none => s) s) s
/-- n cc pass: each fixed-latency result is written in the cc in which it is due (R6, R39), and each cc ends for the cones
(R389) and the PC tables (R59). -/
def State.pass (s : State) (n : Nat) : State :=
  if n = 0 then s else
  ((insertNat n (s.duesIn n)).foldl (fun (a : State × Nat) d => ((a.1.formed.elapse (d - a.2)).writeDue, d)) (s, 0)).1

/-- What goes on by itself: batches that wait are handed on (R345), a start goes on (R434), peer requests whose page is there
run (R433), the power limiter reads its sensors (R441), and the host's outstanding reads go on (R424). -/
def State.background (s : State) : State := s.retrySeals.passStart.serveReads

/-- The k-th clause in issue issues its next word at its cc (R38): no word of another clause is to issue earlier. -/
def State.issueAt (s : State) (k : Nat) (late : Bool) : Out :=
  match s.issues[k]? with
  | none => .next s
  | some x => if s.mayPass (s.dueIn x) then (s.pass (s.dueIn x)).issueWord k late else .next s

/-- One move. Cycles pass up to the next cc at which a word is to issue. -/
def State.act (s : State) : Action → Out
  | .issue k late => s.issueAt k late
  | .event i => if isEvent i then exec i (s.meetRequest (.event i)) else .next s
  | .cycle n => .next (if s.mayPass n then s.pass n else s)
  | .background => .next s.background

/-- The move to make, and the rest of the list. -/
def State.nextMove (s : State) : Action × List Action :=
  match s.agenda with
  | [] => (Config.schedule s.tick, [])
  | a :: rest => (a, rest)

/-- The state after a move: the waits that its event ends are noted (R74), the sorts and splats whose areas it wrote (R250,
R321), lines at two homes take what they have held (R145), what it wrote over is kept (R147), and the step number goes on. -/
def State.settle (old s : State) : State :=
  { old.notePast (old.settleWaits s.noteMisuse).settleHomes with wrote := [], tick := s.tick + 1 }
/-- The end of a step that a state has made with a move. -/
def endStep (old : State) : Out → Out
  | .next s => .next (old.settle s)
  | .fault f => .fault f
  | .refused r => .refused r

end Sys2Proof.Machine
end

