-- ==== Sys2Proof/Machine/Place.lean ====
section
/-! DEFINITION. Placing one instruction word for issue: what stands for the loading of a program from outside (log 5). -/

namespace Sys2Proof.Machine
open Sys2Proof

/-- A context record with the identifiers of ASID 0 and one system-crew thread. -/
def CtxRec.sample : CtxRec where
  ptroot := 0
  asid := 0
  sysn := 1
  sysb := 256
  seed := 0
  hentry := 0
  chipbase := 0
  chipsz := 0
  vlog := 0
  gtb := 0
  ntb := 0
  lqb := 0
  lqn := 0
  sqb := 0
  sqn := 0
  psc := 0
  tctr := 0
  dqb := 0
  peert := 0
  psr := 0
  psn := 1
  sas := 0
  sab := 0
  sac := 0
def Context.sample : Context := { r := CtxRec.sample, recAddr := 0, status := 0, psCount := 0, debug := false, psq := [] }

/-- A crew of one thread with 256 registers. -/
def Crew.sample (num first : Nat) (role : Role) : Crew where
  num := num
  role := role
  bind := 15
  budget := 256
  cpri := 0
  threads := 1
  first := first
  k := List.replicate 64 0
  conta := none
  strands := [List.replicate 16 ⟨0, 0⟩]

/-- A team of a general crew of one thread and the system crew, on core 0. -/
def Team.sample (id : Nat) (crew : Nat) : Team where
  id := id
  asid := 0
  lot := 0
  lotid := 0
  span := 0
  spanIx := 0
  bandIx := 0
  teamIx := 0
  core := 0
  entry := 0
  lpri := 0
  coresh := 65536
  lanesz := 1024
  bshare := 0
  tileShare := 32
  slotShare := 32
  crews := [Crew.sample 0 0 .general, Crew.sample 7 1 .system]
  threads := [Thread.start 0 0 256 16 (if crew = 0 then .issuing else .ready),
    Thread.start 7 0 256 16 (if crew = 7 then .issuing else .idle)]
  trapq := []
  cones := List.replicate 16 {}

/-- The clause header of a one-word clause of the word's class that is a safe point and a region entry (R28). -/
def oneWordHeader (w : DWord) : DWord :=
  BitVec.ofNat 64 ((classOfOp (w.toNat / 2 ^ 56)).getD 0 * 2 ^ 4 + 2 ^ 20 + 2 ^ 37)

/-- The crew that may issue the word: the system crew for what is reserved to it. -/
def crewFor (w : DWord) : Nat := match decode w.toNat with | .ok i => if sysOnly i then 7 else 0 | .error _ => 0

/-- The word stands in hand of a clause in issue at address 0, for the one thread of a new team, and its issue is the
next move. -/
def State.placeWord (s : State) (_nbits w : Nat) : State :=
  let word := BitVec.ofNat 64 w
  let crew := crewFor word
  { s with
    agenda := .issue 0 false :: s.agenda
    nextId := s.nextId + 2
    ctxs := if (s.ctx? 0).isSome then s.ctxs else s.ctxs ++ [Context.sample]
    teams := s.teams ++ [Team.sample s.nextId crew]
    issues := { id := s.nextId + 1, team := s.nextId, crew := crew, ca := 0, hdr := oneWordHeader word, words := [word]
                idx := 0, now := 0, t0 := s.coreCc 0, members := [if crew = 7 then 1 else 0], stalled := [], held := false
                late := false } :: s.issues }

end Sys2Proof.Machine
end

