-- ==== Sys2Proof/Machine/Step.lean ====
section
/-! DEFINITION. step: one move of the device; and the placing of one instruction word as the next move. -/

namespace Sys2Proof.Machine
open Sys2Proof

/-- One step: the next move is made. -/
def step (s : State) : Host.Outcome State Fault Refusal :=
  endStep s (({ s with agenda := s.nextMove.2 }).act s.nextMove.1)

/-- The state with one instruction word in hand of a clause in issue, to be issued by the next step. -/
def State.withFetchWord (s : State) (nbits w : Nat) : State := s.placeWord nbits w

end Sys2Proof.Machine
end

