-- ==== Sys2Proof/Safety.lean ====
section
/-! DEFINITION. The terms that claims are stated in: a step that gives a next state, an instruction in hand of a group
that nothing stops, and the state with its results in flight. -/

namespace Sys2Proof.Machine
open Sys2Proof

/-- The step at a state gives a next state. -/
def State.StepsOn (s : State) : Prop := ∃ t, step s = .next t

/-- The state while the word in hand issues: no member waits with it any more (R73). -/
def State.started (s : State) : State :=
  { s with issues := s.issues.modify 0 fun y => { y with stalled := [], room := [] } }

/-- The first clause in issue is `x`, of crew `cr` of team `tm`; the instruction is legal for the crew (R46, R50, R355)
and no member that executes it has an uncorrectable source register (R375). The members stand on lanes of their own. -/
structure Issues (s : State) (i : Instr) (x : Issue) (tm : Team) (cr : Crew) : Prop where
  issuer : s.issuer = some (x, tm, cr)
  legal : illegalIn tm cr i = false
  ranges : overBudget tm cr i x.active = []
  clean : badMembers tm cr i (guardTrue tm (commonOf i) x.active) = []
  distinct : x.active.Nodup

/-- The same for a group of the one thread `t`, number j of its team, whose guard is true (R37). -/
structure IssuesAlone (s : State) (i : Instr) (x : Issue) (tm : Team) (cr : Crew) (j : Nat) (t : Thread) : Prop where
  issuer : s.issuer = some (x, tm, cr)
  legal : illegalIn tm cr i = false
  ranges : overBudget tm cr i x.active = []
  clean : badSource tm cr t i = none
  one : x.active = [j]
  thread : tm.threads[j]? = some t
  guard : t.guard (commonOf i) = true

/-- The members that execute the word in hand (R37). -/
def Issue.doers (x : Issue) (tm : Team) (i : Instr) : List Nat := guardTrue tm (commonOf i) x.active

/-- The state with a result in flight for every member that executes a fixed-latency instruction (R39, R41): `f` gives
it from the crew's K registers and the thread. -/
def State.withResults (s : State) (x : Issue) (tm : Team) (cr : Crew) (i : Instr) (lat : Nat)
    (f : List DWord → Thread → Res) : State :=
  (x.doers tm i).foldl (fun s j => match s.thr? x.team j with
    | some t => s.modThr x.team j fun _ => t.pushRes x (commonOf i) lat (f cr.k t)
    | none => s) s.started

/-- R91, R97: an operand as the integer it denotes. -/
def operandInt (k : List DWord) (t : Thread) (wide sgn : Bool) (a : Src) : Int :=
  interp sgn (widthOf wide) (srcVal k t wide a)

/-- A float result in flight: the value to Vd, its flags to FXF when it is written, and the event a cone sees (R92,
R119, R120, R387). -/
def floatRes (wide : Bool) (d : VReg) (ev : Nat × Flags → ConeEv) (r : Nat × Flags) : Res :=
  { v := vPut wide d.val r.1, fx := flagBits r.2, ev := some (ev r) }

/-- R110, R111: the magnitude of pattern k of a format, and what a finite pattern denotes, as a number of the format's smallest
subnormals; `one` of them are 1. -/
def Fmt.units (f : Fmt) (k : Nat) : Nat :=
  if k / 2 ^ f.mbits = 0 then k else (2 ^ f.mbits + k % 2 ^ f.mbits) * 2 ^ (k / 2 ^ f.mbits - 1)
def Fmt.one (f : Fmt) : Nat := 2 ^ (f.bias + f.mbits - 1)
def Fmt.negative (f : Fmt) (x : Nat) : Bool := bit x (f.ebits + f.mbits)
def Fmt.signedUnits (f : Fmt) (x : Nat) : Int :=
  if f.negative x then -(f.units (x % signBit f) : Int) else f.units (x % signBit f)

/-- R116, step 1: whether n, which is `lo` or lies between `lo` and `hi`, is rounded to `hi`; k is the pattern of `lo`. -/
def goesUp (mode : RMode) (neg : Bool) (k lo hi n : Nat) : Bool :=
  n != lo && match mode with
    | .rne => decide (lo + hi < 2 * n) || (decide (lo + hi = 2 * n) && k % 2 == 1)
    | .rtz => false
    | .rdn => neg
    | .rup => !neg
    | .rna => decide (lo + hi ≤ 2 * n)

/-- R116, step 2: what an overflow delivers. -/
def overflowBits (f : Fmt) (mode : RMode) (sat neg : Bool) : Nat :=
  if sat ∨ f.nan = .none then zeroF f neg + maxBits f
  else if f.nan = .allOnes then canonNan f
  else match mode with
    | .rne | .rna => infF f neg
    | .rtz => zeroF f neg + maxBits f
    | .rdn => if neg then infF f neg else zeroF f neg + maxBits f
    | .rup => if neg then zeroF f neg + maxBits f else infF f neg

/-- R116: r is n / d smallest subnormals of a format, with a sign, rounded under a mode. With k the pattern at or below it: the
neighbour the mode chooses, inexact where it is not the value; underflow where the value is inexact and tiny; or overflow. -/
structure RoundsTo (f : Fmt) (mode : RMode) (sat neg : Bool) (n d : Nat) (r : Nat × Flags) : Prop where
  within : ∀ k, f.units k * d ≤ n → n < f.units (k + 1) * d →
    let up := b2n (goesUp mode neg k (f.units k * d) (f.units (k + 1) * d) n)
    k + up ≤ maxBits f → r.1 = zeroF f neg + (k + up) ∧ r.2 = { uf := r.2.uf, nx := n != f.units k * d } ∧
      (2 ^ f.mbits ≤ k → r.2.uf = false) ∧ (k + 1 < 2 ^ f.mbits → r.2.uf = r.2.nx)
  beyond : ∀ k, f.units k * d ≤ n → n < f.units (k + 1) * d →
    maxBits f < k + b2n (goesUp mode neg k (f.units k * d) (f.units (k + 1) * d) n) →
    r = (overflowBits f mode sat neg, { ovf := true, nx := true })

/-- No watch cone of a resident team is armed: an event is shown to none (R388). -/
def State.quiet (s : State) : Prop := ∀ tm ∈ s.teams, ∀ c ∈ tm.cones, c.armed = false

/-- A thread but for the wake event that its monitor has noted (R175). -/
def Thread.butMon (t : Thread) : Thread := { t with mon := t.mon.map fun m => { m with event := none } }

/-- `s'` is `s` but for one thread, the caches, the trace units and the model's own fields: the frame of an instruction
that acts on its thread alone. Where lines are checked out a page walk may recall some, which the monitors on them note (R175,
R177). -/
structure State.SameBut (s' s : State) (id j : Nat) : Prop where
  threads : ∀ b i, b ≠ id ∨ i ≠ j → (s'.thr? b i).map Thread.butMon = (s.thr? b i).map Thread.butMon
  monitors : s.checkouts = [] → s'.checkouts = [] ∧ ∀ b i, b ≠ id ∨ i ≠ j → s'.thr? b i = s.thr? b i
  teams : ∀ b, (s'.team? b).map (fun tm => { tm with threads := [] }) = (s.team? b).map fun tm => { tm with threads := [] }
  mem : s'.mem = s.mem
  tags : s'.tags = s.tags
  full : s'.full = s.full
  bad : s'.bad = s.bad
  ctxs : s'.ctxs = s.ctxs
  glazes : s'.glazes = s.glazes
  host : s'.host = s.host

/-- The thread is `u`, but where lines are checked out for what its monitor notes of those a page walk recalls. -/
def State.Holds (s' s : State) (id j : Nat) (u : Thread) : Prop :=
  ∃ v, s'.thr? id j = some v ∧ v.butMon = u.butMon ∧ (s.checkouts = [] → v = u)
/-- The instruction gives a next state in which thread j of the team is `u` and nothing else has changed. -/
def Gives (i : Instr) (s : State) (id j : Nat) (u : Thread) : Prop :=
  ∃ s', exec i s = .next s' ∧ s'.Holds s id j u ∧ s'.SameBut s id j

/-- The thread with the operation of the word in hand in flight (R41): `f` completes its record. -/
def Thread.withOp (t : Thread) (s : State) (x : Issue) (i : Instr) (vals : List Nat) (f : Op → Op := id) : Thread :=
  { t.incF (setfOf (commonOf i)) with pend := t.pend ++ [f (mkOp x t i s.nextId vals)] }

/-- The thread waiting at the word in hand (R201). -/
def Thread.withWait (t : Thread) (s : State) (x : Issue) (i : Instr) (vals : List Nat) (f : Op → Op := id) : Thread :=
  { t with waits := t.waits ++ [f (mkOp x t i s.nextId vals)] }

/-- The record of an access in flight: its bytes begin at the key of its address. -/
def ARes.keyIs (r : ARes) (key : Nat) : Prop := r = .ok key ∨ ∃ k a, r = .peer k a ∧ key = peerKey k a

/-- The same with the route of a request that a peer serves (R432). -/
def ARes.routed (r : ARes) (s : State) (tm : Team) (key : Nat) (rt : Option Route) : Prop :=
  (r = .ok key ∧ rt = none) ∨ ∃ k a, r = .peer k a ∧ key = peerKey k a ∧ rt = s.route tm.asid key

/-- Operation `o` of thread j of team `tm` is in flight under the number k and nothing keeps it from performing: its thread
is not stopped, no result for its registers is still to be written, and no earlier access to its bytes is (R152). -/
structure Pending (s : State) (id j k : Nat) (tm : Team) (t : Thread) (o : Op) : Prop where
  team : s.team? id = some tm
  thread : s.thr? id j = some t
  op : t.op? k = some o
  fresh : o.res = none
  running : t.status ≠ .stopped
  free : t.wbBlocks o = false
  order : t.orderClear o = true

/-- The operation has performed: `ws` are the register writes its completion makes (R42). -/
def OpPerformed (s' : State) (id j k : Nat) (o : Op) (ws : List (Nat × Word)) : Prop :=
  s'.op? id j k = some { o with res := some ws }

/-- The operation is complete: its thread holds the register writes `ws` and the predicates `p`, its completion flag has
counted down, and it has left the operations in flight (R41). -/
def OpDone (s' : State) (id j : Nat) (t : Thread) (o : Op) (ws : List (Nat × Word)) (p : List Bool) : Prop :=
  ∃ u, s'.thr? id j = some u ∧ u.v = (t.putV ws).v ∧ u.p = p ∧ u.sys = t.sys ∧ u.f = (t.decF o.setf).f ∧
    u.pend.map (fun q => q.id) = (t.pend.map fun q => q.id).filter fun k => k != o.id

/-- The predicates of a thread with number p written; 7 is not written (R92). -/
def Thread.predsWith (t : Thread) (p : PReg) (b : Bool) : List Bool := if p.val = 7 then t.p else t.p.set p.val b

/-- Memory is as it was outside n bytes from a key. -/
def MemOutside (s' s : State) (key n : Nat) : Prop :=
  ∀ a, a < key ∨ key + n ≤ a → tabGet 0 s'.mem a = tabGet 0 s.mem a

/-- The canonical form of memory: rising addresses, and no byte listed that equals what an unlisted one reads as. -/
abbrev Memory.wf (m : List Host.Cell) : Bool := tabOk 0 m

/-- What the L2 lines keep of what they have held is whole lines (R145). -/
def State.heldWhole (s : State) : Prop := ∀ e ∈ s.l2, ∀ v ∈ e.held, v.1.length = 128
/-- Each aligned unit of 8 bytes of a line in L2, and its tag, is one that the line has held since it was homed (R145). -/
def State.homesHeld (s : State) : Prop :=
  ∀ e ∈ s.l2,
    (∀ k < 16, ∃ d ∈ s.l2, d.line = e.line ∧ ∃ v ∈ d.held, s.bytes (e.line * 128 + 8 * k) 8 = (v.1.drop (8 * k)).take 8) ∧
    ∃ d ∈ s.l2, d.line = e.line ∧ ∃ v ∈ d.held, s.tagAt (e.line * 128) = v.2
/-- Memory and the line tags are in canonical form, and the lines of L2 stand as they have been held (R145). -/
structure State.linesOk (s : State) : Prop where
  memOk : Memory.wf s.mem = true
  tagsOk : tabOk 0 s.tags = true
  whole : s.heldWhole
  held : s.homesHeld
/-- A cone that fires once and took its slump in an earlier cc is not armed (R389). -/
def State.onceDisarmed (s : State) : Prop :=
  ∀ tm ∈ s.teams, ∀ c ∈ tm.cones, c.cw.getLsbD 21 = true → c.cstat.getLsbD 32 = true → c.taken = false →
    c.cstat.getLsbD 33 = false

end Sys2Proof.Machine
end

