-- ==== Sys2Proof/Certificates/Slice0/Obligations.lean ====
section
/-! DEFINITION. The statements for the provers: what the rules of the spec say the machine does. -/

open Sys2Proof Sys2Proof.Machine

/-! ### Words and instructions -/

/-- R36, R43 to R50: the word that the encoder writes for a well-formed instruction, with every operand at every value
its encoding admits, decodes to that instruction. -/
def Obligations.DecodeOfEncode : Prop :=
  ∀ (i : Instr) (w : Nat), i.wf = true → encode i = some w → w < 2 ^ 64 ∧ decode w = .ok i

/-- R47, R49, R50: a word whose OP is unassigned is refused by name, a word of OP 0xFF is ILL whatever its other bits,
and what a word decodes to is well-formed. -/
def Claim.WordsOutsideTheTable : Prop :=
  ∀ w : Nat,
    (formatOf (w / 2 ^ 56 % 256) = none → w / 2 ^ 56 % 256 ≠ 0xFF → decode w = .error .unassigned) ∧
    (w / 2 ^ 56 % 256 = 0xFF → decode w = .ok (.ill (BitVec.ofNat 32 w))) ∧
    (∀ i, decode w = .ok i → i.wf = true)

/-- Words of the spec's worked examples decode to the instructions written beside them: R97, R109, R122, R165, R167,
R171, R173, R195, R216, R80, R78, R88, R89. -/
def Claim.WorkedExampleWords : Prop :=
  decodeTableWord 64 0x101EE02004040003 = some (.iadd {} ⟨false, true, true, 4, .v 1, .v 2⟩) ∧
  decodeTableWord 64 0x245EE0081402000A = some (.icmp { dist := 2 } ⟨false, .lt, true, none, 1, .v 5, .v 1⟩) ∧
  decodeTableWord 64 0x711EF02008010043 = some (.st {} ⟨.core, .n64, 0, 4, .v 2, 256⟩) ∧
  decodeTableWord 64 0x7000F0300801004B = some (.ld { setf := 0, pred := 7 } ⟨.core, .n64, 0, false, .take, 6, .v 2, 256⟩) ∧
  decodeTableWord 64 0x791EF00008010040 = some (.feset {} ⟨.core, 0, .v 2, 256⟩) ∧
  decodeTableWord 64 0x771EE00800000000 = some (.fenceRel {} .chip) ∧
  decodeTableWord 64 0x061EE00000000000 = some (.jinitLive {} 0) ∧
  decodeTableWord 64 0x011E200000000005 = some (.bra { pred := 1 } 5) ∧
  decodeTableWord 64 0xA61EEA4028000000 = some (.qpush {} ⟨8, 10⟩) ∧
  decodeTableWord 64 0xF01EE00500000040 = some (.trap {} ⟨5, 0x40⟩) ∧
  decodeTableWord 64 0xE61EF00004040400 = some (.quiesceArm {} ⟨.v 1, .v 2, .v 4⟩)

/-- Words outside the table are illegal, and the worked words of the spec decode as it says. -/
def Obligations.EncodingsMatchTheSpec : Prop := Claim.WordsOutsideTheTable ∧ Claim.WorkedExampleWords

/-! ### Register instructions, chapters 03 to 05 -/

/-- R93, R97, R39: each two- and three-operand integer instruction completes: the exact result, clamped under SAT and
else modulo 2^N, goes to Vd 2 cc after issue, for every thread of the group whose guard is true.
Complete here (exec answers next on these conditions alone): iadd, isub, imul, imulh, imad, imadw, iabs, imin, imax,
iaddi. -/
def Obligations.IntegerResults : Prop :=
  ∀ (s : State) (x : Issue) (tm : Team) (cr : Crew) (c : Common),
    (∀ o : IntBin,
      let go := fun (i : Instr) (e : Int → Int → Int) => Issues s i x tm cr →
        exec i s = .next (s.withResults x tm cr i 2 fun k t =>
          { v := vPut o.wide o.d.val (narrow (widthOf o.wide) o.sgn o.sat
              (e (operandInt k t o.wide o.sgn o.a) (operandInt k t o.wide o.sgn o.b))) })
      go (.iadd c o) (· + ·) ∧ go (.isub c o) (· - ·) ∧ go (.imul c o) (· * ·) ∧
      go (.imulh c o) (fun a b => Int.fdiv (a * b) (2 ^ widthOf o.wide : Nat)) ∧ go (.imin c o) min ∧ go (.imax c o) max) ∧
    (∀ o : IntTri, Issues s (.imad c o) x tm cr →
      exec (.imad c o) s = .next (s.withResults x tm cr (.imad c o) 2 fun k t =>
        { v := vPut o.wide o.d.val (narrow (widthOf o.wide) o.sgn o.sat
            (operandInt k t o.wide o.sgn o.a * operandInt k t o.wide o.sgn o.b + operandInt k t o.wide o.sgn o.c)) })) ∧
    (∀ o : IntTri, Issues s (.imadw c o) x tm cr →
      exec (.imadw c o) s = .next (s.withResults x tm cr (.imadw c o) 2 fun k t =>
        { v := vPut true o.d.val (narrow 64 o.sgn o.sat
            (operandInt k t false o.sgn o.a * operandInt k t false o.sgn o.b + operandInt k t true o.sgn o.c)) })) ∧
    (∀ o : IabsOp, Issues s (.iabs c o) x tm cr →
      exec (.iabs c o) s = .next (s.withResults x tm cr (.iabs c o) 2 fun k t =>
        { v := vPut o.wide o.d.val (narrow (widthOf o.wide) true o.sat (operandInt k t o.wide true o.a).natAbs) })) ∧
    (∀ o : IaddiOp, Issues s (.iaddi c o) x tm cr →
      exec (.iaddi c o) s = .next (s.withResults x tm cr (.iaddi c o) 2 fun k t =>
        { v := vPut o.wide o.d.val (narrow (widthOf o.wide) o.sgn o.sat
            (operandInt k t o.wide o.sgn o.a + o.imm.toInt)) }))

/-- R98 to R101, R39: the bitwise, shift, bit-field and bit-count instructions complete with the value of their entry. -/
def Claim.BitResults : Prop :=
  ∀ (s : State) (x : Issue) (tm : Team) (cr : Crew) (c : Common),
    (∀ o : LogBin,
      let go := fun (i : Instr) (f : Nat → Nat → Nat) => Issues s i x tm cr →
        exec i s = .next (s.withResults x tm cr i 2 fun k t =>
          { v := vPut o.wide o.d.val (f (srcVal k t o.wide o.a)
              (if o.nb then 2 ^ widthOf o.wide - 1 - srcVal k t o.wide o.b % 2 ^ widthOf o.wide
               else srcVal k t o.wide o.b)) })
      go (.and c o) (· &&& ·) ∧ go (.or c o) (· ||| ·) ∧ go (.xor c o) (· ^^^ ·)) ∧
    (∀ o : LopiOp, Issues s (.lopi c o) x tm cr →
      exec (.lopi c o) s = .next (s.withResults x tm cr (.lopi c o) 2 fun k t =>
        { v := vPut o.wide o.d.val (lopiVal o.op o.wide o.ni (srcVal k t o.wide o.a) o.imm.toNat) })) ∧
    (∀ o : FlagBin,
      let go := fun (i : Instr) (f : Bool → Bool → Nat → Nat → Nat) => Issues s i x tm cr →
        exec i s = .next (s.withResults x tm cr i 2 fun k t =>
          { v := vPut o.wide o.d.val (f o.wide o.flag (srcVal k t o.wide o.a) (srcVal k t o.wide o.b)) })
      go (.shl c o) shlVal ∧ go (.shr c o) shrVal ∧ go (.sar c o) sarVal ∧ go (.bfe c o) bfeVal) ∧
    (∀ o : BfiOp, Issues s (.bfi c o) x tm cr →
      exec (.bfi c o) s = .next (s.withResults x tm cr (.bfi c o) 2 fun k t =>
        { v := vPut o.wide o.d.val (bfiVal o.wide (srcVal k t o.wide o.a) (srcVal k t o.wide o.b)
            (srcVal k t o.wide o.c)) })) ∧
    (∀ o : UnOp,
      let go := fun (i : Instr) (f : Bool → Nat → Nat) => Issues s i x tm cr →
        exec i s = .next (s.withResults x tm cr i 2 fun k t =>
          { v := vPut o.wide o.d.val (f o.wide (srcVal k t o.wide o.a)) })
      go (.popc c o) popcVal ∧ go (.clz c o) clzVal ∧ go (.brev c o) brevVal)

/-- R99, R101: the shift and count functions in arithmetic terms, for a value below 2^N: a shift by N or more empties
the register or fills it with the sign, and CLZ and POPC count within N. -/
def Claim.ShiftAndCountValues : Prop :=
  ∀ (wide : Bool) (a b : Nat), a < 2 ^ widthOf wide →
    (b % 2 ^ 32 < widthOf wide → shlVal wide false a b = a * 2 ^ (b % 2 ^ 32) % 2 ^ widthOf wide ∧
      shrVal wide false a b = a / 2 ^ (b % 2 ^ 32)) ∧
    (widthOf wide ≤ b % 2 ^ 32 → shlVal wide false a b = 0 ∧ shrVal wide false a b = 0 ∧
      sarVal wide false a b = if 2 ^ (widthOf wide - 1) ≤ a then 2 ^ widthOf wide - 1 else 0) ∧
    shlVal wide true a b = shlVal wide false a (b % 2 ^ 32 % widthOf wide) ∧
    popcVal wide a ≤ widthOf wide ∧
    (clzVal wide a ≤ widthOf wide ∧ a < 2 ^ (widthOf wide - clzVal wide a) ∧
      (a ≠ 0 → 2 ^ (widthOf wide - clzVal wide a - 1) ≤ a))

/-- The logic, shift, field and count instructions complete with their values, and what those values are.
Complete here (exec answers next on these conditions alone): and, or, xor, shl, shr, sar, bfe, bfi, popc, clz, brev,
lopi. -/
def Obligations.BitAndShiftResults : Prop := Claim.BitResults ∧ Claim.ShiftAndCountValues

/-- R102 to R109, R39: the compare, select, move, address, predicate and system-register instructions complete.
Complete here (exec answers next on these conditions alone): jtest, icmp, sel, mov, movi, lea, plop, smovWrite,
kmovFromK, elect. -/
def Obligations.MoveAndPredicateResults : Prop :=
  ∀ (s : State) (x : Issue) (tm : Team) (cr : Crew) (c : Common),
    (∀ o : IcmpOp, Issues s (.icmp c o) x tm cr →
      exec (.icmp c o) s = .next (s.withResults x tm cr (.icmp c o) 2 fun k t =>
        let r := cmpInt o.cmp (operandInt k t o.wide o.sgn o.a) (operandInt k t o.wide o.sgn o.b)
        { p := some (o.d.val, match o.comb with | some (b, p) => boolOpP b r (t.pr p) | none => r) })) ∧
    (∀ o : SelOp, Issues s (.sel c o) x tm cr →
      exec (.sel c o) s = .next (s.withResults x tm cr (.sel c o) 2 fun k t =>
        { v := vPut o.wide o.d.val
            (if t.pr o.p = !o.neg then srcVal k t o.wide o.a else srcVal k t o.wide o.b) })) ∧
    (∀ o : UnOp, Issues s (.mov c o) x tm cr →
      exec (.mov c o) s = .next (s.withResults x tm cr (.mov c o) 2 fun k t =>
        { v := vPut o.wide o.d.val (srcVal k t o.wide o.a) })) ∧
    (∀ o : MoviOp, Issues s (.movi c o) x tm cr →
      exec (.movi c o) s = .next (s.withResults x tm cr (.movi c o) 2 fun _ _ =>
        { v := vPut (o.kind != .n32) o.d.val (moviVal o.kind o.imm.toNat) })) ∧
    (∀ o : LeaOp, Issues s (.lea c o) x tm cr →
      exec (.lea c o) s = .next (s.withResults x tm cr (.lea c o) 2 fun k t =>
        { v := vPut true o.d.val (leaVal o.s.val o.idx (srcVal k t true o.a) (srcVal k t true o.b)) })) ∧
    (∀ o : PlopOp, Issues s (.plop c o) x tm cr →
      exec (.plop c o) s = .next (s.withResults x tm cr (.plop c o) 2 fun _ t =>
        { p := some (o.d.val, o.lut.getLsbD (b2n (t.pr o.a) + 2 * b2n (t.pr o.b) + 4 * b2n (t.pr o.c))) })) ∧
    (∀ o : SmovWrite, Issues s (.smovWrite c o) x tm cr →
      exec (.smovWrite c o) s = .next (s.withResults x tm cr (.smovWrite c o) 2 fun k t =>
        { x := some ⟨none, o.sr.val, srcVal k t o.wide o.a⟩ })) ∧
    (∀ o : KmovOp, Issues s (.kmovFromK c o) x tm cr →
      exec (.kmovFromK c o) s = .next (s.withResults x tm cr (.kmovFromK c o) 2 fun k _ =>
        { v := vPut o.wide o.v.val (kVal k o.wide o.k.val) })) ∧
    (∀ o : ElectOp, Issues s (.elect c o) x tm cr →
      exec (.elect c o) s = .next (s.withResults x tm cr (.elect c o) 2 fun _ t =>
        let m := leastLane tm (x.doers tm (.elect c o))
        { p := some (o.d.val, t.lane == m), v := match o.lane with | some v => vPut false v.val m | none => [] })) ∧
    (∀ (kind : JtestKind) (j : Fin 16) (p : PReg), Issues s (.jtest c kind j p) x tm cr →
      exec (.jtest c kind j p) s = .next (s.withResults x tm cr (.jtest c kind j p) 2 fun _ t =>
        { p := some (p.val, jtestVal kind (cr.rejoin t.strand j.val) t.lane) }))


/-- R121 to R127, R39: the float arithmetic instructions complete: the value of the entry's function and its flags, 4 cc
after issue, 8 in the `.f64` forms, 12 for the functions of R125.
Complete here (exec answers next on these conditions alone): fadd, fsub, fmul, ffma, fmin, fmax, frcp, fsqrt, frsq,
fexp2, flog2, fsin, fcos, frnd, fscl. -/
def Claim.FloatArithmeticIssues : Prop :=
  ∀ (s : State) (x : Issue) (tm : Team) (cr : Crew) (c : Common),
    (∀ o : FpBin,
      let go := fun (i : Instr) (f : Nat → Nat → Nat × Flags) => Issues s i x tm cr →
        exec i s = .next (s.withResults x tm cr i (if o.ft = .f64 then 8 else 4) fun k t =>
          floatRes (isF64 o.ft) o.d (ftEvent o.ft) (f (srcVal k t (isF64 o.ft) o.a) (srcVal k t (isF64 o.ft) o.b)))
      go (.fadd c o) (fun a b => arithVal .add o.ft o.rm o.ftz o.sat a b 0) ∧
      go (.fsub c o) (fun a b => arithVal .sub o.ft o.rm o.ftz o.sat a b 0) ∧
      go (.fmul c o) (fun a b => arithVal .mul o.ft o.rm o.ftz o.sat a b 0) ∧
      go (.fmin c o) (minMaxVal false o.ft o.ftz) ∧ go (.fmax c o) (minMaxVal true o.ft o.ftz) ∧
      go (.fscl c o) (sclVal o.ft o.rm o.ftz)) ∧
    (∀ o : FpTri, Issues s (.ffma c o) x tm cr →
      exec (.ffma c o) s = .next (s.withResults x tm cr (.ffma c o) (if o.ft = .f64 then 8 else 4) fun k t =>
        floatRes (isF64 o.ft) o.d (ftEvent o.ft) (arithVal .fma o.ft o.rm o.ftz o.sat
          (srcVal k t (isF64 o.ft) o.a) (srcVal k t (isF64 o.ft) o.b) (srcVal k t (isF64 o.ft) o.c)))) ∧
    (∀ o : FpUn,
      let go := fun (i : Instr) (lat : Nat) (f : Nat → Nat × Flags) => Issues s i x tm cr →
        exec i s = .next (s.withResults x tm cr i lat fun k t =>
          floatRes (isF64 o.ft) o.d (ftEvent o.ft) (f (srcVal k t (isF64 o.ft) o.a)))
      go (.frcp c o) 12 (funVal .rcp o.ft o.rm o.ftz o.pi) ∧ go (.fsqrt c o) 12 (funVal .sqrt o.ft o.rm o.ftz o.pi) ∧
      go (.frsq c o) 12 (funVal .rsq o.ft o.rm o.ftz o.pi) ∧ go (.fexp2 c o) 12 (funVal .exp2 o.ft o.rm o.ftz o.pi) ∧
      go (.flog2 c o) 12 (funVal .log2 o.ft o.rm o.ftz o.pi) ∧ go (.fsin c o) 12 (funVal .sin o.ft o.rm o.ftz o.pi) ∧
      go (.fcos c o) 12 (funVal .cos o.ft o.rm o.ftz o.pi) ∧
      go (.frnd c o) (if o.ft = .f64 then 8 else 4) (rndVal o.ft o.rm o.ftz))

/-- R115, R117, R118, R122, R123, R125, R127: the values at the special operands. A NaN operand gives the canonical NaN and
raises invalid where it signals; the invalid cases of the sums and products; the signs of zeros; the rows of FRCP to FCOS for a
zero, an infinity and a negative number; FMIN and FMAX of zeros and of one NaN; FTZ acts before and after. -/
def Claim.FloatSpecialValues : Prop :=
  ∀ (t : FType) (rm : RMode) (ftz pi : Bool) (a b c : Nat), ftX2 t = false →
    let f := ftFmt t
    a < 2 ^ fmtWidth f → b < 2 ^ fmtWidth f → c < 2 ^ fmtWidth f →
    let x := decodeF f (ftzIn f ftz a)
    let y := decodeF f (ftzIn f ftz b)
    let z := decodeF f (ftzIn f ftz c)
    let ar := fun (op : FArith) => arithVal op t rm ftz false a b c
    let fn := fun (op : FFun) => funVal op t rm ftz pi a
    let nan := (canonNan f, nvFlag)
    let one := (f.bias * 2 ^ f.mbits, noFlags)
    (isNan x = true ∨ isNan y = true → ∀ op, op ≠ .fma →
      ar op = (canonNan f, { nv := isSig x || isSig y }) ∧ (arithVal op t rm ftz true a b c).1 = 0) ∧
    (isNan x = true ∨ isNan y = true ∨ isNan z = true →
      ar .fma = (canonNan f, { nv := isSig x || isSig y || isSig z })) ∧
    (∀ s, x = .inf s → (y = .inf s → ar .add = (infF f s, noFlags) ∧ ar .sub = nan) ∧
      (y = .inf (!s) → ar .add = nan ∧ ar .sub = (infF f s, noFlags)) ∧
      (isFin y = true → ar .add = (infF f s, noFlags) ∧ ar .sub = (infF f s, noFlags))) ∧
    (isInf x = true ∧ isZero y = true ∨ isZero x = true ∧ isInf y = true →
      ar .mul = nan ∧ (isNan z = false → ar .fma = nan)) ∧
    (isFin x = true → isZero x = false → y = x → ar .sub = (zeroF f (rm == .rdn), noFlags)) ∧
    (isZero x = true → isZero y = true →
      ar .add = (zeroF f (if isNeg x = isNeg y then isNeg x else rm == .rdn), noFlags) ∧
      ar .mul = (zeroF f (isNeg x != isNeg y), noFlags) ∧
      minMaxVal false t ftz a b = (zeroF f (isNeg x || isNeg y), noFlags) ∧
      minMaxVal true t ftz a b = (zeroF f (isNeg x && isNeg y), noFlags)) ∧
    (∀ mx, (isNan x = true → isNan y = true → minMaxVal mx t ftz a b = (canonNan f, { nv := isSig x || isSig y })) ∧
      (isNan x = true → isNan y = false → minMaxVal mx t ftz a b = (ftzIn f ftz b, { nv := isSig x })) ∧
      (isNan x = false → isNan y = true → minMaxVal mx t ftz a b = (ftzIn f ftz a, { nv := isSig y }))) ∧
    (isNan x = true → ∀ op, fn op = (canonNan f, { nv := isSig x })) ∧
    (∀ s, x = .inf s → fn .rcp = (zeroF f s, noFlags) ∧ fn .sin = nan ∧ fn .cos = nan ∧
      fn .sqrt = (if s then nan else (infF f false, noFlags)) ∧ fn .rsq = (if s then nan else (0, noFlags)) ∧
      fn .exp2 = (if s then (0, noFlags) else (infF f false, noFlags)) ∧
      fn .log2 = (if s then nan else (infF f false, noFlags))) ∧
    (isZero x = true → fn .rcp = (infF f (isNeg x), { dz := true }) ∧ fn .rsq = (infF f (isNeg x), { dz := true }) ∧
      fn .sqrt = (zeroF f (isNeg x), noFlags) ∧ fn .sin = (zeroF f (isNeg x), noFlags) ∧ fn .exp2 = one ∧ fn .cos = one ∧
      fn .log2 = (infF f true, { dz := true })) ∧
    (isFin x = true → isZero x = false → isNeg x = true → fn .sqrt = nan ∧ fn .rsq = nan ∧ fn .log2 = nan) ∧
    (a = f.bias * 2 ^ f.mbits → fn .log2 = (0, noFlags)) ∧
    (∀ n, isNan x = true → sclVal t rm ftz a n = (canonNan f, { nv := isSig x })) ∧
    (ftz = true → ∀ op, isSubnormal f (ar op).1 = false)

/-- R121 to R127: the float arithmetic instructions complete, and their values at the special operands.
Complete here (exec answers next on these conditions alone): fadd, fsub, fmul, ffma, fmin, fmax, frcp, fsqrt, frsq,
fexp2, flog2, fsin, fcos, frnd, fscl. -/
def Obligations.FloatArithmeticResults : Prop := Claim.FloatArithmeticIssues ∧ Claim.FloatSpecialValues

/-- R124, R128 to R135, R39: float comparison, classification, conversions, FDOT and the block instructions complete. That
their sources may be K registers, as R121 has it for FADD to FSCL, is the model's choice (log 21). -/
def Claim.FloatConversionsIssue : Prop :=
  ∀ (s : State) (x : Issue) (tm : Team) (cr : Crew) (c : Common),
    (∀ o : FcmpOp, Issues s (.fcmp c o) x tm cr →
      exec (.fcmp c o) s = .next (s.withResults x tm cr (.fcmp c o) (if o.ft = .f64 then 8 else 4) fun k t =>
        let r := fcmpVal o.ft o.cmp o.ftz (srcVal k t (isF64 o.ft) o.a) (srcVal k t (isF64 o.ft) o.b)
        let b := match o.comb with | some (b, p) => boolOpP b r.1 (t.pr p) | none => r.1
        { p := some (o.d.val, b), fx := flagBits r.2, ev := some (.exc (excClasses false false r.2) (b2n b)) })) ∧
    (∀ o : FclsOp, Issues s (.fcls c o) x tm cr →
      exec (.fcls c o) s = .next (s.withResults x tm cr (.fcls c o) (if o.fmt = .f64 then 8 else 4) fun k t =>
        { v := vPut (o.fmt == .f64) o.d.val (clsVal o.fmt (srcVal k t (o.fmt == .f64) o.a)) })) ∧
    (∀ o : FcvtOp, Issues s (.fcvt c o) x tm cr →
      exec (.fcvt c o) s = .next (s.withResults x tm cr (.fcvt c o) (if o.dt = .f64 ∨ o.st = .f64 then 8 else 4) fun k t =>
        floatRes o.wide o.d (cvtEvent o.dt) (cvtVal o (srcVal k t o.wide o.a) (optVal k t false o.b)))) ∧
    (∀ o : CvtIntOp, Issues s (.f2i c o) x tm cr →
      exec (.f2i c o) s = .next (s.withResults x tm cr (.f2i c o) (if o.f = .f64 then 8 else 4) fun k t =>
        let r := f2iVal o.f o.i o.rm (srcVal k t o.wide o.a)
        let v := if o.wide ∧ o.i = .i32 then ofSigned 64 (toSigned 32 r.1) else r.1
        { v := vPut o.wide o.d.val v, fx := flagBits r.2, ev := some (.exc (excClasses false false r.2) v) })) ∧
    (∀ o : CvtIntOp, Issues s (.i2f c o) x tm cr →
      exec (.i2f c o) s = .next (s.withResults x tm cr (.i2f c o) (if o.f = .f64 then 8 else 4) fun k t =>
        floatRes o.wide o.d (fun r => excEvent (sfFmt o.f) 1 r.1 r.2) (i2fVal o.f o.i o.rm (srcVal k t o.wide o.a)))) ∧
    (∀ o : FdotOp, Issues s (.fdot c o) x tm cr →
      exec (.fdot c o) s = .next (s.withResults x tm cr (.fdot c o) 4 fun k t =>
        floatRes false o.d (fun r => excEvent Machine.f32 1 r.1 r.2)
          (fdotVal o.st o.rm o.ftz (srcVal k t false o.a) (srcVal k t false o.b) (srcVal k t false o.c)))) ∧
    (∀ o : BqntScale, Issues s (.bqntScale c o) x tm cr →
      exec (.bqntScale c o) s = .next (s.withResults x tm cr (.bqntScale c o) 4 fun k t =>
        floatRes false o.d (fun r => .exc (excClasses (r.1 == 255) false r.2) r.1)
          (bqntScaleVal o.ef (srcVal k t false o.a)))) ∧
    (∀ o : BqntElem, Issues s (.bqntElement c o) x tm cr →
      exec (.bqntElement c o) s = .next (s.withResults x tm cr (.bqntElement c o) 4 fun k t =>
        floatRes false o.d (fun r => excEvent (efFmt o.ef) 1 r.1 r.2)
          (bqntElemVal o.ef o.rm o.sat (srcVal k t false o.a) (srcVal k t false o.b)))) ∧
    (∀ o : BdqOp, Issues s (.bdq c o) x tm cr →
      exec (.bdq c o) s = .next (s.withResults x tm cr (.bdq c o) 4 fun k t =>
        floatRes false o.d (fun r => excEvent Machine.f32 1 r.1 r.2)
          (bdqVal o.ef o.rm (srcVal k t false o.a) (srcVal k t false o.b))))

/-- R124, R130, R131: FCMP with a NaN is unordered and raises invalid for an ordering; zeros of either sign are equal; FCVT of a
NaN, an infinity and a zero; F2I of a NaN gives 0 and of an infinity the end of the range, both invalid. -/
def Claim.ConversionSpecialValues : Prop :=
  (∀ (t : FType) (cmp : FCmp) (ftz : Bool) (a b : Nat), ftX2 t = false →
    let f := ftFmt t
    a < 2 ^ fmtWidth f → b < 2 ^ fmtWidth f →
    let x := decodeF f a
    let y := decodeF f b
    let r := fcmpVal t cmp ftz a b
    (isNan x = true ∨ isNan y = true → r.1 = (cmp == .ne || cmp == .un) ∧
      r.2 = { nv := isSig x || isSig y || cmp == .lt || cmp == .le || cmp == .gt || cmp == .ge }) ∧
    (isZero x = true → isZero y = true → r = (cmp == .eq || cmp == .le || cmp == .ge || cmp == .ord, noFlags))) ∧
  (∀ (o : FcvtOp) (a b : Nat) (fs fd : Fmt), cfFmt o.st = some fs → cfFmt o.dt = some fd → cfX2 o.dt = false → o.hi = false →
    let x := decodeF fs (a % 2 ^ fmtWidth fs)
    let r := cvtVal o a b
    (isNan x = true → r = if fmtHasNan fd then (canonNan fd, { nv := isSig x }) else (0, nvFlag)) ∧
    (∀ s, x = .inf s → r = if fmtHasInf fd && !o.sat then (infF fd s, noFlags)
      else if fd = e4m3 ∧ o.sat = false then (canonNan fd, noFlags) else (zeroF fd s + maxBits fd, noFlags)) ∧
    (isZero x = true → r = (zeroF fd (isNeg x), noFlags))) ∧
  (∀ (st : SFmt) (it : IType) (rm : RMode) (a : Nat),
    let f := sfFmt st
    let x := decodeF f (a % 2 ^ fmtWidth f)
    (isNan x = true → f2iVal st it rm a = (0, nvFlag)) ∧
    (∀ s, x = .inf s → f2iVal st it rm a = (match it, s with
      | .n32, false => 2 ^ 32 - 1 | .n64, false => 2 ^ 64 - 1 | .n32, true => 0 | .n64, true => 0
      | .i32, false => 2 ^ 31 - 1 | .i64, false => 2 ^ 63 - 1 | .i32, true => 2 ^ 31 | .i64, true => 2 ^ 63, nvFlag)))

/-- R124, R128 to R135: the conversions, comparisons, dot products and block instructions complete, with their values at the
special operands; the K sources are the model's choice (log 21).
Complete here (exec answers next on these conditions alone): fcmp, fcls, fcvt, f2i, i2f, fdot, bqntScale, bqntElement,
bdq. -/
def Obligations.FloatConversionResults : Prop := Claim.FloatConversionsIssue ∧ Claim.ConversionSpecialValues

/-- R116, R118, R122, R125: a sum, difference, product, fused product-sum or reciprocal of finite operands is its exact value
rounded once: the exact value is that number of the format's smallest subnormals over a whole number, and the result is the
neighbour the mode names, or the overflow or tiny result of R116. An exact zero sum or product has the sign of R118. -/
def Claim.SumsAndProductsAreRounded : Prop :=
  ∀ (t : FType) (rm : RMode) (pi : Bool) (a b c : Nat), ftX2 t = false →
    let f := ftFmt t
    a < 2 ^ fmtWidth f → b < 2 ^ fmtWidth f → c < 2 ^ fmtWidth f →
    isFin (decodeF f a) = true → isFin (decodeF f b) = true → isFin (decodeF f c) = true →
    let x := f.signedUnits a
    let y := f.signedUnits b
    let z := f.signedUnits c
    let go := fun (n : Int) (d : Nat) (r : Nat × Flags) => n ≠ 0 → RoundsTo f rm false (decide (n < 0)) n.natAbs d r
    go (x + y) 1 (arithVal .add t rm false false a b c) ∧ go (x - y) 1 (arithVal .sub t rm false false a b c) ∧
    go (x * y) f.one (arithVal .mul t rm false false a b c) ∧
    go (x * y + z * f.one) f.one (arithVal .fma t rm false false a b c) ∧
    (x ≠ 0 → RoundsTo f rm false (decide (x < 0)) (f.one * f.one) x.natAbs (funVal .rcp t rm false pi a)) ∧
    (x * y = 0 → arithVal .mul t rm false false a b c = (zeroF f (f.negative a != f.negative b), noFlags)) ∧
    (x + y = 0 → arithVal .add t rm false false a b c =
      (zeroF f (if f.negative a = f.negative b then f.negative a else rm == .rdn), noFlags))

/-- R116, R130 to R132: FCVT and I2F deliver the exact value rounded to the destination; F2I the integer that the mode chooses,
clamped to the type with invalid raised where it does not fit. -/
def Claim.ConversionsAreRounded : Prop :=
  (∀ (o : FcvtOp) (a b : Nat) (fs fd : Fmt), cfFmt o.st = some fs → cfFmt o.dt = some fd → cfX2 o.dt = false → o.hi = false →
    o.ftz = false →
    let v := a % 2 ^ fmtWidth fs
    let x := fs.signedUnits v
    isFin (decodeF fs v) = true → x ≠ 0 →
    RoundsTo fd o.rm o.sat (decide (x < 0)) (x.natAbs * fd.one) fs.one (cvtVal o a b)) ∧
  (∀ (ft : SFmt) (it : IType) (rm : RMode) (a : Nat),
    let n := interp (itSgn it) (itBits it) (a % 2 ^ itBits it)
    (n = 0 → i2fVal ft it rm a = (0, noFlags)) ∧
    (n ≠ 0 → RoundsTo (sfFmt ft) rm false (decide (n < 0)) (n.natAbs * (sfFmt ft).one) 1 (i2fVal ft it rm a))) ∧
  (∀ (st : SFmt) (it : IType) (rm : RMode) (a : Nat),
    let f := sfFmt st
    let v := a % 2 ^ fmtWidth f
    isFin (decodeF f v) = true →
    let m := (f.signedUnits v).natAbs
    let neg := f.negative v
    let q := m / f.one
    let n := q + b2n (goesUp rm neg q (q * f.one) ((q + 1) * f.one) m)
    let r := f2iVal st it rm a
    (neg = true → itSgn it = false → r = if n = 0 then (0, { nx := decide (m ≠ 0) }) else (0, nvFlag)) ∧
    (neg = true → itSgn it = true → r = if n ≤ 2 ^ (itBits it - 1) then
      (ofSigned (itBits it) (-(n : Int)), { nx := decide (m ≠ q * f.one) }) else (2 ^ (itBits it - 1), nvFlag)) ∧
    (neg = false →
      let hi := if itSgn it then 2 ^ (itBits it - 1) - 1 else 2 ^ itBits it - 1
      r = if n ≤ hi then (n, { nx := decide (m ≠ q * f.one) }) else (hi, nvFlag)))

/-- R113, R116, R118, R122, R125, R130 to R132: what the float results are, as numbers: the exact value rounded once under the
mode, with its flags; a packed type computes each element on its own. -/
def Obligations.FloatValuesAreRounded : Prop :=
  Claim.SumsAndProductsAreRounded ∧ Claim.ConversionsAreRounded ∧
  (∀ (op : FArith) (rm : RMode) (ftz sat : Bool) (a b c : Nat),
    let go := fun (t u : FType) =>
      let lo := arithVal op u rm ftz sat (a % 2 ^ 16) (b % 2 ^ 16) (c % 2 ^ 16)
      let hi := arithVal op u rm ftz sat (a / 2 ^ 16 % 2 ^ 16) (b / 2 ^ 16 % 2 ^ 16) (c / 2 ^ 16 % 2 ^ 16)
      arithVal op t rm ftz sat a b c = (lo.1 + hi.1 * 2 ^ 16, orFlags lo.2 hi.2)
    go .f16x2 .f16 ∧ go .bf16x2 .bf16)

/-- R71, R86 to R90, R39: the cross-lane instructions complete. The participants are the members whose guard is true; a
lane with no participant delivers the fill value, and a reduction takes the lanes in rising order.
Complete here (exec answers next on these conditions alone): shfl, vote, lred, lscan, matchLanes. -/
def Obligations.CrossLaneResults : Prop :=
  ∀ (s : State) (x : Issue) (tm : Team) (cr : Crew) (c : Common),
    let at' := fun (i : Instr) (l : Nat) => partAt (partsOf tm (x.doers tm i)) l
    (∀ o : ShflOp, Issues s (.shfl c o) x tm cr →
      exec (.shfl c o) s = .next (s.withResults x tm cr (.shfl c o) 4 fun k t =>
        { v := vPut o.wide o.d.val
            (match (shflSource o.mode t.lane (srcVal k t false o.b)).bind (at' (.shfl c o)) with
             | some u => u.vw o.wide o.a.val
             | none => optVal k t o.wide o.fill) })) ∧
    (∀ o : VoteOp, Issues s (.vote c o) x tm cr →
      let v := fun l => match at' (.vote c o) l with | some u => u.pr o.p | none => o.fill
      exec (.vote c o) s = .next (s.withResults x tm cr (.vote c o) 4 fun _ _ =>
        match o.dst with
        | .any d => { p := some (d.val, (List.range 64).any v) }
        | .all d => { p := some (d.val, (List.range 64).all v) }
        | .ballot d => { v := vPut true d.val ((List.range 64).foldl (fun a j => a + b2n (v j) * 2 ^ j) 0) })) ∧
    (∀ o : FoldOp, Issues s (.lred c o) x tm cr →
      exec (.lred c o) s = .next (s.withResults x tm cr (.lred c o) 4 fun k t =>
        foldRes o (partsOf tm (x.doers tm (.lred c o))) k t 64)) ∧
    (∀ o : FoldOp, Issues s (.lscan c o) x tm cr →
      exec (.lscan c o) s = .next (s.withResults x tm cr (.lscan c o) 4 fun k t =>
        foldRes o (partsOf tm (x.doers tm (.lscan c o))) k t (if o.excl then t.lane else t.lane + 1))) ∧
    (∀ o : MatchOp, Issues s (.matchLanes c o) x tm cr →
      exec (.matchLanes c o) s = .next (s.withResults x tm cr (.matchLanes c o) 4 fun _ t =>
        { v := vPut true o.d.val ((List.range 64).foldl (fun a j => a + b2n (match at' (.matchLanes c o) j with
            | some u => u.vw o.wide o.a.val == t.vw o.wide o.a.val
            | none => false) * 2 ^ j) 0) }))

/-- R37, R39, R41: a register instruction's result in flight changes, in every thread that executes it, its completion
flag (counted up) and its results in flight, and nothing else of any thread; no other thread, no byte of memory, no tag,
no full-empty bit and no part of the device outside the teams changes. A member whose guard is false is unchanged. -/
def Claim.ResultInFlightFrame : Prop :=
  ∀ (s : State) (x : Issue) (tm : Team) (cr : Crew) (i : Instr) (lat : Nat) (f : List DWord → Thread → Res),
    Issues s i x tm cr →
    let s' := s.withResults x tm cr i lat f
    (∀ (id j : Nat) (t : Thread), s.thr? id j = some t →
      if id = x.team ∧ j ∈ x.doers tm i then
        s'.thr? id j = some { t.incF (setfOf (commonOf i)) with wb := t.wb ++ [resWb x t (commonOf i) lat (f cr.k t)] }
      else s'.thr? id j = some t) ∧
    (∀ j ∈ x.active, j ∉ x.doers tm i → ∀ t, s.thr? x.team j = some t → t.guard (commonOf i) = false ∧
      s'.thr? x.team j = some t) ∧
    (∀ key, s'.read key 1 = s.read key 1) ∧ s'.tags = s.tags ∧ s'.full = s.full ∧ s'.bad = s.bad ∧
    s'.cores = s.cores ∧ s'.ctxs = s.ctxs ∧ s'.host = s.host ∧ s'.spans = s.spans ∧ s'.lots = s.lots ∧
    s'.hostMem = s.hostMem ∧ s'.mgmt = s.mgmt

/-- R39, R40, R41, R107, R120: results are written when their cc has come and not before, whatever else is in flight and
whatever the cones see of them (R389). Those due are written in program order: a register or predicate holds the value of the
youngest result due that names it, and one that none names keeps its contents; FXF takes the flags of all, and each counts its
completion flag down. Those not due stay in flight. -/
def Claim.ResultsWrittenWhenDue : Prop :=
  ∀ (s : State) (id j now : Nat) (t : Thread), s.thr? id j = some t →
    let due := t.wb.filter fun e => decide (e.due ≤ now)
    let key := fun (e : Wb) => (e.due, e.issued, e.setf, e.fx, e.k, e.ld)
    ∃ u, (s.commit id j now).thr? id j = some u ∧ u.pc = t.pc ∧ u.status = t.status ∧
      u.wb.map key = (t.wb.filter fun e => decide (now < e.due)).map key ∧
      u.f = (due.foldl (fun z e => z.decF e.setf) t).f ∧
      (∀ n, (∀ e ∈ due, ∀ w ∈ e.v, w.1 ≠ n) → u.v.getD n 0 = t.v.getD n 0) ∧
      (∀ a e b n y, due = a ++ e :: b → n < t.v.length → (∀ q ∈ b, ∀ w ∈ q.v, w.1 ≠ n) → (n, y) ∈ e.v →
        (∀ z, (n, z) ∈ e.v → z = y) → u.v.getD n 0 = y) ∧
      (∀ n, (∀ e ∈ due, ∀ y, e.p ≠ some (n, y)) → u.p.getD n false = t.p.getD n false) ∧
      (∀ a e b n y, due = a ++ e :: b → n < t.p.length → (∀ q ∈ b, ∀ z, q.p ≠ some (n, z)) → e.p = some (n, y) →
        u.p.getD n false = y) ∧
      ((∀ e ∈ due, e.x = none) →
        u.sys.fxf = due.foldl (fun a e => a ||| BitVec.ofNat 32 (e.fx % 32)) t.sys.fxf ∧ { u.sys with fxf := t.sys.fxf } = t.sys)

/-- R40: of two results in flight of which the younger is written first, the older one loses the registers and the predicate
that the younger wrote, so that they end holding the younger value. R389: a result that meets a cone shows its event in the cc
in which it is written: the state with the result written observes it. -/
def Claim.YoungerResultStands : Prop :=
  ∀ (s : State) (id j now : Nat) (t : Thread), s.thr? id j = some t →
    (∀ e q : Wb, t.wb = [e, q] → now < e.due → q.due ≤ now →
      ∃ u o, (s.commit id j now).thr? id j = some u ∧ u.wb = [o] ∧ o.due = e.due ∧
        o.v = e.v.filter (fun w => !(q.v.any fun z => z.1 == w.1)) ∧
        o.p = (match e.p, q.p with | some a, some b => if a.1 = b.1 then none else some a | a, _ => a)) ∧
    (∀ (e : Wb) (n : ConeNote), t.wb = [e] → e.due ≤ now → t.pend = [] → e.k = none → e.x = none → e.note = some n →
      ∃ (s1 : State) (u : Thread), s1.thr? id j = some u ∧ u.v = (t.putV e.v).v ∧ u.wb = [] ∧ s1.teams.map (fun tm => tm.cones) =
        s.teams.map (fun tm => tm.cones) ∧ s.commit id j now = s1.observe id j n)

/-- A fixed-latency instruction changes nothing but its results in flight, and these are written when due. -/
def Obligations.ResultsAreWrittenWhenDue : Prop := Claim.ResultInFlightFrame ∧ Claim.ResultsWrittenWhenDue ∧
  Claim.YoungerResultStands

/-! ### Control, chapters 02 and 03 -/

/-- R107, R96, R39: SMOV as a read completes with the system register's value at its cc; R95, R108: KMOV into K completes
with the writing thread's value. -/
def Claim.SystemAndCrewRegisterMoves : Prop :=
  ∀ (s : State) (x : Issue) (tm : Team) (cr : Crew) (j : Nat) (t : Thread) (c : Common),
    (∀ o : SmovRead, IssuesAlone s (.smovRead c o) x tm cr j t →
      exec (.smovRead c o) s = .next (s.started.modThr x.team j fun _ => t.pushRes x c 2
        { v := vPut o.wide o.d.val (s.sysRead tm t (x.t0 + x.now) o.sr.val) })) ∧
    (∀ o : KmovOp, IssuesAlone s (.kmovToK c o) x tm cr j t →
      exec (.kmovToK c o) s = .next (s.started.modThr x.team j fun _ =>
        { t.pushRes x c 2 { k := some (o.k.val, some (BitVec.ofNat 64 (t.vw o.wide o.v.val))) } with
          kOwn := tabPut 0 t.kOwn o.k.val (x.t0 + x.now + 1) }))

/-- R95: within one issue group the value of the guard-true writer on the highest lane stands. -/
def Claim.HighestLaneWritesK : Prop :=
  ∀ (tm : Team) (ms : List Nat) (j : Nat), (∀ i ∈ ms, (tm.threads[i]?).isSome) → highest tm ms = some j →
    j ∈ ms ∧ ∀ i ∈ ms, ∀ t u, tm.threads[i]? = some t → tm.threads[j]? = some u → t.lane ≤ u.lane

/-- The moves of system and crew registers, and which lane a K register keeps.
Complete here (exec answers next on these conditions alone): smovRead, kmovToK. -/
def Obligations.RegisterMovesComplete : Prop := Claim.SystemAndCrewRegisterMoves ∧ Claim.HighestLaneWritesK

/-- R48: NOP changes no state; R85: YIELD n makes its thread not ready for n cc. Both complete. -/
def Claim.NopAndYieldComplete : Prop :=
  ∀ (s : State) (x : Issue) (tm : Team) (cr : Crew) (c : Common),
    (∀ imm, Issues s (.nop c imm) x tm cr → exec (.nop c imm) s = .next s.started) ∧
    (∀ (n : BitVec 12) (j : Nat) (t : Thread), IssuesAlone s (.yield c n) x tm cr j t →
      ∃ s', exec (.yield c n) s = .next s' ∧
        s'.thr? x.team j = some { t with yieldLeft := if n.toNat = 0 then 0 else n.toNat + 1 })

/-- R78, R79: a branch, call or return whose target is aligned, can be fetched and, where the form checks it, is a
landing pad with the named tag completes: its thread's next clause is the target, and a call's link pair gets the
fall-through address 1 cc later. -/
def Claim.BranchesComplete : Prop :=
  ∀ (s : State) (x : Issue) (tm : Team) (cr : Crew) (j : Nat) (t : Thread) (c : Common) (cx : Context) (h : DWord),
    s.ctx? tm.asid = some cx →
    let go := fun (i : Instr) (target : Nat) (tag : Option (BitVec 12)) (link : Option VReg) =>
      IssuesAlone s i x tm cr j t → target % 8 = 0 → target < 2 ^ 64 →
      s.fetchWord cx tm.core target (x.crew == 7) = .ok h →
      (∀ g, tag = some g → hdrPad h = true ∧ hdrTag h = g.toNat) →
      ∃ s', exec i s = .next s' ∧ s'.mem = s.mem ∧ s'.thr? x.team j = some
        (match link with
         | none => { t with pc := BitVec.ofNat 64 target, must := none }
         | some r => Thread.pushRes x c 1 { v := vPut true r.val x.fall.toNat }
             { t with pc := BitVec.ofNat 64 target, must := none })
    (∀ tgt, go (.bra c tgt) (x.ca + BitVec.signExtend 64 tgt * 8).toNat none none) ∧
    (∀ (r : VReg) tag, go (.brx c r tag) (t.v64 r.val) (some tag) none) ∧
    (∀ (r : VReg) tgt, go (.call c r tgt) (x.ca + BitVec.signExtend 64 tgt * 8).toNat none (some r)) ∧
    (∀ (r : VReg) tag, go (.callx c r tag) (t.v64 r.val) (some tag) (some r)) ∧
    (∀ (r : VReg), go (.ret c r) (t.v64 r.val) none none) ∧
    (∀ (r : VReg) tag, go (.retChecked c r tag) (t.v64 r.val) (some tag) none)

/-- R78: a branch to a misaligned target takes the branch fault, kind 3, with cause 1, and a form with a tag takes it with cause
2 where the target's header is no landing pad and cause 3 where its tag is another; FADDR is the target, and no register changes,
the link pair neither: the thread traps where nothing of it is in flight. -/
def Claim.BranchFaultsTrap : Prop :=
  ∀ (s : State) (x : Issue) (tm : Team) (cr : Crew) (j : Nat) (t : Thread) (c : Common) (r : VReg) (tag : BitVec 12),
    t.crew ≠ 7 → t.pend = [] → t.late = [] → t.wb = [] →
    let target := t.v64 r.val
    let go := fun (i : Instr) (cause : Nat) => IssuesAlone s i x tm cr j t →
      ∃ s', exec i s = .next s' ∧ ∃ u, s'.thr? x.team j = some u ∧ u.status = .trapped ∧ u.v = t.v ∧
        u.sys.fcode.toNat = 3 + 256 * cause ∧ u.sys.faddr.toNat = target % 2 ^ 64 ∧ u.sys.fword = x.word ∧
        u.sys.frec = t.sys.region ∧ u.sys.ford = t.sys.lastord
    let tagged := fun (cause : Nat) =>
      go (.brx c r tag) cause ∧ go (.callx c r tag) cause ∧ go (.retChecked c r tag) cause
    (target % 8 ≠ 0 → go (.ret c r) 1 ∧ tagged 1) ∧
    (∀ cx h, target % 8 = 0 → s.ctx? tm.asid = some cx → s.fetchWord cx tm.core target (x.crew == 7) = .ok h →
      (hdrPad h = false → tagged 2) ∧ (hdrPad h = true → hdrTag h ≠ tag.toNat → tagged 3))

/-- R84, R286: EXIT of a thread with nothing in flight ends it: its state is ended, or idle in a fragment crew, and it
holds no fragment. -/
def Claim.ExitEndsTheThread : Prop :=
  ∀ (s : State) (x : Issue) (tm : Team) (cr : Crew) (j : Nat) (t : Thread) (c : Common),
    IssuesAlone s (.exit c) x tm cr j t → t.pend = [] → t.waits = [] → t.late = [] → t.copiesDone = true →
    t.dbg.req = none → t.wb = [] → t.crew = x.crew →
    ∃ s', exec (.exit c) s = .next s' ∧ ∃ u, s'.thr? x.team j = some u ∧ u.frag = none ∧ u.waits = [] ∧
      u.status = if cr.role = .fragment then .idle else .ended

/-- NOP, YIELD, the branches and EXIT complete; a branch that fails a check of its target traps.
Complete here (exec answers next on these conditions alone): nop, yield, bra, brx, call, callx, ret, retChecked, exit. -/
def Obligations.ControlFlowCompletes : Prop :=
  Claim.NopAndYieldComplete ∧ Claim.BranchesComplete ∧ Claim.BranchFaultsTrap ∧ Claim.ExitEndsTheThread

/-- R80, R82: a JINIT form and JLEAVE set the mask of Jn of their thread's strand; where no member of the new mask is
still awaited and it is not empty, the rejoin completes (R66) and is the subject of another statement. -/
def Claim.RejoinMaskInstructionsComplete : Prop :=
  ∀ (s : State) (x : Issue) (tm : Team) (c0 cr : Crew) (i : Nat) (t : Thread) (c : Common) (j : Fin 16),
    tm.crew? x.crew = some c0 → t.crew = x.crew →
    let old := c0.rejoin t.strand j.val
    let live := liveLanes tm t.crew t.strand
    let go := fun (k : Instr) (mask : Nat) => IssuesAlone s k x tm cr i t →
      t.strand < c0.strands.length → j.val < (c0.strands.getD t.strand []).length →
      (Rejoin.complete { old with mask := mask } = false) →
      ∃ s', exec k s = .next s' ∧ s'.mem = s.mem ∧ ∃ tm' cr', s'.team? x.team = some tm' ∧ tm'.crew? t.crew = some cr' ∧
        cr'.rejoin t.strand j.val = { old with mask := mask } ∧ tm'.threads = tm.threads
    go (.jinitLive c j) live ∧ go (.jinitSelf c j) (old.mask ||| 2 ^ t.lane) ∧ go (.jinitClear c j) 0 ∧
    (∀ k : KReg, go (.jinitK c j k) ((cr.k.getD k.val 0).toNat &&& live)) ∧
    go (.jleave c j) (old.mask - (old.mask &&& 2 ^ t.lane))

/-- R81: JOIN of a thread whose lane is not in Jn goes on; of a thread whose lane is in it, and whose accesses have
performed, it arrives: the thread waits, joined, until the rejoin completes. -/
def Claim.JoinCompletes : Prop :=
  ∀ (s : State) (x : Issue) (tm : Team) (c0 cr : Crew) (i : Nat) (t : Thread) (c : Common) (j : Fin 16),
    IssuesAlone s (.join c j) x tm cr i t → t.inSection = false → tm.crew? x.crew = some c0 → t.crew = x.crew →
    let r := c0.rejoin t.strand j.val
    (r.mask.testBit t.lane = false → exec (.join c j) s = .next s.started) ∧
    (r.mask.testBit t.lane = true → t.pend = [] → t.waits = [] → t.wb = [] →
      t.strand < c0.strands.length → j.val < (c0.strands.getD t.strand []).length →
      (Rejoin.complete { r with arr := r.arr ||| 2 ^ t.lane } = false) →
      ∃ s', exec (.join c j) s = .next s' ∧ s'.thr? x.team i = some { t with status := .joined j.val } ∧
        ∃ tm' cr', s'.team? x.team = some tm' ∧ tm'.crew? t.crew = some cr' ∧
          cr'.rejoin t.strand j.val = { r with arr := r.arr ||| 2 ^ t.lane })

/-- R66, R67: when every lane of a mask that is not empty has arrived, the arrival set empties and every arrived thread
leaves the rejoin in a held group of its continuation address. -/
def Claim.CompleteRejoinReleases : Prop :=
  ∀ (s : State) (id crew str j : Nat) (banked : Bool) (tm : Team) (cr : Crew), s.team? id = some tm → tm.crew? crew = some cr →
    (cr.rejoin str j).complete = true → str < cr.strands.length → j < (cr.strands.getD str []).length →
    let s' := s.testJoin id crew str j banked
    (∀ i ∈ arrived tm crew str j, ∃ u, s'.thr? id i = some u ∧ u.status = .grouped) ∧
    s'.holds = s.holds ++ groupsOf tm crew s.nextId (arrived tm crew str j) ∧ s'.mem = s.mem ∧
    (∃ tm' cr', s'.team? id = some tm' ∧ tm'.crew? crew = some cr' ∧ (cr'.rejoin str j).arr = 0 ∧
      (cr'.rejoin str j).mask = (cr.rejoin str j).mask)

/-- The rejoin instructions complete, and a complete mask releases its group.
Complete here (exec answers next on these conditions alone): jinitLive, jinitSelf, jinitClear, jinitK, jleave, join. -/
def Obligations.RejoinsComplete : Prop := Claim.RejoinMaskInstructionsComplete ∧ Claim.JoinCompletes ∧ Claim.CompleteRejoinReleases

/-! ### Memory, chapter 06 -/

/-- R165, R166, R41: a load whose check ends well goes in flight as a flagged operation with its effective address. R165: of a
load of the lane slice or the core share with FEQ 00 a result goes in flight that is due at 8 cc, and its read with it: that the
read is made at some moment before the result is written is the model's choice (log 117). That the check is made at issue is the
model's choice too (log 14). Memory, tags, full-empty bits and every other thread are unchanged. -/
def Claim.LoadsIssue : Prop :=
  ∀ (s : State) (x : Issue) (tm : Team) (cr : Crew) (j : Nat) (t : Thread) (c : Common) (o : LdOp) (key : Nat)
    (rt : Option Route),
    IssuesAlone s (.ld c o) x tm cr j t → s.quiet →
    let w := widthBytes o.w
    let ea := effAddr o.space (srcVal cr.k t (isMem o.space) o.base) o.off
    let r := (s.started.checked x j o.space ea w .rd 0).r
    (ldFixed o = false → r.routed s tm key rt →
      Gives (.ld c o) s x.team j (t.withOp s x (.ld c o) [ea] fun u => { u with key := key, len := w, route := rt })) ∧
    (ldFixed o = true → r = .ok key →
      ∃ u, Gives (.ld c o) s x.team j u ∧ (∃ e, u.wb = t.wb ++ [e] ∧ e.due = x.t0 + x.now + 8 ∧ e.setf = setfOf c ∧
          e.ld = some s.nextId ∧ e.v.map (fun w => w.1) = (vPut (w == 8) o.data.val 0).map fun w => w.1) ∧
        (∃ q, u.pend = t.pend ++ [q] ∧ q.id = s.nextId ∧ q.i = .ld c o ∧ q.key = key ∧ q.len = w ∧ q.vals = [ea] ∧
          q.setf = none ∧ q.dst = [] ∧ q.res = none) ∧ u.v = t.v ∧ u.p = t.p ∧ u.f = (t.incF (setfOf c)).f)

/-- R162, R163, R360: a load whose check, made at issue (log 14), finds violation n writes the poison pattern to its destination and takes the
violation, kind 6 with cause n and the address as FADDR; a thread with nothing in flight is then trapped. -/
def Claim.ViolatingLoadTraps : Prop :=
  ∀ (s : State) (x : Issue) (tm : Team) (cr : Crew) (j : Nat) (t : Thread) (c : Common) (o : LdOp) (n : Nat),
    IssuesAlone s (.ld c o) x tm cr j t → s.quiet → t.crew ≠ 7 → t.pend = [] → t.late = [] → t.wb = [] →
    let w := widthBytes o.w
    let ea := effAddr o.space (srcVal cr.k t (isMem o.space) o.base) o.off
    (s.started.checked x j o.space ea w .rd 0).r = .viol n →
    ∃ s', exec (.ld c o) s = .next s' ∧ ∃ u, s'.thr? x.team j = some u ∧ u.status = .trapped ∧
      u.v = (t.putV ((vreg2 (w == 8) o.data).map fun d => (d, 0x7FA00BAD#32))).v ∧
      u.sys.fcode = BitVec.ofNat 32 (6 + n % 256 * 256) ∧ u.sys.faddr = BitVec.ofNat 64 ea ∧ u.sys.fword = x.word ∧
      u.sys.frec = t.sys.region ∧ u.sys.ford = t.sys.lastord

/-- R167, R168, R41: a store whose check ends well goes in flight with its address and value; nothing is written yet. -/
def Claim.StoresIssue : Prop :=
  ∀ (s : State) (x : Issue) (tm : Team) (cr : Crew) (j : Nat) (t : Thread) (c : Common) (o : StOp) (key : Nat)
    (rt : Option Route), s.quiet →
    let w := widthBytes o.w
    let ea := effAddr o.space (srcVal cr.k t (isMem o.space) o.base) o.off
    let vals := [ea, t.vw (w == 8) o.data.val % 2 ^ (8 * w)]
    let go := fun (i : Instr) => Gives i s x.team j (t.withOp s x i vals fun u => { u with key := key, len := w, route := rt })
    (s.started.checked x j o.space ea w .wr 1 true).r.routed s tm key rt →
    (IssuesAlone s (.st c o) x tm cr j t → go (.st c o)) ∧
    (IssuesAlone s (.stt c o) x tm cr j t → ¬ (o.space = .chip ∧ 2 ^ 31 ≤ ea) → go (.stt c o))

/-- R151, R167, R168, R148: a store performs at its order point: its bytes, least significant first, stand at its key, and
STT's destination gets the line's next tag; bytes elsewhere are as they were. `p` is free. -/
def Claim.StoresPerform : Prop :=
  ∀ (s : State) (p : PerformOp) (tm : Team) (t : Thread) (o : Op) (c : Common) (q : StOp),
    Pending s p.team p.thr p.id tm t o → (o.i = .st c q ∨ o.i = .stt c q) →
    (o.key < 2 ^ 40 → s.coreStores tm.core o.key o.len = [o]) → isPeer o.key = false → s.poisoned o.key o.len = false →
    Memory.wf s.mem = true →
    ∃ s', exec (.orderPointWrite p) s = .next s' ∧
      s'.bytes o.key o.len = natLe o.len (o.vals.getD 1 0) ∧ MemOutside s' s o.key o.len ∧
      OpPerformed s' p.team p.thr p.id o (match o.i with
        | .stt _ z => [(z.data.val, BitVec.ofNat 32 (s'.tagAt o.key))]
        | _ => [])

/-- Stores issue and perform.
Complete here (exec answers next on these conditions alone): st, stt, orderPointWrite. -/
def Obligations.StoresComplete : Prop := Claim.StoresIssue ∧ Claim.StoresPerform

/-- R149, R166: a load of a scratchpad space performs where its bytes are not poisoned and, under FEQ wfull or take, its
granule is full: the value is on its way to its destination, and take leaves the granule empty. R166: a load of local
attached memory that misses the L1 reads the home bytes; R147: an invariant one may return what the line has held since its lot
began, which line and when being the model's free choice (log 126). R165: the read of a fixed load of the lane slice or the core
share puts its value into the result in flight, and is over. -/
def Claim.LoadsPerform : Prop :=
  ∀ (s : State) (p : PerformOp) (tm : Team) (t : Thread) (o : Op) (c : Common) (q : LdOp),
    Pending s p.team p.thr p.id tm t o → o.i = .ld c q → isPeer o.key = false →
    s.poisoned o.key o.len = false → tabOk false s.full = true →
    (ldFixed q = true →
      ∃ (s' : State) (u : Thread), exec (.flaggedCompletion p) s = .next s' ∧ s'.mem = s.mem ∧ s'.thr? p.team p.thr = some u ∧ u.v = t.v ∧
        u.pend.map (fun z => z.id) = (t.pend.map fun z => z.id).filter (fun k => k != o.id) ∧ u.wb.length = t.wb.length ∧
        ∀ (k : Nat) (e z : Wb), t.wb[k]? = some e → u.wb[k]? = some z →
          if e.ld = some o.id ∧ e.v.map (fun w => w.1) = (vPut (o.len == 8) q.data.val 0).map (fun w => w.1) then
            z.v = vPut (o.len == 8) q.data.val (s.read o.key o.len) ∧ z.ld = none ∧ z.due = e.due
          else e.ld ≠ some o.id → z = e) ∧
    (ldFixed q = false →
    (∀ bs, o.key < 2 ^ 40 → q.inv = true → s.pastLine tm.lot (o.key / 128) = some bs →
      ∃ s', exec (.flaggedCompletion p) s = .next s' ∧ s'.mem = s.mem ∧ OpPerformed s' p.team p.thr p.id o
        (vPut (o.len == 8) q.data.val (leNat ((bs.drop (o.key % 128)).take o.len)))) ∧
    (2 ^ 40 ≤ o.key → (q.feq ≠ .ignore → s.fullAt o.key = true) →
      ∃ s', exec (.flaggedCompletion p) s = .next s' ∧ s'.mem = s.mem ∧
        OpPerformed s' p.team p.thr p.id o (vPut (o.len == 8) q.data.val (s.read o.key o.len)) ∧
        s'.fullAt o.key = if q.feq = .take then false else s.fullAt o.key) ∧
    (o.key < 2 ^ 40 → (s.l1.all fun l => l.core != tm.core || l.line != o.key / 128) = true → s.coreStores tm.core o.key o.len = [] →
      (q.inv = true → s.pastLine tm.lot (o.key / 128) = none) →
      ∃ s', exec (.flaggedCompletion p) s = .next s' ∧ s'.mem = s.mem ∧
        OpPerformed s' p.team p.thr p.id o (vPut (o.len == 8) q.data.val (s.read o.key o.len))))

/-- Loads issue, perform, or trap on a violation; when a fixed load reads is the model's choice (log 117), and so is the check at
issue (log 14).
Complete here (exec answers next on these conditions alone): ld, flaggedCompletion. -/
def Obligations.LoadsComplete : Prop := Claim.LoadsIssue ∧ Claim.ViolatingLoadTraps ∧ Claim.LoadsPerform

/-- R41, R42, R119: a performed operation completes: it leaves the operations in flight, its destination registers, FXF and
its completion flag take their new values, and memory and every other thread are as they were.
Complete here (exec answers next on these conditions alone): flaggedCompletion. -/
def Obligations.PerformedOperationCompletes : Prop :=
  ∀ (s : State) (p : PerformOp) (tm : Team) (t : Thread) (o : Op) (ws : List (Nat × Word)),
    s.team? p.team = some tm → s.thr? p.team p.thr = some t → t.op? p.id = some o → o.res = some ws →
    isDebugOp o.i = false → t.status ≠ .stopped → t.wbBlocks o = false → p.only = none → s.quiet →
    (∀ w ∈ ws, w.1 ∈ o.dst) →
    ∃ u, Gives (.flaggedCompletion p) s p.team p.thr u ∧ u.v = (t.putV ws).v ∧ u.p = t.p ∧
      u.sys.fxf.toNat = t.sys.fxf.toNat ||| o.fx % 32 ∧ u.f = (t.decF o.setf).f ∧
      u.pend.map (·.id) = (t.pend.map (·.id)).filter fun k => k != o.id

/-- R169 to R172: the prefetches, pins and flushes complete. PREF and a CFLUSH go in flight, PREF also where its access
would violate; IPREF, IPIN and IUNPIN act as they issue and change no thread and no memory.
Complete here (exec answers next on these conditions alone): pref, ipref, ipin, iunpin, cflushL1, cflushClean,
cflushInval, cflushTlb, cflushAsid, cflushCtx. -/
def Claim.PrefetchesPinsAndFlushesIssue : Prop :=
  ∀ (s : State) (x : Issue) (tm : Team) (cr : Crew) (j : Nat) (t : Thread) (c : Common),
    (∀ o : PrefOp, IssuesAlone s (.pref c o) x tm cr j t → ∃ vals,
      Gives (.pref c o) s x.team j (t.withOp s x (.pref c o) vals)) ∧
    (∀ o : IprefOp,
      (IssuesAlone s (.ipref c o) x tm cr j t → Gives (.ipref c o) s x.team j t) ∧
      (IssuesAlone s (.ipin c o) x tm cr j t → Gives (.ipin c o) s x.team j t) ∧
      (IssuesAlone s (.iunpin c o) x tm cr j t → Gives (.iunpin c o) s x.team j t)) ∧
    (∀ o : FlushOp, let ea := effAddr .mem (srcVal cr.k t true o.base) o.off
      (∀ key, (s.started.checked x j .mem ea 1 .any 0).r = .ok key →
        (IssuesAlone s (.cflushL1 c o) x tm cr j t →
          Gives (.cflushL1 c o) s x.team j (t.withOp s x (.cflushL1 c o) [ea, key, 1])) ∧
        (IssuesAlone s (.cflushClean c o) x tm cr j t →
          Gives (.cflushClean c o) s x.team j (t.withOp s x (.cflushClean c o) [ea, key, 1])) ∧
        (IssuesAlone s (.cflushInval c o) x tm cr j t →
          Gives (.cflushInval c o) s x.team j (t.withOp s x (.cflushInval c o) [ea, key, 1]))) ∧
      (IssuesAlone s (.cflushTlb c o) x tm cr j t →
        Gives (.cflushTlb c o) s x.team j (t.withOp s x (.cflushTlb c o) [ea])) ∧
      (IssuesAlone s (.cflushAsid c o) x tm cr j t →
        Gives (.cflushAsid c o) s x.team j (t.withOp s x (.cflushAsid c o) [ea])) ∧
      (IssuesAlone s (.cflushCtx c o) x tm cr j t →
        Gives (.cflushCtx c o) s x.team j (t.withOp s x (.cflushCtx c o) [ea])))

/-- R170: IUNPIN takes one pin of its team from each line of its range that the core holds; IPIN of one line that the core holds
under its present translation adds one, where the line is pinned already or fewer than 256 lines of the core are. -/
def Claim.PinsAreCounted : Prop :=
  ∀ (s : State) (x : Issue) (tm : Team) (cr : Crew) (j : Nat) (t : Thread) (c : Common) (o : IprefOp) (cx : Context),
    s.ctx? tm.asid = some cx →
    let first := directTarget x o.tgt / 128
    (IssuesAlone s (.iunpin c o) x tm cr j t →
      ∃ s', exec (.iunpin c o) s = .next s' ∧ s'.icache = s.icache.map fun l =>
        if l.core = tm.core ∧ l.asid = tm.asid ∧ first ≤ l.line ∧ l.line < first + 2 ^ o.n.val then
          { l with pins := l.pins.erase tm.id } else l) ∧
    (∀ l ∈ s.icache, IssuesAlone s (.ipin c o) x tm cr j t → o.n.val = 0 → first < 2 ^ 42 →
      l.core = tm.core → l.asid = tm.asid → cx.r.asid = tm.asid → l.line = first →
      s.xlate cx (some (clusterOf tm.core)) (first * 128) .ex (x.crew == 7) = .ok l.pa →
      ∃ s' z, exec (.ipin c o) s = .next s' ∧ z ∈ s'.icache ∧ z.core = l.core ∧ z.asid = l.asid ∧ z.line = l.line ∧
        z.pa = l.pa ∧ z.data = l.data ∧
        z.pins = if l.pins ≠ [] ∨ s.pinnedLines tm.core < 256 then l.pins ++ [tm.id] else l.pins)

/-- R172, R145, R175, R177: what a flush does when it performs: CFLUSH.l1 takes its line out of the core's L1, CFLUSH.inval out
of L2 too; all three lines' forms return the line where it is checked out; CFLUSH.tlb drops the translations of its context that
hold its address, CFLUSH.asid all of the context's, and CFLUSH.ctx every line homed under the context's seed. No byte of memory
changes, and each completes. -/
def Claim.FlushesPerform : Prop :=
  ∀ (s : State) (p : PerformOp) (tm : Team) (t : Thread) (o : Op) (c : Common) (q : FlushOp) (cx : Context),
    Pending s p.team p.thr p.id tm t o → o.dst = [] → s.ctx? tm.asid = some cx →
    let line := o.vals.getD 1 0 / 128
    let here := fun (l : L1Line) => l.core = tm.core ∧ l.line = line
    let go := fun (f : State → Prop) => ∃ s', exec (.flaggedCompletion p) s = .next s' ∧ s'.mem = s.mem ∧ s'.tags = s.tags ∧
      OpDone s' p.team p.thr t o [] t.p ∧ f s'
    let back := fun (s' : State) => ∀ k, k ∈ s'.checkouts ↔ k ∈ s.checkouts ∧ k.line ≠ line
    let gone := fun (s' : State) => ∀ l, l ∈ s'.l1 ↔ l ∈ s.l1 ∧ ¬ here l
    (o.vals.getD 2 0 = 1 →
      (o.i = .cflushL1 c q → go fun s' => gone s' ∧ back s' ∧ s'.l2 = s.l2) ∧
      (o.i = .cflushClean c q → go fun s' => s'.l1 = s.l1 ∧ back s' ∧ s'.l2 = s.l2) ∧
      (o.i = .cflushInval c q → go fun s' => gone s' ∧ back s' ∧
        ∀ e, e ∈ s'.l2 ↔ e ∈ s.l2 ∧ ¬ (e.line = line ∧ e.seed = cx.r.seed))) ∧
    (o.i = .cflushTlb c q → go fun s' =>
      ∀ e, e ∈ s'.tlb ↔ e ∈ s.tlb ∧ ¬ (e.asid = tm.asid ∧ e.base ≤ o.ea ∧ o.ea < e.base + e.size)) ∧
    (o.i = .cflushAsid c q → go fun s' => ∀ e, e ∈ s'.tlb ↔ e ∈ s.tlb ∧ e.asid ≠ tm.asid) ∧
    (o.i = .cflushCtx c q → go fun s' => s'.checkouts = [] ∧ ∀ e, e ∈ s'.l2 ↔ e ∈ s.l2 ∧ e.seed ≠ cx.r.seed)

/-- Prefetches, pins and flushes issue, and act on the lines they name.
Complete here (exec answers next on these conditions alone): pref, ipref, ipin, iunpin, cflushL1, cflushClean,
cflushInval, cflushTlb, cflushAsid, cflushCtx, flaggedCompletion. -/
def Obligations.PrefetchesPinsAndFlushesIssue : Prop :=
  Claim.PrefetchesPinsAndFlushesIssue ∧ Claim.PinsAreCounted ∧ Claim.FlushesPerform

/-- R154, R171, R178: a fence with nothing to wait for takes its effect as it issues and changes no register and no memory;
what is checked out to its core is checked out no more after a release of `.sys`, by which the monitors of those lines end.
R175: WAITM whose wake event has come disarms the monitor and goes on; while none comes it waits. That WAITM then leaves WAKER as
it was is the model's choice (log 38), and so is the event of a line in L2 or of a peer's block that may come at any time (logs 6
and 118). -/
def Claim.FencesAndWaitmComplete : Prop :=
  ∀ (s : State) (x : Issue) (tm : Team) (cr : Crew) (j : Nat) (t : Thread) (c : Common),
    (∀ sc : Scope, t.pend = [] → t.waits = [] →
      let sys := fun (i : Instr) => ∃ s' u, exec i s = .next s' ∧ s'.mem = s.mem ∧ s'.full = s.full ∧
        s'.thr? x.team j = some u ∧ { u with mon := t.mon } = t ∧ ∀ k ∈ s'.checkouts, k.core ≠ tm.core
      (IssuesAlone s (.fenceRel c sc) x tm cr j t →
        if sc = .sys then sys (.fenceRel c sc) else Gives (.fenceRel c sc) s x.team j t) ∧
      (IssuesAlone s (.fenceAcq c sc) x tm cr j t → Gives (.fenceAcq c sc) s x.team j t) ∧
      (IssuesAlone s (.fenceAr c sc) x tm cr j t →
        if sc = .sys then sys (.fenceAr c sc) else Gives (.fenceAr c sc) s x.team j t)) ∧
    (IssuesAlone s (.waitm c) x tm cr j t → t.inSection = false →
      (s.wakeNow t ≠ none → t.waits = [] → Gives (.waitm c) s x.team j { t with mon := none }) ∧
      (s.wakeNow t = none →
        Gives (.waitm c) s x.team j (t.withWait s x (.waitm c) [] fun u => { u with waited := true })) ∧
      (t.wakeEvent ≠ none → s.wakeNow t = t.wakeEvent) ∧
      (t.wakeEvent = none → (∀ m, t.mon = some m → 2 ^ 40 ≤ m.block ∧ isPeer m.block = false) →
        s.wakeNow t = none))

/-- R173, R149: FESET and FECLR whose check ends well go in flight, and perform: every granule of their range is full, or
empty, and memory is unchanged. R174: MONITOR arms the monitor on the 128-byte block of its address; that it arms as it issues
is the model's choice (log 38), with the block of a peer's window (log 118) and the right to read that it asks for (log 130). -/
def Claim.FullEmptyAndMonitorComplete : Prop :=
  ∀ (s : State) (x : Issue) (tm : Team) (cr : Crew) (j : Nat) (t : Thread) (c : Common), s.quiet →
    (∀ (o : FeOp) (key : Nat), let ea := effAddr o.space (srcVal cr.k t false o.base) o.off
      let n := 16 * 2 ^ o.n.val
      (s.started.checked x j o.space ea n .any 0).r = .ok key →
      (IssuesAlone s (.feset c o) x tm cr j t →
        Gives (.feset c o) s x.team j (t.withOp s x (.feset c o) [ea] fun u => { u with key := key, len := n })) ∧
      (IssuesAlone s (.feclr c o) x tm cr j t →
        Gives (.feclr c o) s x.team j (t.withOp s x (.feclr c o) [ea] fun u => { u with key := key, len := n }))) ∧
    (∀ (p : PerformOp) (u : Thread) (q : Op) (o : FeOp) (b : Bool), Pending s p.team p.thr p.id tm u q → u.pend = [q] → tabOk false s.full = true → (q.i = if b then .feset c o else .feclr c o) →
      ∃ s', exec (.flaggedCompletion p) s = .next s' ∧ s'.mem = s.mem ∧
        ∀ a, s'.fullAt a = if (unitsOf 16 q.key q.len).contains (a / 16 * 16) then b else s.fullAt a) ∧
    (∀ (o : MonOp) (key : Nat), IssuesAlone s (.monitor c o) x tm cr j t → (s.teams.map fun tm => tm.id).Nodup → (s.armedMons tm.core).length < 256 →
      let ea := effAddr o.space (srcVal cr.k t (isMem o.space) o.base) o.off
      (s.started.checked x j o.space ea 1 .rd 0).r.keyIs key →
      Gives (.monitor c o) s x.team j
        { t with mon := some { block := key / 128 * 128, event := none, serial := s.nextId } })

/-- Fences, WAITM, the full-empty tests and MONITOR complete; the model's choices in them are those of logs 6, 38, 118 and 130.
Complete here (exec answers next on these conditions alone): fenceRel, fenceAcq, fenceAr, waitm, feset, feclr,
monitor, flaggedCompletion. -/
def Obligations.FencesAndMonitorsComplete : Prop := Claim.FencesAndWaitmComplete ∧ Claim.FullEmptyAndMonitorComplete

/-! ### Atomics, chapter 07 -/

/-- R181 to R183, R188 to R190, R198 to R200, R41: an atomic, exact-accumulation or glaze instruction whose check ends well
goes in flight with its operands; no memory changes yet.
Complete here (exec answers next on these conditions alone): atom, atomcas, red, xadd, xread, xclr, xclrLine, glaze,
glzins, glzq. -/
def Obligations.AtomicsIssue : Prop :=
  ∀ (s : State) (x : Issue) (tm : Team) (cr : Crew) (j : Nat) (t : Thread) (c : Common) (key : Nat) (rt : Option Route),
    s.quiet →
    let go := fun (i : Instr) (r : ARes) (vals : List Nat) (f : Op → Op) =>
      IssuesAlone s i x tm cr j t → r.routed s tm key rt →
      Gives i s x.team j (t.withOp s x i vals fun u => f { u with route := rt })
    let at' := fun (n : Nat) (u : Op) => ({ u with key := key, len := n } : Op)
    let line := fun (u : Op) => ({ u with key := key / 128 * 128, len := 128 } : Op)
    (∀ o : AtomOp, let ea := srcVal cr.k t (isMem o.space) o.a; let w := if atWide o.ty then 8 else 4
      go (.atom c o) (s.started.checked x j o.space ea w .at 4).r [ea, srcVal cr.k t (atWide o.ty) o.b] (at' w)) ∧
    (∀ o : RedOpnd, let ea := srcVal cr.k t (isMem o.space) o.a; let w := if atWide o.ty then 8 else 4
      go (.red c o) (s.started.checked x j o.space ea w .at 4).r [ea, srcVal cr.k t (atWide o.ty) o.b] (at' w)) ∧
    (∀ o : CasOp, let ea := srcVal cr.k t (isMem o.space) o.a; let w := if o.wide then 8 else 4
      go (.atomcas c o) (s.started.checked x j o.space ea w .at 4).r [ea, srcVal cr.k t o.wide o.b, srcVal cr.k t o.wide o.c]
        (at' w)) ∧
    (∀ o : XaddOp, let ea := srcVal cr.k t (isMem (chipOr o.chip)) o.a
      go (.xadd c o) (s.started.checkedLine x j (chipOr o.chip) ea (accOff ea) .at 4).r
        [ea, srcVal cr.k t false o.b % 2 ^ (8 * (if o.ty = .f32 then 4 else 2))] line) ∧
    (∀ o : XreadOp, let ea := srcVal cr.k t (isMem (chipOr o.chip)) o.a
      go (.xread c o) (s.started.checkedLine x j (chipOr o.chip) ea (accOff ea) .rd 0).r [ea] line) ∧
    (∀ o : XclrOp, let ea := srcVal cr.k t (isMem (chipOr o.chip)) o.a
      go (.xclr c o) (s.started.checkedLine x j (chipOr o.chip) ea (accOff ea) .at 4).r [ea] line ∧
      go (.xclrLine c o) (s.started.checkedLine x j (chipOr o.chip) ea (ea % 128 == 0) .at 4).r [ea] line) ∧
    (∀ o : GlazeOp, let ea := srcVal cr.k t (isMem (chipOr o.chip)) o.a; let d := srcVal cr.k t false o.c
      (∀ r ∈ glzReqRegs o d, r < cr.budget ∧ r ∉ t.badRegs) → (∀ r ∈ glzRetRegs o d, r < cr.budget) →
      go (.glaze c o) (s.started.checkedLine x j (chipOr o.chip) ea (ea % 128 == 0) .at 4).r [ea, d] fun u =>
        { u with key := key, len := 128, dst := glzRetRegs o d, data := (glzReqRegs o d).map fun r => t.v.getD r 0 }) ∧
    (∀ o : GlzinsOp, let ea := srcVal cr.k t true o.a
      go (.glzins c o) (s.started.checked x j .mem ea 256 .rd 0).r [ea, srcVal cr.k t false o.c] (at' 256)) ∧
    (∀ (o : GlzqOp) (cx : Context), s.ctx? tm.asid = some cx →
      let i := srcVal cr.k t false o.c % 64
      go (.glzq c o) (s.started.checked x j .mem (cx.r.gtb + 256 * i) 1 .rd 0).r [cx.r.gtb + 256 * i, i] (at' 6))

/-- R181 to R183: a plain atomic performs as one step at its order point: it reads the old value, writes the new one where
it writes, and delivers the old one; bytes elsewhere are as they were. -/
def Claim.PlainAtomicsPerform : Prop :=
  ∀ (s : State) (p : PerformOp) (tm : Team) (t : Thread) (o : Op) (c : Common),
    Pending s p.team p.thr p.id tm t o → isPeer o.key = false → s.coreStores tm.core o.key o.len = [] →
    s.poisoned o.key o.len = false → Memory.wf s.mem = true →
    let m := s.read o.key o.len
    let b := o.vals.getD 1 0
    let go := fun (new : Option Nat) (ws : List (Nat × Word)) =>
      ∃ s', exec (.atomicAtOrderPoint p) s = .next s' ∧ MemOutside s' s o.key o.len ∧
        s'.bytes o.key o.len = (match new with | some v => natLe o.len v | none => s.bytes o.key o.len) ∧
        OpPerformed s' p.team p.thr p.id o ws
    (∀ q : AtomOp, o.i = .atom c q → go (some (atomVal q.fn q.ty m b)) (vPut (o.len == 8) q.d.val m)) ∧
    (∀ q : RedOpnd, o.i = .red c q → go (some (atomVal q.fn q.ty m b)) []) ∧
    (∀ q : CasOp, o.i = .atomcas c q →
      go (if m = b then some (o.vals.getD 2 0) else none) (vPut (o.len == 8) q.d.val m))

/-- R180: Op of the integer atomics, on values of the width. -/
def Claim.IntegerAtomicValues : Prop :=
  ∀ m b : Nat, m < 2 ^ 32 → b < 2 ^ 32 →
    atomVal .add .n32 m b = (m + b) % 2 ^ 32 ∧ atomVal .exch .n32 m b = b ∧
    atomVal .min .n32 m b = min m b ∧ atomVal .max .n32 m b = max m b ∧
    toSigned 32 (atomVal .min .i32 m b) = min (toSigned 32 m) (toSigned 32 b) ∧
    toSigned 32 (atomVal .max .i32 m b) = max (toSigned 32 m) (toSigned 32 b) ∧
    (∀ k, (atomVal .and .n32 m b).testBit k = (m.testBit k && b.testBit k)) ∧
    (∀ k, (atomVal .or .n32 m b).testBit k = (m.testBit k || b.testBit k)) ∧
    (∀ k, (atomVal .xor .n32 m b).testBit k = (m.testBit k != b.testBit k))

/-- R180: Op of the 64-bit integer atomics. -/
def Claim.WideAtomicValues : Prop :=
  ∀ m b : Nat, m < 2 ^ 64 → b < 2 ^ 64 →
    atomVal .add .n64 m b = (m + b) % 2 ^ 64 ∧ atomVal .add .i64 m b = (m + b) % 2 ^ 64 ∧ atomVal .exch .n64 m b = b ∧
    atomVal .min .n64 m b = min m b ∧ atomVal .max .n64 m b = max m b ∧
    toSigned 64 (atomVal .min .i64 m b) = min (toSigned 64 m) (toSigned 64 b) ∧
    toSigned 64 (atomVal .max .i64 m b) = max (toSigned 64 m) (toSigned 64 b) ∧
    (∀ k, (atomVal .and .n64 m b).testBit k = (m.testBit k && b.testBit k)) ∧
    (∀ k, (atomVal .or .n64 m b).testBit k = (m.testBit k || b.testBit k)) ∧
    (∀ k, (atomVal .xor .n64 m b).testBit k = (m.testBit k != b.testBit k))

/-- R180, R115, R116, R118, R123: Op of the float atomics: ADD is the sum rounded once to nearest even, subnormals kept, the
canonical NaN where an operand is one; MIN and MAX take -0 below +0 and the operand that is no NaN; a packed type computes each
element on its own. -/
def Claim.FloatAtomicValues : Prop :=
  (∀ (ty : AtomTy) (t : FType) (m b : Nat), atomFt ty = some t →
    let f := ftFmt t
    let go := fun (m b : Nat) (at' : AtomFn → Nat) =>
      let x := decodeF f m
      let y := decodeF f b
      (isNan x = true ∨ isNan y = true → at' .add = canonNan f) ∧
      (isNan x = true → isNan y = true → at' .min = canonNan f ∧ at' .max = canonNan f) ∧
      (isNan x = true → isNan y = false → at' .min = b ∧ at' .max = b) ∧
      (isNan x = false → isNan y = true → at' .min = m ∧ at' .max = m) ∧
      (isZero x = true → isZero y = true → at' .min = zeroF f (isNeg x || isNeg y) ∧ at' .max = zeroF f (isNeg x && isNeg y)) ∧
      (isFin x = true → isFin y = true →
        let n := f.signedUnits m + f.signedUnits b
        (n ≠ 0 → ∃ fl, RoundsTo f .rne false (decide (n < 0)) n.natAbs 1 (at' .add, fl)) ∧
        (n = 0 → at' .add = zeroF f (f.negative m && f.negative b)) ∧
        (f.signedUnits m < f.signedUnits b → at' .min = m ∧ at' .max = b) ∧
        (f.signedUnits b < f.signedUnits m → at' .min = b ∧ at' .max = m))
    (ftX2 t = false → m < 2 ^ fmtWidth f → b < 2 ^ fmtWidth f → go m b fun fn => atomVal fn ty m b) ∧
    (ftX2 t = true →
      go (m % 2 ^ 16) (b % 2 ^ 16) (fun fn => atomVal fn ty m b % 2 ^ 16) ∧
      go (m / 2 ^ 16 % 2 ^ 16) (b / 2 ^ 16 % 2 ^ 16) (fun fn => atomVal fn ty m b / 2 ^ 16)) ∧
    atomVal .exch ty m b = b)

/-- The plain atomics perform, with the values of the integer and float forms.
Complete here (exec answers next on these conditions alone): atom, atomcas, red, atomicAtOrderPoint. -/
def Obligations.PlainAtomicsComplete : Prop :=
  Claim.PlainAtomicsPerform ∧ Claim.IntegerAtomicValues ∧ Claim.WideAtomicValues ∧ Claim.FloatAtomicValues

/-- R185 to R190: XADD adds a finite value exactly, modulo 2^320, to the accumulator its address names and counts the
addition; XCLR clears one accumulator and its status byte, XCLR.line the whole line; XREAD delivers the value of its
accumulator rounded once and leaves the line as it is.
Complete here (exec answers next on these conditions alone): xadd, xread, xclr, xclrLine, flaggedCompletion,
xaddAtSlice. -/
def Obligations.ExactAccumulationPerforms : Prop :=
  ∀ (s : State) (p : PendRef) (tm : Team) (t : Thread) (o : Op) (c : Common),
    Pending s p.team p.thr p.id tm t o → s.coreStores tm.core o.key 128 = [] → s.poisoned o.key 128 = false →
    Memory.wf s.mem = true → o.acc ≤ 2 →
    let line := s.bytes o.key 128
    (∀ (q : XaddOp) (neg : Bool) (m : Nat) (e : Int), o.i = .xadd c q →
      decodeF (xtyFmt q.ty) (o.vals.getD 1 0) = .fin neg m e →
      ∃ s', exec (.xaddAtSlice p) s = .next s' ∧ MemOutside s' s o.key 128 ∧ OpPerformed s' p.team p.thr p.id o [] ∧
        let line' := s'.bytes o.key 128
        (accValue line' o.acc - accValue line o.acc - xaddUnits (.fin neg m e)) % 2 ^ 320 = 0 ∧
        (∀ k ≤ 2, k ≠ o.acc → accValue line' k = accValue line k) ∧
        lineXst line' / 2 ^ 24 % 2 ^ 32 = (lineXst line / 2 ^ 24 % 2 ^ 32 + 1) % 2 ^ 32) ∧
    (∀ q : XclrOp, o.i = .xclr c q →
      ∃ s', exec (.xaddAtSlice p) s = .next s' ∧ MemOutside s' s o.key 128 ∧ OpPerformed s' p.team p.thr p.id o [] ∧
        let line' := s'.bytes o.key 128
        accValue line' o.acc = 0 ∧ (∀ k ≤ 2, k ≠ o.acc → accValue line' k = accValue line k) ∧
        ∀ k, (lineXst line').testBit k = (!(decide (8 * o.acc ≤ k ∧ k < 8 * o.acc + 8)) && (lineXst line).testBit k)) ∧
    (∀ q : XclrOp, o.i = .xclrLine c q →
      ∃ s', exec (.xaddAtSlice p) s = .next s' ∧ MemOutside s' s o.key 128 ∧ OpPerformed s' p.team p.thr p.id o [] ∧
        s'.bytes o.key 128 = List.replicate 128 0) ∧
    (∀ (q : XreadOp) (z : PerformOp), z.team = p.team → z.thr = p.thr → z.id = p.id → o.i = .xread c q →
      ∃ s' u, exec (.flaggedCompletion z) s = .next s' ∧ s'.mem = s.mem ∧ s'.op? p.team p.thr p.id = some u ∧
        let st := lineXst line / 2 ^ (8 * o.acc) % 256
        (st % 8 = 0 → u.res = some (vPut q.wide q.d.val
          ((roundDyad f32 .rne false false ⟨accValue line o.acc, -149⟩).1 + 2 ^ 32 * st))) ∧
        (st % 2 = 1 → u.fx % 2 = 1 ∧ u.res = some (vPut q.wide q.d.val (0x7FC00000 + 2 ^ 32 * st))))

/-- R192, R193, R196 to R199: a glaze whose entry passes the checks and whose routine runs well writes the line and delivers
the returned words; under NT a failing check or routine delivers its code and writes no memory but its entry of the violation log
(R164), and so no line of a scratchpad. GLZINS writes the image with the next version, which it reads even of a poisoned entry (the
model's choice, log 107); GLZQ delivers the entry's version, length and flags. -/
def Claim.GlazesPerform : Prop :=
  ∀ (s : State) (p : PendRef) (tm : Team) (t : Thread) (o : Op) (c : Common) (cx : Context),
    Pending s p.team p.thr p.id tm t o → s.coreStores tm.core o.key o.len = [] → s.ctx? tm.asid = some cx →
    Memory.wf s.mem = true →
    (∀ (q : GlazeOp) (bs : List Byte) (f : State), o.i = .glaze c q → o.len = 128 →
      s.glzFetch tm p.thr cx (t.crew == 7) (sliceOf cx o.key) (o.vals.getD 1 0 % 64) = (f, .ok bs) →
      let d := o.vals.getD 1 0
      let ck := glzCheck bs (d / 2 ^ 16 % 2 ^ 16) (d / 2 ^ 8 % 2 ^ 4) (d / 2 ^ 12 % 2 ^ 4)
      (∀ line ret, ck = none → s.poisoned o.key 128 = false →
        glzRun (glzRow bs) (wordsOf (s.bytes o.key 128) 32) (o.data.map fun w => w.toNat) = .ok (line, ret) →
        ∃ s', exec (.glazeRun p) s = .next s' ∧ s'.bytes o.key 128 = line.flatMap (natLe 4) ∧ MemOutside s' s o.key 128 ∧
          OpPerformed s' p.team p.thr p.id o (vPuts q.d.val (if q.nt then 0 :: ret else ret))) ∧
      (∀ g, q.nt = true →
        (ck = some g ∨ ck = none ∧ s.poisoned o.key 128 = false ∧
          glzRun (glzRow bs) (wordsOf (s.bytes o.key 128) 32) (o.data.map fun w => w.toNat) = .error g) →
        ∃ s', exec (.glazeRun p) s = .next s' ∧ OpPerformed s' p.team p.thr p.id o [(q.d.val, BitVec.ofNat 32 g)] ∧
          s'.mem = (s.logOp tm t o g o.ea (spaceNum (chipOr q.chip)) 7 true).mem ∧
          ∀ a, 2 ^ 40 ≤ a → tabGet 0 s'.mem a = tabGet 0 s.mem a)) ∧
    (∀ (q : GlzinsOp) (pa : Nat) (z : PerformOp), z.team = p.team → z.thr = p.thr → z.id = p.id → o.i = .glzins c q →
      isPeer o.key = false → s.poisoned o.key 256 = false →
      s.resolve tm p.thr (t.crew == 7) .mem (cx.r.gtb + 256 * (o.vals.getD 1 0 % 64)) 1 .wr = .ok pa →
      let new := if s.read pa 2 = 65535 then 1 else s.read pa 2 + 1
      ∃ s', exec (.flaggedCompletion z) s = .next s' ∧ s'.bytes pa 256 = natLe 2 new ++ (s.bytes o.key 256).drop 2 ∧
        MemOutside s' s pa 256 ∧ (∀ g ∈ s'.glazes, ¬ (g.asid = tm.asid ∧ g.index = o.vals.getD 1 0 % 64)) ∧
        OpPerformed s' p.team p.thr p.id o [(q.d.val, BitVec.ofNat 32 new)]) ∧
    (∀ (q : GlzqOp) (z : PerformOp), z.team = p.team → z.thr = p.thr → z.id = p.id → o.i = .glzq c q →
      isPeer o.key = false → s.poisoned o.key 6 = false →
      ∃ s', exec (.flaggedCompletion z) s = .next s' ∧ s'.mem = s.mem ∧ OpPerformed s' p.team p.thr p.id o
        [(q.d.val, BitVec.ofNat 32 (s.read o.key 2 + 2 ^ 16 * s.read (o.key + 2) 1 + 2 ^ 24 * s.read (o.key + 3) 1))])

/-- R195: LADD writes the sum modulo 2^32 to its destination and nothing else of the operand file; R197: an operation that
R195 does not list ends the routine with code 36. -/
def Claim.SliceSteps : Prop :=
  (∀ (f : SliceFile) (trap : Bool) (a b d : Nat), a < 32 → b < 32 → d < 32 →
    sliceStep trap f (2 ^ 26 + d * 2 ^ 20 + a * 2 ^ 14 + b * 2 ^ 8) =
      .ok { f with l := f.l.set d ((f.l.getD a 0 + f.l.getD b 0) % 2 ^ 32) }) ∧
  (∀ (f : SliceFile) (trap : Bool) (w : Nat), 17 ≤ w / 2 ^ 26 % 2 ^ 6 → sliceStep trap f w = .error 36)

/-- Glazes perform, step by step on their slice; that GLZINS reads the version of a poisoned entry is the model's choice (log
107).
Complete here (exec answers next on these conditions alone): glaze, glzins, glzq, flaggedCompletion, glazeRun. -/
def Obligations.GlazesRun : Prop := Claim.GlazesPerform ∧ Claim.SliceSteps

/-! ### Barriers, queues and counters, chapter 08 -/

/-- R202, R204, R210, R41: BARI, BARA, BART, BART.poison and BARP on an aligned object go in flight with their operands. -/
def Claim.BarrierInstructionsIssue : Prop :=
  ∀ (s : State) (x : Issue) (tm : Team) (cr : Crew) (j : Nat) (t : Thread) (c : Common) (key : Nat), s.quiet →
    let go := fun (i : Instr) (sp : Space) (a : Src) (vals : List Nat) =>
      IssuesAlone s i x tm cr j t → (s.started.checked x j sp (srcVal cr.k t false a) 16 .at 0).r = .ok key →
      Gives i s x.team j (t.withOp s x i (srcVal cr.k t false a :: vals) fun u => { u with key := key, len := 16 })
    (∀ o : BariOp, go (.bari c o) o.space o.a [srcVal cr.k t false o.b, srcVal cr.k t false o.c]) ∧
    (∀ o : BaraOp, go (.bara c o) o.space o.a [optVal cr.k t false o.cnt]) ∧
    (∀ o : BarwOp, go (.bart c o) o.space o.a [srcVal cr.k t false o.b]) ∧
    (∀ o : BartPOp, go (.bartPoison c o) o.space o.a []) ∧
    (∀ o : BarpOp, go (.barp c o) o.space o.a [])

/-- R203, R205, R206, R211 to R214: a barrier instruction performs on an object whose bytes are sound, completes, and changes
no byte outside the object. BARI writes a new object; BARA arrives once with its byte count and may return the old ST; BART
and BART.poison test; BARP poisons with cause 1. -/
def Claim.BarrierInstructionsPerform : Prop :=
  ∀ (s : State) (p : PerformOp) (tm : Team) (t : Thread) (o : Op) (c : Common),
    Pending s p.team p.thr p.id tm t o → s.poisoned o.key 16 = false → Memory.wf s.mem = true → o.dst = writesOf o.i →
    let b := s.barObj o.key
    let v := o.vals.getD 1 0
    let go := fun (obj : Option BarObj) (ws : List (Nat × Word)) (ps : List Bool) =>
      ∃ s', exec (.flaggedCompletion p) s = .next s' ∧ MemOutside s' s o.key 16 ∧
        s'.bytes o.key 16 = (match obj with | some z => z.enc | none => s.bytes o.key 16) ∧
        OpDone s' p.team p.thr t o ws ps
    (∀ q : BariOp, o.i = .bari c q → bits v 27 24 = 0 → ¬ (v % 2 ^ 24 = 0 ∧ o.vals.getD 2 0 = 0) →
      go (some ⟨bscopeNum q.scope * 64, v, o.vals.getD 2 0, 0⟩) [] (t.predsWith q.d true)) ∧
    (∀ q : BariOp, o.i = .bari c q → bits v 27 24 ≠ 0 → ¬ (v % 2 ^ 24 = 0 ∧ o.vals.getD 2 0 = 0) →
      s.bindDogs.dogsAt (s.barAgent o.key) < 32 →
      go (some ⟨bscopeNum q.scope * 64 + 4, v, o.vals.getD 2 0, 0⟩) [] (t.predsWith q.d true)) ∧
    (∀ q : BaraOp, o.i = .bara c q →
      let ws := match q.ret with | some d => [(d.val, BitVec.ofNat 32 b.st)] | none => []
      (b.poison = false → b.arr + 1 ≤ b.expa → b.bytes + v ≤ b.expb →
        go (some (if b.arr + 1 = b.expa ∧ b.bytes + v = b.expb then { b with st := (b.st % 256 ^^^ 1), bytes := 0 }
          else { b with st := b.st % 256 + (b.arr + 1) * 256, bytes := b.bytes + v })) ws t.p) ∧
      (b.poison = false → b.expa < b.arr + 1 → go (some (b.poisonBy 3)) ws t.p) ∧
      (b.poison = false → b.arr + 1 ≤ b.expa → b.expb < b.bytes + v → go (some (b.poisonBy 4)) ws t.p) ∧
      (b.poison = true → go none ws t.p)) ∧
    (∀ q : BarwOp, o.i = .bart c q → go none [] (t.predsWith q.d (b.phase != v.testBit 0))) ∧
    (∀ q : BartPOp, o.i = .bartPoison c q → go none [] (t.predsWith q.d b.poison)) ∧
    (∀ q : BarpOp, o.i = .barp c q → go (some (b.poisonBy 1)) [] t.p)

/-- R213: BARW whose object has left the phase goes on with ok set, and one whose object is poisoned with ok clear, from the
clause's end; another waits. -/
def Claim.BarwCompletes : Prop :=
  ∀ (s : State) (x : Issue) (tm : Team) (cr : Crew) (j : Nat) (t : Thread) (c : Common) (o : BarwOp) (key : Nat),
    IssuesAlone s (.barw c o) x tm cr j t → t.inSection = false → t.waits = [] → t.pend = [] →
    s.poisoned key 16 = false →
    let ea := srcVal cr.k t false o.a
    let ph := srcVal cr.k t false o.b
    (s.started.checked x j o.space ea 16 .at 0).r = .ok key →
    let b := s.barObj key
    let done := fun ok : Bool => ∃ n, Gives (.barw c o) s x.team j
      { t with wb := t.wb ++ [{ due := endDue, p := if o.d.val = 7 then none else some (o.d.val, ok) }], kSeen := n }
    (b.phase ≠ ph.testBit 0 → done true) ∧
    (b.phase = ph.testBit 0 → b.poison = true → done false) ∧
    (b.phase = ph.testBit 0 → b.poison = false → Gives (.barw c o) s x.team j
      (t.withWait s x (.barw c o) [ea, ph] fun u => { u with key := key, len := 16, waited := true }))

/-- The barrier instructions issue, wait, perform and complete.
Complete here (exec answers next on these conditions alone): bari, bara, bart, bartPoison, barp, barw,
flaggedCompletion. -/
def Obligations.BarriersComplete : Prop := Claim.BarrierInstructionsIssue ∧ Claim.BarwCompletes ∧ Claim.BarrierInstructionsPerform

/-- R205: an engine event of a running context arrives on its object, or poisons it, and is then gone. R207: an expired
watchdog poisons its object with cause 5, leaves, and enters a fault of kind 10 with the object's address in the trap queue
of its team; the rest of a scratchpad keeps its bytes. That the entry's FWORD, FREC, FORD and address are 0 is the model's choice
(log 45), and so is that the trap comes where the object's bytes are poisoned too (log 108).
Complete here (exec answers next on these conditions alone): barrierEngineEvent, watchdogExpiry. -/
def Obligations.BarrierEventsAndWatchdogs : Prop :=
  (∀ (s : State) (w : WorkRef) (tm : Team) (e : EngEv), s.team? w.team = some tm →
    (tm.events.find? fun q => q.id == w.id) = some e → s.runs tm.asid = true → s.poisoned e.key 16 = false →
    Memory.wf s.mem = true →
    ∃ s', exec (.barrierEngineEvent w) s = .next s' ∧ MemOutside s' s e.key 16 ∧
      s'.bytes e.key 16 = (if e.poison ≠ 0 then ((s.barObj e.key).poisonBy e.poison).enc
        else ((s.barObj e.key).arrive e.arr e.bytes).1.enc) ∧
      ∃ tm', s'.team? w.team = some tm' ∧ tm'.events = tm.events.filter fun q => q.id != e.id) ∧
  (∀ (s : State) (id : Nat) (d : Dog) (tm : Team),
    (s.dogs.find? fun d => d.id == id && d.left == 0 && s.dogCounts d && s.runs d.asid) = some d →
    s.team? d.team = some tm → Memory.wf s.mem = true → 2 ^ 40 ≤ d.key →
    ∃ s', exec (.watchdogExpiry id) s = .next s' ∧ (∀ e ∈ s'.dogs, e.id ≠ id) ∧
      (∀ a, 2 ^ 40 ≤ a → a < d.key ∨ d.key + 16 ≤ a → tabGet 0 s'.mem a = tabGet 0 s.mem a) ∧
      (s.poisoned d.key 16 = false →
        s'.bytes d.key 16 = (((s.barObj d.key).poisonBy 5).setWdon false).enc) ∧
      ∃ tm', s'.team? d.team = some tm' ∧
        tm'.trapq = tm.trapq ++ [⟨none, ⟨10, 0, BitVec.ofNat 64 d.addr, 0, 0, 0⟩, 0⟩])

/-- R216 to R219, R221: QCFG.set of a well-formed block configures its queue; QCFG.grant returns held slots to the
allowance, and one of more than are held returns those and sets ERR; QCFG.stat delivers the queue's state; QCFG.off clears it;
QTRY of an empty queue clears its predicate, and of another, a record queue or a scratch queue, sets it and delivers the oldest
element, whose slot is free again or held. Each completes. -/
def Claim.QueueInstructionsPerform : Prop :=
  ∀ (s : State) (p : PerformOp) (tm : Team) (t : Thread) (o : Op) (c : Common),
    Pending s p.team p.thr p.id tm t o → t.pend = [o] → t.waits = [] →
    let go := fun (n : Nat) (q' : QReg) (ws : List (Nat × Word)) (ps : List Bool) =>
      ∃ s', exec (.flaggedCompletion p) s = .next s' ∧ s'.mem = s.mem ∧ OpDone s' p.team p.thr t o ws ps ∧
        ∃ tm', s'.team? p.team = some tm' ∧ tm'.queues = tm.queues.set n q'
    (∀ (q : QcfgSet) (r : QReg), o.i = .qcfgSet c q → s.poisoned o.key 16 = false → s.qBlock tm o.key = some r →
      go q.q.val r [] t.p) ∧
    (∀ (q : QcfgGrant), o.i = .qcfgGrant c q → (tm.queue q.q.val).conf = true → o.ea ≤ (tm.queue q.q.val).held →
      go q.q.val { tm.queue q.q.val with held := (tm.queue q.q.val).held - o.ea, alw := (tm.queue q.q.val).alw + o.ea } [] t.p) ∧
    (∀ (q : QcfgGrant), o.i = .qcfgGrant c q → (tm.queue q.q.val).conf = true → (tm.queue q.q.val).held < o.ea →
      go q.q.val { tm.queue q.q.val with
        held := 0, alw := (tm.queue q.q.val).alw + (tm.queue q.q.val).held, err := true } [] t.p) ∧
    (∀ (q : QcfgStat), o.i = .qcfgStat c q → o.dst = [q.d.val, q.d.val + 1] →
      ∃ s', exec (.flaggedCompletion p) s = .next s' ∧ s'.mem = s.mem ∧
        OpDone s' p.team p.thr t o (vPut true q.d.val (tm.queue q.q.val).stat) t.p) ∧
    (∀ (q : Fin 32), o.i = .qcfgOff c q → go q.val {} [] t.p) ∧
    (∀ (q : QtryOp), o.i = .qtry c q → tm.qOcc q.q.val = 0 →
      ∃ s', exec (.flaggedCompletion p) s = .next s' ∧ s'.mem = s.mem ∧ OpDone s' p.team p.thr t o [] (t.predsWith q.p false)) ∧
    (∀ (q : QtryOp) (r : QRec) (rest : List QRec), o.i = .qtry c q → q.q.val < 8 → tm.recs.getD q.q.val [] = r :: rest →
      q.d.val + 4 ≤ t.v.length →
      ∃ s', exec (.flaggedCompletion p) s = .next s' ∧ s'.mem = s.mem ∧
        OpDone s' p.team p.thr t o (vPuts q.d.val (wordsOf r.data 4)) (t.predsWith q.p true) ∧
        ∃ tm', s'.team? p.team = some tm' ∧ tm'.recs = tm.recs.set q.q.val rest) ∧
    (∀ (q : QtryOp), o.i = .qtry c q → 8 ≤ q.q.val →
      let r := tm.queue q.q.val
      0 < r.occ → (∀ z ∈ s.qSlot tm r r.popi, s.poisoned z.1 z.2 = false) → q.d.val + r.regs ≤ t.v.length →
      go q.q.val { r with
          popi := (r.popi + 1) % r.depth, occ := r.occ - 1, held := if r.manual then r.held + 1 else r.held,
          alw := if r.manual then r.alw else r.alw + 1 }
        (vPuts q.d.val (wordsOf ((s.qSlot tm r r.popi).flatMap fun z => s.bytes z.1 z.2) r.regs)) (t.predsWith q.p true))

/-- R218 to R221, R41: the flagged queue instructions go in flight. QPUSH of a queue with allowance stores the element in its
next slot, which in the band window may lie in two contributions; QPOP of a queue that is not empty, a record queue or a scratch
queue, delivers the oldest element at the clause's end and frees its slot; each without its condition waits. -/
def Claim.QueueInstructionsIssue : Prop :=
  ∀ (s : State) (x : Issue) (tm : Team) (cr : Crew) (j : Nat) (t : Thread) (c : Common), s.quiet →
    (∀ (o : QcfgSet) (key : Nat), IssuesAlone s (.qcfgSet c o) x tm cr j t →
      let ea := srcVal cr.k t false o.a
      (s.started.checked x j .core ea 16 .rd 0).r = .ok key →
      Gives (.qcfgSet c o) s x.team j (t.withOp s x (.qcfgSet c o) [ea] fun u => { u with key := key, len := 16 })) ∧
    (∀ o : QcfgGrant, IssuesAlone s (.qcfgGrant c o) x tm cr j t →
      Gives (.qcfgGrant c o) s x.team j (t.withOp s x (.qcfgGrant c o) [srcVal cr.k t false o.b])) ∧
    (∀ o : QcfgStat, IssuesAlone s (.qcfgStat c o) x tm cr j t →
      Gives (.qcfgStat c o) s x.team j (t.withOp s x (.qcfgStat c o) [])) ∧
    (∀ o : Fin 32, IssuesAlone s (.qcfgOff c o) x tm cr j t →
      Gives (.qcfgOff c o) s x.team j (t.withOp s x (.qcfgOff c o) [])) ∧
    (∀ o : QtryOp, IssuesAlone s (.qtry c o) x tm cr j t → o.d.val + tm.popRegs o.q.val ≤ cr.budget →
      Gives (.qtry c o) s x.team j
        (t.withOp s x (.qtry c o) [] fun u => { u with dst := vrange o.d (tm.popRegs o.q.val) })) ∧
    (∀ o : QueueOp, IssuesAlone s (.qpush c o) x tm cr j t → t.pend = [] → t.waits = [] →
      let q := tm.queue o.q.val
      o.v.val + q.regs ≤ cr.budget → t.badRegs = [] →
      (tm.qRoom o.q.val = true → Memory.wf s.mem = true → t.v.length = cr.budget →
        o.q.val < tm.queues.length → q.esize ≤ 4 →
        let bs := ((t.v.drop o.v.val).take q.regs).flatMap fun w => natLe 4 w.toNat
        let done := fun (put : State → Prop) => ∃ s', exec (.qpush c o) s = .next s' ∧ put s' ∧
          ∃ tm', s'.team? x.team = some tm' ∧ tm'.queue o.q.val =
            { q with alw := q.alw - 1, pushi := (q.pushi + 1) % q.depth, occ := q.occ + 1 }
        (∀ key, s.qSlot tm q q.pushi = [(key, q.bytes)] →
          done fun s' => MemOutside s' s key q.bytes ∧ s'.bytes key q.bytes = bs) ∧
        (∀ k1 n1 k2 n2, s.qSlot tm q q.pushi = [(k1, n1), (k2, n2)] → n1 + n2 = q.bytes → overlap k1 n1 k2 n2 = false →
          done fun s' => s'.bytes k1 n1 = bs.take n1 ∧ s'.bytes k2 n2 = bs.drop n1 ∧
            ∀ a, (a < k1 ∨ k1 + n1 ≤ a) → (a < k2 ∨ k2 + n2 ≤ a) → tabGet 0 s'.mem a = tabGet 0 s.mem a)) ∧
      (tm.qRoom o.q.val = false → Gives (.qpush c o) s x.team j (t.withWait s x (.qpush c o) [] fun u =>
        { u with data := (t.v.drop o.v.val).take 16, waited := true }))) ∧
    (∀ o : QueueOp, IssuesAlone s (.qpop c o) x tm cr j t → t.pend = [] → t.waits = [] → t.inSection = false →
      o.v.val + tm.popRegs o.q.val ≤ cr.budget →
      let q := tm.queue o.q.val
      (8 ≤ o.q.val → 0 < q.occ → (∀ p ∈ s.qSlot tm q q.popi, s.poisoned p.1 p.2 = false) → o.q.val < tm.queues.length →
        let got := wordsOf ((s.qSlot tm q q.popi).flatMap fun p => s.bytes p.1 p.2) q.regs
        ∃ s' n, exec (.qpop c o) s = .next s' ∧ s'.mem = s.mem ∧
          s'.thr? x.team j = some { t with
            kSeen := n, wb := t.wb ++ [{ due := endDue, v := vPuts o.v.val got }] } ∧
          ∃ tm', s'.team? x.team = some tm' ∧ tm'.queue o.q.val =
            { q with
              popi := (q.popi + 1) % q.depth, occ := q.occ - 1, held := if q.manual then q.held + 1 else q.held,
              alw := if q.manual then q.alw else q.alw + 1 }) ∧
      (∀ (r : QRec) (rest : List QRec), o.q.val < 8 → tm.recs.getD o.q.val [] = r :: rest →
        ∃ s', exec (.qpop c o) s = .next s' ∧ s'.mem = s.mem ∧
          s'.thr? x.team j = some { t with wb := t.wb ++ [{ due := endDue, v := vPuts o.v.val (wordsOf r.data 4) }] } ∧
          ∃ tm', s'.team? x.team = some tm' ∧ tm'.recs = tm.recs.set o.q.val rest) ∧
      (tm.qOcc o.q.val = 0 →
        Gives (.qpop c o) s x.team j (t.withWait s x (.qpop c o) [] fun u => { u with waited := true })))

/-- R215, R247: a result record that an engine of a running context holds is posted to its queue, at its end, where that has
fewer than 64 records and the barrier event before it has been performed. -/
def Claim.ResultRecordsPost : Prop :=
  ∀ (s : State) (o : TeamQueue) (tm : Team) (p : Post), s.team? o.team = some tm →
    (tm.posts.find? fun p => p.q == o.q.val) = some p → (tm.recs.getD o.q.val []).length < 64 →
    o.q.val < tm.recs.length → s.runs tm.asid = true → (∀ e ∈ tm.events, some e.id ≠ p.after) →
    ∃ s', exec (.queueRecordPost o) s = .next s' ∧ s'.mem = s.mem ∧ ∃ tm', s'.team? o.team = some tm' ∧
      tm'.recs.getD o.q.val [] = tm.recs.getD o.q.val [] ++ [p.r] ∧ tm'.posts.length + 1 = tm.posts.length ∧
      tm'.threads = tm.threads

/-- The queue instructions issue, perform and complete, and a result record posts.
Complete here (exec answers next on these conditions alone): qcfgSet, qcfgGrant, qcfgStat, qcfgOff, qpush, qpop, qtry,
flaggedCompletion, queueRecordPost. -/
def Obligations.QueuesComplete : Prop := Claim.QueueInstructionsIssue ∧ Claim.QueueInstructionsPerform ∧ Claim.ResultRecordsPost

/-- R222 to R224: SQADD and SQRD of a counter of the window go in flight and perform: the counter takes the sum, up to
2^64 − 1, or its value is read and then delivered; SQWAIT whose counter has reached its threshold goes on, and another waits.
Complete here (exec answers next on these conditions alone): sqadd, sqwait, sqrd, flaggedCompletion. -/
def Obligations.SequenceCountersComplete : Prop :=
  (∀ (s : State) (x : Issue) (tm : Team) (cr : Crew) (j : Nat) (t : Thread) (c : Common) (k : Nat),
    (∀ o : SqOp, IssuesAlone s (.sqadd c o) x tm cr j t → let n := srcVal cr.k t false o.a
      s.ctrIn tm.asid n = some k → Gives (.sqadd c o) s x.team j
        (t.withOp s x (.sqadd c o) [n, k, srcVal cr.k t o.wide o.b] fun u => { u with key := chipKey (8 * k), len := 8 })) ∧
    (∀ o : SqrdOp, IssuesAlone s (.sqrd c o) x tm cr j t → let n := srcVal cr.k t false o.a
      s.ctrIn tm.asid n = some k → Gives (.sqrd c o) s x.team j
        (t.withOp s x (.sqrd c o) [n, k] fun u => { u with key := chipKey (8 * k), len := 8 })) ∧
    (∀ o : SqOp, IssuesAlone s (.sqwait c o) x tm cr j t → let n := srcVal cr.k t false o.a
      let th := srcVal cr.k t o.wide o.b
      s.ctrIn tm.asid n = some k → t.inSection = false → s.poisoned (chipKey (8 * k)) 8 = false → t.waits = [] →
      t.pend = [] →
      (th ≤ s.counter k → ∃ n, Gives (.sqwait c o) s x.team j { t with kSeen := n }) ∧
      (s.counter k < th → Gives (.sqwait c o) s x.team j
        (t.withWait s x (.sqwait c o) [n, k, th] fun u => { u with key := chipKey (8 * k), len := 8, waited := true })))) ∧
  (∀ (s : State) (p : PerformOp) (tm : Team) (t : Thread) (o : Op) (c : Common) (k : Nat),
    Pending s p.team p.thr p.id tm t o → t.pend = [o] → o.vals.getD 1 0 = k → o.key = chipKey (8 * k) →
    s.poisoned o.key 8 = false → Memory.wf s.mem = true →
    (∀ q : SqOp, o.i = .sqadd c q → ∃ s', exec (.flaggedCompletion p) s = .next s' ∧
      s'.counter k = min (s.counter k + o.vals.getD 2 0) (2 ^ 64 - 1) ∧ OpDone s' p.team p.thr t o [] t.p) ∧
    (∀ q : SqrdOp, o.i = .sqrd c q → o.dst = [q.d.val, q.d.val + 1] →
      (o.stage = 0 → ∃ s', exec (.flaggedCompletion p) s = .next s' ∧ s'.mem = s.mem ∧
        s'.op? p.team p.thr p.id = some { o with stage := 1, vals := [o.ea, k, s.counter k] }) ∧
      (o.stage ≠ 0 → ∃ s', exec (.flaggedCompletion p) s = .next s' ∧
        s'.mem = s.mem ∧ OpDone s' p.team p.thr t o (vPut true q.d.val (o.vals.getD 2 0)) t.p)))

/-! ### Copies and sorts, chapter 09 -/

/-- R225 to R227, R229, R236 to R239, R442: a copy instruction of a crew bound to the copy engine whose operands pass their
checks is accepted: the copy joins its team's copies with its parameters, and the instruction completes in flight. That a K
register may stand in D, as R226 has it against the words of R94, is the model's choice (log 119).
Complete here (exec answers next on these conditions alone): cpl, cpt, cpm, cpg. -/
def Obligations.CopyInstructionsIssue : Prop :=
  ∀ (s : State) (x : Issue) (tm : Team) (cr : Crew) (j : Nat) (t : Thread) (c : Common), s.quiet → cr.bound 0 = true →
    (∀ o : CplOp, IssuesAlone s (.cpl c o) x tm cr j t → t.batchFull = false → t.batches.length = 8 →
      let n := 4 * 2 ^ o.size.val
      let v := min (srcVal cr.k t false o.b) n
      let d := srcVal cr.k t (isMem o.dsp) o.d
      let a := srcVal cr.k t (isMem o.ssp) o.a
      s.started.badOpnd tm j (⟨o.dsp, d, n, n⟩ :: (if v = 0 then [] else [⟨o.ssp, a, v, n⟩])) = none →
      ∃ s' tm' cp u op, exec (.cpl c o) s = .next s' ∧ s'.mem = s.mem ∧ s'.team? x.team = some tm' ∧
        tm'.cpls = tm.cpls ++ [cp] ∧ cp.size = n ∧ cp.v = v ∧ cp.d = d ∧ cp.a = a ∧
        cp.num = t.openBatch.getD t.nextBatch ∧ s'.thr? x.team j = some u ∧ u.v = t.v ∧
        u.pend = t.pend ++ [op] ∧ op.i = .cpl c o ∧ op.res = some [] ∧
        (t.openBatch = none → (u.batches.getD (cp.num % 8) {}) = { num := cp.num, state := 1, copies := 1 }) ∧
        (t.openBatch ≠ none → (u.batches.getD (cp.num % 8) {}).copies = (t.batches.getD (cp.num % 8) {}).copies + 1)) ∧
    (∀ (i : Instr) (q : TileOpnds) (h : Shape) (rs : List Nat), IssuesAlone s i x tm cr j t →
      (∃ (o : CptOp), i = .cpt c o ∧ q = ⟨1, o.st, o.bar, o.post, o.slot.val, srcVal cr.k t false o.d, o.a.val,
          srcVal cr.k t false o.b, 0⟩ ∧ rs = [x.team]) ∨
      (∃ (o : CpmOp), i = .cpm c o ∧ q = ⟨2, false, o.bar, o.post, o.slot.val, srcVal cr.k t false o.d, o.a.val,
          srcVal cr.k t false o.b, srcVal cr.k t false o.c⟩ ∧ s.cpmTeams tm q.c = some rs ∧ rs ≠ []) ∨
      (∃ (o : CpmOp), i = .cpg c o ∧ q = ⟨3, false, o.bar, o.post, o.slot.val, srcVal cr.k t false o.d, o.a.val,
          srcVal cr.k t false o.b, srcVal cr.k t false o.c⟩ ∧ rs = [x.team]) →
      tm.shapes.getD q.slot none = some h → h.ndim ≤ 5 → q.a + h.ndim ≤ cr.budget → t.badRegs = [] → q.d % 16 = 0 →
      s.started.badOpnd tm j (⟨.core, q.b, 48, 16⟩ :: if q.kind = 3 then [⟨.core, q.c, 1, 4⟩] else []) = none →
      s.started.tileLate tm q h = none →
      ∃ s' tm' cp u op, exec i s = .next s' ∧ s'.team? x.team = some tm' ∧ cp ∈ tm'.copies ∧
        cp.kind = q.kind ∧ cp.st = q.st ∧ cp.bar = q.bar ∧ cp.post = q.post ∧ cp.sh = h ∧ cp.d = q.d ∧ cp.land = q.b ∧
        cp.list = q.c ∧ cp.recvs.map (fun r => r.team) = rs ∧ (∀ r ∈ cp.recvs, r.done = 0) ∧
        (∀ k < h.ndim, cp.xs.getD k 0 = toSigned 32 (t.v32 (q.a + k))) ∧
        s'.thr? x.team j = some u ∧ u.v = t.v ∧ u.pend = t.pend ++ [op] ∧ op.i = i ∧ op.res = some [])

/-- R229 to R232, R241: CPCLOSE closes the open batch; CPWAIT with few enough closed batches, and CHKW whose bits are set,
go on, and wait otherwise; CHKT goes in flight and delivers whether the bits are set. -/
def Claim.BatchAndMapTestsComplete : Prop :=
  ∀ (s : State) (x : Issue) (tm : Team) (cr : Crew) (j : Nat) (t : Thread) (c : Common), s.quiet →
    (IssuesAlone s (.cpclose c) x tm cr j t →
      Gives (.cpclose c) s x.team j t.closeBatch ∧ t.closeBatch.openBatch = none) ∧
    (∀ n : Fin 8, IssuesAlone s (.cpwait c n) x tm cr j t → t.inSection = false → t.waits = [] →
      (t.closedBatches ≤ n.val → Gives (.cpwait c n) s x.team j t) ∧
      (n.val < t.closedBatches →
        Gives (.cpwait c n) s x.team j (t.withWait s x (.cpwait c n) [] fun u => { u with waited := true }))) ∧
    (∀ (o : ChkwOp) (key : Nat), IssuesAlone s (.chkw c o) x tm cr j t → t.inSection = false → t.waits = [] → t.pend = [] →
      let ea := srcVal cr.k t false o.a
      let m := t.v64 o.b.val
      (s.started.checked x j .core ea 8 .rd 0).r = .ok key → s.poisoned key 8 = false →
      (s.read key 8 &&& m = m → Gives (.chkw c o) s x.team j t) ∧
      (s.read key 8 &&& m ≠ m → Gives (.chkw c o) s x.team j
        (t.withWait s x (.chkw c o) [ea, m] fun u => { u with key := key, len := 8, waited := true }))) ∧
    (∀ (o : ChktOp) (key : Nat), IssuesAlone s (.chkt c o) x tm cr j t →
      let ea := srcVal cr.k t false o.a
      (s.started.checked x j .core ea 8 .rd 0).r = .ok key →
      Gives (.chkt c o) s x.team j
        (t.withOp s x (.chkt c o) [ea, t.v64 o.b.val] fun u => { u with key := key, len := 8 })) ∧
    (∀ (p : PerformOp) (z : Team) (u : Thread) (q : Op) (o : ChktOp), Pending s p.team p.thr p.id z u q →
      q.i = .chkt c o → s.poisoned q.key 8 = false →
      ∃ s', exec (.flaggedCompletion p) s = .next s' ∧ s'.mem = s.mem ∧
        OpDone s' p.team p.thr u q [] (u.predsWith o.d (s.read q.key 8 &&& q.vals.getD 1 0 == q.vals.getD 1 0)))

/-- R233, R234, R245, R247: TLOAD of a block goes in flight; where its descriptor is well formed the slot holds it,
and where it is malformed the slot is empty and the thread faults (kind 12); TEVICT empties its slot. SORT goes in flight,
and with a well-formed block whose barriers pass their checks it is accepted. -/
def Claim.TensorSlotsAndSortsComplete : Prop :=
  (∀ (s : State) (x : Issue) (tm : Team) (cr : Crew) (j : Nat) (t : Thread) (c : Common),
    (∀ (o : TloadOp) (key : Nat) (rt : Option Route), IssuesAlone s (.tload c o) x tm cr j t →
      let ea := srcVal cr.k t true o.a
      ea % 64 = 0 → (s.started.resolve tm j (x.crew == 7) .mem ea 1 .rd).routed s tm key rt → ea < 2 ^ 57 →
      Gives (.tload c o) s x.team j
        (t.withOp s x (.tload c o) [ea] fun u => { u with key := key, len := 64, route := rt })) ∧
    (∀ n : Fin 32, IssuesAlone s (.tevict c n) x tm cr j t →
      ∃ s' tm', exec (.tevict c n) s = .next s' ∧ s'.mem = s.mem ∧ s'.team? x.team = some tm' ∧
        tm' = { tm with shapes := tm.shapes.set n.val none }) ∧
    (∀ (a : Src) (key : Nat), IssuesAlone s (.sort c a) x tm cr j t → cr.bound 0 = true →
      let ea := srcVal cr.k t false a
      s.started.badOpnd tm j [⟨.core, ea, 48, 16⟩] = none → s.scratchKey tm j .core ea = .ok key →
      Gives (.sort c a) s x.team j
        (t.withOp s x (.sort c a) [ea] fun u => { u with key := key, len := 48, slots := tm.targets }))) ∧
  (∀ (s : State) (p : PerformOp) (tm : Team) (t : Thread) (o : Op) (c : Common),
    Pending s p.team p.thr p.id tm t o → isPeer o.key = false → s.coreStores tm.core o.key o.len = [] →
    s.poisoned o.key o.len = false →
    (∀ (q : TloadOp) (h : Shape), o.i = .tload c q → shapeOf (s.bytes o.key o.len) = some h →
      ∃ s' tm', exec (.flaggedCompletion p) s = .next s' ∧ s'.mem = s.mem ∧ s'.team? p.team = some tm' ∧
        tm'.shapes = tm.shapes.set q.slot.val (some h) ∧ OpDone s' p.team p.thr t o [] t.p) ∧
    (∀ (q : TloadOp), o.i = .tload c q → shapeOf (s.bytes o.key o.len) = none →
      ∃ s' tm' u, exec (.flaggedCompletion p) s = .next s' ∧ s'.mem = s.mem ∧ s'.team? p.team = some tm' ∧
        tm'.shapes = tm.shapes.set q.slot.val none ∧ s'.thr? p.team p.thr = some u ∧
        ∃ f, u.late = t.late ++ [f] ∧ f.r.kind = 12 ∧ f.r.addr = BitVec.ofNat 64 o.ea) ∧
    (∀ (a : Src) (q : SortJob), o.i = .sort c a → sortBlock tm o p.thr (s.bytes o.key o.len) s.nextId = some q →
      q.bar = false → q.ibarOn = false →
      ∃ s' tm', exec (.flaggedCompletion p) s = .next s' ∧ s'.mem = s.mem ∧ s'.team? p.team = some tm' ∧
        tm'.sorts = tm.sorts ++ [q] ∧ OpDone s' p.team p.thr t o [] t.p))

/-- Batches, mapped copies, tensor slots and the issue of sorts.
Complete here (exec answers next on these conditions alone): cpclose, cpwait, chkw, chkt, flaggedCompletion, tload,
tevict, sort. -/
def Obligations.BatchesAndSlotsComplete : Prop := Claim.BatchAndMapTestsComplete ∧ Claim.TensorSlotsAndSortsComplete

/-- R227, R228: a per-lane copy finishes: its v source bytes and then zeros stand at the destination, a peer writes its own, and
it leaves its batch. R364: an engine's page wait ends once counter PSC has reached its ticket. -/
def Claim.CopiesFinish : Prop :=
  (∀ (s : State) (o : WorkRef) (tm : Team) (cp : CplCopy) (key : Nat) (bs : List Byte), s.team? o.team = some tm →
    (tm.cpls.find? fun q => q.id == o.id) = some cp → tm.pageWaiting cp.id = false → s.engineOn tm false = true →
    s.cplDest tm cp ⟨o.peer, o.peerOk, o.peerBad⟩ = .ok key →
    s.cplSource tm cp ⟨o.peer, o.peerOk, o.peerBad⟩ = .ok bs → bs.length ≤ cp.size → Memory.wf s.mem = true →
    ∃ s' tm', exec (.cplCopyFinish o) s = .next s' ∧
      (if isPeer key then s'.mem = s.mem else MemOutside s' s key cp.size ∧
        s'.bytes key cp.size = bs ++ List.replicate (cp.size - bs.length) 0) ∧
      s'.team? o.team = some tm' ∧ tm'.cpls = tm.cpls.filter fun q => q.id != cp.id) ∧
  (∀ (s : State) (o : WorkRef) (tm : Team) (cx : Context) (w : PWait), s.team? o.team = some tm →
    s.ctx? tm.asid = some cx → (tm.pageWaits.find? fun w => w.id == o.id) = some w →
    w.ticket ≤ s.counter (cx.r.sqb + cx.r.psc) →
    ∃ s' tm', exec (.enginePageRetry o) s = .next s' ∧ s'.mem = s.mem ∧ s'.team? o.team = some tm' ∧
      tm'.pageWaiting o.id = false)

/-- No two of some pieces meet, nor one of them n bytes at a key. -/
def piecesApart (ps : List (Nat × List Byte)) (key n : Nat) : Prop :=
  (ps.Pairwise fun a b => overlap a.1 a.2.length b.1 b.2.length = false) ∧
    ∀ e ∈ ps, overlap e.1 e.2.length key n = false
/-- The pieces stand in memory, and outside them and n bytes at a key memory is as it was. -/
def piecesStand (s' s : State) (ps : List (Nat × List Byte)) (key n : Nat) : Prop :=
  (∀ e ∈ ps, isPeer e.1 = false → s'.bytes e.1 e.2.length = e.2) ∧
    ∀ a, (∀ e ∈ ps, isPeer e.1 = true ∨ a < e.1 ∨ e.1 + e.2.length ≤ a) → (a < key ∨ key + n ≤ a) →
      tabGet 0 s'.mem a = tabGet 0 s.mem a

/-- R235 to R238, R240: a chunk of a tile copy lands. A load puts the chunk's units, 16 bytes each with zeros out of bounds, at
their places of the receiver's tile; a store puts the units' bytes in bounds at the addresses they map to. Then the chunk's MAP bit
is set, in the 48 bytes of the landing block, and counts as done unless the copy has left; nothing else in memory changes. -/
def Claim.ChunksLand : Prop :=
  ∀ (s : State) (o : ChunkOp) (tm ru : Team) (cp : TileCopy) (v : Recv) (key : Nat) (ps : List (Nat × List Byte)),
    s.team? o.team = some tm → (tm.copies.find? fun q => q.id == o.id) = some cp → s.team? o.recv = some ru →
    (cp.recvs.find? fun r => r.team == o.recv) = some v → v.zeroed = true → cp.buf = [] →
    tm.pageWaiting cp.id = false → s.engineOn tm (cp.kind != 2) = true → o.k < cp.sh.chunks → cp.sh.chunks ≤ 256 →
    v.done.testBit o.k = false → s.scratchKey ru 0 .core cp.land = .ok key → Memory.wf s.mem = true →
    (cp.st = false ∧ (∃ us, s.loadUnits tm cp ⟨o.peer, o.peerOk, o.peerBad⟩ (chunkUnits cp.sh o.k) 0 = .ok us ∧
        (∀ u ∈ us, u.length = 16) ∧
        ps = ((s.tileKeys ru cp.sh cp.d (chunkUnits cp.sh o.k)).zip us).filterMap fun q => q.1.map fun k => (k, q.2)) ∨
      cp.st = true ∧ o.recv = o.team ∧
        s.storeUnits tm cp ⟨o.peer, o.peerOk, o.peerBad⟩ (chunkUnits cp.sh o.k) = .ok ps) →
    piecesApart ps key 48 →
    ∃ s' tm', exec (.chunk o) s = .next s' ∧ piecesStand s' s ps key 48 ∧
      (s'.read (key + 8 * (o.k / 64)) 8).testBit (o.k % 64) = true ∧ s'.team? o.team = some tm' ∧
      ∀ q ∈ tm'.copies, q.id = cp.id → ∀ r ∈ q.recvs, r.team = o.recv → r.done.testBit o.k = true

/-- Copies run: per-lane copies and the chunks of tile copies in both directions; engines wait for pages.
Complete here (exec answers next on these conditions alone): cplCopyFinish, chunk, enginePageRetry. -/
def Obligations.CopiesRun : Prop := Claim.CopiesFinish ∧ Claim.ChunksLand

/-- R246, R247, R248, R250: a sort with no input barrier begins when the cluster's engine is free; a pass of the running sort
that can be made counts; after its last pass the sort leaves and posts a Q3 record with status 0, its block, count and thread, and
where its arrays do not overlap and no other agent has written them only the work arrays may change then. -/
def Claim.SortsRun : Prop :=
  ∀ (s : State) (o : WorkRef) (tm : Team) (q : SortJob), s.team? o.team = some tm →
    (tm.sorts.find? fun q => q.id == o.id) = some q → s.engineOn tm true = true →
    (q.started = true ∨ q.ibarOn = false → s.sorting (clusterOf tm.core) = false →
      ∃ s' tm', exec (.sortStart o) s = .next s' ∧ s'.mem = s.mem ∧ s'.team? o.team = some tm' ∧
        (tm'.sorts.find? fun r => r.id == o.id) = some { q with started := true, going := true }) ∧
    (∀ s1, q.going = true → q.passes < q.total → tm.pageWaiting q.id = false →
      s.movePass tm q ⟨o.peer, o.peerOk, o.peerBad⟩ = .ok s1 →
      ∃ s' tm' r, exec (.sortPass o) s = .next s' ∧ s'.mem = s1.mem ∧ s'.team? o.team = some tm' ∧
        (tm'.sorts.find? fun r => r.id == o.id) = some r ∧ r.passes = q.passes + 1 ∧ { r with passes := q.passes } = q) ∧
    (q.going = true → q.passes = q.total →
      ∃ s' tm' r a, exec (.sortComplete o) s = .next s' ∧ s'.team? o.team = some tm' ∧
        tm'.sorts = (tm.sorts.filter fun r => r.id != q.id) ∧ tm'.posts = tm.posts ++ [⟨3, r, a⟩] ∧
        (q.bar = false → a = none ∧ tm'.events = tm.events) ∧
        r.data = natLe 4 0 ++ natLe 4 q.block ++ natLe 4 q.count ++ natLe 4 (tm.whoOf q.o.thr) ∧
        (overlapAny q.arrays = false → q.clash = false → Memory.wf s.mem = true → ∀ a,
          (∀ z ∈ s.arrRanges tm { q with keys := q.tkeys, vals := q.tvals }, a < z.1 ∨ z.1 + z.2 ≤ a) →
          tabGet 0 s'.mem a = tabGet 0 s.mem a))

/-- R246: a pass sorts on its digit and is stable: its result is a permutation of the pairs, rising in the digit, and pairs
of one digit value keep their order. -/
def Claim.SortPassIsStable : Prop :=
  ∀ (q : SortJob) (d : Nat) (ps : List (Nat × Nat)),
    let dig := fun p : Nat × Nat => sortKey q p.1 / 2 ^ (8 * d) % 256
    (sortDigit q d ps).Perm ps ∧ (sortDigit q d ps).Pairwise (fun a b => dig a ≤ dig b) ∧
    ∀ v, (sortDigit q d ps).filter (fun p => dig p == v) = ps.filter fun p => dig p == v

/-- A sort runs, and each of its passes is stable.
Complete here (exec answers next on these conditions alone): sortStart, sortPass, sortComplete. -/
def Obligations.SortsComplete : Prop := Claim.SortsRun ∧ Claim.SortPassIsStable

/-! ### Matrix commands, chapter 10 -/

/-- R259, R267, R276 to R280, R442: a matrix command of a crew bound to the matrix unit whose operands pass their checks
enters Q0, where that has room, and is in flight until it completes; an MMX enters with its parameter block, sound, well
formed and with barriers that pass their checks. The barrier operand of MMST in a K register, as R202 and R276 have it against
R94, and the order in Q0 of the commands of one group are the model's choices (logs 119 and 129).
Complete here (exec answers next on these conditions alone): mmx, mmzero, mmld, mmst, mmrd. -/
def Obligations.MatrixCommandsEnterQ0 : Prop :=
  ∀ (s : State) (x : Issue) (tm : Team) (cr : Crew) (j : Nat) (t : Thread) (c : Common),
    s.quiet → cr.bound 1 = true → tm.q0.length < 16 →
    let go := fun (i : Instr) (vals : List Nat) (blk : Option MxBlk) (opnds : List EngOpnd) (okay : Prop) =>
      IssuesAlone s i x tm cr j t → s.started.badOpnd tm j opnds = none → okay →
      ∃ s' tm' u op cmd, exec i s = .next s' ∧ s'.mem = s.mem ∧ s'.team? x.team = some tm' ∧ tm'.q0 = tm.q0 ++ [cmd] ∧
        cmd.i = i ∧ cmd.vals = vals ∧ cmd.blk = blk ∧ cmd.id = op.id ∧ cmd.o.thr = j ∧ s'.thr? x.team j = some u ∧
        u.v = t.v ∧ u.pend = t.pend ++ [op] ∧ op.i = i ∧ op.res = none ∧ op.dst = writesOf i
    (∀ a key, let ea := srcVal cr.k t false a
      let bs := s.bytes key 64
      let b := mxBlock ea bs
      go (.mmx c a) [] (some b) [⟨.core, ea, 64, 64⟩] (t.pend = [] ∧ s.scratchKey tm j .core ea = .ok key ∧
        s.poisoned key 64 = false ∧ mxBlockOk tm cr b bs = true ∧ s.started.badOpnd tm j (mxOpnds b) = none)) ∧
    (∀ o, go (.mmzero c o) [] none [] True) ∧
    (∀ o, let a := srcVal cr.k t false o.a; let b := srcVal cr.k t false o.b; let e := optVal cr.k t false o.ew
      go (.mmld c o) [a, b, e] none [⟨.core, a, (shapeRows b - 1) * shapeStride b + mmldRow o, if o.pair then 8 else 4⟩]
        (shapeOk b = true ∧ mmldRow o ≤ shapeStride b ∧ epiOk e o.n.val tm.tileShare (!o.pair) = true)) ∧
    (∀ o, let b := srcVal cr.k t false o.b
      go (.mmst c o) [srcVal cr.k t o.mem o.a, b, optVal cr.k t false o.bar] none
        (match o.bar with | some d => [⟨.core, srcVal cr.k t false d, 16, 16⟩] | none => []) (shapeOk b = true)) ∧
    (∀ o, let b := srcVal cr.k t false o.b
      go (.mmrd c o) [b] none [] (mmrdCol b % 2 ^ o.nw.val = 0))

/-- R269, R277, R260, R261: an MMX at the head of Q0 without an input barrier starts, with its epilogue word and, under ZERO,
zeroed words; a pass on awake arrays that meets no error stores its sums and counts; with a gated array it is the wake of
that array that starts (R274). -/
def Claim.MatrixOperationsRun : Prop :=
  (∀ (s : State) (id : Nat) (tm : Team) (c : MxCmd) (b : MxBlk) (rest : List MxCmd), s.team? id = some tm →
    tm.q0 = c :: rest → c.blk = some b → s.engineOn tm tm.onlyMmx = true →
    (c.started = false → b.ibarOn = false → tabOk 0 tm.acc = true → tabOk 0 tm.epi = true →
      ∃ s' tm' c', exec (.matrixOpStart id) s = .next s' ∧ s'.mem = s.mem ∧ s'.team? id = some tm' ∧
        tm'.running = some (c', b) ∧ c'.id = c.id ∧ c'.passes = c.passes ∧ tm'.epiOf b.acc = b.epi ∧
        (b.zero = true → ∀ r < 32 * b.mb, ∀ k < 16 * b.nq, tm'.accGet b.wide b.acc r k = 0)) ∧
    (∀ u xf, c.started = true → c.passes < b.total → (∀ q < b.mb, (s.array tm.core q).gated = false) →
      s.passResult tm c b c.passes = some (u, xf) →
      ∃ s' tm' c', exec (.matrixPass id) s = .next s' ∧ s'.mem = s.mem ∧ s'.team? id = some tm' ∧ tm'.acc = u.acc ∧
        tm'.running = some (c', b) ∧ c'.passes = c.passes + 1 ∧ c'.xf = c.xf ||| xf) ∧
    (∀ q < 4, c.started = true → c.passes < b.total → q < b.mb → (s.array tm.core q).gated = true →
      (s.array tm.core q).waking = 0 → tm.core < s.cores.length →
      (∀ k, s.cores[tm.core]? = some k → k.arrays.length = 4) →
      ∃ s', exec (.matrixPass id) s = .next s' ∧ s'.mem = s.mem ∧ s'.teams = s.teams ∧ (s'.array tm.core q).waking = 97))

/-- R267 to R269, R278 to R280: the command at the head of Q0 completes and leaves it. MMZERO zeroes its tile, MMLD loads
its rows, MMST writes the tile's rows, MMRD delivers its words, and an MMX after its last pass counts in DONE. -/
def Claim.MatrixCommandsComplete : Prop :=
  ∀ (s : State) (id : Nat) (tm : Team) (q : MxCmd) (rest : List MxCmd) (t : Thread) (o : Op) (c : Common),
    s.team? id = some tm → tm.q0 = q :: rest → tm.pageWaiting q.id = false → s.engineOn tm false = true →
    s.thr? id q.o.thr = some t → t.op? q.id = some o → s.quiet → o.dst = writesOf o.i → o.i = q.i →
    let go := fun (post : State → Team → Prop) (ws : List (Nat × Word)) =>
      ∃ s' tm', exec (.matrixCommandComplete id) s = .next s' ∧ s'.team? id = some tm' ∧
        tm'.q0 = rest.filter (fun r => r.id != q.id) ∧ OpDone s' id q.o.thr t o ws t.p ∧ post s' tm'
    (∀ z : MmzeroOp, q.i = .mmzero c z → go (fun s' tm' => s'.mem = s.mem ∧
      ∀ r < 128, ∀ k < 64, tm'.accGet false z.n.val r k = 0 ∧
        (z.pair = true → tm'.accGet false (z.n.val + 1) r k = 0)) []) ∧
    (∀ (z : MmldOp) (key : Nat → Nat), q.i = .mmld c z → tabOk 0 tm.acc = true →
      let sh := q.vals.getD 1 0
      (∀ r < shapeRows sh, s.coreAt tm (q.vals.getD 0 0 + r * shapeStride sh) = some (key r) ∧
        s.poisoned (key r) (mmldRow z) = false) →
      go (fun s' tm' => s'.mem = s.mem ∧ ∀ r < shapeRows sh, ∀ k < 64,
        tm'.accGet z.pair z.n.val r k = s.read (key r + (if z.pair then 8 else 4) * k) (if z.pair then 8 else 4)) []) ∧
    (∀ (z : MmstOp) (ps : List (Nat × List Byte)), q.i = .mmst c z →
      let sh := q.vals.getD 1 0
      let a := q.vals.getD 0 0
      let e := tm.epiOf z.n.val
      (z.mem = true → a < 2 ^ 57) → a % epiSize e = 0 → 64 * epiSize e ≤ shapeStride sh → tm.tileBad z.n.val = false →
      (e % 16 = 1 → tm.tileBad (z.n.val + 1) = false) →
      s.mmstPieces tm z.mem ((List.range (shapeRows sh)).map fun r => (a + r * shapeStride sh, (mmstRow tm z.n.val e r).1)) =
        .ok ps →
      go (fun s' tm' => s'.mem = (s.storeRuns tm.asid ps).mem ∧ tm'.acc = tm.acc) []) ∧
    (∀ z : MmrdOp, q.i = .mmrd c z → tm.tileBad z.n.val = false →
      let b := q.vals.getD 0 0
      go (fun s' tm' => s'.mem = s.mem ∧ tm'.acc = tm.acc)
        (vPuts z.d.val ((List.range (2 ^ z.nw.val)).map fun k => tm.accGet false z.n.val (mmrdRow b) (mmrdCol b + k)))) ∧
    (∀ (a : Src) (b : MxBlk), q.i = .mmx c a → q.blk = some b → q.started = true → b.total ≤ q.passes → q.bad = false →
      b.post = false → b.bar = false →
      go (fun s' tm' => s'.mem = s.mem ∧ tm'.acc = tm.acc ∧ tm'.mxDone = (tm.mxDone + 1) % 2 ^ 32 ∧
        tm'.mxSticky = tm.mxSticky ||| q.xf) [])

/-- R273, R274, R281, R282: MMWAKE starts the wake of the named arrays that are gated and completes when they are awake;
MMSTAT delivers the length of Q0, the gated arrays, the sticky status and DONE; an array idle for its limit is gated, and a
wake whose cc have passed ends. -/
def Claim.ArrayPowerCompletes : Prop :=
  (∀ (s : State) (x : Issue) (tm : Team) (cr : Crew) (j : Nat) (t : Thread) (c : Common),
    (∀ mask : Fin 16, IssuesAlone s (.mmwake c mask) x tm cr j t → cr.bound 1 = true →
      Gives (.mmwake c mask) s x.team j (t.withOp s x (.mmwake c mask) []) ∧
      ∀ s', exec (.mmwake c mask) s = .next s' → ∀ q < 4, tm.core < s.cores.length →
        (∀ k, s.cores[tm.core]? = some k → k.arrays.length = 4) → mask.val.testBit q = true →
        (s.array tm.core q).gated = true → (s.array tm.core q).waking = 0 → (s'.array tm.core q).waking = 97) ∧
    (∀ o : MmstatOp, IssuesAlone s (.mmstat c o) x tm cr j t →
      Gives (.mmstat c o) s x.team j (t.withOp s x (.mmstat c o) []))) ∧
  (∀ (s : State) (p : PerformOp) (tm : Team) (t : Thread) (o : Op) (c : Common), Pending s p.team p.thr p.id tm t o →
    (∀ mask : Fin 16, o.i = .mmwake c mask → (∀ q < 4, mask.val.testBit q = true → (s.array tm.core q).gated = false) →
      ∃ s', exec (.flaggedCompletion p) s = .next s' ∧ s'.mem = s.mem ∧ OpDone s' p.team p.thr t o [] t.p) ∧
    (∀ q : MmstatOp, o.i = .mmstat c q → o.dst = [q.d.val, q.d.val + 1] →
      let g := fun a => if (s.array tm.core a).gated then 1 else 0
      ∃ s' tm', exec (.flaggedCompletion p) s = .next s' ∧ s'.mem = s.mem ∧
        OpDone s' p.team p.thr t o (vPut true q.d.val (tm.q0.length % 32 + (g 0 + 2 * g 1 + 4 * g 2 + 8 * g 3) * 2 ^ 5 +
          tm.mxSticky % 16 * 2 ^ 9 + tm.mxDone % 2 ^ 32 * 2 ^ 16)) t.p ∧
        s'.team? p.team = some tm' ∧ tm'.mxSticky = if q.clr then 0 else tm.mxSticky)) ∧
  (∀ (s : State) (o : ArrayRef) (k : Core), s.cores[o.core.val]? = some k → k.arrays.length = 4 →
    let a := s.array o.core.val o.q.val
    (k.mxgate.toNat % 2 ^ 16 ≠ 0 → a.gated = false → k.mxgate.toNat % 2 ^ 16 ≤ a.idle →
      s.arrayBusy o.core.val o.q.val = false →
      ∃ s', exec (.arrayIdleGate o) s = .next s' ∧ (s'.array o.core.val o.q.val).gated = true ∧
        ∀ q < 4, q ≠ o.q.val → s'.array o.core.val q = s.array o.core.val q) ∧
    (a.gated = true → a.waking = 1 →
      ∃ s', exec (.arrayWakeComplete o) s = .next s' ∧ (s'.array o.core.val o.q.val).gated = false ∧
        ∀ q < 4, q ≠ o.q.val → s'.array o.core.val q = s.array o.core.val q))

/-- A matrix operation runs, the commands complete, and arrays wake.
Complete here (exec answers next on these conditions alone): matrixOpStart, matrixPass, mmx, mmzero, mmld, mmst, mmrd,
matrixCommandComplete, mmwake, mmstat, flaggedCompletion, arrayIdleGate, arrayWakeComplete. -/
def Obligations.MatrixOperationsComplete : Prop := Claim.MatrixOperationsRun ∧ Claim.MatrixCommandsComplete ∧ Claim.ArrayPowerCompletes

/-! ### Raster, fragments and targets, chapter 11 -/

/-- R283 to R289, R305: RAST of a crew bound to the fragment unit goes in flight; with a well-formed block whose entry is a
landing pad with the named tag its command enters Q4; the unit reads its records, launches a fragment for each covered pixel
on an idle thread of the fragment crew with the registers of R287, and the command completes when its fragments have ended.
Complete here (exec answers next on these conditions alone): rast, flaggedCompletion, rasterRecord, fragmentLaunch,
rastComplete. -/
def Obligations.RasterCommandsRun : Prop :=
  (∀ (s : State) (x : Issue) (tm : Team) (cr : Crew) (j : Nat) (t : Thread) (c : Common) (a : Src) (key : Nat),
    IssuesAlone s (.rast c a) x tm cr j t → cr.bound 2 = true →
    let ea := srcVal cr.k t false a
    s.started.badOpnd tm j [⟨.core, ea, 32, 32⟩] = none → s.scratchKey tm j .core ea = .ok key →
    Gives (.rast c a) s x.team j
      (t.withOp s x (.rast c a) [ea] fun u => { u with key := key, len := 32, slots := tm.targets })) ∧
  (∀ (s : State) (p : PerformOp) (tm : Team) (t : Thread) (o : Op) (c : Common) (a : Src) (cx : Context) (h : DWord),
    Pending s p.team p.thr p.id tm t o → t.pend = [o] → o.i = .rast c a → s.coreStores tm.core o.key o.len = [] →
    s.poisoned o.key o.len = false → s.ctx? tm.asid = some cx →
    let bs := s.bytes o.key o.len
    let q := rastBlock tm o p.thr bs s.nextId
    rastOk tm q (fld bs 26 2) = true → q.bar = false → q.entry % 8 = 0 →
    s.fetchWord cx tm.core q.entry (t.crew == 7) = .ok h → hdrPad h = true → hdrTag h = fld bs 26 2 →
    ∃ s' tm', exec (.flaggedCompletion p) s = .next s' ∧ s'.mem = s.mem ∧ OpDone s' p.team p.thr t o [] t.p ∧
      s'.team? p.team = some tm' ∧ tm'.rasts = tm.rasts ++ [q]) ∧
  (∀ (s : State) (id : Nat) (tm : Team) (q : RastCmd) (key : Nat), s.team? id = some tm → tm.rasting = some q →
    q.cur = none → q.bin % 64 = 0 → tm.pageWaiting q.id = false → s.engineOn tm true = true →
    s.resolve tm 0 false .mem (q.bin + 64 * q.idx) 1 .rd = .ok key → s.poisoned key 64 = false → s.outAt key 64 = false →
    let step := fun f : RastCmd → RastCmd => ∃ s' tm', exec (.rasterRecord id) s = .next s' ∧ s'.mem = s.mem ∧
      s'.team? id = some tm' ∧ tm'.rasts = tm.rasts.map fun c => if c.id = q.id then f c else c
    (∀ r, triRec (s.bytes key 64) = some r → step fun c => { c with cur := some r }.settle) ∧
    (triRec (s.bytes key 64) = none → step fun c => { c.nextRecord with skip := c.skip + 1 })) ∧
  (∀ (s : State) (o : ThRef) (tm : Team) (t : Thread) (q : RastCmd) (cr : Crew) (r : TriRec) (px : Nat),
    s.team? o.team = some tm → s.thr? o.team o.thr = some t → tm.rasting = some q → tm.fragCrew = some cr →
    q.cur = some r → q.nextPixel r = some px → t.crew = cr.num → t.status = .idle → t.dbg.halted = false →
    t.dbg.req = none → s.engineOn tm true = true → 8 ≤ cr.budget →
    let fx := 16 * q.tx + px % 16
    let fy := 16 * q.ty + px / 16
    let m := sampleMask r.verts q.ms4 fx fy
    ∃ s' u, exec (.fragmentLaunch o) s = .next s' ∧ s'.mem = s.mem ∧ s'.thr? o.team o.thr = some u ∧ u.status = .ready ∧
      u.pc = BitVec.ofNat 64 q.entry ∧ u.v.getD 0 0 = BitVec.ofNat 32 (fx + fy * 2 ^ 16) ∧
      u.v.getD 1 0 = BitVec.ofNat 32 (m + (if 0 < triArea r.verts then 16 else 0)) ∧
      u.v.getD 2 0 = BitVec.ofNat 32 r.pseq ∧ u.v.getD 4 0 = BitVec.ofNat 32 q.idx ∧
      (u.frag.map fun f => (f.x, f.y, f.mask, f.holds, f.left)) = some (fx, fy, m, false, false)) ∧
  (∀ (s : State) (id : Nat) (tm : Team) (q : RastCmd), s.team? id = some tm → s.engineOn tm true = true →
    (tm.rasts.find? fun c => c.over && tm.threads.all fun t => (t.frag.map fun f => f.rast) != some c.id) = some q →
    q.stop = none → q.bar = false → q.post = true →
    ∃ s' tm' r, exec (.rastComplete id) s = .next s' ∧ s'.mem = s.mem ∧ s'.team? id = some tm' ∧
      tm'.rasts = (tm.rasts.filter fun c => c.id != q.id) ∧ tm'.posts = tm.posts ++ [⟨4, r, none⟩] ∧
      r.data = natLe 1 1 ++ natLe 1 0 ++ natLe 2 (tm.whoOf q.o.thr) ++ natLe 4 q.frags ++ natLe 4 q.block ++ natLe 4 q.skip)

/-- R291 to R293, R306, R307: on a thread that runs a fragment, ATTR beyond NATTR delivers zeros, and ATTR of an attribute
goes in flight and delivers its plane values at the pixel centre; OENTER enters the ordered section where no earlier fragment
holds it back and waits otherwise; OLEAVE leaves it, and does nothing on a thread that does not hold it.
Complete here (exec answers next on these conditions alone): attr, oenter, oleave, flaggedCompletion. -/
def Obligations.FragmentInstructionsComplete : Prop :=
  ∀ (s : State) (x : Issue) (tm : Team) (cr : Crew) (j : Nat) (t : Thread) (c : Common) (f : Frag), t.frag = some f →
    (∀ o : AttrOp, IssuesAlone s (.attr c o) x tm cr j t → let i := srcVal cr.k t false o.b
      (f.nattr ≤ i → Gives (.attr c o) s x.team j (t.withOp s x (.attr c o) [] fun u =>
        { u with res := some ((vrange o.d (if o.deriv then 3 else 1)).map fun d => (d, 0)) })) ∧
      (∀ ks, i < f.nattr → s.started.attrKeys tm j (x.crew == 7) (attrAddrs f i) = .ok ks →
        Gives (.attr c o) s x.team j (t.withOp s x (.attr c o) ((f.attrb + 12 * i) :: ks)))) ∧
    (∀ (p : PerformOp) (z : Team) (o : Op) (q : AttrOp) (a0 k0 k1 k2 : Nat), Pending s p.team p.thr p.id z t o →
      o.i = .attr c q → o.vals = [a0, k0, k1, k2] → (∀ k ∈ [k0, k1, k2], isPeer k = false ∧ s.poisoned k 4 = false) →
      ∃ s' u, exec (.flaggedCompletion p) s = .next s' ∧ s'.mem = s.mem ∧ s'.op? p.team p.thr p.id = some u ∧
        u.res = some (vPuts q.d.val ((attrOut f q.deriv [s.read k0 4, s.read k1 4, s.read k2 4]).map fun y => y.1))) ∧
    (IssuesAlone s (.oenter c) x tm cr j t → f.entered = false →
      (t.waits = [] → t.pend = [] → sectionFree tm f = true →
        Gives (.oenter c) s x.team j { t with frag := some { f with entered := true, holds := true } }) ∧
      (sectionFree tm f = false →
        Gives (.oenter c) s x.team j (t.withWait s x (.oenter c) [] fun u => { u with waited := true }))) ∧
    (IssuesAlone s (.oleave c) x tm cr j t →
      (f.holds = false → Gives (.oleave c) s x.team j t) ∧
      (f.holds = true → t.pend = [] → t.waits = [] →
        Gives (.oleave c) s x.team j { t with frag := some { f with holds := false, left := true } }))

/-- R295, R304, R308 to R311: FLCFG.set and FLCFG.grow of a block of their mode go in flight, FLCFG.off empties its slot and
completes; FLINS, FLRES, FLRES.clr and FLRD of a pixel inside the slot's target go in flight with the target they captured. -/
def Claim.TargetInstructionsIssue : Prop :=
  ∀ (s : State) (x : Issue) (tm : Team) (cr : Crew) (j : Nat) (t : Thread) (c : Common),
    (∀ (o : FlcfgSet) (key : Nat) (rt : Option Route), IssuesAlone s (.flcfgSet c o) x tm cr j t →
      let ea := srcVal cr.k t o.mem o.a
      s.started.badOpnd tm j [⟨if o.mem then .mem else .core, ea, 64, 64⟩] = none →
      (if o.mem then (s.started.resolve tm j (x.crew == 7) .mem ea 1 .rd).routed s tm key rt
        else s.scratchKey tm j .core ea = .ok key ∧ rt = none) →
      Gives (.flcfgSet c o) s x.team j (t.withOp s x (.flcfgSet c o) [ea] fun u =>
        { u with key := key, len := 64, slots := if o.mem then [] else tm.targets, route := rt })) ∧
    (∀ (n : Fin 4) (g : Target) (key : Nat) (rt : Option Route), IssuesAlone s (.flcfgGrow c n) x tm cr j t →
      tm.targets.getD n.val none = some g →
      (if g.imm then (s.started.resolve tm j (x.crew == 7) .mem g.blk 1 .rd).routed s tm key rt
        else s.scratchKey tm j .core g.blk = .ok key ∧ rt = none) →
      Gives (.flcfgGrow c n) s x.team j (t.withOp s x (.flcfgGrow c n) [g.blk] fun u =>
        { u with key := key, len := 64, slots := if g.imm then [] else tm.targets, route := rt })) ∧
    (∀ n : Fin 4, IssuesAlone s (.flcfgOff c n) x tm cr j t →
      ∃ s' tm', exec (.flcfgOff c n) s = .next s' ∧ s'.mem = s.mem ∧ s'.team? x.team = some tm' ∧
        tm'.targets = tm.targets.set n.val none ∧
        s'.thr? x.team j = some (t.withOp s x (.flcfgOff c n) [] fun u => { u with res := some [] })) ∧
    (∀ (i : Instr) (slot pix : Nat) (g : Target) (px py : Nat) (vals : List Nat), IssuesAlone s i x tm cr j t →
      (∃ o : FlinsOp, i = .flins c o ∧ slot = o.slot.val ∧ vals = [srcVal cr.k t false o.a, t.v64 o.b.val, flSrcNum o] ∧
          (match o.px with
          | some (_, q) => pix = srcVal cr.k t false q
          | none => ∃ f, t.frag = some f ∧ pix = f.x + f.y * 2 ^ 16)) ∨
      (∃ o : FlresOp, i = .flres c o ∧ slot = o.slot.val ∧ pix = srcVal cr.k t false o.a ∧ vals = []) ∨
      (∃ o : FlresOp, i = .flresClr c o ∧ slot = o.slot.val ∧ pix = srcVal cr.k t false o.a ∧ vals = []) ∨
      (∃ o : FlrdOp, i = .flrd c o ∧ slot = o.slot.val ∧ pix = srcVal cr.k t false o.a ∧ vals = [srcVal cr.k t false o.b]) →
      tm.targets.getD slot none = some g → targetPixel g (pix % 2 ^ 32) = some (px, py) →
      Gives i s x.team j (t.withOp s x i (px :: py :: vals) fun u =>
        { u with tgt := some g, key := pixelKey g px py, len := 1 }))

/-- R308: FLCFG.set of a well-formed block fills its slot, and FLCFG.grow raises its shelf count. -/
def Claim.TargetSlotsFill : Prop :=
  ∀ (s : State) (p : PerformOp) (tm : Team) (t : Thread) (o : Op) (c : Common), Pending s p.team p.thr p.id tm t o →
    isPeer o.key = false → s.coreStores tm.core o.key o.len = [] → s.poisoned o.key o.len = false →
    (∀ (q : FlcfgSet) (g : Target), o.i = .flcfgSet c q → targetOf tm q.mem o.ea (s.bytes o.key o.len) = some g →
      s.shelvesOk tm g g.shelves = some true →
      ∃ s' tm', exec (.flaggedCompletion p) s = .next s' ∧ s'.mem = s.mem ∧ OpDone s' p.team p.thr t o [] t.p ∧
        s'.team? p.team = some tm' ∧ tm'.targets = tm.targets.set q.slot.val (some g)) ∧
    (∀ (n : Fin 4) (g : Target), o.i = .flcfgGrow c n → tm.targets.getD n.val none = some g →
      let k := fld (s.bytes o.key o.len) 28 4
      g.shelves ≤ k → k ≤ 65535 → s.shelvesOk tm g k = some true →
      ∃ s' tm', exec (.flaggedCompletion p) s = .next s' ∧ s'.mem = s.mem ∧ OpDone s' p.team p.thr t o [] t.p ∧
        s'.team? p.team = some tm' ∧ tm'.targets = tm.targets.set n.val (some { g with shelves := k }))

/-- R297, R298, R309 to R311: an insert that needs a node takes it in a step of its own; the insert that meets no fault then
completes with its predicate telling whether it was degraded. FLRES delivers the payload of the pixel's entries folded from the
front, under rule 2 that of the first, with their number and the sum of their counts, and zeros where there are none; FLRES.clr
empties the pixel too. FLRD delivers entry k with the index of the next entry, and the mark of no entry beyond the last. -/
def Claim.TargetOperationsPerform : Prop :=
  ∀ (s : State) (z : PendRef) (tm : Team) (t : Thread) (o : Op) (c : Common) (g : Target),
    Pending s z.team z.thr z.id tm t o → o.tgt = some g → s.runs tm.asid = true →
    let u : FlUser := ⟨tm, z.thr, t.crew == 7⟩
    let v := fun n => o.vals.getD n 0
    let px := v 0
    let py := v 1
    s.pixelTaken u g px py o.id = false →
    (∀ q : FlinsOp, o.i = .flins c q →
      let take := if o.stage = 0 then s.flTake u g px py (v 2) (v 3) (v 4) else none
      (∀ n s1, take = some (n, s1) →
        ∃ s', exec (.setterInsert z) s = .next s' ∧ s'.mem = s1.mem ∧
          s'.op? z.team z.thr z.id = some { o with stage := 1, vals := o.vals ++ [n] }) ∧
      (∀ (s1 : State) (deg : Bool), take = none →
        s.flInsert u g px py (!g.degrade) (v 2) (v 3) (v 4) (if o.stage = 0 then none else some (v 5)) = (s1, .ok deg) →
        ∃ s', exec (.setterInsert z) s = .next s' ∧ s'.mem = s1.mem ∧
          OpDone s' z.team z.thr t o [] (t.predsWith q.d deg))) ∧
    (∀ w : FlPixel, s.flPixel u g px py = .ok w →
      (∀ (q : FlresOp) (clr : Bool) (row : Option GlzRow) (e : FlEnt), (o.i = if clr then .flresClr c q else .flres c q) →
        o.dst = [q.d.val, q.d.val + 1, q.d.val + 2] →
        let l := w.nodes.map fun n => n.ent
        let r := if 2 ≤ l.length then s.flRoutine u g w.ha else (s, .ok none)
        r.2 = .ok row → resolveEnts g.rule row l = .ok e →
        let ws := vPut true q.d.val e.payload ++ vPut false (q.d.val + 2) (l.length + 16 * (l.map fun n => n.mcount).sum)
        (l = [] → e.payload = 0) ∧ (∀ n ns, l = n :: ns → row = none → g.rule = 2 → e.payload = n.payload) ∧
        (clr = false →
          ∃ s', exec (.setterInsert z) s = .next s' ∧ s'.mem = s.mem ∧ OpDone s' z.team z.thr t o ws t.p) ∧
        (clr = true → ∀ s1, r.1.flPut u g [(w.ha, natLe 4 0xFFFFFF)] = .ok s1 →
          ∃ s', exec (.setterInsert z) s = .next s' ∧ s'.mem = s1.mem ∧ OpDone s' z.team z.thr t o ws t.p)) ∧
      (∀ q : FlrdOp, o.i = .flrd c q → o.dst = vrange q.d 4 →
        let k := v 2
        ∃ s', exec (.setterInsert z) s = .next s' ∧ s'.mem = s.mem ∧
          OpDone s' z.team z.thr t o (vPuts q.d.val (match w.nodes[k]? with
            | none => [0, 0, 0, 0xC0000000]
            | some n => [n.ent.depth, n.ent.payload % 2 ^ 32, n.ent.payload / 2 ^ 32,
                (if k + 1 < w.nodes.length then k + 1 else 0xFFFFFF) + n.ent.mcount * 2 ^ 24 + n.ent.src * 2 ^ 28 +
                  n.ent.resv * 2 ^ 30])) t.p))

/-- The target instructions issue and perform.
Complete here (exec answers next on these conditions alone): flcfgSet, flcfgGrow, flcfgOff, flins, flres, flresClr,
flrd, flaggedCompletion, setterInsert. -/
def Obligations.TargetsComplete : Prop := Claim.TargetInstructionsIssue ∧ Claim.TargetSlotsFill ∧ Claim.TargetOperationsPerform

/-! ### Splats and rays, chapter 12 -/

/-- R313, R323: SPLAT with room goes in flight, and with a well-formed block whose addresses pass their checks its command enters
Q4, with the target that its slot held under LMODE. -/
def Claim.SplatsAreAccepted : Prop :=
  (∀ (s : State) (x : Issue) (tm : Team) (cr : Crew) (j : Nat) (t : Thread) (c : Common) (a : Src) (key : Nat),
    IssuesAlone s (.splat c a) x tm cr j t → cr.bound 2 = true → tm.splatsOpen < 16 → x.stalled = [] →
    let ea := srcVal cr.k t false a
    s.started.badOpnd tm j [⟨.core, ea, 64, 64⟩] = none → s.scratchKey tm j .core ea = .ok key →
    Gives (.splat c a) s x.team j
      (t.withOp s x (.splat c a) [ea] fun u => { u with key := key, len := 64, slots := tm.targets })) ∧
  (∀ (s : State) (p : PerformOp) (tm : Team) (t : Thread) (o : Op) (c : Common) (a : Src),
    Pending s p.team p.thr p.id tm t o → t.pend = [o] → o.i = .splat c a → s.coreStores tm.core o.key o.len = [] →
    s.poisoned o.key o.len = false →
    let bs := s.bytes o.key o.len
    let q := splatBlock tm o p.thr bs s.nextId
    let g := if q.lmode then o.slots.getD q.slot none else none
    splatOk q (fld bs 60 4) = true → s.badOpnd tm p.thr (splatOpnds q) = none → (q.lmode = true → g ≠ none) →
    ∃ s' tm', exec (.flaggedCompletion p) s = .next s' ∧ s'.mem = s.mem ∧ OpDone s' p.team p.thr t o [] t.p ∧
      s'.team? p.team = some tm' ∧ tm'.splats = tm.splats ++ [{ q with tgt := g }])

/-- R314 to R318, R321, R323: the command at the head of Q4 begins when the cluster's units are free, and after a restore has
them again; it fills WORK with the records' depth keys and their indexes, sorts them in four passes, and takes none where it has no
records. A pixel writes its channels, T, n, LAST and FKEY at its place of OUT, or under LMODE goes to the target where a record
contributed: its node is taken in a step of its own. After its 256 pixels the command leaves, with a record where POST asks for one,
and only the work arrays of the sort may change then. -/
def Claim.SplatsRun : Prop :=
  ∀ (s : State) (id : Nat) (tm : Team) (q : SplatCmd) (rest : List SplatCmd), s.team? id = some tm →
    tm.splats = q :: rest → tm.pageWaiting q.id = false → s.engineOn tm true = true → Memory.wf s.mem = true →
    let upd := fun (ev : Instr) (c : SplatCmd) (mem : State → Prop) => ∃ s' tm', exec ev s = .next s' ∧ mem s' ∧
      s'.team? id = some tm' ∧ tm'.splats.head? = some c ∧ tm'.splats.length = tm.splats.length
    let same := fun s' : State => s'.mem = s.mem
    (q.begun = false → s.splatting (clusterOf tm.core) = false → s.sorting (clusterOf tm.core) = false →
      q.ibarOn = false →
      upd (.splatStart id) { q with begun := true, serving := true, going := true, clash := s.splatOverlaps tm q } same) ∧
    (q.begun = true → q.serving = false → s.splatting (clusterOf tm.core) = false →
      upd (.splatStart id) { q with serving := true } same) ∧
    (q.begun = true → q.serving = true → q.passes < 4 →
      (q.going = false → s.sorting (clusterOf tm.core) = false → upd (.splatStart id) { q with going := true } same) ∧
      (q.going = true → q.count = 0 → upd (.splatStart id) { q with filled := true, passes := 4, going := false } same) ∧
      (∀ ks key, q.going = true → q.count ≠ 0 → q.clash = false → q.filled = false → s.splatKeys tm q 0 q.count = .ok ks →
        s.coreAt tm q.work = some key → q.work + 8 * q.count ≤ tm.coresh → key + 8 * q.count ≤ 2 ^ 120 →
        upd (.splatStart id) { q with filled := true } fun s' => MemOutside s' s key (8 * q.count) ∧
          s'.bytes key (4 * q.count) = ks.flatMap (natLe 4) ∧
          s'.bytes (key + 4 * q.count) (4 * q.count) = (List.range q.count).flatMap (natLe 4)) ∧
      (∀ s1, q.going = true → q.count ≠ 0 → q.clash = false → q.filled = true →
        s.movePass tm q.job ⟨[], true, false⟩ = .ok s1 →
        upd (.splatStart id) { q with passes := q.passes + 1, going := q.passes != 3 } fun s' => s'.mem = s1.mem)) ∧
    (∀ a, q.passes = 4 → q.pix < 256 → q.serving = true → s.splatPixel tm q = .ok (some a) →
      let next := { q with pix := q.pix + 1, node := none }
      (∀ key, q.lmode = false → s.coreAt tm (q.out + 32 * q.pix) = some key → a.col.length = 4 →
        upd (.splatPixelOutput id) next fun s' => MemOutside s' s key 32 ∧
          s'.bytes key 32 = (a.col ++ [a.t, a.n, a.last, a.fkey]).flatMap (natLe 4)) ∧
      (∀ g, q.lmode = true → q.tgt = some g → a.n = 0 → upd (.splatPixelOutput id) next same) ∧
      (∀ g px py, q.lmode = true → q.tgt = some g → a.n ≠ 0 →
        targetPixel g (16 * q.tx + q.pix % 16 + (16 * q.ty + q.pix / 16) * 2 ^ 16) = some (px, py) →
        (q.core = true ∨ 0 < q.pix ∨ s.checkouts = []) →
        let u : FlUser := ⟨tm, q.o.thr, false⟩
        let take := if q.node.isNone then s.flTake u g px py a.fkey a.payload 1 else none
        s.pixelTaken u g px py q.id = false →
        (∀ n s1, take = some (n, s1) →
          upd (.splatPixelOutput id) { q with node := some (n, px, py) } fun s' => s'.mem = s1.mem) ∧
        (∀ (s1 : State) (deg : Bool), take = none →
          s.flInsert u g px py false a.fkey a.payload 1 (q.node.map fun n => n.1) = (s1, .ok deg) →
          upd (.splatPixelOutput id) next fun s' => s'.mem = s1.mem))) ∧
    (q.pix = 256 → q.serving = true → q.clash = false → q.bar = false → q.post = true →
      ∃ s' tm' r, exec (.splatComplete id) s = .next s' ∧ s'.team? id = some tm' ∧
        (∀ a, (∀ key, s.coreAt tm (q.work + 8 * q.count) = some key → a < key ∨ key + 8 * q.count ≤ a) →
          tabGet 0 s'.mem a = tabGet 0 s.mem a) ∧
        tm'.splats = (tm.splats.filter fun c => c.id != q.id) ∧ tm'.posts = tm.posts ++ [⟨4, r, none⟩] ∧
        r.data = natLe 1 16 ++ natLe 1 0 ++ natLe 2 (tm.whoOf q.o.thr) ++ natLe 4 q.tag ++ natLe 4 q.block ++ natLe 4 q.skip)

/-- R315, R316: what the composite of a pixel holds: its channels at or above NCH are +0; no more records contributed than there
are, the last one of the list; where none did T is 1.0, the channels are zero, and LAST and FKEY are the marks of none; and T is
not below SPLT where one did. -/
def Claim.CompositesAreWellFormed : Prop :=
  ∀ (s : State) (tm : Team) (c : SplatCmd) (xc yc : Nat) (is : List Nat) (a : SplatAcc),
    s.splatGo tm c xc yc is {} = .ok (some a) →
    a.col.length = 4 ∧ (∀ k, c.nch ≤ k → a.col.getD k 0 = 0) ∧ a.n ≤ is.length ∧
    (a.n = 0 → a = { t := 0x3F800000, col := [0, 0, 0, 0], n := 0, last := 0xFFFFFFFF, fkey := 0x7FC00000 }) ∧
    (0 < a.n → a.last ∈ is ∧ a.last < c.count ∧ ltReal32 a.t c.splt = false)

/-- Splats are accepted and run, and their composites are well formed.
Complete here (exec answers next on these conditions alone): splat, flaggedCompletion, splatStart, splatPixelOutput,
splatComplete. -/
def Obligations.SplatCommandsRun : Prop := Claim.SplatsAreAccepted ∧ Claim.SplatsRun ∧ Claim.CompositesAreWellFormed

/-- R324, R331, R333: a ray test whose node or record passes its checks goes in flight with the ray; one whose bytes stand
in the core share, sound, performs and delivers the results of R328 or R329. -/
def Claim.RayTestsComplete : Prop :=
  (∀ (s : State) (x : Issue) (tm : Team) (cr : Crew) (j : Nat) (t : Thread) (c : Common) (o : RayOp) (ks : List (Nat × Nat)),
    let ea := srcVal cr.k t (!o.core) o.a
    let go := fun (i : Instr) (n al : Nat) => IssuesAlone s i x tm cr j t →
      s.started.rayKeys tm j (x.crew == 7) o.core ea n al = .ok ks →
      Gives i s x.team j (t.withOp s x i (ea :: ks.flatMap fun p => [p.1, p.2]) fun u =>
        { u with data := (vrange o.b 8).map (fun r => BitVec.ofNat 32 (t.v32 r)), spans := ks })
    go (.raybox c o) 112 128 ∧ go (.raytri c o) 48 16) ∧
  (∀ (s : State) (p : PerformOp) (tm : Team) (t : Thread) (o : Op) (c : Common) (q : RayOp) (ea key n : Nat),
    Pending s p.team p.thr p.id tm t o → o.vals = [ea, key, n] → t.pend = [o] → 2 ^ 40 ≤ key → isPeer key = false →
    o.stage = 0 → p.pick = 0 → n % 8 = 0 → o.data.length = 8 →
    s.poisoned key n = false →
    (o.i = .raybox c q → ∃ s', exec (.flaggedCompletion p) s = .next s' ∧ s'.mem = s.mem ∧
      OpPerformed s' p.team p.thr p.id o (vPuts q.d.val (rayboxOut (rayOf o.data) (s.bytes key n)))) ∧
    (o.i = .raytri c q → ∃ s', exec (.flaggedCompletion p) s = .next s' ∧ s'.mem = s.mem ∧
      OpPerformed s' p.team p.thr p.id o (vPuts q.d.val (raytriOut (rayOf o.data) (s.bytes key n)))))

/-- R325, R329, R332: a triangle test of an invalid ray reports the invalid ray and no hit: flags 4, t of +infinity, u and v
of 0, and the record's own word. -/
def Claim.InvalidRaysHitNothing : Prop :=
  ∀ (r : Ray) (bs : List Byte), r.invalid = true → raytriOut r bs = [4, 0x7F800000, 0, 0, leNat ((bs.drop 36).take 4)]

/-- The ray tests complete, and an invalid ray hits nothing.
Complete here (exec answers next on these conditions alone): raybox, raytri, flaggedCompletion. -/
def Obligations.RaysComplete : Prop := Claim.RayTestsComplete ∧ Claim.InvalidRaysHitNothing

/-! ### Tasks, chapter 13 -/

/-- R351 to R354, R41, R442: LAUNCH and WGEMIT with room, WGDONE, QUIESCE of a graph that is the team's or the first it
names, and the deque instructions go in flight with their operands. -/
def Claim.TaskInstructionsIssue : Prop :=
  ∀ (s : State) (x : Issue) (tm : Team) (cr : Crew) (j : Nat) (t : Thread) (c : Common), x.stalled = [] →
    (∀ (a : Src) (ks : List Nat), IssuesAlone s (.launch c a) x tm cr j t → let ea := srcVal cr.k t true a
      s.started.badOpnd tm j [⟨.mem, ea, 256, 64⟩] = none → s.lots.length + s.launching < 4096 →
      (s.ctx? tm.asid).isSome → s.started.pieceKeys tm j (x.crew == 7) (lineSpans ea 256) = .ok ks →
      Gives (.launch c a) s x.team j (t.withOp s x (.launch c a) (ea :: ks) fun u => { u with spans := pairsOf ks })) ∧
    (∀ (o : WgemitOp) (cx : Context) (bs : List Byte) (d : NodeDesc) (r : LaunchRec) (key n : Nat),
      IssuesAlone s (.wgemit c o) x tm cr j t → s.ctx? tm.asid = some cx →
      let i := srcVal cr.k t false o.a
      let b := srcVal cr.k t false o.b
      let s1 := s.started.unitRecall cx (descAddr cx i) 64
      let ready := t.stall = 0 ∨ t.stall ≤ s1.counter (cx.r.sqb + cx.r.psc)
      s.started.badOpnd tm j [⟨emitSpace o, b, 16, 16⟩] = none → i < 64 → s1.unitRead cx (descAddr cx i) 64 = .ok bs →
      nodeValid bs = true → nodeOf cx bs = some d →
      (d.persist = true ∨ ready ∧ (s1.unitRecall cx d.tmpl 256).tmplOf cx d = .fit r) →
      s1.scratchKey tm j (emitSpace o) b = .ok key → s1.scratchKey tm j (emitSpace o) (b + d.rsize - 1) = .ok n →
      s.emitting tm.asid i < (cx.node i).room d →
      ∃ s' u, exec (.wgemit c o) s = .next s' ∧ s'.mem = s.mem ∧ s'.thr? x.team j = some u ∧
        { u with mon := t.mon } = { t.withOp s x (.wgemit c o) [b, i] (fun u =>
          { u with key := key, len := d.rsize, data := (wordsBy 4 16 bs).map (BitVec.ofNat 32) }) with stall := 0 }) ∧
    (∀ o : HandleOp, IssuesAlone s (.wgdone c o) x tm cr j t →
      Gives (.wgdone c o) s x.team j (t.withOp s x (.wgdone c o) [srcVal cr.k t true o.a])) ∧
    (∀ o : QuiesceArm, IssuesAlone s (.quiesceArm c o) x tm cr j t → let g := srcVal cr.k t false o.a
      let n := srcVal cr.k t false o.b
      g < 16 → (tm.graph = none ∨ tm.graph = some g) → (s.ctrIn tm.asid n).isSome →
      Gives (.quiesceArm c o) s x.team j (t.withOp s x (.quiesceArm c o) [g, n, srcVal cr.k t true o.c])) ∧
    (∀ o : QuiesceRd, IssuesAlone s (.quiesceRd c o) x tm cr j t → let g := srcVal cr.k t false o.a
      g < 16 → Gives (.quiesceRd c o) s x.team j (t.withOp s x (.quiesceRd c o) [g])) ∧
    (∀ o : HandleOp, IssuesAlone s (.dqpush c o) x tm cr j t →
      Gives (.dqpush c o) s x.team j (t.withOp s x (.dqpush c o) [srcVal cr.k t true o.a])) ∧
    (∀ o : DqpopOp, IssuesAlone s (.dqpop c o) x tm cr j t →
      Gives (.dqpop c o) s x.team j (t.withOp s x (.dqpop c o) [])) ∧
    (∀ o : DqstealOp, IssuesAlone s (.dqsteal c o) x tm cr j t →
      Gives (.dqsteal c o) s x.team j (t.withOp s x (.dqsteal c o) [optVal cr.k t false o.victim]))

/-- R345, R349, R350, R352 to R354: LAUNCH enters its lot; WGEMIT writes its record in the node's current buffer and seals
it at the last; WGDONE releases the batch its handle names; QUIESCE arms or reads a detector; DQPUSH, DQPOP and DQSTEAL act
on the bottom, the bottom and the top of a deque. Each completes. -/
def Claim.TaskInstructionsPerform : Prop :=
  ∀ (s : State) (p : PerformOp) (tm : Team) (t : Thread) (o : Op) (c : Common) (cx : Context),
    Pending s p.team p.thr p.id tm t o → t.pend = [o] → t.waits = [] → s.ctx? tm.asid = some cx →
    Memory.wf s.mem = true → o.dst = writesOf o.i →
    let ev := exec (.flaggedCompletion p) s
    let done := fun (s' : State) (ws : List (Nat × Word)) (ps : List Bool) => OpDone s' p.team p.thr t o ws ps
    let ctx' := fun (s' : State) (f : Context → Prop) => ∃ c', s'.ctx? tm.asid = some c' ∧ f c'
    (∀ (a : Src) (s1 : State) (bs : List Byte) (r : LaunchRec), o.i = .launch c a →
      s.rayRead tm t o p o.ea 0 (o.vals.drop 1) = .ok s1 bs → launchOf cx bs = some r → s.neverFits cx r = false →
      r.lpri ≤ tm.lpri →
      ∃ s' l, ev = .next s' ∧ s'.mem = s.mem ∧ done s' [] t.p ∧ s'.lots = s.lots ++ [l] ∧ l.r = r ∧ l.asid = cx.r.asid ∧
        l.addr = o.ea ∧ l.placed = [] ∧ l.live = 0 ∧ l.batch = none ∧ l.ready.isSome = s.lotMet cx.r.sqb r) ∧
    (∀ (q : WgemitOp) (i b : Nat) (d : NodeDesc) (k : NodeSt) (g : Detector), o.i = .wgemit c q →
      o.vals = [o.ea, i] → o.nodeDesc cx = some d → o.len = d.rsize → s.poisoned o.key o.len = false →
      cx.nodes[i]? = some k → k.cur = some b → cx.graphs[d.graph]? = some g →
      let rec0 := chipKey (cx.r.chipbase + d.bufAddr b + k.n * d.rsize)
      let emits := fun k' : NodeSt => ∃ s', ev = .next s' ∧ done s' [] t.p ∧ MemOutside s' s rec0 d.rsize ∧
        s'.bytes rec0 d.rsize = s.bytes o.key d.rsize ∧ ctx' s' fun c' => c'.nodes[i]? = some k' ∧
          c'.graphs[d.graph]? = some { g with inflight := (g.inflight + 1) % 2 ^ 32 }
      s.poisoned rec0 d.rsize = false →
      (k.n + 1 ≠ d.coal → emits { k with desc := some d, n := k.n + 1 }) ∧
      (k.n + 1 = d.coal → d.persist = true → emits { k with
        desc := some d, cur := none, n := 0, timer := 0, last := some b, serial := (k.serial + 1) % 2 ^ 14
        sealed := k.sealed ++ [{ buf := b, cnt := d.coal, serial := k.serial, todo := true }] })) ∧
    (∀ q : HandleOp, o.i = .wgdone c q →
      (cx.batchOf o.ea = none → ∃ s', ev = .next s' ∧ s'.mem = s.mem ∧ s'.ctxs = s.ctxs ∧ done s' [] (t.predsWith q.d false)) ∧
      (∀ (b : BinBatch) (k : NodeSt) (d : NodeDesc) (g : Detector), cx.batchOf o.ea = some b →
        cx.nodes[bits o.ea 49 44]? = some k → k.desc = some d → cx.graphs[d.graph]? = some g → g.armed = false →
        ∃ s', ev = .next s' ∧ s'.mem = s.mem ∧ done s' [] (t.predsWith q.d true) ∧ ctx' s' fun c' =>
          c'.nodes[bits o.ea 49 44]? = some { k with sealed := k.sealed.filter fun z => z.serial != b.serial } ∧
          c'.graphs[d.graph]? = some { g with inflight := (g.inflight + 2 ^ 32 - (bits o.ea 43 32 + 1)) % 2 ^ 32 })) ∧
    (∀ (q : QuiesceArm) (g n a : Nat) (d : Detector), o.i = .quiesceArm c q → o.vals = [g, n, a] →
      cx.graphs[g]? = some d → o.ea = g → (tm.graph = none ∨ tm.graph = some g) →
      ∃ s' tm', ev = .next s' ∧ s'.mem = s.mem ∧ done s' [] t.p ∧ s'.team? p.team = some tm' ∧
        tm'.graph = some g ∧ ctx' s' fun c' =>
          c'.graphs[g]? = some { d with ctr := n, amount := a, armed := true, fired := false }) ∧
    (∀ (q : QuiesceRd) (d : Detector), o.i = .quiesceRd c q → cx.graphs[o.ea]? = some d →
      ∃ s', ev = .next s' ∧ s'.mem = s.mem ∧ s'.ctxs = s.ctxs ∧
        done s' (vPut true q.d.val (detectorWord d (s.liveTeams tm.asid o.ea))) t.p) ∧
    (∀ (q : HandleOp) (key : Nat), o.i = .dqpush c q → dequeKey cx tm.core = some key →
      let bot := s.read (key + 4) 4
      s.dequeBad key bot (decide (s.dequeCount key < 256)) = false →
      (s.dequeCount key < 256 → ∃ s', ev = .next s' ∧ done s' [] (t.predsWith q.d true) ∧ MemOutside s' s key 2080 ∧
        s'.read key 4 = s.read key 4 ∧ s'.read (key + 4) 4 = (bot + 1) % 2 ^ 32 ∧
        s'.bytes (slotKey key bot) 8 = natLe 8 o.ea) ∧
      (256 ≤ s.dequeCount key → ∃ s', ev = .next s' ∧ s'.mem = s.mem ∧ done s' [] (t.predsWith q.d false))) ∧
    (∀ (q : DqpopOp) (key : Nat), o.i = .dqpop c q → dequeKey cx tm.core = some key →
      let idx := s.read (key + 4) 4 + 2 ^ 32 - 1
      s.dequeBad key idx (s.dequeCount key != 0) = false →
      (s.dequeCount key ≠ 0 → ∃ s', ev = .next s' ∧ MemOutside s' s (key + 4) 4 ∧ s'.read (key + 4) 4 = idx % 2 ^ 32 ∧
        done s' (vPut true q.d.val (s.read (slotKey key idx) 8)) (t.predsWith q.p true)) ∧
      (s.dequeCount key = 0 → ∃ s', ev = .next s' ∧ s'.mem = s.mem ∧ done s' [] (t.predsWith q.p false))) ∧
    (∀ (q : DqstealOp) (key : Nat), o.i = .dqsteal c q → q.victim.isSome → o.ea ≤ 95 → dequeKey cx o.ea = some key →
      let top := s.read key 4
      s.dequeBad key top (s.dequeCount key != 0) = false →
      (s.dequeCount key ≠ 0 → ∃ s', ev = .next s' ∧ MemOutside s' s key 4 ∧ s'.read key 4 = (top + 1) % 2 ^ 32 ∧
        done s' (vPut true q.d.val (s.read (slotKey key top) 8)) (t.predsWith q.p true)) ∧
      (s.dequeCount key = 0 → ∃ s', ev = .next s' ∧ s'.mem = s.mem ∧ done s' [] (t.predsWith q.p false)))

/-- The task instructions issue and perform. The model's choices in them: what counts as a lot and when it is checked (log 72), the
order of the checks of WGEMIT (log 74), which descriptor a record uses (log 75), a deque outside the allocation or whose words say
more than 256 entries (log 77), and a place that a record on its way will take (log 109).
Complete here (exec answers next on these conditions alone): launch, wgemit, wgdone, dqpush, dqpop, dqsteal,
quiesceArm, quiesceRd, flaggedCompletion. -/
def Obligations.TasksComplete : Prop := Claim.TaskInstructionsIssue ∧ Claim.TaskInstructionsPerform

/-- R18, R337, R339, R340: SPAN_PLACE puts the span that a fit placement names in residence: its teams on their cores, every
ordinary thread ready at the kernel entry with registers, predicates and completion flags zero, every system-crew thread
idle, and the lot with one span more live. A placement that is not fit changes nothing.
Complete here (exec answers next on these conditions alone): spanPlace. -/
def Obligations.SpanPlacementStartsTeams : Prop :=
  ∀ (s : State) (o : PlaceOp) (l : Lot) (c : Context) (ks : List (List DWord)),
    (s.lots.find? fun l => l.id == o.id) = some l → s.ctx? l.asid = some c →
    let cores := o.cores.map fun k => k.val
    let fit := s.coresOk (l.r.load c) l.r.bands l.r.teams cores
    (fit = false → exec (.spanPlace o) s = .next s) ∧
    (fit = true → c.active = true → s.lotFirst l = true → o.ix < l.r.spans → o.ix ∉ l.placed → l.wait = 0 →
      s.lotKs c l = .ok ks →
      ∃ s' new, exec (.spanPlace o) s = .next s' ∧ s'.mem = s.mem ∧ s'.ctxs = s.ctxs ∧ s'.teams = s.teams ++ new ∧
        new.map (fun u => u.core) = cores ∧ (∀ v ∈ s'.lots, v.id = l.id → o.ix ∈ v.placed) ∧
        (∃ v ∈ s'.lots, v.id = l.id ∧ v.live = l.live + 1) ∧
        ∀ u ∈ new, u.asid = l.asid ∧ u.lot = l.id ∧ u.spanIx = o.ix ∧ u.trapq = [] ∧ ∀ t ∈ u.threads,
          (∀ w ∈ t.v, w = 0) ∧ (∀ b ∈ t.p, b = false) ∧ (∀ n ∈ t.f, n = 0) ∧ t.wb = [] ∧ t.pend = [] ∧
          (t.status = .ready ∧ t.pc = l.r.entry ∧ t.sys.region = l.r.entry ∨ t.crew = 7 ∧ t.status = .idle))

/-- R341, R342: TEAM_END of a team with everything done removes it with its scratchpad; the last team of a lot's last span
ends the lot, which adds its amount to its completion counter. A team not done stays.
Complete here (exec answers next on these conditions alone): teamEnd. -/
def Obligations.TeamsAndLotsEnd : Prop :=
  ∀ (s : State) (tm : Team) (c : Context) (p : Span) (l : Lot),
    s.team? tm.id = some tm → s.ctx? tm.asid = some c → Memory.wf s.mem = true →
    (tm.done = false → exec (.teamEnd tm.id) s = .next s) ∧
    (tm.done = true → c.active = true → s.savingTeam tm = false → (∀ x ∈ s.issues, x.team ≠ tm.id) →
      (∀ d ∈ s.dogs, d.team ≠ tm.id ∧ teamKey tm.id d.key = false) → tm.bin = none → tm.graph = none →
      (s.spans.find? fun p => p.id == tm.span) = some p → (s.lots.find? fun l => l.id == tm.lot) = some l →
      let left := p.teams.filter fun i => i != tm.id
      (left ≠ [] → ∃ s', exec (.teamEnd tm.id) s = .next s' ∧ s'.team? tm.id = none ∧
        (∀ b i, b ≠ tm.id → (s'.thr? b i).map (fun u => { u with mon := none }) =
          (s.thr? b i).map fun u => { u with mon := none }) ∧ s'.lots = s.lots ∧
        ∀ a, tabGet 0 s'.mem a = if teamKey tm.id a then 0 else tabGet 0 s.mem a) ∧
      (left = [] → l.live = 1 → l.r.spans ≤ l.placed.length → ∀ n a, l.r.done = some (n, a) → l.asid = tm.asid →
        ∃ s', exec (.teamEnd tm.id) s = .next s' ∧ s'.team? tm.id = none ∧ (∀ v ∈ s'.lots, v.id ≠ l.id) ∧
          (s.ctxs = [c] → c.psq = [] → c.r.sqb + n < 4096 →
            s'.counter (c.r.sqb + n) = min (s.counter (c.r.sqb + n) + a) (2 ^ 64 - 1))))

/-- R338, R343, R345, R347: LAUNCH_QUEUE_TAKE reads the descriptor where the read is due, and then enters the lot of a
submitted record by that descriptor and counts the entry taken;
LAUNCHER_PREEMPT marks a span only where a ready lot of higher priority finds no cores; BIN_TIMER_EXPIRY seals the current
buffer of an expired node, where the free buffers take the records on their way (log 109); PERSIST_DELIVERY pushes the first waiting batch of a persistent node onto a deque with room.
Complete here (exec answers next on these conditions alone): launcherPreempt, launchQueueTake, binTimerExpiry,
persistDelivery. -/
def Obligations.LauncherEventsAct : Prop :=
  (∀ (s : State) (o : LqRef) (c : Context) (lq : LaunchQ) (bs e rb : List Byte) (d : QueueDesc) (pa : Nat) (r : LaunchRec),
    s.ctx? o.asid.val = some c → c.active = true → o.q.val < c.r.lqn → c.lqs[o.q.val]? = some lq → lq.ticket = 0 →
    s.devSlot c (c.r.lqb + 32 * o.q.val + 16) 8 = some pa →
    (lq.due = true → s.unitRead c (c.r.lqb + 32 * o.q.val) 32 = .ok bs → queueDesc c bs = some d →
      ∃ s' c', exec (.launchQueueTake o) s = .next s' ∧ s'.mem = s.mem ∧ s'.teams = s.teams ∧ s'.lots = s.lots ∧
        s'.ctx? o.asid.val = some c' ∧ c' = { c with
          lqs := c.lqs.set o.q.val { due := false, desc := some d, logged := false } }) ∧
    (lq.due = false → lq.desc = some d → s.lotsFull = false → d.taken < s.counter (c.r.sqb + d.ctr) →
      s.unitRead c (d.ring + 8 * (d.taken % d.depth)) 8 = .ok e → leNat e % 64 = 0 →
      s.unitRead c (leNat e) 256 = .ok rb → launchOf c rb = some r → s.neverFits c r = false → Memory.wf s.mem = true →
      ∃ s' l c', exec (.launchQueueTake o) s = .next s' ∧ s'.lots = s.lots ++ [l] ∧ l.r = r ∧ l.addr = leNat e ∧
        l.asid = c.r.asid ∧ l.placed = [] ∧ l.live = 0 ∧ MemOutside s' s pa 8 ∧ s'.bytes pa 8 = natLe 8 (d.taken + 1) ∧
        s'.ctx? o.asid.val = some c' ∧ c' = { c with
          lqs := c.lqs.set o.q.val { lq with desc := some { d with taken := d.taken + 1 } } })) ∧
  (∀ (s : State) (p : Span) (low : Lot), (s.spans.find? fun q => q.id == p.id) = some p →
    (s.lots.find? fun l => l.id == p.lot) = some low →
    let need := ∃ l ∈ s.lots, s.lotWaits l = true ∧ low.r.lpri < l.r.lpri ∧ ∃ c, s.ctx? l.asid = some c ∧ c.active = true ∧
      canHost (s.fitsOn (l.r.load c)) l.r.bands l.r.teams = false
    (¬ need → exec (.launcherPreempt p.id) s = .next s) ∧
    (need → exec (.launcherPreempt p.id) s =
      .next { s with spans := s.spans.map fun q => if q.id = p.id then { q with want := true } else q })) ∧
  (∀ (s : State) (o : NodeRef) (c : Context) (k : NodeSt) (d : NodeDesc) (b : Nat), s.ctx? o.asid.val = some c →
    c.nodes[o.node.val]? = some k → k.desc = some d → d.persist = true → k.cur = some b → 0 < k.n →
    let fits := s.emitting o.asid.val o.node.val + (d.coal - k.n) ≤ k.room d
    (k.timer ≠ 1 ∨ ¬ fits → exec (.binTimerExpiry o) s = .next s) ∧
    (k.timer = 1 → fits → ∃ s' c', exec (.binTimerExpiry o) s = .next s' ∧ s'.mem = s.mem ∧ s'.teams = s.teams ∧
      s'.ctx? o.asid.val = some c' ∧ c'.nodes = c.nodes.set o.node.val { k with
        cur := none, n := 0, timer := 0, last := some b, serial := (k.serial + 1) % 2 ^ 14
        sealed := k.sealed ++ [{ buf := b, cnt := k.n, serial := k.serial, todo := true }] })) ∧
  (∀ (s : State) (o : NodeRef) (c : Context) (k : NodeSt) (d : NodeDesc) (q : BinBatch) (key : Nat),
    s.ctx? o.asid.val = some c → c.nodes[o.node.val]? = some k → k.desc = some d → d.persist = true →
    (k.sealed.find? fun q => q.todo) = some q → dequeKey c o.core.val = some key → s.poisoned key 8 = false →
    s.dequeCount key < 256 → Memory.wf s.mem = true →
    let bot := s.read (key + 4) 4
    ∃ s' c', exec (.persistDelivery o) s = .next s' ∧ MemOutside s' s key 2080 ∧
      s'.bytes (slotKey key bot) 8 = natLe 8 (handleOf d o.node.val q) ∧ s'.read (key + 4) 4 = (bot + 1) % 2 ^ 32 ∧
      s'.ctx? o.asid.val = some c' ∧ c'.nodes = c.nodes.set o.node.val
        { k with sealed := k.sealed.map fun z => if z.serial = q.serial then { z with todo := false } else z })

/-! ### System, traps and contexts, chapter 14 -/

/-- R379 to R381: SRD delivers the system register of the issuing thread, or under `.t` of the served thread, and 0 where
there is none; SWR writes it 2 cc after issue; CONT and CONT.off set and clear the continuation of the crew; RESUME of a
thread in its continuation, drained and at its counter's value, goes on at RPT and leaves the continuation.
Complete here (exec answers next on these conditions alone): srd, swr, cont, contOff, resumeSvc, resume. -/
def Obligations.SystemInstructionsComplete : Prop :=
  ∀ (s : State) (x : Issue) (tm : Team) (cr : Crew) (j : Nat) (t : Thread) (c : Common),
    (∀ o : SrdOp, IssuesAlone s (.srd c o) x tm cr j t →
      let val := fun u : Thread => s.sysRead tm u (x.t0 + x.now) o.num.val
      let gives := fun v : Nat => Gives (.srd c o) s x.team j (t.pushRes x c 2 { v := vPut o.wide o.d.val v })
      (o.tgt = false → gives (val t)) ∧ (o.tgt = true → t.served = none → gives 0) ∧
      (∀ k u, o.tgt = true → t.served = some k → tm.threads[k]? = some u → gives (val u))) ∧
    (∀ o : SwrOp, IssuesAlone s (.swr c o) x tm cr j t →
      let gives := fun w : Option SysW => Gives (.swr c o) s x.team j (t.pushRes x c 2 { x := w })
      (o.tgt = false → gives (some ⟨none, o.num.val, srcVal cr.k t o.wide o.a⟩)) ∧
      (o.tgt = true → gives (t.served.map fun k => ⟨some k, o.num.val, srcVal cr.k t o.wide o.a⟩))) ∧
    (let conts := fun (i : Instr) (a : Option DWord) => IssuesAlone s i x tm cr j t →
      ∀ c0, tm.crew? cr.num = some c0 →
      ∃ s' tm' cr', exec i s = .next s' ∧ s'.mem = s.mem ∧ s'.thr? x.team j = some (t.pushRes x (commonOf i) 2 {}) ∧
        (∀ b k, b ≠ x.team ∨ k ≠ j → s'.thr? b k = s.thr? b k) ∧ s'.team? x.team = some tm' ∧ tm'.crew? cr.num = some cr' ∧
        cr' = { c0 with conta := a };
      (∀ tgt, conts (.cont c tgt) (some (x.ca + BitVec.signExtend 64 tgt * 8))) ∧ conts (.contOff c) none) ∧
    (∀ cx : Context, s.ctx? tm.asid = some cx → t.contact = true → t.pend = [] → t.waits = [] → t.late = [] → t.wb = [] →
      let resumes := fun (i : Instr) (n th : Nat) => ∀ k, IssuesAlone s i x tm cr j t → ctrOf cx n = some k →
        s.poisoned (chipKey (8 * k)) 8 = false →
        (th ≤ s.counter k → Gives i s x.team j { t with contact := false, pc := t.rpt, must := none }) ∧
        (s.counter k < th → Gives i s x.team j
          (t.withWait s x i [n, k, th] fun u => { u with stage := 1, waited := true }))
      resumes (.resumeSvc c) cx.r.psc t.ticket ∧
      (∀ o : ResumeOp, resumes (.resume c o) (srcVal cr.k t false o.a) (t.v64 o.b.val)))

/-- R359, R360, R365, R378: TRAP of a drained thread takes the software trap, kind 21 with its code as cause and its
immediate as FADDR: the record is written, the thread is trapped, and its team's trap queue gets the entry. -/
def Claim.TrapTakesTheSoftwareTrap : Prop :=
  ∀ (s : State) (x : Issue) (tm : Team) (cr : Crew) (j : Nat) (t : Thread) (c : Common) (q : TrapOp),
    IssuesAlone s (.trap c q) x tm cr j t → t.crew ≠ 7 → t.pend = [] → t.waits = [] → t.late = [] → t.wb = [] →
    s.psrWritten tm.asid 0 = true →
    let r : FRec := ⟨21, q.code.toNat, BitVec.ofNat 64 q.imm.toNat, x.word, t.sys.region, t.sys.lastord⟩
    ∃ s' tm' u, exec (.trap c q) s = .next s' ∧ s'.mem = s.mem ∧ s'.team? x.team = some tm' ∧
      tm'.trapq = tm.trapq ++ [⟨some j, r, x.iaddr⟩] ∧ s'.thr? x.team j = some u ∧ u.status = .trapped ∧ u.v = t.v ∧
      u.p = t.p ∧ u.f = t.f ∧ u.pc = t.pc ∧ u.sys = t.sys.putRec r false ∧
      u.sys.fcode.toNat = 21 + 256 * q.code.toNat ∧ ∀ b k, b ≠ x.team ∨ k ≠ j → s'.thr? b k = s.thr? b k

/-- R365: an idle thread of the system crew takes the oldest entry of its team's trap queue: it begins at HENTRY, with its
predicates, flags and FXF zero and REC at HENTRY, the record of the faulting thread, its number in V0 and the instruction's address
in V2; of a watchdog entry it takes the entry's own record and NOTHREAD. That none is dispatched during a save is the model's choice
(log 85). -/
def Claim.TrapDispatchStartsTheHandler : Prop :=
  ∀ (s : State) (o : ThRef) (tm : Team) (h : Thread) (e : TrapEnt) (rest : List TrapEnt) (c : Context),
    s.team? o.team = some tm → tm.threads[o.thr]? = some h → tm.trapq = e :: rest → s.ctx? tm.asid = some c →
    4 ≤ h.v.length →
    (¬ (h.crew = 7 ∧ h.status = .idle ∧ c.active = true ∧ s.savingTeam tm = false) →
      exec (.trapDispatch o) s = .next s) ∧
    (h.crew = 7 → h.status = .idle → c.active = true → s.savingTeam tm = false →
      ∃ s' tm' u, exec (.trapDispatch o) s = .next s' ∧ s'.mem = s.mem ∧ s'.team? o.team = some tm' ∧ tm'.trapq = rest ∧
        s'.thr? o.team o.thr = some u ∧ u.status = .ready ∧ u.pc = c.r.hentry ∧ u.served = e.thr ∧
        u.serveInfo = some (e.r, e.iaddr) ∧ u.p = List.replicate 7 false ∧ u.f = List.replicate 12 0 ∧ u.sys.fxf = 0 ∧
        u.sys.region = c.r.hentry ∧ u.v64 2 = e.iaddr.toNat ∧
        (∀ k t, e.thr = some k → tm.threads[k]? = some t →
          (u.sys.fcode, u.sys.faddr, u.sys.fword, u.sys.frec, u.sys.ford) =
            (t.sys.fcode, t.sys.faddr, t.sys.fword, t.sys.frec, t.sys.ford) ∧
          u.v32 0 = t.tid % 4096 + t.crew % 8 * 2 ^ 12 + t.lane % 64 * 2 ^ 16) ∧
        (e.thr = none → u.v32 0 = 2 ^ 31 ∧
          (u.sys.fcode, u.sys.faddr, u.sys.fword, u.sys.frec, u.sys.ford) =
            (e.r.code false, e.r.addr, e.r.word, e.r.frec, e.r.ord)) ∧
        ∀ b i, b ≠ o.team ∨ i ≠ o.thr → s'.thr? b i = s.thr? b i)

/-- R368, R382: the TRET forms of a drained handler that serves a thread make the handler idle, and the thread goes on at its
FREC, at the clause it would have begun next, or ends as by EXIT, after a fetch fault under TRET.next too; a handler that serves
none only becomes idle; TRET.term ends the context with its code as reason. The clause after an illegal one (log 84) and the waits
kept (log 31) are the model's choices. -/
def Claim.TrapReturnsComplete : Prop :=
  ∀ (s : State) (x : Issue) (tm : Team) (cr : Crew) (j k : Nat) (h t : Thread) (cq : Crew) (c : Common) (r : FRec)
    (ia : DWord), h.pend = [] → h.waits = [] → h.late = [] → h.wb = [] →
    (let serves := fun (i : Instr) (p : Thread → Prop) => IssuesAlone s i x tm cr j h → h.served = some k →
        h.serveInfo = some (r, ia) → k ≠ j → tm.threads[k]? = some t → tm.crew? t.crew = some cq →
        ∃ s' u, exec i s = .next s' ∧ s'.mem = s.mem ∧ s'.thr? x.team j =
            some { h with status := .idle, served := none, serveInfo := none, must := none, waits := [] } ∧
          s'.thr? x.team k = some u ∧ p u ∧ ∀ b i, b ≠ x.team ∨ (i ≠ j ∧ i ≠ k) → s'.thr? b i = s.thr? b i;
      (t.sys.frec.toNat % 8 = 0 → serves (.tretRec c) fun u => u = t.resumeAt t.sys.frec) ∧
      (r.kind ≠ 1 → r.kind ≠ 4 → serves (.tretNext c) fun u => u = { t with status := .ready }) ∧
      (r.kind = 1 → serves (.tretNext c) fun u =>
        u = { t with status := .ready, pc := r.addr + BitVec.ofNat 64 (8 * (r.word.toNat % 16 + 2)), must := none })) ∧
    (let kills := fun i : Instr => IssuesAlone s i x tm cr j h → h.served = some k → h.serveInfo = some (r, ia) → k ≠ j →
        tm.threads[k]? = some t → tm.crew? t.crew = some cq → t.pend = [] → t.copiesDone = true → t.wb = [] →
        ∃ s' u v, exec i s = .next s' ∧ s'.mem = s.mem ∧ s'.thr? x.team j = some v ∧ v.status = .idle ∧
          v.served = none ∧ s'.thr? x.team k = some u ∧
          (cq.role ≠ .fragment → u.status = .ended) ∧ (cq.role = .fragment → u.status = .idle);
      kills (.tretKill c) ∧ (r.kind = 4 → kills (.tretNext c))) ∧
    (∀ i ∈ [Instr.tretRec c, .tretNext c, .tretKill c], IssuesAlone s i x tm cr j h → h.served = none →
      Gives i s x.team j { h with status := .idle, served := none, serveInfo := none, must := none, waits := [] }) ∧
    (∀ (v : BitVec 32) (cx : Context), IssuesAlone s (.tretTerm c v) x tm cr j h → s.ctx? tm.asid = some cx →
      cx.status.toNat % 4 = 0 →
      ∃ s' cx', exec (.tretTerm c v) s = .next s' ∧ s'.ctx? tm.asid = some cx' ∧ cx'.status.toNat % 4 = 1 ∧
        bits cx'.status.toNat 23 16 = 1 ∧ bits cx'.status.toNat 63 32 = v.toNat ∧
        ∀ u ∈ s'.teams, u.asid = tm.asid → u.trapq = [] ∧ (∀ z ∈ u.threads, z.status = .stopped ∨ z.status = .ended) ∧
          ∀ y ∈ s'.issues, y.team ≠ u.id)

/-- TRAP, the dispatch of the system crew and the returns from it.
Complete here (exec answers next on these conditions alone): trap, trapDispatch, tretRec, tretNext, tretKill,
tretTerm. -/
def Obligations.TrapsAreHandled : Prop := Claim.TrapTakesTheSoftwareTrap ∧ Claim.TrapDispatchStartsTheHandler ∧ Claim.TrapReturnsComplete

/-- R357, R368: CONTEXT_TERMINATE of a live context stops every thread of it and drops its lots and clauses in issue, with the
reason in STATUS; TERMINATION_COMPLETE of a terminating context removes its teams, sets STATE to 2 and adds 1 to its
termination counter. -/
def Claim.ContextsTerminate : Prop :=
  (∀ (s : State) (a : Fin 512) (c : Context), s.ctx? a.val = some c → c.status.toNat % 4 = 0 →
    (c.term = none → exec (.contextTerminate a) s = .next s) ∧
    (∀ src kind code, c.term = some (src, kind, code) → src < 256 → kind < 256 → code < 2 ^ 32 →
      ∃ s' c', exec (.contextTerminate a) s = .next s' ∧ s'.ctx? a.val = some c' ∧ c'.term = none ∧
        c'.status.toNat = 1 + bits c.status.toNat 2 2 * 4 + src * 2 ^ 16 + kind * 2 ^ 24 + code * 2 ^ 32 ∧
        (∀ l ∈ s'.lots, l.asid ≠ a.val) ∧
        ∀ u ∈ s'.teams, u.asid = a.val → u.trapq = [] ∧ (∀ z ∈ u.threads, z.status = .stopped ∨ z.status = .ended) ∧
          ∀ y ∈ s'.issues, y.team ≠ u.id)) ∧
  (∀ (s : State) (a : Fin 512) (c : Context), s.ctx? a.val = some c →
    (c.status.toNat % 4 ≠ 1 → exec (.terminationComplete a) s = .next s) ∧
    (c.status.toNat % 4 = 1 → ∃ s' c', exec (.terminationComplete a) s = .next s' ∧ (∀ u ∈ s'.teams, u.asid ≠ a.val) ∧
      s'.ctx? a.val = some c' ∧ c'.status.toNat % 4 = 2 ∧ c'.psq = [] ∧
      (s.dogs = [] → (∀ d ∈ s.ctxs, d.psq = []) → Memory.wf s.mem = true → c.r.sqb + c.r.tctr < 4096 →
        c.recAddr + 256 ≤ memBytes →
        s'.counter (c.r.sqb + c.r.tctr) = min (s.counter (c.r.sqb + c.r.tctr) + 1) (2 ^ 64 - 1))))

/-- R369, R372 to R374: SPAN_SAVE begins the save of a wanted span that has slots whose size its images fit, and drops the
want of another; SAVE_COMPLETE takes a span whose threads and engines have stopped off its cores, its teams as they stand;
SPAN_RESTORE places a saved span with its registers, predicates and flags as they were saved, and a bad image ends the
context with reason 4. -/
def Claim.SpansAreSavedAndRestored : Prop :=
  (∀ (s : State) (p : Span) (c : Context), (s.spans.find? fun q => q.id == p.id && q.want && q.saving.isNone) = some p →
    s.ctx? p.asid = some c → c.active = true →
    ((∃ q ∈ s.spans, q.saving.isSome) → exec (.spanSave p.id) s = .next s) ∧
    ((∀ q ∈ s.spans, q.saving = none) → s.slotsFor c p.teams.length = none → exec (.spanSave p.id) s =
      .next { s with spans := s.spans.map fun q => if q.id = p.id then { q with want := false } else q }) ∧
    (∀ slots, (∀ q ∈ s.spans, q.saving = none) → s.slotsFor c p.teams.length = some slots → (∀ i ∈ p.teams, 64 + s.bodySize i ≤ c.r.sas) →
      ∃ s' c', exec (.spanSave p.id) s = .next s' ∧ s'.teams.length = s.teams.length ∧ s'.ctx? p.asid = some c' ∧
        c'.status.getLsbD 3 = true ∧ ∀ q ∈ s'.spans, q.id = p.id →
          q.want = false ∧ q.saving = some (slots.zip (p.teams.map s.bodySize)))) ∧
  (∀ (s : State) (p : Span) (c : Context) (slots : List (Nat × Nat)), (s.spans.find? fun q => q.id == p.id) = some p →
    s.ctx? p.asid = some c → c.active = true → p.saving = some slots →
    let ts := s.teams.filter fun t => t.span == p.id
    let still := ∀ tm ∈ ts, s.teamStill c tm = true
    (¬ still → exec (.saveComplete p.id) s = .next s) ∧
    (still → ∃ s' sv, exec (.saveComplete p.id) s = .next s' ∧ (∀ q ∈ s'.spans, q.id ≠ p.id) ∧
      (∀ u ∈ s'.teams, u.span ≠ p.id) ∧ s'.saved = s.saved ++ [sv] ∧ sv.span = { p with saving := none } ∧
      sv.teams = ts.map Team.image ∧ sv.slots = slots ∧
      (∀ h ∈ sv.holds, h ∈ s.holds) ∧ (∀ y ∈ sv.issues, y ∈ s.issues))) ∧
  (∀ (s : State) (o : PlaceOp) (p : SavedSpan) (c : Context) (l : Lot), (s.saved.find? fun q => q.span.id == o.id) = some p →
    s.ctx? p.span.asid = some c → (s.lots.find? fun l => l.id == p.span.lot) = some l → c.active = true →
    s.lotFirst l = true → p.teams ≠ [] →
    let cores := o.cores.map fun k => k.val
    let read := s.recallImages c p.slots
    s.coresFit (p.teams.map Team.load) (p.teams.map fun t => t.bandIx) cores = true →
    ((∀ q ∈ p.slots, read.imageBad c q = false) → (∀ u ∈ p.teams, s.team? u.id = none) → (p.teams.map fun u => u.id).Nodup →
      ∃ s', exec (.spanRestore o) s = .next s' ∧ s'.mem = s.mem ∧ p.span ∈ s'.spans ∧ (∀ q ∈ s'.saved, q.span.id ≠ o.id) ∧
        ∀ u k, (u, k) ∈ p.teams.zip cores → ∃ w, s'.team? u.id = some w ∧ w.core = k ∧ w.asid = u.asid ∧
          w.threads.map (fun t => (t.v, t.p, t.f)) = u.threads.map fun t => (t.v, t.p, t.f)) ∧
    ((∃ q ∈ p.slots, read.imageBad c q = true) → ∃ s' c', exec (.spanRestore o) s = .next s' ∧
      s'.ctx? p.span.asid = some c' ∧ c'.status.toNat % 4 = 1 ∧ bits c'.status.toNat 23 16 = 4))

/-- A context terminates, and spans are saved and restored.
Complete here (exec answers next on these conditions alone): contextTerminate, terminationComplete, spanSave,
saveComplete, spanRestore. -/
def Obligations.ContextsAndSpansEnd : Prop := Claim.ContextsTerminate ∧ Claim.SpansAreSavedAndRestored

/-- R375, R425: a corrected error changes no value and counts in CECOUNT, saturating; an uncorrectable error marks the
register, scratchpad granule, memory unit, dirty line or tile that it strikes and changes no byte, drops a clean copy, and in
the control state of a context ends it with reason 5. That an error in full-empty bits poisons their granule is the model's choice
(log 87).
Complete here (exec answers next on these conditions alone): eccUncorrectable, eccCorrected. -/
def Obligations.SoftErrorsStrike : Prop :=
  ∀ s : State,
    (∀ o, ∃ s', exec (.eccCorrected o) s = .next s' ∧ s'.host.cecount.toNat = min (s.host.cecount.toNat + 1) (2 ^ 32 - 1) ∧
      { s' with host := { s'.host with cecount := s.host.cecount } } = s) ∧
    (∀ o, (∀ a, o ≠ .control a) → ∃ s', exec (.eccUncorrectable o) s = .next s' ∧ s'.mem = s.mem ∧ s'.host = s.host ∧
      s'.ctxs = s.ctxs ∧
      (∀ tm i r t, o = .regFile tm i r → s.thr? tm i = some t → r.val < t.v.length → r.val ∉ t.badRegs →
        s'.thr? tm i = some { t with badRegs := t.badRegs ++ [r.val] }) ∧
      (∀ key, (o = .scratch key ∧ (isScratch key = true ∨ 2 ^ 40 ≤ key ∧ key < 2 ^ 40 + 48 * 2 ^ 20) ∨ (o = .mem key ∨ o = .l2Dirty key) ∧ key < memBytes) →
        s'.poisoned key 1 = true) ∧
      (∀ tm g, o = .feBits tm g → s'.poisoned (coreKey tm (16 * g)) 1 = true) ∧
      (∀ tm n u, o = .acc tm n → s.team? tm = some u → ∃ v, s'.team? tm = some v ∧ v.tileBad n = true ∧ v.acc = u.acc) ∧
      (∀ k (a : Fin 512) va, o = .tlb k a va →
        ∀ e ∈ s'.tlb, ¬ (e.cluster = k.val ∧ e.asid = a.val ∧ e.base ≤ va ∧ va < e.base + e.size)) ∧
      (∀ pa, o = .l2Clean pa → s' = s) ∧
      (∀ k pa, o = .l1d k pa → ∀ l ∈ s'.l1, ¬ (l.core = k.val ∧ l.line = pa / 128)) ∧
      (∀ k va, o = .l1i k va → ∀ l ∈ s'.icache, ¬ (l.core = k.val ∧ l.line = va / 128)) ∧
      (∀ k a i, o = .glaze k a i → ∀ g ∈ s'.glazes, ¬ (g.slice = k.val ∧ g.asid = a.val ∧ g.index = i.val))) ∧
    (∀ (a : Fin 512) (c : Context), s.ctx? a.val = some c → c.status.toNat % 4 = 0 →
      ∃ s' c', exec (.eccUncorrectable (.control a)) s = .next s' ∧ s'.ctx? a.val = some c' ∧ c'.status.toNat % 4 = 1 ∧
        bits c'.status.toNat 23 16 = 5)

/-! ### Watch cones and debugging, chapter 15 -/

/-- R384, R390, R401, R402, R403: CONESET goes in flight with its words, after the thread's earlier CONESETs (R401). When it completes, words that keep the rules arm its cone
where a physical cone is free, and others change no cone; its predicate tells which. CONECLR frees its cone and CONECLR.rec
arms one in use again; the .all forms do so to every cone. Other cones keep their words.
Complete here (exec answers next on these conditions alone): coneset, coneclr, coneclrRec, coneclrAll,
flaggedCompletion. -/
def Obligations.ConeInstructionsComplete : Prop :=
  ∀ (s : State) (x : Issue) (tm : Team) (cr : Crew) (j : Nat) (t : Thread) (c : Common),
    (∀ o : ConesetOp, IssuesAlone s (.coneset c o) x tm cr j t → (∀ q ∈ t.pend, ∀ c p, q.i ≠ .coneset c p) →
      Gives (.coneset c o) s x.team j
      (t.withOp s x (.coneset c o) [srcVal cr.k t true o.a, srcVal cr.k t true o.b, srcVal cr.k t true o.c])) ∧
    (∀ (p : PerformOp) (q : ConesetOp) (o : Op) (a b d : Nat), Pending s p.team p.thr p.id tm t o → t.pend = [o] →
      o.i = .coneset c q → o.vals = [a, b, d] → q.n.val < tm.cones.length →
      let w : ConeNum := ⟨a, b, d⟩
      let ends := fun (ok : Bool) (cs : List Cone) => ∃ s' tm', exec (.flaggedCompletion p) s = .next s' ∧ s'.mem = s.mem ∧
        OpDone s' p.team p.thr t o [] (t.predsWith q.d ok) ∧ s'.team? p.team = some tm' ∧ tm'.cones = cs
      let full := (tm.cone q.n.val).bound = false ∧ 16 ≤ s.conesUsed tm.core
      (coneWordOk w = false ∨ (a % 8 ≠ 0 ∧ full) → ends false tm.cones) ∧
      (coneWordOk w = true → a % 8 ≠ 0 → ¬ full → ends true (tm.cones.set q.n.val
        { cw := BitVec.ofNat 64 a, cmp0 := BitVec.ofNat 64 b, cmp1 := BitVec.ofNat 64 d, cstat := 0x200000000
          bound := true, fresh := true }))) ∧
    (let cones := fun (i : Instr) (f : Nat → Cone → Cone) => IssuesAlone s i x tm cr j t → tm.cones.length = 16 →
      t.pend = [] →
      ∃ s' tm', exec i s = .next s' ∧ s'.mem = s.mem ∧ s'.thr? x.team j = some t ∧ s'.team? x.team = some tm' ∧
        ∀ n < 16, tm'.cone n = f n (tm.cone n) ∨
          (bits (f n (tm.cone n)).cw.toNat 2 0 ≠ 0 ∧ tm'.cone n = { f n (tm.cone n) with bound := true });
      (∀ k : Fin 16, cones (.coneclr c k) fun n d => if n = k.val then {} else d) ∧
      cones (.coneclrAll c false) (fun _ _ => {}) ∧
      (∀ k : Fin 16, cones (.coneclrRec c k) fun n d => if n = k.val ∧ bits d.cw.toNat 2 0 ≠ 0 then d.rearm else d) ∧
      cones (.coneclrAll c true) fun _ d => if bits d.cw.toNat 2 0 ≠ 0 then d.rearm else d)

/-- R392 to R396, R404, R406: without the debug right the HALT forms do nothing. With it, HALT.self, HALT.crew, HALT.team and
HALT.thr request a halt of each ordinary thread they name that runs, with HCAUSE 1 or 2; HALT.rel releases a halted thread,
its registers as they are. -/
def Claim.HaltInstructionsComplete : Prop :=
  ∀ (s : State) (x : Issue) (tm : Team) (cr : Crew) (j : Nat) (t : Thread) (c : Common),
    t.pend = [] →
    (s.hasRight tm = false → ∀ i, (i = .haltSelf c ∨ i = .haltCrew c ∨ i = .haltTeam c ∨ (∃ o, i = .haltThr c o) ∨
        ∃ o, i = .haltRel c o) → IssuesAlone s i x tm cr j t → exec i s = .next s.started) ∧
    (s.hasRight tm = true →
      let asks := fun (i : Instr) (cause : Nat) (named : Nat → Thread → Prop) => IssuesAlone s i x tm cr j t →
        ∃ s', exec i s = .next s' ∧ s'.mem = s.mem ∧ ∀ k u, tm.threads[k]? = some u →
          (named k u → u.crew ≠ 7 → u.status ≠ .ended → u.status ≠ .idle → u.yieldLeft = 0 → u.dbg.halted = false →
            u.dbg.req = none → s'.thr? x.team k = some { u with dbg := { u.dbg with req := some (cause, 0) } }) ∧
          (¬ named k u → s'.thr? x.team k = some u);
      asks (.haltSelf c) 1 (fun k _ => k = j) ∧ asks (.haltCrew c) 1 (fun _ u => u.crew = t.crew) ∧
      asks (.haltTeam c) 1 (fun _ u => u.crew ≠ 7) ∧
      (∀ o : HaltSel, asks (.haltThr c o) 2 fun k _ => tm.select o.tid.toNat o.crew.val = some k) ∧
      (∀ (o : RelSel) (k : Nat) (u : Thread), IssuesAlone s (.haltRel c o) x tm cr j t → k ∈ relSet tm o →
        tm.threads[k]? = some u → u.isHalted = true →
        ∃ s' v, exec (.haltRel c o) s = .next s' ∧ s'.mem = s.mem ∧ s'.thr? x.team k = some v ∧ v.dbg.halted = false ∧
          v.dbg.req = none ∧ v.v = u.v ∧ v.p = u.p ∧ v.pc = u.pc ∧ v.status = u.status ∧ v.sys.waker.toNat % 16 = 10))

/-- R401, R405 to R409: INSPR of a readable item delivers its value and INSPW of a writable one writes it, with DBGEDIT set
(a K register is written as by a KMOV of the target now, R95); STEP of a halted thread steps it; each with its predicate true, and where it is refused with no effect and its predicate
false. The debug instructions in flight then complete.
Complete here (exec answers next on these conditions alone): inspr, inspw, step, flaggedCompletion. -/
def Obligations.InspectionInstructionsComplete : Prop :=
  ∀ (s : State) (x : Issue) (tm : Team) (cr : Crew) (j : Nat) (t : Thread) (c : Common),
    let op := fun (i : Instr) (vals : List Nat) (ws : Option (List (Nat × Word))) (p : PReg) => t.withOp s x i vals fun q =>
      { q with res := ws, pdst := if p.val = 7 then none else some p.val }
    let clear := ∀ o ∈ t.pend, ∀ c q, o.i ≠ .coneset c q
    (∀ o : InsprOp, IssuesAlone s (.inspr c o) x tm cr j t → clear →
      let tgt := tm.selectReg (srcVal cr.k t false o.a)
      let it := itemOf (srcVal cr.k t false o.b) o.wide
      (it = none → Gives (.inspr c o) s x.team j (op (.inspr c o) [0] (some []) o.p)) ∧
      (∀ i, it = some i → s.started.itemOk tm cr j tgt o.wide i = false →
        Gives (.inspr c o) s x.team j (op (.inspr c o) [0] (some []) o.p)) ∧
      (∀ i, it = some i → s.started.itemOk tm cr j tgt o.wide i = true →
        Gives (.inspr c o) s x.team j (op (.inspr c o) [1]
          (some (vPut o.wide o.d.val (s.started.itemVal tm (tgt.getD j) (x.t0 + x.now) o.wide i))) o.p))) ∧
    (∀ o : InspwOp, IssuesAlone s (.inspw c o) x tm cr j t → clear →
      let tgt := tm.selectReg (srcVal cr.k t false o.a)
      let v := srcVal cr.k t o.wide o.c
      (tgt = none → Gives (.inspw c o) s x.team j (op (.inspw c o) [0] (some []) o.d)) ∧
      (∀ (i : Item) (k : Nat) (u : Thread) (cx : Context), itemOf (srcVal cr.k t false o.b) o.wide = some i → tgt = some k →
        tm.threads[k]? = some u → s.ctx? tm.asid = some cx → u.mon = none → t.mon = none →
        ((s.started.itemOk tm cr j tgt o.wide i && itemWritable v i) = false →
          Gives (.inspw c o) s x.team j (op (.inspw c o) [0] (some []) o.d)) ∧
        (s.started.itemOk tm cr j tgt o.wide i = true → itemWritable v i = true → (∀ n, i ≠ .k n) →
          ∃ s' w cx', exec (.inspw c o) s = .next s' ∧ s'.thr? x.team j = some (op (.inspw c o) [1] (some []) o.d) ∧
            MemOutside s' s (cx.recAddr + 128) 8 ∧ s'.ctx? tm.asid = some cx' ∧ cx'.status.getLsbD 2 = true ∧
            s'.thr? x.team k = some w ∧ w.sys.dbgedit = 1 ∧
            (∀ n, i = .v n → w.v = (u.putV (vPut o.wide n v)).v) ∧ ((∀ n, i ≠ .v n) → w.v = u.v) ∧
            (i = .p → w.p = (List.range 7).map fun b => bit v b) ∧ (i ≠ .p → w.p = u.p) ∧
            (i = .next → w.pc.toNat = v % 2 ^ 64) ∧ (i ≠ .next → w.pc = u.pc) ∧
            (i = .sreg 14 → w.sys.fxf.toNat = v % 32)) ∧
          (∀ n q, i = .k n → s.started.itemOk tm cr j tgt o.wide i = true → tm.crew? u.crew = some q → n < q.k.length →
            tabGet 0 q.kAt n ≤ s.coreCc tm.core →
            ∃ s' w tm' q', exec (.inspw c o) s = .next s' ∧ MemOutside s' s (cx.recAddr + 128) 8 ∧
              s'.team? x.team = some tm' ∧ tm'.crew? u.crew = some q' ∧ kVal q'.k true n = v % 2 ^ 64 ∧
              (∀ m, m ≠ n → kVal q'.k true m = kVal q.k true m) ∧ s'.thr? x.team k = some w ∧ w.sys.dbgedit = 1 ∧
              w.v = u.v ∧ w.p = u.p ∧ w.pc = u.pc))) ∧
    (∀ o : StepOp, IssuesAlone s (.step c o) x tm cr j t → clear → t.status ≠ .grouped →
      let tgt := tm.selectReg (srcVal cr.k t false o.a)
      (tgt = none → Gives (.step c o) s x.team j (op (.step c o) [0] (some []) o.d)) ∧
      (∀ k u, tgt = some k → tm.threads[k]? = some u → k ≠ j → s.hasRight tm = true → cr.num ≠ 7 → u.isHalted = true →
        ∃ s' w, exec (.step c o) s = .next s' ∧ s'.mem = s.mem ∧
          s'.thr? x.team j = some (op (.step c o) [1, k] none o.d) ∧ s'.thr? x.team k = some w ∧ w.dbg.stepping = true ∧
          w.dbg.stepped = false ∧ w.v = u.v ∧ w.pc = u.pc)) ∧
    (∀ (p : PerformOp) (z : Team) (o : Op) (ws : List (Nat × Word)), s.team? p.team = some z → s.thr? p.team p.thr = some t →
      t.op? p.id = some o → o.res = some ws → p.only = none → t.status ≠ .stopped → t.wbBlocks o = false → t.pend = [o] →
      (∀ w ∈ ws, w.1 ∈ o.dst) →
      ((∃ q, o.i = .inspr c q) ∨ (∃ q, o.i = .inspw c q) ∨ ∃ q, o.i = .step c q) →
      ∃ s', exec (.flaggedCompletion p) s = .next s' ∧ s'.mem = s.mem ∧ OpDone s' p.team p.thr t o ws
        (match o.pdst with | some n => t.p.set n (o.vals.getD 0 0 == 1) | none => t.p))

/-- R410: TMARK writes a KIND 4 record in the trace unit of its core, holding who and where it is and its two operands,
when the unit is enabled and KEN bit 3 is set; otherwise it does nothing. Any crew may issue it. A full queue loses the
record (R399), which is no part of this statement.
Complete here (exec answers next on these conditions alone): tmark. -/
def Obligations.TmarkWritesItsRecord : Prop :=
  ∀ (s : State) (x : Issue) (tm : Team) (cr : Crew) (j : Nat) (t : Thread) (c : Common) (o : TmarkOp) (k : Core),
    IssuesAlone s (.tmark c o) x tm cr j t → s.cores[tm.core]? = some k →
    (k.trace.base = 0 ∨ k.trace.ctl.getLsbD 3 = false → exec (.tmark c o) s = .next s.started) ∧
    (k.trace.base ≠ 0 → k.trace.ctl.getLsbD 3 = true → k.trace.queue.length < 64 →
      let r := natLe 1 4 ++ natLe 1 tm.core ++ natLe 2 tm.asid ++ natLe 4 t.who ++ natLe 8 k.cc ++
        (natLe 4 o.cls.toNat ++ natLe 4 o.imm.toNat ++ natLe 8 x.ca.toNat)
      exec (.tmark c o) s = .next { s.started with
        cores := s.cores.set tm.core { k with trace := { k.trace with queue := k.trace.queue ++ [r] } } })

/-- R393, R394, R399: a requested halt lands on a thread at a stop site, with its cause and nothing else of the thread
changed, and not before one; the oldest record of a trace unit is written to its ring and the head counts it. -/
def Claim.HaltsLandAndTracesWrite : Prop :=
  (∀ (s : State) (o : ThRef) (tm : Team) (t : Thread) (c : Context) (cause cone : Nat), s.team? o.team = some tm →
    tm.threads[o.thr]? = some t → s.ctx? tm.asid = some c → c.active = true → t.status = .ready → t.pend = [] → t.wb = [] →
    t.late = [] → t.waits = [] → t.yieldLeft = 0 → t.hdrWait = false → t.dbg.halted = false → t.dbg.landed = false →
    t.dbg.stepping = false → t.dbg.req = some (cause, cone) →
    (s.atStop c tm t = false → exec (.haltLand o) s = .next s) ∧
    (s.atStop c tm t = true → ∃ s', exec (.haltLand o) s = .next s' ∧ s'.mem = s.mem ∧
      s'.thr? o.team o.thr = some { t with dbg := { halted := true, hcause := cause, cone := cone } })) ∧
  (∀ (s : State) (k : Fin 96) (c : Core) (r : List Byte) (rest : List (List Byte)), s.cores[k.val]? = some c →
    (c.trace.queue = [] → exec (.traceRecordWrite k) s = .next s) ∧
    (c.trace.queue = r :: rest → c.trace.base ≠ 0 → c.trace.size ≠ 0 → Memory.wf s.mem = true → r.length = 32 →
      let a := c.trace.base.toNat + 32 * (c.trace.head.toNat % c.trace.size.toNat)
      a + 32 ≤ memBytes →
      ∃ s', exec (.traceRecordWrite k) s = .next s' ∧ s'.bytes a 32 = r ∧ MemOutside s' s a 32 ∧
        s'.cores[k.val]? = some { c with trace := { c.trace with queue := rest, head := c.trace.head + 1 } }))

/-- Halts are requested, land and are released, and trace records are written.
Complete here (exec answers next on these conditions alone): haltSelf, haltCrew, haltTeam, haltThr, haltRel, haltLand,
traceRecordWrite. -/
def Obligations.HaltsComplete : Prop := Claim.HaltInstructionsComplete ∧ Claim.HaltsLandAndTracesWrite

/-! ### The host, chapter 18 -/

/-- R423 to R426: while the main side runs, a host read that R423 allows becomes outstanding: with its value of the register
window, without one of memory or a counter; one that R423 does not allow is answered with status 1 and zeros and counts in
HERR, and one with an outstanding tag or a packet of another type is discarded and counts. An outstanding read performs with
the bytes then held, status 2 where a unit is poisoned, and completes with one packet (when each does is free: the model's
choice, log 92). A host write performs at its address and changes nothing else; a counter write of 8 bytes adds, saturating;
what R423 does not allow is dropped and counts in HERR. Without the main side nothing happens. -/
def Claim.HostAccessesComplete : Prop :=
  ∀ s : State,
    (s.mgmt.mainUp = false → ∀ i, ((∃ o, i = .hostReadRequest o) ∨ (∃ o, i = .hostCounterRead o) ∨
      (∃ o, i = .hostMemoryWrite o) ∨ (∃ o, i = .hostCounterAdd o) ∨ ∃ o, i = .registerWrite o) → exec i s = .next s) ∧
    (∀ r ∈ s.hostReads,
      (∀ v, r.res = some v → s.serveRead r = { s with
        hostReads := s.hostReads.filter fun q => q.o.tag != r.o.tag
        hostOut := s.hostOut ++ [packet 3 v.1 r.o.tag.toNat r.o.len.val r.o.addr.toNat v.2] }) ∧
      (r.res = none → ∀ key, hostKey r.o.addr.toNat = some key → let n := r.o.len.val + 1
        let u := s.serveRead r
        u.mem = s.mem ∧ u.host = s.host ∧ u.ctxs = s.ctxs ∧ u.hostOut = s.hostOut ∧
          (∀ b j, (u.thr? b j).map (fun u => { u with mon := none }) = (s.thr? b j).map fun u => { u with mon := none }) ∧
          ∀ q ∈ u.hostReads, q.o = r.o → (s.poisoned key n = false → q.res = some (0, s.bytes key n)) ∧
            (s.poisoned key n = true → ∃ bs, bs.length = n ∧ q.res = some (2, bs)))) ∧
    (s.mgmt.mainUp = true →
      let herr := { s with host := { s.host with herr := BitVec.ofNat 32 (min (s.host.herr.toNat + 1) (2 ^ 32 - 1)) } }
      let accepts := fun (u : State) (i : Instr) (o : HostReadOp) (res : Option (Nat × List Byte)) =>
        exec i s = .next { u with hostReads := s.hostReads ++ [⟨o, res⟩] };
      (∀ o : HostReadOp, let a := o.addr.toNat; let n := o.len.val + 1
        (o.type ≠ 1 ∨ (∃ r ∈ s.hostReads, r.o.tag = o.tag) → exec (.hostReadRequest o) s = .next herr) ∧
        (o.type = 1 → (∀ r ∈ s.hostReads, r.o.tag ≠ o.tag) →
          (inRegWindow a = false → memAccessOk a n = true → accepts s (.hostReadRequest o) o none) ∧
          (inRegWindow a = true → wordAccessOk a n = true →
            accepts s (.hostReadRequest o) o (some (0, s.regBytes (a - 2 ^ 46) n))) ∧
          (inCtrWindow a = true → wordAccessOk a n = true →
            accepts s (.hostReadRequest o) o none ∧ accepts s (.hostCounterRead o) o none) ∧
          ((inRegWindow a = true ∨ inCtrWindow a = true) ∧ wordAccessOk a n = false ∨
              inRegWindow a = false ∧ inCtrWindow a = false ∧ memAccessOk a n = false →
            accepts herr (.hostReadRequest o) o (some (1, List.replicate n 0))))) ∧
      (∀ o : HostWriteOp, let a := o.addr.toNat
        (memAccessOk a o.data.length = true → Memory.wf s.mem = true →
          ∃ s', exec (.hostMemoryWrite o) s = .next s' ∧ s'.bytes a o.data.length = o.data ∧
            MemOutside s' s a o.data.length ∧ s'.host = s.host ∧ s'.ctxs = s.ctxs) ∧
        (inRegWindow a = false → inCtrWindow a = false → memAccessOk a o.data.length = false →
          exec (.hostMemoryWrite o) s = .next herr) ∧
        (inRegWindow a = true → o.data.length ≠ 4 → o.data.length ≠ 8 → exec (.hostMemoryWrite o) s = .next herr) ∧
        (inCtrWindow a = true → exec (.hostMemoryWrite o) s = exec (.hostCounterAdd o) s) ∧
        (inCtrWindow a = true → o.data.length = 8 → a % 8 = 0 → s.poisoned (chipKey (a - 2 ^ 47)) 8 = false →
          (∀ c ∈ s.ctxs, c.psq = []) → Memory.wf s.mem = true → let k := (a - 2 ^ 47) / 8
          ∃ s', exec (.hostCounterAdd o) s = .next s' ∧ MemOutside s' s (chipKey (8 * k)) 8 ∧
            s'.counter k = min (s.counter k + leNat o.data) (2 ^ 64 - 1)) ∧
        (inCtrWindow a = true → (o.data.length ≠ 8 ∨ a % 8 ≠ 0) → exec (.hostCounterAdd o) s = .next herr)))

/-- R423, R425, R428, R430, R441: writes of the register window. HSEED takes the value written; HERR and CECOUNT are cleared
by 0 and keep their value otherwise; a write of OVR with 1 clears it; a counter watch takes its control word; PLIM takes
the value clamped to 300 to 950; a misaligned write is dropped. -/
def Claim.HostRegisterWritesComplete : Prop :=
  ∀ s : State, s.mgmt.mainUp = true →
    (∀ v : BitVec 64, exec (.registerWrite ⟨0x018, false, v⟩) s =
      .next { s with host := { s.host with hseed := v.setWidth 32 } }) ∧
    (∀ (off : Nat) (w : Bool) (v : BitVec 64), off % (if w then 8 else 4) ≠ 0 → exec (.registerWrite ⟨off, w, v⟩) s =
      .next { s with host := { s.host with herr := BitVec.ofNat 32 (min (s.host.herr.toNat + 1) (2 ^ 32 - 1)) } }) ∧
    (∀ v, exec (.herrWrite v) s = .next { s with host := { s.host with herr := if v = 0 then 0 else s.host.herr } }) ∧
    (∀ v, exec (.cecountWrite v) s =
      .next { s with host := { s.host with cecount := if v = 0 then 0 else s.host.cecount } }) ∧
    (∀ v : BitVec 64, ∃ s', exec (.hcmdstatWrite v) s = .next s' ∧ s'.mem = s.mem ∧
      s'.host = { s.host with hcmdstat := s'.host.hcmdstat } ∧ ∀ k < 64, s'.host.hcmdstat.getLsbD k =
        (s.host.hcmdstat.getLsbD k && !(k == 8 && v.getLsbD 8))) ∧
    (∀ (n : Fin 64) (v : BitVec 32) (w : Word × DWord), s.host.watch[n.val]? = some w → v.getLsbD 31 = false →
      ∃ s', exec (.watchWrite ⟨n, 0, natLe 4 v.toNat⟩) s = .next s' ∧ s'.mem = s.mem ∧
        s'.host = { s.host with watch := s.host.watch.set n.val (BitVec.ofNat 32 (v.toNat % 4096), w.2) }) ∧
    (∀ v : BitVec 32, ∃ s', exec (.plimWrite v) s = .next s' ∧ s' = { s with host := { s.host with plim := s'.host.plim } } ∧
      s'.host.plim.toNat = min (max (v.toNat % 65536) 300) 950)

/-- The host reads and writes memory and the host record.
Complete here (exec answers next on these conditions alone): hostReadRequest, hostMemoryWrite, hostCounterAdd,
hostCounterRead, registerWrite, herrWrite, cecountWrite, hcmdstatWrite, watchWrite, plimWrite. -/
def Obligations.HostRequestsComplete : Prop := Claim.HostAccessesComplete ∧ Claim.HostRegisterWritesComplete

/-- R428: a host command sets BUSY and starts with its effect or its RESULT, is dropped with OVR while one runs, and
completes with BUSY 0, its RESULT and SEQ one higher. The model's choices: the ASID that the event of a command names
(log 92), RESULT 1 for a misaligned record (log 93), RESULT 4 of a PREEMPT that names no span and the order of INVTLB's checks
(log 94), and where an ATTEST gives RESULT 8 (log 95).
Complete here (exec answers next on these conditions alone): hcmdBusyDrop, register, terminate, preempt, debugon,
debugoff, retire, attest, setctr, invtlb, hcmdUnknown, hostCommandComplete. -/
def Obligations.HostCommandsRun : Prop :=
  ∀ s : State, s.mgmt.mainUp = true →
    let isCmd := fun (i : Instr) (o : HcmdOp) => i = .register o ∨ i = .terminate o ∨ i = .preempt o ∨ i = .debugon o ∨
      i = .debugoff o ∨ i = .retire o ∨ i = .attest o ∨ i = .setctr o ∨ i = .invtlb o ∨
      ∃ n : Fin 16, ¬ (1 ≤ n.val ∧ n.val ≤ 9) ∧ i = .hcmdUnknown n o
    (s.busy = true → ∀ i o v, isCmd i o ∨ i = .hcmdBusyDrop v →
      exec i s = .next { s with host := { s.host with hcmdstat := s.host.hcmdstat ||| 0x100 } }) ∧
    (s.busy = false →
      let starts := fun (i : Instr) (c : HostCmd) (p : State → Prop) => ∃ s', exec i s = .next s' ∧ s'.hcmd = some c ∧
        s'.host = { s.host with hcmdstat := s.host.hcmdstat ||| 1 } ∧ p s'
      let harg := s.host.hcmdarg.toNat
      let arg := fun o : HcmdOp => o.arg.toNat
      let cmd := fun (n : Nat) (o : HcmdOp) => ({ op := n, arg := arg o, harg := harg, result := 0, asid := arg o } : HostCmd)
      let noCtx := fun o : HcmdOp => s.ctx? (arg o) = none ∧ arg o < 512
      let fails := fun (i : Instr) (c : HostCmd) (r : Nat) => starts i { c with result := r } fun s' =>
        s'.mem = s.mem ∧ s'.ctxs = s.ctxs ∧ s'.teams = s.teams ∧ s'.spans = s.spans
      let anon := fun (n : Nat) (o : HcmdOp) => ({ cmd n o with asid := 0xFFFF } : HostCmd);
      (∀ o, noCtx o → fails (.terminate o) (cmd 2 o) 4 ∧ fails (.preempt o) (cmd 3 o) 4 ∧ fails (.debugon o) (cmd 4 o) 4 ∧
        fails (.debugoff o) (cmd 5 o) 4 ∧ fails (.retire o) (cmd 6 o) 4 ∧ fails (.invtlb o) (cmd 9 o) 4) ∧
      (∀ (n : Fin 16) (o : HcmdOp), ¬ (1 ≤ n.val ∧ n.val ≤ 9) → fails (.hcmdUnknown n o) (anon n.val o) 7) ∧
      (∀ o, harg % 256 ≠ 0 → fails (.register o) (anon 1 o) 1) ∧ (∀ o, 4095 < arg o → fails (.setctr o) (anon 8 o) 9) ∧
      (∀ o, memBytes < harg + 16760 → fails (.attest o) (anon 7 o) 8) ∧
      (∀ o, s.registerResult harg = 0 → let r := recOf (s.bytes harg 256)
        starts (.register o) { cmd 1 o with asid := r.asid } fun s' => ∃ c, s'.ctxs = s.ctxs ++ [c] ∧ c.r = r ∧
          c.recAddr = harg ∧ c.status = 0 ∧ c.debug = false ∧ c.psq = [] ∧
          ∀ k < r.chipsz, tabGet 0 s'.mem (chipKey (r.chipbase + k)) = 0) ∧
      (∀ o c, s.ctx? (arg o) = some c → arg o < 512 →
        (c.status.toNat % 4 = 0 → starts (.terminate o) (cmd 2 o) fun s' => ∃ c', s'.ctx? (arg o) = some c' ∧
          c'.term = some (3, 0, 0) ∧ s'.mem = s.mem) ∧
        starts (.debugon o) (cmd 4 o) (fun s' => ∃ c', s'.ctx? (arg o) = some c' ∧ c'.debug = true ∧ s'.teams = s.teams) ∧
        starts (.debugoff o) (cmd 5 o) (fun s' => ∃ c', s'.ctx? (arg o) = some c' ∧ c'.debug = false ∧
          ∀ u ∈ s'.teams, u.asid = arg o → ∀ z ∈ u.threads, z.dbg.halted = false ∧ z.dbg.req = none) ∧
        (c.status.toNat % 4 = 2 → starts (.retire o) (cmd 6 o) fun s' => s'.ctx? (arg o) = none) ∧
        (c.status.toNat % 4 ≠ 2 → fails (.retire o) (cmd 6 o) 6) ∧
        (bits harg 15 1 = 0 → bits harg 63 57 = 0 → starts (.invtlb o) (cmd 9 o) fun s' => ∀ e ∈ s'.tlb,
          e.asid = arg o → bit harg 0 = false ∧ ¬ (e.base ≤ bits harg 56 16 * 2 ^ 16 ∧ bits harg 56 16 * 2 ^ 16 < e.base + e.size)) ∧
        (∀ p slots, s.spanNamed (arg o) harg = some p → s.slotsFor c p.teams.length = some slots →
          starts (.preempt o) { cmd 3 o with span := p.id } fun s' => ∀ q ∈ s'.spans, q.id = p.id →
            q.want = true ∨ q.saving.isSome)) ∧
      (∀ o, arg o ≤ 4095 → (∀ c ∈ s.ctxs, c.psq = []) → Memory.wf s.mem = true → (∀ w ∈ s.host.watch, w.1.getLsbD 31 = false) →
        starts (.setctr o) (anon 8 o) fun s' => s'.counter (arg o) = harg ∧ MemOutside s' s (chipKey (8 * arg o)) 8) ∧
      (∀ o, harg + 16760 ≤ memBytes → Memory.wf s.mem = true → ∃ s' c, exec (.attest o) s = .next s' ∧ s'.hcmd = some c ∧
        MemOutside s' s harg 16760 ∧ (c.result = 0 ∨ c.result = 8) ∧
        (c.result = 0 → s'.bytes harg 32 = s.bytes harg 32 ∧ s'.bytes (harg + 128) 8 = natLe 8 s.host.ssw.toNat))) ∧
    (∀ (c : HostCmd) (r : Nat), s.hcmd = some c → s.cmdResult c = some r → r < 16 →
      ∃ s', exec .hostCommandComplete s = .next s' ∧ s'.hcmd = none ∧ s'.mem = s.mem ∧
        s'.host.hcmdstat.getLsbD 0 = false ∧ bits s'.host.hcmdstat.toNat 7 4 = r ∧
        s'.host.hcmdstat.toNat / 2 ^ 32 = (s.host.hcmdstat.toNat / 2 ^ 32 + 1) % 2 ^ 32)

/-- R432, R433: PEER_REQUEST_INCOMING of a context that is not live is answered with an error; one whose leaves allow it
performs at its physical addresses, line by line, and is answered with the bytes it read. An unaligned request is accepted
but for an atomic, and it translates as a thread outside the system crew: the model's choice, log 98. PEER_LINK_DOWN takes a
port, and the requests in flight on it lose their route; PEER_LINK_UP gives it back. -/
def Claim.PeerRequestsAreAnswered : Prop :=
  ∀ s : State,
    (∀ p : Fin 16, ∃ s', exec (.peerLinkDown p) s = .next s' ∧
      s' = { s with mgmt := { s.mgmt with ports := s'.mgmt.ports }, teams := s'.teams } ∧
      (∀ k, s'.mgmt.ports.testBit k = (s.mgmt.ports.testBit k && k != p.val)) ∧
      (∀ b j, (s'.thr? b j).map (fun t => { t with pend := [] }) = (s.thr? b j).map fun t => { t with pend := [] }) ∧
      ∀ b j t, s.thr? b j = some t → ∃ u, s'.thr? b j = some u ∧ u.pend.length = t.pend.length ∧
        ∀ (n : Nat) (o : Op), t.pend[n]? = some o →
          u.pend[n]? = some (if o.route.any (fun r => r.port == p.val) then { o with route := none } else o)) ∧
    (∀ p : Fin 16, s.mgmt.mainUp = true → ∃ s', exec (.peerLinkUp p) s = .next s' ∧
      s' = { s with mgmt := { s.mgmt with ports := s'.mgmt.ports } } ∧
      ∀ k, s'.mgmt.ports.testBit k = (s.mgmt.ports.testBit k || k == p.val)) ∧
    (∀ o : PeerOp, s.mgmt.mainUp = true →
      let a := o.addr % 2 ^ 49
      let n := (peerNeeds o.kind).2.1
      (s.ctx? o.tasid.val = none →
        exec (.peerRequestIncoming o) s = .next { s with peerOut := s.peerOut ++ [⟨false, false, []⟩] }) ∧
      (∀ c ps, s.ctx? o.tasid.val = some c → s.peerXlate c (peerNeeds o.kind).1 (lineSpans a n) = .ok ps →
        (∀ p ∈ ps, s.poisoned p.1 p.2 = false) →
        (∀ m, o.kind = .load m → ∃ s', exec (.peerRequestIncoming o) s = .next s' ∧ s'.mem = s.mem ∧ s'.host = s.host ∧
          s'.peerOut = s.peerOut ++ [⟨true, false, ps.flatMap fun p => s.bytes p.1 p.2⟩]) ∧
        (∀ d, o.kind = .store d → ∃ s', exec (.peerRequestIncoming o) s = .next s' ∧ s'.host = s.host ∧
          s'.peerOut = s.peerOut ++ [⟨true, false, []⟩] ∧
          ∀ k, (∀ p ∈ ps, k < p.1 ∨ p.1 + p.2 ≤ k) → tabGet 0 s'.mem k = tabGet 0 s.mem k)) ∧
      (∀ c pa, s.ctx? o.tasid.val = some c → peerAligned o.kind a = true → a % 128 + n ≤ 128 →
        s.xlate c none a (peerNeeds o.kind).1 false = .ok pa → s.poisoned pa n = false →
        pa + n ≤ memBytes → Memory.wf s.mem = true →
        let performs := fun (new : List Byte) (data : List Byte) => ∃ s', exec (.peerRequestIncoming o) s = .next s' ∧
          s'.bytes pa n = new ∧ MemOutside s' s pa n ∧ s'.peerOut = s.peerOut ++ [⟨true, false, data⟩] ∧ s'.host = s.host
        (∀ m, o.kind = .load m → performs (s.bytes pa n) (s.bytes pa n)) ∧
        (∀ d, o.kind = .store d → performs d []) ∧
        (∀ fn ty b, o.kind = .atom fn ty b → performs (natLe n (atomVal fn ty (s.read pa n) b)) (s.bytes pa n)) ∧
        (∀ w b v, o.kind = .cas w b v →
          performs (if s.read pa n = b then natLe n v else s.bytes pa n) (s.bytes pa n))))

/-- R434, R437, R438: POWER_ON begins a start with the main side off and STARTS one higher, which goes on to step 2 unless the start
record is stuck; a failed step begins a new start with that step as CUR, and step 3 fails only where its image does not pass; POWER_LOSS and THERMTRIP take the main side down
and keep the start record and the repair table, THERMTRIP at 115 degrees and above; MRST acts on its key alone. That memory lists
nothing after a start is the model's choice, log 1; when a step begins and ends, log 100; what step 3 verifies, log 10; and
that POWER_LOSS clears the thermal trip, log 101.
Complete here (exec answers next on these conditions alone): powerOn, powerLoss, startupStepFail, thermtrip, mrst. -/
def Obligations.StartsAndPowerRun : Prop :=
  ∀ (s : State) (o : StartOp),
    let down := fun s' : State => s'.mgmt.mainUp = false ∧ s'.mgmt.linkUp = false ∧ s'.mgmt.repairs = s.mgmt.repairs ∧
      s'.teams = [] ∧ s'.ctxs = [] ∧ s'.mem = [] ∧ (∀ c ∈ s'.cores, c.on = false) ∧ s'.host.ecm = 0
    let begins := fun i : Instr => ∃ s', exec i s = .next s' ∧ down s' ∧
      s'.mgmt.start.starts = (s.mgmt.start.starts + 1) % 2 ^ 32 ∧
      (s.mgmt.start.cur = 0 → s'.mgmt.start.fails = s.mgmt.start.fails ∧ s'.mgmt.start.last = s.mgmt.start.last) ∧
      (s.mgmt.start.cur ≠ 0 → s'.mgmt.start.fails = min 255 (s.mgmt.start.fails + 1) ∧
        s'.mgmt.start.last = s.mgmt.start.cur) ∧
      (s.mgmt.start.begin.stuck = true → s'.mgmt.boot = none ∧ s'.host.ssw.getLsbD 5 = true) ∧
      (s.mgmt.start.begin.stuck = false → s'.mgmt.boot = some (2, o) ∧ s'.mgmt.start.cur = 2)
    begins (.powerOn o) ∧ begins (.mrst 0x5254 o) ∧
    (∀ v : BitVec 16, v ≠ 0x5254 → exec (.mrst v o) s = .next s) ∧
    (∀ (n : Fin 11) (q : StartOp), s.mgmt.boot = some (n.val, q) →
      ((n.val = 3 → imagePasses (s.mgmt.start.image q) = false) → begins (.startupStepFail n o)) ∧
      (n.val = 3 → imagePasses (s.mgmt.start.image q) = true → exec (.startupStepFail n o) s = .next s)) ∧
    (∀ n : Fin 11, s.mgmt.boot = none → exec (.startupStepFail n o) s = .next s) ∧
    (∃ s', exec .powerLoss s = .next s' ∧ down s' ∧ s'.mgmt.start = s.mgmt.start ∧ s'.mgmt.thermtrip = false) ∧
    (s.mgmt.temp < 115 → exec .thermtrip s = .next s) ∧
    (115 ≤ s.mgmt.temp →
      ∃ s', exec .thermtrip s = .next s' ∧ down s' ∧ s'.mgmt.start = s.mgmt.start ∧ s'.mgmt.thermtrip = true)

/-- R440, R441: the Dolmir port. A private read sends the bytes of the map at the last address; a private write sets the last
address and changes the start record, PLIM and CECOUNT at their own bytes alone; a write of LAST with 0 sets ALTLVL to 0; a
one to bit 2 of DSTAT clears THERMTRIP; 0x5254 in MRST resets the main side and begins a start (log 101); a dynamic address is
kept. A step of the power limiter lowers the clock while the power is above WATTS or the junction at 105 degrees or more, and
else raises it. Where the pointer stands after a write, and by how much a step moves the clock, is the model's choice,
log 102. -/
def Claim.DolmirAndLimiterComplete : Prop :=
  ∀ s : State,
    (∀ n, ∃ s', exec (.dolmirPrivateRead n) s = .next s' ∧ s' = { s with mgmt := s'.mgmt } ∧
      s'.mgmt.sent = s.mgmt.sent ++ [(List.range n).map fun i => s.dolmirByte ((s.mgmt.ptr + i) % 2 ^ 16)] ∧
      s'.mgmt.ptr = (s.mgmt.ptr + n) % 2 ^ 16 ∧ s'.mgmt.start = s.mgmt.start) ∧
    (∀ o : DolmirWrite, keyWrite o = true → ∃ s', exec (.dolmirPrivateWrite o) s = .next s' ∧
      s'.mgmt.ptr = (o.addr.toNat + o.data.length) % 2 ^ 16 ∧ s'.mgmt.mainUp = false ∧ s'.teams = [] ∧ s'.ctxs = [] ∧
      s'.mgmt.start.starts = (s.mgmt.start.starts + 1) % 2 ^ 32) ∧
    (∀ o : DolmirWrite, keyWrite o = false → ∃ s', exec (.dolmirPrivateWrite o) s = .next s' ∧
      s'.mgmt.ptr = (o.addr.toNat + o.data.length) % 2 ^ 16 ∧
      s' = { s with mgmt := s'.mgmt, host := { s.host with plim := s'.host.plim, cecount := s'.host.cecount } } ∧
      s'.mgmt.start.cur = s.mgmt.start.cur ∧ s'.mgmt.start.starts = s.mgmt.start.starts ∧
      (o.data = [] → s'.mgmt.start = s.mgmt.start) ∧
      (o.addr = 0x40 → o.data.length = 4 → s'.host.plim.toNat = min (max (leNat o.data % 65536) 300) 950)) ∧
    (∀ v : Byte, ∃ s', exec (.startRecordWrite ⟨0x11, [v]⟩) s = .next s' ∧ s' = { s with mgmt := s'.mgmt } ∧
      s'.mgmt.start = (if v = 0 then { s.mgmt.start with last := 0, altlvl := 0 } else { s.mgmt.start with last := v.toNat })) ∧
    (∀ v : BitVec 32, ∃ s', exec (.thermtripClear v) s = .next s' ∧
      s' = { s with mgmt := { s.mgmt with thermtrip := s.mgmt.thermtrip && !v.getLsbD 2 } }) ∧
    (∀ a, exec (.dolmirDynamicAddress a) s = .next { s with mgmt := { s.mgmt with dyn := some a } }) ∧
    let limits := s.host.plim.toNat % 2 ^ 16 < s.mgmt.watts ∨ 105 ≤ s.mgmt.temp
    (∀ n : Fin 65, (s.mgmt.mainUp = false ∨ n.val < 16 ∨ (limits ∧ s.mgmt.clock ≤ n.val) ∨
        (¬ limits ∧ n.val ≤ s.mgmt.clock)) → exec (.limiterStep n) s = .next s) ∧
    (∀ n : Fin 65, s.mgmt.mainUp = true → 16 ≤ n.val → (limits → n.val < s.mgmt.clock) →
      (¬ limits → s.mgmt.clock < n.val) → ∃ s', exec (.limiterStep n) s = .next s' ∧ s'.mgmt.clock = n.val ∧
      s'.mem = s.mem ∧ s'.teams = s.teams ∧
      (s.host.evbase ≠ 0 → s.host.evsize ≠ 0 → s'.host.evhead =
        (if (s.mgmt.clock = 64) = (n.val = 64) then s.host.evhead else s.host.evhead + 1)))

/-- Peer requests are answered, and the management registers and the limiter act.
Complete here (exec answers next on these conditions alone): peerRequestIncoming, peerLinkDown, peerLinkUp,
limiterStep, dolmirDynamicAddress, dolmirPrivateWrite, dolmirPrivateRead, startRecordWrite, thermtripClear. -/
def Obligations.PeersAndDolmirComplete : Prop := Claim.PeerRequestsAreAnswered ∧ Claim.DolmirAndLimiterComplete

/-! ### Clauses, faults and the step, chapters 02, 03 and 14 -/

/-- R27, R31, R32, R51, R60, R61: an issue group whose members are ready at one clause address and may begin, and that the
former may choose, starts the clause there: its header and its words stand in issue, and each member issues with the
fall-through as its next clause, REC set by a region entry and LASTORD by a stop site. While another candidate goes before it
nothing starts. -/
def Claim.ClauseStarts : Prop :=
  ∀ (s : State) (o : ClauseIssueOp) (tm : Team) (cr : Crew) (cx : Context) (t0 : Thread) (h : DWord) (ws : List DWord),
    s.team? o.team = some tm → s.ctx? tm.asid = some cx → cx.status.toNat % 4 = 0 → tm.crew? o.crew.val = some cr →
    (o.members.head?.bind fun i => tm.threads[i]?) = some t0 → groupOk tm o.crew.val o.members .ready t0.pc = true →
    let sys := cr.num == 7
    s.fetchWord cx tm.core t0.pc.toNat sys = .ok h →
    s.fetchClause cx tm.core (t0.pc.toNat + 8) sys (hdrCnt h + 1) = .ok ws →
    (∀ i ∈ o.members, ∀ t, tm.threads[i]? = some t → s.headerOk tm h ws t = true ∧ t.waitMet h = true ∧ t.hdrWait = false ∧
      clauseCause h ws (t.must == some t0.pc) = none) →
    let may := s.formed.mayStart tm cr o.members t0.pc.toNat h ws false
    (may = false → clauseCause h ws false = none → exec (.clauseIssue o) s = .next s.formed) ∧
    (may = true → ∃ s' x, exec (.clauseIssue o) s = .next s' ∧ s'.mem = s.mem ∧ s'.issues = s.issues ++ [x] ∧
      x.team = o.team ∧ x.crew = cr.num ∧ x.ca = t0.pc ∧ x.hdr = h ∧ x.words = ws ∧ x.idx = 0 ∧ x.members = o.members ∧
      x.stalled = [] ∧
      ∀ i t, tm.threads[i]? = some t → ∃ u, s'.thr? o.team i = some u ∧ (s.checkouts = [] → u.mon = t.mon) ∧
        (i ∉ o.members → u = { t with mon := u.mon }) ∧
        (i ∈ o.members → u.status = .issuing ∧ u.pc = t0.pc + BitVec.ofNat 64 (8 * (h.toNat % 16 + 2)) ∧ u.v = t.v ∧
          u.p = t.p ∧ u.f = t.f ∧ u.sys.region = (if h.getLsbD 37 then t0.pc else t.sys.region) ∧
          u.sys.lastord = if h.getLsbD 20 then BitVec.ofNat 32 (bits h.toNat 36 21) else t.sys.lastord))

/-- R61, R366: what the former may choose stands first in the order of R61 among the candidates of its pipe: an entry passed
over 256 times before all else, the oldest of them first; else one of the highest priority present, the system crew's above
the others; a released held group before other entries; and among these the one that has been ready longest. -/
def Claim.CandidatesAreOrdered : Prop :=
  ∀ (s : State) (tm : Team) (cr : Crew) (ms : List Nat) (ca : Nat) (h : DWord) (ws : List DWord) (held : Bool) (c : Core),
    s.cores[tm.core]? = some c → s.mayStart tm cr ms ca h ws held = true →
    ∃ d, State.chosenCand c tm cr ms ca held = some d ∧ d.held = held ∧ d.prio = (if cr.num = 7 then 4 else cr.cpri) ∧
      ∀ e ∈ s.cands tm.core (pipeOf (hdrClass h)) c,
        let starved := fun z : Cand => z.held = false ∧ 256 ≤ z.passed
        (starved e → starved d ∧ d.born ≤ e.born) ∧
        (¬ starved d → ¬ starved e → e.prio ≤ d.prio ∧ (e.prio = d.prio →
          (e.held = true → d.held = true) ∧ (d.held = false → d.since ≤ e.since)))

/-- A clause starts for the threads that the former chooses, and what it may choose.
Complete here (exec answers next on these conditions alone): clauseIssue. -/
def Obligations.ClausesIssue : Prop := Claim.ClauseStarts ∧ Claim.CandidatesAreOrdered

/-- R49, R358 to R367: taking a fault. A reported fault of a thread with nothing in flight goes to the trap queue, its record
written and the thread trapped; a recoverable one goes to the continuation of the crew where one is set and the thread is
not in it, and a page not present then has its page-service request made; a fault of the system crew, of any kind, reported
late, found at issue or taken by TRAP or ILL, ends the context.
ILL takes the illegal-instruction fault, whatever its guard.
Complete here (exec answers next on these conditions alone): ill, lateFaultTaken. -/
def Obligations.FaultsAreTaken : Prop :=
  (∀ (s : State) (o : ThRef) (tm : Team) (t : Thread) (f : FaultRep) (c : Context), s.team? o.team = some tm →
    tm.threads[o.thr]? = some t → s.ctx? tm.asid = some c → t.status = .ready →
    ((t.late = [] ∨ ∃ q ∈ t.pend, q.fixed = false) → exec (.lateFaultTaken o) s = .next s) ∧
    (t.late = [f] → t.pend = [] →
      let conta := (tm.crew? t.crew).bind fun q => q.conta
      let alone := fun s' : State => s'.mem = s.mem ∧ ∀ b k, b ≠ o.team ∨ k ≠ o.thr → s'.thr? b k = s.thr? b k
      (t.crew ≠ 7 → (f.r.kind < 32 ∨ f.r.kind ≠ 32 ∧ (conta = none ∨ t.contact = true)) → s.psrWritten tm.asid 0 = true →
        ∃ s' tm', exec (.lateFaultTaken o) s = .next s' ∧ alone s' ∧ s'.team? o.team = some tm' ∧
          tm'.trapq = tm.trapq ++ [⟨some o.thr, f.r, f.iaddr⟩] ∧
          s'.thr? o.team o.thr = some (Thread.toTrap { t with late := [] } f.r)) ∧
      (∀ a, t.crew ≠ 7 → 32 < f.r.kind → conta = some a → t.contact = false → s.psrWritten tm.asid 0 = true →
        ∃ s' tm', exec (.lateFaultTaken o) s = .next s' ∧ alone s' ∧ s'.team? o.team = some tm' ∧ tm'.trapq = tm.trapq ∧
          s'.thr? o.team o.thr = some { t with
            late := [], sys := t.sys.putRec f.r false, rpt := t.sys.region, ticket := 0, contact := true, pc := a
            must := none, waits := [], status := .ready, dbg := { t.dbg with landed := false } }) ∧
      (∀ a, t.crew ≠ 7 → f.r.kind = 32 → conta = some a → t.contact = false →
        ∃ s' u c', exec (.lateFaultTaken o) s = .next s' ∧ s'.thr? o.team o.thr = some u ∧ u.pc = a ∧ u.contact = true ∧
          u.rpt = t.sys.region ∧ u.ticket = c.psCount + 1 ∧ u.status = .ready ∧ u.sys = t.sys.putRec f.r false ∧ u.v = t.v ∧
          s'.ctx? tm.asid = some c' ∧ c'.psCount = c.psCount + 1) ∧
      (t.crew = 7 → c.status.toNat % 4 = 0 → ∃ s' c', exec (.lateFaultTaken o) s = .next s' ∧
        s'.ctx? tm.asid = some c' ∧ c'.status.toNat % 4 = 1 ∧ bits c'.status.toNat 23 16 = 2 ∧
        bits c'.status.toNat 31 24 = f.r.kind % 256 ∧ ∀ u ∈ s'.teams, u.asid = tm.asid → ∀ z ∈ u.threads,
          z.status = .stopped ∨ z.status = .ended))) ∧
  (∀ (s : State) (x : Issue) (tm : Team) (cr : Crew) (j : Nat) (t : Thread) (v : BitVec 32),
    IssuesAlone s (.ill v) x tm cr j t → t.crew ≠ 7 → t.pend = [] → t.late = [] → t.wb = [] →
    ∃ s' u, exec (.ill v) s = .next s' ∧ s'.mem = s.mem ∧ s'.thr? x.team j = some u ∧ u.status = .trapped ∧ u.v = t.v ∧
      u.sys.fcode = 2 ∧ u.sys.faddr = x.iaddr ∧ u.sys.fword = x.word ∧ u.sys.frec = t.sys.region ∧ u.sys.ford = t.sys.lastord) ∧
  (∀ (s : State) (x : Issue) (tm : Team) (cr : Crew) (j : Nat) (t : Thread) (c : Context) (i : Instr) (kind : Nat),
    (kind = 21 ∧ (∃ m q, i = .trap m q)) ∨ (kind = 2 ∧ ∃ v, i = .ill v) → IssuesAlone s i x tm cr j t → t.crew = 7 →
    t.pend = [] → t.waits = [] → t.late = [] → t.wb = [] → s.ctx? tm.asid = some c → c.status.toNat % 4 = 0 →
    ∃ s' c', exec i s = .next s' ∧ s'.ctx? tm.asid = some c' ∧ c'.status.toNat % 4 = 1 ∧ bits c'.status.toNat 23 16 = 2 ∧
      bits c'.status.toNat 31 24 = kind) ∧
  (∀ (s : State) (id i kind cause addr svc : Nat) (word iaddr : DWord) (tm : Team) (t : Thread) (c : Context),
    s.team? id = some tm → tm.threads[i]? = some t → t.crew = 7 → t.late = [] → t.wb = [] → (∀ q ∈ t.pend, q.fixed = true) →
    s.ctx? tm.asid = some c → c.status.toNat % 4 = 0 →
    ∃ c', (s.raiseAt id i kind cause addr word iaddr svc).ctx? tm.asid = some c' ∧ c'.status.toNat % 4 = 1 ∧
      bits c'.status.toNat 23 16 = 2 ∧ bits c'.status.toNat 31 24 = kind % 256)

/-- R67, R74, R85, R144, R177, R201: the other events of a core. A released group takes a free hold slot; a YIELD pause ends
when its cc have passed; a thread whose wait is over goes on with the code of the wait in WAKER; a page walk that ends at a
leaf is kept; a line is checked out for a pending atomic and returned by a recall.
Complete here (exec answers next on these conditions alone): nop, fenceRel, fenceAcq, fenceAr, sqwait, holdSlotGrant,
yieldPauseEnd, waitingInstructionComplete, pageWalkComplete, lineCheckout, lineRecall. -/
def Obligations.CoreEventsAct : Prop :=
  ∀ s : State,
    (∀ k : Fin 96, (s.nextHold k.val = none ∨ 4 ≤ s.slotsUsed k.val → exec (.holdSlotGrant k) s = .next s) ∧
      ∀ id, s.nextHold k.val = some id → s.slotsUsed k.val < 4 → exec (.holdSlotGrant k) s =
        .next { s with holds := s.holds.map fun h => if h.id = id then { h with slot := true } else h }) ∧
    (∀ (o : ThRef) (t : Thread), s.thr? o.team o.thr = some t →
      ((t.yieldLeft ≠ 1 ∨ t.isHalted = true ∨ t.dbg.landed = true) → exec (.yieldPauseEnd o) s = .next s) ∧
      (t.yieldLeft = 1 → t.isHalted = false → t.dbg.landed = false → ∃ s' u, exec (.yieldPauseEnd o) s = .next s' ∧ s'.mem = s.mem ∧
        s'.thr? o.team o.thr = some u ∧ u = { t with yieldLeft := 0, sys := { t.sys with waker := u.sys.waker } } ∧
        u.sys.waker.toNat % 16 = 12)) ∧
    (∀ (p : PendRef) (tm : Team) (t : Thread) (cr : Crew) (o : Op), s.team? p.team = some tm →
      tm.threads[p.thr]? = some t → tm.crew? t.crew = some cr → t.waits = [o] → o.id = p.id → o.waited = true → o.redo = false →
      t.status = .ready → t.isHalted = false → t.late = [] → t.dbg.req = none → s.savingTeam tm = false → t.pend = [] →
      let ends := fun code : Nat => ∃ s' u, exec (.waitingInstructionComplete p) s = .next s' ∧ s'.mem = s.mem ∧
        s'.thr? p.team p.thr = some u ∧ (s.checkouts = [] → u.mon = t.mon) ∧
        u = { t with waits := [], kSeen := u.kSeen, mon := u.mon, sys := { t.sys with waker := u.sys.waker } } ∧
        u.sys.waker.toNat % 16 = code
      let stays := ∃ s', exec (.waitingInstructionComplete p) s = .next s' ∧ s'.mem = s.mem ∧
        s'.thr? p.team p.thr = some { t with waits := [{ o with banked := none }] }
      ((∃ c n, o.i = .nop c n) → o.stage = 1 → ends 8) ∧
      (∀ c q, o.i = .sqwait c q → s.poisoned o.key 8 = false →
        (o.vals.getD 2 0 ≤ s.counter (o.vals.getD 1 0) → ends 5) ∧ (s.counter (o.vals.getD 1 0) < o.vals.getD 2 0 → stays)) ∧
      (∀ c sc, (o.i = .fenceRel c sc ∨ o.i = .fenceAcq c sc ∨ o.i = .fenceAr c sc) → ends 8)) ∧
    (∀ (o : WalkOp) (c : Context), s.ctx? o.asid.val = some c → o.va < 2 ^ 49 →
      (∀ e sh, s.walkFrom o.va walkLevels c.r.ptroot = .leaf e sh → ∃ s', exec (.pageWalkComplete o) s = .next s' ∧
        { s' with tlb := s.tlb } = s ∧
        ⟨o.cluster.val, o.asid.val, o.va / 2 ^ sh * 2 ^ sh, 2 ^ sh, BitVec.ofNat 64 e⟩ ∈ s'.tlb) ∧
      ((s.walkFrom o.va walkLevels c.r.ptroot = .absent ∨ ∃ n, s.walkFrom o.va walkLevels c.r.ptroot = .viol n) →
        exec (.pageWalkComplete o) s = .next s)) ∧
    (∀ o : LineOp, let line := o.pa / 128
      (o.pa < memBytes → s.atomPending o.core.val line = true → (s.heldBy o.core.val).length < 64 →
        (∀ c ∈ s.checkouts, c.line ≠ line) → ∃ s', exec (.lineCheckout o) s = .next s' ∧ s'.mem = s.mem ∧
          s'.checkouts = s.checkouts ++ [⟨o.core.val, line⟩] ∧ ∀ l ∈ s'.l1, ¬ (l.core = o.core.val ∧ l.line = line)) ∧
      (s.atomPending o.core.val line = false → exec (.lineCheckout o) s = .next s) ∧
      ∃ s', exec (.lineRecall o) s = .next s' ∧ { s' with checkouts := s.checkouts, teams := s.teams } = s ∧
        (∀ b j, (s'.thr? b j).map (fun u => { u with mon := none }) = (s.thr? b j).map fun u => { u with mon := none }) ∧
        ∀ c, c ∈ s'.checkouts ↔ c ∈ s.checkouts ∧ ¬ (c.core = o.core.val ∧ c.line = line))

/-- A step whose next move is the issue of a clause at its cc runs the instruction that the word in hand decodes to, at the
state in which the cc up to it have passed, the clause comes first and its due results are written; then the clause goes on,
and the step ends (`State.settle`: ended waits are noted, lines at two homes take what they have held, what was written over
is kept, and the step number counts). A word that is no instruction faults each member that issues it (R50). No clause issues
while another is to issue earlier. A step whose next move is an event runs it; one in which cycles pass passes them. The moves,
their order and what ends a step are the model's choice, logs 4 and 113; from the rules come only the cc of a word and its
results (R38, R39) and its decoding (R50). -/
def Obligations.StepRunsDecodedInstruction : Prop :=
  ∀ s : State, let s0 := { s with agenda := s.nextMove.2 }
    (∀ (k : Nat) (late : Bool) (y : Issue), s.nextMove.1 = .issue k late → s.issues[k]? = some y →
      let s1 := (s0.pass (s0.dueIn y)).prepare k late
      (s0.mayPass (s0.dueIn y) = false → step s = .next (s.settle s0)) ∧
      (∀ (x : Issue) (tm : Team) (cr : Crew), s0.mayPass (s0.dueIn y) = true →
        (s0.pass (s0.dueIn y)).issues[k]?.isSome = true → s1.issuer = some (x, tm, cr) →
        (∀ i, decode x.word.toNat = .ok i →
          (∀ m, exec i s1 = .next m → step s = .next (s.settle (m.advance x.id))) ∧
          (∀ f, exec i s1 = .fault f → step s = .fault f) ∧ (∀ r, exec i s1 = .refused r → step s = .refused r)) ∧
        (∀ e, decode x.word.toNat = .error e → step s = .next (s.settle
          ((x.active.foldl (fun u j => u.raise x j 2 0 x.iaddr.toNat) s1).advance x.id))))) ∧
    (∀ i, s.nextMove.1 = .event i → isEvent i = true → let s1 := s0.meetRequest (.event i)
      (∀ m, exec i s1 = .next m → step s = .next (s.settle m)) ∧
      (∀ f, exec i s1 = .fault f → step s = .fault f) ∧ (∀ r, exec i s1 = .refused r → step s = .refused r)) ∧
    (∀ n, s.nextMove.1 = .cycle n → step s = .next (s.settle (if s0.mayPass n then s0.pass n else s0))) ∧
    (s.nextMove.1 = .background → step s = .next (s.settle s0.background))

/-- The reset state (R425, R434, R437, R441): no context and no team; memory lists nothing; the registers of the host record
at their Reset column, PLIM at 950 W; STARTS is 1 and no failure is recorded; no cone is
armed (R389) and L2 holds no line (R145). That memory lists nothing is the model's choice, log 1; the values of SSW, ECM and
BSW, STARTS 1 and MAINUP are those of a first start that found nothing wrong, the model's choice too, log 2. -/
def Obligations.ResetState : Prop :=
  State.reset.ctxs = [] ∧ State.reset.teams = [] ∧ State.reset.lots = [] ∧ State.reset.mem = [] ∧
  (State.reset.host.hseed, State.reset.host.herr, State.reset.host.evsize, State.reset.host.cecount) = (0, 0, 0, 0) ∧
  (State.reset.host.hcmdarg, State.reset.host.hcmdstat, State.reset.host.evbase, State.reset.host.evhead) = (0, 0, 0, 0) ∧
  State.reset.host.plim.toNat = 950 ∧ State.reset.host.watch = List.replicate 64 (0, 0) ∧
  State.reset.host.ecm = 2 ^ State.reset.cores.length - 1 ∧ State.reset.cores.length = 96 ∧
  State.reset.mgmt.start = { cur := 0, last := 0, altlvl := 0, fails := 0, starts := 1 } ∧ State.reset.mgmt.mainUp = true ∧
  State.reset.onceDisarmed ∧ State.reset.heldWhole ∧ State.reset.homesHeld

/-- R389: a cc ends for every cone when cycles pass: after such a step no cone with ONCE set that had slumped before the cc
that is then current is armed. -/
def Obligations.StepDisarmsOnceCones : Prop :=
  ∀ (s s' : State) (n : Nat) (rest : List Action), s.agenda = .cycle n :: rest → n ≠ 0 → s.mayPass n = true →
    step s = .next s' → s'.onceDisarmed

/-- R11, R145: every step keeps the form of memory and its tags, and what the lines of L2 have held: after it each aligned unit
of 8 bytes of a line that L2 holds, and the tag of the line, is one that the line has held since it was homed. The reset state
has that form. The unit of 8 bytes, its tag, and the record of what lines have held are the model's choice, log 113. -/
def Obligations.StepReadsHeldValues : Prop :=
  State.reset.linesOk ∧ ∀ s s' : State, s.linesOk → step s = .next s' → s'.linesOk
end

