-- ==== Sys2Proof/Laws/Decode.lean ====
section
/-! SUPPORT. The fields of an instruction word: each reader gives back what its writer writes (R36, R43 to R45, R92, R121). -/

namespace Sys2Proof
open Machine (bit b2n)
theorem b2n_mod (b : Bool) : (b2n b == 1) = b := by cases b <;> rfl

theorem splitWord_joinWord (r : Raw) : splitWord (joinWord r) = r := by
  obtain ⟨⟨op, hop⟩, ⟨dist, hd⟩, ⟨setf, hs⟩, pneg, ⟨pred, hp⟩, fb, ⟨body, hb⟩⟩ := r
  simp only [splitWord, joinWord, Raw.mk.injEq, Fin.mk.injEq]
  have h1 := b2n_lt pneg; have h2 := b2n_lt fb
  refine ⟨by omega, by omega, by omega, ?_, by omega, ?_, by omega⟩
  · rw [show (op * 0x100000000000000 + dist * 0x20000000000000 + setf * 0x2000000000000 + b2n pneg * 0x1000000000000 + pred * 0x200000000000 + b2n fb * 0x100000000000 + body) / 0x1000000000000 % 2 = b2n pneg by omega]; exact b2n_mod _
  · rw [show (op * 0x100000000000000 + dist * 0x20000000000000 + setf * 0x2000000000000 + b2n pneg * 0x1000000000000 + pred * 0x200000000000 + b2n fb * 0x100000000000 + body) / 0x100000000000 % 2 = b2n fb by omega]; exact b2n_mod _

theorem RG.split_join (r : RG) : RG.split r.w r.join = r := by
  obtain ⟨⟨d, hd⟩, ⟨a, ha⟩, ⟨b, hb⟩, ⟨c, hc⟩, ⟨x, hx⟩, w⟩ := r
  simp only [RG.split, RG.join, RG.mk.injEq, Fin.mk.injEq, and_true]
  omega
theorem RI.split_join (r : RI) : RI.split r.w r.join = r := by
  obtain ⟨⟨d, hd⟩, ⟨a, ha⟩, ⟨x, hx⟩, ⟨⟨imm, hi⟩⟩, w⟩ := r
  simp only [RI.split, RI.join, RI.mk.injEq, Fin.mk.injEq, BitVec.toNat_eq, BitVec.toNat_ofNat, BitVec.toNat_ofFin, and_true]
  omega
theorem I32.split_join (r : I32) : I32.split r.w r.join = r := by
  obtain ⟨⟨d, hd⟩, ⟨x, hx⟩, ⟨⟨imm, hi⟩⟩, w⟩ := r
  simp only [I32.split, I32.join, I32.mk.injEq, Fin.mk.injEq, BitVec.toNat_eq, BitVec.toNat_ofNat, BitVec.toNat_ofFin, and_true]
  omega
theorem MF.split_join (r : MF) : MF.split r.sx r.join = r := by
  obtain ⟨⟨d, hd⟩, ⟨b, hb⟩, ⟨⟨off, ho⟩⟩, ⟨u, hu⟩, inv, ⟨f, hf⟩, ⟨w, hw⟩, sx⟩ := r
  have h1 := b2n_lt inv
  simp only [MF.split, MF.join, MF.mk.injEq, Fin.mk.injEq, BitVec.toNat_eq, BitVec.toNat_ofNat, BitVec.toNat_ofFin]
  refine ⟨by omega, by omega, by omega, by omega, ?_, by omega, by omega, trivial⟩
  rw [show (d * 0x800000000 + b * 0x4000000 + off * 256 + u * 32 + b2n inv * 16 + f * 4 + w) / 16 % 2 = b2n inv by omega]
  exact b2n_mod _
theorem BF.split_join (r : BF) : BF.split r.join = r := by
  obtain ⟨⟨d, hd⟩, ⟨x, hx⟩, ⟨⟨imm, hi⟩⟩⟩ := r
  simp only [BF.split, BF.join, BF.mk.injEq, Fin.mk.injEq, BitVec.toNat_eq, BitVec.toNat_ofNat, BitVec.toNat_ofFin]
  omega
theorem SF.split_join (r : SF) : SF.split r.join = r := by
  obtain ⟨⟨x, hx⟩, ⟨⟨imm, hi⟩⟩⟩ := r
  simp only [SF.split, SF.join, SF.mk.injEq, Fin.mk.injEq, BitVec.toNat_eq, BitVec.toNat_ofNat, BitVec.toNat_ofFin]
  omega
@[simp] theorem vreg_encV (v : VReg) : vreg (encV v) = some v := by
  obtain ⟨v, hv⟩ := v; simp [vreg, encV, hv]
@[simp] theorem kreg_encK (k : KReg) : kreg (encK k) = some k := by
  obtain ⟨k, hk⟩ := k
  simp [kreg, encK]; omega
@[simp] theorem src_encS (x : Src) : src (encS x) = some x := by
  cases x with
  | v n => obtain ⟨v, hv⟩ := n; simp [src, encS, encV, hv]
  | k n =>
    obtain ⟨k, hk⟩ := n
    have h : ¬ 256 + k < 256 := by omega
    have h2 : 256 + k < 320 := by omega
    unfold src encS encK
    rw [dif_neg h, dif_pos h2]
    simp
@[simp] theorem qreg_encQ (k : Fin 32) : qreg (encQ k) = some k := by
  obtain ⟨k, hk⟩ := k
  simp [qreg, encQ]; omega
@[simp] theorem sreg_encSys (k : Fin 64) : sreg (encSys k) = some k := by
  obtain ⟨k, hk⟩ := k
  simp [sreg, encSys]; omega
@[simp] theorem preg_encP (p : PReg) : preg (encP p) = some p := by
  obtain ⟨p, hp⟩ := p; simp [preg, encP, hp]
@[simp] theorem optSrc_enc (x : Option Src) (p : Bool) (h : p = x.isSome) : optSrc p (encO x) = some x := by
  subst h; cases x <;> simp [optSrc, encO]
@[simp] theorem optV_enc (x : Option VReg) (p : Bool) (h : p = x.isSome) : optV p (encVO x) = some x := by
  subst h; cases x <;> simp [optV, encVO]
@[simp] theorem b2n_true : b2n true = 1 := rfl
@[simp] theorem b2n_false : b2n false = 0 := rfl
@[simp] theorem xbit_eq (x k : Nat) : xbit x k = (x / 2 ^ k % 2 == 1) := rfl
@[simp] theorem mk4_val (n : Nat) : (mk4 n).val = n % 4 := rfl
@[simp] theorem mk8_val (n : Nat) : (mk8 n).val = n % 8 := rfl
@[simp] theorem mkX_val (n : Nat) : (mkX n).val = n % 256 := rfl
@[simp] theorem mk6_val (n : Nat) : (mk6 n).val = n % 64 := rfl
@[simp] theorem mk9_val (n : Nat) : (mk9 n).val = n % 512 := rfl
theorem IntBin.ofRG_toRG (o : IntBin) : IntBin.ofRG o.toRG = some o := by
  obtain ⟨wide, sgn, sat, d, a, b⟩ := o
  cases sgn <;> cases sat <;> simp [IntBin.ofRG, IntBin.toRG]
theorem IntTri.ofRG_toRG (o : IntTri) : IntTri.ofRG o.toRG = some o := by
  obtain ⟨wide, sgn, sat, d, a, b, c⟩ := o
  cases sgn <;> cases sat <;> simp [IntTri.ofRG, IntTri.toRG]
theorem IabsOp.ofRG_toRG (o : IabsOp) : IabsOp.ofRG o.toRG = some o := by
  obtain ⟨wide, sat, d, a⟩ := o
  cases sat <;> simp [IabsOp.ofRG, IabsOp.toRG]
theorem IaddiOp.ofRI_toRI (o : IaddiOp) : IaddiOp.ofRI o.toRI = some o := by
  obtain ⟨wide, sgn, sat, d, a, imm⟩ := o
  cases sgn <;> cases sat <;> simp [IaddiOp.ofRI, IaddiOp.toRI]
theorem LogBin.ofRG_toRG (o : LogBin) : LogBin.ofRG o.toRG = some o := by
  obtain ⟨wide, nb, d, a, b⟩ := o
  cases nb <;> simp [LogBin.ofRG, LogBin.toRG]
theorem LopiOp.ofRI_toRI (o : LopiOp) : LopiOp.ofRI o.toRI = some o := by
  obtain ⟨wide, op, ni, d, a, imm⟩ := o
  cases op <;> cases ni <;> simp [LopiOp.ofRI, LopiOp.toRI, BoolOp.code, boolOpOf]
theorem FlagBin.ofRG_toRG (o : FlagBin) : FlagBin.ofRG o.toRG = some o := by
  obtain ⟨wide, flag, d, a, b⟩ := o
  cases flag <;> simp [FlagBin.ofRG, FlagBin.toRG]
theorem BfiOp.ofRG_toRG (o : BfiOp) : BfiOp.ofRG o.toRG = some o := by
  obtain ⟨wide, d, a, b, c⟩ := o
  simp [BfiOp.ofRG, BfiOp.toRG]
theorem UnOp.ofRG_toRG (o : UnOp) : UnOp.ofRG o.toRG = some o := by
  obtain ⟨wide, d, a⟩ := o
  simp [UnOp.ofRG, UnOp.toRG]
theorem IcmpOp.ofRG_toRG (o : IcmpOp) : IcmpOp.ofRG o.toRG = some o := by
  obtain ⟨wide, cmp, sgn, comb, d, a, b⟩ := o
  rcases comb with _ | ⟨c, p⟩
  · cases cmp <;> cases sgn <;> simp [IcmpOp.ofRG, IcmpOp.toRG, icmpComb, Cmp.code, cmpOf]
  · cases cmp <;> cases sgn <;> cases c <;>
      simp [IcmpOp.ofRG, IcmpOp.toRG, icmpComb, Cmp.code, cmpOf, BoolOp.code, boolOpOf]
theorem SelOp.ofRG_toRG (o : SelOp) : SelOp.ofRG o.toRG = some o := by
  obtain ⟨wide, neg, p, d, a, b⟩ := o
  cases neg <;> simp [SelOp.ofRG, SelOp.toRG, Fin.ext_iff] <;> omega
theorem MoviOp.ofI32_toI32 (o : MoviOp) : MoviOp.ofI32 o.toI32 = some o := by
  obtain ⟨kind, d, imm⟩ := o
  cases kind <;> simp [MoviOp.ofI32, MoviOp.toI32]
theorem LeaOp.ofRG_toRG (o : LeaOp) : LeaOp.ofRG o.toRG = some o := by
  obtain ⟨⟨s, hs⟩, idx, d, a, b⟩ := o
  have h0 : s / 8 = 0 := by omega
  have h1 : (s + 8) / 8 = 1 := by omega
  have h3 : (s + 24) / 8 = 3 := by omega
  have m0 : s % 256 = s := by omega
  have m1 : (s + 8) % 256 = s + 8 := by omega
  have m3 : (s + 24) % 256 = s + 24 := by omega
  cases idx <;> simp [LeaOp.ofRG, LeaOp.toRG, h0, h1, h3, m0, m1, m3, Fin.ext_iff] <;> omega
theorem PlopOp.ofRG_toRG (o : PlopOp) : PlopOp.ofRG o.toRG = some o := by
  obtain ⟨lut, d, a, b, c⟩ := o
  have h : lut.toNat % 256 = lut.toNat := Nat.mod_eq_of_lt lut.isLt
  simp [PlopOp.ofRG, PlopOp.toRG, h]
theorem SmovRead.ofRG_toRG (o : SmovRead) : SmovRead.ofRG o.toRG = some o := by
  obtain ⟨wide, sr, d⟩ := o
  simp [SmovRead.ofRG, SmovRead.toRG] <;> omega
theorem SmovWrite.ofRG_toRG (o : SmovWrite) : SmovWrite.ofRG o.toRG = some o := by
  obtain ⟨wide, sr, a⟩ := o
  simp [SmovWrite.ofRG, SmovWrite.toRG] <;> omega
theorem KmovOp.ofRGTo_toRGTo (o : KmovOp) : KmovOp.ofRGTo o.toRGTo = some o := by
  obtain ⟨wide, k, v⟩ := o
  simp [KmovOp.ofRGTo, KmovOp.toRGTo]
theorem KmovOp.ofRGFrom_toRGFrom (o : KmovOp) : KmovOp.ofRGFrom o.toRGFrom = some o := by
  obtain ⟨wide, k, v⟩ := o
  simp [KmovOp.ofRGFrom, KmovOp.toRGFrom]
theorem ElectOp.ofRG_toRG (o : ElectOp) : ElectOp.ofRG o.toRG = some o := by
  obtain ⟨d, lane⟩ := o
  cases lane <;> simp [ElectOp.ofRG, ElectOp.toRG]
/-- The X byte of R121 holds FT, RM, FTZ and the top bit. -/
theorem fpX_fields (ft : FType) (rm : RMode) (ftz top : Bool) :
    ftypeOf ((fpX ft rm ftz top).val % 8) = some ft ∧ rmodeOf ((fpX ft rm ftz top).val / 8 % 8) = some rm ∧
    xbit (fpX ft rm ftz top).val 6 = ftz ∧ xbit (fpX ft rm ftz top).val 7 = top := by
  cases ft <;> cases rm <;> cases ftz <;> cases top <;> decide
theorem FpBin.ofRG_toRG (o : FpBin) : FpBin.ofRG o.toRG = some o := by
  obtain ⟨ft, rm, ftz, sat, d, a, b⟩ := o
  have h := fpX_fields ft rm ftz sat
  simp [-xbit_eq, FpBin.ofRG, FpBin.toRG, h]
theorem FpTri.ofRG_toRG (o : FpTri) : FpTri.ofRG o.toRG = some o := by
  obtain ⟨ft, rm, ftz, sat, d, a, b, c⟩ := o
  have h := fpX_fields ft rm ftz sat
  simp [-xbit_eq, FpTri.ofRG, FpTri.toRG, h]
theorem FpUn.ofRG_toRG (o : FpUn) : FpUn.ofRG o.toRG = some o := by
  obtain ⟨ft, rm, ftz, pi, d, a⟩ := o
  have h := fpX_fields ft rm ftz pi
  simp [-xbit_eq, FpUn.ofRG, FpUn.toRG, h]
/-- The X byte of R124 holds FT, the comparison, FTZ and COMB. -/
theorem FcmpOp.fields (ft : FType) (cmp : FCmp) (ftz comb : Bool) :
    ftypeOf ((ft.code + 8 * cmp.code + 64 * b2n ftz + 128 * b2n comb) % 256 % 8) = some ft ∧
    fcmpOf ((ft.code + 8 * cmp.code + 64 * b2n ftz + 128 * b2n comb) % 256 / 8 % 8) = some cmp ∧
    xbit ((ft.code + 8 * cmp.code + 64 * b2n ftz + 128 * b2n comb) % 256) 6 = ftz ∧
    xbit ((ft.code + 8 * cmp.code + 64 * b2n ftz + 128 * b2n comb) % 256) 7 = comb := by
  cases ft <;> cases cmp <;> cases ftz <;> cases comb <;> decide
/-- The C field of R124 holds Pc and the combiner. -/
theorem fcmpComb_some : ∀ (b : BoolOp) (p : PReg), fcmpComb true ((p.val + 8 * b.code) % 512) = some (some (b, p)) := by
  intro b; cases b <;> decide
theorem FcmpOp.ofRG_toRG (o : FcmpOp) : FcmpOp.ofRG o.toRG = some o := by
  obtain ⟨ft, cmp, ftz, comb, d, a, b⟩ := o
  have h := FcmpOp.fields ft cmp ftz comb.isSome
  rcases comb with _ | ⟨c, p⟩
  · simp [-xbit_eq, FcmpOp.ofRG, FcmpOp.toRG] at h ⊢
    simp [-xbit_eq, h, fcmpComb]
  · simp [-xbit_eq, FcmpOp.ofRG, FcmpOp.toRG] at h ⊢
    simp [-xbit_eq, h, fcmpComb_some]
theorem FclsOp.ofRG_toRG (o : FclsOp) : FclsOp.ofRG o.toRG = some o := by
  obtain ⟨fmt, d, a⟩ := o
  cases fmt <;> simp [FclsOp.ofRG, FclsOp.toRG, CFmt.code, cfmtOf]
/-- The X byte of R129 holds the two formats. -/
theorem FcvtOp.fmts (dt st : CFmt) :
    cfmtOf ((dt.code + 16 * st.code) % 256 % 16) = some dt ∧ cfmtOf ((dt.code + 16 * st.code) % 256 / 16) = some st := by
  cases dt <;> cases st <;> decide
/-- The C field of R129 holds RM, SAT, FTZ and HI. -/
theorem FcvtOp.modes (rm : RMode) (sat ftz hi : Bool) :
    (rm.code + 8 * b2n sat + 16 * b2n ftz + 32 * b2n hi) % 512 < 64 ∧
    rmodeOf ((rm.code + 8 * b2n sat + 16 * b2n ftz + 32 * b2n hi) % 512 % 8) = some rm ∧
    xbit ((rm.code + 8 * b2n sat + 16 * b2n ftz + 32 * b2n hi) % 512) 3 = sat ∧
    xbit ((rm.code + 8 * b2n sat + 16 * b2n ftz + 32 * b2n hi) % 512) 4 = ftz ∧
    xbit ((rm.code + 8 * b2n sat + 16 * b2n ftz + 32 * b2n hi) % 512) 5 = hi := by
  cases rm <;> cases sat <;> cases ftz <;> cases hi <;> decide
theorem FcvtOp.ofRG_toRG (o : FcvtOp) (h : x2Fmt o.dt = o.b.isSome) : FcvtOp.ofRG o.toRG = some o := by
  obtain ⟨dt, st, rm, sat, ftz, hi, d, a, b⟩ := o
  have hx := FcvtOp.fmts dt st
  have hc := FcvtOp.modes rm sat ftz hi
  simp only [FcvtOp.ofRG, FcvtOp.toRG, FcvtOp.wide, mkX_val, mk9_val] at hx hc h ⊢
  simp [-xbit_eq] at hx hc ⊢
  simp [-xbit_eq, hx, hc, h]
/-- The X byte of R131 and R132 holds the two types and RM. -/
theorem CvtIntOp.fieldsF2i (f : SFmt) (i : IType) (rm : RMode) :
    (f.code + 4 * i.code + 16 * rm.code) % 256 < 128 ∧ sfmtOf ((f.code + 4 * i.code + 16 * rm.code) % 256 % 4) = some f ∧
    itypeOf ((f.code + 4 * i.code + 16 * rm.code) % 256 / 4 % 4) = some i ∧
    rmodeOf ((f.code + 4 * i.code + 16 * rm.code) % 256 / 16) = some rm := by
  cases f <;> cases i <;> cases rm <;> decide
theorem CvtIntOp.fieldsI2f (f : SFmt) (i : IType) (rm : RMode) :
    (i.code + 4 * f.code + 16 * rm.code) % 256 < 128 ∧ itypeOf ((i.code + 4 * f.code + 16 * rm.code) % 256 % 4) = some i ∧
    sfmtOf ((i.code + 4 * f.code + 16 * rm.code) % 256 / 4 % 4) = some f ∧
    rmodeOf ((i.code + 4 * f.code + 16 * rm.code) % 256 / 16) = some rm := by
  cases f <;> cases i <;> cases rm <;> decide
theorem CvtIntOp.ofF2i_toF2i (o : CvtIntOp) : CvtIntOp.ofF2i o.toF2i = some o := by
  obtain ⟨f, i, rm, d, a⟩ := o
  have h := CvtIntOp.fieldsF2i f i rm
  simp only [CvtIntOp.ofF2i, CvtIntOp.toF2i, CvtIntOp.wide, mkX_val] at h ⊢
  simp at h ⊢
  simp [h]
theorem CvtIntOp.ofI2f_toI2f (o : CvtIntOp) : CvtIntOp.ofI2f o.toI2f = some o := by
  obtain ⟨f, i, rm, d, a⟩ := o
  have h := CvtIntOp.fieldsI2f f i rm
  simp only [CvtIntOp.ofI2f, CvtIntOp.toI2f, CvtIntOp.wide, mkX_val] at h ⊢
  simp at h ⊢
  simp [h]
theorem FdotOp.ofRG_toRG (o : FdotOp) : FdotOp.ofRG o.toRG = some o := by
  obtain ⟨st, rm, ftz, d, a, b, c⟩ := o
  cases st <;> cases rm <;> cases ftz <;> simp [FdotOp.ofRG, FdotOp.toRG, DotFmt.code, RMode.code, dotFmtOf, rmodeOf]
theorem BqntScale.ofRG_toRG (o : BqntScale) : BqntScale.ofRG o.toRG = some o := by
  obtain ⟨ef, d, a⟩ := o
  cases ef <;> simp [BqntScale.ofRG, BqntScale.toRG, EFmt.code, efmtOf]
theorem BqntElem.ofRG_toRG (o : BqntElem) : BqntElem.ofRG o.toRG = some o := by
  obtain ⟨ef, rm, sat, d, a, b⟩ := o
  cases ef <;> cases rm <;> cases sat <;> simp [BqntElem.ofRG, BqntElem.toRG, EFmt.code, RMode.code, efmtOf, rmodeOf]
theorem BdqOp.ofRG_toRG (o : BdqOp) : BdqOp.ofRG o.toRG = some o := by
  obtain ⟨ef, rm, d, a, b⟩ := o
  cases ef <;> cases rm <;> simp [BdqOp.ofRG, BdqOp.toRG, EFmt.code, RMode.code, efmtOf, rmodeOf]
theorem ShflOp.ofRG_toRG (o : ShflOp) : ShflOp.ofRG o.toRG = some o := by
  obtain ⟨mode, wide, d, a, b, fill⟩ := o
  cases mode <;> cases wide <;> cases fill <;> simp [ShflOp.ofRG, ShflOp.toRG, ShflMode.code, shflOf]
theorem VoteOp.ofRG_toRG (o : VoteOp) : VoteOp.ofRG o.toRG = some o := by
  obtain ⟨dst, fill, p⟩ := o
  cases dst <;> cases fill <;> simp [VoteOp.ofRG, VoteOp.toRG]
theorem FoldOp.ofRG_toRG (o : FoldOp) : FoldOp.ofRG o.toRG = some o := by
  obtain ⟨op, ty, excl, d, a, fill⟩ := o
  cases op <;> cases ty <;> cases excl <;> cases fill <;> simp [FoldOp.ofRG, FoldOp.toRG, LType.code, RedOp.code, ltWide, ltypeOf, redOpOf]
theorem MatchOp.ofRG_toRG (o : MatchOp) : MatchOp.ofRG o.toRG = some o := by
  obtain ⟨wide, d, a⟩ := o
  cases wide <;> simp [MatchOp.ofRG, MatchOp.toRG]
theorem LdOp.ofMF_toMF (o : LdOp) (h : isMem o.space = false → o.reuse = 0) : LdOp.ofMF o.toMF = some o := by
  obtain ⟨space, w, reuse, inv, feq, data, base, off⟩ := o
  cases space <;> simp [isMem] at h <;> cases w <;> cases feq <;>
    simp [LdOp.ofMF, LdOp.toMF, mfSpace, encReuse, isMem, spcOf, Space.spc, Width.code, widthCodeOf, Feq.code, feqOf, h]
theorem StOp.ofMF_toMF (o : StOp) (h : isMem o.space = false → o.reuse = 0) : StOp.ofMF o.toMF = some o := by
  obtain ⟨space, w, reuse, data, base, off⟩ := o
  cases space <;> simp [isMem] at h <;> cases w <;>
    simp [StOp.ofMF, StOp.toMF, mfSpace, encReuse, isMem, spcOf, Space.spc, Width.code, widthCodeOf, h]
theorem PrefOp.ofMF_toMF (o : PrefOp) : PrefOp.ofMF o.toMF = some o := by
  obtain ⟨l2, reuse, base, off⟩ := o
  cases l2 <;> simp [PrefOp.ofMF, PrefOp.toMF] <;> omega
theorem FeOp.ofMF_toMF (o : FeOp) (h : o.space ≠ .mem) : FeOp.ofMF o.toMF = some o := by
  obtain ⟨space, n, base, off⟩ := o
  cases space <;> simp [FeOp.ofMF, FeOp.toMF, Space.spc, encReuse, isMem, mfSpace, spcOf] at h ⊢ <;> omega
theorem MonOp.ofMF_toMF (o : MonOp) : MonOp.ofMF o.toMF = some o := by
  obtain ⟨space, base, off⟩ := o
  cases space <;> simp [MonOp.ofMF, MonOp.toMF, Space.spc, encReuse, isMem, mfSpace, spcOf]
theorem AtomOp.ofRG_toRG (o : AtomOp) (h : o.space ≠ .lane) : AtomOp.ofRG o.toRG = some o := by
  obtain ⟨fn, ty, space, d, a, b⟩ := o
  cases fn <;> cases ty <;> cases space <;> simp [AtomOp.ofRG, AtomOp.toRG, AtomFn.code, AtomTy.code, Space.acode, aspaceOf, atWide, atomFnOf, atomTyOf] at h ⊢
theorem CasOp.ofRG_toRG (o : CasOp) (h : o.space ≠ .lane) : CasOp.ofRG o.toRG = some o := by
  obtain ⟨wide, space, d, a, b, c⟩ := o
  cases wide <;> cases space <;> simp [CasOp.ofRG, CasOp.toRG, Space.acode, aspaceOf] at h ⊢
theorem RedOpnd.ofRG_toRG (o : RedOpnd) (h : o.space ≠ .lane) : RedOpnd.ofRG o.toRG = some o := by
  obtain ⟨fn, ty, space, a, b⟩ := o
  cases fn <;> cases ty <;> cases space <;> simp [RedOpnd.ofRG, RedOpnd.toRG, AtomFn.code, AtomTy.code, Space.acode, aspaceOf, atWide, atomFnOf, atomTyOf] at h ⊢
theorem XaddOp.ofRG_toRG (o : XaddOp) : XaddOp.ofRG o.toRG = some o := by
  obtain ⟨ty, chip, a, b⟩ := o
  cases ty <;> cases chip <;> simp [XaddOp.ofRG, XaddOp.toRG, XTy.code, chipOf, encChip, xtyOf]
theorem XreadOp.ofRG_toRG (o : XreadOp) : XreadOp.ofRG o.toRG = some o := by
  obtain ⟨wide, chip, d, a⟩ := o
  cases chip <;> simp [XreadOp.ofRG, XreadOp.toRG, chipOf, encChip]
theorem GlazeOp.ofRG_toRG (o : GlazeOp) : GlazeOp.ofRG o.toRG = some o := by
  obtain ⟨chip, nt, d, a, b, c⟩ := o
  cases chip <;> cases nt <;> simp [GlazeOp.ofRG, GlazeOp.toRG, chipOf, encChip]
theorem GlzinsOp.ofRG_toRG (o : GlzinsOp) : GlzinsOp.ofRG o.toRG = some o := by
  obtain ⟨d, a, c⟩ := o
  simp [GlzinsOp.ofRG, GlzinsOp.toRG]
theorem GlzqOp.ofRG_toRG (o : GlzqOp) : GlzqOp.ofRG o.toRG = some o := by
  obtain ⟨d, c⟩ := o
  simp [GlzqOp.ofRG, GlzqOp.toRG]
theorem BariOp.ofRG_toRG (o : BariOp) (h : o.space ≠ .lane) : BariOp.ofRG o.toRG = some o := by
  obtain ⟨space, scope, d, a, b, c⟩ := o
  cases space <;> cases scope <;> simp [BariOp.ofRG, BariOp.toRG, BScope.code, Space.acode, aspaceOf, bscopeOf] at h ⊢
theorem BaraOp.ofRG_toRG (o : BaraOp) (h : o.space ≠ .lane) : BaraOp.ofRG o.toRG = some o := by
  obtain ⟨space, ret, a, cnt⟩ := o
  cases space <;> cases ret <;> cases cnt <;> simp [BaraOp.ofRG, BaraOp.toRG, Space.acode, aspaceOf] at h ⊢
theorem BarwOp.ofRG_toRG (o : BarwOp) (h : o.space ≠ .lane) : BarwOp.ofRG o.toRG = some o := by
  obtain ⟨space, d, a, b⟩ := o
  cases space <;> simp [BarwOp.ofRG, BarwOp.toRG, Space.acode, aspaceOf] at h ⊢
theorem BartPOp.ofRG_toRG (o : BartPOp) (h : o.space ≠ .lane) : BartPOp.ofRG o.toRG = some o := by
  obtain ⟨space, d, a⟩ := o
  cases space <;> simp [BartPOp.ofRG, BartPOp.toRG, Space.acode, aspaceOf] at h ⊢
theorem BarpOp.ofRG_toRG (o : BarpOp) (h : o.space ≠ .lane) : BarpOp.ofRG o.toRG = some o := by
  obtain ⟨space, a⟩ := o
  cases space <;> simp [BarpOp.ofRG, BarpOp.toRG, Space.acode, aspaceOf] at h ⊢
theorem QcfgSet.ofRG_toRG (o : QcfgSet) : QcfgSet.ofRG o.toRG = some o := by
  obtain ⟨q, a⟩ := o
  simp [QcfgSet.ofRG, QcfgSet.toRG] <;> omega
theorem QcfgGrant.ofRG_toRG (o : QcfgGrant) : QcfgGrant.ofRG o.toRG = some o := by
  obtain ⟨q, b⟩ := o
  simp [QcfgGrant.ofRG, QcfgGrant.toRG] <;> omega
theorem QcfgStat.ofRG_toRG (o : QcfgStat) : QcfgStat.ofRG o.toRG = some o := by
  obtain ⟨q, d⟩ := o
  simp [QcfgStat.ofRG, QcfgStat.toRG] <;> omega
theorem QueueOp.ofPush_toPush (o : QueueOp) : QueueOp.ofPush o.toPush = some o := by
  obtain ⟨q, v⟩ := o
  simp [QueueOp.ofPush, QueueOp.toPush] <;> omega
theorem QueueOp.ofPop_toPop (o : QueueOp) : QueueOp.ofPop o.toPop = some o := by
  obtain ⟨q, v⟩ := o
  simp [QueueOp.ofPop, QueueOp.toPop] <;> omega
theorem QtryOp.ofRG_toRG (o : QtryOp) : QtryOp.ofRG o.toRG = some o := by
  obtain ⟨q, d, p⟩ := o
  simp [QtryOp.ofRG, QtryOp.toRG] <;> omega
theorem SqOp.ofRG_toRG (o : SqOp) : SqOp.ofRG o.toRG = some o := by
  obtain ⟨scope, wide, a, b⟩ := o
  cases scope <;> simp [SqOp.ofRG, SqOp.toRG, Scope.code, scopeOf]
theorem SqrdOp.ofRG_toRG (o : SqrdOp) : SqrdOp.ofRG o.toRG = some o := by
  obtain ⟨scope, d, a⟩ := o
  cases scope <;> simp [SqrdOp.ofRG, SqrdOp.toRG, Scope.code, scopeOf]
/-- The X byte of R227 holds SIZE and the two spaces. -/
theorem CplOp.fields : ∀ (size : Fin 4) (dsp ssp : Space),
    mk4 ((size.val + 4 * dsp.ccode + 32 * ssp.ccode) % 256) = size ∧
    cspaceOf ((size.val + 4 * dsp.ccode + 32 * ssp.ccode) % 256 / 4 % 8) = some dsp ∧
    cspaceOf ((size.val + 4 * dsp.ccode + 32 * ssp.ccode) % 256 / 32) = some ssp := by
  intro size dsp ssp
  cases dsp <;> cases ssp <;> revert size <;> decide
theorem CplOp.ofRG_toRG (o : CplOp) : CplOp.ofRG o.toRG = some o := by
  obtain ⟨size, dsp, ssp, d, a, b⟩ := o
  have h := CplOp.fields size dsp ssp
  simp only [CplOp.ofRG, CplOp.toRG, mkX_val] at h ⊢
  simp [h]
theorem CptOp.ofRG_toRG (o : CptOp) : CptOp.ofRG o.toRG = some o := by
  obtain ⟨slot, st, bar, post, d, a, b⟩ := o
  cases st <;> cases bar <;> cases post <;> simp [CptOp.ofRG, CptOp.toRG, Fin.ext_iff, slotOf] <;> omega
theorem CpmOp.ofRG_toRG (o : CpmOp) : CpmOp.ofRG o.toRG = some o := by
  obtain ⟨slot, bar, post, d, a, b, c⟩ := o
  cases bar <;> cases post <;> simp [CpmOp.ofRG, CpmOp.toRG, Fin.ext_iff, slotOf] <;> omega
theorem ChkwOp.ofRG_toRG (o : ChkwOp) : ChkwOp.ofRG o.toRG = some o := by
  obtain ⟨a, b⟩ := o
  simp [ChkwOp.ofRG, ChkwOp.toRG]
theorem ChktOp.ofRG_toRG (o : ChktOp) : ChktOp.ofRG o.toRG = some o := by
  obtain ⟨d, a, b⟩ := o
  simp [ChktOp.ofRG, ChktOp.toRG]
theorem TloadOp.ofRG_toRG (o : TloadOp) : TloadOp.ofRG o.toRG = some o := by
  obtain ⟨slot, a⟩ := o
  simp [TloadOp.ofRG, TloadOp.toRG, Fin.ext_iff, slotOf] <;> omega
/-- The X byte of R258 and R260 holds N and two bits. -/
theorem MmldOp.fields (n : Fin 32) (p q : Bool) :
    (n.val + 32 * b2n p + 64 * b2n q) % 256 < 128 ∧ slotOf (mkX (n.val + 32 * b2n p + 64 * b2n q)) = n ∧
    xbit ((n.val + 32 * b2n p + 64 * b2n q) % 256) 5 = p ∧ xbit ((n.val + 32 * b2n p + 64 * b2n q) % 256) 6 = q := by
  cases p <;> cases q <;> revert n <;> decide
theorem MmldOp.ofRG_toRG (o : MmldOp) : MmldOp.ofRG o.toRG = some o := by
  obtain ⟨n, pair, a, b, ew⟩ := o
  have h := MmldOp.fields n pair ew.isSome
  simp only [MmldOp.ofRG, MmldOp.toRG, mkX_val] at h ⊢
  simp [-xbit_eq, h]
theorem MmstOp.ofRG_toRG (o : MmstOp) : MmstOp.ofRG o.toRG = some o := by
  obtain ⟨n, mem, a, b, bar⟩ := o
  have h := MmldOp.fields n mem bar.isSome
  simp only [MmstOp.ofRG, MmstOp.toRG, mkX_val] at h ⊢
  simp [-xbit_eq, h]
theorem MmrdOp.ofRG_toRG (o : MmrdOp) : MmrdOp.ofRG o.toRG = some o := by
  obtain ⟨n, nw, d, b⟩ := o
  simp [MmrdOp.ofRG, MmrdOp.toRG, Fin.ext_iff, slotOf] <;> omega
theorem MmstatOp.ofRG_toRG (o : MmstatOp) : MmstatOp.ofRG o.toRG = some o := by
  obtain ⟨clr, d⟩ := o
  cases clr <;> simp [MmstatOp.ofRG, MmstatOp.toRG]
theorem AttrOp.ofRG_toRG (o : AttrOp) : AttrOp.ofRG o.toRG = some o := by
  obtain ⟨deriv, d, b⟩ := o
  cases deriv <;> simp [AttrOp.ofRG, AttrOp.toRG]
theorem FlcfgSet.ofRG_toRG (o : FlcfgSet) : FlcfgSet.ofRG o.toRG = some o := by
  obtain ⟨slot, mem, a⟩ := o
  cases mem <;> simp [FlcfgSet.ofRG, FlcfgSet.toRG, Fin.ext_iff] <;> omega
/-- The X byte of R310 of a pixel form holds SLOT, PX and SRC. -/
theorem FlinsOp.fields (slot : Fin 4) (c : FlSrc) :
    (slot.val + 4 + 8 * c.code) % 256 < 32 ∧ xbit ((slot.val + 4 + 8 * c.code) % 256) 2 = true ∧
    flSrcOf ((slot.val + 4 + 8 * c.code) % 256 / 8) = some c ∧ mk4 ((slot.val + 4 + 8 * c.code) % 256) = slot := by
  cases c <;> revert slot <;> decide
theorem FlinsOp.fieldsPlain (slot : Fin 4) :
    slot.val % 256 < 32 ∧ xbit (slot.val % 256) 2 = false ∧ slot.val % 256 < 8 ∧ mk4 (slot.val % 256) = slot := by
  revert slot; decide
theorem FlinsOp.ofRG_toRG (o : FlinsOp) : FlinsOp.ofRG o.toRG = some o := by
  obtain ⟨slot, px, d, a, b⟩ := o
  rcases px with _ | ⟨c, x⟩
  · have h := FlinsOp.fieldsPlain slot
    simp only [FlinsOp.ofRG, FlinsOp.toRG, mkX_val]
    simp [-xbit_eq, h]
  · have h := FlinsOp.fields slot c
    simp only [FlinsOp.ofRG, FlinsOp.toRG, mkX_val]
    simp [-xbit_eq, h]
theorem FlrdOp.ofRG_toRG (o : FlrdOp) : FlrdOp.ofRG o.toRG = some o := by
  obtain ⟨slot, d, a, b⟩ := o
  simp [FlrdOp.ofRG, FlrdOp.toRG, Fin.ext_iff] <;> omega
theorem RayOp.ofRG_toRG (o : RayOp) : RayOp.ofRG o.toRG = some o := by
  obtain ⟨core, d, a, b⟩ := o
  cases core <;> simp [RayOp.ofRG, RayOp.toRG]
theorem WgemitOp.ofRG_toRG (o : WgemitOp) : WgemitOp.ofRG o.toRG = some o := by
  obtain ⟨lane, a, b⟩ := o
  cases lane <;> simp [WgemitOp.ofRG, WgemitOp.toRG]
theorem HandleOp.ofRG_toRG (o : HandleOp) : HandleOp.ofRG o.toRG = some o := by
  obtain ⟨d, a⟩ := o
  simp [HandleOp.ofRG, HandleOp.toRG]
theorem DqpopOp.ofRG_toRG (o : DqpopOp) : DqpopOp.ofRG o.toRG = some o := by
  obtain ⟨d, p⟩ := o
  simp [DqpopOp.ofRG, DqpopOp.toRG]
theorem DqstealOp.ofRG_toRG (o : DqstealOp) : DqstealOp.ofRG o.toRG = some o := by
  obtain ⟨victim, d, p⟩ := o
  cases victim <;> simp [DqstealOp.ofRG, DqstealOp.toRG]
theorem QuiesceArm.ofRG_toRG (o : QuiesceArm) : QuiesceArm.ofRG o.toRG = some o := by
  obtain ⟨a, b, c⟩ := o
  simp [QuiesceArm.ofRG, QuiesceArm.toRG]
theorem QuiesceRd.ofRG_toRG (o : QuiesceRd) : QuiesceRd.ofRG o.toRG = some o := by
  obtain ⟨d, a⟩ := o
  simp [QuiesceRd.ofRG, QuiesceRd.toRG]
theorem SrdOp.ofRG_toRG (o : SrdOp) : SrdOp.ofRG o.toRG = some o := by
  obtain ⟨wide, num, tgt, d⟩ := o
  cases tgt <;> simp [SrdOp.ofRG, SrdOp.toRG, Fin.ext_iff] <;> omega
theorem SwrOp.ofRG_toRG (o : SwrOp) : SwrOp.ofRG o.toRG = some o := by
  obtain ⟨wide, num, tgt, a⟩ := o
  cases tgt <;> simp [SwrOp.ofRG, SwrOp.toRG, Fin.ext_iff] <;> omega
theorem ResumeOp.ofRG_toRG (o : ResumeOp) : ResumeOp.ofRG o.toRG = some o := by
  obtain ⟨a, b⟩ := o
  simp [ResumeOp.ofRG, ResumeOp.toRG]
theorem ConesetOp.ofRG_toRG (o : ConesetOp) : ConesetOp.ofRG o.toRG = some o := by
  obtain ⟨n, d, a, b, c⟩ := o
  simp [ConesetOp.ofRG, ConesetOp.toRG, Fin.ext_iff] <;> omega
theorem InsprOp.ofRG_toRG (o : InsprOp) : InsprOp.ofRG o.toRG = some o := by
  obtain ⟨wide, d, a, b, p⟩ := o
  simp [InsprOp.ofRG, InsprOp.toRG]
theorem InspwOp.ofRG_toRG (o : InspwOp) : InspwOp.ofRG o.toRG = some o := by
  obtain ⟨wide, d, a, b, c⟩ := o
  simp [InspwOp.ofRG, InspwOp.toRG]
theorem StepOp.ofRG_toRG (o : StepOp) : StepOp.ofRG o.toRG = some o := by
  obtain ⟨d, a⟩ := o
  simp [StepOp.ofRG, StepOp.toRG]
theorem IprefOp.ofBF_toBF (o : IprefOp) : IprefOp.ofBF o.toBF = some o := by
  obtain ⟨n, tgt⟩ := o
  simp [IprefOp.ofBF, IprefOp.toBF] <;> omega

theorem XclrOp.ofRG_toRG (l : Nat) (hl : l < 64) (o : XclrOp) : XclrOp.ofRG l (o.toRG l) = some o := by
  obtain ⟨chip, a⟩ := o
  cases chip <;> simp [XclrOp.ofRG, XclrOp.toRG, encChip, chipOf]
  · have h1 : l % 256 / 64 = 0 := by omega
    simp [h1]; omega
  · have h1 : (l + 192) % 256 / 64 = 3 := by omega
    simp [h1]; omega
theorem FlresOp.ofRG_toRG (c : Nat) (hc : c < 64) (o : FlresOp) : FlresOp.ofRG c (o.toRG c) = some o := by
  obtain ⟨slot, d, a⟩ := o
  simp [FlresOp.ofRG, FlresOp.toRG, Fin.ext_iff]
  omega
theorem flushOf_encFlush (sx : Bool) (w : Fin 4) (o : FlushOp) : flushOf (encFlush sx w o) = some o := by
  simp [flushOf, encFlush]
theorem qcfgOffOf_enc (q : Fin 32) : qcfgOffOf (encQcfgOff q) = some q := by
  simp [qcfgOffOf, encQcfgOff] <;> rfl
@[simp] theorem onlyX_encX (n : Nat) : onlyX (encX n) = some (mkX n) := by simp [onlyX, encX]
theorem onlyA_encA (s : Src) : onlyA (encA s) = some s := by simp [onlyA, encA]
theorem MmzeroOp.fields (n : Fin 32) (p : Bool) :
    (n.val + 32 * b2n p) % 256 < 64 ∧ slotOf (mkX (n.val + 32 * b2n p)) = n ∧
    xbit ((n.val + 32 * b2n p) % 256) 5 = p := by
  cases p <;> revert n <;> decide
theorem mmzeroOf_enc (o : MmzeroOp) : mmzeroOf (encMmzero o) = some o := by
  obtain ⟨n, pair⟩ := o
  have h := MmzeroOp.fields n pair
  simp [-xbit_eq, mmzeroOf, encMmzero, h]
theorem mmwakeOf_enc (m : Fin 16) : mmwakeOf (encX m.val) = some m := by
  have h : m.val % 256 = m.val := by omega
  simp [mmwakeOf, h]
theorem flcfgSlot_enc (sub : Nat) (h : sub < 64) (n : Fin 4) : flcfgSlot sub (encX (n.val + 4 * sub)) = some n := by
  have h1 : (n.val + 4 * sub) % 256 / 4 = sub := by omega
  have h2 : mk4 ((n.val + 4 * sub) % 256) = n := Fin.ext (by rw [mk4_val]; omega)
  simp [flcfgSlot, h1] at h2 ⊢
  exact h2
theorem tagOf_encTag (t : BitVec 12) : tagOf (encTag t) = some t := by
  have h : t.toNat % 4294967296 = t.toNat := by omega
  simp [tagOf, encTag, h]; omega

end Sys2Proof
end

