-- ==== Sys2Proof/Laws/Dispatch.lean ====
section
/-! SUPPORT. Each arm of the dispatcher by name. -/

namespace Sys2Proof.Machine
open Sys2Proof

@[simp] theorem exec_nop (c : Common) (imm : BitVec 32) (s : State) : exec (.nop c imm) s = execNop c imm s := rfl
@[simp] theorem exec_bra (c : Common) (tgt : BitVec 32) (s : State) : exec (.bra c tgt) s = execBra c tgt s := rfl
@[simp] theorem exec_brx (c : Common) (reg : VReg) (tag : BitVec 12) (s : State) : exec (.brx c reg tag) s = execBrx c reg tag s := rfl
@[simp] theorem exec_call (c : Common) (reg : VReg) (tgt : BitVec 32) (s : State) : exec (.call c reg tgt) s = execCall c reg tgt s := rfl
@[simp] theorem exec_callx (c : Common) (reg : VReg) (tag : BitVec 12) (s : State) : exec (.callx c reg tag) s = execCallx c reg tag s := rfl
@[simp] theorem exec_ret (c : Common) (reg : VReg) (s : State) : exec (.ret c reg) s = execRet c reg s := rfl
@[simp] theorem exec_retChecked (c : Common) (reg : VReg) (tag : BitVec 12) (s : State) : exec (.retChecked c reg tag) s = execRetChecked c reg tag s := rfl
@[simp] theorem exec_jinitLive (c : Common) (j : Fin 16) (s : State) : exec (.jinitLive c j) s = execJinitLive c j s := rfl
@[simp] theorem exec_jinitSelf (c : Common) (j : Fin 16) (s : State) : exec (.jinitSelf c j) s = execJinitSelf c j s := rfl
@[simp] theorem exec_jinitClear (c : Common) (j : Fin 16) (s : State) : exec (.jinitClear c j) s = execJinitClear c j s := rfl
@[simp] theorem exec_jinitK (c : Common) (j : Fin 16) (k : KReg) (s : State) : exec (.jinitK c j k) s = execJinitK c j k s := rfl
@[simp] theorem exec_join (c : Common) (j : Fin 16) (s : State) : exec (.join c j) s = execJoin c j s := rfl
@[simp] theorem exec_jleave (c : Common) (j : Fin 16) (s : State) : exec (.jleave c j) s = execJleave c j s := rfl
@[simp] theorem exec_jtest (c : Common) (kind : JtestKind) (j : Fin 16) (p : PReg) (s : State) : exec (.jtest c kind j p) s = execJtest c kind j p s := rfl
@[simp] theorem exec_exit (c : Common) (s : State) : exec (.exit c) s = execExit c s := rfl
@[simp] theorem exec_yield (c : Common) (n : BitVec 12) (s : State) : exec (.yield c n) s = execYield c n s := rfl
@[simp] theorem exec_iadd (c : Common) (o : IntBin) (s : State) : exec (.iadd c o) s = execIadd c o s := rfl
@[simp] theorem exec_isub (c : Common) (o : IntBin) (s : State) : exec (.isub c o) s = execIsub c o s := rfl
@[simp] theorem exec_imul (c : Common) (o : IntBin) (s : State) : exec (.imul c o) s = execImul c o s := rfl
@[simp] theorem exec_imulh (c : Common) (o : IntBin) (s : State) : exec (.imulh c o) s = execImulh c o s := rfl
@[simp] theorem exec_imad (c : Common) (o : IntTri) (s : State) : exec (.imad c o) s = execImad c o s := rfl
@[simp] theorem exec_imadw (c : Common) (o : IntTri) (s : State) : exec (.imadw c o) s = execImadw c o s := rfl
@[simp] theorem exec_iabs (c : Common) (o : IabsOp) (s : State) : exec (.iabs c o) s = execIabs c o s := rfl
@[simp] theorem exec_imin (c : Common) (o : IntBin) (s : State) : exec (.imin c o) s = execImin c o s := rfl
@[simp] theorem exec_imax (c : Common) (o : IntBin) (s : State) : exec (.imax c o) s = execImax c o s := rfl
@[simp] theorem exec_and (c : Common) (o : LogBin) (s : State) : exec (.and c o) s = execAnd c o s := rfl
@[simp] theorem exec_or (c : Common) (o : LogBin) (s : State) : exec (.or c o) s = execOr c o s := rfl
@[simp] theorem exec_xor (c : Common) (o : LogBin) (s : State) : exec (.xor c o) s = execXor c o s := rfl
@[simp] theorem exec_shl (c : Common) (o : FlagBin) (s : State) : exec (.shl c o) s = execShl c o s := rfl
@[simp] theorem exec_shr (c : Common) (o : FlagBin) (s : State) : exec (.shr c o) s = execShr c o s := rfl
@[simp] theorem exec_sar (c : Common) (o : FlagBin) (s : State) : exec (.sar c o) s = execSar c o s := rfl
@[simp] theorem exec_bfe (c : Common) (o : FlagBin) (s : State) : exec (.bfe c o) s = execBfe c o s := rfl
@[simp] theorem exec_bfi (c : Common) (o : BfiOp) (s : State) : exec (.bfi c o) s = execBfi c o s := rfl
@[simp] theorem exec_popc (c : Common) (o : UnOp) (s : State) : exec (.popc c o) s = execPopc c o s := rfl
@[simp] theorem exec_clz (c : Common) (o : UnOp) (s : State) : exec (.clz c o) s = execClz c o s := rfl
@[simp] theorem exec_brev (c : Common) (o : UnOp) (s : State) : exec (.brev c o) s = execBrev c o s := rfl
@[simp] theorem exec_icmp (c : Common) (o : IcmpOp) (s : State) : exec (.icmp c o) s = execIcmp c o s := rfl
@[simp] theorem exec_sel (c : Common) (o : SelOp) (s : State) : exec (.sel c o) s = execSel c o s := rfl
@[simp] theorem exec_mov (c : Common) (o : UnOp) (s : State) : exec (.mov c o) s = execMov c o s := rfl
@[simp] theorem exec_movi (c : Common) (o : MoviOp) (s : State) : exec (.movi c o) s = execMovi c o s := rfl
@[simp] theorem exec_lea (c : Common) (o : LeaOp) (s : State) : exec (.lea c o) s = execLea c o s := rfl
@[simp] theorem exec_plop (c : Common) (o : PlopOp) (s : State) : exec (.plop c o) s = execPlop c o s := rfl
@[simp] theorem exec_smovRead (c : Common) (o : SmovRead) (s : State) : exec (.smovRead c o) s = execSmovRead c o s := rfl
@[simp] theorem exec_smovWrite (c : Common) (o : SmovWrite) (s : State) : exec (.smovWrite c o) s = execSmovWrite c o s := rfl
@[simp] theorem exec_kmovToK (c : Common) (o : KmovOp) (s : State) : exec (.kmovToK c o) s = execKmovToK c o s := rfl
@[simp] theorem exec_kmovFromK (c : Common) (o : KmovOp) (s : State) : exec (.kmovFromK c o) s = execKmovFromK c o s := rfl
@[simp] theorem exec_elect (c : Common) (o : ElectOp) (s : State) : exec (.elect c o) s = execElect c o s := rfl
@[simp] theorem exec_iaddi (c : Common) (o : IaddiOp) (s : State) : exec (.iaddi c o) s = execIaddi c o s := rfl
@[simp] theorem exec_lopi (c : Common) (o : LopiOp) (s : State) : exec (.lopi c o) s = execLopi c o s := rfl
@[simp] theorem exec_fadd (c : Common) (o : FpBin) (s : State) : exec (.fadd c o) s = execFadd c o s := rfl
@[simp] theorem exec_fsub (c : Common) (o : FpBin) (s : State) : exec (.fsub c o) s = execFsub c o s := rfl
@[simp] theorem exec_fmul (c : Common) (o : FpBin) (s : State) : exec (.fmul c o) s = execFmul c o s := rfl
@[simp] theorem exec_ffma (c : Common) (o : FpTri) (s : State) : exec (.ffma c o) s = execFfma c o s := rfl
@[simp] theorem exec_fmin (c : Common) (o : FpBin) (s : State) : exec (.fmin c o) s = execFmin c o s := rfl
@[simp] theorem exec_fmax (c : Common) (o : FpBin) (s : State) : exec (.fmax c o) s = execFmax c o s := rfl
@[simp] theorem exec_fcmp (c : Common) (o : FcmpOp) (s : State) : exec (.fcmp c o) s = execFcmp c o s := rfl
@[simp] theorem exec_frcp (c : Common) (o : FpUn) (s : State) : exec (.frcp c o) s = execFrcp c o s := rfl
@[simp] theorem exec_fsqrt (c : Common) (o : FpUn) (s : State) : exec (.fsqrt c o) s = execFsqrt c o s := rfl
@[simp] theorem exec_frsq (c : Common) (o : FpUn) (s : State) : exec (.frsq c o) s = execFrsq c o s := rfl
@[simp] theorem exec_fexp2 (c : Common) (o : FpUn) (s : State) : exec (.fexp2 c o) s = execFexp2 c o s := rfl
@[simp] theorem exec_flog2 (c : Common) (o : FpUn) (s : State) : exec (.flog2 c o) s = execFlog2 c o s := rfl
@[simp] theorem exec_fsin (c : Common) (o : FpUn) (s : State) : exec (.fsin c o) s = execFsin c o s := rfl
@[simp] theorem exec_fcos (c : Common) (o : FpUn) (s : State) : exec (.fcos c o) s = execFcos c o s := rfl
@[simp] theorem exec_frnd (c : Common) (o : FpUn) (s : State) : exec (.frnd c o) s = execFrnd c o s := rfl
@[simp] theorem exec_fscl (c : Common) (o : FpBin) (s : State) : exec (.fscl c o) s = execFscl c o s := rfl
@[simp] theorem exec_fcls (c : Common) (o : FclsOp) (s : State) : exec (.fcls c o) s = execFcls c o s := rfl
@[simp] theorem exec_fcvt (c : Common) (o : FcvtOp) (s : State) : exec (.fcvt c o) s = execFcvt c o s := rfl
@[simp] theorem exec_f2i (c : Common) (o : CvtIntOp) (s : State) : exec (.f2i c o) s = execF2i c o s := rfl
@[simp] theorem exec_i2f (c : Common) (o : CvtIntOp) (s : State) : exec (.i2f c o) s = execI2f c o s := rfl
@[simp] theorem exec_fdot (c : Common) (o : FdotOp) (s : State) : exec (.fdot c o) s = execFdot c o s := rfl
@[simp] theorem exec_bqntScale (c : Common) (o : BqntScale) (s : State) : exec (.bqntScale c o) s = execBqntScale c o s := rfl
@[simp] theorem exec_bqntElement (c : Common) (o : BqntElem) (s : State) : exec (.bqntElement c o) s = execBqntElement c o s := rfl
@[simp] theorem exec_bdq (c : Common) (o : BdqOp) (s : State) : exec (.bdq c o) s = execBdq c o s := rfl
@[simp] theorem exec_shfl (c : Common) (o : ShflOp) (s : State) : exec (.shfl c o) s = execShfl c o s := rfl
@[simp] theorem exec_vote (c : Common) (o : VoteOp) (s : State) : exec (.vote c o) s = execVote c o s := rfl
@[simp] theorem exec_lred (c : Common) (o : FoldOp) (s : State) : exec (.lred c o) s = execLred c o s := rfl
@[simp] theorem exec_lscan (c : Common) (o : FoldOp) (s : State) : exec (.lscan c o) s = execLscan c o s := rfl
@[simp] theorem exec_matchLanes (c : Common) (o : MatchOp) (s : State) : exec (.matchLanes c o) s = execMatchLanes c o s := rfl
@[simp] theorem exec_ld (c : Common) (o : LdOp) (s : State) : exec (.ld c o) s = execLd c o s := rfl
@[simp] theorem exec_st (c : Common) (o : StOp) (s : State) : exec (.st c o) s = execSt c o s := rfl
@[simp] theorem exec_stt (c : Common) (o : StOp) (s : State) : exec (.stt c o) s = execStt c o s := rfl
@[simp] theorem exec_pref (c : Common) (o : PrefOp) (s : State) : exec (.pref c o) s = execPref c o s := rfl
@[simp] theorem exec_ipref (c : Common) (o : IprefOp) (s : State) : exec (.ipref c o) s = execIpref c o s := rfl
@[simp] theorem exec_ipin (c : Common) (o : IprefOp) (s : State) : exec (.ipin c o) s = execIpin c o s := rfl
@[simp] theorem exec_iunpin (c : Common) (o : IprefOp) (s : State) : exec (.iunpin c o) s = execIunpin c o s := rfl
@[simp] theorem exec_fenceRel (c : Common) (scope : Scope) (s : State) : exec (.fenceRel c scope) s = execFenceRel c scope s := rfl
@[simp] theorem exec_fenceAcq (c : Common) (scope : Scope) (s : State) : exec (.fenceAcq c scope) s = execFenceAcq c scope s := rfl
@[simp] theorem exec_fenceAr (c : Common) (scope : Scope) (s : State) : exec (.fenceAr c scope) s = execFenceAr c scope s := rfl
@[simp] theorem exec_cflushL1 (c : Common) (o : FlushOp) (s : State) : exec (.cflushL1 c o) s = execCflushL1 c o s := rfl
@[simp] theorem exec_cflushClean (c : Common) (o : FlushOp) (s : State) : exec (.cflushClean c o) s = execCflushClean c o s := rfl
@[simp] theorem exec_cflushInval (c : Common) (o : FlushOp) (s : State) : exec (.cflushInval c o) s = execCflushInval c o s := rfl
@[simp] theorem exec_cflushTlb (c : Common) (o : FlushOp) (s : State) : exec (.cflushTlb c o) s = execCflushTlb c o s := rfl
@[simp] theorem exec_cflushAsid (c : Common) (o : FlushOp) (s : State) : exec (.cflushAsid c o) s = execCflushAsid c o s := rfl
@[simp] theorem exec_cflushCtx (c : Common) (o : FlushOp) (s : State) : exec (.cflushCtx c o) s = execCflushCtx c o s := rfl
@[simp] theorem exec_feset (c : Common) (o : FeOp) (s : State) : exec (.feset c o) s = execFeset c o s := rfl
@[simp] theorem exec_feclr (c : Common) (o : FeOp) (s : State) : exec (.feclr c o) s = execFeclr c o s := rfl
@[simp] theorem exec_monitor (c : Common) (o : MonOp) (s : State) : exec (.monitor c o) s = execMonitor c o s := rfl
@[simp] theorem exec_waitm (c : Common) (s : State) : exec (.waitm c) s = execWaitm c s := rfl
@[simp] theorem exec_atom (c : Common) (o : AtomOp) (s : State) : exec (.atom c o) s = execAtom c o s := rfl
@[simp] theorem exec_atomcas (c : Common) (o : CasOp) (s : State) : exec (.atomcas c o) s = execAtomcas c o s := rfl
@[simp] theorem exec_red (c : Common) (o : RedOpnd) (s : State) : exec (.red c o) s = execRed c o s := rfl
@[simp] theorem exec_xadd (c : Common) (o : XaddOp) (s : State) : exec (.xadd c o) s = execXadd c o s := rfl
@[simp] theorem exec_xread (c : Common) (o : XreadOp) (s : State) : exec (.xread c o) s = execXread c o s := rfl
@[simp] theorem exec_xclr (c : Common) (o : XclrOp) (s : State) : exec (.xclr c o) s = execXclr c o s := rfl
@[simp] theorem exec_xclrLine (c : Common) (o : XclrOp) (s : State) : exec (.xclrLine c o) s = execXclrLine c o s := rfl
@[simp] theorem exec_glaze (c : Common) (o : GlazeOp) (s : State) : exec (.glaze c o) s = execGlaze c o s := rfl
@[simp] theorem exec_glzins (c : Common) (o : GlzinsOp) (s : State) : exec (.glzins c o) s = execGlzins c o s := rfl
@[simp] theorem exec_glzq (c : Common) (o : GlzqOp) (s : State) : exec (.glzq c o) s = execGlzq c o s := rfl
@[simp] theorem exec_bari (c : Common) (o : BariOp) (s : State) : exec (.bari c o) s = execBari c o s := rfl
@[simp] theorem exec_bara (c : Common) (o : BaraOp) (s : State) : exec (.bara c o) s = execBara c o s := rfl
@[simp] theorem exec_barw (c : Common) (o : BarwOp) (s : State) : exec (.barw c o) s = execBarw c o s := rfl
@[simp] theorem exec_bart (c : Common) (o : BarwOp) (s : State) : exec (.bart c o) s = execBart c o s := rfl
@[simp] theorem exec_bartPoison (c : Common) (o : BartPOp) (s : State) : exec (.bartPoison c o) s = execBartPoison c o s := rfl
@[simp] theorem exec_barp (c : Common) (o : BarpOp) (s : State) : exec (.barp c o) s = execBarp c o s := rfl
@[simp] theorem exec_qcfgSet (c : Common) (o : QcfgSet) (s : State) : exec (.qcfgSet c o) s = execQcfgSet c o s := rfl
@[simp] theorem exec_qcfgGrant (c : Common) (o : QcfgGrant) (s : State) : exec (.qcfgGrant c o) s = execQcfgGrant c o s := rfl
@[simp] theorem exec_qcfgStat (c : Common) (o : QcfgStat) (s : State) : exec (.qcfgStat c o) s = execQcfgStat c o s := rfl
@[simp] theorem exec_qcfgOff (c : Common) (q : Fin 32) (s : State) : exec (.qcfgOff c q) s = execQcfgOff c q s := rfl
@[simp] theorem exec_qpush (c : Common) (o : QueueOp) (s : State) : exec (.qpush c o) s = execQpush c o s := rfl
@[simp] theorem exec_qpop (c : Common) (o : QueueOp) (s : State) : exec (.qpop c o) s = execQpop c o s := rfl
@[simp] theorem exec_qtry (c : Common) (o : QtryOp) (s : State) : exec (.qtry c o) s = execQtry c o s := rfl
@[simp] theorem exec_sqadd (c : Common) (o : SqOp) (s : State) : exec (.sqadd c o) s = execSqadd c o s := rfl
@[simp] theorem exec_sqwait (c : Common) (o : SqOp) (s : State) : exec (.sqwait c o) s = execSqwait c o s := rfl
@[simp] theorem exec_sqrd (c : Common) (o : SqrdOp) (s : State) : exec (.sqrd c o) s = execSqrd c o s := rfl
@[simp] theorem exec_cpl (c : Common) (o : CplOp) (s : State) : exec (.cpl c o) s = execCpl c o s := rfl
@[simp] theorem exec_cpt (c : Common) (o : CptOp) (s : State) : exec (.cpt c o) s = execCpt c o s := rfl
@[simp] theorem exec_cpm (c : Common) (o : CpmOp) (s : State) : exec (.cpm c o) s = execCpm c o s := rfl
@[simp] theorem exec_cpg (c : Common) (o : CpmOp) (s : State) : exec (.cpg c o) s = execCpg c o s := rfl
@[simp] theorem exec_cpclose (c : Common) (s : State) : exec (.cpclose c) s = execCpclose c s := rfl
@[simp] theorem exec_cpwait (c : Common) (n : Fin 8) (s : State) : exec (.cpwait c n) s = execCpwait c n s := rfl
@[simp] theorem exec_chkw (c : Common) (o : ChkwOp) (s : State) : exec (.chkw c o) s = execChkw c o s := rfl
@[simp] theorem exec_chkt (c : Common) (o : ChktOp) (s : State) : exec (.chkt c o) s = execChkt c o s := rfl
@[simp] theorem exec_tload (c : Common) (o : TloadOp) (s : State) : exec (.tload c o) s = execTload c o s := rfl
@[simp] theorem exec_tevict (c : Common) (slot : Fin 32) (s : State) : exec (.tevict c slot) s = execTevict c slot s := rfl
@[simp] theorem exec_sort (c : Common) (a : Src) (s : State) : exec (.sort c a) s = execSort c a s := rfl
@[simp] theorem exec_mmx (c : Common) (a : Src) (s : State) : exec (.mmx c a) s = execMmx c a s := rfl
@[simp] theorem exec_mmzero (c : Common) (o : MmzeroOp) (s : State) : exec (.mmzero c o) s = execMmzero c o s := rfl
@[simp] theorem exec_mmld (c : Common) (o : MmldOp) (s : State) : exec (.mmld c o) s = execMmld c o s := rfl
@[simp] theorem exec_mmst (c : Common) (o : MmstOp) (s : State) : exec (.mmst c o) s = execMmst c o s := rfl
@[simp] theorem exec_mmrd (c : Common) (o : MmrdOp) (s : State) : exec (.mmrd c o) s = execMmrd c o s := rfl
@[simp] theorem exec_mmwake (c : Common) (mask : Fin 16) (s : State) : exec (.mmwake c mask) s = execMmwake c mask s := rfl
@[simp] theorem exec_mmstat (c : Common) (o : MmstatOp) (s : State) : exec (.mmstat c o) s = execMmstat c o s := rfl
@[simp] theorem exec_rast (c : Common) (a : Src) (s : State) : exec (.rast c a) s = execRast c a s := rfl
@[simp] theorem exec_attr (c : Common) (o : AttrOp) (s : State) : exec (.attr c o) s = execAttr c o s := rfl
@[simp] theorem exec_oenter (c : Common) (s : State) : exec (.oenter c) s = execOenter c s := rfl
@[simp] theorem exec_oleave (c : Common) (s : State) : exec (.oleave c) s = execOleave c s := rfl
@[simp] theorem exec_flcfgSet (c : Common) (o : FlcfgSet) (s : State) : exec (.flcfgSet c o) s = execFlcfgSet c o s := rfl
@[simp] theorem exec_flcfgGrow (c : Common) (slot : Fin 4) (s : State) : exec (.flcfgGrow c slot) s = execFlcfgGrow c slot s := rfl
@[simp] theorem exec_flcfgOff (c : Common) (slot : Fin 4) (s : State) : exec (.flcfgOff c slot) s = execFlcfgOff c slot s := rfl
@[simp] theorem exec_flins (c : Common) (o : FlinsOp) (s : State) : exec (.flins c o) s = execFlins c o s := rfl
@[simp] theorem exec_flres (c : Common) (o : FlresOp) (s : State) : exec (.flres c o) s = execFlres c o s := rfl
@[simp] theorem exec_flresClr (c : Common) (o : FlresOp) (s : State) : exec (.flresClr c o) s = execFlresClr c o s := rfl
@[simp] theorem exec_flrd (c : Common) (o : FlrdOp) (s : State) : exec (.flrd c o) s = execFlrd c o s := rfl
@[simp] theorem exec_splat (c : Common) (a : Src) (s : State) : exec (.splat c a) s = execSplat c a s := rfl
@[simp] theorem exec_raybox (c : Common) (o : RayOp) (s : State) : exec (.raybox c o) s = execRaybox c o s := rfl
@[simp] theorem exec_raytri (c : Common) (o : RayOp) (s : State) : exec (.raytri c o) s = execRaytri c o s := rfl
@[simp] theorem exec_launch (c : Common) (a : Src) (s : State) : exec (.launch c a) s = execLaunch c a s := rfl
@[simp] theorem exec_wgemit (c : Common) (o : WgemitOp) (s : State) : exec (.wgemit c o) s = execWgemit c o s := rfl
@[simp] theorem exec_wgdone (c : Common) (o : HandleOp) (s : State) : exec (.wgdone c o) s = execWgdone c o s := rfl
@[simp] theorem exec_dqpush (c : Common) (o : HandleOp) (s : State) : exec (.dqpush c o) s = execDqpush c o s := rfl
@[simp] theorem exec_dqpop (c : Common) (o : DqpopOp) (s : State) : exec (.dqpop c o) s = execDqpop c o s := rfl
@[simp] theorem exec_dqsteal (c : Common) (o : DqstealOp) (s : State) : exec (.dqsteal c o) s = execDqsteal c o s := rfl
@[simp] theorem exec_quiesceArm (c : Common) (o : QuiesceArm) (s : State) : exec (.quiesceArm c o) s = execQuiesceArm c o s := rfl
@[simp] theorem exec_quiesceRd (c : Common) (o : QuiesceRd) (s : State) : exec (.quiesceRd c o) s = execQuiesceRd c o s := rfl
@[simp] theorem exec_trap (c : Common) (o : TrapOp) (s : State) : exec (.trap c o) s = execTrap c o s := rfl
@[simp] theorem exec_srd (c : Common) (o : SrdOp) (s : State) : exec (.srd c o) s = execSrd c o s := rfl
@[simp] theorem exec_swr (c : Common) (o : SwrOp) (s : State) : exec (.swr c o) s = execSwr c o s := rfl
@[simp] theorem exec_cont (c : Common) (tgt : BitVec 32) (s : State) : exec (.cont c tgt) s = execCont c tgt s := rfl
@[simp] theorem exec_contOff (c : Common) (s : State) : exec (.contOff c) s = execContOff c s := rfl
@[simp] theorem exec_resumeSvc (c : Common) (s : State) : exec (.resumeSvc c) s = execResumeSvc c s := rfl
@[simp] theorem exec_resume (c : Common) (o : ResumeOp) (s : State) : exec (.resume c o) s = execResume c o s := rfl
@[simp] theorem exec_tretRec (c : Common) (s : State) : exec (.tretRec c) s = execTretRec c s := rfl
@[simp] theorem exec_tretNext (c : Common) (s : State) : exec (.tretNext c) s = execTretNext c s := rfl
@[simp] theorem exec_tretKill (c : Common) (s : State) : exec (.tretKill c) s = execTretKill c s := rfl
@[simp] theorem exec_tretTerm (c : Common) (imm : BitVec 32) (s : State) : exec (.tretTerm c imm) s = execTretTerm c imm s := rfl
@[simp] theorem exec_coneset (c : Common) (o : ConesetOp) (s : State) : exec (.coneset c o) s = execConeset c o s := rfl
@[simp] theorem exec_coneclr (c : Common) (n : Fin 16) (s : State) : exec (.coneclr c n) s = execConeclr c n s := rfl
@[simp] theorem exec_coneclrRec (c : Common) (n : Fin 16) (s : State) : exec (.coneclrRec c n) s = execConeclrRec c n s := rfl
@[simp] theorem exec_coneclrAll (c : Common) (rec : Bool) (s : State) : exec (.coneclrAll c rec) s = execConeclrAll c rec s := rfl
@[simp] theorem exec_haltSelf (c : Common) (s : State) : exec (.haltSelf c) s = execHaltSelf c s := rfl
@[simp] theorem exec_haltCrew (c : Common) (s : State) : exec (.haltCrew c) s = execHaltCrew c s := rfl
@[simp] theorem exec_haltTeam (c : Common) (s : State) : exec (.haltTeam c) s = execHaltTeam c s := rfl
@[simp] theorem exec_haltThr (c : Common) (o : HaltSel) (s : State) : exec (.haltThr c o) s = execHaltThr c o s := rfl
@[simp] theorem exec_haltRel (c : Common) (o : RelSel) (s : State) : exec (.haltRel c o) s = execHaltRel c o s := rfl
@[simp] theorem exec_inspr (c : Common) (o : InsprOp) (s : State) : exec (.inspr c o) s = execInspr c o s := rfl
@[simp] theorem exec_inspw (c : Common) (o : InspwOp) (s : State) : exec (.inspw c o) s = execInspw c o s := rfl
@[simp] theorem exec_step (c : Common) (o : StepOp) (s : State) : exec (.step c o) s = execStep c o s := rfl
@[simp] theorem exec_tmark (c : Common) (o : TmarkOp) (s : State) : exec (.tmark c o) s = execTmark c o s := rfl
@[simp] theorem exec_ill (imm : BitVec 32) (s : State) : exec (.ill imm) s = execIll imm s := rfl
@[simp] theorem exec_clauseIssue (o : ClauseIssueOp) (s : State) : exec (.clauseIssue o) s = execClauseIssue o s := rfl
@[simp] theorem exec_flaggedCompletion (o : PerformOp) (s : State) : exec (.flaggedCompletion o) s = execFlaggedCompletion o s := rfl
@[simp] theorem exec_lateFaultTaken (o : ThRef) (s : State) : exec (.lateFaultTaken o) s = execLateFaultTaken o s := rfl
@[simp] theorem exec_holdSlotGrant (core : Fin 96) (s : State) : exec (.holdSlotGrant core) s = execHoldSlotGrant core s := rfl
@[simp] theorem exec_yieldPauseEnd (o : ThRef) (s : State) : exec (.yieldPauseEnd o) s = execYieldPauseEnd o s := rfl
@[simp] theorem exec_waitingInstructionComplete (o : PendRef) (s : State) : exec (.waitingInstructionComplete o) s = execWaitingInstructionComplete o s := rfl
@[simp] theorem exec_orderPointWrite (o : PerformOp) (s : State) : exec (.orderPointWrite o) s = execOrderPointWrite o s := rfl
@[simp] theorem exec_pageWalkComplete (o : WalkOp) (s : State) : exec (.pageWalkComplete o) s = execPageWalkComplete o s := rfl
@[simp] theorem exec_lineCheckout (o : LineOp) (s : State) : exec (.lineCheckout o) s = execLineCheckout o s := rfl
@[simp] theorem exec_lineRecall (o : LineOp) (s : State) : exec (.lineRecall o) s = execLineRecall o s := rfl
@[simp] theorem exec_atomicAtOrderPoint (o : PerformOp) (s : State) : exec (.atomicAtOrderPoint o) s = execAtomicAtOrderPoint o s := rfl
@[simp] theorem exec_xaddAtSlice (o : PendRef) (s : State) : exec (.xaddAtSlice o) s = execXaddAtSlice o s := rfl
@[simp] theorem exec_glazeRun (o : PendRef) (s : State) : exec (.glazeRun o) s = execGlazeRun o s := rfl
@[simp] theorem exec_barrierEngineEvent (o : WorkRef) (s : State) : exec (.barrierEngineEvent o) s = execBarrierEngineEvent o s := rfl
@[simp] theorem exec_watchdogExpiry (id : Nat) (s : State) : exec (.watchdogExpiry id) s = execWatchdogExpiry id s := rfl
@[simp] theorem exec_queueRecordPost (o : TeamQueue) (s : State) : exec (.queueRecordPost o) s = execQueueRecordPost o s := rfl
@[simp] theorem exec_cplCopyFinish (o : WorkRef) (s : State) : exec (.cplCopyFinish o) s = execCplCopyFinish o s := rfl
@[simp] theorem exec_chunk (o : ChunkOp) (s : State) : exec (.chunk o) s = execChunk o s := rfl
@[simp] theorem exec_enginePageRetry (o : WorkRef) (s : State) : exec (.enginePageRetry o) s = execEnginePageRetry o s := rfl
@[simp] theorem exec_sortStart (o : WorkRef) (s : State) : exec (.sortStart o) s = execSortStart o s := rfl
@[simp] theorem exec_sortPass (o : WorkRef) (s : State) : exec (.sortPass o) s = execSortPass o s := rfl
@[simp] theorem exec_sortComplete (o : WorkRef) (s : State) : exec (.sortComplete o) s = execSortComplete o s := rfl
@[simp] theorem exec_matrixOpStart (team : Nat) (s : State) : exec (.matrixOpStart team) s = execMatrixOpStart team s := rfl
@[simp] theorem exec_matrixPass (team : Nat) (s : State) : exec (.matrixPass team) s = execMatrixPass team s := rfl
@[simp] theorem exec_matrixCommandComplete (team : Nat) (s : State) : exec (.matrixCommandComplete team) s = execMatrixCommandComplete team s := rfl
@[simp] theorem exec_arrayIdleGate (o : ArrayRef) (s : State) : exec (.arrayIdleGate o) s = execArrayIdleGate o s := rfl
@[simp] theorem exec_arrayWakeComplete (o : ArrayRef) (s : State) : exec (.arrayWakeComplete o) s = execArrayWakeComplete o s := rfl
@[simp] theorem exec_rasterRecord (team : Nat) (s : State) : exec (.rasterRecord team) s = execRasterRecord team s := rfl
@[simp] theorem exec_fragmentLaunch (o : ThRef) (s : State) : exec (.fragmentLaunch o) s = execFragmentLaunch o s := rfl
@[simp] theorem exec_rastComplete (team : Nat) (s : State) : exec (.rastComplete team) s = execRastComplete team s := rfl
@[simp] theorem exec_setterInsert (o : PendRef) (s : State) : exec (.setterInsert o) s = execSetterInsert o s := rfl
@[simp] theorem exec_splatStart (team : Nat) (s : State) : exec (.splatStart team) s = execSplatStart team s := rfl
@[simp] theorem exec_splatPixelOutput (team : Nat) (s : State) : exec (.splatPixelOutput team) s = execSplatPixelOutput team s := rfl
@[simp] theorem exec_splatComplete (team : Nat) (s : State) : exec (.splatComplete team) s = execSplatComplete team s := rfl
@[simp] theorem exec_spanPlace (o : PlaceOp) (s : State) : exec (.spanPlace o) s = execSpanPlace o s := rfl
@[simp] theorem exec_launcherPreempt (span : Nat) (s : State) : exec (.launcherPreempt span) s = execLauncherPreempt span s := rfl
@[simp] theorem exec_teamEnd (team : Nat) (s : State) : exec (.teamEnd team) s = execTeamEnd team s := rfl
@[simp] theorem exec_launchQueueTake (o : LqRef) (s : State) : exec (.launchQueueTake o) s = execLaunchQueueTake o s := rfl
@[simp] theorem exec_binTimerExpiry (o : NodeRef) (s : State) : exec (.binTimerExpiry o) s = execBinTimerExpiry o s := rfl
@[simp] theorem exec_persistDelivery (o : NodeRef) (s : State) : exec (.persistDelivery o) s = execPersistDelivery o s := rfl
@[simp] theorem exec_trapDispatch (o : ThRef) (s : State) : exec (.trapDispatch o) s = execTrapDispatch o s := rfl
@[simp] theorem exec_contextTerminate (asid : Fin 512) (s : State) : exec (.contextTerminate asid) s = execContextTerminate asid s := rfl
@[simp] theorem exec_terminationComplete (asid : Fin 512) (s : State) : exec (.terminationComplete asid) s = execTerminationComplete asid s := rfl
@[simp] theorem exec_spanSave (span : Nat) (s : State) : exec (.spanSave span) s = execSpanSave span s := rfl
@[simp] theorem exec_saveComplete (span : Nat) (s : State) : exec (.saveComplete span) s = execSaveComplete span s := rfl
@[simp] theorem exec_spanRestore (o : PlaceOp) (s : State) : exec (.spanRestore o) s = execSpanRestore o s := rfl
@[simp] theorem exec_eccUncorrectable (o : EccTarget) (s : State) : exec (.eccUncorrectable o) s = execEccUncorrectable o s := rfl
@[simp] theorem exec_eccCorrected (o : EccTarget) (s : State) : exec (.eccCorrected o) s = execEccCorrected o s := rfl
@[simp] theorem exec_haltLand (o : ThRef) (s : State) : exec (.haltLand o) s = execHaltLand o s := rfl
@[simp] theorem exec_traceRecordWrite (core : Fin 96) (s : State) : exec (.traceRecordWrite core) s = execTraceRecordWrite core s := rfl
@[simp] theorem exec_hostReadRequest (o : HostReadOp) (s : State) : exec (.hostReadRequest o) s = execHostReadRequest o s := rfl
@[simp] theorem exec_hostMemoryWrite (o : HostWriteOp) (s : State) : exec (.hostMemoryWrite o) s = execHostMemoryWrite o s := rfl
@[simp] theorem exec_hostCounterAdd (o : HostWriteOp) (s : State) : exec (.hostCounterAdd o) s = execHostCounterAdd o s := rfl
@[simp] theorem exec_hostCounterRead (o : HostReadOp) (s : State) : exec (.hostCounterRead o) s = execHostCounterRead o s := rfl
@[simp] theorem exec_registerWrite (o : RegWriteOp) (s : State) : exec (.registerWrite o) s = execRegisterWrite o s := rfl
@[simp] theorem exec_herrWrite (v : BitVec 32) (s : State) : exec (.herrWrite v) s = execHerrWrite v s := rfl
@[simp] theorem exec_cecountWrite (v : BitVec 32) (s : State) : exec (.cecountWrite v) s = execCecountWrite v s := rfl
@[simp] theorem exec_hcmdstatWrite (v : BitVec 64) (s : State) : exec (.hcmdstatWrite v) s = execHcmdstatWrite v s := rfl
@[simp] theorem exec_hcmdBusyDrop (v : BitVec 64) (s : State) : exec (.hcmdBusyDrop v) s = execHcmdBusyDrop v s := rfl
@[simp] theorem exec_register (o : HcmdOp) (s : State) : exec (.register o) s = execRegister o s := rfl
@[simp] theorem exec_terminate (o : HcmdOp) (s : State) : exec (.terminate o) s = execTerminate o s := rfl
@[simp] theorem exec_preempt (o : HcmdOp) (s : State) : exec (.preempt o) s = execPreempt o s := rfl
@[simp] theorem exec_debugon (o : HcmdOp) (s : State) : exec (.debugon o) s = execDebugon o s := rfl
@[simp] theorem exec_debugoff (o : HcmdOp) (s : State) : exec (.debugoff o) s = execDebugoff o s := rfl
@[simp] theorem exec_retire (o : HcmdOp) (s : State) : exec (.retire o) s = execRetire o s := rfl
@[simp] theorem exec_attest (o : HcmdOp) (s : State) : exec (.attest o) s = execAttest o s := rfl
@[simp] theorem exec_setctr (o : HcmdOp) (s : State) : exec (.setctr o) s = execSetctr o s := rfl
@[simp] theorem exec_invtlb (o : HcmdOp) (s : State) : exec (.invtlb o) s = execInvtlb o s := rfl
@[simp] theorem exec_hcmdUnknown (op : Fin 16) (o : HcmdOp) (s : State) : exec (.hcmdUnknown op o) s = execHcmdUnknown op o s := rfl
@[simp] theorem exec_hostCommandComplete (s : State) : exec .hostCommandComplete s = execHostCommandComplete s := rfl
@[simp] theorem exec_watchWrite (o : WatchOp) (s : State) : exec (.watchWrite o) s = execWatchWrite o s := rfl
@[simp] theorem exec_plimWrite (v : BitVec 32) (s : State) : exec (.plimWrite v) s = execPlimWrite v s := rfl
@[simp] theorem exec_peerRequestIncoming (o : PeerOp) (s : State) : exec (.peerRequestIncoming o) s = execPeerRequestIncoming o s := rfl
@[simp] theorem exec_peerLinkDown (port : Fin 16) (s : State) : exec (.peerLinkDown port) s = execPeerLinkDown port s := rfl
@[simp] theorem exec_powerOn (o : StartOp) (s : State) : exec (.powerOn o) s = execPowerOn o s := rfl
@[simp] theorem exec_powerLoss (s : State) : exec .powerLoss s = execPowerLoss s := rfl
@[simp] theorem exec_startupStepFail (step : Fin 11) (o : StartOp) (s : State) : exec (.startupStepFail step o) s = execStartupStepFail step o s := rfl
@[simp] theorem exec_limiterStep (n : Fin 65) (s : State) : exec (.limiterStep n) s = execLimiterStep n s := rfl
@[simp] theorem exec_thermtrip (s : State) : exec .thermtrip s = execThermtrip s := rfl
@[simp] theorem exec_dolmirDynamicAddress (addr : BitVec 7) (s : State) : exec (.dolmirDynamicAddress addr) s = execDolmirDynamicAddress addr s := rfl
@[simp] theorem exec_dolmirPrivateWrite (o : DolmirWrite) (s : State) : exec (.dolmirPrivateWrite o) s = execDolmirPrivateWrite o s := rfl
@[simp] theorem exec_dolmirPrivateRead (len : Nat) (s : State) : exec (.dolmirPrivateRead len) s = execDolmirPrivateRead len s := rfl
@[simp] theorem exec_startRecordWrite (o : DolmirWrite) (s : State) : exec (.startRecordWrite o) s = execStartRecordWrite o s := rfl
@[simp] theorem exec_mrst (v : BitVec 16) (o : StartOp) (s : State) : exec (.mrst v o) s = execMrst v o s := rfl
@[simp] theorem exec_thermtripClear (v : BitVec 32) (s : State) : exec (.thermtripClear v) s = execThermtripClear v s := rfl
@[simp] theorem exec_peerLinkUp (port : Fin 16) (s : State) : exec (.peerLinkUp port) s = execPeerLinkUp port s := rfl

end Sys2Proof.Machine
end

