-- ==== Sys2Proof/Laws/State.lean ====
section
/-! SUPPORT. For each update of the state, the fields it leaves as they are. -/

namespace Sys2Proof.Machine
open Sys2Proof

@[simp] theorem State.modTeam_agenda (s : State) (id : Nat) (f : Team → Team) : (s.modTeam id f).agenda = s.agenda := rfl
@[simp] theorem State.modTeam_tick (s : State) (id : Nat) (f : Team → Team) : (s.modTeam id f).tick = s.tick := rfl
@[simp] theorem State.modTeam_nextId (s : State) (id : Nat) (f : Team → Team) : (s.modTeam id f).nextId = s.nextId := rfl
@[simp] theorem State.modTeam_mem (s : State) (id : Nat) (f : Team → Team) : (s.modTeam id f).mem = s.mem := rfl
@[simp] theorem State.modTeam_tags (s : State) (id : Nat) (f : Team → Team) : (s.modTeam id f).tags = s.tags := rfl
@[simp] theorem State.modTeam_full (s : State) (id : Nat) (f : Team → Team) : (s.modTeam id f).full = s.full := rfl
@[simp] theorem State.modTeam_bad (s : State) (id : Nat) (f : Team → Team) : (s.modTeam id f).bad = s.bad := rfl
@[simp] theorem State.modTeam_l1 (s : State) (id : Nat) (f : Team → Team) : (s.modTeam id f).l1 = s.l1 := rfl
@[simp] theorem State.modTeam_checkouts (s : State) (id : Nat) (f : Team → Team) : (s.modTeam id f).checkouts = s.checkouts := rfl
@[simp] theorem State.modTeam_glazes (s : State) (id : Nat) (f : Team → Team) : (s.modTeam id f).glazes = s.glazes := rfl
@[simp] theorem State.modTeam_glzSince (s : State) (id : Nat) (f : Team → Team) : (s.modTeam id f).glzSince = s.glzSince := rfl
@[simp] theorem State.modTeam_dogs (s : State) (id : Nat) (f : Team → Team) : (s.modTeam id f).dogs = s.dogs := rfl
@[simp] theorem State.modTeam_l2 (s : State) (id : Nat) (f : Team → Team) : (s.modTeam id f).l2 = s.l2 := rfl
@[simp] theorem State.modTeam_past (s : State) (id : Nat) (f : Team → Team) : (s.modTeam id f).past = s.past := rfl
@[simp] theorem State.modTeam_wrote (s : State) (id : Nat) (f : Team → Team) : (s.modTeam id f).wrote = s.wrote := rfl
@[simp] theorem State.modTeam_icache (s : State) (id : Nat) (f : Team → Team) : (s.modTeam id f).icache = s.icache := rfl
@[simp] theorem State.modTeam_tlb (s : State) (id : Nat) (f : Team → Team) : (s.modTeam id f).tlb = s.tlb := rfl
@[simp] theorem State.modTeam_cores (s : State) (id : Nat) (f : Team → Team) : (s.modTeam id f).cores = s.cores := rfl
@[simp] theorem State.modTeam_ctxs (s : State) (id : Nat) (f : Team → Team) : (s.modTeam id f).ctxs = s.ctxs := rfl
@[simp] theorem State.modTeam_issues (s : State) (id : Nat) (f : Team → Team) : (s.modTeam id f).issues = s.issues := rfl
@[simp] theorem State.modTeam_kNotes (s : State) (id : Nat) (f : Team → Team) : (s.modTeam id f).kNotes = s.kNotes := rfl
@[simp] theorem State.modTeam_holds (s : State) (id : Nat) (f : Team → Team) : (s.modTeam id f).holds = s.holds := rfl
@[simp] theorem State.modTeam_lots (s : State) (id : Nat) (f : Team → Team) : (s.modTeam id f).lots = s.lots := rfl
@[simp] theorem State.modTeam_spans (s : State) (id : Nat) (f : Team → Team) : (s.modTeam id f).spans = s.spans := rfl
@[simp] theorem State.modTeam_saved (s : State) (id : Nat) (f : Team → Team) : (s.modTeam id f).saved = s.saved := rfl
@[simp] theorem State.modTeam_host (s : State) (id : Nat) (f : Team → Team) : (s.modTeam id f).host = s.host := rfl
@[simp] theorem State.modTeam_hostMem (s : State) (id : Nat) (f : Team → Team) : (s.modTeam id f).hostMem = s.hostMem := rfl
@[simp] theorem State.modTeam_hostOut (s : State) (id : Nat) (f : Team → Team) : (s.modTeam id f).hostOut = s.hostOut := rfl
@[simp] theorem State.modTeam_hostReads (s : State) (id : Nat) (f : Team → Team) : (s.modTeam id f).hostReads = s.hostReads := rfl
@[simp] theorem State.modTeam_hcmd (s : State) (id : Nat) (f : Team → Team) : (s.modTeam id f).hcmd = s.hcmd := rfl
@[simp] theorem State.modTeam_peerWait (s : State) (id : Nat) (f : Team → Team) : (s.modTeam id f).peerWait = s.peerWait := rfl
@[simp] theorem State.modTeam_peerOut (s : State) (id : Nat) (f : Team → Team) : (s.modTeam id f).peerOut = s.peerOut := rfl
@[simp] theorem State.modTeam_mgmt (s : State) (id : Nat) (f : Team → Team) : (s.modTeam id f).mgmt = s.mgmt := rfl

@[simp] theorem State.modThr_agenda (s : State) (id i : Nat) (f : Thread → Thread) : (s.modThr id i f).agenda = s.agenda := rfl
@[simp] theorem State.modThr_tick (s : State) (id i : Nat) (f : Thread → Thread) : (s.modThr id i f).tick = s.tick := rfl
@[simp] theorem State.modThr_nextId (s : State) (id i : Nat) (f : Thread → Thread) : (s.modThr id i f).nextId = s.nextId := rfl
@[simp] theorem State.modThr_mem (s : State) (id i : Nat) (f : Thread → Thread) : (s.modThr id i f).mem = s.mem := rfl
@[simp] theorem State.modThr_tags (s : State) (id i : Nat) (f : Thread → Thread) : (s.modThr id i f).tags = s.tags := rfl
@[simp] theorem State.modThr_full (s : State) (id i : Nat) (f : Thread → Thread) : (s.modThr id i f).full = s.full := rfl
@[simp] theorem State.modThr_bad (s : State) (id i : Nat) (f : Thread → Thread) : (s.modThr id i f).bad = s.bad := rfl
@[simp] theorem State.modThr_l1 (s : State) (id i : Nat) (f : Thread → Thread) : (s.modThr id i f).l1 = s.l1 := rfl
@[simp] theorem State.modThr_checkouts (s : State) (id i : Nat) (f : Thread → Thread) : (s.modThr id i f).checkouts = s.checkouts := rfl
@[simp] theorem State.modThr_glazes (s : State) (id i : Nat) (f : Thread → Thread) : (s.modThr id i f).glazes = s.glazes := rfl
@[simp] theorem State.modThr_glzSince (s : State) (id i : Nat) (f : Thread → Thread) : (s.modThr id i f).glzSince = s.glzSince := rfl
@[simp] theorem State.modThr_dogs (s : State) (id i : Nat) (f : Thread → Thread) : (s.modThr id i f).dogs = s.dogs := rfl
@[simp] theorem State.modThr_l2 (s : State) (id i : Nat) (f : Thread → Thread) : (s.modThr id i f).l2 = s.l2 := rfl
@[simp] theorem State.modThr_past (s : State) (id i : Nat) (f : Thread → Thread) : (s.modThr id i f).past = s.past := rfl
@[simp] theorem State.modThr_wrote (s : State) (id i : Nat) (f : Thread → Thread) : (s.modThr id i f).wrote = s.wrote := rfl
@[simp] theorem State.modThr_icache (s : State) (id i : Nat) (f : Thread → Thread) : (s.modThr id i f).icache = s.icache := rfl
@[simp] theorem State.modThr_tlb (s : State) (id i : Nat) (f : Thread → Thread) : (s.modThr id i f).tlb = s.tlb := rfl
@[simp] theorem State.modThr_cores (s : State) (id i : Nat) (f : Thread → Thread) : (s.modThr id i f).cores = s.cores := rfl
@[simp] theorem State.modThr_ctxs (s : State) (id i : Nat) (f : Thread → Thread) : (s.modThr id i f).ctxs = s.ctxs := rfl
@[simp] theorem State.modThr_issues (s : State) (id i : Nat) (f : Thread → Thread) : (s.modThr id i f).issues = s.issues := rfl
@[simp] theorem State.modThr_kNotes (s : State) (id i : Nat) (f : Thread → Thread) : (s.modThr id i f).kNotes = s.kNotes := rfl
@[simp] theorem State.modThr_holds (s : State) (id i : Nat) (f : Thread → Thread) : (s.modThr id i f).holds = s.holds := rfl
@[simp] theorem State.modThr_lots (s : State) (id i : Nat) (f : Thread → Thread) : (s.modThr id i f).lots = s.lots := rfl
@[simp] theorem State.modThr_spans (s : State) (id i : Nat) (f : Thread → Thread) : (s.modThr id i f).spans = s.spans := rfl
@[simp] theorem State.modThr_saved (s : State) (id i : Nat) (f : Thread → Thread) : (s.modThr id i f).saved = s.saved := rfl
@[simp] theorem State.modThr_host (s : State) (id i : Nat) (f : Thread → Thread) : (s.modThr id i f).host = s.host := rfl
@[simp] theorem State.modThr_hostMem (s : State) (id i : Nat) (f : Thread → Thread) : (s.modThr id i f).hostMem = s.hostMem := rfl
@[simp] theorem State.modThr_hostOut (s : State) (id i : Nat) (f : Thread → Thread) : (s.modThr id i f).hostOut = s.hostOut := rfl
@[simp] theorem State.modThr_hostReads (s : State) (id i : Nat) (f : Thread → Thread) : (s.modThr id i f).hostReads = s.hostReads := rfl
@[simp] theorem State.modThr_hcmd (s : State) (id i : Nat) (f : Thread → Thread) : (s.modThr id i f).hcmd = s.hcmd := rfl
@[simp] theorem State.modThr_peerWait (s : State) (id i : Nat) (f : Thread → Thread) : (s.modThr id i f).peerWait = s.peerWait := rfl
@[simp] theorem State.modThr_peerOut (s : State) (id i : Nat) (f : Thread → Thread) : (s.modThr id i f).peerOut = s.peerOut := rfl
@[simp] theorem State.modThr_mgmt (s : State) (id i : Nat) (f : Thread → Thread) : (s.modThr id i f).mgmt = s.mgmt := rfl

@[simp] theorem State.modCrew_agenda (s : State) (id n : Nat) (f : Crew → Crew) : (s.modCrew id n f).agenda = s.agenda := rfl
@[simp] theorem State.modCrew_tick (s : State) (id n : Nat) (f : Crew → Crew) : (s.modCrew id n f).tick = s.tick := rfl
@[simp] theorem State.modCrew_nextId (s : State) (id n : Nat) (f : Crew → Crew) : (s.modCrew id n f).nextId = s.nextId := rfl
@[simp] theorem State.modCrew_mem (s : State) (id n : Nat) (f : Crew → Crew) : (s.modCrew id n f).mem = s.mem := rfl
@[simp] theorem State.modCrew_tags (s : State) (id n : Nat) (f : Crew → Crew) : (s.modCrew id n f).tags = s.tags := rfl
@[simp] theorem State.modCrew_full (s : State) (id n : Nat) (f : Crew → Crew) : (s.modCrew id n f).full = s.full := rfl
@[simp] theorem State.modCrew_bad (s : State) (id n : Nat) (f : Crew → Crew) : (s.modCrew id n f).bad = s.bad := rfl
@[simp] theorem State.modCrew_l1 (s : State) (id n : Nat) (f : Crew → Crew) : (s.modCrew id n f).l1 = s.l1 := rfl
@[simp] theorem State.modCrew_checkouts (s : State) (id n : Nat) (f : Crew → Crew) : (s.modCrew id n f).checkouts = s.checkouts := rfl
@[simp] theorem State.modCrew_glazes (s : State) (id n : Nat) (f : Crew → Crew) : (s.modCrew id n f).glazes = s.glazes := rfl
@[simp] theorem State.modCrew_glzSince (s : State) (id n : Nat) (f : Crew → Crew) : (s.modCrew id n f).glzSince = s.glzSince := rfl
@[simp] theorem State.modCrew_dogs (s : State) (id n : Nat) (f : Crew → Crew) : (s.modCrew id n f).dogs = s.dogs := rfl
@[simp] theorem State.modCrew_l2 (s : State) (id n : Nat) (f : Crew → Crew) : (s.modCrew id n f).l2 = s.l2 := rfl
@[simp] theorem State.modCrew_past (s : State) (id n : Nat) (f : Crew → Crew) : (s.modCrew id n f).past = s.past := rfl
@[simp] theorem State.modCrew_wrote (s : State) (id n : Nat) (f : Crew → Crew) : (s.modCrew id n f).wrote = s.wrote := rfl
@[simp] theorem State.modCrew_icache (s : State) (id n : Nat) (f : Crew → Crew) : (s.modCrew id n f).icache = s.icache := rfl
@[simp] theorem State.modCrew_tlb (s : State) (id n : Nat) (f : Crew → Crew) : (s.modCrew id n f).tlb = s.tlb := rfl
@[simp] theorem State.modCrew_cores (s : State) (id n : Nat) (f : Crew → Crew) : (s.modCrew id n f).cores = s.cores := rfl
@[simp] theorem State.modCrew_ctxs (s : State) (id n : Nat) (f : Crew → Crew) : (s.modCrew id n f).ctxs = s.ctxs := rfl
@[simp] theorem State.modCrew_issues (s : State) (id n : Nat) (f : Crew → Crew) : (s.modCrew id n f).issues = s.issues := rfl
@[simp] theorem State.modCrew_kNotes (s : State) (id n : Nat) (f : Crew → Crew) : (s.modCrew id n f).kNotes = s.kNotes := rfl
@[simp] theorem State.modCrew_holds (s : State) (id n : Nat) (f : Crew → Crew) : (s.modCrew id n f).holds = s.holds := rfl
@[simp] theorem State.modCrew_lots (s : State) (id n : Nat) (f : Crew → Crew) : (s.modCrew id n f).lots = s.lots := rfl
@[simp] theorem State.modCrew_spans (s : State) (id n : Nat) (f : Crew → Crew) : (s.modCrew id n f).spans = s.spans := rfl
@[simp] theorem State.modCrew_saved (s : State) (id n : Nat) (f : Crew → Crew) : (s.modCrew id n f).saved = s.saved := rfl
@[simp] theorem State.modCrew_host (s : State) (id n : Nat) (f : Crew → Crew) : (s.modCrew id n f).host = s.host := rfl
@[simp] theorem State.modCrew_hostMem (s : State) (id n : Nat) (f : Crew → Crew) : (s.modCrew id n f).hostMem = s.hostMem := rfl
@[simp] theorem State.modCrew_hostOut (s : State) (id n : Nat) (f : Crew → Crew) : (s.modCrew id n f).hostOut = s.hostOut := rfl
@[simp] theorem State.modCrew_hostReads (s : State) (id n : Nat) (f : Crew → Crew) : (s.modCrew id n f).hostReads = s.hostReads := rfl
@[simp] theorem State.modCrew_hcmd (s : State) (id n : Nat) (f : Crew → Crew) : (s.modCrew id n f).hcmd = s.hcmd := rfl
@[simp] theorem State.modCrew_peerWait (s : State) (id n : Nat) (f : Crew → Crew) : (s.modCrew id n f).peerWait = s.peerWait := rfl
@[simp] theorem State.modCrew_peerOut (s : State) (id n : Nat) (f : Crew → Crew) : (s.modCrew id n f).peerOut = s.peerOut := rfl
@[simp] theorem State.modCrew_mgmt (s : State) (id n : Nat) (f : Crew → Crew) : (s.modCrew id n f).mgmt = s.mgmt := rfl

@[simp] theorem State.modCtx_agenda (s : State) (asid : Nat) (f : Context → Context) : (s.modCtx asid f).agenda = s.agenda := rfl
@[simp] theorem State.modCtx_tick (s : State) (asid : Nat) (f : Context → Context) : (s.modCtx asid f).tick = s.tick := rfl
@[simp] theorem State.modCtx_nextId (s : State) (asid : Nat) (f : Context → Context) : (s.modCtx asid f).nextId = s.nextId := rfl
@[simp] theorem State.modCtx_mem (s : State) (asid : Nat) (f : Context → Context) : (s.modCtx asid f).mem = s.mem := rfl
@[simp] theorem State.modCtx_tags (s : State) (asid : Nat) (f : Context → Context) : (s.modCtx asid f).tags = s.tags := rfl
@[simp] theorem State.modCtx_full (s : State) (asid : Nat) (f : Context → Context) : (s.modCtx asid f).full = s.full := rfl
@[simp] theorem State.modCtx_bad (s : State) (asid : Nat) (f : Context → Context) : (s.modCtx asid f).bad = s.bad := rfl
@[simp] theorem State.modCtx_l1 (s : State) (asid : Nat) (f : Context → Context) : (s.modCtx asid f).l1 = s.l1 := rfl
@[simp] theorem State.modCtx_checkouts (s : State) (asid : Nat) (f : Context → Context) : (s.modCtx asid f).checkouts = s.checkouts := rfl
@[simp] theorem State.modCtx_glazes (s : State) (asid : Nat) (f : Context → Context) : (s.modCtx asid f).glazes = s.glazes := rfl
@[simp] theorem State.modCtx_glzSince (s : State) (asid : Nat) (f : Context → Context) : (s.modCtx asid f).glzSince = s.glzSince := rfl
@[simp] theorem State.modCtx_dogs (s : State) (asid : Nat) (f : Context → Context) : (s.modCtx asid f).dogs = s.dogs := rfl
@[simp] theorem State.modCtx_l2 (s : State) (asid : Nat) (f : Context → Context) : (s.modCtx asid f).l2 = s.l2 := rfl
@[simp] theorem State.modCtx_past (s : State) (asid : Nat) (f : Context → Context) : (s.modCtx asid f).past = s.past := rfl
@[simp] theorem State.modCtx_wrote (s : State) (asid : Nat) (f : Context → Context) : (s.modCtx asid f).wrote = s.wrote := rfl
@[simp] theorem State.modCtx_icache (s : State) (asid : Nat) (f : Context → Context) : (s.modCtx asid f).icache = s.icache := rfl
@[simp] theorem State.modCtx_tlb (s : State) (asid : Nat) (f : Context → Context) : (s.modCtx asid f).tlb = s.tlb := rfl
@[simp] theorem State.modCtx_cores (s : State) (asid : Nat) (f : Context → Context) : (s.modCtx asid f).cores = s.cores := rfl
@[simp] theorem State.modCtx_teams (s : State) (asid : Nat) (f : Context → Context) : (s.modCtx asid f).teams = s.teams := rfl
@[simp] theorem State.modCtx_issues (s : State) (asid : Nat) (f : Context → Context) : (s.modCtx asid f).issues = s.issues := rfl
@[simp] theorem State.modCtx_kNotes (s : State) (asid : Nat) (f : Context → Context) : (s.modCtx asid f).kNotes = s.kNotes := rfl
@[simp] theorem State.modCtx_holds (s : State) (asid : Nat) (f : Context → Context) : (s.modCtx asid f).holds = s.holds := rfl
@[simp] theorem State.modCtx_lots (s : State) (asid : Nat) (f : Context → Context) : (s.modCtx asid f).lots = s.lots := rfl
@[simp] theorem State.modCtx_spans (s : State) (asid : Nat) (f : Context → Context) : (s.modCtx asid f).spans = s.spans := rfl
@[simp] theorem State.modCtx_saved (s : State) (asid : Nat) (f : Context → Context) : (s.modCtx asid f).saved = s.saved := rfl
@[simp] theorem State.modCtx_host (s : State) (asid : Nat) (f : Context → Context) : (s.modCtx asid f).host = s.host := rfl
@[simp] theorem State.modCtx_hostMem (s : State) (asid : Nat) (f : Context → Context) : (s.modCtx asid f).hostMem = s.hostMem := rfl
@[simp] theorem State.modCtx_hostOut (s : State) (asid : Nat) (f : Context → Context) : (s.modCtx asid f).hostOut = s.hostOut := rfl
@[simp] theorem State.modCtx_hostReads (s : State) (asid : Nat) (f : Context → Context) : (s.modCtx asid f).hostReads = s.hostReads := rfl
@[simp] theorem State.modCtx_hcmd (s : State) (asid : Nat) (f : Context → Context) : (s.modCtx asid f).hcmd = s.hcmd := rfl
@[simp] theorem State.modCtx_peerWait (s : State) (asid : Nat) (f : Context → Context) : (s.modCtx asid f).peerWait = s.peerWait := rfl
@[simp] theorem State.modCtx_peerOut (s : State) (asid : Nat) (f : Context → Context) : (s.modCtx asid f).peerOut = s.peerOut := rfl
@[simp] theorem State.modCtx_mgmt (s : State) (asid : Nat) (f : Context → Context) : (s.modCtx asid f).mgmt = s.mgmt := rfl

@[simp] theorem State.modCore_agenda (s : State) (k : Nat) (f : Core → Core) : (s.modCore k f).agenda = s.agenda := rfl
@[simp] theorem State.modCore_tick (s : State) (k : Nat) (f : Core → Core) : (s.modCore k f).tick = s.tick := rfl
@[simp] theorem State.modCore_nextId (s : State) (k : Nat) (f : Core → Core) : (s.modCore k f).nextId = s.nextId := rfl
@[simp] theorem State.modCore_mem (s : State) (k : Nat) (f : Core → Core) : (s.modCore k f).mem = s.mem := rfl
@[simp] theorem State.modCore_tags (s : State) (k : Nat) (f : Core → Core) : (s.modCore k f).tags = s.tags := rfl
@[simp] theorem State.modCore_full (s : State) (k : Nat) (f : Core → Core) : (s.modCore k f).full = s.full := rfl
@[simp] theorem State.modCore_bad (s : State) (k : Nat) (f : Core → Core) : (s.modCore k f).bad = s.bad := rfl
@[simp] theorem State.modCore_l1 (s : State) (k : Nat) (f : Core → Core) : (s.modCore k f).l1 = s.l1 := rfl
@[simp] theorem State.modCore_checkouts (s : State) (k : Nat) (f : Core → Core) : (s.modCore k f).checkouts = s.checkouts := rfl
@[simp] theorem State.modCore_glazes (s : State) (k : Nat) (f : Core → Core) : (s.modCore k f).glazes = s.glazes := rfl
@[simp] theorem State.modCore_glzSince (s : State) (k : Nat) (f : Core → Core) : (s.modCore k f).glzSince = s.glzSince := rfl
@[simp] theorem State.modCore_dogs (s : State) (k : Nat) (f : Core → Core) : (s.modCore k f).dogs = s.dogs := rfl
@[simp] theorem State.modCore_l2 (s : State) (k : Nat) (f : Core → Core) : (s.modCore k f).l2 = s.l2 := rfl
@[simp] theorem State.modCore_past (s : State) (k : Nat) (f : Core → Core) : (s.modCore k f).past = s.past := rfl
@[simp] theorem State.modCore_wrote (s : State) (k : Nat) (f : Core → Core) : (s.modCore k f).wrote = s.wrote := rfl
@[simp] theorem State.modCore_icache (s : State) (k : Nat) (f : Core → Core) : (s.modCore k f).icache = s.icache := rfl
@[simp] theorem State.modCore_tlb (s : State) (k : Nat) (f : Core → Core) : (s.modCore k f).tlb = s.tlb := rfl
@[simp] theorem State.modCore_ctxs (s : State) (k : Nat) (f : Core → Core) : (s.modCore k f).ctxs = s.ctxs := rfl
@[simp] theorem State.modCore_teams (s : State) (k : Nat) (f : Core → Core) : (s.modCore k f).teams = s.teams := rfl
@[simp] theorem State.modCore_issues (s : State) (k : Nat) (f : Core → Core) : (s.modCore k f).issues = s.issues := rfl
@[simp] theorem State.modCore_kNotes (s : State) (k : Nat) (f : Core → Core) : (s.modCore k f).kNotes = s.kNotes := rfl
@[simp] theorem State.modCore_holds (s : State) (k : Nat) (f : Core → Core) : (s.modCore k f).holds = s.holds := rfl
@[simp] theorem State.modCore_lots (s : State) (k : Nat) (f : Core → Core) : (s.modCore k f).lots = s.lots := rfl
@[simp] theorem State.modCore_spans (s : State) (k : Nat) (f : Core → Core) : (s.modCore k f).spans = s.spans := rfl
@[simp] theorem State.modCore_saved (s : State) (k : Nat) (f : Core → Core) : (s.modCore k f).saved = s.saved := rfl
@[simp] theorem State.modCore_host (s : State) (k : Nat) (f : Core → Core) : (s.modCore k f).host = s.host := rfl
@[simp] theorem State.modCore_hostMem (s : State) (k : Nat) (f : Core → Core) : (s.modCore k f).hostMem = s.hostMem := rfl
@[simp] theorem State.modCore_hostOut (s : State) (k : Nat) (f : Core → Core) : (s.modCore k f).hostOut = s.hostOut := rfl
@[simp] theorem State.modCore_hostReads (s : State) (k : Nat) (f : Core → Core) : (s.modCore k f).hostReads = s.hostReads := rfl
@[simp] theorem State.modCore_hcmd (s : State) (k : Nat) (f : Core → Core) : (s.modCore k f).hcmd = s.hcmd := rfl
@[simp] theorem State.modCore_peerWait (s : State) (k : Nat) (f : Core → Core) : (s.modCore k f).peerWait = s.peerWait := rfl
@[simp] theorem State.modCore_peerOut (s : State) (k : Nat) (f : Core → Core) : (s.modCore k f).peerOut = s.peerOut := rfl
@[simp] theorem State.modCore_mgmt (s : State) (k : Nat) (f : Core → Core) : (s.modCore k f).mgmt = s.mgmt := rfl

@[simp] theorem State.put_agenda (s : State) (key : Nat) (bs : List Byte) : (s.put key bs).agenda = s.agenda := rfl
@[simp] theorem State.put_tick (s : State) (key : Nat) (bs : List Byte) : (s.put key bs).tick = s.tick := rfl
@[simp] theorem State.put_nextId (s : State) (key : Nat) (bs : List Byte) : (s.put key bs).nextId = s.nextId := rfl
@[simp] theorem State.put_tags (s : State) (key : Nat) (bs : List Byte) : (s.put key bs).tags = s.tags := rfl
@[simp] theorem State.put_full (s : State) (key : Nat) (bs : List Byte) : (s.put key bs).full = s.full := rfl
@[simp] theorem State.put_bad (s : State) (key : Nat) (bs : List Byte) : (s.put key bs).bad = s.bad := rfl
@[simp] theorem State.put_l1 (s : State) (key : Nat) (bs : List Byte) : (s.put key bs).l1 = s.l1 := rfl
@[simp] theorem State.put_checkouts (s : State) (key : Nat) (bs : List Byte) : (s.put key bs).checkouts = s.checkouts := rfl
@[simp] theorem State.put_glazes (s : State) (key : Nat) (bs : List Byte) : (s.put key bs).glazes = s.glazes := rfl
@[simp] theorem State.put_glzSince (s : State) (key : Nat) (bs : List Byte) : (s.put key bs).glzSince = s.glzSince := rfl
@[simp] theorem State.put_dogs (s : State) (key : Nat) (bs : List Byte) : (s.put key bs).dogs = s.dogs := rfl
@[simp] theorem State.put_l2 (s : State) (key : Nat) (bs : List Byte) : (s.put key bs).l2 = s.l2 := rfl
@[simp] theorem State.put_past (s : State) (key : Nat) (bs : List Byte) : (s.put key bs).past = s.past := rfl
@[simp] theorem State.put_icache (s : State) (key : Nat) (bs : List Byte) : (s.put key bs).icache = s.icache := rfl
@[simp] theorem State.put_tlb (s : State) (key : Nat) (bs : List Byte) : (s.put key bs).tlb = s.tlb := rfl
@[simp] theorem State.put_cores (s : State) (key : Nat) (bs : List Byte) : (s.put key bs).cores = s.cores := rfl
@[simp] theorem State.put_ctxs (s : State) (key : Nat) (bs : List Byte) : (s.put key bs).ctxs = s.ctxs := rfl
@[simp] theorem State.put_teams (s : State) (key : Nat) (bs : List Byte) : (s.put key bs).teams = s.teams := rfl
@[simp] theorem State.put_issues (s : State) (key : Nat) (bs : List Byte) : (s.put key bs).issues = s.issues := rfl
@[simp] theorem State.put_kNotes (s : State) (key : Nat) (bs : List Byte) : (s.put key bs).kNotes = s.kNotes := rfl
@[simp] theorem State.put_holds (s : State) (key : Nat) (bs : List Byte) : (s.put key bs).holds = s.holds := rfl
@[simp] theorem State.put_lots (s : State) (key : Nat) (bs : List Byte) : (s.put key bs).lots = s.lots := rfl
@[simp] theorem State.put_spans (s : State) (key : Nat) (bs : List Byte) : (s.put key bs).spans = s.spans := rfl
@[simp] theorem State.put_saved (s : State) (key : Nat) (bs : List Byte) : (s.put key bs).saved = s.saved := rfl
@[simp] theorem State.put_host (s : State) (key : Nat) (bs : List Byte) : (s.put key bs).host = s.host := rfl
@[simp] theorem State.put_hostMem (s : State) (key : Nat) (bs : List Byte) : (s.put key bs).hostMem = s.hostMem := rfl
@[simp] theorem State.put_hostOut (s : State) (key : Nat) (bs : List Byte) : (s.put key bs).hostOut = s.hostOut := rfl
@[simp] theorem State.put_hostReads (s : State) (key : Nat) (bs : List Byte) : (s.put key bs).hostReads = s.hostReads := rfl
@[simp] theorem State.put_hcmd (s : State) (key : Nat) (bs : List Byte) : (s.put key bs).hcmd = s.hcmd := rfl
@[simp] theorem State.put_peerWait (s : State) (key : Nat) (bs : List Byte) : (s.put key bs).peerWait = s.peerWait := rfl
@[simp] theorem State.put_peerOut (s : State) (key : Nat) (bs : List Byte) : (s.put key bs).peerOut = s.peerOut := rfl
@[simp] theorem State.put_mgmt (s : State) (key : Nat) (bs : List Byte) : (s.put key bs).mgmt = s.mgmt := rfl

@[simp] theorem State.setPoison_agenda (s : State) (key : Nat) (b : Bool) : (s.setPoison key b).agenda = s.agenda := rfl
@[simp] theorem State.setPoison_tick (s : State) (key : Nat) (b : Bool) : (s.setPoison key b).tick = s.tick := rfl
@[simp] theorem State.setPoison_nextId (s : State) (key : Nat) (b : Bool) : (s.setPoison key b).nextId = s.nextId := rfl
@[simp] theorem State.setPoison_mem (s : State) (key : Nat) (b : Bool) : (s.setPoison key b).mem = s.mem := rfl
@[simp] theorem State.setPoison_tags (s : State) (key : Nat) (b : Bool) : (s.setPoison key b).tags = s.tags := rfl
@[simp] theorem State.setPoison_full (s : State) (key : Nat) (b : Bool) : (s.setPoison key b).full = s.full := rfl
@[simp] theorem State.setPoison_l1 (s : State) (key : Nat) (b : Bool) : (s.setPoison key b).l1 = s.l1 := rfl
@[simp] theorem State.setPoison_checkouts (s : State) (key : Nat) (b : Bool) : (s.setPoison key b).checkouts = s.checkouts := rfl
@[simp] theorem State.setPoison_glazes (s : State) (key : Nat) (b : Bool) : (s.setPoison key b).glazes = s.glazes := rfl
@[simp] theorem State.setPoison_glzSince (s : State) (key : Nat) (b : Bool) : (s.setPoison key b).glzSince = s.glzSince := rfl
@[simp] theorem State.setPoison_dogs (s : State) (key : Nat) (b : Bool) : (s.setPoison key b).dogs = s.dogs := rfl
@[simp] theorem State.setPoison_l2 (s : State) (key : Nat) (b : Bool) : (s.setPoison key b).l2 = s.l2 := rfl
@[simp] theorem State.setPoison_past (s : State) (key : Nat) (b : Bool) : (s.setPoison key b).past = s.past := rfl
@[simp] theorem State.setPoison_wrote (s : State) (key : Nat) (b : Bool) : (s.setPoison key b).wrote = s.wrote := rfl
@[simp] theorem State.setPoison_icache (s : State) (key : Nat) (b : Bool) : (s.setPoison key b).icache = s.icache := rfl
@[simp] theorem State.setPoison_tlb (s : State) (key : Nat) (b : Bool) : (s.setPoison key b).tlb = s.tlb := rfl
@[simp] theorem State.setPoison_cores (s : State) (key : Nat) (b : Bool) : (s.setPoison key b).cores = s.cores := rfl
@[simp] theorem State.setPoison_ctxs (s : State) (key : Nat) (b : Bool) : (s.setPoison key b).ctxs = s.ctxs := rfl
@[simp] theorem State.setPoison_teams (s : State) (key : Nat) (b : Bool) : (s.setPoison key b).teams = s.teams := rfl
@[simp] theorem State.setPoison_issues (s : State) (key : Nat) (b : Bool) : (s.setPoison key b).issues = s.issues := rfl
@[simp] theorem State.setPoison_kNotes (s : State) (key : Nat) (b : Bool) : (s.setPoison key b).kNotes = s.kNotes := rfl
@[simp] theorem State.setPoison_holds (s : State) (key : Nat) (b : Bool) : (s.setPoison key b).holds = s.holds := rfl
@[simp] theorem State.setPoison_lots (s : State) (key : Nat) (b : Bool) : (s.setPoison key b).lots = s.lots := rfl
@[simp] theorem State.setPoison_spans (s : State) (key : Nat) (b : Bool) : (s.setPoison key b).spans = s.spans := rfl
@[simp] theorem State.setPoison_saved (s : State) (key : Nat) (b : Bool) : (s.setPoison key b).saved = s.saved := rfl
@[simp] theorem State.setPoison_host (s : State) (key : Nat) (b : Bool) : (s.setPoison key b).host = s.host := rfl
@[simp] theorem State.setPoison_hostMem (s : State) (key : Nat) (b : Bool) : (s.setPoison key b).hostMem = s.hostMem := rfl
@[simp] theorem State.setPoison_hostOut (s : State) (key : Nat) (b : Bool) : (s.setPoison key b).hostOut = s.hostOut := rfl
@[simp] theorem State.setPoison_hostReads (s : State) (key : Nat) (b : Bool) : (s.setPoison key b).hostReads = s.hostReads := rfl
@[simp] theorem State.setPoison_hcmd (s : State) (key : Nat) (b : Bool) : (s.setPoison key b).hcmd = s.hcmd := rfl
@[simp] theorem State.setPoison_peerWait (s : State) (key : Nat) (b : Bool) : (s.setPoison key b).peerWait = s.peerWait := rfl
@[simp] theorem State.setPoison_peerOut (s : State) (key : Nat) (b : Bool) : (s.setPoison key b).peerOut = s.peerOut := rfl
@[simp] theorem State.setPoison_mgmt (s : State) (key : Nat) (b : Bool) : (s.setPoison key b).mgmt = s.mgmt := rfl

@[simp] theorem State.setFull_agenda (s : State) (key : Nat) (b : Bool) : (s.setFull key b).agenda = s.agenda := rfl
@[simp] theorem State.setFull_tick (s : State) (key : Nat) (b : Bool) : (s.setFull key b).tick = s.tick := rfl
@[simp] theorem State.setFull_nextId (s : State) (key : Nat) (b : Bool) : (s.setFull key b).nextId = s.nextId := rfl
@[simp] theorem State.setFull_mem (s : State) (key : Nat) (b : Bool) : (s.setFull key b).mem = s.mem := rfl
@[simp] theorem State.setFull_tags (s : State) (key : Nat) (b : Bool) : (s.setFull key b).tags = s.tags := rfl
@[simp] theorem State.setFull_bad (s : State) (key : Nat) (b : Bool) : (s.setFull key b).bad = s.bad := rfl
@[simp] theorem State.setFull_l1 (s : State) (key : Nat) (b : Bool) : (s.setFull key b).l1 = s.l1 := rfl
@[simp] theorem State.setFull_checkouts (s : State) (key : Nat) (b : Bool) : (s.setFull key b).checkouts = s.checkouts := rfl
@[simp] theorem State.setFull_glazes (s : State) (key : Nat) (b : Bool) : (s.setFull key b).glazes = s.glazes := rfl
@[simp] theorem State.setFull_glzSince (s : State) (key : Nat) (b : Bool) : (s.setFull key b).glzSince = s.glzSince := rfl
@[simp] theorem State.setFull_dogs (s : State) (key : Nat) (b : Bool) : (s.setFull key b).dogs = s.dogs := rfl
@[simp] theorem State.setFull_l2 (s : State) (key : Nat) (b : Bool) : (s.setFull key b).l2 = s.l2 := rfl
@[simp] theorem State.setFull_past (s : State) (key : Nat) (b : Bool) : (s.setFull key b).past = s.past := rfl
@[simp] theorem State.setFull_wrote (s : State) (key : Nat) (b : Bool) : (s.setFull key b).wrote = s.wrote := rfl
@[simp] theorem State.setFull_icache (s : State) (key : Nat) (b : Bool) : (s.setFull key b).icache = s.icache := rfl
@[simp] theorem State.setFull_tlb (s : State) (key : Nat) (b : Bool) : (s.setFull key b).tlb = s.tlb := rfl
@[simp] theorem State.setFull_cores (s : State) (key : Nat) (b : Bool) : (s.setFull key b).cores = s.cores := rfl
@[simp] theorem State.setFull_ctxs (s : State) (key : Nat) (b : Bool) : (s.setFull key b).ctxs = s.ctxs := rfl
@[simp] theorem State.setFull_teams (s : State) (key : Nat) (b : Bool) : (s.setFull key b).teams = s.teams := rfl
@[simp] theorem State.setFull_issues (s : State) (key : Nat) (b : Bool) : (s.setFull key b).issues = s.issues := rfl
@[simp] theorem State.setFull_kNotes (s : State) (key : Nat) (b : Bool) : (s.setFull key b).kNotes = s.kNotes := rfl
@[simp] theorem State.setFull_holds (s : State) (key : Nat) (b : Bool) : (s.setFull key b).holds = s.holds := rfl
@[simp] theorem State.setFull_lots (s : State) (key : Nat) (b : Bool) : (s.setFull key b).lots = s.lots := rfl
@[simp] theorem State.setFull_spans (s : State) (key : Nat) (b : Bool) : (s.setFull key b).spans = s.spans := rfl
@[simp] theorem State.setFull_saved (s : State) (key : Nat) (b : Bool) : (s.setFull key b).saved = s.saved := rfl
@[simp] theorem State.setFull_host (s : State) (key : Nat) (b : Bool) : (s.setFull key b).host = s.host := rfl
@[simp] theorem State.setFull_hostMem (s : State) (key : Nat) (b : Bool) : (s.setFull key b).hostMem = s.hostMem := rfl
@[simp] theorem State.setFull_hostOut (s : State) (key : Nat) (b : Bool) : (s.setFull key b).hostOut = s.hostOut := rfl
@[simp] theorem State.setFull_hostReads (s : State) (key : Nat) (b : Bool) : (s.setFull key b).hostReads = s.hostReads := rfl
@[simp] theorem State.setFull_hcmd (s : State) (key : Nat) (b : Bool) : (s.setFull key b).hcmd = s.hcmd := rfl
@[simp] theorem State.setFull_peerWait (s : State) (key : Nat) (b : Bool) : (s.setFull key b).peerWait = s.peerWait := rfl
@[simp] theorem State.setFull_peerOut (s : State) (key : Nat) (b : Bool) : (s.setFull key b).peerOut = s.peerOut := rfl
@[simp] theorem State.setFull_mgmt (s : State) (key : Nat) (b : Bool) : (s.setFull key b).mgmt = s.mgmt := rfl

@[simp] theorem State.cleanUnits_agenda (s : State) (key n : Nat) : (s.cleanUnits key n).agenda = s.agenda := rfl
@[simp] theorem State.cleanUnits_tick (s : State) (key n : Nat) : (s.cleanUnits key n).tick = s.tick := rfl
@[simp] theorem State.cleanUnits_nextId (s : State) (key n : Nat) : (s.cleanUnits key n).nextId = s.nextId := rfl
@[simp] theorem State.cleanUnits_mem (s : State) (key n : Nat) : (s.cleanUnits key n).mem = s.mem := rfl
@[simp] theorem State.cleanUnits_tags (s : State) (key n : Nat) : (s.cleanUnits key n).tags = s.tags := rfl
@[simp] theorem State.cleanUnits_full (s : State) (key n : Nat) : (s.cleanUnits key n).full = s.full := rfl
@[simp] theorem State.cleanUnits_l1 (s : State) (key n : Nat) : (s.cleanUnits key n).l1 = s.l1 := rfl
@[simp] theorem State.cleanUnits_checkouts (s : State) (key n : Nat) : (s.cleanUnits key n).checkouts = s.checkouts := rfl
@[simp] theorem State.cleanUnits_glazes (s : State) (key n : Nat) : (s.cleanUnits key n).glazes = s.glazes := rfl
@[simp] theorem State.cleanUnits_glzSince (s : State) (key n : Nat) : (s.cleanUnits key n).glzSince = s.glzSince := rfl
@[simp] theorem State.cleanUnits_dogs (s : State) (key n : Nat) : (s.cleanUnits key n).dogs = s.dogs := rfl
@[simp] theorem State.cleanUnits_l2 (s : State) (key n : Nat) : (s.cleanUnits key n).l2 = s.l2 := rfl
@[simp] theorem State.cleanUnits_past (s : State) (key n : Nat) : (s.cleanUnits key n).past = s.past := rfl
@[simp] theorem State.cleanUnits_wrote (s : State) (key n : Nat) : (s.cleanUnits key n).wrote = s.wrote := rfl
@[simp] theorem State.cleanUnits_icache (s : State) (key n : Nat) : (s.cleanUnits key n).icache = s.icache := rfl
@[simp] theorem State.cleanUnits_tlb (s : State) (key n : Nat) : (s.cleanUnits key n).tlb = s.tlb := rfl
@[simp] theorem State.cleanUnits_cores (s : State) (key n : Nat) : (s.cleanUnits key n).cores = s.cores := rfl
@[simp] theorem State.cleanUnits_ctxs (s : State) (key n : Nat) : (s.cleanUnits key n).ctxs = s.ctxs := rfl
@[simp] theorem State.cleanUnits_teams (s : State) (key n : Nat) : (s.cleanUnits key n).teams = s.teams := rfl
@[simp] theorem State.cleanUnits_issues (s : State) (key n : Nat) : (s.cleanUnits key n).issues = s.issues := rfl
@[simp] theorem State.cleanUnits_kNotes (s : State) (key n : Nat) : (s.cleanUnits key n).kNotes = s.kNotes := rfl
@[simp] theorem State.cleanUnits_holds (s : State) (key n : Nat) : (s.cleanUnits key n).holds = s.holds := rfl
@[simp] theorem State.cleanUnits_lots (s : State) (key n : Nat) : (s.cleanUnits key n).lots = s.lots := rfl
@[simp] theorem State.cleanUnits_spans (s : State) (key n : Nat) : (s.cleanUnits key n).spans = s.spans := rfl
@[simp] theorem State.cleanUnits_saved (s : State) (key n : Nat) : (s.cleanUnits key n).saved = s.saved := rfl
@[simp] theorem State.cleanUnits_host (s : State) (key n : Nat) : (s.cleanUnits key n).host = s.host := rfl
@[simp] theorem State.cleanUnits_hostMem (s : State) (key n : Nat) : (s.cleanUnits key n).hostMem = s.hostMem := rfl
@[simp] theorem State.cleanUnits_hostOut (s : State) (key n : Nat) : (s.cleanUnits key n).hostOut = s.hostOut := rfl
@[simp] theorem State.cleanUnits_hostReads (s : State) (key n : Nat) : (s.cleanUnits key n).hostReads = s.hostReads := rfl
@[simp] theorem State.cleanUnits_hcmd (s : State) (key n : Nat) : (s.cleanUnits key n).hcmd = s.hcmd := rfl
@[simp] theorem State.cleanUnits_peerWait (s : State) (key n : Nat) : (s.cleanUnits key n).peerWait = s.peerWait := rfl
@[simp] theorem State.cleanUnits_peerOut (s : State) (key n : Nat) : (s.cleanUnits key n).peerOut = s.peerOut := rfl
@[simp] theorem State.cleanUnits_mgmt (s : State) (key n : Nat) : (s.cleanUnits key n).mgmt = s.mgmt := rfl

@[simp] theorem State.wakeMons_agenda (s : State) (key n : Nat) : (s.wakeMons key n).agenda = s.agenda := rfl
@[simp] theorem State.wakeMons_tick (s : State) (key n : Nat) : (s.wakeMons key n).tick = s.tick := rfl
@[simp] theorem State.wakeMons_nextId (s : State) (key n : Nat) : (s.wakeMons key n).nextId = s.nextId := rfl
@[simp] theorem State.wakeMons_mem (s : State) (key n : Nat) : (s.wakeMons key n).mem = s.mem := rfl
@[simp] theorem State.wakeMons_tags (s : State) (key n : Nat) : (s.wakeMons key n).tags = s.tags := rfl
@[simp] theorem State.wakeMons_full (s : State) (key n : Nat) : (s.wakeMons key n).full = s.full := rfl
@[simp] theorem State.wakeMons_bad (s : State) (key n : Nat) : (s.wakeMons key n).bad = s.bad := rfl
@[simp] theorem State.wakeMons_l1 (s : State) (key n : Nat) : (s.wakeMons key n).l1 = s.l1 := rfl
@[simp] theorem State.wakeMons_checkouts (s : State) (key n : Nat) : (s.wakeMons key n).checkouts = s.checkouts := rfl
@[simp] theorem State.wakeMons_glazes (s : State) (key n : Nat) : (s.wakeMons key n).glazes = s.glazes := rfl
@[simp] theorem State.wakeMons_glzSince (s : State) (key n : Nat) : (s.wakeMons key n).glzSince = s.glzSince := rfl
@[simp] theorem State.wakeMons_dogs (s : State) (key n : Nat) : (s.wakeMons key n).dogs = s.dogs := rfl
@[simp] theorem State.wakeMons_l2 (s : State) (key n : Nat) : (s.wakeMons key n).l2 = s.l2 := rfl
@[simp] theorem State.wakeMons_past (s : State) (key n : Nat) : (s.wakeMons key n).past = s.past := rfl
@[simp] theorem State.wakeMons_wrote (s : State) (key n : Nat) : (s.wakeMons key n).wrote = s.wrote := rfl
@[simp] theorem State.wakeMons_icache (s : State) (key n : Nat) : (s.wakeMons key n).icache = s.icache := rfl
@[simp] theorem State.wakeMons_tlb (s : State) (key n : Nat) : (s.wakeMons key n).tlb = s.tlb := rfl
@[simp] theorem State.wakeMons_cores (s : State) (key n : Nat) : (s.wakeMons key n).cores = s.cores := rfl
@[simp] theorem State.wakeMons_ctxs (s : State) (key n : Nat) : (s.wakeMons key n).ctxs = s.ctxs := rfl
@[simp] theorem State.wakeMons_issues (s : State) (key n : Nat) : (s.wakeMons key n).issues = s.issues := rfl
@[simp] theorem State.wakeMons_kNotes (s : State) (key n : Nat) : (s.wakeMons key n).kNotes = s.kNotes := rfl
@[simp] theorem State.wakeMons_holds (s : State) (key n : Nat) : (s.wakeMons key n).holds = s.holds := rfl
@[simp] theorem State.wakeMons_lots (s : State) (key n : Nat) : (s.wakeMons key n).lots = s.lots := rfl
@[simp] theorem State.wakeMons_spans (s : State) (key n : Nat) : (s.wakeMons key n).spans = s.spans := rfl
@[simp] theorem State.wakeMons_saved (s : State) (key n : Nat) : (s.wakeMons key n).saved = s.saved := rfl
@[simp] theorem State.wakeMons_host (s : State) (key n : Nat) : (s.wakeMons key n).host = s.host := rfl
@[simp] theorem State.wakeMons_hostMem (s : State) (key n : Nat) : (s.wakeMons key n).hostMem = s.hostMem := rfl
@[simp] theorem State.wakeMons_hostOut (s : State) (key n : Nat) : (s.wakeMons key n).hostOut = s.hostOut := rfl
@[simp] theorem State.wakeMons_hostReads (s : State) (key n : Nat) : (s.wakeMons key n).hostReads = s.hostReads := rfl
@[simp] theorem State.wakeMons_hcmd (s : State) (key n : Nat) : (s.wakeMons key n).hcmd = s.hcmd := rfl
@[simp] theorem State.wakeMons_peerWait (s : State) (key n : Nat) : (s.wakeMons key n).peerWait = s.peerWait := rfl
@[simp] theorem State.wakeMons_peerOut (s : State) (key n : Nat) : (s.wakeMons key n).peerOut = s.peerOut := rfl
@[simp] theorem State.wakeMons_mgmt (s : State) (key n : Nat) : (s.wakeMons key n).mgmt = s.mgmt := rfl

@[simp] theorem State.loseMons_agenda (s : State) (f : Team → Nat → Bool) : (s.loseMons f).agenda = s.agenda := rfl
@[simp] theorem State.loseMons_tick (s : State) (f : Team → Nat → Bool) : (s.loseMons f).tick = s.tick := rfl
@[simp] theorem State.loseMons_nextId (s : State) (f : Team → Nat → Bool) : (s.loseMons f).nextId = s.nextId := rfl
@[simp] theorem State.loseMons_mem (s : State) (f : Team → Nat → Bool) : (s.loseMons f).mem = s.mem := rfl
@[simp] theorem State.loseMons_tags (s : State) (f : Team → Nat → Bool) : (s.loseMons f).tags = s.tags := rfl
@[simp] theorem State.loseMons_full (s : State) (f : Team → Nat → Bool) : (s.loseMons f).full = s.full := rfl
@[simp] theorem State.loseMons_bad (s : State) (f : Team → Nat → Bool) : (s.loseMons f).bad = s.bad := rfl
@[simp] theorem State.loseMons_l1 (s : State) (f : Team → Nat → Bool) : (s.loseMons f).l1 = s.l1 := rfl
@[simp] theorem State.loseMons_checkouts (s : State) (f : Team → Nat → Bool) : (s.loseMons f).checkouts = s.checkouts := rfl
@[simp] theorem State.loseMons_glazes (s : State) (f : Team → Nat → Bool) : (s.loseMons f).glazes = s.glazes := rfl
@[simp] theorem State.loseMons_glzSince (s : State) (f : Team → Nat → Bool) : (s.loseMons f).glzSince = s.glzSince := rfl
@[simp] theorem State.loseMons_dogs (s : State) (f : Team → Nat → Bool) : (s.loseMons f).dogs = s.dogs := rfl
@[simp] theorem State.loseMons_l2 (s : State) (f : Team → Nat → Bool) : (s.loseMons f).l2 = s.l2 := rfl
@[simp] theorem State.loseMons_past (s : State) (f : Team → Nat → Bool) : (s.loseMons f).past = s.past := rfl
@[simp] theorem State.loseMons_wrote (s : State) (f : Team → Nat → Bool) : (s.loseMons f).wrote = s.wrote := rfl
@[simp] theorem State.loseMons_icache (s : State) (f : Team → Nat → Bool) : (s.loseMons f).icache = s.icache := rfl
@[simp] theorem State.loseMons_tlb (s : State) (f : Team → Nat → Bool) : (s.loseMons f).tlb = s.tlb := rfl
@[simp] theorem State.loseMons_cores (s : State) (f : Team → Nat → Bool) : (s.loseMons f).cores = s.cores := rfl
@[simp] theorem State.loseMons_ctxs (s : State) (f : Team → Nat → Bool) : (s.loseMons f).ctxs = s.ctxs := rfl
@[simp] theorem State.loseMons_issues (s : State) (f : Team → Nat → Bool) : (s.loseMons f).issues = s.issues := rfl
@[simp] theorem State.loseMons_kNotes (s : State) (f : Team → Nat → Bool) : (s.loseMons f).kNotes = s.kNotes := rfl
@[simp] theorem State.loseMons_holds (s : State) (f : Team → Nat → Bool) : (s.loseMons f).holds = s.holds := rfl
@[simp] theorem State.loseMons_lots (s : State) (f : Team → Nat → Bool) : (s.loseMons f).lots = s.lots := rfl
@[simp] theorem State.loseMons_spans (s : State) (f : Team → Nat → Bool) : (s.loseMons f).spans = s.spans := rfl
@[simp] theorem State.loseMons_saved (s : State) (f : Team → Nat → Bool) : (s.loseMons f).saved = s.saved := rfl
@[simp] theorem State.loseMons_host (s : State) (f : Team → Nat → Bool) : (s.loseMons f).host = s.host := rfl
@[simp] theorem State.loseMons_hostMem (s : State) (f : Team → Nat → Bool) : (s.loseMons f).hostMem = s.hostMem := rfl
@[simp] theorem State.loseMons_hostOut (s : State) (f : Team → Nat → Bool) : (s.loseMons f).hostOut = s.hostOut := rfl
@[simp] theorem State.loseMons_hostReads (s : State) (f : Team → Nat → Bool) : (s.loseMons f).hostReads = s.hostReads := rfl
@[simp] theorem State.loseMons_hcmd (s : State) (f : Team → Nat → Bool) : (s.loseMons f).hcmd = s.hcmd := rfl
@[simp] theorem State.loseMons_peerWait (s : State) (f : Team → Nat → Bool) : (s.loseMons f).peerWait = s.peerWait := rfl
@[simp] theorem State.loseMons_peerOut (s : State) (f : Team → Nat → Bool) : (s.loseMons f).peerOut = s.peerOut := rfl
@[simp] theorem State.loseMons_mgmt (s : State) (f : Team → Nat → Bool) : (s.loseMons f).mgmt = s.mgmt := rfl

@[simp] theorem State.returnLines_agenda (s : State) (f : Checkout → Bool) : (s.returnLines f).agenda = s.agenda := rfl
@[simp] theorem State.returnLines_tick (s : State) (f : Checkout → Bool) : (s.returnLines f).tick = s.tick := rfl
@[simp] theorem State.returnLines_nextId (s : State) (f : Checkout → Bool) : (s.returnLines f).nextId = s.nextId := rfl
@[simp] theorem State.returnLines_mem (s : State) (f : Checkout → Bool) : (s.returnLines f).mem = s.mem := rfl
@[simp] theorem State.returnLines_tags (s : State) (f : Checkout → Bool) : (s.returnLines f).tags = s.tags := rfl
@[simp] theorem State.returnLines_full (s : State) (f : Checkout → Bool) : (s.returnLines f).full = s.full := rfl
@[simp] theorem State.returnLines_bad (s : State) (f : Checkout → Bool) : (s.returnLines f).bad = s.bad := rfl
@[simp] theorem State.returnLines_l1 (s : State) (f : Checkout → Bool) : (s.returnLines f).l1 = s.l1 := rfl
@[simp] theorem State.returnLines_glazes (s : State) (f : Checkout → Bool) : (s.returnLines f).glazes = s.glazes := rfl
@[simp] theorem State.returnLines_glzSince (s : State) (f : Checkout → Bool) : (s.returnLines f).glzSince = s.glzSince := rfl
@[simp] theorem State.returnLines_dogs (s : State) (f : Checkout → Bool) : (s.returnLines f).dogs = s.dogs := rfl
@[simp] theorem State.returnLines_l2 (s : State) (f : Checkout → Bool) : (s.returnLines f).l2 = s.l2 := rfl
@[simp] theorem State.returnLines_past (s : State) (f : Checkout → Bool) : (s.returnLines f).past = s.past := rfl
@[simp] theorem State.returnLines_wrote (s : State) (f : Checkout → Bool) : (s.returnLines f).wrote = s.wrote := rfl
@[simp] theorem State.returnLines_icache (s : State) (f : Checkout → Bool) : (s.returnLines f).icache = s.icache := rfl
@[simp] theorem State.returnLines_tlb (s : State) (f : Checkout → Bool) : (s.returnLines f).tlb = s.tlb := rfl
@[simp] theorem State.returnLines_cores (s : State) (f : Checkout → Bool) : (s.returnLines f).cores = s.cores := rfl
@[simp] theorem State.returnLines_ctxs (s : State) (f : Checkout → Bool) : (s.returnLines f).ctxs = s.ctxs := rfl
@[simp] theorem State.returnLines_issues (s : State) (f : Checkout → Bool) : (s.returnLines f).issues = s.issues := rfl
@[simp] theorem State.returnLines_kNotes (s : State) (f : Checkout → Bool) : (s.returnLines f).kNotes = s.kNotes := rfl
@[simp] theorem State.returnLines_holds (s : State) (f : Checkout → Bool) : (s.returnLines f).holds = s.holds := rfl
@[simp] theorem State.returnLines_lots (s : State) (f : Checkout → Bool) : (s.returnLines f).lots = s.lots := rfl
@[simp] theorem State.returnLines_spans (s : State) (f : Checkout → Bool) : (s.returnLines f).spans = s.spans := rfl
@[simp] theorem State.returnLines_saved (s : State) (f : Checkout → Bool) : (s.returnLines f).saved = s.saved := rfl
@[simp] theorem State.returnLines_host (s : State) (f : Checkout → Bool) : (s.returnLines f).host = s.host := rfl
@[simp] theorem State.returnLines_hostMem (s : State) (f : Checkout → Bool) : (s.returnLines f).hostMem = s.hostMem := rfl
@[simp] theorem State.returnLines_hostOut (s : State) (f : Checkout → Bool) : (s.returnLines f).hostOut = s.hostOut := rfl
@[simp] theorem State.returnLines_hostReads (s : State) (f : Checkout → Bool) : (s.returnLines f).hostReads = s.hostReads := rfl
@[simp] theorem State.returnLines_hcmd (s : State) (f : Checkout → Bool) : (s.returnLines f).hcmd = s.hcmd := rfl
@[simp] theorem State.returnLines_peerWait (s : State) (f : Checkout → Bool) : (s.returnLines f).peerWait = s.peerWait := rfl
@[simp] theorem State.returnLines_peerOut (s : State) (f : Checkout → Bool) : (s.returnLines f).peerOut = s.peerOut := rfl
@[simp] theorem State.returnLines_mgmt (s : State) (f : Checkout → Bool) : (s.returnLines f).mgmt = s.mgmt := rfl

@[simp] theorem State.recall_agenda (s : State) (key n : Nat) : (s.recall key n).agenda = s.agenda := rfl
@[simp] theorem State.recall_tick (s : State) (key n : Nat) : (s.recall key n).tick = s.tick := rfl
@[simp] theorem State.recall_nextId (s : State) (key n : Nat) : (s.recall key n).nextId = s.nextId := rfl
@[simp] theorem State.recall_mem (s : State) (key n : Nat) : (s.recall key n).mem = s.mem := rfl
@[simp] theorem State.recall_tags (s : State) (key n : Nat) : (s.recall key n).tags = s.tags := rfl
@[simp] theorem State.recall_full (s : State) (key n : Nat) : (s.recall key n).full = s.full := rfl
@[simp] theorem State.recall_bad (s : State) (key n : Nat) : (s.recall key n).bad = s.bad := rfl
@[simp] theorem State.recall_l1 (s : State) (key n : Nat) : (s.recall key n).l1 = s.l1 := rfl
@[simp] theorem State.recall_glazes (s : State) (key n : Nat) : (s.recall key n).glazes = s.glazes := rfl
@[simp] theorem State.recall_glzSince (s : State) (key n : Nat) : (s.recall key n).glzSince = s.glzSince := rfl
@[simp] theorem State.recall_dogs (s : State) (key n : Nat) : (s.recall key n).dogs = s.dogs := rfl
@[simp] theorem State.recall_l2 (s : State) (key n : Nat) : (s.recall key n).l2 = s.l2 := rfl
@[simp] theorem State.recall_past (s : State) (key n : Nat) : (s.recall key n).past = s.past := rfl
@[simp] theorem State.recall_wrote (s : State) (key n : Nat) : (s.recall key n).wrote = s.wrote := rfl
@[simp] theorem State.recall_icache (s : State) (key n : Nat) : (s.recall key n).icache = s.icache := rfl
@[simp] theorem State.recall_tlb (s : State) (key n : Nat) : (s.recall key n).tlb = s.tlb := rfl
@[simp] theorem State.recall_cores (s : State) (key n : Nat) : (s.recall key n).cores = s.cores := rfl
@[simp] theorem State.recall_ctxs (s : State) (key n : Nat) : (s.recall key n).ctxs = s.ctxs := rfl
@[simp] theorem State.recall_issues (s : State) (key n : Nat) : (s.recall key n).issues = s.issues := rfl
@[simp] theorem State.recall_kNotes (s : State) (key n : Nat) : (s.recall key n).kNotes = s.kNotes := rfl
@[simp] theorem State.recall_holds (s : State) (key n : Nat) : (s.recall key n).holds = s.holds := rfl
@[simp] theorem State.recall_lots (s : State) (key n : Nat) : (s.recall key n).lots = s.lots := rfl
@[simp] theorem State.recall_spans (s : State) (key n : Nat) : (s.recall key n).spans = s.spans := rfl
@[simp] theorem State.recall_saved (s : State) (key n : Nat) : (s.recall key n).saved = s.saved := rfl
@[simp] theorem State.recall_host (s : State) (key n : Nat) : (s.recall key n).host = s.host := rfl
@[simp] theorem State.recall_hostMem (s : State) (key n : Nat) : (s.recall key n).hostMem = s.hostMem := rfl
@[simp] theorem State.recall_hostOut (s : State) (key n : Nat) : (s.recall key n).hostOut = s.hostOut := rfl
@[simp] theorem State.recall_hostReads (s : State) (key n : Nat) : (s.recall key n).hostReads = s.hostReads := rfl
@[simp] theorem State.recall_hcmd (s : State) (key n : Nat) : (s.recall key n).hcmd = s.hcmd := rfl
@[simp] theorem State.recall_peerWait (s : State) (key n : Nat) : (s.recall key n).peerWait = s.peerWait := rfl
@[simp] theorem State.recall_peerOut (s : State) (key n : Nat) : (s.recall key n).peerOut = s.peerOut := rfl
@[simp] theorem State.recall_mgmt (s : State) (key n : Nat) : (s.recall key n).mgmt = s.mgmt := rfl

@[simp] theorem State.voidDogs_agenda (s : State) (old : State) : (s.voidDogs old).agenda = s.agenda := rfl
@[simp] theorem State.voidDogs_tick (s : State) (old : State) : (s.voidDogs old).tick = s.tick := rfl
@[simp] theorem State.voidDogs_nextId (s : State) (old : State) : (s.voidDogs old).nextId = s.nextId := rfl
@[simp] theorem State.voidDogs_mem (s : State) (old : State) : (s.voidDogs old).mem = s.mem := rfl
@[simp] theorem State.voidDogs_tags (s : State) (old : State) : (s.voidDogs old).tags = s.tags := rfl
@[simp] theorem State.voidDogs_full (s : State) (old : State) : (s.voidDogs old).full = s.full := rfl
@[simp] theorem State.voidDogs_bad (s : State) (old : State) : (s.voidDogs old).bad = s.bad := rfl
@[simp] theorem State.voidDogs_l1 (s : State) (old : State) : (s.voidDogs old).l1 = s.l1 := rfl
@[simp] theorem State.voidDogs_checkouts (s : State) (old : State) : (s.voidDogs old).checkouts = s.checkouts := rfl
@[simp] theorem State.voidDogs_glazes (s : State) (old : State) : (s.voidDogs old).glazes = s.glazes := rfl
@[simp] theorem State.voidDogs_glzSince (s : State) (old : State) : (s.voidDogs old).glzSince = s.glzSince := rfl
@[simp] theorem State.voidDogs_l2 (s : State) (old : State) : (s.voidDogs old).l2 = s.l2 := rfl
@[simp] theorem State.voidDogs_past (s : State) (old : State) : (s.voidDogs old).past = s.past := rfl
@[simp] theorem State.voidDogs_wrote (s : State) (old : State) : (s.voidDogs old).wrote = s.wrote := rfl
@[simp] theorem State.voidDogs_icache (s : State) (old : State) : (s.voidDogs old).icache = s.icache := rfl
@[simp] theorem State.voidDogs_tlb (s : State) (old : State) : (s.voidDogs old).tlb = s.tlb := rfl
@[simp] theorem State.voidDogs_cores (s : State) (old : State) : (s.voidDogs old).cores = s.cores := rfl
@[simp] theorem State.voidDogs_ctxs (s : State) (old : State) : (s.voidDogs old).ctxs = s.ctxs := rfl
@[simp] theorem State.voidDogs_teams (s : State) (old : State) : (s.voidDogs old).teams = s.teams := rfl
@[simp] theorem State.voidDogs_issues (s : State) (old : State) : (s.voidDogs old).issues = s.issues := rfl
@[simp] theorem State.voidDogs_kNotes (s : State) (old : State) : (s.voidDogs old).kNotes = s.kNotes := rfl
@[simp] theorem State.voidDogs_holds (s : State) (old : State) : (s.voidDogs old).holds = s.holds := rfl
@[simp] theorem State.voidDogs_lots (s : State) (old : State) : (s.voidDogs old).lots = s.lots := rfl
@[simp] theorem State.voidDogs_spans (s : State) (old : State) : (s.voidDogs old).spans = s.spans := rfl
@[simp] theorem State.voidDogs_saved (s : State) (old : State) : (s.voidDogs old).saved = s.saved := rfl
@[simp] theorem State.voidDogs_host (s : State) (old : State) : (s.voidDogs old).host = s.host := rfl
@[simp] theorem State.voidDogs_hostMem (s : State) (old : State) : (s.voidDogs old).hostMem = s.hostMem := rfl
@[simp] theorem State.voidDogs_hostOut (s : State) (old : State) : (s.voidDogs old).hostOut = s.hostOut := rfl
@[simp] theorem State.voidDogs_hostReads (s : State) (old : State) : (s.voidDogs old).hostReads = s.hostReads := rfl
@[simp] theorem State.voidDogs_hcmd (s : State) (old : State) : (s.voidDogs old).hcmd = s.hcmd := rfl
@[simp] theorem State.voidDogs_peerWait (s : State) (old : State) : (s.voidDogs old).peerWait = s.peerWait := rfl
@[simp] theorem State.voidDogs_peerOut (s : State) (old : State) : (s.voidDogs old).peerOut = s.peerOut := rfl
@[simp] theorem State.voidDogs_mgmt (s : State) (old : State) : (s.voidDogs old).mgmt = s.mgmt := rfl

@[simp] theorem State.zero_agenda (s : State) (key n : Nat) : (s.zero key n).agenda = s.agenda := rfl
@[simp] theorem State.zero_tick (s : State) (key n : Nat) : (s.zero key n).tick = s.tick := rfl
@[simp] theorem State.zero_nextId (s : State) (key n : Nat) : (s.zero key n).nextId = s.nextId := rfl
@[simp] theorem State.zero_tags (s : State) (key n : Nat) : (s.zero key n).tags = s.tags := rfl
@[simp] theorem State.zero_full (s : State) (key n : Nat) : (s.zero key n).full = s.full := rfl
@[simp] theorem State.zero_bad (s : State) (key n : Nat) : (s.zero key n).bad = s.bad := rfl
@[simp] theorem State.zero_l1 (s : State) (key n : Nat) : (s.zero key n).l1 = s.l1 := rfl
@[simp] theorem State.zero_checkouts (s : State) (key n : Nat) : (s.zero key n).checkouts = s.checkouts := rfl
@[simp] theorem State.zero_glazes (s : State) (key n : Nat) : (s.zero key n).glazes = s.glazes := rfl
@[simp] theorem State.zero_glzSince (s : State) (key n : Nat) : (s.zero key n).glzSince = s.glzSince := rfl
@[simp] theorem State.zero_dogs (s : State) (key n : Nat) : (s.zero key n).dogs = s.dogs := rfl
@[simp] theorem State.zero_l2 (s : State) (key n : Nat) : (s.zero key n).l2 = s.l2 := rfl
@[simp] theorem State.zero_past (s : State) (key n : Nat) : (s.zero key n).past = s.past := rfl
@[simp] theorem State.zero_wrote (s : State) (key n : Nat) : (s.zero key n).wrote = s.wrote := rfl
@[simp] theorem State.zero_icache (s : State) (key n : Nat) : (s.zero key n).icache = s.icache := rfl
@[simp] theorem State.zero_tlb (s : State) (key n : Nat) : (s.zero key n).tlb = s.tlb := rfl
@[simp] theorem State.zero_cores (s : State) (key n : Nat) : (s.zero key n).cores = s.cores := rfl
@[simp] theorem State.zero_ctxs (s : State) (key n : Nat) : (s.zero key n).ctxs = s.ctxs := rfl
@[simp] theorem State.zero_teams (s : State) (key n : Nat) : (s.zero key n).teams = s.teams := rfl
@[simp] theorem State.zero_issues (s : State) (key n : Nat) : (s.zero key n).issues = s.issues := rfl
@[simp] theorem State.zero_kNotes (s : State) (key n : Nat) : (s.zero key n).kNotes = s.kNotes := rfl
@[simp] theorem State.zero_holds (s : State) (key n : Nat) : (s.zero key n).holds = s.holds := rfl
@[simp] theorem State.zero_lots (s : State) (key n : Nat) : (s.zero key n).lots = s.lots := rfl
@[simp] theorem State.zero_spans (s : State) (key n : Nat) : (s.zero key n).spans = s.spans := rfl
@[simp] theorem State.zero_saved (s : State) (key n : Nat) : (s.zero key n).saved = s.saved := rfl
@[simp] theorem State.zero_host (s : State) (key n : Nat) : (s.zero key n).host = s.host := rfl
@[simp] theorem State.zero_hostMem (s : State) (key n : Nat) : (s.zero key n).hostMem = s.hostMem := rfl
@[simp] theorem State.zero_hostOut (s : State) (key n : Nat) : (s.zero key n).hostOut = s.hostOut := rfl
@[simp] theorem State.zero_hostReads (s : State) (key n : Nat) : (s.zero key n).hostReads = s.hostReads := rfl
@[simp] theorem State.zero_hcmd (s : State) (key n : Nat) : (s.zero key n).hcmd = s.hcmd := rfl
@[simp] theorem State.zero_peerWait (s : State) (key n : Nat) : (s.zero key n).peerWait = s.peerWait := rfl
@[simp] theorem State.zero_peerOut (s : State) (key n : Nat) : (s.zero key n).peerOut = s.peerOut := rfl
@[simp] theorem State.zero_mgmt (s : State) (key n : Nat) : (s.zero key n).mgmt = s.mgmt := rfl

@[simp] theorem State.leaveGroup_agenda (s : State) (id i : Nat) : (s.leaveGroup id i).agenda = s.agenda := rfl
@[simp] theorem State.leaveGroup_tick (s : State) (id i : Nat) : (s.leaveGroup id i).tick = s.tick := rfl
@[simp] theorem State.leaveGroup_nextId (s : State) (id i : Nat) : (s.leaveGroup id i).nextId = s.nextId := rfl
@[simp] theorem State.leaveGroup_mem (s : State) (id i : Nat) : (s.leaveGroup id i).mem = s.mem := rfl
@[simp] theorem State.leaveGroup_tags (s : State) (id i : Nat) : (s.leaveGroup id i).tags = s.tags := rfl
@[simp] theorem State.leaveGroup_full (s : State) (id i : Nat) : (s.leaveGroup id i).full = s.full := rfl
@[simp] theorem State.leaveGroup_bad (s : State) (id i : Nat) : (s.leaveGroup id i).bad = s.bad := rfl
@[simp] theorem State.leaveGroup_l1 (s : State) (id i : Nat) : (s.leaveGroup id i).l1 = s.l1 := rfl
@[simp] theorem State.leaveGroup_checkouts (s : State) (id i : Nat) : (s.leaveGroup id i).checkouts = s.checkouts := rfl
@[simp] theorem State.leaveGroup_glazes (s : State) (id i : Nat) : (s.leaveGroup id i).glazes = s.glazes := rfl
@[simp] theorem State.leaveGroup_glzSince (s : State) (id i : Nat) : (s.leaveGroup id i).glzSince = s.glzSince := rfl
@[simp] theorem State.leaveGroup_dogs (s : State) (id i : Nat) : (s.leaveGroup id i).dogs = s.dogs := rfl
@[simp] theorem State.leaveGroup_l2 (s : State) (id i : Nat) : (s.leaveGroup id i).l2 = s.l2 := rfl
@[simp] theorem State.leaveGroup_past (s : State) (id i : Nat) : (s.leaveGroup id i).past = s.past := rfl
@[simp] theorem State.leaveGroup_wrote (s : State) (id i : Nat) : (s.leaveGroup id i).wrote = s.wrote := rfl
@[simp] theorem State.leaveGroup_icache (s : State) (id i : Nat) : (s.leaveGroup id i).icache = s.icache := rfl
@[simp] theorem State.leaveGroup_tlb (s : State) (id i : Nat) : (s.leaveGroup id i).tlb = s.tlb := rfl
@[simp] theorem State.leaveGroup_cores (s : State) (id i : Nat) : (s.leaveGroup id i).cores = s.cores := rfl
@[simp] theorem State.leaveGroup_ctxs (s : State) (id i : Nat) : (s.leaveGroup id i).ctxs = s.ctxs := rfl
@[simp] theorem State.leaveGroup_teams (s : State) (id i : Nat) : (s.leaveGroup id i).teams = s.teams := rfl
@[simp] theorem State.leaveGroup_kNotes (s : State) (id i : Nat) : (s.leaveGroup id i).kNotes = s.kNotes := rfl
@[simp] theorem State.leaveGroup_lots (s : State) (id i : Nat) : (s.leaveGroup id i).lots = s.lots := rfl
@[simp] theorem State.leaveGroup_spans (s : State) (id i : Nat) : (s.leaveGroup id i).spans = s.spans := rfl
@[simp] theorem State.leaveGroup_saved (s : State) (id i : Nat) : (s.leaveGroup id i).saved = s.saved := rfl
@[simp] theorem State.leaveGroup_host (s : State) (id i : Nat) : (s.leaveGroup id i).host = s.host := rfl
@[simp] theorem State.leaveGroup_hostMem (s : State) (id i : Nat) : (s.leaveGroup id i).hostMem = s.hostMem := rfl
@[simp] theorem State.leaveGroup_hostOut (s : State) (id i : Nat) : (s.leaveGroup id i).hostOut = s.hostOut := rfl
@[simp] theorem State.leaveGroup_hostReads (s : State) (id i : Nat) : (s.leaveGroup id i).hostReads = s.hostReads := rfl
@[simp] theorem State.leaveGroup_hcmd (s : State) (id i : Nat) : (s.leaveGroup id i).hcmd = s.hcmd := rfl
@[simp] theorem State.leaveGroup_peerWait (s : State) (id i : Nat) : (s.leaveGroup id i).peerWait = s.peerWait := rfl
@[simp] theorem State.leaveGroup_peerOut (s : State) (id i : Nat) : (s.leaveGroup id i).peerOut = s.peerOut := rfl
@[simp] theorem State.leaveGroup_mgmt (s : State) (id i : Nat) : (s.leaveGroup id i).mgmt = s.mgmt := rfl

@[simp] theorem State.reportLate_agenda (s : State) (id i : Nat) (f : FaultRep) : (s.reportLate id i f).agenda = s.agenda := rfl
@[simp] theorem State.reportLate_tick (s : State) (id i : Nat) (f : FaultRep) : (s.reportLate id i f).tick = s.tick := rfl
@[simp] theorem State.reportLate_nextId (s : State) (id i : Nat) (f : FaultRep) : (s.reportLate id i f).nextId = s.nextId := rfl
@[simp] theorem State.reportLate_mem (s : State) (id i : Nat) (f : FaultRep) : (s.reportLate id i f).mem = s.mem := rfl
@[simp] theorem State.reportLate_tags (s : State) (id i : Nat) (f : FaultRep) : (s.reportLate id i f).tags = s.tags := rfl
@[simp] theorem State.reportLate_full (s : State) (id i : Nat) (f : FaultRep) : (s.reportLate id i f).full = s.full := rfl
@[simp] theorem State.reportLate_bad (s : State) (id i : Nat) (f : FaultRep) : (s.reportLate id i f).bad = s.bad := rfl
@[simp] theorem State.reportLate_l1 (s : State) (id i : Nat) (f : FaultRep) : (s.reportLate id i f).l1 = s.l1 := rfl
@[simp] theorem State.reportLate_checkouts (s : State) (id i : Nat) (f : FaultRep) : (s.reportLate id i f).checkouts = s.checkouts := rfl
@[simp] theorem State.reportLate_glazes (s : State) (id i : Nat) (f : FaultRep) : (s.reportLate id i f).glazes = s.glazes := rfl
@[simp] theorem State.reportLate_glzSince (s : State) (id i : Nat) (f : FaultRep) : (s.reportLate id i f).glzSince = s.glzSince := rfl
@[simp] theorem State.reportLate_dogs (s : State) (id i : Nat) (f : FaultRep) : (s.reportLate id i f).dogs = s.dogs := rfl
@[simp] theorem State.reportLate_l2 (s : State) (id i : Nat) (f : FaultRep) : (s.reportLate id i f).l2 = s.l2 := rfl
@[simp] theorem State.reportLate_past (s : State) (id i : Nat) (f : FaultRep) : (s.reportLate id i f).past = s.past := rfl
@[simp] theorem State.reportLate_wrote (s : State) (id i : Nat) (f : FaultRep) : (s.reportLate id i f).wrote = s.wrote := rfl
@[simp] theorem State.reportLate_icache (s : State) (id i : Nat) (f : FaultRep) : (s.reportLate id i f).icache = s.icache := rfl
@[simp] theorem State.reportLate_tlb (s : State) (id i : Nat) (f : FaultRep) : (s.reportLate id i f).tlb = s.tlb := rfl
@[simp] theorem State.reportLate_cores (s : State) (id i : Nat) (f : FaultRep) : (s.reportLate id i f).cores = s.cores := rfl
@[simp] theorem State.reportLate_ctxs (s : State) (id i : Nat) (f : FaultRep) : (s.reportLate id i f).ctxs = s.ctxs := rfl
@[simp] theorem State.reportLate_issues (s : State) (id i : Nat) (f : FaultRep) : (s.reportLate id i f).issues = s.issues := rfl
@[simp] theorem State.reportLate_kNotes (s : State) (id i : Nat) (f : FaultRep) : (s.reportLate id i f).kNotes = s.kNotes := rfl
@[simp] theorem State.reportLate_holds (s : State) (id i : Nat) (f : FaultRep) : (s.reportLate id i f).holds = s.holds := rfl
@[simp] theorem State.reportLate_lots (s : State) (id i : Nat) (f : FaultRep) : (s.reportLate id i f).lots = s.lots := rfl
@[simp] theorem State.reportLate_spans (s : State) (id i : Nat) (f : FaultRep) : (s.reportLate id i f).spans = s.spans := rfl
@[simp] theorem State.reportLate_saved (s : State) (id i : Nat) (f : FaultRep) : (s.reportLate id i f).saved = s.saved := rfl
@[simp] theorem State.reportLate_host (s : State) (id i : Nat) (f : FaultRep) : (s.reportLate id i f).host = s.host := rfl
@[simp] theorem State.reportLate_hostMem (s : State) (id i : Nat) (f : FaultRep) : (s.reportLate id i f).hostMem = s.hostMem := rfl
@[simp] theorem State.reportLate_hostOut (s : State) (id i : Nat) (f : FaultRep) : (s.reportLate id i f).hostOut = s.hostOut := rfl
@[simp] theorem State.reportLate_hostReads (s : State) (id i : Nat) (f : FaultRep) : (s.reportLate id i f).hostReads = s.hostReads := rfl
@[simp] theorem State.reportLate_hcmd (s : State) (id i : Nat) (f : FaultRep) : (s.reportLate id i f).hcmd = s.hcmd := rfl
@[simp] theorem State.reportLate_peerWait (s : State) (id i : Nat) (f : FaultRep) : (s.reportLate id i f).peerWait = s.peerWait := rfl
@[simp] theorem State.reportLate_peerOut (s : State) (id i : Nat) (f : FaultRep) : (s.reportLate id i f).peerOut = s.peerOut := rfl
@[simp] theorem State.reportLate_mgmt (s : State) (id i : Nat) (f : FaultRep) : (s.reportLate id i f).mgmt = s.mgmt := rfl

@[simp] theorem State.stallFor_agenda (s : State) (x : Issue) (i : Nat) : (s.stallFor x i).agenda = s.agenda := rfl
@[simp] theorem State.stallFor_tick (s : State) (x : Issue) (i : Nat) : (s.stallFor x i).tick = s.tick := rfl
@[simp] theorem State.stallFor_nextId (s : State) (x : Issue) (i : Nat) : (s.stallFor x i).nextId = s.nextId := rfl
@[simp] theorem State.stallFor_mem (s : State) (x : Issue) (i : Nat) : (s.stallFor x i).mem = s.mem := rfl
@[simp] theorem State.stallFor_tags (s : State) (x : Issue) (i : Nat) : (s.stallFor x i).tags = s.tags := rfl
@[simp] theorem State.stallFor_full (s : State) (x : Issue) (i : Nat) : (s.stallFor x i).full = s.full := rfl
@[simp] theorem State.stallFor_bad (s : State) (x : Issue) (i : Nat) : (s.stallFor x i).bad = s.bad := rfl
@[simp] theorem State.stallFor_l1 (s : State) (x : Issue) (i : Nat) : (s.stallFor x i).l1 = s.l1 := rfl
@[simp] theorem State.stallFor_checkouts (s : State) (x : Issue) (i : Nat) : (s.stallFor x i).checkouts = s.checkouts := rfl
@[simp] theorem State.stallFor_glazes (s : State) (x : Issue) (i : Nat) : (s.stallFor x i).glazes = s.glazes := rfl
@[simp] theorem State.stallFor_glzSince (s : State) (x : Issue) (i : Nat) : (s.stallFor x i).glzSince = s.glzSince := rfl
@[simp] theorem State.stallFor_dogs (s : State) (x : Issue) (i : Nat) : (s.stallFor x i).dogs = s.dogs := rfl
@[simp] theorem State.stallFor_l2 (s : State) (x : Issue) (i : Nat) : (s.stallFor x i).l2 = s.l2 := rfl
@[simp] theorem State.stallFor_past (s : State) (x : Issue) (i : Nat) : (s.stallFor x i).past = s.past := rfl
@[simp] theorem State.stallFor_wrote (s : State) (x : Issue) (i : Nat) : (s.stallFor x i).wrote = s.wrote := rfl
@[simp] theorem State.stallFor_icache (s : State) (x : Issue) (i : Nat) : (s.stallFor x i).icache = s.icache := rfl
@[simp] theorem State.stallFor_tlb (s : State) (x : Issue) (i : Nat) : (s.stallFor x i).tlb = s.tlb := rfl
@[simp] theorem State.stallFor_cores (s : State) (x : Issue) (i : Nat) : (s.stallFor x i).cores = s.cores := rfl
@[simp] theorem State.stallFor_ctxs (s : State) (x : Issue) (i : Nat) : (s.stallFor x i).ctxs = s.ctxs := rfl
@[simp] theorem State.stallFor_teams (s : State) (x : Issue) (i : Nat) : (s.stallFor x i).teams = s.teams := rfl
@[simp] theorem State.stallFor_kNotes (s : State) (x : Issue) (i : Nat) : (s.stallFor x i).kNotes = s.kNotes := rfl
@[simp] theorem State.stallFor_holds (s : State) (x : Issue) (i : Nat) : (s.stallFor x i).holds = s.holds := rfl
@[simp] theorem State.stallFor_lots (s : State) (x : Issue) (i : Nat) : (s.stallFor x i).lots = s.lots := rfl
@[simp] theorem State.stallFor_spans (s : State) (x : Issue) (i : Nat) : (s.stallFor x i).spans = s.spans := rfl
@[simp] theorem State.stallFor_saved (s : State) (x : Issue) (i : Nat) : (s.stallFor x i).saved = s.saved := rfl
@[simp] theorem State.stallFor_host (s : State) (x : Issue) (i : Nat) : (s.stallFor x i).host = s.host := rfl
@[simp] theorem State.stallFor_hostMem (s : State) (x : Issue) (i : Nat) : (s.stallFor x i).hostMem = s.hostMem := rfl
@[simp] theorem State.stallFor_hostOut (s : State) (x : Issue) (i : Nat) : (s.stallFor x i).hostOut = s.hostOut := rfl
@[simp] theorem State.stallFor_hostReads (s : State) (x : Issue) (i : Nat) : (s.stallFor x i).hostReads = s.hostReads := rfl
@[simp] theorem State.stallFor_hcmd (s : State) (x : Issue) (i : Nat) : (s.stallFor x i).hcmd = s.hcmd := rfl
@[simp] theorem State.stallFor_peerWait (s : State) (x : Issue) (i : Nat) : (s.stallFor x i).peerWait = s.peerWait := rfl
@[simp] theorem State.stallFor_peerOut (s : State) (x : Issue) (i : Nat) : (s.stallFor x i).peerOut = s.peerOut := rfl
@[simp] theorem State.stallFor_mgmt (s : State) (x : Issue) (i : Nat) : (s.stallFor x i).mgmt = s.mgmt := rfl

@[simp] theorem State.modOp_agenda (s : State) (tm i id : Nat) (f : Op → Op) : (s.modOp tm i id f).agenda = s.agenda := rfl
@[simp] theorem State.modOp_tick (s : State) (tm i id : Nat) (f : Op → Op) : (s.modOp tm i id f).tick = s.tick := rfl
@[simp] theorem State.modOp_nextId (s : State) (tm i id : Nat) (f : Op → Op) : (s.modOp tm i id f).nextId = s.nextId := rfl
@[simp] theorem State.modOp_mem (s : State) (tm i id : Nat) (f : Op → Op) : (s.modOp tm i id f).mem = s.mem := rfl
@[simp] theorem State.modOp_tags (s : State) (tm i id : Nat) (f : Op → Op) : (s.modOp tm i id f).tags = s.tags := rfl
@[simp] theorem State.modOp_full (s : State) (tm i id : Nat) (f : Op → Op) : (s.modOp tm i id f).full = s.full := rfl
@[simp] theorem State.modOp_bad (s : State) (tm i id : Nat) (f : Op → Op) : (s.modOp tm i id f).bad = s.bad := rfl
@[simp] theorem State.modOp_l1 (s : State) (tm i id : Nat) (f : Op → Op) : (s.modOp tm i id f).l1 = s.l1 := rfl
@[simp] theorem State.modOp_checkouts (s : State) (tm i id : Nat) (f : Op → Op) : (s.modOp tm i id f).checkouts = s.checkouts := rfl
@[simp] theorem State.modOp_glazes (s : State) (tm i id : Nat) (f : Op → Op) : (s.modOp tm i id f).glazes = s.glazes := rfl
@[simp] theorem State.modOp_glzSince (s : State) (tm i id : Nat) (f : Op → Op) : (s.modOp tm i id f).glzSince = s.glzSince := rfl
@[simp] theorem State.modOp_dogs (s : State) (tm i id : Nat) (f : Op → Op) : (s.modOp tm i id f).dogs = s.dogs := rfl
@[simp] theorem State.modOp_l2 (s : State) (tm i id : Nat) (f : Op → Op) : (s.modOp tm i id f).l2 = s.l2 := rfl
@[simp] theorem State.modOp_past (s : State) (tm i id : Nat) (f : Op → Op) : (s.modOp tm i id f).past = s.past := rfl
@[simp] theorem State.modOp_wrote (s : State) (tm i id : Nat) (f : Op → Op) : (s.modOp tm i id f).wrote = s.wrote := rfl
@[simp] theorem State.modOp_icache (s : State) (tm i id : Nat) (f : Op → Op) : (s.modOp tm i id f).icache = s.icache := rfl
@[simp] theorem State.modOp_tlb (s : State) (tm i id : Nat) (f : Op → Op) : (s.modOp tm i id f).tlb = s.tlb := rfl
@[simp] theorem State.modOp_cores (s : State) (tm i id : Nat) (f : Op → Op) : (s.modOp tm i id f).cores = s.cores := rfl
@[simp] theorem State.modOp_ctxs (s : State) (tm i id : Nat) (f : Op → Op) : (s.modOp tm i id f).ctxs = s.ctxs := rfl
@[simp] theorem State.modOp_issues (s : State) (tm i id : Nat) (f : Op → Op) : (s.modOp tm i id f).issues = s.issues := rfl
@[simp] theorem State.modOp_kNotes (s : State) (tm i id : Nat) (f : Op → Op) : (s.modOp tm i id f).kNotes = s.kNotes := rfl
@[simp] theorem State.modOp_holds (s : State) (tm i id : Nat) (f : Op → Op) : (s.modOp tm i id f).holds = s.holds := rfl
@[simp] theorem State.modOp_lots (s : State) (tm i id : Nat) (f : Op → Op) : (s.modOp tm i id f).lots = s.lots := rfl
@[simp] theorem State.modOp_spans (s : State) (tm i id : Nat) (f : Op → Op) : (s.modOp tm i id f).spans = s.spans := rfl
@[simp] theorem State.modOp_saved (s : State) (tm i id : Nat) (f : Op → Op) : (s.modOp tm i id f).saved = s.saved := rfl
@[simp] theorem State.modOp_host (s : State) (tm i id : Nat) (f : Op → Op) : (s.modOp tm i id f).host = s.host := rfl
@[simp] theorem State.modOp_hostMem (s : State) (tm i id : Nat) (f : Op → Op) : (s.modOp tm i id f).hostMem = s.hostMem := rfl
@[simp] theorem State.modOp_hostOut (s : State) (tm i id : Nat) (f : Op → Op) : (s.modOp tm i id f).hostOut = s.hostOut := rfl
@[simp] theorem State.modOp_hostReads (s : State) (tm i id : Nat) (f : Op → Op) : (s.modOp tm i id f).hostReads = s.hostReads := rfl
@[simp] theorem State.modOp_hcmd (s : State) (tm i id : Nat) (f : Op → Op) : (s.modOp tm i id f).hcmd = s.hcmd := rfl
@[simp] theorem State.modOp_peerWait (s : State) (tm i id : Nat) (f : Op → Op) : (s.modOp tm i id f).peerWait = s.peerWait := rfl
@[simp] theorem State.modOp_peerOut (s : State) (tm i id : Nat) (f : Op → Op) : (s.modOp tm i id f).peerOut = s.peerOut := rfl
@[simp] theorem State.modOp_mgmt (s : State) (tm i id : Nat) (f : Op → Op) : (s.modOp tm i id f).mgmt = s.mgmt := rfl

@[simp] theorem State.completeOp_agenda (s : State) (tm i : Nat) (o : Op) (ws : List (Nat × Word)) : (s.completeOp tm i o ws).agenda = s.agenda := rfl
@[simp] theorem State.completeOp_tick (s : State) (tm i : Nat) (o : Op) (ws : List (Nat × Word)) : (s.completeOp tm i o ws).tick = s.tick := rfl
@[simp] theorem State.completeOp_nextId (s : State) (tm i : Nat) (o : Op) (ws : List (Nat × Word)) : (s.completeOp tm i o ws).nextId = s.nextId := rfl
@[simp] theorem State.completeOp_mem (s : State) (tm i : Nat) (o : Op) (ws : List (Nat × Word)) : (s.completeOp tm i o ws).mem = s.mem := rfl
@[simp] theorem State.completeOp_tags (s : State) (tm i : Nat) (o : Op) (ws : List (Nat × Word)) : (s.completeOp tm i o ws).tags = s.tags := rfl
@[simp] theorem State.completeOp_full (s : State) (tm i : Nat) (o : Op) (ws : List (Nat × Word)) : (s.completeOp tm i o ws).full = s.full := rfl
@[simp] theorem State.completeOp_bad (s : State) (tm i : Nat) (o : Op) (ws : List (Nat × Word)) : (s.completeOp tm i o ws).bad = s.bad := rfl
@[simp] theorem State.completeOp_l1 (s : State) (tm i : Nat) (o : Op) (ws : List (Nat × Word)) : (s.completeOp tm i o ws).l1 = s.l1 := rfl
@[simp] theorem State.completeOp_checkouts (s : State) (tm i : Nat) (o : Op) (ws : List (Nat × Word)) : (s.completeOp tm i o ws).checkouts = s.checkouts := rfl
@[simp] theorem State.completeOp_glazes (s : State) (tm i : Nat) (o : Op) (ws : List (Nat × Word)) : (s.completeOp tm i o ws).glazes = s.glazes := rfl
@[simp] theorem State.completeOp_glzSince (s : State) (tm i : Nat) (o : Op) (ws : List (Nat × Word)) : (s.completeOp tm i o ws).glzSince = s.glzSince := rfl
@[simp] theorem State.completeOp_dogs (s : State) (tm i : Nat) (o : Op) (ws : List (Nat × Word)) : (s.completeOp tm i o ws).dogs = s.dogs := rfl
@[simp] theorem State.completeOp_l2 (s : State) (tm i : Nat) (o : Op) (ws : List (Nat × Word)) : (s.completeOp tm i o ws).l2 = s.l2 := rfl
@[simp] theorem State.completeOp_past (s : State) (tm i : Nat) (o : Op) (ws : List (Nat × Word)) : (s.completeOp tm i o ws).past = s.past := rfl
@[simp] theorem State.completeOp_wrote (s : State) (tm i : Nat) (o : Op) (ws : List (Nat × Word)) : (s.completeOp tm i o ws).wrote = s.wrote := rfl
@[simp] theorem State.completeOp_icache (s : State) (tm i : Nat) (o : Op) (ws : List (Nat × Word)) : (s.completeOp tm i o ws).icache = s.icache := rfl
@[simp] theorem State.completeOp_tlb (s : State) (tm i : Nat) (o : Op) (ws : List (Nat × Word)) : (s.completeOp tm i o ws).tlb = s.tlb := rfl
@[simp] theorem State.completeOp_cores (s : State) (tm i : Nat) (o : Op) (ws : List (Nat × Word)) : (s.completeOp tm i o ws).cores = s.cores := rfl
@[simp] theorem State.completeOp_ctxs (s : State) (tm i : Nat) (o : Op) (ws : List (Nat × Word)) : (s.completeOp tm i o ws).ctxs = s.ctxs := rfl
@[simp] theorem State.completeOp_issues (s : State) (tm i : Nat) (o : Op) (ws : List (Nat × Word)) : (s.completeOp tm i o ws).issues = s.issues := rfl
@[simp] theorem State.completeOp_kNotes (s : State) (tm i : Nat) (o : Op) (ws : List (Nat × Word)) : (s.completeOp tm i o ws).kNotes = s.kNotes := rfl
@[simp] theorem State.completeOp_holds (s : State) (tm i : Nat) (o : Op) (ws : List (Nat × Word)) : (s.completeOp tm i o ws).holds = s.holds := rfl
@[simp] theorem State.completeOp_lots (s : State) (tm i : Nat) (o : Op) (ws : List (Nat × Word)) : (s.completeOp tm i o ws).lots = s.lots := rfl
@[simp] theorem State.completeOp_spans (s : State) (tm i : Nat) (o : Op) (ws : List (Nat × Word)) : (s.completeOp tm i o ws).spans = s.spans := rfl
@[simp] theorem State.completeOp_saved (s : State) (tm i : Nat) (o : Op) (ws : List (Nat × Word)) : (s.completeOp tm i o ws).saved = s.saved := rfl
@[simp] theorem State.completeOp_host (s : State) (tm i : Nat) (o : Op) (ws : List (Nat × Word)) : (s.completeOp tm i o ws).host = s.host := rfl
@[simp] theorem State.completeOp_hostMem (s : State) (tm i : Nat) (o : Op) (ws : List (Nat × Word)) : (s.completeOp tm i o ws).hostMem = s.hostMem := rfl
@[simp] theorem State.completeOp_hostOut (s : State) (tm i : Nat) (o : Op) (ws : List (Nat × Word)) : (s.completeOp tm i o ws).hostOut = s.hostOut := rfl
@[simp] theorem State.completeOp_hostReads (s : State) (tm i : Nat) (o : Op) (ws : List (Nat × Word)) : (s.completeOp tm i o ws).hostReads = s.hostReads := rfl
@[simp] theorem State.completeOp_hcmd (s : State) (tm i : Nat) (o : Op) (ws : List (Nat × Word)) : (s.completeOp tm i o ws).hcmd = s.hcmd := rfl
@[simp] theorem State.completeOp_peerWait (s : State) (tm i : Nat) (o : Op) (ws : List (Nat × Word)) : (s.completeOp tm i o ws).peerWait = s.peerWait := rfl
@[simp] theorem State.completeOp_peerOut (s : State) (tm i : Nat) (o : Op) (ws : List (Nat × Word)) : (s.completeOp tm i o ws).peerOut = s.peerOut := rfl
@[simp] theorem State.completeOp_mgmt (s : State) (tm i : Nat) (o : Op) (ws : List (Nat × Word)) : (s.completeOp tm i o ws).mgmt = s.mgmt := rfl

@[simp] theorem State.dropWait_agenda (s : State) (tm i id : Nat) : (s.dropWait tm i id).agenda = s.agenda := rfl
@[simp] theorem State.dropWait_tick (s : State) (tm i id : Nat) : (s.dropWait tm i id).tick = s.tick := rfl
@[simp] theorem State.dropWait_nextId (s : State) (tm i id : Nat) : (s.dropWait tm i id).nextId = s.nextId := rfl
@[simp] theorem State.dropWait_mem (s : State) (tm i id : Nat) : (s.dropWait tm i id).mem = s.mem := rfl
@[simp] theorem State.dropWait_tags (s : State) (tm i id : Nat) : (s.dropWait tm i id).tags = s.tags := rfl
@[simp] theorem State.dropWait_full (s : State) (tm i id : Nat) : (s.dropWait tm i id).full = s.full := rfl
@[simp] theorem State.dropWait_bad (s : State) (tm i id : Nat) : (s.dropWait tm i id).bad = s.bad := rfl
@[simp] theorem State.dropWait_l1 (s : State) (tm i id : Nat) : (s.dropWait tm i id).l1 = s.l1 := rfl
@[simp] theorem State.dropWait_checkouts (s : State) (tm i id : Nat) : (s.dropWait tm i id).checkouts = s.checkouts := rfl
@[simp] theorem State.dropWait_glazes (s : State) (tm i id : Nat) : (s.dropWait tm i id).glazes = s.glazes := rfl
@[simp] theorem State.dropWait_glzSince (s : State) (tm i id : Nat) : (s.dropWait tm i id).glzSince = s.glzSince := rfl
@[simp] theorem State.dropWait_dogs (s : State) (tm i id : Nat) : (s.dropWait tm i id).dogs = s.dogs := rfl
@[simp] theorem State.dropWait_l2 (s : State) (tm i id : Nat) : (s.dropWait tm i id).l2 = s.l2 := rfl
@[simp] theorem State.dropWait_past (s : State) (tm i id : Nat) : (s.dropWait tm i id).past = s.past := rfl
@[simp] theorem State.dropWait_wrote (s : State) (tm i id : Nat) : (s.dropWait tm i id).wrote = s.wrote := rfl
@[simp] theorem State.dropWait_icache (s : State) (tm i id : Nat) : (s.dropWait tm i id).icache = s.icache := rfl
@[simp] theorem State.dropWait_tlb (s : State) (tm i id : Nat) : (s.dropWait tm i id).tlb = s.tlb := rfl
@[simp] theorem State.dropWait_cores (s : State) (tm i id : Nat) : (s.dropWait tm i id).cores = s.cores := rfl
@[simp] theorem State.dropWait_ctxs (s : State) (tm i id : Nat) : (s.dropWait tm i id).ctxs = s.ctxs := rfl
@[simp] theorem State.dropWait_issues (s : State) (tm i id : Nat) : (s.dropWait tm i id).issues = s.issues := rfl
@[simp] theorem State.dropWait_kNotes (s : State) (tm i id : Nat) : (s.dropWait tm i id).kNotes = s.kNotes := rfl
@[simp] theorem State.dropWait_holds (s : State) (tm i id : Nat) : (s.dropWait tm i id).holds = s.holds := rfl
@[simp] theorem State.dropWait_lots (s : State) (tm i id : Nat) : (s.dropWait tm i id).lots = s.lots := rfl
@[simp] theorem State.dropWait_spans (s : State) (tm i id : Nat) : (s.dropWait tm i id).spans = s.spans := rfl
@[simp] theorem State.dropWait_saved (s : State) (tm i id : Nat) : (s.dropWait tm i id).saved = s.saved := rfl
@[simp] theorem State.dropWait_host (s : State) (tm i id : Nat) : (s.dropWait tm i id).host = s.host := rfl
@[simp] theorem State.dropWait_hostMem (s : State) (tm i id : Nat) : (s.dropWait tm i id).hostMem = s.hostMem := rfl
@[simp] theorem State.dropWait_hostOut (s : State) (tm i id : Nat) : (s.dropWait tm i id).hostOut = s.hostOut := rfl
@[simp] theorem State.dropWait_hostReads (s : State) (tm i id : Nat) : (s.dropWait tm i id).hostReads = s.hostReads := rfl
@[simp] theorem State.dropWait_hcmd (s : State) (tm i id : Nat) : (s.dropWait tm i id).hcmd = s.hcmd := rfl
@[simp] theorem State.dropWait_peerWait (s : State) (tm i id : Nat) : (s.dropWait tm i id).peerWait = s.peerWait := rfl
@[simp] theorem State.dropWait_peerOut (s : State) (tm i id : Nat) : (s.dropWait tm i id).peerOut = s.peerOut := rfl
@[simp] theorem State.dropWait_mgmt (s : State) (tm i id : Nat) : (s.dropWait tm i id).mgmt = s.mgmt := rfl

@[simp] theorem State.pushOp_agenda (s : State) (x : Issue) (j : Nat) (i : Instr) (vals : List Nat) (f : Op → Op) : (s.pushOp x j i vals f).agenda = s.agenda := rfl
@[simp] theorem State.pushOp_tick (s : State) (x : Issue) (j : Nat) (i : Instr) (vals : List Nat) (f : Op → Op) : (s.pushOp x j i vals f).tick = s.tick := rfl
@[simp] theorem State.pushOp_mem (s : State) (x : Issue) (j : Nat) (i : Instr) (vals : List Nat) (f : Op → Op) : (s.pushOp x j i vals f).mem = s.mem := rfl
@[simp] theorem State.pushOp_tags (s : State) (x : Issue) (j : Nat) (i : Instr) (vals : List Nat) (f : Op → Op) : (s.pushOp x j i vals f).tags = s.tags := rfl
@[simp] theorem State.pushOp_full (s : State) (x : Issue) (j : Nat) (i : Instr) (vals : List Nat) (f : Op → Op) : (s.pushOp x j i vals f).full = s.full := rfl
@[simp] theorem State.pushOp_bad (s : State) (x : Issue) (j : Nat) (i : Instr) (vals : List Nat) (f : Op → Op) : (s.pushOp x j i vals f).bad = s.bad := rfl
@[simp] theorem State.pushOp_l1 (s : State) (x : Issue) (j : Nat) (i : Instr) (vals : List Nat) (f : Op → Op) : (s.pushOp x j i vals f).l1 = s.l1 := rfl
@[simp] theorem State.pushOp_checkouts (s : State) (x : Issue) (j : Nat) (i : Instr) (vals : List Nat) (f : Op → Op) : (s.pushOp x j i vals f).checkouts = s.checkouts := rfl
@[simp] theorem State.pushOp_glazes (s : State) (x : Issue) (j : Nat) (i : Instr) (vals : List Nat) (f : Op → Op) : (s.pushOp x j i vals f).glazes = s.glazes := rfl
@[simp] theorem State.pushOp_glzSince (s : State) (x : Issue) (j : Nat) (i : Instr) (vals : List Nat) (f : Op → Op) : (s.pushOp x j i vals f).glzSince = s.glzSince := rfl
@[simp] theorem State.pushOp_dogs (s : State) (x : Issue) (j : Nat) (i : Instr) (vals : List Nat) (f : Op → Op) : (s.pushOp x j i vals f).dogs = s.dogs := rfl
@[simp] theorem State.pushOp_l2 (s : State) (x : Issue) (j : Nat) (i : Instr) (vals : List Nat) (f : Op → Op) : (s.pushOp x j i vals f).l2 = s.l2 := rfl
@[simp] theorem State.pushOp_past (s : State) (x : Issue) (j : Nat) (i : Instr) (vals : List Nat) (f : Op → Op) : (s.pushOp x j i vals f).past = s.past := rfl
@[simp] theorem State.pushOp_wrote (s : State) (x : Issue) (j : Nat) (i : Instr) (vals : List Nat) (f : Op → Op) : (s.pushOp x j i vals f).wrote = s.wrote := rfl
@[simp] theorem State.pushOp_icache (s : State) (x : Issue) (j : Nat) (i : Instr) (vals : List Nat) (f : Op → Op) : (s.pushOp x j i vals f).icache = s.icache := rfl
@[simp] theorem State.pushOp_tlb (s : State) (x : Issue) (j : Nat) (i : Instr) (vals : List Nat) (f : Op → Op) : (s.pushOp x j i vals f).tlb = s.tlb := rfl
@[simp] theorem State.pushOp_cores (s : State) (x : Issue) (j : Nat) (i : Instr) (vals : List Nat) (f : Op → Op) : (s.pushOp x j i vals f).cores = s.cores := rfl
@[simp] theorem State.pushOp_ctxs (s : State) (x : Issue) (j : Nat) (i : Instr) (vals : List Nat) (f : Op → Op) : (s.pushOp x j i vals f).ctxs = s.ctxs := rfl
@[simp] theorem State.pushOp_issues (s : State) (x : Issue) (j : Nat) (i : Instr) (vals : List Nat) (f : Op → Op) : (s.pushOp x j i vals f).issues = s.issues := rfl
@[simp] theorem State.pushOp_kNotes (s : State) (x : Issue) (j : Nat) (i : Instr) (vals : List Nat) (f : Op → Op) : (s.pushOp x j i vals f).kNotes = s.kNotes := rfl
@[simp] theorem State.pushOp_holds (s : State) (x : Issue) (j : Nat) (i : Instr) (vals : List Nat) (f : Op → Op) : (s.pushOp x j i vals f).holds = s.holds := rfl
@[simp] theorem State.pushOp_lots (s : State) (x : Issue) (j : Nat) (i : Instr) (vals : List Nat) (f : Op → Op) : (s.pushOp x j i vals f).lots = s.lots := rfl
@[simp] theorem State.pushOp_spans (s : State) (x : Issue) (j : Nat) (i : Instr) (vals : List Nat) (f : Op → Op) : (s.pushOp x j i vals f).spans = s.spans := rfl
@[simp] theorem State.pushOp_saved (s : State) (x : Issue) (j : Nat) (i : Instr) (vals : List Nat) (f : Op → Op) : (s.pushOp x j i vals f).saved = s.saved := rfl
@[simp] theorem State.pushOp_host (s : State) (x : Issue) (j : Nat) (i : Instr) (vals : List Nat) (f : Op → Op) : (s.pushOp x j i vals f).host = s.host := rfl
@[simp] theorem State.pushOp_hostMem (s : State) (x : Issue) (j : Nat) (i : Instr) (vals : List Nat) (f : Op → Op) : (s.pushOp x j i vals f).hostMem = s.hostMem := rfl
@[simp] theorem State.pushOp_hostOut (s : State) (x : Issue) (j : Nat) (i : Instr) (vals : List Nat) (f : Op → Op) : (s.pushOp x j i vals f).hostOut = s.hostOut := rfl
@[simp] theorem State.pushOp_hostReads (s : State) (x : Issue) (j : Nat) (i : Instr) (vals : List Nat) (f : Op → Op) : (s.pushOp x j i vals f).hostReads = s.hostReads := rfl
@[simp] theorem State.pushOp_hcmd (s : State) (x : Issue) (j : Nat) (i : Instr) (vals : List Nat) (f : Op → Op) : (s.pushOp x j i vals f).hcmd = s.hcmd := rfl
@[simp] theorem State.pushOp_peerWait (s : State) (x : Issue) (j : Nat) (i : Instr) (vals : List Nat) (f : Op → Op) : (s.pushOp x j i vals f).peerWait = s.peerWait := rfl
@[simp] theorem State.pushOp_peerOut (s : State) (x : Issue) (j : Nat) (i : Instr) (vals : List Nat) (f : Op → Op) : (s.pushOp x j i vals f).peerOut = s.peerOut := rfl
@[simp] theorem State.pushOp_mgmt (s : State) (x : Issue) (j : Nat) (i : Instr) (vals : List Nat) (f : Op → Op) : (s.pushOp x j i vals f).mgmt = s.mgmt := rfl

@[simp] theorem State.pushWait_agenda (s : State) (x : Issue) (j : Nat) (i : Instr) (vals : List Nat) (f : Op → Op) : (s.pushWait x j i vals f).agenda = s.agenda := rfl
@[simp] theorem State.pushWait_tick (s : State) (x : Issue) (j : Nat) (i : Instr) (vals : List Nat) (f : Op → Op) : (s.pushWait x j i vals f).tick = s.tick := rfl
@[simp] theorem State.pushWait_mem (s : State) (x : Issue) (j : Nat) (i : Instr) (vals : List Nat) (f : Op → Op) : (s.pushWait x j i vals f).mem = s.mem := rfl
@[simp] theorem State.pushWait_tags (s : State) (x : Issue) (j : Nat) (i : Instr) (vals : List Nat) (f : Op → Op) : (s.pushWait x j i vals f).tags = s.tags := rfl
@[simp] theorem State.pushWait_full (s : State) (x : Issue) (j : Nat) (i : Instr) (vals : List Nat) (f : Op → Op) : (s.pushWait x j i vals f).full = s.full := rfl
@[simp] theorem State.pushWait_bad (s : State) (x : Issue) (j : Nat) (i : Instr) (vals : List Nat) (f : Op → Op) : (s.pushWait x j i vals f).bad = s.bad := rfl
@[simp] theorem State.pushWait_l1 (s : State) (x : Issue) (j : Nat) (i : Instr) (vals : List Nat) (f : Op → Op) : (s.pushWait x j i vals f).l1 = s.l1 := rfl
@[simp] theorem State.pushWait_checkouts (s : State) (x : Issue) (j : Nat) (i : Instr) (vals : List Nat) (f : Op → Op) : (s.pushWait x j i vals f).checkouts = s.checkouts := rfl
@[simp] theorem State.pushWait_glazes (s : State) (x : Issue) (j : Nat) (i : Instr) (vals : List Nat) (f : Op → Op) : (s.pushWait x j i vals f).glazes = s.glazes := rfl
@[simp] theorem State.pushWait_glzSince (s : State) (x : Issue) (j : Nat) (i : Instr) (vals : List Nat) (f : Op → Op) : (s.pushWait x j i vals f).glzSince = s.glzSince := rfl
@[simp] theorem State.pushWait_dogs (s : State) (x : Issue) (j : Nat) (i : Instr) (vals : List Nat) (f : Op → Op) : (s.pushWait x j i vals f).dogs = s.dogs := rfl
@[simp] theorem State.pushWait_l2 (s : State) (x : Issue) (j : Nat) (i : Instr) (vals : List Nat) (f : Op → Op) : (s.pushWait x j i vals f).l2 = s.l2 := rfl
@[simp] theorem State.pushWait_past (s : State) (x : Issue) (j : Nat) (i : Instr) (vals : List Nat) (f : Op → Op) : (s.pushWait x j i vals f).past = s.past := rfl
@[simp] theorem State.pushWait_wrote (s : State) (x : Issue) (j : Nat) (i : Instr) (vals : List Nat) (f : Op → Op) : (s.pushWait x j i vals f).wrote = s.wrote := rfl
@[simp] theorem State.pushWait_icache (s : State) (x : Issue) (j : Nat) (i : Instr) (vals : List Nat) (f : Op → Op) : (s.pushWait x j i vals f).icache = s.icache := rfl
@[simp] theorem State.pushWait_tlb (s : State) (x : Issue) (j : Nat) (i : Instr) (vals : List Nat) (f : Op → Op) : (s.pushWait x j i vals f).tlb = s.tlb := rfl
@[simp] theorem State.pushWait_cores (s : State) (x : Issue) (j : Nat) (i : Instr) (vals : List Nat) (f : Op → Op) : (s.pushWait x j i vals f).cores = s.cores := rfl
@[simp] theorem State.pushWait_ctxs (s : State) (x : Issue) (j : Nat) (i : Instr) (vals : List Nat) (f : Op → Op) : (s.pushWait x j i vals f).ctxs = s.ctxs := rfl
@[simp] theorem State.pushWait_issues (s : State) (x : Issue) (j : Nat) (i : Instr) (vals : List Nat) (f : Op → Op) : (s.pushWait x j i vals f).issues = s.issues := rfl
@[simp] theorem State.pushWait_kNotes (s : State) (x : Issue) (j : Nat) (i : Instr) (vals : List Nat) (f : Op → Op) : (s.pushWait x j i vals f).kNotes = s.kNotes := rfl
@[simp] theorem State.pushWait_holds (s : State) (x : Issue) (j : Nat) (i : Instr) (vals : List Nat) (f : Op → Op) : (s.pushWait x j i vals f).holds = s.holds := rfl
@[simp] theorem State.pushWait_lots (s : State) (x : Issue) (j : Nat) (i : Instr) (vals : List Nat) (f : Op → Op) : (s.pushWait x j i vals f).lots = s.lots := rfl
@[simp] theorem State.pushWait_spans (s : State) (x : Issue) (j : Nat) (i : Instr) (vals : List Nat) (f : Op → Op) : (s.pushWait x j i vals f).spans = s.spans := rfl
@[simp] theorem State.pushWait_saved (s : State) (x : Issue) (j : Nat) (i : Instr) (vals : List Nat) (f : Op → Op) : (s.pushWait x j i vals f).saved = s.saved := rfl
@[simp] theorem State.pushWait_host (s : State) (x : Issue) (j : Nat) (i : Instr) (vals : List Nat) (f : Op → Op) : (s.pushWait x j i vals f).host = s.host := rfl
@[simp] theorem State.pushWait_hostMem (s : State) (x : Issue) (j : Nat) (i : Instr) (vals : List Nat) (f : Op → Op) : (s.pushWait x j i vals f).hostMem = s.hostMem := rfl
@[simp] theorem State.pushWait_hostOut (s : State) (x : Issue) (j : Nat) (i : Instr) (vals : List Nat) (f : Op → Op) : (s.pushWait x j i vals f).hostOut = s.hostOut := rfl
@[simp] theorem State.pushWait_hostReads (s : State) (x : Issue) (j : Nat) (i : Instr) (vals : List Nat) (f : Op → Op) : (s.pushWait x j i vals f).hostReads = s.hostReads := rfl
@[simp] theorem State.pushWait_hcmd (s : State) (x : Issue) (j : Nat) (i : Instr) (vals : List Nat) (f : Op → Op) : (s.pushWait x j i vals f).hcmd = s.hcmd := rfl
@[simp] theorem State.pushWait_peerWait (s : State) (x : Issue) (j : Nat) (i : Instr) (vals : List Nat) (f : Op → Op) : (s.pushWait x j i vals f).peerWait = s.peerWait := rfl
@[simp] theorem State.pushWait_peerOut (s : State) (x : Issue) (j : Nat) (i : Instr) (vals : List Nat) (f : Op → Op) : (s.pushWait x j i vals f).peerOut = s.peerOut := rfl
@[simp] theorem State.pushWait_mgmt (s : State) (x : Issue) (j : Nat) (i : Instr) (vals : List Nat) (f : Op → Op) : (s.pushWait x j i vals f).mgmt = s.mgmt := rfl

@[simp] theorem State.pushOp_nextId (s : State) (x : Issue) (j : Nat) (i : Instr) (vals : List Nat) (f : Op → Op) :
    (s.pushOp x j i vals f).nextId = s.nextId + 1 := rfl
@[simp] theorem State.pushWait_nextId (s : State) (x : Issue) (j : Nat) (i : Instr) (vals : List Nat) (f : Op → Op) :
    (s.pushWait x j i vals f).nextId = s.nextId + 1 := rfl

@[simp] theorem State.bumpTags_agenda (s : State) (key n : Nat) : (s.bumpTags key n).agenda = s.agenda := by
  unfold State.bumpTags; split <;> rfl
@[simp] theorem State.bumpTags_tick (s : State) (key n : Nat) : (s.bumpTags key n).tick = s.tick := by
  unfold State.bumpTags; split <;> rfl
@[simp] theorem State.bumpTags_nextId (s : State) (key n : Nat) : (s.bumpTags key n).nextId = s.nextId := by
  unfold State.bumpTags; split <;> rfl
@[simp] theorem State.bumpTags_mem (s : State) (key n : Nat) : (s.bumpTags key n).mem = s.mem := by
  unfold State.bumpTags; split <;> rfl
@[simp] theorem State.bumpTags_full (s : State) (key n : Nat) : (s.bumpTags key n).full = s.full := by
  unfold State.bumpTags; split <;> rfl
@[simp] theorem State.bumpTags_bad (s : State) (key n : Nat) : (s.bumpTags key n).bad = s.bad := by
  unfold State.bumpTags; split <;> rfl
@[simp] theorem State.bumpTags_l1 (s : State) (key n : Nat) : (s.bumpTags key n).l1 = s.l1 := by
  unfold State.bumpTags; split <;> rfl
@[simp] theorem State.bumpTags_checkouts (s : State) (key n : Nat) : (s.bumpTags key n).checkouts = s.checkouts := by
  unfold State.bumpTags; split <;> rfl
@[simp] theorem State.bumpTags_glazes (s : State) (key n : Nat) : (s.bumpTags key n).glazes = s.glazes := by
  unfold State.bumpTags; split <;> rfl
@[simp] theorem State.bumpTags_glzSince (s : State) (key n : Nat) : (s.bumpTags key n).glzSince = s.glzSince := by
  unfold State.bumpTags; split <;> rfl
@[simp] theorem State.bumpTags_dogs (s : State) (key n : Nat) : (s.bumpTags key n).dogs = s.dogs := by
  unfold State.bumpTags; split <;> rfl
@[simp] theorem State.bumpTags_l2 (s : State) (key n : Nat) : (s.bumpTags key n).l2 = s.l2 := by
  unfold State.bumpTags; split <;> rfl
@[simp] theorem State.bumpTags_past (s : State) (key n : Nat) : (s.bumpTags key n).past = s.past := by
  unfold State.bumpTags; split <;> rfl
@[simp] theorem State.bumpTags_wrote (s : State) (key n : Nat) : (s.bumpTags key n).wrote = s.wrote := by
  unfold State.bumpTags; split <;> rfl
@[simp] theorem State.bumpTags_icache (s : State) (key n : Nat) : (s.bumpTags key n).icache = s.icache := by
  unfold State.bumpTags; split <;> rfl
@[simp] theorem State.bumpTags_tlb (s : State) (key n : Nat) : (s.bumpTags key n).tlb = s.tlb := by
  unfold State.bumpTags; split <;> rfl
@[simp] theorem State.bumpTags_cores (s : State) (key n : Nat) : (s.bumpTags key n).cores = s.cores := by
  unfold State.bumpTags; split <;> rfl
@[simp] theorem State.bumpTags_ctxs (s : State) (key n : Nat) : (s.bumpTags key n).ctxs = s.ctxs := by
  unfold State.bumpTags; split <;> rfl
@[simp] theorem State.bumpTags_teams (s : State) (key n : Nat) : (s.bumpTags key n).teams = s.teams := by
  unfold State.bumpTags; split <;> rfl
@[simp] theorem State.bumpTags_issues (s : State) (key n : Nat) : (s.bumpTags key n).issues = s.issues := by
  unfold State.bumpTags; split <;> rfl
@[simp] theorem State.bumpTags_kNotes (s : State) (key n : Nat) : (s.bumpTags key n).kNotes = s.kNotes := by
  unfold State.bumpTags; split <;> rfl
@[simp] theorem State.bumpTags_holds (s : State) (key n : Nat) : (s.bumpTags key n).holds = s.holds := by
  unfold State.bumpTags; split <;> rfl
@[simp] theorem State.bumpTags_lots (s : State) (key n : Nat) : (s.bumpTags key n).lots = s.lots := by
  unfold State.bumpTags; split <;> rfl
@[simp] theorem State.bumpTags_spans (s : State) (key n : Nat) : (s.bumpTags key n).spans = s.spans := by
  unfold State.bumpTags; split <;> rfl
@[simp] theorem State.bumpTags_saved (s : State) (key n : Nat) : (s.bumpTags key n).saved = s.saved := by
  unfold State.bumpTags; split <;> rfl
@[simp] theorem State.bumpTags_host (s : State) (key n : Nat) : (s.bumpTags key n).host = s.host := by
  unfold State.bumpTags; split <;> rfl
@[simp] theorem State.bumpTags_hostMem (s : State) (key n : Nat) : (s.bumpTags key n).hostMem = s.hostMem := by
  unfold State.bumpTags; split <;> rfl
@[simp] theorem State.bumpTags_hostOut (s : State) (key n : Nat) : (s.bumpTags key n).hostOut = s.hostOut := by
  unfold State.bumpTags; split <;> rfl
@[simp] theorem State.bumpTags_hostReads (s : State) (key n : Nat) : (s.bumpTags key n).hostReads = s.hostReads := by
  unfold State.bumpTags; split <;> rfl
@[simp] theorem State.bumpTags_hcmd (s : State) (key n : Nat) : (s.bumpTags key n).hcmd = s.hcmd := by
  unfold State.bumpTags; split <;> rfl
@[simp] theorem State.bumpTags_peerWait (s : State) (key n : Nat) : (s.bumpTags key n).peerWait = s.peerWait := by
  unfold State.bumpTags; split <;> rfl
@[simp] theorem State.bumpTags_peerOut (s : State) (key n : Nat) : (s.bumpTags key n).peerOut = s.peerOut := by
  unfold State.bumpTags; split <;> rfl
@[simp] theorem State.bumpTags_mgmt (s : State) (key n : Nat) : (s.bumpTags key n).mgmt = s.mgmt := by
  unfold State.bumpTags; split <;> rfl

@[simp] theorem State.store_agenda (s : State) (key : Nat) (bs : List Byte) : (s.store key bs).agenda = s.agenda := by
  simp [State.store, State.write]
@[simp] theorem State.store_tick (s : State) (key : Nat) (bs : List Byte) : (s.store key bs).tick = s.tick := by
  simp [State.store, State.write]
@[simp] theorem State.store_nextId (s : State) (key : Nat) (bs : List Byte) : (s.store key bs).nextId = s.nextId := by
  simp [State.store, State.write]
@[simp] theorem State.store_full (s : State) (key : Nat) (bs : List Byte) : (s.store key bs).full = s.full := by
  simp [State.store, State.write]
@[simp] theorem State.store_l1 (s : State) (key : Nat) (bs : List Byte) : (s.store key bs).l1 = s.l1 := by
  simp [State.store, State.write]
@[simp] theorem State.store_glazes (s : State) (key : Nat) (bs : List Byte) : (s.store key bs).glazes = s.glazes := by
  simp [State.store, State.write]
@[simp] theorem State.store_glzSince (s : State) (key : Nat) (bs : List Byte) : (s.store key bs).glzSince = s.glzSince := by
  simp [State.store, State.write]
@[simp] theorem State.store_l2 (s : State) (key : Nat) (bs : List Byte) : (s.store key bs).l2 = s.l2 := by
  simp [State.store, State.write]
@[simp] theorem State.store_past (s : State) (key : Nat) (bs : List Byte) : (s.store key bs).past = s.past := by
  simp [State.store, State.write]
@[simp] theorem State.store_icache (s : State) (key : Nat) (bs : List Byte) : (s.store key bs).icache = s.icache := by
  simp [State.store, State.write]
@[simp] theorem State.store_tlb (s : State) (key : Nat) (bs : List Byte) : (s.store key bs).tlb = s.tlb := by
  simp [State.store, State.write]
@[simp] theorem State.store_cores (s : State) (key : Nat) (bs : List Byte) : (s.store key bs).cores = s.cores := by
  simp [State.store, State.write]
@[simp] theorem State.store_ctxs (s : State) (key : Nat) (bs : List Byte) : (s.store key bs).ctxs = s.ctxs := by
  simp [State.store, State.write]
@[simp] theorem State.store_issues (s : State) (key : Nat) (bs : List Byte) : (s.store key bs).issues = s.issues := by
  simp [State.store, State.write]
@[simp] theorem State.store_kNotes (s : State) (key : Nat) (bs : List Byte) : (s.store key bs).kNotes = s.kNotes := by
  simp [State.store, State.write]
@[simp] theorem State.store_holds (s : State) (key : Nat) (bs : List Byte) : (s.store key bs).holds = s.holds := by
  simp [State.store, State.write]
@[simp] theorem State.store_lots (s : State) (key : Nat) (bs : List Byte) : (s.store key bs).lots = s.lots := by
  simp [State.store, State.write]
@[simp] theorem State.store_spans (s : State) (key : Nat) (bs : List Byte) : (s.store key bs).spans = s.spans := by
  simp [State.store, State.write]
@[simp] theorem State.store_saved (s : State) (key : Nat) (bs : List Byte) : (s.store key bs).saved = s.saved := by
  simp [State.store, State.write]
@[simp] theorem State.store_host (s : State) (key : Nat) (bs : List Byte) : (s.store key bs).host = s.host := by
  simp [State.store, State.write]
@[simp] theorem State.store_hostMem (s : State) (key : Nat) (bs : List Byte) : (s.store key bs).hostMem = s.hostMem := by
  simp [State.store, State.write]
@[simp] theorem State.store_hostOut (s : State) (key : Nat) (bs : List Byte) : (s.store key bs).hostOut = s.hostOut := by
  simp [State.store, State.write]
@[simp] theorem State.store_hostReads (s : State) (key : Nat) (bs : List Byte) : (s.store key bs).hostReads = s.hostReads := by
  simp [State.store, State.write]
@[simp] theorem State.store_hcmd (s : State) (key : Nat) (bs : List Byte) : (s.store key bs).hcmd = s.hcmd := by
  simp [State.store, State.write]
@[simp] theorem State.store_peerWait (s : State) (key : Nat) (bs : List Byte) : (s.store key bs).peerWait = s.peerWait := by
  simp [State.store, State.write]
@[simp] theorem State.store_peerOut (s : State) (key : Nat) (bs : List Byte) : (s.store key bs).peerOut = s.peerOut := by
  simp [State.store, State.write]
@[simp] theorem State.store_mgmt (s : State) (key : Nat) (bs : List Byte) : (s.store key bs).mgmt = s.mgmt := by
  simp [State.store, State.write]

end Sys2Proof.Machine
end

