-- ==== Sys2Proof/Laws/Issue.lean ====
section
/-! SUPPORT. Threads by name under an update; and what the issue of a word does when nothing stops it (R37, R50, R375). -/

namespace Sys2Proof.Machine
open Sys2Proof

/-! ### Teams and threads by name -/

theorem find_map_same (id : Nat) (g : Team → Team) (hg : ∀ t : Team, (g t).id = t.id) (l : List Team) :
    (l.map g).find? (fun t => t.id == id) = (l.find? fun t => t.id == id).map g := by
  induction l with
  | nil => rfl
  | cons a l ih =>
    simp only [List.map_cons, List.find?_cons, hg]
    cases a.id == id <;> simp [ih]

theorem State.team?_id {s : State} {id : Nat} {tm : Team} (h : s.team? id = some tm) : tm.id = id := by
  have := List.find?_some h
  simpa using this

theorem State.team?_modTeam (s : State) (a b : Nat) (f : Team → Team) (hf : ∀ t : Team, (f t).id = t.id) :
    (s.modTeam a f).team? b = (s.team? b).map fun t => if t.id = a then f t else t := by
  refine find_map_same b _ (fun t => ?_) s.teams
  split <;> simp [hf]

@[simp] theorem Team.modThr_id (tm : Team) (i : Nat) (f : Thread → Thread) : (tm.modThr i f).id = tm.id := rfl

theorem State.team?_modThr (s : State) (a b i : Nat) (f : Thread → Thread) :
    (s.modThr a i f).team? b = (s.team? b).map fun t => if t.id = a then t.modThr i f else t :=
  s.team?_modTeam a b _ fun _ => rfl

/-- The thread named by an update is updated. -/
theorem State.thr?_modThr_same (s : State) (id i : Nat) (f : Thread → Thread) :
    (s.modThr id i f).thr? id i = (s.thr? id i).map f := by
  unfold State.thr?
  rw [s.team?_modThr]
  cases h : s.team? id with
  | none => rfl
  | some tm => simp [s.team?_id h, Team.modThr]

/-- Every other thread is as it was. -/
theorem State.thr?_modThr_other (s : State) (a i b j : Nat) (f : Thread → Thread) (h : a ≠ b ∨ i ≠ j) :
    (s.modThr a i f).thr? b j = s.thr? b j := by
  unfold State.thr?
  rw [s.team?_modThr]
  cases hb : s.team? b with
  | none => rfl
  | some tm =>
    have hid := s.team?_id hb
    by_cases hab : tm.id = a
    · have hij : i ≠ j := h.resolve_left fun e => e (hab.symm.trans hid)
      simp [hab, Team.modThr, hij]
    · simp [hab]

/-! ### The group that issues -/

@[simp] theorem State.started_team? (s : State) (id : Nat) : s.started.team? id = s.team? id := rfl
@[simp] theorem State.started_thr? (s : State) (id i : Nat) : s.started.thr? id i = s.thr? id i := rfl
@[simp] theorem State.started_teams (s : State) : s.started.teams = s.teams := rfl
@[simp] theorem State.started_nextId (s : State) : s.started.nextId = s.nextId := rfl
@[simp] theorem State.started_mem (s : State) : s.started.mem = s.mem := rfl
@[simp] theorem State.started_tick (s : State) : s.started.tick = s.tick := rfl

theorem State.issuer_team {s : State} {x : Issue} {tm : Team} {cr : Crew} (h : s.issuer = some (x, tm, cr)) :
    s.team? x.team = some tm ∧ (∃ c, tm.crew? x.crew = some c ∧ cr = c.seenAt s.tick (x.kSeen tm)) ∧
    ∃ rest, s.issues = x :: rest := by
  unfold State.issuer at h
  split at h
  · cases h
  · split at h
    · cases h
    · rename_i ht
      split at h
      · cases h
      · rename_i hc
        cases h
        exact ⟨ht, ⟨_, hc, rfl⟩, _, ‹_›⟩

/-- The word in hand issues for the members whose guard is true. -/
theorem runGroup_of {s : State} {i : Instr} {x : Issue} {tm : Team} {cr : Crew} (h : Issues s i x tm cr)
    (body : Issue → Team → Crew → List Nat → State → State) :
    runGroup i body s = .next (body x tm cr (x.doers tm i) s.started) := by
  unfold runGroup
  have none : ∀ l : List Nat, l.filter (fun j => !([] : List Nat).contains j) = l :=
    fun l => List.filter_eq_self.2 fun _ _ => rfl
  simp only [h.issuer, h.legal, h.ranges, none, h.clean, Issue.doers, Bool.false_eq_true, if_false, List.foldl_nil,
    State.started]

theorem IssuesAlone.guardTrue {s : State} {i : Instr} {x : Issue} {tm : Team} {cr : Crew} {j : Nat} {t : Thread}
    (h : IssuesAlone s i x tm cr j t) : guardTrue tm (commonOf i) x.active = [j] := by
  simp [Machine.guardTrue, h.one, h.thread, h.guard]

theorem IssuesAlone.toIssues {s : State} {i : Instr} {x : Issue} {tm : Team} {cr : Crew} {j : Nat} {t : Thread}
    (h : IssuesAlone s i x tm cr j t) : Issues s i x tm cr where
  issuer := h.issuer
  legal := h.legal
  ranges := h.ranges
  clean := by simp [badMembers, h.guardTrue, h.thread, h.clean]
  distinct := by simp [h.one]

/-- The issuing thread by its team and number. -/
theorem IssuesAlone.thr {s : State} {i : Instr} {x : Issue} {tm : Team} {cr : Crew} {j : Nat} {t : Thread}
    (h : IssuesAlone s i x tm cr j t) : s.thr? x.team j = some t := by
  simp [State.thr?, (State.issuer_team h.issuer).1, h.thread]

/-- The word in hand issues for one thread. -/
theorem runGroup_alone {s : State} {i : Instr} {x : Issue} {tm : Team} {cr : Crew} {j : Nat} {t : Thread}
    (h : IssuesAlone s i x tm cr j t) (body : Issue → Team → Crew → List Nat → State → State) :
    runGroup i body s = .next (body x tm cr [j] s.started) := by
  rw [runGroup_of h.toIssues]
  simp [Issue.doers, h.guardTrue]

theorem runEach_alone {s : State} {i : Instr} {x : Issue} {tm : Team} {cr : Crew} {j : Nat} {t : Thread}
    (h : IssuesAlone s i x tm cr j t) (body : Issue → Crew → Thread → Nat → State → State) :
    runEach i body s = .next (body x cr t j s.started) := by
  unfold runEach
  rw [runGroup_alone h]
  simp [h.thr]

/-! ### Fixed-latency results -/

/-- A register instruction puts its results in flight. -/
theorem regOp_of {s : State} {i : Instr} {x : Issue} {tm : Team} {cr : Crew} (h : Issues s i x tm cr) (lat : Nat)
    (f : List DWord → Thread → Res) : regOp i lat f s = .next (s.withResults x tm cr i lat f) := by
  unfold regOp runEach
  rw [runGroup_of h]
  rfl

/-- Results in flight change the members' threads and nothing else of the teams. -/
theorem thr?_foldl_results (x : Issue) (c : Common) (lat : Nat) (f : Thread → Res) (ms : List Nat) (s : State)
    (id j : Nat) (hd : ms.Nodup) :
    (ms.foldl (fun s j => match s.thr? x.team j with
      | some t => s.modThr x.team j fun _ => t.pushRes x c lat (f t)
      | none => s) s).thr? id j =
    if id = x.team ∧ j ∈ ms then (s.thr? id j).map (fun t => t.pushRes x c lat (f t)) else s.thr? id j := by
  induction ms generalizing s with
  | nil => simp
  | cons k ms ih =>
    simp only [List.foldl_cons]
    rw [ih _ (List.nodup_cons.1 hd).2]
    have hk : k ∉ ms := (List.nodup_cons.1 hd).1
    have hstep : ∀ (b i : Nat), (match s.thr? x.team k with
        | some t => s.modThr x.team k fun _ => t.pushRes x c lat (f t)
        | none => s).thr? b i =
        if b = x.team ∧ i = k then (s.thr? b i).map (fun t => t.pushRes x c lat (f t)) else s.thr? b i := by
      intro b i
      by_cases hb : b = x.team ∧ i = k
      · obtain ⟨rfl, rfl⟩ := hb
        cases ht : s.thr? x.team i with
        | none => simp [ht]
        | some t => simp [State.thr?_modThr_same, ht]
      · rw [if_neg hb]
        cases ht : s.thr? x.team k with
        | none => rfl
        | some t =>
          refine State.thr?_modThr_other _ _ _ _ _ _ ?_
          by_cases h1 : b = x.team
          · exact .inr fun e => hb ⟨h1, e.symm⟩
          · exact .inl fun e => h1 e.symm
    rw [hstep]
    by_cases h1 : id = x.team
    · by_cases h2 : j = k
      · subst h2; simp [h1, hk]
      · simp [h1, h2]
    · simp [h1]

theorem State.thr?_withResults {s : State} {i : Instr} {x : Issue} {tm : Team} {cr : Crew} (h : Issues s i x tm cr)
    (lat : Nat) (f : List DWord → Thread → Res) (id j : Nat) :
    (s.withResults x tm cr i lat f).thr? id j =
    if id = x.team ∧ j ∈ x.doers tm i then (s.thr? id j).map (fun t => t.pushRes x (commonOf i) lat (f cr.k t))
    else s.thr? id j :=
  thr?_foldl_results x (commonOf i) lat (fun t => f cr.k t) (x.doers tm i) s.started id j (h.distinct.filter _)

theorem foldl_keeps {α β γ : Type} (g : α → γ) (f : α → β → α) (h : ∀ a b, g (f a b) = g a) (l : List β) (a : α) :
    g (l.foldl f a) = g a := by
  induction l generalizing a with
  | nil => rfl
  | cons b l ih => rw [List.foldl_cons, ih, h]

/-- What no thread update changes, results in flight do not change. -/
theorem State.withResults_keeps {γ : Type} (g : State → γ) (h1 : ∀ s id j f, g (State.modThr s id j f) = g s)
    (h2 : ∀ s, g (State.started s) = g s) (s : State) (x : Issue) (tm : Team) (cr : Crew) (i : Instr) (lat : Nat)
    (f : List DWord → Thread → Res) : g (s.withResults x tm cr i lat f) = g s := by
  unfold State.withResults
  rw [foldl_keeps g _ (fun s j => by split <;> simp [h1]), h2]

/-- A cross-lane instruction puts its results in flight, from the participants. -/
theorem crossOp_of {s : State} {i : Instr} {x : Issue} {tm : Team} {cr : Crew} (h : Issues s i x tm cr)
    (f : List (Nat × Thread) → List DWord → Thread → Res) :
    crossOp i f s = .next (s.withResults x tm cr i 4 fun k t => f (partsOf tm (x.doers tm i)) k t) := by
  unfold crossOp
  rw [runGroup_of h]
  simp only [State.started_team?, (State.issuer_team h.issuer).1]
  rfl

end Sys2Proof.Machine
end

