-- ==== Sys2Proof/Laws/PerInstr.lean ====
section
/-! SUPPORT. Per instruction: the fields that the encoder writes for a well-formed instruction are read back as that
instruction (R36, R43 to R50). -/

namespace Sys2Proof.Laws.DecodesBack
open Sys2Proof Machine

/-- The reader of the fields gives the instruction back from the fields the encoder writes; ILL has no fields (R49). -/
def Statement (i : Instr) : Prop :=
  i.wf = true → ∀ r, encodeRaw i = some r → r.op.val ≠ 0xFF → decodeRaw r = some i

theorem of_raw {i : Instr} {r : Raw} (h : encodeRaw i = some r) (hd : i.wf = true → decodeRaw r = some i) : Statement i := by
  intro hw r' hr _
  rw [h] at hr
  cases hr
  exact hd hw
theorem of_none {i : Instr} (h : encodeRaw i = none) : Statement i := by
  intro _ r hr
  rw [h] at hr
  cases hr

theorem raw_rg (op : Fin 256) (c : Common) (r : RG) (h : formatOf op.val = some .rg) :
    decodeRaw (mkRaw op c r.w r.join) = decodeRG op.val c r := by
  simp [decodeRaw, mkRaw, h, RG.split_join, Raw.common]
theorem raw_ri (op : Fin 256) (c : Common) (r : RI) (h : formatOf op.val = some .ri) :
    decodeRaw (mkRaw op c r.w r.join) = decodeRI op.val c r := by
  simp [decodeRaw, mkRaw, h, RI.split_join, Raw.common]
theorem raw_i32 (c : Common) (r : I32) :
    decodeRaw (mkRaw 0x27 c r.w r.join) = (MoviOp.ofI32 r).map (.movi c) := by
  have h : decodeRaw (mkRaw 0x27 c r.w r.join) = (MoviOp.ofI32 (I32.split r.w r.join)).map (.movi c) := rfl
  rw [h, I32.split_join]
theorem raw_m (op : Fin 256) (c : Common) (r : MF) (h : formatOf op.val = some .m) :
    decodeRaw (mkRaw op c r.sx r.join) = decodeM op.val c r := by
  simp [decodeRaw, mkRaw, h, MF.split_join, Raw.common]
theorem raw_b (op : Fin 256) (c : Common) (r : BF) (h : formatOf op.val = some .b) :
    decodeRaw (mkRaw op c false r.join) = decodeB op.val c r := by
  simp [decodeRaw, mkRaw, h, BF.split_join, Raw.common]
theorem raw_s (op : Fin 256) (c : Common) (r : SF) (h : formatOf op.val = some .s) :
    decodeRaw (mkRaw op c false r.join) = decodeS op.val c r := by
  simp [decodeRaw, mkRaw, h, SF.split_join, Raw.common]

/-- A failed check is absent from a well-formed instruction. -/
theorem need_of_mem {p : Bool} {e : WfErr} {l m : List WfErr} (h : (l ++ need p e ++ m).isEmpty = true) : p = true := by
  cases p
  · simp [need] at h
  · rfl
theorem fcvt_wf {c : Common} {o : FcvtOp} (h : (Instr.fcvt c o).wf = true) : x2Fmt o.dt = o.b.isSome := by
  simp [Instr.wf, Instr.errs, FcvtOp.errs, need, List.append_eq_nil_iff] at h
  grind
theorem ld_wf {c : Common} {o : LdOp} (h : (Instr.ld c o).wf = true) : isMem o.space = false → o.reuse = 0 := by
  simp [Instr.wf, Instr.errs, LdOp.errs, need, List.append_eq_nil_iff] at h
  grind
theorem st_wf {c : Common} {o : StOp} (h : (Instr.st c o).wf = true) : isMem o.space = false → o.reuse = 0 := by
  simp [Instr.wf, Instr.errs, StOp.errs, need, List.append_eq_nil_iff] at h
  grind
theorem stt_wf {c : Common} {o : StOp} (h : (Instr.stt c o).wf = true) : isMem o.space = false → o.reuse = 0 := by
  simp [Instr.wf, Instr.errs, StOp.errs, need, List.append_eq_nil_iff] at h
  grind
theorem fe_wf {c : Common} {o : FeOp} (h : (Instr.feset c o).wf = true) : o.space ≠ .mem := by
  intro he
  simp [Instr.wf, Instr.errs, FeOp.errs, need, List.append_eq_nil_iff, he] at h
theorem feclr_wf {c : Common} {o : FeOp} (h : (Instr.feclr c o).wf = true) : o.space ≠ .mem := by
  intro he
  simp [Instr.wf, Instr.errs, FeOp.errs, need, List.append_eq_nil_iff, he] at h
theorem atom_wf {c : Common} {o : AtomOp} (h : (Instr.atom c o).wf = true) : o.space ≠ .lane := by
  intro he
  simp [Instr.wf, Instr.errs, AtomOp.errs, atomSpace, need, List.append_eq_nil_iff, he] at h
theorem cas_wf {c : Common} {o : CasOp} (h : (Instr.atomcas c o).wf = true) : o.space ≠ .lane := by
  intro he
  simp [Instr.wf, Instr.errs, CasOp.errs, atomSpace, need, List.append_eq_nil_iff, he] at h
theorem red_wf {c : Common} {o : RedOpnd} (h : (Instr.red c o).wf = true) : o.space ≠ .lane := by
  intro he
  simp [Instr.wf, Instr.errs, RedOpnd.errs, atomSpace, need, List.append_eq_nil_iff, he] at h
theorem bari_wf {c : Common} {o : BariOp} (h : (Instr.bari c o).wf = true) : o.space ≠ .lane := by
  intro he
  simp [Instr.wf, Instr.errs, barSpace, need, List.append_eq_nil_iff, he] at h
theorem bara_wf {c : Common} {o : BaraOp} (h : (Instr.bara c o).wf = true) : o.space ≠ .lane := by
  intro he
  simp [Instr.wf, Instr.errs, barSpace, need, List.append_eq_nil_iff, he] at h
theorem barw_wf {c : Common} {o : BarwOp} (h : (Instr.barw c o).wf = true) : o.space ≠ .lane := by
  intro he
  simp [Instr.wf, Instr.errs, barSpace, need, List.append_eq_nil_iff, he] at h
theorem bart_wf {c : Common} {o : BarwOp} (h : (Instr.bart c o).wf = true) : o.space ≠ .lane := by
  intro he
  simp [Instr.wf, Instr.errs, barSpace, need, List.append_eq_nil_iff, he] at h
theorem bartPoison_wf {c : Common} {o : BartPOp} (h : (Instr.bartPoison c o).wf = true) : o.space ≠ .lane := by
  intro he
  simp [Instr.wf, Instr.errs, barSpace, need, List.append_eq_nil_iff, he] at h
theorem barp_wf {c : Common} {o : BarpOp} (h : (Instr.barp c o).wf = true) : o.space ≠ .lane := by
  intro he
  simp [Instr.wf, Instr.errs, barSpace, need, List.append_eq_nil_iff, he] at h

/-- X of JTEST holds JN, PD and SUB (R83). -/
theorem jtest_fields (j : Fin 16) (p : PReg) (k : JtestKind) :
    (mk12 (j.val + 16 * p.val + 256 * k.code)).val / 128 % 2 = 0 ∧
    jtestOf ((mk12 (j.val + 16 * p.val + 256 * k.code)).val / 256) = some k ∧
    jnOf (mk12 (j.val + 16 * p.val + 256 * k.code)) = j ∧
    mk8 ((mk12 (j.val + 16 * p.val + 256 * k.code)).val / 16) = p := by
  cases k <;> revert p <;> revert j <;> decide
/-- X of a fence holds its kind and its scope (R171). -/
theorem fence_fields (k : Fin 3) (s : Scope) :
    (mk12 (k.val + 4 * s.code)).val < 16 ∧ scopeOf ((mk12 (k.val + 4 * s.code)).val / 4) = some s ∧
    (mk12 (k.val + 4 * s.code)).val % 4 = k.val := by
  cases s <;> revert k <;> decide
theorem haltSel_enc (s : HaltSel) (k : Nat) (h : k = encHaltSel s) :
    haltSelOf (BitVec.ofNat 32 k) = some s ∧ k < 32768 := by
  subst h
  obtain ⟨tid, crew⟩ := s
  have h1 : (tid.toNat + 4096 * crew.val) % 4294967296 = tid.toNat + 4096 * crew.val := by omega
  have h2 : tid.toNat + 4096 * crew.val < 32768 := by omega
  simp [haltSelOf, encHaltSel, h1, h2, BitVec.toNat_eq, Fin.ext_iff]
  omega

theorem relSel_enc (s : RelSel) : relSelOf (BitVec.ofNat 32 (encRelSel s)) = some s := by
  cases s with
  | thr t =>
    have h := haltSel_enc t _ rfl
    have h1 : encHaltSel t % 4294967296 = encHaltSel t := by omega
    simp [relSelOf, encRelSel, h, h1]
  | all t =>
    have h := haltSel_enc t _ rfl
    have h1 : (encHaltSel t + 32768) % 4294967296 = encHaltSel t + 32768 := by omega
    have h2 : ¬ encHaltSel t + 32768 < 32768 := by omega
    have h3 : encHaltSel t + 32768 < 65536 := by omega
    simp [relSelOf, encRelSel, h, h1, h2, h3]

theorem nop (c : Common) (imm : BitVec 32) : Statement (.nop c imm) :=
  of_raw rfl fun _ => (raw_s 0x00 c ⟨0, imm⟩ rfl).trans (by
    show decodeS 0x00 c _ = _
    rfl)
theorem bra (c : Common) (t : BitVec 32) : Statement (.bra c t) :=
  of_raw rfl fun _ => (raw_b 0x01 c ⟨0, 0, t⟩ rfl).trans (by
    show decodeB 0x01 c _ = _
    rfl)
theorem brx (c : Common) (r : VReg) (t : BitVec 12) : Statement (.brx c r t) :=
  of_raw rfl fun _ => (raw_b 0x02 c ⟨encV r, 0, encTag t⟩ rfl).trans (by
    show decodeB 0x02 c _ = _
    simp [decodeB, tagOf_encTag])
theorem call (c : Common) (r : VReg) (t : BitVec 32) : Statement (.call c r t) :=
  of_raw rfl fun _ => (raw_b 0x03 c ⟨encV r, 0, t⟩ rfl).trans (by
    show decodeB 0x03 c _ = _
    simp [decodeB])
theorem callx (c : Common) (r : VReg) (t : BitVec 12) : Statement (.callx c r t) :=
  of_raw rfl fun _ => (raw_b 0x04 c ⟨encV r, 0, encTag t⟩ rfl).trans (by
    show decodeB 0x04 c _ = _
    simp [decodeB, tagOf_encTag])
theorem ret (c : Common) (r : VReg) : Statement (.ret c r) :=
  of_raw rfl fun _ => (raw_b 0x05 c ⟨encV r, 0, 0⟩ rfl).trans (by
    show decodeB 0x05 c _ = _
    simp [decodeB])
theorem retChecked (c : Common) (r : VReg) (t : BitVec 12) : Statement (.retChecked c r t) :=
  of_raw rfl fun _ => (raw_b 0x05 c ⟨encV r, 1, encTag t⟩ rfl).trans (by
    show decodeB 0x05 c _ = _
    simp [decodeB, tagOf_encTag])
theorem jinitLive (c : Common) (j : Fin 16) : Statement (.jinitLive c j) :=
  of_raw rfl fun _ => (raw_s 0x06 c ⟨mk12 j.val, 0⟩ rfl).trans (by
    show decodeS 0x06 c _ = _
    have h1 : (mk12 (j.val)).val / 16 % 16 = 0 := by simp only [mk12]; omega
    have h2 : (mk12 (j.val)).val / 256 = 0 := by simp only [mk12]; omega
    have h3 : jnOf (mk12 (j.val)) = j := Fin.ext (by simp only [mk12, jnOf]; omega)
    simp [decodeS, h1, h2, h3])
theorem jinitSelf (c : Common) (j : Fin 16) : Statement (.jinitSelf c j) :=
  of_raw rfl fun _ => (raw_s 0x06 c ⟨mk12 (j.val + 256), 0⟩ rfl).trans (by
    show decodeS 0x06 c _ = _
    have h1 : (mk12 (j.val + 256)).val / 16 % 16 = 0 := by simp only [mk12]; omega
    have h2 : (mk12 (j.val + 256)).val / 256 = 1 := by simp only [mk12]; omega
    have h3 : jnOf (mk12 (j.val + 256)) = j := Fin.ext (by simp only [mk12, jnOf]; omega)
    simp [decodeS, h1, h2, h3])
theorem jinitClear (c : Common) (j : Fin 16) : Statement (.jinitClear c j) :=
  of_raw rfl fun _ => (raw_s 0x06 c ⟨mk12 (j.val + 512), 0⟩ rfl).trans (by
    show decodeS 0x06 c _ = _
    have h1 : (mk12 (j.val + 512)).val / 16 % 16 = 0 := by simp only [mk12]; omega
    have h2 : (mk12 (j.val + 512)).val / 256 = 2 := by simp only [mk12]; omega
    have h3 : jnOf (mk12 (j.val + 512)) = j := Fin.ext (by simp only [mk12, jnOf]; omega)
    simp [decodeS, h1, h2, h3])
theorem jinitK (c : Common) (j : Fin 16) (k : KReg) : Statement (.jinitK c j k) :=
  of_raw rfl fun _ => (raw_s 0x06 c ⟨mk12 (j.val + 768), BitVec.ofNat 32 k.val⟩ rfl).trans (by
    show decodeS 0x06 c _ = _
    have h1 : (mk12 (j.val + 768)).val / 16 % 16 = 0 := by simp only [mk12]; omega
    have h2 : (mk12 (j.val + 768)).val / 256 = 3 := by simp only [mk12]; omega
    have h3 : jnOf (mk12 (j.val + 768)) = j := Fin.ext (by simp only [mk12, jnOf]; omega)
    have h4 : k.val % 4294967296 = k.val := by omega
    simp [decodeS, h1, h2, h3, h4])
theorem join (c : Common) (j : Fin 16) : Statement (.join c j) :=
  of_raw rfl fun _ => (raw_s 0x07 c ⟨mk12 j.val, 0⟩ rfl).trans (by
    show decodeS 0x07 c _ = _
    have h1 : (mk12 j.val).val < 16 := by simp only [mk12]; omega
    have h3 : jnOf (mk12 j.val) = j := Fin.ext (by simp only [mk12, jnOf]; omega)
    simp [decodeS, h1, h3])
theorem jleave (c : Common) (j : Fin 16) : Statement (.jleave c j) :=
  of_raw rfl fun _ => (raw_s 0x08 c ⟨mk12 j.val, 0⟩ rfl).trans (by
    show decodeS 0x08 c _ = _
    have h1 : (mk12 j.val).val < 16 := by simp only [mk12]; omega
    have h3 : jnOf (mk12 j.val) = j := Fin.ext (by simp only [mk12, jnOf]; omega)
    simp [decodeS, h1, h3])
theorem jtest (c : Common) (k : JtestKind) (j : Fin 16) (p : PReg) : Statement (.jtest c k j p) :=
  of_raw rfl fun _ => (raw_s 0x09 c ⟨mk12 (j.val + 16 * p.val + 256 * k.code), 0⟩ rfl).trans (by
    show decodeS 0x09 c _ = _
    have h := jtest_fields j p k
    simp [decodeS, h])
theorem exit (c : Common) : Statement (.exit c) :=
  of_raw rfl fun _ => (raw_s 0x0A c ⟨0, 0⟩ rfl).trans (by
    show decodeS 0x0A c _ = _
    rfl)
theorem yield (c : Common) (n : BitVec 12) : Statement (.yield c n) :=
  of_raw rfl fun _ => (raw_s 0x0B c ⟨0, BitVec.ofNat 32 n.toNat⟩ rfl).trans (by
    show decodeS 0x0B c _ = _
    have h : n.toNat % 4294967296 = n.toNat := by omega
    have h2 : n.toNat < 4096 := n.isLt
    simp [decodeS, h, h2])
theorem iadd (c : Common) (o : IntBin) : Statement (.iadd c o) :=
  of_raw rfl fun _ => (raw_rg 0x10 c o.toRG rfl).trans (by
    show (IntBin.ofRG _).map _ = _; rw [IntBin.ofRG_toRG]; rfl)
theorem isub (c : Common) (o : IntBin) : Statement (.isub c o) :=
  of_raw rfl fun _ => (raw_rg 0x11 c o.toRG rfl).trans (by
    show (IntBin.ofRG _).map _ = _; rw [IntBin.ofRG_toRG]; rfl)
theorem imul (c : Common) (o : IntBin) : Statement (.imul c o) :=
  of_raw rfl fun _ => (raw_rg 0x12 c o.toRG rfl).trans (by
    show (IntBin.ofRG _).map _ = _; rw [IntBin.ofRG_toRG]; rfl)
theorem imulh (c : Common) (o : IntBin) : Statement (.imulh c o) :=
  of_raw rfl fun _ => (raw_rg 0x13 c o.toRG rfl).trans (by
    show (IntBin.ofRG _).map _ = _; rw [IntBin.ofRG_toRG]; rfl)
theorem imad (c : Common) (o : IntTri) : Statement (.imad c o) :=
  of_raw rfl fun _ => (raw_rg 0x14 c o.toRG rfl).trans (by
    show (IntTri.ofRG _).map _ = _; rw [IntTri.ofRG_toRG]; rfl)
theorem imadw (c : Common) (o : IntTri) : Statement (.imadw c o) :=
  of_raw rfl fun _ => (raw_rg 0x15 c o.toRG rfl).trans (by
    show (IntTri.ofRG _).map _ = _; rw [IntTri.ofRG_toRG]; rfl)
theorem iabs (c : Common) (o : IabsOp) : Statement (.iabs c o) :=
  of_raw rfl fun _ => (raw_rg 0x16 c o.toRG rfl).trans (by
    show (IabsOp.ofRG _).map _ = _; rw [IabsOp.ofRG_toRG]; rfl)
theorem imin (c : Common) (o : IntBin) : Statement (.imin c o) :=
  of_raw rfl fun _ => (raw_rg 0x17 c o.toRG rfl).trans (by
    show (IntBin.ofRG _).map _ = _; rw [IntBin.ofRG_toRG]; rfl)
theorem imax (c : Common) (o : IntBin) : Statement (.imax c o) :=
  of_raw rfl fun _ => (raw_rg 0x18 c o.toRG rfl).trans (by
    show (IntBin.ofRG _).map _ = _; rw [IntBin.ofRG_toRG]; rfl)
theorem and (c : Common) (o : LogBin) : Statement (.and c o) :=
  of_raw rfl fun _ => (raw_rg 0x19 c o.toRG rfl).trans (by
    show (LogBin.ofRG _).map _ = _; rw [LogBin.ofRG_toRG]; rfl)
theorem or (c : Common) (o : LogBin) : Statement (.or c o) :=
  of_raw rfl fun _ => (raw_rg 0x1A c o.toRG rfl).trans (by
    show (LogBin.ofRG _).map _ = _; rw [LogBin.ofRG_toRG]; rfl)
theorem xor (c : Common) (o : LogBin) : Statement (.xor c o) :=
  of_raw rfl fun _ => (raw_rg 0x1B c o.toRG rfl).trans (by
    show (LogBin.ofRG _).map _ = _; rw [LogBin.ofRG_toRG]; rfl)
theorem shl (c : Common) (o : FlagBin) : Statement (.shl c o) :=
  of_raw rfl fun _ => (raw_rg 0x1C c o.toRG rfl).trans (by
    show (FlagBin.ofRG _).map _ = _; rw [FlagBin.ofRG_toRG]; rfl)
theorem shr (c : Common) (o : FlagBin) : Statement (.shr c o) :=
  of_raw rfl fun _ => (raw_rg 0x1D c o.toRG rfl).trans (by
    show (FlagBin.ofRG _).map _ = _; rw [FlagBin.ofRG_toRG]; rfl)
theorem sar (c : Common) (o : FlagBin) : Statement (.sar c o) :=
  of_raw rfl fun _ => (raw_rg 0x1E c o.toRG rfl).trans (by
    show (FlagBin.ofRG _).map _ = _; rw [FlagBin.ofRG_toRG]; rfl)
theorem bfe (c : Common) (o : FlagBin) : Statement (.bfe c o) :=
  of_raw rfl fun _ => (raw_rg 0x1F c o.toRG rfl).trans (by
    show (FlagBin.ofRG _).map _ = _; rw [FlagBin.ofRG_toRG]; rfl)
theorem bfi (c : Common) (o : BfiOp) : Statement (.bfi c o) :=
  of_raw rfl fun _ => (raw_rg 0x20 c o.toRG rfl).trans (by
    show (BfiOp.ofRG _).map _ = _; rw [BfiOp.ofRG_toRG]; rfl)
theorem popc (c : Common) (o : UnOp) : Statement (.popc c o) :=
  of_raw rfl fun _ => (raw_rg 0x21 c o.toRG rfl).trans (by
    show (UnOp.ofRG _).map _ = _; rw [UnOp.ofRG_toRG]; rfl)
theorem clz (c : Common) (o : UnOp) : Statement (.clz c o) :=
  of_raw rfl fun _ => (raw_rg 0x22 c o.toRG rfl).trans (by
    show (UnOp.ofRG _).map _ = _; rw [UnOp.ofRG_toRG]; rfl)
theorem brev (c : Common) (o : UnOp) : Statement (.brev c o) :=
  of_raw rfl fun _ => (raw_rg 0x23 c o.toRG rfl).trans (by
    show (UnOp.ofRG _).map _ = _; rw [UnOp.ofRG_toRG]; rfl)
theorem icmp (c : Common) (o : IcmpOp) : Statement (.icmp c o) :=
  of_raw rfl fun _ => (raw_rg 0x24 c o.toRG rfl).trans (by
    show (IcmpOp.ofRG _).map _ = _; rw [IcmpOp.ofRG_toRG]; rfl)
theorem sel (c : Common) (o : SelOp) : Statement (.sel c o) :=
  of_raw rfl fun _ => (raw_rg 0x25 c o.toRG rfl).trans (by
    show (SelOp.ofRG _).map _ = _; rw [SelOp.ofRG_toRG]; rfl)
theorem mov (c : Common) (o : UnOp) : Statement (.mov c o) :=
  of_raw rfl fun _ => (raw_rg 0x26 c o.toRG rfl).trans (by
    show (UnOp.ofRG _).map _ = _; rw [UnOp.ofRG_toRG]; rfl)
theorem movi (c : Common) (o : MoviOp) : Statement (.movi c o) :=
  of_raw rfl fun _ => (raw_i32 c o.toI32).trans (by rw [MoviOp.ofI32_toI32]; rfl)
theorem lea (c : Common) (o : LeaOp) : Statement (.lea c o) :=
  of_raw rfl fun _ => (raw_rg 0x28 c o.toRG rfl).trans (by
    show (LeaOp.ofRG _).map _ = _; rw [LeaOp.ofRG_toRG]; rfl)
theorem plop (c : Common) (o : PlopOp) : Statement (.plop c o) :=
  of_raw rfl fun _ => (raw_rg 0x29 c o.toRG rfl).trans (by
    show (PlopOp.ofRG _).map _ = _; rw [PlopOp.ofRG_toRG]; rfl)
theorem smovRead (c : Common) (o : SmovRead) : Statement (.smovRead c o) :=
  of_raw rfl fun _ => (raw_rg 0x2A c o.toRG rfl).trans (by
    show decodeRG 0x2A c _ = _
    show (SmovRead.ofRG _).map _ = _; rw [SmovRead.ofRG_toRG]; rfl)
theorem smovWrite (c : Common) (o : SmovWrite) : Statement (.smovWrite c o) :=
  of_raw rfl fun _ => (raw_rg 0x2A c o.toRG rfl).trans (by
    show decodeRG 0x2A c _ = _
    show (SmovWrite.ofRG _).map _ = _; rw [SmovWrite.ofRG_toRG]; rfl)
theorem kmovToK (c : Common) (o : KmovOp) : Statement (.kmovToK c o) :=
  of_raw rfl fun _ => (raw_rg 0x2B c o.toRGTo rfl).trans (by
    show decodeRG 0x2B c _ = _
    show (KmovOp.ofRGTo _).map _ = _; rw [KmovOp.ofRGTo_toRGTo]; rfl)
theorem kmovFromK (c : Common) (o : KmovOp) : Statement (.kmovFromK c o) :=
  of_raw rfl fun _ => (raw_rg 0x2B c o.toRGFrom rfl).trans (by
    show decodeRG 0x2B c _ = _
    show (KmovOp.ofRGFrom _).map _ = _; rw [KmovOp.ofRGFrom_toRGFrom]; rfl)
theorem elect (c : Common) (o : ElectOp) : Statement (.elect c o) :=
  of_raw rfl fun _ => (raw_rg 0x2C c o.toRG rfl).trans (by
    show (ElectOp.ofRG _).map _ = _; rw [ElectOp.ofRG_toRG]; rfl)
theorem iaddi (c : Common) (o : IaddiOp) : Statement (.iaddi c o) :=
  of_raw rfl fun _ => (raw_ri 0x2D c o.toRI rfl).trans (by
    show (IaddiOp.ofRI _).map _ = _; rw [IaddiOp.ofRI_toRI]; rfl)
theorem lopi (c : Common) (o : LopiOp) : Statement (.lopi c o) :=
  of_raw rfl fun _ => (raw_ri 0x2E c o.toRI rfl).trans (by
    show (LopiOp.ofRI _).map _ = _; rw [LopiOp.ofRI_toRI]; rfl)
theorem fadd (c : Common) (o : FpBin) : Statement (.fadd c o) :=
  of_raw rfl fun _ => (raw_rg 0x30 c o.toRG rfl).trans (by
    show (FpBin.ofRG _).map _ = _; rw [FpBin.ofRG_toRG]; rfl)
theorem fsub (c : Common) (o : FpBin) : Statement (.fsub c o) :=
  of_raw rfl fun _ => (raw_rg 0x31 c o.toRG rfl).trans (by
    show (FpBin.ofRG _).map _ = _; rw [FpBin.ofRG_toRG]; rfl)
theorem fmul (c : Common) (o : FpBin) : Statement (.fmul c o) :=
  of_raw rfl fun _ => (raw_rg 0x32 c o.toRG rfl).trans (by
    show (FpBin.ofRG _).map _ = _; rw [FpBin.ofRG_toRG]; rfl)
theorem ffma (c : Common) (o : FpTri) : Statement (.ffma c o) :=
  of_raw rfl fun _ => (raw_rg 0x33 c o.toRG rfl).trans (by
    show (FpTri.ofRG _).map _ = _; rw [FpTri.ofRG_toRG]; rfl)
theorem fmin (c : Common) (o : FpBin) : Statement (.fmin c o) :=
  of_raw rfl fun _ => (raw_rg 0x34 c o.toRG rfl).trans (by
    show (FpBin.ofRG _).map _ = _; rw [FpBin.ofRG_toRG]; rfl)
theorem fmax (c : Common) (o : FpBin) : Statement (.fmax c o) :=
  of_raw rfl fun _ => (raw_rg 0x35 c o.toRG rfl).trans (by
    show (FpBin.ofRG _).map _ = _; rw [FpBin.ofRG_toRG]; rfl)
theorem fcmp (c : Common) (o : FcmpOp) : Statement (.fcmp c o) :=
  of_raw rfl fun _ => (raw_rg 0x36 c o.toRG rfl).trans (by
    show (FcmpOp.ofRG _).map _ = _; rw [FcmpOp.ofRG_toRG]; rfl)
theorem frcp (c : Common) (o : FpUn) : Statement (.frcp c o) :=
  of_raw rfl fun _ => (raw_rg 0x37 c o.toRG rfl).trans (by
    show (FpUn.ofRG _).map _ = _; rw [FpUn.ofRG_toRG]; rfl)
theorem fsqrt (c : Common) (o : FpUn) : Statement (.fsqrt c o) :=
  of_raw rfl fun _ => (raw_rg 0x38 c o.toRG rfl).trans (by
    show (FpUn.ofRG _).map _ = _; rw [FpUn.ofRG_toRG]; rfl)
theorem frsq (c : Common) (o : FpUn) : Statement (.frsq c o) :=
  of_raw rfl fun _ => (raw_rg 0x39 c o.toRG rfl).trans (by
    show (FpUn.ofRG _).map _ = _; rw [FpUn.ofRG_toRG]; rfl)
theorem fexp2 (c : Common) (o : FpUn) : Statement (.fexp2 c o) :=
  of_raw rfl fun _ => (raw_rg 0x3A c o.toRG rfl).trans (by
    show (FpUn.ofRG _).map _ = _; rw [FpUn.ofRG_toRG]; rfl)
theorem flog2 (c : Common) (o : FpUn) : Statement (.flog2 c o) :=
  of_raw rfl fun _ => (raw_rg 0x3B c o.toRG rfl).trans (by
    show (FpUn.ofRG _).map _ = _; rw [FpUn.ofRG_toRG]; rfl)
theorem fsin (c : Common) (o : FpUn) : Statement (.fsin c o) :=
  of_raw rfl fun _ => (raw_rg 0x3C c o.toRG rfl).trans (by
    show (FpUn.ofRG _).map _ = _; rw [FpUn.ofRG_toRG]; rfl)
theorem fcos (c : Common) (o : FpUn) : Statement (.fcos c o) :=
  of_raw rfl fun _ => (raw_rg 0x3D c o.toRG rfl).trans (by
    show (FpUn.ofRG _).map _ = _; rw [FpUn.ofRG_toRG]; rfl)
theorem frnd (c : Common) (o : FpUn) : Statement (.frnd c o) :=
  of_raw rfl fun _ => (raw_rg 0x3E c o.toRG rfl).trans (by
    show (FpUn.ofRG _).map _ = _; rw [FpUn.ofRG_toRG]; rfl)
theorem fscl (c : Common) (o : FpBin) : Statement (.fscl c o) :=
  of_raw rfl fun _ => (raw_rg 0x3F c o.toRG rfl).trans (by
    show (FpBin.ofRG _).map _ = _; rw [FpBin.ofRG_toRG]; rfl)
theorem fcls (c : Common) (o : FclsOp) : Statement (.fcls c o) :=
  of_raw rfl fun _ => (raw_rg 0x40 c o.toRG rfl).trans (by
    show (FclsOp.ofRG _).map _ = _; rw [FclsOp.ofRG_toRG]; rfl)
theorem fcvt (c : Common) (o : FcvtOp) : Statement (.fcvt c o) :=
  of_raw rfl fun h => (raw_rg 0x41 c o.toRG rfl).trans (by
    show decodeRG 0x41 c _ = _
    show (FcvtOp.ofRG _).map _ = _; rw [FcvtOp.ofRG_toRG o (fcvt_wf h)]; rfl)
theorem f2i (c : Common) (o : CvtIntOp) : Statement (.f2i c o) :=
  of_raw rfl fun _ => (raw_rg 0x42 c o.toF2i rfl).trans (by
    show (CvtIntOp.ofF2i _).map _ = _; rw [CvtIntOp.ofF2i_toF2i]; rfl)
theorem i2f (c : Common) (o : CvtIntOp) : Statement (.i2f c o) :=
  of_raw rfl fun _ => (raw_rg 0x43 c o.toI2f rfl).trans (by
    show (CvtIntOp.ofI2f _).map _ = _; rw [CvtIntOp.ofI2f_toI2f]; rfl)
theorem fdot (c : Common) (o : FdotOp) : Statement (.fdot c o) :=
  of_raw rfl fun _ => (raw_rg 0x44 c o.toRG rfl).trans (by
    show (FdotOp.ofRG _).map _ = _; rw [FdotOp.ofRG_toRG]; rfl)
theorem bqntScale (c : Common) (o : BqntScale) : Statement (.bqntScale c o) :=
  of_raw rfl fun _ => (raw_rg 0x45 c o.toRG rfl).trans (by
    show decodeRG 0x45 c _ = _
    have h : xbit o.toRG.x 3 = true := by obtain ⟨ef, d, a⟩ := o; cases ef <;> simp [BqntScale.toRG, EFmt.code]
    show (if xbit o.toRG.x 3 then _ else _) = _; rw [h, if_pos rfl, BqntScale.ofRG_toRG]; rfl)
theorem bqntElement (c : Common) (o : BqntElem) : Statement (.bqntElement c o) :=
  of_raw rfl fun _ => (raw_rg 0x45 c o.toRG rfl).trans (by
    show decodeRG 0x45 c _ = _
    have h : xbit o.toRG.x 3 = false := by
      obtain ⟨ef, rm, sat, d, a⟩ := o; cases ef <;> cases rm <;> cases sat <;> simp [BqntElem.toRG, EFmt.code, RMode.code]
    show (if xbit o.toRG.x 3 then _ else _) = _; rw [h, if_neg (by decide), BqntElem.ofRG_toRG]; rfl)
theorem bdq (c : Common) (o : BdqOp) : Statement (.bdq c o) :=
  of_raw rfl fun _ => (raw_rg 0x46 c o.toRG rfl).trans (by
    show (BdqOp.ofRG _).map _ = _; rw [BdqOp.ofRG_toRG]; rfl)
theorem shfl (c : Common) (o : ShflOp) : Statement (.shfl c o) :=
  of_raw rfl fun _ => (raw_rg 0x60 c o.toRG rfl).trans (by
    show (ShflOp.ofRG _).map _ = _; rw [ShflOp.ofRG_toRG]; rfl)
theorem vote (c : Common) (o : VoteOp) : Statement (.vote c o) :=
  of_raw rfl fun _ => (raw_rg 0x61 c o.toRG rfl).trans (by
    show (VoteOp.ofRG _).map _ = _; rw [VoteOp.ofRG_toRG]; rfl)
theorem lred (c : Common) (o : FoldOp) : Statement (.lred c o) :=
  of_raw rfl fun _ => (raw_rg 0x62 c o.toRG rfl).trans (by
    show (FoldOp.ofRG _).map _ = _; rw [FoldOp.ofRG_toRG]; rfl)
theorem lscan (c : Common) (o : FoldOp) : Statement (.lscan c o) :=
  of_raw rfl fun _ => (raw_rg 0x63 c o.toRG rfl).trans (by
    show (FoldOp.ofRG _).map _ = _; rw [FoldOp.ofRG_toRG]; rfl)
theorem matchLanes (c : Common) (o : MatchOp) : Statement (.matchLanes c o) :=
  of_raw rfl fun _ => (raw_rg 0x64 c o.toRG rfl).trans (by
    show (MatchOp.ofRG _).map _ = _; rw [MatchOp.ofRG_toRG]; rfl)
theorem ld (c : Common) (o : LdOp) : Statement (.ld c o) :=
  of_raw rfl fun h => (raw_m 0x70 c o.toMF rfl).trans (by
    show (LdOp.ofMF _).map _ = _; rw [LdOp.ofMF_toMF o (ld_wf h)]; rfl)
theorem st (c : Common) (o : StOp) : Statement (.st c o) :=
  of_raw rfl fun h => (raw_m 0x71 c o.toMF rfl).trans (by
    show (StOp.ofMF _).map _ = _; rw [StOp.ofMF_toMF o (st_wf h)]; rfl)
theorem stt (c : Common) (o : StOp) : Statement (.stt c o) :=
  of_raw rfl fun h => (raw_m 0x72 c o.toMF rfl).trans (by
    show (StOp.ofMF _).map _ = _; rw [StOp.ofMF_toMF o (stt_wf h)]; rfl)
theorem pref (c : Common) (o : PrefOp) : Statement (.pref c o) :=
  of_raw rfl fun _ => (raw_m 0x73 c o.toMF rfl).trans (by
    show (PrefOp.ofMF _).map _ = _; rw [PrefOp.ofMF_toMF]; rfl)
theorem ipref (c : Common) (o : IprefOp) : Statement (.ipref c o) :=
  of_raw rfl fun _ => (raw_b 0x74 c o.toBF rfl).trans (by
    show decodeB 0x74 c _ = _
    simp [decodeB, IprefOp.ofBF_toBF])
theorem ipin (c : Common) (o : IprefOp) : Statement (.ipin c o) :=
  of_raw rfl fun _ => (raw_b 0x75 c o.toBF rfl).trans (by
    show decodeB 0x75 c _ = _
    simp [decodeB, IprefOp.ofBF_toBF])
theorem iunpin (c : Common) (o : IprefOp) : Statement (.iunpin c o) :=
  of_raw rfl fun _ => (raw_b 0x76 c o.toBF rfl).trans (by
    show decodeB 0x76 c _ = _
    simp [decodeB, IprefOp.ofBF_toBF])
theorem fenceRel (c : Common) (s : Scope) : Statement (.fenceRel c s) :=
  of_raw rfl fun _ => (raw_s 0x77 c ⟨mk12 (4 * s.code), 0⟩ rfl).trans (by
    show decodeS 0x77 c _ = _
    have h := fence_fields 0 s
    simp at h
    simp [decodeS, h])
theorem fenceAcq (c : Common) (s : Scope) : Statement (.fenceAcq c s) :=
  of_raw rfl fun _ => (raw_s 0x77 c ⟨mk12 (1 + 4 * s.code), 0⟩ rfl).trans (by
    show decodeS 0x77 c _ = _
    have h := fence_fields 1 s
    simp at h
    simp [decodeS, h])
theorem fenceAr (c : Common) (s : Scope) : Statement (.fenceAr c s) :=
  of_raw rfl fun _ => (raw_s 0x77 c ⟨mk12 (2 + 4 * s.code), 0⟩ rfl).trans (by
    show decodeS 0x77 c _ = _
    have h := fence_fields 2 s
    simp at h
    simp [decodeS, h])
theorem cflushL1 (c : Common) (o : FlushOp) : Statement (.cflushL1 c o) :=
  of_raw rfl fun _ => (raw_m 0x78 c (encFlush false 0 o) rfl).trans (by
    show (flushOf _).bind _ = _; rw [flushOf_encFlush]; rfl)
theorem cflushClean (c : Common) (o : FlushOp) : Statement (.cflushClean c o) :=
  of_raw rfl fun _ => (raw_m 0x78 c (encFlush false 1 o) rfl).trans (by
    show (flushOf _).bind _ = _; rw [flushOf_encFlush]; rfl)
theorem cflushInval (c : Common) (o : FlushOp) : Statement (.cflushInval c o) :=
  of_raw rfl fun _ => (raw_m 0x78 c (encFlush false 2 o) rfl).trans (by
    show (flushOf _).bind _ = _; rw [flushOf_encFlush]; rfl)
theorem cflushTlb (c : Common) (o : FlushOp) : Statement (.cflushTlb c o) :=
  of_raw rfl fun _ => (raw_m 0x78 c (encFlush true 0 o) rfl).trans (by
    show (flushOf _).bind _ = _; rw [flushOf_encFlush]; rfl)
theorem cflushAsid (c : Common) (o : FlushOp) : Statement (.cflushAsid c o) :=
  of_raw rfl fun _ => (raw_m 0x78 c (encFlush true 1 o) rfl).trans (by
    show (flushOf _).bind _ = _; rw [flushOf_encFlush]; rfl)
theorem cflushCtx (c : Common) (o : FlushOp) : Statement (.cflushCtx c o) :=
  of_raw rfl fun _ => (raw_m 0x78 c (encFlush true 2 o) rfl).trans (by
    show (flushOf _).bind _ = _; rw [flushOf_encFlush]; rfl)
theorem feset (c : Common) (o : FeOp) : Statement (.feset c o) :=
  of_raw rfl fun h => (raw_m 0x79 c o.toMF rfl).trans (by
    show (FeOp.ofMF _).map _ = _; rw [FeOp.ofMF_toMF o (fe_wf h)]; rfl)
theorem feclr (c : Common) (o : FeOp) : Statement (.feclr c o) :=
  of_raw rfl fun h => (raw_m 0x7A c o.toMF rfl).trans (by
    show (FeOp.ofMF _).map _ = _; rw [FeOp.ofMF_toMF o (feclr_wf h)]; rfl)
theorem monitor (c : Common) (o : MonOp) : Statement (.monitor c o) :=
  of_raw rfl fun _ => (raw_m 0x7B c o.toMF rfl).trans (by
    show (MonOp.ofMF _).map _ = _; rw [MonOp.ofMF_toMF]; rfl)
theorem waitm (c : Common) : Statement (.waitm c) :=
  of_raw rfl fun _ => (raw_s 0x7C c ⟨0, 0⟩ rfl).trans (by
    show decodeS 0x7C c _ = _
    rfl)
theorem atom (c : Common) (o : AtomOp) : Statement (.atom c o) :=
  of_raw rfl fun h => (raw_rg 0x90 c o.toRG rfl).trans (by
    show decodeRG 0x90 c _ = _
    show (AtomOp.ofRG _).map _ = _; rw [AtomOp.ofRG_toRG o (atom_wf h)]; rfl)
theorem atomcas (c : Common) (o : CasOp) : Statement (.atomcas c o) :=
  of_raw rfl fun h => (raw_rg 0x91 c o.toRG rfl).trans (by
    show decodeRG 0x91 c _ = _
    show (CasOp.ofRG _).map _ = _; rw [CasOp.ofRG_toRG o (cas_wf h)]; rfl)
theorem red (c : Common) (o : RedOpnd) : Statement (.red c o) :=
  of_raw rfl fun h => (raw_rg 0x92 c o.toRG rfl).trans (by
    show decodeRG 0x92 c _ = _
    show (RedOpnd.ofRG _).map _ = _; rw [RedOpnd.ofRG_toRG o (red_wf h)]; rfl)
theorem xadd (c : Common) (o : XaddOp) : Statement (.xadd c o) :=
  of_raw rfl fun _ => (raw_rg 0x93 c o.toRG rfl).trans (by
    show (XaddOp.ofRG _).map _ = _; rw [XaddOp.ofRG_toRG]; rfl)
theorem xread (c : Common) (o : XreadOp) : Statement (.xread c o) :=
  of_raw rfl fun _ => (raw_rg 0x94 c o.toRG rfl).trans (by
    show (XreadOp.ofRG _).map _ = _; rw [XreadOp.ofRG_toRG]; rfl)
theorem xclr (c : Common) (o : XclrOp) : Statement (.xclr c o) :=
  of_raw rfl fun _ => (raw_rg 0x95 c (o.toRG 0) rfl).trans (by
    show decodeRG 0x95 c _ = _
    have h : xbit (o.toRG 0).x 0 = false := by obtain ⟨ch, a⟩ := o; cases ch <;> simp [XclrOp.toRG, encChip]
    show (if xbit (o.toRG 0).x 0 then _ else _) = _; rw [h, if_neg (by decide), XclrOp.ofRG_toRG 0 (by decide)]; rfl)
theorem xclrLine (c : Common) (o : XclrOp) : Statement (.xclrLine c o) :=
  of_raw rfl fun _ => (raw_rg 0x95 c (o.toRG 1) rfl).trans (by
    show decodeRG 0x95 c _ = _
    have h : xbit (o.toRG 1).x 0 = true := by obtain ⟨ch, a⟩ := o; cases ch <;> simp [XclrOp.toRG, encChip]
    show (if xbit (o.toRG 1).x 0 then _ else _) = _; rw [h, if_pos rfl, XclrOp.ofRG_toRG 1 (by decide)]; rfl)
theorem glaze (c : Common) (o : GlazeOp) : Statement (.glaze c o) :=
  of_raw rfl fun _ => (raw_rg 0x96 c o.toRG rfl).trans (by
    show (GlazeOp.ofRG _).map _ = _; rw [GlazeOp.ofRG_toRG]; rfl)
theorem glzins (c : Common) (o : GlzinsOp) : Statement (.glzins c o) :=
  of_raw rfl fun _ => (raw_rg 0x97 c o.toRG rfl).trans (by
    show (GlzinsOp.ofRG _).map _ = _; rw [GlzinsOp.ofRG_toRG]; rfl)
theorem glzq (c : Common) (o : GlzqOp) : Statement (.glzq c o) :=
  of_raw rfl fun _ => (raw_rg 0x98 c o.toRG rfl).trans (by
    show (GlzqOp.ofRG _).map _ = _; rw [GlzqOp.ofRG_toRG]; rfl)
theorem bari (c : Common) (o : BariOp) : Statement (.bari c o) :=
  of_raw rfl fun h => (raw_rg 0xA0 c o.toRG rfl).trans (by
    show decodeRG 0xA0 c _ = _
    show (BariOp.ofRG _).map _ = _; rw [BariOp.ofRG_toRG o (bari_wf h)]; rfl)
theorem bara (c : Common) (o : BaraOp) : Statement (.bara c o) :=
  of_raw rfl fun h => (raw_rg 0xA1 c o.toRG rfl).trans (by
    show decodeRG 0xA1 c _ = _
    show (BaraOp.ofRG _).map _ = _; rw [BaraOp.ofRG_toRG o (bara_wf h)]; rfl)
theorem barw (c : Common) (o : BarwOp) : Statement (.barw c o) :=
  of_raw rfl fun h => (raw_rg 0xA2 c o.toRG rfl).trans (by
    show decodeRG 0xA2 c _ = _
    show (BarwOp.ofRG _).map _ = _; rw [BarwOp.ofRG_toRG o (barw_wf h)]; rfl)
theorem bart (c : Common) (o : BarwOp) : Statement (.bart c o) :=
  of_raw rfl fun h => (raw_rg 0xA3 c o.toRG rfl).trans (by
    show decodeRG 0xA3 c _ = _
    have hx : xbit o.toRG.x 4 = false := by obtain ⟨s, d, a, b⟩ := o; cases s <;> simp [BarwOp.toRG, Space.acode]
    show (if xbit o.toRG.x 4 then _ else _) = _; rw [hx, if_neg (by decide), BarwOp.ofRG_toRG o (bart_wf h)]; rfl)
theorem bartPoison (c : Common) (o : BartPOp) : Statement (.bartPoison c o) :=
  of_raw rfl fun h => (raw_rg 0xA3 c o.toRG rfl).trans (by
    show decodeRG 0xA3 c _ = _
    have hx : xbit o.toRG.x 4 = true := by obtain ⟨s, d, a⟩ := o; cases s <;> simp [BartPOp.toRG, Space.acode]
    show (if xbit o.toRG.x 4 then _ else _) = _; rw [hx, if_pos rfl, BartPOp.ofRG_toRG o (bartPoison_wf h)]; rfl)
theorem barp (c : Common) (o : BarpOp) : Statement (.barp c o) :=
  of_raw rfl fun h => (raw_rg 0xA4 c o.toRG rfl).trans (by
    show decodeRG 0xA4 c _ = _
    show (BarpOp.ofRG _).map _ = _; rw [BarpOp.ofRG_toRG o (barp_wf h)]; rfl)
theorem qcfgSet (c : Common) (o : QcfgSet) : Statement (.qcfgSet c o) :=
  of_raw rfl fun _ => (raw_rg 0xA5 c o.toRG rfl).trans (by
    show decodeRG 0xA5 c _ = _
    show (QcfgSet.ofRG _).map _ = _; rw [QcfgSet.ofRG_toRG]; rfl)
theorem qcfgGrant (c : Common) (o : QcfgGrant) : Statement (.qcfgGrant c o) :=
  of_raw rfl fun _ => (raw_rg 0xA5 c o.toRG rfl).trans (by
    show decodeRG 0xA5 c _ = _
    show (QcfgGrant.ofRG _).map _ = _; rw [QcfgGrant.ofRG_toRG]; rfl)
theorem qcfgStat (c : Common) (o : QcfgStat) : Statement (.qcfgStat c o) :=
  of_raw rfl fun _ => (raw_rg 0xA5 c o.toRG rfl).trans (by
    show decodeRG 0xA5 c _ = _
    show (QcfgStat.ofRG _).map _ = _; rw [QcfgStat.ofRG_toRG]; rfl)
theorem qcfgOff (c : Common) (q : Fin 32) : Statement (.qcfgOff c q) :=
  of_raw rfl fun _ => (raw_rg 0xA5 c (encQcfgOff q) rfl).trans (by
    show decodeRG 0xA5 c _ = _
    show (qcfgOffOf _).map _ = _; rw [qcfgOffOf_enc]; rfl)
theorem qpush (c : Common) (o : QueueOp) : Statement (.qpush c o) :=
  of_raw rfl fun _ => (raw_rg 0xA6 c o.toPush rfl).trans (by
    show (QueueOp.ofPush _).map _ = _; rw [QueueOp.ofPush_toPush]; rfl)
theorem qpop (c : Common) (o : QueueOp) : Statement (.qpop c o) :=
  of_raw rfl fun _ => (raw_rg 0xA7 c o.toPop rfl).trans (by
    show (QueueOp.ofPop _).map _ = _; rw [QueueOp.ofPop_toPop]; rfl)
theorem qtry (c : Common) (o : QtryOp) : Statement (.qtry c o) :=
  of_raw rfl fun _ => (raw_rg 0xA8 c o.toRG rfl).trans (by
    show (QtryOp.ofRG _).map _ = _; rw [QtryOp.ofRG_toRG]; rfl)
theorem sqadd (c : Common) (o : SqOp) : Statement (.sqadd c o) :=
  of_raw rfl fun _ => (raw_rg 0xA9 c o.toRG rfl).trans (by
    show (SqOp.ofRG _).map _ = _; rw [SqOp.ofRG_toRG]; rfl)
theorem sqwait (c : Common) (o : SqOp) : Statement (.sqwait c o) :=
  of_raw rfl fun _ => (raw_rg 0xAA c o.toRG rfl).trans (by
    show (SqOp.ofRG _).map _ = _; rw [SqOp.ofRG_toRG]; rfl)
theorem sqrd (c : Common) (o : SqrdOp) : Statement (.sqrd c o) :=
  of_raw rfl fun _ => (raw_rg 0xAB c o.toRG rfl).trans (by
    show (SqrdOp.ofRG _).map _ = _; rw [SqrdOp.ofRG_toRG]; rfl)
theorem cpl (c : Common) (o : CplOp) : Statement (.cpl c o) :=
  of_raw rfl fun _ => (raw_rg 0xB0 c o.toRG rfl).trans (by
    show (CplOp.ofRG _).map _ = _; rw [CplOp.ofRG_toRG]; rfl)
theorem cpt (c : Common) (o : CptOp) : Statement (.cpt c o) :=
  of_raw rfl fun _ => (raw_rg 0xB1 c o.toRG rfl).trans (by
    show (CptOp.ofRG _).map _ = _; rw [CptOp.ofRG_toRG]; rfl)
theorem cpm (c : Common) (o : CpmOp) : Statement (.cpm c o) :=
  of_raw rfl fun _ => (raw_rg 0xB2 c o.toRG rfl).trans (by
    show (CpmOp.ofRG _).map _ = _; rw [CpmOp.ofRG_toRG]; rfl)
theorem cpg (c : Common) (o : CpmOp) : Statement (.cpg c o) :=
  of_raw rfl fun _ => (raw_rg 0xB3 c o.toRG rfl).trans (by
    show (CpmOp.ofRG _).map _ = _; rw [CpmOp.ofRG_toRG]; rfl)
theorem cpclose (c : Common) : Statement (.cpclose c) :=
  of_raw rfl fun _ => (raw_rg 0xB4 c (encX 0) rfl).trans (by
    show decodeRG 0xB4 c _ = _
    rfl)
theorem cpwait (c : Common) (n : Fin 8) : Statement (.cpwait c n) :=
  of_raw rfl fun _ => (raw_rg 0xB5 c (encX n.val) rfl).trans (by
    show decodeRG 0xB5 c _ = _
    have h1 : (mkX n.val).val < 8 := by rw [mkX_val]; omega
    have h2 : mk8 (mkX n.val).val = n := Fin.ext (by rw [mk8_val, mkX_val]; omega)
    simp [-mkX_val, decodeRG, h1, h2])
theorem chkw (c : Common) (o : ChkwOp) : Statement (.chkw c o) :=
  of_raw rfl fun _ => (raw_rg 0xB6 c o.toRG rfl).trans (by
    show (ChkwOp.ofRG _).map _ = _; rw [ChkwOp.ofRG_toRG]; rfl)
theorem chkt (c : Common) (o : ChktOp) : Statement (.chkt c o) :=
  of_raw rfl fun _ => (raw_rg 0xB7 c o.toRG rfl).trans (by
    show (ChktOp.ofRG _).map _ = _; rw [ChktOp.ofRG_toRG]; rfl)
theorem tload (c : Common) (o : TloadOp) : Statement (.tload c o) :=
  of_raw rfl fun _ => (raw_rg 0xB8 c o.toRG rfl).trans (by
    show (TloadOp.ofRG _).map _ = _; rw [TloadOp.ofRG_toRG]; rfl)
theorem tevict (c : Common) (n : Fin 32) : Statement (.tevict c n) :=
  of_raw rfl fun _ => (raw_rg 0xB9 c (encX n.val) rfl).trans (by
    show decodeRG 0xB9 c _ = _
    have h1 : (mkX n.val).val < 32 := by rw [mkX_val]; omega
    have h2 : slotOf (mkX n.val) = n := Fin.ext (by simp only [slotOf, mkX_val]; omega)
    simp [-mkX_val, decodeRG, h1, h2])
theorem sort (c : Common) (a : Src) : Statement (.sort c a) :=
  of_raw rfl fun _ => (raw_rg 0xBA c (encA a) rfl).trans (by
    show decodeRG 0xBA c _ = _
    show (onlyA _).map _ = _; rw [onlyA_encA]; rfl)
theorem mmx (c : Common) (a : Src) : Statement (.mmx c a) :=
  of_raw rfl fun _ => (raw_rg 0xC0 c (encA a) rfl).trans (by
    show decodeRG 0xC0 c _ = _
    show (onlyA _).map _ = _; rw [onlyA_encA]; rfl)
theorem mmzero (c : Common) (o : MmzeroOp) : Statement (.mmzero c o) :=
  of_raw rfl fun _ => (raw_rg 0xC1 c (encMmzero o) rfl).trans (by
    show decodeRG 0xC1 c _ = _
    show (mmzeroOf _).map _ = _; rw [mmzeroOf_enc]; rfl)
theorem mmld (c : Common) (o : MmldOp) : Statement (.mmld c o) :=
  of_raw rfl fun _ => (raw_rg 0xC2 c o.toRG rfl).trans (by
    show (MmldOp.ofRG _).map _ = _; rw [MmldOp.ofRG_toRG]; rfl)
theorem mmst (c : Common) (o : MmstOp) : Statement (.mmst c o) :=
  of_raw rfl fun _ => (raw_rg 0xC3 c o.toRG rfl).trans (by
    show (MmstOp.ofRG _).map _ = _; rw [MmstOp.ofRG_toRG]; rfl)
theorem mmrd (c : Common) (o : MmrdOp) : Statement (.mmrd c o) :=
  of_raw rfl fun _ => (raw_rg 0xC4 c o.toRG rfl).trans (by
    show (MmrdOp.ofRG _).map _ = _; rw [MmrdOp.ofRG_toRG]; rfl)
theorem mmwake (c : Common) (m : Fin 16) : Statement (.mmwake c m) :=
  of_raw rfl fun _ => (raw_rg 0xC5 c (encX m.val) rfl).trans (by
    show decodeRG 0xC5 c _ = _
    show (mmwakeOf _).map _ = _; rw [mmwakeOf_enc]; rfl)
theorem mmstat (c : Common) (o : MmstatOp) : Statement (.mmstat c o) :=
  of_raw rfl fun _ => (raw_rg 0xC6 c o.toRG rfl).trans (by
    show (MmstatOp.ofRG _).map _ = _; rw [MmstatOp.ofRG_toRG]; rfl)
theorem rast (c : Common) (a : Src) : Statement (.rast c a) :=
  of_raw rfl fun _ => (raw_rg 0xD0 c (encA a) rfl).trans (by
    show decodeRG 0xD0 c _ = _
    show (onlyA _).map _ = _; rw [onlyA_encA]; rfl)
theorem attr (c : Common) (o : AttrOp) : Statement (.attr c o) :=
  of_raw rfl fun _ => (raw_rg 0xD1 c o.toRG rfl).trans (by
    show (AttrOp.ofRG _).map _ = _; rw [AttrOp.ofRG_toRG]; rfl)
theorem oenter (c : Common) : Statement (.oenter c) :=
  of_raw rfl fun _ => (raw_rg 0xD2 c (encX 0) rfl).trans (by
    show decodeRG 0xD2 c _ = _
    rfl)
theorem oleave (c : Common) : Statement (.oleave c) :=
  of_raw rfl fun _ => (raw_rg 0xD3 c (encX 0) rfl).trans (by
    show decodeRG 0xD3 c _ = _
    rfl)
theorem flcfgSet (c : Common) (o : FlcfgSet) : Statement (.flcfgSet c o) :=
  of_raw rfl fun _ => (raw_rg 0xD4 c o.toRG rfl).trans (by
    show decodeRG 0xD4 c _ = _
    have h : o.toRG.x.val / 4 % 4 = 0 := by
      obtain ⟨slot, m, a⟩ := o; cases m <;> simp [FlcfgSet.toRG] <;> omega
    simp [decodeRG, h, FlcfgSet.ofRG_toRG])
theorem flcfgGrow (c : Common) (n : Fin 4) : Statement (.flcfgGrow c n) :=
  of_raw rfl fun _ => (raw_rg 0xD4 c (encX (n.val + 4)) rfl).trans (by
    show decodeRG 0xD4 c _ = _
    have h : (encX (n.val + 4)).x.val / 4 % 4 = 1 := by simp only [encX, mkX_val]; omega
    have h2 := flcfgSlot_enc 1 (by decide) n
    simp at h2
    simp [decodeRG, h, h2])
theorem flcfgOff (c : Common) (n : Fin 4) : Statement (.flcfgOff c n) :=
  of_raw rfl fun _ => (raw_rg 0xD4 c (encX (n.val + 8)) rfl).trans (by
    show decodeRG 0xD4 c _ = _
    have h : (encX (n.val + 8)).x.val / 4 % 4 = 2 := by simp only [encX, mkX_val]; omega
    have h2 := flcfgSlot_enc 2 (by decide) n
    simp at h2
    simp [decodeRG, h, h2])
theorem flins (c : Common) (o : FlinsOp) : Statement (.flins c o) :=
  of_raw rfl fun _ => (raw_rg 0xD5 c o.toRG rfl).trans (by
    show (FlinsOp.ofRG _).map _ = _; rw [FlinsOp.ofRG_toRG]; rfl)
theorem flres (c : Common) (o : FlresOp) : Statement (.flres c o) :=
  of_raw rfl fun _ => (raw_rg 0xD6 c (o.toRG 0) rfl).trans (by
    show decodeRG 0xD6 c _ = _
    have h : xbit (o.toRG 0).x 2 = false := by have := o.slot.isLt; simp [FlresOp.toRG]; omega
    show (if xbit (o.toRG 0).x 2 then _ else _) = _; rw [h, if_neg (by decide), FlresOp.ofRG_toRG 0 (by decide)]; rfl)
theorem flresClr (c : Common) (o : FlresOp) : Statement (.flresClr c o) :=
  of_raw rfl fun _ => (raw_rg 0xD6 c (o.toRG 1) rfl).trans (by
    show decodeRG 0xD6 c _ = _
    have h : xbit (o.toRG 1).x 2 = true := by have := o.slot.isLt; simp [FlresOp.toRG]; omega
    show (if xbit (o.toRG 1).x 2 then _ else _) = _; rw [h, if_pos rfl, FlresOp.ofRG_toRG 1 (by decide)]; rfl)
theorem flrd (c : Common) (o : FlrdOp) : Statement (.flrd c o) :=
  of_raw rfl fun _ => (raw_rg 0xD7 c o.toRG rfl).trans (by
    show (FlrdOp.ofRG _).map _ = _; rw [FlrdOp.ofRG_toRG]; rfl)
theorem splat (c : Common) (a : Src) : Statement (.splat c a) :=
  of_raw rfl fun _ => (raw_rg 0xD8 c (encA a) rfl).trans (by
    show decodeRG 0xD8 c _ = _
    show (onlyA _).map _ = _; rw [onlyA_encA]; rfl)
theorem raybox (c : Common) (o : RayOp) : Statement (.raybox c o) :=
  of_raw rfl fun _ => (raw_rg 0xD9 c o.toRG rfl).trans (by
    show (RayOp.ofRG _).map _ = _; rw [RayOp.ofRG_toRG]; rfl)
theorem raytri (c : Common) (o : RayOp) : Statement (.raytri c o) :=
  of_raw rfl fun _ => (raw_rg 0xDA c o.toRG rfl).trans (by
    show (RayOp.ofRG _).map _ = _; rw [RayOp.ofRG_toRG]; rfl)
theorem launch (c : Common) (a : Src) : Statement (.launch c a) :=
  of_raw rfl fun _ => (raw_rg 0xE0 c (encA a) rfl).trans (by
    show decodeRG 0xE0 c _ = _
    show (onlyA _).map _ = _; rw [onlyA_encA]; rfl)
theorem wgemit (c : Common) (o : WgemitOp) : Statement (.wgemit c o) :=
  of_raw rfl fun _ => (raw_rg 0xE1 c o.toRG rfl).trans (by
    show (WgemitOp.ofRG _).map _ = _; rw [WgemitOp.ofRG_toRG]; rfl)
theorem wgdone (c : Common) (o : HandleOp) : Statement (.wgdone c o) :=
  of_raw rfl fun _ => (raw_rg 0xE2 c o.toRG rfl).trans (by
    show (HandleOp.ofRG _).map _ = _; rw [HandleOp.ofRG_toRG]; rfl)
theorem dqpush (c : Common) (o : HandleOp) : Statement (.dqpush c o) :=
  of_raw rfl fun _ => (raw_rg 0xE3 c o.toRG rfl).trans (by
    show (HandleOp.ofRG _).map _ = _; rw [HandleOp.ofRG_toRG]; rfl)
theorem dqpop (c : Common) (o : DqpopOp) : Statement (.dqpop c o) :=
  of_raw rfl fun _ => (raw_rg 0xE4 c o.toRG rfl).trans (by
    show (DqpopOp.ofRG _).map _ = _; rw [DqpopOp.ofRG_toRG]; rfl)
theorem dqsteal (c : Common) (o : DqstealOp) : Statement (.dqsteal c o) :=
  of_raw rfl fun _ => (raw_rg 0xE5 c o.toRG rfl).trans (by
    show (DqstealOp.ofRG _).map _ = _; rw [DqstealOp.ofRG_toRG]; rfl)
theorem quiesceArm (c : Common) (o : QuiesceArm) : Statement (.quiesceArm c o) :=
  of_raw rfl fun _ => (raw_rg 0xE6 c o.toRG rfl).trans (by
    show decodeRG 0xE6 c _ = _
    show (QuiesceArm.ofRG _).map _ = _; rw [QuiesceArm.ofRG_toRG]; rfl)
theorem quiesceRd (c : Common) (o : QuiesceRd) : Statement (.quiesceRd c o) :=
  of_raw rfl fun _ => (raw_rg 0xE6 c o.toRG rfl).trans (by
    show decodeRG 0xE6 c _ = _
    show (QuiesceRd.ofRG _).map _ = _; rw [QuiesceRd.ofRG_toRG]; rfl)
theorem trap (c : Common) (o : TrapOp) : Statement (.trap c o) :=
  of_raw rfl fun _ => (raw_s 0xF0 c ⟨mk12 o.code.toNat, o.imm⟩ rfl).trans (by
    show decodeS 0xF0 c _ = _
    have h := o.code.isLt
    have h1 : (mk12 o.code.toNat).val = o.code.toNat := by simp only [mk12]; omega
    simp [decodeS, h1]; omega)
theorem srd (c : Common) (o : SrdOp) : Statement (.srd c o) :=
  of_raw rfl fun _ => (raw_rg 0xF1 c o.toRG rfl).trans (by
    show (SrdOp.ofRG _).map _ = _; rw [SrdOp.ofRG_toRG]; rfl)
theorem swr (c : Common) (o : SwrOp) : Statement (.swr c o) :=
  of_raw rfl fun _ => (raw_rg 0xF2 c o.toRG rfl).trans (by
    show (SwrOp.ofRG _).map _ = _; rw [SwrOp.ofRG_toRG]; rfl)
theorem cont (c : Common) (t : BitVec 32) : Statement (.cont c t) :=
  of_raw rfl fun _ => (raw_b 0xF3 c ⟨0, 0, t⟩ rfl).trans (by
    show decodeB 0xF3 c _ = _
    rfl)
theorem contOff (c : Common) : Statement (.contOff c) :=
  of_raw rfl fun _ => (raw_b 0xF3 c ⟨0, 1, 0⟩ rfl).trans (by
    show decodeB 0xF3 c _ = _
    rfl)
theorem resumeSvc (c : Common) : Statement (.resumeSvc c) :=
  of_raw rfl fun _ => (raw_rg 0xF4 c (encX 1) rfl).trans (by
    show decodeRG 0xF4 c _ = _
    rfl)
theorem resume (c : Common) (o : ResumeOp) : Statement (.resume c o) :=
  of_raw rfl fun _ => (raw_rg 0xF4 c o.toRG rfl).trans (by
    show decodeRG 0xF4 c _ = _
    have h : isResumeSvc o.toRG = false := by simp [isResumeSvc, ResumeOp.toRG, encX]
    show (if isResumeSvc o.toRG then _ else _) = _; rw [h, if_neg (by decide), ResumeOp.ofRG_toRG]; rfl)
theorem tretRec (c : Common) : Statement (.tretRec c) :=
  of_raw rfl fun _ => (raw_s 0xF5 c ⟨0, 0⟩ rfl).trans (by
    show decodeS 0xF5 c _ = _
    rfl)
theorem tretNext (c : Common) : Statement (.tretNext c) :=
  of_raw rfl fun _ => (raw_s 0xF5 c ⟨1, 0⟩ rfl).trans (by
    show decodeS 0xF5 c _ = _
    rfl)
theorem tretKill (c : Common) : Statement (.tretKill c) :=
  of_raw rfl fun _ => (raw_s 0xF5 c ⟨2, 0⟩ rfl).trans (by
    show decodeS 0xF5 c _ = _
    rfl)
theorem tretTerm (c : Common) (imm : BitVec 32) : Statement (.tretTerm c imm) :=
  of_raw rfl fun _ => (raw_s 0xF5 c ⟨3, imm⟩ rfl).trans (by
    show decodeS 0xF5 c _ = _
    rfl)
theorem coneset (c : Common) (o : ConesetOp) : Statement (.coneset c o) :=
  of_raw rfl fun _ => (raw_rg 0xF8 c o.toRG rfl).trans (by
    show (ConesetOp.ofRG _).map _ = _; rw [ConesetOp.ofRG_toRG]; rfl)
theorem coneclr (c : Common) (n : Fin 16) : Statement (.coneclr c n) :=
  of_raw rfl fun _ => (raw_s 0xF9 c ⟨mk12 n.val, 0⟩ rfl).trans (by
    show decodeS 0xF9 c _ = _
    have h1 : (mk12 n.val).val / 16 = 0 := by simp only [mk12]; omega
    have h2 : jnOf (mk12 n.val) = n := Fin.ext (by simp only [jnOf, mk12]; omega)
    simp [decodeS, h1, h2])
theorem coneclrRec (c : Common) (n : Fin 16) : Statement (.coneclrRec c n) :=
  of_raw rfl fun _ => (raw_s 0xF9 c ⟨mk12 (n.val + 32), 0⟩ rfl).trans (by
    show decodeS 0xF9 c _ = _
    have h1 : (mk12 (n.val + 32)).val / 16 = 2 := by simp only [mk12]; omega
    have h2 : jnOf (mk12 (n.val + 32)) = n := Fin.ext (by simp only [jnOf, mk12]; omega)
    simp [decodeS, h1, h2])
theorem coneclrAll (c : Common) (rec : Bool) : Statement (.coneclrAll c rec) :=
  of_raw rfl fun _ => (raw_s 0xF9 c ⟨mk12 (16 + 32 * b2n rec), 0⟩ rfl).trans (by
    show decodeS 0xF9 c _ = _
    cases rec <;> rfl)
theorem haltSelf (c : Common) : Statement (.haltSelf c) :=
  of_raw rfl fun _ => (raw_s 0xFA c ⟨0, 0⟩ rfl).trans (by
    show decodeS 0xFA c _ = _
    rfl)
theorem haltCrew (c : Common) : Statement (.haltCrew c) :=
  of_raw rfl fun _ => (raw_s 0xFA c ⟨1, 0⟩ rfl).trans (by
    show decodeS 0xFA c _ = _
    rfl)
theorem haltTeam (c : Common) : Statement (.haltTeam c) :=
  of_raw rfl fun _ => (raw_s 0xFA c ⟨2, 0⟩ rfl).trans (by
    show decodeS 0xFA c _ = _
    rfl)
theorem haltThr (c : Common) (s : HaltSel) : Statement (.haltThr c s) :=
  of_raw rfl fun _ => (raw_s 0xFA c ⟨3, BitVec.ofNat 32 (encHaltSel s)⟩ rfl).trans (by
    show decodeS 0xFA c _ = _
    show (haltSelOf _).map _ = _; rw [(haltSel_enc s _ rfl).1]; rfl)
theorem haltRel (c : Common) (s : RelSel) : Statement (.haltRel c s) :=
  of_raw rfl fun _ => (raw_s 0xFA c ⟨4, BitVec.ofNat 32 (encRelSel s)⟩ rfl).trans (by
    show decodeS 0xFA c _ = _
    show (relSelOf (BitVec.ofNat 32 (encRelSel s))).map (Instr.haltRel c) = _; rw [relSel_enc]; rfl)
theorem inspr (c : Common) (o : InsprOp) : Statement (.inspr c o) :=
  of_raw rfl fun _ => (raw_rg 0xFB c o.toRG rfl).trans (by
    show (InsprOp.ofRG _).map _ = _; rw [InsprOp.ofRG_toRG]; rfl)
theorem inspw (c : Common) (o : InspwOp) : Statement (.inspw c o) :=
  of_raw rfl fun _ => (raw_rg 0xFC c o.toRG rfl).trans (by
    show (InspwOp.ofRG _).map _ = _; rw [InspwOp.ofRG_toRG]; rfl)
theorem step (c : Common) (o : StepOp) : Statement (.step c o) :=
  of_raw rfl fun _ => (raw_rg 0xFD c o.toRG rfl).trans (by
    show (StepOp.ofRG _).map _ = _; rw [StepOp.ofRG_toRG]; rfl)
theorem tmark (c : Common) (o : TmarkOp) : Statement (.tmark c o) :=
  of_raw rfl fun _ => (raw_s 0xFE c ⟨mk12 o.cls.toNat, o.imm⟩ rfl).trans (by
    show decodeS 0xFE c _ = _
    have h := o.cls.isLt
    have h1 : (mk12 o.cls.toNat).val = o.cls.toNat := by simp only [mk12]; omega
    simp [decodeS, h1])
theorem ill (imm : BitVec 32) : Statement (.ill imm) := by
  intro _ r hr hne
  cases hr
  exact absurd rfl hne
theorem clauseIssue (o : ClauseIssueOp) : Statement (.clauseIssue o) := of_none rfl
theorem flaggedCompletion (o : PerformOp) : Statement (.flaggedCompletion o) := of_none rfl
theorem lateFaultTaken (o : ThRef) : Statement (.lateFaultTaken o) := of_none rfl
theorem holdSlotGrant (core : Fin 96) : Statement (.holdSlotGrant core) := of_none rfl
theorem yieldPauseEnd (o : ThRef) : Statement (.yieldPauseEnd o) := of_none rfl
theorem waitingInstructionComplete (o : PendRef) : Statement (.waitingInstructionComplete o) := of_none rfl
theorem orderPointWrite (o : PerformOp) : Statement (.orderPointWrite o) := of_none rfl
theorem pageWalkComplete (o : WalkOp) : Statement (.pageWalkComplete o) := of_none rfl
theorem lineCheckout (o : LineOp) : Statement (.lineCheckout o) := of_none rfl
theorem lineRecall (o : LineOp) : Statement (.lineRecall o) := of_none rfl
theorem atomicAtOrderPoint (o : PerformOp) : Statement (.atomicAtOrderPoint o) := of_none rfl
theorem xaddAtSlice (o : PendRef) : Statement (.xaddAtSlice o) := of_none rfl
theorem glazeRun (o : PendRef) : Statement (.glazeRun o) := of_none rfl
theorem barrierEngineEvent (o : WorkRef) : Statement (.barrierEngineEvent o) := of_none rfl
theorem watchdogExpiry (id : Nat) : Statement (.watchdogExpiry id) := of_none rfl
theorem queueRecordPost (o : TeamQueue) : Statement (.queueRecordPost o) := of_none rfl
theorem cplCopyFinish (o : WorkRef) : Statement (.cplCopyFinish o) := of_none rfl
theorem chunk (o : ChunkOp) : Statement (.chunk o) := of_none rfl
theorem enginePageRetry (o : WorkRef) : Statement (.enginePageRetry o) := of_none rfl
theorem sortStart (o : WorkRef) : Statement (.sortStart o) := of_none rfl
theorem sortPass (o : WorkRef) : Statement (.sortPass o) := of_none rfl
theorem sortComplete (o : WorkRef) : Statement (.sortComplete o) := of_none rfl
theorem matrixOpStart (team : Nat) : Statement (.matrixOpStart team) := of_none rfl
theorem matrixPass (team : Nat) : Statement (.matrixPass team) := of_none rfl
theorem matrixCommandComplete (team : Nat) : Statement (.matrixCommandComplete team) := of_none rfl
theorem arrayIdleGate (o : ArrayRef) : Statement (.arrayIdleGate o) := of_none rfl
theorem arrayWakeComplete (o : ArrayRef) : Statement (.arrayWakeComplete o) := of_none rfl
theorem rasterRecord (team : Nat) : Statement (.rasterRecord team) := of_none rfl
theorem fragmentLaunch (o : ThRef) : Statement (.fragmentLaunch o) := of_none rfl
theorem rastComplete (team : Nat) : Statement (.rastComplete team) := of_none rfl
theorem setterInsert (o : PendRef) : Statement (.setterInsert o) := of_none rfl
theorem splatStart (team : Nat) : Statement (.splatStart team) := of_none rfl
theorem splatPixelOutput (team : Nat) : Statement (.splatPixelOutput team) := of_none rfl
theorem splatComplete (team : Nat) : Statement (.splatComplete team) := of_none rfl
theorem spanPlace (o : PlaceOp) : Statement (.spanPlace o) := of_none rfl
theorem launcherPreempt (span : Nat) : Statement (.launcherPreempt span) := of_none rfl
theorem teamEnd (team : Nat) : Statement (.teamEnd team) := of_none rfl
theorem launchQueueTake (o : LqRef) : Statement (.launchQueueTake o) := of_none rfl
theorem binTimerExpiry (o : NodeRef) : Statement (.binTimerExpiry o) := of_none rfl
theorem persistDelivery (o : NodeRef) : Statement (.persistDelivery o) := of_none rfl
theorem trapDispatch (o : ThRef) : Statement (.trapDispatch o) := of_none rfl
theorem contextTerminate (asid : Fin 512) : Statement (.contextTerminate asid) := of_none rfl
theorem terminationComplete (asid : Fin 512) : Statement (.terminationComplete asid) := of_none rfl
theorem spanSave (span : Nat) : Statement (.spanSave span) := of_none rfl
theorem saveComplete (span : Nat) : Statement (.saveComplete span) := of_none rfl
theorem spanRestore (o : PlaceOp) : Statement (.spanRestore o) := of_none rfl
theorem eccUncorrectable (o : EccTarget) : Statement (.eccUncorrectable o) := of_none rfl
theorem eccCorrected (o : EccTarget) : Statement (.eccCorrected o) := of_none rfl
theorem haltLand (o : ThRef) : Statement (.haltLand o) := of_none rfl
theorem traceRecordWrite (core : Fin 96) : Statement (.traceRecordWrite core) := of_none rfl
theorem hostReadRequest (o : HostReadOp) : Statement (.hostReadRequest o) := of_none rfl
theorem hostMemoryWrite (o : HostWriteOp) : Statement (.hostMemoryWrite o) := of_none rfl
theorem hostCounterAdd (o : HostWriteOp) : Statement (.hostCounterAdd o) := of_none rfl
theorem hostCounterRead (o : HostReadOp) : Statement (.hostCounterRead o) := of_none rfl
theorem registerWrite (o : RegWriteOp) : Statement (.registerWrite o) := of_none rfl
theorem herrWrite (v : BitVec 32) : Statement (.herrWrite v) := of_none rfl
theorem cecountWrite (v : BitVec 32) : Statement (.cecountWrite v) := of_none rfl
theorem hcmdstatWrite (v : BitVec 64) : Statement (.hcmdstatWrite v) := of_none rfl
theorem hcmdBusyDrop (v : BitVec 64) : Statement (.hcmdBusyDrop v) := of_none rfl
theorem register (o : HcmdOp) : Statement (.register o) := of_none rfl
theorem terminate (o : HcmdOp) : Statement (.terminate o) := of_none rfl
theorem preempt (o : HcmdOp) : Statement (.preempt o) := of_none rfl
theorem debugon (o : HcmdOp) : Statement (.debugon o) := of_none rfl
theorem debugoff (o : HcmdOp) : Statement (.debugoff o) := of_none rfl
theorem retire (o : HcmdOp) : Statement (.retire o) := of_none rfl
theorem attest (o : HcmdOp) : Statement (.attest o) := of_none rfl
theorem setctr (o : HcmdOp) : Statement (.setctr o) := of_none rfl
theorem invtlb (o : HcmdOp) : Statement (.invtlb o) := of_none rfl
theorem hcmdUnknown (op : Fin 16) (o : HcmdOp) : Statement (.hcmdUnknown op o) := of_none rfl
theorem hostCommandComplete : Statement .hostCommandComplete := of_none rfl
theorem watchWrite (o : WatchOp) : Statement (.watchWrite o) := of_none rfl
theorem plimWrite (v : BitVec 32) : Statement (.plimWrite v) := of_none rfl
theorem peerRequestIncoming (o : PeerOp) : Statement (.peerRequestIncoming o) := of_none rfl
theorem peerLinkDown (port : Fin 16) : Statement (.peerLinkDown port) := of_none rfl
theorem powerOn (o : StartOp) : Statement (.powerOn o) := of_none rfl
theorem powerLoss : Statement .powerLoss := of_none rfl
theorem startupStepFail (step : Fin 11) (o : StartOp) : Statement (.startupStepFail step o) := of_none rfl
theorem limiterStep (n : Fin 65) : Statement (.limiterStep n) := of_none rfl
theorem thermtrip : Statement .thermtrip := of_none rfl
theorem dolmirDynamicAddress (addr : BitVec 7) : Statement (.dolmirDynamicAddress addr) := of_none rfl
theorem dolmirPrivateWrite (o : DolmirWrite) : Statement (.dolmirPrivateWrite o) := of_none rfl
theorem dolmirPrivateRead (len : Nat) : Statement (.dolmirPrivateRead len) := of_none rfl
theorem startRecordWrite (o : DolmirWrite) : Statement (.startRecordWrite o) := of_none rfl
theorem mrst (v : BitVec 16) (o : StartOp) : Statement (.mrst v o) := of_none rfl
theorem thermtripClear (v : BitVec 32) : Statement (.thermtripClear v) := of_none rfl
theorem peerLinkUp (port : Fin 16) : Statement (.peerLinkUp port) := of_none rfl

end Sys2Proof.Laws.DecodesBack
end

