-- ==== Sys2Proof/Laws/Update.lean ====
section
/-! SUPPORT. Crews and threads by name under an update, what the trace unit, a WAKER write and a quiet cone leave, and
the frame of an update of one thread. -/

namespace Sys2Proof.Machine
open Sys2Proof

/-! ### Crews by name -/

theorem find_map_crew (n : Nat) (g : Crew → Crew) (hg : ∀ t : Crew, (g t).num = t.num) (l : List Crew) :
    (l.map g).find? (fun t => t.num == n) = (l.find? fun t => t.num == n).map g := by
  induction l with
  | nil => rfl
  | cons a l ih =>
    simp only [List.map_cons, List.find?_cons, hg]
    cases a.num == n <;> simp [ih]

theorem Team.crew?_num {tm : Team} {n : Nat} {c : Crew} (h : tm.crew? n = some c) : c.num = n := by
  have := List.find?_some h
  simpa using this

theorem Team.crew?_modCrew (tm : Team) (a b : Nat) (f : Crew → Crew) (hf : ∀ c : Crew, (f c).num = c.num) :
    (tm.modCrew a f).crew? b = (tm.crew? b).map fun c => if c.num = a then f c else c :=
  find_map_crew b _ (fun t => by split <;> simp [hf]) tm.crews

theorem State.team?_modCrew (s : State) (a b n : Nat) (f : Crew → Crew) :
    (s.modCrew a n f).team? b = (s.team? b).map fun t => if t.id = a then t.modCrew n f else t :=
  s.team?_modTeam a b _ fun _ => rfl

@[simp] theorem State.thr?_modCrew (s : State) (a n : Nat) (f : Crew → Crew) (b j : Nat) :
    (s.modCrew a n f).thr? b j = s.thr? b j := by
  unfold State.thr?
  rw [State.team?_modCrew]
  cases h : s.team? b with
  | none => rfl
  | some tm => simp; split <;> rfl

@[simp] theorem State.modThr_ctx? (s : State) (a i id : Nat) (f : Thread → Thread) :
    (s.modThr a i f).ctx? id = s.ctx? id := rfl
@[simp] theorem State.started_ctx? (s : State) (a : Nat) : s.started.ctx? a = s.ctx? a := rfl

/-- A team whose thread is updated. -/
theorem State.team?_modThr_same {s : State} {id : Nat} {tm : Team} (h : s.team? id = some tm) (i : Nat)
    (f : Thread → Thread) : (s.modThr id i f).team? id = some (tm.modThr i f) := by
  rw [State.team?_modThr, h]
  simp [State.team?_id h]

/-- What an update of a thread keeps of every thread. -/
theorem thr?_map_modThr {γ : Type} (g : Thread → γ) (s : State) (a i : Nat) (f : Thread → Thread)
    (hf : ∀ t, g (f t) = g t) (b j : Nat) : ((s.modThr a i f).thr? b j).map g = (s.thr? b j).map g := by
  by_cases h : a = b ∧ i = j
  · obtain ⟨rfl, rfl⟩ := h
    rw [State.thr?_modThr_same, Option.map_map]
    exact congrArg (fun k => Option.map k (s.thr? a i)) (funext hf)
  · rw [State.thr?_modThr_other]
    by_cases h1 : a = b
    · exact .inr fun e => h ⟨h1, e⟩
    · exact .inl h1

/-! ### The trace unit and WAKER -/

@[simp] theorem State.trace_thr? (s : State) (a b c d : Nat) (e : List Byte) (id j : Nat) :
    (s.trace a b c d e).thr? id j = s.thr? id j := rfl
@[simp] theorem State.trace_team? (s : State) (a b c d : Nat) (e : List Byte) (id : Nat) :
    (s.trace a b c d e).team? id = s.team? id := rfl
@[simp] theorem State.trace_mem (s : State) (a b c d : Nat) (e : List Byte) : (s.trace a b c d e).mem = s.mem := rfl
@[simp] theorem State.trace_holds (s : State) (a b c d : Nat) (e : List Byte) : (s.trace a b c d e).holds = s.holds := rfl

/-! ### Lines that return to their homes -/

@[simp] theorem Thread.loseMon_butMon (f : Nat → Bool) (t : Thread) : (t.loseMon f).butMon = t.butMon := by
  unfold Thread.loseMon
  split
  · split
    · simp [Thread.butMon, *]
    · rfl
  · rfl

/-- `s'` is `s` but for the caches, the trace units and the monitors of lines that return to their homes. -/
structure State.Near (s' s : State) : Prop where
  threads : ∀ b i, (s'.thr? b i).map Thread.butMon = (s.thr? b i).map Thread.butMon
  monitors : s.checkouts = [] → s'.checkouts = [] ∧ ∀ b i, s'.thr? b i = s.thr? b i
  teams : ∀ b, (s'.team? b).map (fun tm => { tm with threads := [] }) = (s.team? b).map fun tm => { tm with threads := [] }
  cones : s.quiet → s'.quiet
  mem : s'.mem = s.mem
  tags : s'.tags = s.tags
  full : s'.full = s.full
  bad : s'.bad = s.bad
  ctxs : s'.ctxs = s.ctxs
  glazes : s'.glazes = s.glazes
  host : s'.host = s.host
  nextId : s'.nextId = s.nextId
  mgmt : s'.mgmt = s.mgmt

theorem State.Near.refl (s : State) : s.Near s :=
  ⟨fun _ _ => rfl, fun h => ⟨h, fun _ _ => rfl⟩, fun _ => rfl, id, rfl, rfl, rfl, rfl, rfl, rfl, rfl, rfl, rfl⟩

theorem State.Near.trans {a b c : State} (h1 : a.Near b) (h2 : b.Near c) : a.Near c :=
  ⟨fun x y => (h1.threads x y).trans (h2.threads x y),
    fun h => ⟨(h1.monitors (h2.monitors h).1).1,
      fun x y => ((h1.monitors (h2.monitors h).1).2 x y).trans ((h2.monitors h).2 x y)⟩,
    fun x => (h1.teams x).trans (h2.teams x), fun h => h1.cones (h2.cones h), h1.mem.trans h2.mem, h1.tags.trans h2.tags,
    h1.full.trans h2.full, h1.bad.trans h2.bad, h1.ctxs.trans h2.ctxs, h1.glazes.trans h2.glazes, h1.host.trans h2.host,
    h1.nextId.trans h2.nextId, h1.mgmt.trans h2.mgmt⟩

theorem State.Near.foldl {β : Type} {f : State → β → State} (h : ∀ s b, (f s b).Near s) (l : List β) (s : State) :
    (l.foldl f s).Near s := by
  induction l generalizing s with
  | nil => exact .refl s
  | cons b l ih => exact (ih _).trans (h s b)

theorem State.team?_loseMons (s : State) (f : Team → Nat → Bool) (b : Nat) : (s.loseMons f).team? b =
    (s.team? b).map fun tm => { tm with threads := tm.threads.map (Thread.loseMon (f tm)) } :=
  find_map_same b (fun tm => { tm with threads := tm.threads.map (Thread.loseMon (f tm)) }) (fun _ => rfl) s.teams
theorem State.thr?_loseMons (s : State) (f : Team → Nat → Bool) (b i : Nat) :
    ((s.loseMons f).thr? b i).map Thread.butMon = (s.thr? b i).map Thread.butMon := by
  unfold State.thr?
  rw [s.team?_loseMons]
  cases h : s.team? b with
  | none => rfl
  | some tm => simp [Function.comp_def]

/-- Lines that return to their homes leave all but the checkouts and the monitors on them (R175, R177). -/
theorem State.returnLines_near (s : State) (f : Checkout → Bool) : (s.returnLines f).Near s where
  threads := fun b i => by unfold State.returnLines; rw [State.thr?_loseMons]; rfl
  monitors := fun h => by
    have hl : (Thread.loseMon fun _ => false) = id := funext fun t => by
      unfold Thread.loseMon; split <;> simp
    refine ⟨by simp [State.returnLines, State.loseMons, h], fun b i => ?_⟩
    unfold State.returnLines State.thr?
    rw [State.team?_loseMons]
    show Option.bind (Option.map _ (s.team? b)) _ = _
    cases s.team? b with
    | none => rfl
    | some tm => simp [h, hl]
  teams := fun b => by
    unfold State.returnLines
    rw [State.team?_loseMons]
    show Option.map _ (Option.map _ (s.team? b)) = _
    cases s.team? b <;> rfl
  cones := fun h tm htm c hc => by
    obtain ⟨tm', h', rfl⟩ := List.mem_map.1 htm
    exact h tm' h' c hc
  mem := rfl
  tags := rfl
  full := rfl
  bad := rfl
  ctxs := rfl
  glazes := rfl
  host := rfl
  nextId := rfl
  mgmt := rfl

theorem State.homeLine_near (s : State) (a b c : Nat) : (s.homeLine a b c).Near s := by
  unfold State.homeLine
  split
  · exact .refl s
  · exact ⟨fun _ _ => rfl, fun h => ⟨h, fun _ _ => rfl⟩, fun _ => rfl, id, rfl, rfl, rfl, rfl, rfl, rfl, rfl, rfl, rfl⟩
theorem State.homeBytes_near (s : State) (a b c n : Nat) : (s.homeBytes a b c n).Near s := by
  unfold State.homeBytes
  split
  · exact .refl s
  · exact .foldl (fun s l => s.homeLine_near ..) _ s
theorem State.walkTouch_near (s : State) (c : Context) (va : Nat) : (s.walkTouch c va).Near s :=
  .foldl (fun s _ => (State.homeBytes_near ..).trans (s.returnLines_near _)) _ s
theorem State.noteHome_near (s : State) (a b c : Nat) : (s.noteHome a b c).Near s := by
  unfold State.noteHome
  split
  · exact .refl s
  · split
    · exact .refl s
    · split
      · exact (State.homeBytes_near ..).trans (s.returnLines_near _)
      · dsimp only
        split
        · exact (State.homeLine_near ..).trans (s.walkTouch_near ..)
        · exact s.walkTouch_near ..
theorem State.setCores_near (s : State) (l : List Core) : ({ s with cores := l } : State).Near s :=
  ⟨fun _ _ => rfl, fun h => ⟨h, fun _ _ => rfl⟩, fun _ => rfl, id, rfl, rfl, rfl, rfl, rfl, rfl, rfl, rfl, rfl⟩
/-- A request that passes the sampler changes the trace units, and what L2 keeps and has given out. -/
theorem State.sampleMem_near (s : State) (a b c d : Nat) : (s.sampleMem a b c d).Near s := by
  unfold State.sampleMem
  dsimp only
  split
  · exact s.noteHome_near ..
  · split
    · exact ((State.setCores_near ..).trans (State.setCores_near ..)).trans (s.noteHome_near ..)
    · exact (State.setCores_near ..).trans (s.noteHome_near ..)

theorem wake_keeps {γ : Type} (g : Thread → γ)
    (hg : ∀ (t : Thread) (w : Word), g { t with sys := { t.sys with waker := w } } = g t) (s : State) (a i c b j : Nat) :
    ((s.wake a i c).thr? b j).map g = (s.thr? b j).map g := by
  exact thr?_map_modThr g s a i _ (fun t => hg t _) b j
theorem setWaker_keeps {γ : Type} (g : Thread → γ)
    (hg : ∀ (t : Thread) (w : Word), g { t with sys := { t.sys with waker := w } } = g t) (s : State) (a i c : Nat) (n : Bool)
    (b j : Nat) : ((s.setWaker a i c n).thr? b j).map g = (s.thr? b j).map g :=
  thr?_map_modThr g s a i _ (fun t => hg t _) b j
theorem orderK_keeps {γ : Type} (g : Thread → γ) (hg : ∀ (t : Thread) l, g { t with kSeen := l } = g t) (s : State)
    (a i : Nat) (ks : List (Nat × Nat)) (b j : Nat) : ((s.orderK a i ks).thr? b j).map g = (s.thr? b j).map g :=
  thr?_map_modThr g s a i _ (fun t => hg t _) b j
@[simp] theorem State.wake_holds (s : State) (a i c : Nat) : (s.wake a i c).holds = s.holds := rfl
@[simp] theorem State.wake_mem (s : State) (a i c : Nat) : (s.wake a i c).mem = s.mem := rfl

/-! ### Results and halts that are not there -/

theorem accessesDone_nil {t : Thread} (h : t.pend = []) (hw : t.waits = []) (n : Nat) : t.accessesDone n = true := by
  simp [Thread.accessesDone, h, hw]
theorem State.commitEnd_nil {s : State} {id i : Nat} {t : Thread} (h : s.thr? id i = some t) (hw : t.wb = []) :
    s.commitEnd id i = s := by
  simp [State.commitEnd, h, hw]
theorem State.landHalt_none {s : State} {id i : Nat} {t : Thread} (h : s.thr? id i = some t) (hr : t.dbg.req = none)
    (b : Bool) : s.landHalt id i b = s := by
  unfold State.landHalt
  cases ht : s.team? id <;> simp [h, hr]

/-! ### Cones that are not armed -/

theorem any_armed_false {l : List Cone} (h : ∀ c ∈ l, c.armed = false) : l.any Cone.armed = false := by
  simpa using h

/-- Where no cone is armed, an event is shown to none. -/
theorem State.observe_quiet {s : State} (h : s.quiet) (id i : Nat) (n : ConeNote) : s.observe id i n = s := by
  unfold State.observe
  split
  · rfl
  · split
    · rfl
    · split
      · rfl
      · rw [show (s.teams.filter fun o => _) = [] from List.filter_eq_nil_iff.2 fun o ho => by
          simp [any_armed_false (h o ho)]]
        rfl

theorem State.observeIssue_quiet {s : State} (h : s.quiet) (x : Issue) (j : Nat) (t : Thread) (e : Option ConeEv) :
    s.observeIssue x j t e = s := by
  cases e with
  | none => rfl
  | some e => exact State.observe_quiet h ..

/-! ### The frame of an update of one thread -/

theorem State.Near.sameBut {a b : State} (h : a.Near b) (id j : Nat) : a.SameBut b id j :=
  ⟨fun x y _ => h.threads x y, fun k => ⟨(h.monitors k).1, fun x y _ => (h.monitors k).2 x y⟩, h.teams, h.mem, h.tags, h.full,
    h.bad, h.ctxs, h.glazes, h.host⟩
theorem State.SameBut.refl (s : State) (id j : Nat) : s.SameBut s id j := (State.Near.refl s).sameBut id j

theorem State.SameBut.trans {a b c : State} {id j : Nat} (h1 : a.SameBut b id j) (h2 : b.SameBut c id j) :
    a.SameBut c id j :=
  ⟨fun x y h => (h1.threads x y h).trans (h2.threads x y h),
    fun h => ⟨(h1.monitors (h2.monitors h).1).1,
      fun x y k => ((h1.monitors (h2.monitors h).1).2 x y k).trans ((h2.monitors h).2 x y k)⟩,
    fun x => (h1.teams x).trans (h2.teams x),
    h1.mem.trans h2.mem, h1.tags.trans h2.tags, h1.full.trans h2.full, h1.bad.trans h2.bad, h1.ctxs.trans h2.ctxs,
    h1.glazes.trans h2.glazes, h1.host.trans h2.host⟩

theorem State.modThr_other (s : State) (id j : Nat) (f : Thread → Thread) (b i : Nat) (h : b ≠ id ∨ i ≠ j) :
    (s.modThr id j f).thr? b i = s.thr? b i :=
  s.thr?_modThr_other id j b i f (h.imp Ne.symm Ne.symm)
theorem State.modThr_sameBut (s : State) (id j : Nat) (f : Thread → Thread) : (s.modThr id j f).SameBut s id j where
  threads := fun b i h => by rw [s.modThr_other id j f b i h]
  monitors := fun h => ⟨h, s.modThr_other id j f⟩
  teams := fun b => by
    rw [State.team?_modThr]
    cases s.team? b with
    | none => rfl
    | some tm => simp only [Option.map_some]; congr 1; split <;> rfl
  mem := rfl
  tags := rfl
  full := rfl
  bad := rfl
  ctxs := rfl
  glazes := rfl
  host := rfl

theorem State.started_sameBut (s : State) (id j : Nat) : s.started.SameBut s id j :=
  ⟨fun _ _ _ => rfl, fun h => ⟨h, fun _ _ _ => rfl⟩, fun _ => rfl, rfl, rfl, rfl, rfl, rfl, rfl, rfl⟩

/-- A thread of a state near another is what it was there. -/
theorem State.Near.holds {a b : State} (h : a.Near b) {id j : Nat} {t : Thread} (ht : b.thr? id j = some t) : a.Holds b id j t := by
  have := h.threads id j
  rw [ht] at this
  obtain ⟨v, hv, hb⟩ := Option.map_eq_some_iff.1 this
  exact ⟨v, hv, hb, fun k => by rw [(h.monitors k).2, ht] at hv; exact (Option.some.inj hv).symm⟩

/-- An update of one thread, with the parts of the state outside the frame. -/
theorem Gives.of_modThr {i : Instr} {s s1 : State} {id j : Nat} {t : Thread} {f : Thread → Thread}
    (he : exec i s = .next (s1.modThr id j f)) (ht : s1.thr? id j = some t) (hs : s1.SameBut s id j) :
    Gives i s id j (f t) :=
  ⟨_, he, ⟨_, by rw [State.thr?_modThr_same, ht]; rfl, rfl, fun _ => rfl⟩, (s1.modThr_sameBut id j f).trans hs⟩

/-- An operation goes in flight. -/
theorem State.pushOp_thr? {s : State} {x : Issue} {j : Nat} {t : Thread} (h : s.thr? x.team j = some t) (i : Instr)
    (vals : List Nat) (f : Op → Op) : (s.pushOp x j i vals f).thr? x.team j = some
      { t.incF (setfOf (commonOf i)) with pend := t.pend ++ [f (mkOp x t i s.nextId vals)] } := by
  unfold State.pushOp
  rw [State.thr?_modThr_same]
  rw [show ({ s with nextId := s.nextId + 1 } : State).thr? x.team j = some t from h]
  rfl

theorem State.pushOp_sameBut (s : State) (x : Issue) (j : Nat) (i : Instr) (vals : List Nat) (f : Op → Op) :
    (s.pushOp x j i vals f).SameBut s x.team j :=
  (State.modThr_sameBut _ _ _ _).trans ⟨fun _ _ _ => rfl, fun h => ⟨h, fun _ _ _ => rfl⟩, fun _ => rfl, rfl, rfl, rfl, rfl, rfl, rfl,
    rfl⟩

/-- The thread waits at the word in hand. -/
theorem State.pushWait_thr? {s : State} {x : Issue} {j : Nat} {t : Thread} (h : s.thr? x.team j = some t) (i : Instr)
    (vals : List Nat) (f : Op → Op) : (s.pushWait x j i vals f).thr? x.team j = some
      { t with waits := t.waits ++ [f (mkOp x t i s.nextId vals)] } := by
  unfold State.pushWait
  rw [State.thr?_modThr_same]
  rw [show ({ s with nextId := s.nextId + 1 } : State).thr? x.team j = some t from h]
  rfl

theorem State.pushWait_sameBut (s : State) (x : Issue) (j : Nat) (i : Instr) (vals : List Nat) (f : Op → Op) :
    (s.pushWait x j i vals f).SameBut s x.team j :=
  (State.modThr_sameBut _ _ _ _).trans ⟨fun _ _ _ => rfl, fun h => ⟨h, fun _ _ _ => rfl⟩, fun _ => rfl, rfl, rfl, rfl, rfl, rfl, rfl,
    rfl⟩

/-! ### Accesses -/

/-- The route of a peer request does not depend on what L2 keeps and has given out. -/
theorem State.Near.route {a b : State} (h : a.Near b) (asid key : Nat) : a.route asid key = b.route asid key := by
  have e : a.peerEntry = b.peerEntry := funext fun c => funext fun k => by
    unfold State.peerEntry State.poisoned State.read State.bytes
    rw [h.bad, h.mem]
  unfold State.route State.ctx?
  rw [e, h.ctxs, h.mgmt]

/-- An access whose check ends well goes in flight. -/
theorem State.access_go {s : State} {x : Issue} {t : Thread} {tm : Team} {j key : Nat} {rt : Option Route} {a : Acc}
    (hq : s.quiet) (htm : s.team? x.team = some tm) (ht : s.thr? x.team j = some t) (hk : a.r.routed s tm key rt) (i : Instr)
    (vals : List Nat) (onViol : State → State) (evs : List ConeEv) :
    (s.access x t j i a vals onViol evs).Holds s x.team j
      (t.withOp s x i vals fun o => { o with key := key, len := a.len, route := rt }) ∧
    (s.access x t j i a vals onViol evs).SameBut s x.team j := by
  obtain ⟨s1, h1, hn⟩ : ∃ s1 : State, (if isMem a.sp then s.sampleMem tm.core tm.asid t.who a.ea else s) = s1 ∧ s1.Near s := by
    split
    · exact ⟨_, rfl, s.sampleMem_near ..⟩
    · exact ⟨s, rfl, .refl s⟩
  have hev : evs.foldl (fun s e => s.observeIssue x j t (some e)) s1 = s1 := by
    induction evs with
    | nil => rfl
    | cons e es ih => rw [List.foldl_cons, State.observeIssue_quiet (hn.cones hq), ih]
  have key1 : s.access x t j i a vals onViol evs =
      s1.pushOp x j i vals fun o => { o with key := key, len := a.len, route := rt } := by
    unfold State.access
    simp only [htm, h1, hev]
    rcases hk with ⟨hk, rfl⟩ | ⟨k, ad, hk, rfl, rfl⟩
    · rw [hk]; rfl
    · rw [hk]; simp only [hn.route]; rfl
  rw [key1]
  refine ⟨?_, (State.pushOp_sameBut ..).trans (hn.sameBut ..)⟩
  obtain ⟨v, hv, hb, he⟩ := hn.holds ht
  refine ⟨_, State.pushOp_thr? hv .., ?_, fun h => ?_⟩
  · rw [hn.nextId]
    have hv : v = { t with mon := v.mon } := by
      cases v; cases t
      simp_all [Thread.butMon]
    have hm : v.mon.map (fun m => { m with event := none }) = t.mon.map fun m => { m with event := none } :=
      congrArg Thread.mon hb
    rw [hv]
    generalize v.mon = m at hm
    unfold Thread.butMon Thread.withOp Thread.incF
    split <;> simp [hm, mkOp]
  · rw [he h, hn.nextId]; rfl

end Sys2Proof.Machine
end

