-- ==== Sys2Proof/Laws/Rejoin.lean ====
section
/-! SUPPORT. Rejoin registers under an update, and what completing a rejoin leaves of the threads (R66, R67). -/

namespace Sys2Proof.Machine
open Sys2Proof

@[simp] theorem Crew.modRejoin_num (c : Crew) (str j : Nat) (f : Rejoin → Rejoin) : (c.modRejoin str j f).num = c.num := rfl

theorem Crew.rejoin_modRejoin (c : Crew) (str j : Nat) (f : Rejoin → Rejoin) (h1 : str < c.strands.length)
    (h2 : j < (c.strands.getD str []).length) : (c.modRejoin str j f).rejoin str j = f (c.rejoin str j) := by
  have h3 : c.strands.getD str [] = c.strands[str] := by simp [h1]
  rw [h3] at h2
  simp [Crew.rejoin, Crew.modRejoin, h1, h2]

theorem State.testJoin_of {s : State} {id crew str j : Nat} {tm : Team} {cr : Crew} (h : s.team? id = some tm)
    (hc : tm.crew? crew = some cr) (hn : (cr.rejoin str j).complete = false) (b : Bool) :
    s.testJoin id crew str j b = s := by
  unfold State.testJoin
  simp [h, hc, hn]

theorem State.modJ_of {s : State} {id crew str j : Nat} {tm : Team} {cr : Crew} {f : Rejoin → Rejoin}
    (h : s.team? id = some tm) (hc : tm.crew? crew = some cr) (h1 : str < cr.strands.length)
    (h2 : j < (cr.strands.getD str []).length) (hn : (f (cr.rejoin str j)).complete = false) (b : Bool) :
    s.modJ id crew str j f b = s.modCrew id crew fun c => c.modRejoin str j f := by
  unfold State.modJ
  have hid := State.team?_id h
  have hcn := Team.crew?_num hc
  refine State.testJoin_of (tm := tm.modCrew crew fun c => c.modRejoin str j f) (cr := cr.modRejoin str j f) ?_ ?_ ?_ b
  · rw [State.team?_modCrew, h]; simp [hid]
  · rw [Team.crew?_modCrew tm crew crew (fun c => c.modRejoin str j f) (fun _ => rfl), hc]; simp [hcn]
  · rw [Crew.rejoin_modRejoin _ _ _ _ h1 h2, hn]

theorem State.modJ_crew {s : State} {id crew str j : Nat} {tm : Team} {cr : Crew} {f : Rejoin → Rejoin}
    (h : s.team? id = some tm) (hc : tm.crew? crew = some cr) (h1 : str < cr.strands.length)
    (h2 : j < (cr.strands.getD str []).length) (hn : (f (cr.rejoin str j)).complete = false) (b : Bool) :
    ∃ tm' cr', (s.modJ id crew str j f b).team? id = some tm' ∧ tm'.crew? crew = some cr' ∧
      cr'.rejoin str j = f (cr.rejoin str j) ∧ tm'.threads = tm.threads := by
  have hid := State.team?_id h
  have hcn := Team.crew?_num hc
  rw [State.modJ_of h hc h1 h2 hn b]
  refine ⟨tm.modCrew crew fun c => c.modRejoin str j f, cr.modRejoin str j f, ?_, ?_, ?_, rfl⟩
  · rw [State.team?_modCrew, h]; simp [hid]
  · rw [Team.crew?_modCrew tm crew crew (fun c => c.modRejoin str j f) (fun _ => rfl), hc]; simp [hcn]
  · rw [Crew.rejoin_modRejoin _ _ _ _ h1 h2]

theorem testJoin_keeps {γ : Type} (g : Thread → γ)
    (hg : ∀ (t : Thread) (w : Word), g { t with sys := { t.sys with waker := w } } = g t)
    (hs : ∀ (t : Thread), g { t with status := .grouped } = g t) (hk : ∀ (t : Thread) n, g { t with kSeen := n } = g t) (s : State)
    (id crew str k b j : Nat) (n : Bool) : ((s.testJoin id crew str k n).thr? b j).map g = (s.thr? b j).map g := by
  unfold State.testJoin
  split
  · rfl
  · split
    · rfl
    · split
      · rfl
      · simp only [State.trace_thr?]
        rw [foldl_keeps (fun s : State => (s.thr? b j).map g) _
          (fun (s : State) (i : Nat) => by rw [setWaker_keeps g hg, orderK_keeps g hk, thr?_map_modThr g _ _ _ _ hs])]
        show ((State.modCrew _ _ _ _).thr? b j).map g = _
        rw [State.thr?_modCrew]
        rfl

theorem modJ_keeps {γ : Type} (g : Thread → γ)
    (hg : ∀ (t : Thread) (w : Word), g { t with sys := { t.sys with waker := w } } = g t)
    (hs : ∀ (t : Thread), g { t with status := .grouped } = g t) (hk : ∀ (t : Thread) n, g { t with kSeen := n } = g t) (s : State)
    (id crew str k b j : Nat) (f : Rejoin → Rejoin) (n : Bool) : ((s.modJ id crew str k f n).thr? b j).map g = (s.thr? b j).map g := by
  unfold State.modJ
  rw [testJoin_keeps g hg hs hk, State.thr?_modCrew]

theorem leaveMasks_keeps {γ : Type} (g : Thread → γ)
    (hg : ∀ (t : Thread) (w : Word), g { t with sys := { t.sys with waker := w } } = g t)
    (hs : ∀ (t : Thread), g { t with status := .grouped } = g t) (hk : ∀ (t : Thread) n, g { t with kSeen := n } = g t) (s : State)
    (id i b j : Nat) : ((s.leaveMasks id i).thr? b j).map g = (s.thr? b j).map g := by
  unfold State.leaveMasks
  split
  · rfl
  · exact foldl_keeps (fun s : State => (s.thr? b j).map g) _ (fun (s : State) (k : Nat) => modJ_keeps g hg hs hk ..) _ _

end Sys2Proof.Machine
end

