-- ==== Sys2Proof/Laws/Tab.lean ====
section
/-! SUPPORT. Sparse tables: read after write, and the canonical form (memory, tags, full-empty bits, poison). -/

namespace Sys2Proof.Machine
open Sys2Proof

variable {α : Type}

theorem tabGet_below {d : α} {t : List (Nat × α)} {a : Nat} (h : ∀ e ∈ t, a < e.1) : tabGet d t a = d := by
  induction t with
  | nil => rfl
  | cons e t ih =>
    obtain ⟨k, v⟩ := e
    have : a < k := h (k, v) (by simp)
    simp only [tabGet, if_neg (Nat.ne_of_lt this)]
    exact ih fun e he => h e (by simp [he])

variable [DecidableEq α]

theorem tabOk_cons {d : α} {k : Nat} {v : α} {t : List (Nat × α)} :
    tabOk d ((k, v) :: t) = true ↔ v ≠ d ∧ (∀ e ∈ t, k < e.1) ∧ tabOk d t = true := by
  simp [tabOk, and_assoc]

/-- A read after a write to the same key gives the value written. -/
theorem tabGet_tabPut_same {d : α} {t : List (Nat × α)} (h : tabOk d t = true) (a : Nat) (x : α) :
    tabGet d (tabPut d t a x) a = x := by
  induction t with
  | nil => by_cases hx : x = d <;> simp [tabPut, tabGet, hx]
  | cons e t ih =>
    obtain ⟨k, v⟩ := e
    obtain ⟨_, hk, ht⟩ := tabOk_cons.1 h
    unfold tabPut
    by_cases h1 : a < k
    · rw [if_pos h1]
      by_cases hx : x = d
      · rw [if_pos hx, hx]
        exact tabGet_below fun e he => by
          rcases List.mem_cons.1 he with rfl | he
          · exact h1
          · exact Nat.lt_trans h1 (hk e he)
      · simp [hx, tabGet]
    · rw [if_neg h1]
      by_cases h2 : a = k
      · rw [if_pos h2]
        by_cases hx : x = d
        · rw [if_pos hx, hx, h2]; exact tabGet_below hk
        · simp [hx, tabGet]
      · simp only [if_neg h2, tabGet]
        exact ih ht

/-- A write leaves every other key alone. -/
theorem tabGet_tabPut_other (d : α) (t : List (Nat × α)) (a b : Nat) (x : α) (hab : b ≠ a) :
    tabGet d (tabPut d t a x) b = tabGet d t b := by
  induction t with
  | nil => by_cases hx : x = d <;> simp [tabPut, tabGet, hx, hab]
  | cons e t ih =>
    obtain ⟨k, v⟩ := e
    unfold tabPut
    by_cases h1 : a < k
    · rw [if_pos h1]
      by_cases hx : x = d <;> simp [hx, tabGet, hab]
    · rw [if_neg h1]
      by_cases h2 : a = k
      · subst h2
        by_cases hx : x = d <;> simp [hx, tabGet, hab]
      · simp only [if_neg h2, tabGet, ih]

theorem tabPut_keys {d : α} {t : List (Nat × α)} {a : Nat} {x : α} {e : Nat × α} (h : e ∈ tabPut d t a x) :
    e.1 = a ∨ e ∈ t := by
  induction t with
  | nil =>
    by_cases hx : x = d <;> simp [tabPut, hx] at h
    exact .inl (by simp [h])
  | cons c t ih =>
    obtain ⟨k, v⟩ := c
    unfold tabPut at h
    split at h
    · split at h
      · exact .inr h
      · rcases List.mem_cons.1 h with rfl | h
        · exact .inl rfl
        · exact .inr h
    · split at h
      · split at h
        · exact .inr (List.mem_cons_of_mem _ h)
        · rcases List.mem_cons.1 h with rfl | h
          · exact .inl rfl
          · exact .inr (List.mem_cons_of_mem _ h)
      · rcases List.mem_cons.1 h with rfl | h
        · exact .inr (by simp)
        · rcases ih h with h | h
          · exact .inl h
          · exact .inr (List.mem_cons_of_mem _ h)

/-- A write keeps the canonical form. -/
theorem tabOk_tabPut {d : α} {t : List (Nat × α)} (h : tabOk d t = true) (a : Nat) (x : α) :
    tabOk d (tabPut d t a x) = true := by
  induction t with
  | nil => by_cases hx : x = d <;> simp [tabPut, tabOk, hx]
  | cons e t ih =>
    obtain ⟨k, v⟩ := e
    obtain ⟨hv, hk, ht⟩ := tabOk_cons.1 h
    unfold tabPut
    split
    · rename_i h1
      split
      · exact h
      · rename_i hx
        refine tabOk_cons.2 ⟨hx, fun e he => ?_, h⟩
        rcases List.mem_cons.1 he with rfl | he
        · exact h1
        · exact Nat.lt_trans h1 (hk e he)
    · rename_i h1
      split
      · rename_i h2
        subst h2
        split
        · exact ht
        · rename_i hx
          exact tabOk_cons.2 ⟨hx, hk, ht⟩
      · rename_i h2
        refine tabOk_cons.2 ⟨hv, fun e he => ?_, ih ht⟩
        rcases tabPut_keys he with he | he
        · omega
        · exact hk e he

theorem tabOk_filter {d : α} {t : List (Nat × α)} (h : tabOk d t = true) (p : Nat × α → Bool) :
    tabOk d (t.filter p) = true := by
  induction t with
  | nil => rfl
  | cons e t ih =>
    obtain ⟨k, v⟩ := e
    obtain ⟨hv, hk, ht⟩ := tabOk_cons.1 h
    rw [List.filter_cons]
    split
    · exact tabOk_cons.2 ⟨hv, fun e he => hk e (List.mem_filter.1 he).1, ih ht⟩
    · exact ih ht

theorem tabOk_tabPutN {d : α} (xs : List α) {t : List (Nat × α)} (h : tabOk d t = true) (a : Nat) :
    tabOk d (tabPutN d t a xs) = true := by
  induction xs generalizing t a with
  | nil => exact h
  | cons x xs ih => exact ih (tabOk_tabPut h a x) (a + 1)

/-- A write of a run of keys leaves every key outside it alone. -/
theorem tabGet_tabPutN_other (d : α) (xs : List α) (t : List (Nat × α)) (a b : Nat) (h : b < a ∨ a + xs.length ≤ b) :
    tabGet d (tabPutN d t a xs) b = tabGet d t b := by
  induction xs generalizing t a with
  | nil => rfl
  | cons x xs ih =>
    simp only [List.length_cons] at h
    show tabGet d (tabPutN d (tabPut d t a x) (a + 1) xs) b = _
    rw [ih _ _ (by omega), tabGet_tabPut_other _ _ _ _ _ (by omega)]

/-- A read of a run of keys after its write gives the values written. -/
theorem tabGetN_tabPutN {d : α} (xs : List α) {t : List (Nat × α)} (h : tabOk d t = true) (a : Nat) :
    tabGetN d (tabPutN d t a xs) a xs.length = xs := by
  induction xs generalizing t a with
  | nil => rfl
  | cons x xs ih =>
    show tabGet d (tabPutN d (tabPut d t a x) (a + 1) xs) a ::
      tabGetN d (tabPutN d (tabPut d t a x) (a + 1) xs) (a + 1) xs.length = _
    rw [ih (tabOk_tabPut h a x), tabGet_tabPutN_other _ _ _ _ _ (by omega), tabGet_tabPut_same h]

theorem natLe_length (n v : Nat) : (natLe n v).length = n := by
  induction n generalizing v with
  | zero => rfl
  | succ n ih => simp [natLe, ih]

theorem leNat_natLe (n v : Nat) : leNat (natLe n v) = v % 256 ^ n := by
  induction n generalizing v with
  | zero => simp [natLe, leNat, Nat.mod_one]
  | succ n ih =>
    rw [natLe, leNat, ih, BitVec.toNat_ofNat, show 256 ^ (n + 1) = 256 * 256 ^ n from Nat.pow_succ', Nat.mod_mul]

/-! ### Memory -/

/-- The bytes of a store, and the bytes outside it. -/
theorem State.store_mem (s : State) (key : Nat) (bs : List Byte) : (s.store key bs).mem = tabPutN 0 s.mem key bs := by
  simp [State.store, State.write, State.put]

theorem State.store_bytes {s : State} (h : Memory.wf s.mem = true) (key : Nat) (bs : List Byte) :
    (s.store key bs).bytes key bs.length = bs := by
  unfold State.bytes
  rw [State.store_mem]
  exact tabGetN_tabPutN bs h key

theorem State.store_wf {s : State} (h : Memory.wf s.mem = true) (key : Nat) (bs : List Byte) :
    Memory.wf (s.store key bs).mem = true := by
  rw [State.store_mem]
  exact tabOk_tabPutN bs h key

theorem State.put_wf {s : State} (h : Memory.wf s.mem = true) (key : Nat) (bs : List Byte) :
    Memory.wf (s.put key bs).mem = true := tabOk_tabPutN bs h key

theorem State.zero_wf {s : State} (h : Memory.wf s.mem = true) (key n : Nat) : Memory.wf (s.zero key n).mem = true :=
  tabOk_filter h _

/-- Full-empty bits after a write of one. -/
theorem State.fullAt_setFull {s : State} (h : tabOk false s.full = true) (key a : Nat) (b : Bool) :
    (s.setFull key b).fullAt a = if a / 16 = key / 16 then b else s.fullAt a := by
  unfold State.fullAt State.setFull
  by_cases e : a / 16 = key / 16
  · simp only [e, if_true]
    exact tabGet_tabPut_same h ..
  · rw [if_neg e]
    exact tabGet_tabPut_other _ _ _ _ _ (by omega)

/-- A store leaves every thread but its monitor. -/
theorem State.wakeMons_team? (s : State) (key n id : Nat) : (s.wakeMons key n).team? id =
    (s.team? id).map fun tm => { tm with threads := tm.threads.map (Thread.seeWrite key n) } :=
  find_map_same id (fun tm => { tm with threads := tm.threads.map (Thread.seeWrite key n) }) (fun _ => rfl) s.teams
theorem State.wakeMons_thr? (s : State) (key n id i : Nat) :
    (s.wakeMons key n).thr? id i = (s.thr? id i).map (Thread.seeWrite key n) := by
  unfold State.thr?
  rw [State.wakeMons_team?]
  cases s.team? id <;> simp
theorem Thread.seeWrite_keeps {γ : Type} (g : Thread → γ) (hg : ∀ (t : Thread) m, g { t with mon := m } = g t)
    (key n : Nat) (t : Thread) : g (t.seeWrite key n) = g t := by
  unfold Thread.seeWrite
  split
  · split
    · exact hg ..
    · rfl
  · rfl
theorem State.bumpTags_thr? (s : State) (key n id i : Nat) : (s.bumpTags key n).thr? id i = s.thr? id i := by
  unfold State.thr? State.team?
  rw [State.bumpTags_teams]
theorem State.bumpTags_team? (s : State) (key n id : Nat) : (s.bumpTags key n).team? id = s.team? id := by
  unfold State.team?
  rw [State.bumpTags_teams]
/-- A recall leaves every thread but its monitor. -/
theorem State.loseMons_thr? (s : State) (f : Team → Nat → Bool) (id i : Nat) :
    (s.loseMons f).thr? id i = (s.team? id).bind fun tm => (tm.threads[i]?).map (Thread.loseMon (f tm)) := by
  have h : (s.loseMons f).team? id = (s.team? id).map fun tm =>
      { tm with threads := tm.threads.map (Thread.loseMon (f tm)) } :=
    find_map_same id (fun tm => { tm with threads := tm.threads.map (Thread.loseMon (f tm)) }) (fun _ => rfl) s.teams
  unfold State.thr?
  rw [h]
  cases s.team? id <;> simp
theorem Thread.loseMon_keeps {γ : Type} (g : Thread → γ) (hg : ∀ (t : Thread) m, g { t with mon := m } = g t)
    (f : Nat → Bool) (t : Thread) : g (t.loseMon f) = g t := by
  unfold Thread.loseMon
  split
  · split
    · exact hg ..
    · rfl
  · rfl
theorem State.recall_keeps {γ : Type} (g : Thread → γ) (hg : ∀ (t : Thread) m, g { t with mon := m } = g t)
    (s : State) (key n id i : Nat) : ((s.recall key n).thr? id i).map g = (s.thr? id i).map g := by
  unfold State.recall State.returnLines
  rw [State.loseMons_thr?]
  show Option.map g ((s.team? id).bind _) = Option.map g ((s.team? id).bind _)
  cases s.team? id with
  | none => rfl
  | some tm => cases h : tm.threads[i]? <;> simp [h, Thread.loseMon_keeps g hg]
theorem State.write_thr? (s : State) (key : Nat) (bs : List Byte) (id i : Nat) :
    (s.write key bs).thr? id i = (s.thr? id i).map (Thread.seeWrite key bs.length) := by
  unfold State.write
  show State.thr? (State.wakeMons _ _ _) id i = _
  rw [State.wakeMons_thr?]
  show Option.map _ ((State.bumpTags _ _ _).thr? id i) = _
  rw [State.bumpTags_thr?]
  rfl
theorem State.store_keeps {γ : Type} (g : Thread → γ) (hg : ∀ (t : Thread) m, g { t with mon := m } = g t)
    (s : State) (key : Nat) (bs : List Byte) (id i : Nat) :
    ((s.store key bs).thr? id i).map g = (s.thr? id i).map g := by
  unfold State.store
  rw [State.write_thr?, Option.map_map, ← s.recall_keeps g hg key bs.length id i]
  congr 1
  exact funext fun t => Thread.seeWrite_keeps g hg ..

/-! ### Operations in flight -/

theorem Thread.find_modOp (l : List Op) (id : Nat) (f : Op → Op) (hf : ∀ o, (f o).id = o.id) :
    (l.map fun o => if o.id = id then f o else o).find? (fun o => o.id == id) = (l.find? fun o => o.id == id).map f := by
  induction l with
  | nil => rfl
  | cons o l ih =>
    simp only [List.map_cons, List.find?_cons]
    by_cases h : o.id = id
    · simp [h, hf]
    · simp only [if_neg h, beq_eq_false_iff_ne.2 h, ih]

theorem State.op?_modOp (s : State) (tm i id : Nat) (f : Op → Op) (hf : ∀ o, (f o).id = o.id) :
    (s.modOp tm i id f).op? tm i id = (s.op? tm i id).map f := by
  unfold State.op? State.modOp
  rw [State.thr?_modThr_same]
  cases s.thr? tm i with
  | none => rfl
  | some t => exact Thread.find_modOp t.pend id f hf

theorem State.store_op? (s : State) (key : Nat) (bs : List Byte) (tm i id : Nat) :
    (s.store key bs).op? tm i id = s.op? tm i id := by
  have h := s.store_keeps (fun t => t.op? id) (fun _ _ => rfl) key bs tm i
  unfold State.op?
  cases h1 : (s.store key bs).thr? tm i <;> cases h2 : s.thr? tm i <;> simp_all

theorem State.op?_of {s : State} {id i k : Nat} {t : Thread} {o : Op} (ht : s.thr? id i = some t)
    (ho : t.op? k = some o) : s.op? id i k = some o := by
  unfold State.op?
  rw [ht]
  exact ho
theorem Thread.op?_id {t : Thread} {k : Nat} {o : Op} (h : t.op? k = some o) : o.id = k := by
  have := List.find?_some h
  simpa using this

end Sys2Proof.Machine
end

