-- ==== Sys2Proof/Tests/Slice0.lean ====
section
/-! SUPPORT. The model's own tests: words of the spec's worked examples decode to the instructions written beside them;
an ill-formed term for each check of WellFormed is refused; and for each statement a state and operands that meet its
hypotheses. Each test is one step, or none, on a small state. -/

namespace Sys2Proof.Tests
open Sys2Proof Machine

set_option maxRecDepth 100000

/-! ### The state in which a word issues -/

/-- The reset state with the word of an instruction in hand, ready to issue (log 5). -/
def atWord (i : Instr) : State :=
  match encode i with
  | some w => (State.reset.placeWord 64 w).prepare 0 false
  | none => State.reset

/-- One thread issues `i` at `s`, and the crew, the thread and the clause are as `p` says. -/
def aloneIn (s : State) (i : Instr) (p : Issue → Team → Crew → Nat → Thread → Bool) : Bool :=
  match s.issuer with
  | some (x, tm, cr) =>
    match x.active with
    | [j] =>
      match tm.threads[j]? with
      | some t => !illegalIn tm cr i && (overBudget tm cr i x.active).isEmpty && badSource tm cr t i == none && t.guard (commonOf i) && p x tm cr j t
      | none => false
    | _ => false
  | none => false

theorem alone_of {s : State} {i : Instr} {p : Issue → Team → Crew → Nat → Thread → Bool} (h : aloneIn s i p = true) :
    ∃ x tm cr j t, IssuesAlone s i x tm cr j t ∧ p x tm cr j t = true := by
  unfold aloneIn at h
  split at h
  · rename_i x tm cr hx
    split at h
    · rename_i j hj
      split at h
      · rename_i t ht
        simp only [Bool.and_eq_true, Bool.not_eq_true', beq_iff_eq, List.isEmpty_iff] at h
        exact ⟨x, tm, cr, j, t, ⟨hx, h.1.1.1.1, h.1.1.1.2, h.1.1.2, hj, ht, h.1.2⟩, h.2⟩
      · simp at h
    · simp at h
  · simp at h

/-- Every instruction of the list issues at the state that holds its word. -/
theorem all_alone {l : List Instr} (h : l.all (fun i => aloneIn (atWord i) i fun _ _ _ _ _ => true) = true) :
    ∀ i ∈ l, ∃ x tm cr j t, IssuesAlone (atWord i) i x tm cr j t := by
  intro i hi
  obtain ⟨x, tm, cr, j, t, h, _⟩ := alone_of (List.all_eq_true.mp h i hi)
  exact ⟨x, tm, cr, j, t, h⟩

/-- The first thread, the first team, and registers of the first thread changed. -/
def inThr (f : Thread → Thread) (s : State) : State := s.modThr 0 0 f
def inTeam (f : Team → Team) (s : State) : State := s.modTeam 0 f
def inCrew (f : Crew → Crew) (s : State) : State :=
  inTeam (fun tm => { tm with crews := tm.crews.map fun c => if c.num = 0 then f c else c }) s
def inCtx (f : Context → Context) (s : State) : State := { s with ctxs := s.ctxs.map f }
def regs (l : List (Nat × Nat)) (s : State) : State := inThr (fun t => t.putV (l.map fun e => (e.1, BitVec.ofNat 32 e.2))) s
/-- A page table that maps the first GiB onto itself, readable, writable, executable and atomic (R143). -/
def paged (s : State) : State :=
  inCtx (fun c => { c with r := { c.r with ptroot := 0x40000000 } }) { s with
    mem := [(0x40000000, 1), (0x40000001, 0x10), (0x40000003, 0x40), (0x40001000, 1), (0x40001001, 0x20), (0x40001003, 0x40),
      (0x40002000, 0x3F)] }
/-- The state after the instruction in hand has issued. -/
def after (i : Instr) (s : State) : State := match exec i s with | .next s' => s' | _ => s
/-- The state after an instruction issued at the state that holds its word, as changed. -/
def issued (f : State → State) (i : Instr) : State := after i (f (atWord i))

/-- One thread issues `i` at a state where `p` holds of its clause, team, crew and itself. -/
def Alone (s : State) (i : Instr) (p : Issue → Team → Crew → Nat → Thread → Bool) : Prop :=
  ∃ x tm cr j t, IssuesAlone s i x tm cr j t ∧ p x tm cr j t = true

/-- Operation 2 of the first thread, or of thread j, is in flight, and nothing keeps it from performing; `p` holds. -/
def pendingIn (s : State) (p : Team → Thread → Op → Bool) (j : Nat := 0) : Bool :=
  match s.team? 0, s.thr? 0 j with
  | some tm, some t => match t.op? 2 with
    | some o => o.res == none && t.status != .stopped && !t.wbBlocks o && t.orderClear o && p tm t o
    | none => false
  | _, _ => false

theorem pending_of {s : State} {p : Team → Thread → Op → Bool} {j : Nat} (h : pendingIn s p j = true) :
    ∃ tm t o, Pending s 0 j 2 tm t o ∧ p tm t o = true := by
  unfold pendingIn at h
  split at h
  · rename_i tm t h1 h2
    split at h
    · rename_i o h3
      simp only [Bool.and_eq_true, Bool.not_eq_true', beq_iff_eq, bne_iff_ne] at h
      exact ⟨tm, t, o, ⟨h1, h2, h3, h.1.1.1.1, h.1.1.1.2, h.1.1.2, h.1.2⟩, h.2⟩
    · simp at h
  · simp at h
/-- Such an operation of the state. -/
def InFlight (s : State) (p : Team → Thread → Op → Bool) (j : Nat := 0) : Prop := ∃ tm t o, Pending s 0 j 2 tm t o ∧ p tm t o = true

/-- No cone is armed, as a test. -/
def calm (s : State) : Bool := s.teams.all fun tm => tm.cones.all fun c => !c.armed
/-- The key that a checked access has, as a test. -/
def keyIn (r : ARes) (key : Nat) : Bool := r == .ok key
/-- The access of the thread's word in hand. -/
def chk (s : State) (x : Issue) (j : Nat) (sp : Space) (ea w : Nat) (k : AccKind) (svc : Nat) (late : Bool := false) : ARes :=
  (s.started.checked x j sp ea w k svc late).r

/-! ### One instruction of every row that a thread issues -/

/-- The common fields with completion flag F0. -/
abbrev f0 : Common := { setf := 0 }
abbrev ib : IntBin := ⟨false, true, false, 4, .v 1, .v 2⟩
abbrev it : IntTri := ⟨false, true, false, 4, .v 1, .v 2, .v 6⟩
abbrev lb : LogBin := ⟨false, true, 4, .v 1, .v 2⟩
abbrev fb : FlagBin := ⟨false, false, 4, .v 1, .v 2⟩
abbrev un : UnOp := ⟨true, 4, .v 2⟩
abbrev fpb : FpBin := ⟨.f32, .rne, false, false, 4, .v 1, .v 2⟩
abbrev fpu : FpUn := ⟨.f32, .rne, false, false, 4, .v 1⟩

def integerSamples : List Instr :=
  [.iadd {} ib, .isub {} ib, .imul {} ib, .imulh {} ib, .imin {} ib, .imax {} ib, .imad {} it, .imadw {} it,
   .iabs {} ⟨false, true, 4, .v 1⟩, .iaddi {} ⟨true, true, false, 4, .v 2, 7⟩]
def bitSamples : List Instr :=
  [.and {} lb, .or {} lb, .xor {} lb, .lopi {} ⟨false, .and, false, 4, .v 1, 7⟩, .shl {} fb, .shr {} fb, .sar {} fb,
   .bfe {} fb, .bfi {} ⟨false, 4, .v 1, .v 2, .v 6⟩, .popc {} un, .clz {} un, .brev {} un]
def moveSamples : List Instr :=
  [.icmp {} ⟨false, .lt, true, some (.and, 3), 1, .v 5, .v 1⟩, .sel {} ⟨false, true, 2, 4, .v 1, .v 2⟩, .mov {} un,
   .movi {} ⟨.i64, 4, 0xFFFFFFFF⟩, .lea {} ⟨3, .i32, 4, .v 2, .v 8⟩, .plop {} ⟨0x96, 1, 2, 3, 7⟩,
   .smovWrite {} ⟨false, 14, .v 1⟩, .kmovFromK {} ⟨true, 3, 4⟩, .elect {} ⟨1, some 4⟩, .jtest {} .done 0 1,
   .smovRead {} ⟨false, 14, 4⟩, .kmovToK {} ⟨true, 3, 4⟩]
def floatSamples : List Instr :=
  [.fadd {} fpb, .fsub {} fpb, .fmul {} fpb, .fmin {} fpb, .fmax {} fpb, .fscl {} fpb,
   .ffma {} ⟨.f64, .rup, true, false, 4, .v 2, .v 6, .v 8⟩, .frcp {} fpu, .fsqrt {} fpu, .frsq {} fpu, .fexp2 {} fpu,
   .flog2 {} fpu, .fsin {} fpu, .fcos {} fpu, .frnd {} fpu]
def convertSamples : List Instr :=
  [.fcmp {} ⟨.f32, .lt, false, none, 1, .v 1, .v 2⟩, .fcls {} ⟨.f32, 4, .v 1⟩,
   .fcvt {} ⟨.f16, .f32, .rne, false, false, false, 4, .v 1, none⟩, .f2i {} ⟨.f32, .i32, .rtz, 4, .v 1⟩,
   .i2f {} ⟨.f32, .n32, .rne, 4, .v 1⟩, .fdot {} ⟨.e4m3, .rne, false, 4, .v 1, .v 2, .v 3⟩,
   .bqntScale {} ⟨.e4m3, 4, .v 1⟩, .bqntElement {} ⟨.e2m1, .rne, true, 4, .v 1, .v 2⟩,
   .bdq {} ⟨.e4m3, .rne, 4, .v 1, .v 2⟩]
def crossSamples : List Instr :=
  [.shfl {} ⟨.xor, false, 4, 1, .v 2, some (.v 3)⟩, .vote {} ⟨.ballot 4, false, 1⟩, .vote {} ⟨.any 2, true, 1⟩,
   .lred {} ⟨.add, .f32, false, 4, 3, none⟩, .lscan {} ⟨.max, .n64, true, 4, 2, none⟩, .matchLanes {} ⟨false, 4, 1⟩]
def controlSamples : List Instr :=
  [.nop {} 5, .yield {} 9, .bra {} 0, .brx {} 2 0, .call f0 2 0, .callx f0 2 0, .ret {} 2, .retChecked {} 2 0,
   .jinitLive {} 0, .jinitSelf {} 0, .jinitClear {} 0, .jinitK {} 0 1, .jleave {} 0, .join {} 0, .exit {}]
def memorySamples : List Instr :=
  [.ld f0 ⟨.mem, .n32, 0, false, .ignore, 4, .v 2, 0⟩, .ld {} ⟨.core, .n32, 0, false, .ignore, 4, .v 2, 0⟩,
   .st f0 ⟨.core, .n64, 0, 4, .v 2, 256⟩, .stt f0 ⟨.mem, .n32, 0, 4, .v 2, 0⟩, .pref f0 ⟨true, 0, .v 2, 0⟩, .ipref {} ⟨1, 4⟩,
   .ipin {} ⟨1, 4⟩, .iunpin {} ⟨1, 4⟩, .fenceRel {} .chip, .fenceAcq {} .chip, .fenceAr {} .band,
   .cflushL1 f0 ⟨.v 2, 0⟩, .cflushClean f0 ⟨.v 2, 0⟩, .cflushInval f0 ⟨.v 2, 0⟩,
   .cflushTlb f0 ⟨.v 2, 0⟩, .cflushAsid f0 ⟨.v 2, 0⟩, .cflushCtx f0 ⟨.v 2, 0⟩, .feset f0 ⟨.core, 0, .v 2, 256⟩, .feclr f0 ⟨.core, 0, .v 2, 256⟩, .monitor {} ⟨.core, .v 2, 0⟩, .waitm {}]
def atomicSamples : List Instr :=
  [.atom f0 ⟨.add, .n32, .core, 4, .v 1, .v 2⟩, .atomcas f0 ⟨false, .core, 4, .v 1, .v 2, .v 3⟩,
   .red f0 ⟨.max, .i32, .core, .v 1, .v 2⟩, .xadd f0 ⟨.f32, false, .v 2, .v 4⟩, .xread f0 ⟨false, false, 4, .v 2⟩,
   .xclr f0 ⟨false, .v 2⟩, .xclrLine f0 ⟨false, .v 2⟩, .glaze f0 ⟨false, false, 4, .v 2, 8, .v 6⟩, .glzq f0 ⟨4, .v 2⟩]
def syncSamples : List Instr :=
  [.bari f0 ⟨.core, .team, 1, .v 2, .v 3, .v 4⟩, .bara f0 ⟨.core, some 4, .v 2, none⟩, .barw {} ⟨.core, 1, .v 2, .v 3⟩,
   .bart f0 ⟨.core, 1, .v 2, .v 3⟩, .bartPoison f0 ⟨.core, 1, .v 2⟩, .barp f0 ⟨.core, .v 2⟩, .qcfgSet {} ⟨8, .v 2⟩,
   .qcfgGrant {} ⟨9, .v 1⟩, .qcfgStat {} ⟨8, 4⟩, .qcfgOff {} 8, .qpush {} ⟨8, 10⟩, .qpop {} ⟨8, 10⟩, .qtry {} ⟨8, 10, 1⟩,
   .sqadd f0 ⟨.chip, false, .v 2, .v 4⟩, .sqwait {} ⟨.chip, true, .v 2, .v 4⟩, .sqrd f0 ⟨.chip, 4, .v 2⟩]
def copySamples : List Instr :=
  [.cpl {} ⟨2, .core, .core, .v 2, .v 4, .v 6⟩, .cpt f0 ⟨1, false, false, false, .v 2, 8, .v 6⟩,
   .cpm f0 ⟨1, false, false, .v 2, 8, .v 6, .v 5⟩, .cpg f0 ⟨1, false, false, .v 2, 8, .v 6, .v 5⟩, .cpclose {}, .cpwait {} 0,
   .chkw {} ⟨.v 2, 4⟩, .chkt f0 ⟨1, .v 2, 4⟩, .tload f0 ⟨1, .v 2⟩, .tevict {} 1, .sort f0 (.v 2)]
def engineSamples : List Instr :=
  [.mmx f0 (.v 2), .mmzero f0 ⟨1, false⟩, .mmld f0 ⟨1, false, .v 2, .v 3, none⟩, .mmst f0 ⟨1, false, .v 2, .v 3, none⟩,
   .mmrd f0 ⟨1, 0, 4, .v 3⟩, .mmwake f0 3, .mmstat {} ⟨false, 4⟩, .rast f0 (.v 2),
   .attr f0 ⟨false, 4, .v 2⟩, .oenter {}, .oleave {}, .flcfgSet f0 ⟨0, false, .v 2⟩, .flcfgGrow f0 0, .flcfgOff f0 0,
   .flins f0 ⟨0, none, 1, .v 2, 4⟩, .flres f0 ⟨0, 4, .v 2⟩, .flresClr f0 ⟨0, 4, .v 2⟩, .flrd f0 ⟨0, 4, .v 2, .v 3⟩, .splat f0 (.v 2),
   .raybox f0 ⟨true, 20, .v 2, 8⟩, .raytri f0 ⟨true, 20, .v 2, 8⟩]
def taskSamples : List Instr :=
  [.launch f0 (.v 2), .wgemit f0 ⟨true, .v 2, .v 4⟩, .wgdone f0 ⟨1, .v 2⟩, .dqpush f0 ⟨1, .v 2⟩, .dqpop f0 ⟨4, 1⟩,
   .dqsteal f0 ⟨none, 4, 1⟩, .quiesceArm f0 ⟨.v 1, .v 2, .v 4⟩, .quiesceRd f0 ⟨4, .v 2⟩]
def systemSamples : List Instr :=
  [.trap {} ⟨5, 0x40⟩, .srd {} ⟨false, 0, false, 4⟩, .swr {} ⟨false, 17, false, .v 4⟩, .cont f0 8, .contOff f0, .resumeSvc {},
   .resume {} ⟨.v 2, 4⟩, .tretRec {}, .tretNext {}, .tretKill {}, .tretTerm {} 7]
def debugSamples : List Instr :=
  [.coneset f0 ⟨0, 3, .v 20, .v 22, .v 22⟩, .coneclr {} 0, .coneclrRec {} 0, .coneclrAll {} true, .haltSelf {}, .haltCrew {},
   .haltTeam {}, .haltThr {} ⟨0, 0⟩, .haltRel {} (.thr ⟨0, 0⟩), .inspr f0 ⟨false, 30, .v 40, .v 41, 7⟩,
   .inspw f0 ⟨false, 1, .v 40, .v 41, .v 42⟩, .step f0 ⟨6, .v 40⟩, .tmark {} ⟨1, 2⟩]

/-! ### Decoding: the words of the spec's worked examples, an unassigned word, and one ill-formed term for each check -/

theorem test_worked_words :
    decodeTableWord 64 0x101EE02004040003 = some (.iadd {} ⟨false, true, true, 4, .v 1, .v 2⟩) ∧
    decodeTableWord 64 0x245EE0081402000A = some (.icmp { dist := 2 } ⟨false, .lt, true, none, 1, .v 5, .v 1⟩) ∧
    decodeTableWord 64 0x331EE03004040300 = some (.ffma {} ⟨.f32, .rne, false, false, 6, .v 1, .v 2, .v 3⟩) ∧
    decodeTableWord 64 0x451EE05004000009 = some (.bqntScale {} ⟨.e4m3, 10, .v 1⟩) ∧
    decodeTableWord 64 0x459EE05808140081 = some (.bqntElement { dist := 4 } ⟨.e4m3, .rne, true, 11, .v 2, .v 10⟩) ∧
    decodeTableWord 64 0x467EE0682C140001 = some (.bdq { dist := 3 } ⟨.e4m3, .rne, 13, .v 11, .v 10⟩) ∧
    decodeTableWord 64 0x7000F0300801004B = some (.ld { setf := 0, pred := 7 } ⟨.core, .n64, 0, false, .take, 6, .v 2, 256⟩) ∧
    decodeTableWord 64 0x9602E0A008150500 = some (.glaze { setf := 1 } ⟨false, false, 20, .v 2, 10, .k 5⟩) ∧
    decodeTableWord 64 0xA51EE00020014800 = some (.qcfgSet {} ⟨8, .v 8⟩) ∧
    decodeTableWord 64 0xB11EE060281A0000 = some (.cpt {} ⟨0, false, false, false, .v 12, 10, .v 13⟩) ∧
    decodeTableWord 64 0xC402E14000520000 = some (.mmrd { setf := 1 } ⟨0, 0, 40, .v 41⟩) ∧
    decodeTableWord 64 0xD51EE0080C080604 = some (.flins {} ⟨0, some (.rast, .v 6), 1, .v 3, 4⟩) ∧
    decodeTableWord 64 0xDA00E0A008100000 = some (.raytri { setf := 0 } ⟨false, 20, .v 2, 8⟩) ∧
    decodeTableWord 64 0xE11EE000180E0000 = some (.wgemit {} ⟨false, .v 6, .v 7⟩) ∧
    decodeTableWord 64 0xF01EE00500000040 = some (.trap {} ⟨5, 0x40⟩) ∧
    decodeTableWord 64 0xFB04E0F0A0520700 = some (.inspr { setf := 2 } ⟨false, 30, .v 40, .v 41, 7⟩) := by decide
/-- Words of OP 0x97 (R199) and of OP 0xFF (R49), and a word of an unassigned OP (R47). -/
theorem test_other_words :
    decodeTableWord 64 0x9700E02008000600 = some (.glzins f0 ⟨4, .v 2, .v 6⟩) ∧
    decodeTableWord 64 0xFF00000000000007 = some (.ill 7) ∧ decodeTableWord 64 0x0C1EE00000000000 = none := by decide
/-- A reserved field that is not zero, an operand of a file the entry does not allow, and a K destination, are refused
(R45, R48, R50, R94, R97). -/
theorem test_refused_words :
    [0x101EE02004040004, 0x101EE02006900000, 0x101EE82004040000, 0x001EE00100000000].all (fun w =>
      match decode w with | .error .fields => true | _ => false) = true := by decide
theorem test_wf_setfReserved : Instr.errs (.iadd { setf := 13 } ib) = [.setfReserved] := by decide
theorem test_wf_setfMustBe15 : Instr.errs (.nop { setf := 3 } 0) = [.setfMustBe15] := by decide
theorem test_wf_oddPair : Instr.errs (.mov {} ⟨true, 5, .v 2⟩) = [.oddPair] := by decide
theorem test_wf_destPT : Instr.errs (.plop {} ⟨0x96, 7, 2, 3, 7⟩) = [.destPT] := by decide
theorem test_wf_subop : Instr.errs (.imulh {} ⟨false, true, true, 4, .v 1, .v 2⟩) = [.subop] := by decide
theorem test_wf_space : Instr.errs (.barp f0 ⟨.lane, .v 2⟩) = [.space] := by decide
theorem test_wf_sysReg : Instr.errs (.smovWrite {} ⟨false, 0, .v 1⟩) = [.sysReg] := by decide
theorem test_wf_queue : Instr.errs (.qpush {} ⟨2, 10⟩) = [.queue] := by decide
theorem test_wf_sample : Instr.errs (.iadd {} ib) = [] := by decide

/-! ### Values of the spec's worked examples -/

/-- The worked clause of chapter 04: V4 saturates, V5 wraps, V6 and V8 are shifted. -/
theorem test_worked_clause :
    narrow 32 true true (2147483632 + 32) = 0x7FFFFFFF ∧ narrow 32 false false (2147483632 + 32) = 0x80000010 ∧
    shlVal false true 0x20 40 = 0x2000 ∧ sarVal false false 0x80000010 40 = 0xFFFFFFFF := by decide
/-- The worked example of R135. -/
theorem test_worked_block :
    (bqntScaleVal .e4m3 0x43960000).1 = 0x7F ∧ (bqntElemVal .e4m3 .rne true 0x43960000 0x7F).1 = 0x79 ∧
    (bqntElemVal .e4m3 .rne true 0xBC23D70A 0x7F).1 = 0x85 ∧ (bdqVal .e4m3 .rne 0x79 0x7F).1 = 0x43900000 ∧
    (bdqVal .e4m3 .rne 0x85 0x7F).1 = 0xBC200000 := by decide
/-- The worked example of chapter 12: two triangles that share an edge, and the ray through it (R329, R332). -/
theorem test_worked_ray :
    let ray := rayOf ([0x3F000000, 0x3F000000, 0xBF800000, 0, 0, 0x3F800000, 0, 0x7F800000].map fun n => BitVec.ofNat 32 n)
    let tri := fun (l : List Nat) => l.flatMap (natLe 4)
    raytriOut ray (tri [0, 0, 0x40000000, 0x3F800000, 0, 0x40000000, 0, 0x3F800000, 0x40000000, 5, 0, 0]) =
      [3, 0x40400000, 0x3F000000, 0x3F000000, 5] ∧
    raytriOut ray (tri [0x3F800000, 0, 0x40000000, 0x3F800000, 0x3F800000, 0x40000000, 0, 0x3F800000, 0x40000000, 8, 0, 0]) =
      [3, 0x40400000, 0, 0x3F000000, 8] := by decide

/-! ### Every word written out decodes, and every instruction of the lists issues at the state that holds its word -/

/-- Every instruction of the list issues at the state that holds its word. -/
def AllIssue (l : List Instr) : Prop := ∀ i ∈ l, ∃ x tm cr j t, IssuesAlone (atWord i) i x tm cr j t
def integerWords : List Nat :=
  [0x101EE02004040001, 0x111EE02004040001, 0x121EE02004040001, 0x131EE02004040001, 0x171EE02004040001,
   0x181EE02004040001, 0x141EE02004040601, 0x151EE02004040601, 0x161EE02004000003, 0x2D1EF02008100007]
theorem test_integer_words : integerWords.map (decodeTableWord 64) = integerSamples.map some := by decide
theorem meets_integer_issue : AllIssue integerSamples := all_alone (by decide)
def bitWords : List Nat :=
  [0x191EE02004040001, 0x1A1EE02004040001, 0x1B1EE02004040001, 0x2E1EE02004000007, 0x1C1EE02004040000,
   0x1D1EE02004040000, 0x1E1EE02004040000, 0x1F1EE02004040000, 0x201EE02004040600, 0x211EF02008000000,
   0x221EF02008000000, 0x231EF02008000000]
theorem test_bit_words : bitWords.map (decodeTableWord 64) = bitSamples.map some := by decide
theorem meets_bit_issue : AllIssue bitSamples := all_alone (by decide)
def moveWords : List Nat :=
  [0x241EE0081402031A, 0x251EE02004040A00, 0x261EF02008000000, 0x271EF020FFFFFFFF, 0x281EF0200810001B,
   0x291EE00808060796, 0x2A1EEC7004000001, 0x2B1EF0240C000001, 0x2C1EE00800000401, 0x091EE11000000000,
   0x2A1EE02638000000, 0x2B1EF81810000000]
theorem test_move_words : moveWords.map (decodeTableWord 64) = moveSamples.map some := by decide
theorem meets_move_issue : AllIssue moveSamples := all_alone (by decide)
def floatWords : List Nat :=
  [0x301EE02004040000, 0x311EE02004040000, 0x321EE02004040000, 0x341EE02004040000, 0x351EE02004040000,
   0x3F1EE02004040000, 0x331EF020080C0859, 0x371EE02004000000, 0x381EE02004000000, 0x391EE02004000000,
   0x3A1EE02004000000, 0x3B1EE02004000000, 0x3C1EE02004000000, 0x3D1EE02004000000, 0x3E1EE02004000000]
theorem test_float_words : floatWords.map (decodeTableWord 64) = floatSamples.map some := by decide
theorem meets_float_issue : AllIssue floatSamples := all_alone (by decide)
def convertWords : List Nat :=
  [0x361EE00804040010, 0x401EE02004000000, 0x411EE02004000002, 0x421EE02004000014, 0x431EE02004000000,
   0x441EE02004040303, 0x451EE02004000009, 0x451EE02004040084, 0x461EE02004040001]
theorem test_convert_words : convertWords.map (decodeTableWord 64) = convertSamples.map some := by decide
theorem meets_convert_issue : AllIssue convertSamples := all_alone (by decide)
def crossWords : List Nat :=
  [0x601EE02004040313, 0x611EF02004000002, 0x611EE01004000010, 0x621EE0200C000040, 0x631EF0200800006A,
   0x641EF02004000000]
theorem test_cross_words : crossWords.map (decodeTableWord 64) = crossSamples.map some := by decide
theorem meets_cross_issue : AllIssue crossSamples := all_alone (by decide)
def controlWords : List Nat :=
  [0x001EE00000000005, 0x0B1EE00000000009, 0x011EE00000000000, 0x021EE01000000000, 0x0300E01000000000,
   0x0400E01000000000, 0x051EE01000000000, 0x051EE01100000000, 0x061EE00000000000, 0x061EE10000000000,
   0x061EE20000000000, 0x061EE30000000001, 0x081EE00000000000, 0x071EE00000000000, 0x0A1EE00000000000]
theorem test_control_words : controlWords.map (decodeTableWord 64) = controlSamples.map some := by decide
theorem meets_control_issue : AllIssue controlSamples := all_alone (by decide)
def memoryWords : List Nat :=
  [0x7000E02008000002, 0x701EF02008000042, 0x7100F02008010043, 0x7200E02008000002, 0x7300E00008000001,
   0x741EE00100000004, 0x751EE00100000004, 0x761EE00100000004, 0x771EE00800000000, 0x771EE00900000000,
   0x771EE00600000000, 0x7800E00008000000, 0x7800E00008000001, 0x7800E00008000002, 0x7800F00008000000,
   0x7800F00008000001, 0x7800F00008000002, 0x7900F00008010040, 0x7A00F00008010040, 0x7B1EF00008000040,
   0x7C1EE00000000000]
theorem test_memory_words : memoryWords.map (decodeTableWord 64) = memorySamples.map some := by decide
theorem meets_memory_issue : AllIssue memorySamples := all_alone (by decide)
def atomicWords : List Nat :=
  [0x9000E02004040040, 0x9100E02004040340, 0x9200E0000404004A, 0x9300E00008080000, 0x9400E02008000000,
   0x9500E00008000000, 0x9500E00008000001, 0x9600E02008100600, 0x9800E02000000200]
theorem test_atomic_words : atomicWords.map (decodeTableWord 64) = atomicSamples.map some := by decide
theorem meets_atomic_issue : AllIssue atomicSamples := all_alone (by decide)
def syncWords : List Nat :=
  [0xA000E00808060401, 0xA100E02008000021, 0xA21EE00808060001, 0xA300E00808060001, 0xA300E00808000011,
   0xA400E00008000001, 0xA51EE00008014800, 0xA51EE00000034901, 0xA51EF02000014802, 0xA51EE00000014803,
   0xA61EEA4028000000, 0xA71EE05520000000, 0xA81EE05520020000, 0xA900E00008080002, 0xAA1EF00008080002,
   0xAB00F02008000002]
theorem test_sync_words : syncWords.map (decodeTableWord 64) = syncSamples.map some := by decide
theorem meets_sync_issue : AllIssue syncSamples := all_alone (by decide)
def copyWords : List Nat :=
  [0xB01EE010100C004A, 0xB100E010200C0001, 0xB200E010200C0501, 0xB300E010200C0501, 0xB41EE00000000000,
   0xB51EE00000000000, 0xB61EF00008080000, 0xB700F00808080000, 0xB800E00008000001, 0xB91EE00000000001,
   0xBA00E00008000000]
theorem test_copy_words : copyWords.map (decodeTableWord 64) = copySamples.map some := by decide
theorem meets_copy_issue : AllIssue copySamples := all_alone (by decide)
def engineWords : List Nat :=
  [0xC000E00008000000, 0xC100E00000000001, 0xC200E00008060001, 0xC300E00008060001, 0xC400E02000060001,
   0xC500E00000000003, 0xC61EF02000000000, 0xD000E00008000000, 0xD100E02000040000, 0xD21EE00000000000,
   0xD31EE00000000000, 0xD400E00008000000, 0xD400E00000000004, 0xD400E00000000008, 0xD500E00808080000,
   0xD600E02008000000, 0xD600E02008000004, 0xD700E02008060000, 0xD800E00008000000, 0xD900E0A008100001,
   0xDA00E0A008100001]
theorem test_engine_words : engineWords.map (decodeTableWord 64) = engineSamples.map some := by decide
theorem meets_engine_issue : AllIssue engineSamples := all_alone (by decide)
def taskWords : List Nat :=
  [0xE000E00008000000, 0xE100E00008080001, 0xE200F00808000000, 0xE300F00808000000, 0xE400F02000020000,
   0xE500F02000020001, 0xE600F00004040400, 0xE600F02008000001]
theorem test_task_words : taskWords.map (decodeTableWord 64) = taskSamples.map some := by decide
theorem meets_task_issue : AllIssue taskSamples := all_alone (by decide)
def systemWords : List Nat :=
  [0xF01EE00500000040, 0xF11EE02000000000, 0xF21EE00010000011, 0xF300E00000000008, 0xF300E00100000000,
   0xF41EE00000000001, 0xF41EF00008080000, 0xF51EE00000000000, 0xF51EE00100000000, 0xF51EE00200000000,
   0xF51EE00300000007]
theorem test_system_words : systemWords.map (decodeTableWord 64) = systemSamples.map some := by decide
theorem meets_system_issue : AllIssue systemSamples := all_alone (by decide)
def debugWords : List Nat :=
  [0xF800F018502C1600, 0xF91EE00000000000, 0xF91EE02000000000, 0xF91EE03000000000, 0xFA1EE00000000000,
   0xFA1EE00100000000, 0xFA1EE00200000000, 0xFA1EE00300000000, 0xFA1EE00400000000, 0xFB00E0F0A0520700,
   0xFC00E008A0522A00, 0xFD00E030A0000000, 0xFE1EE00100000002]
theorem test_debug_words : debugWords.map (decodeTableWord 64) = debugSamples.map some := by decide
theorem meets_debug_issue : AllIssue debugSamples := all_alone (by decide)

/-! ### States that meet the hypotheses of the statements -/
/-- States that meet the hypotheses of `LoadsIssue`. -/
theorem meets_LoadsIssue :
    (let s := regs [(2, 64)] (atWord (.ld {} ⟨.core, .n32, 0, false, .ignore, 4, .v 2, 0⟩))
    Alone s (.ld {} ⟨.core, .n32, 0, false, .ignore, 4, .v 2, 0⟩) (fun x _ _ j _ => calm s && keyIn (chk s x j .core 64 4 .rd 0) (coreKey 0 64) && !s.poisoned (coreKey 0 64) 4)) ∧
    (let s := regs [(2, 64)] (paged (atWord (.ld f0 ⟨.mem, .n32, 0, false, .ignore, 4, .v 2, 0⟩)))
    Alone s (.ld f0 ⟨.mem, .n32, 0, false, .ignore, 4, .v 2, 0⟩) (fun x _ _ j _ => calm s && keyIn (chk s x j .mem 64 4 .rd 0) 64)) :=
  ⟨alone_of (by decide), alone_of (by decide)⟩
/-- States that meet the hypotheses of `ViolatingLoadTraps`. -/
theorem meets_ViolatingLoadTraps :
    (let s := regs [(2, 66)] (atWord (.ld {} ⟨.core, .n32, 0, false, .ignore, 4, .v 2, 0⟩))
    Alone s (.ld {} ⟨.core, .n32, 0, false, .ignore, 4, .v 2, 0⟩) (fun x _ _ j t => calm s && t.crew != 7 && t.pend.isEmpty && t.late.isEmpty && t.wb.isEmpty && chk s x j .core 66 4 .rd 0 == .viol 8)) :=
  alone_of (by decide)
/-- States that meet the hypotheses of `StoresIssue`. -/
theorem meets_StoresIssue :
    (let s := regs [(2, 64), (4, 0x1234)] (atWord (.st f0 ⟨.core, .n64, 0, 4, .v 2, 256⟩))
    Alone s (.st f0 ⟨.core, .n64, 0, 4, .v 2, 256⟩) (fun x _ _ j _ => calm s && keyIn (chk s x j .core 320 8 .wr 1 true) (coreKey 0 320))) ∧
    (let s := regs [(2, 64), (4, 0x1234)] (paged (atWord (.stt f0 ⟨.mem, .n32, 0, 4, .v 2, 0⟩)))
    Alone s (.stt f0 ⟨.mem, .n32, 0, 4, .v 2, 0⟩) (fun x _ _ j _ => calm s && keyIn (chk s x j .mem 64 4 .wr 1 true) 64)) :=
  ⟨alone_of (by decide), alone_of (by decide)⟩
/-- States that meet the hypotheses of `StoresPerform`. -/
theorem meets_StoresPerform :
    (let s := issued (fun s => regs [(2, 64), (4, 0x1234)] s) (.st f0 ⟨.core, .n64, 0, 4, .v 2, 256⟩)
    InFlight s (fun _ _ o => !isPeer o.key && !s.poisoned o.key o.len && Memory.wf s.mem)) ∧
    (let s := issued (fun s => regs [(2, 64), (4, 0x1234)] (paged s)) (.stt f0 ⟨.mem, .n32, 0, 4, .v 2, 0⟩)
    InFlight s (fun tm _ o => !isPeer o.key && !s.poisoned o.key o.len && Memory.wf s.mem && decide (o.key < 2 ^ 40) && s.coreStores tm.core o.key o.len == [o])) :=
  ⟨pending_of (by decide), pending_of (by decide)⟩
/-- States that meet the hypotheses of `LoadsPerform`. -/
theorem meets_LoadsPerform :
    (let s := (issued (regs [(2, 64)]) (.ld f0 ⟨.core, .n64, 0, false, .take, 6, .v 2, 256⟩)).setFull (coreKey 0 320) true
    InFlight s (fun _ _ o => !isPeer o.key && !s.poisoned o.key o.len && tabOk false s.full && decide (2 ^ 40 ≤ o.key) && s.fullAt o.key)) ∧
    (let s := issued (fun s => regs [(2, 64)] (paged s)) (.ld f0 ⟨.mem, .n32, 0, false, .ignore, 4, .v 2, 0⟩)
    InFlight s (fun tm _ o => !isPeer o.key && !s.poisoned o.key o.len && tabOk false s.full && decide (o.key < 2 ^ 40) && s.l1.isEmpty && (s.coreStores tm.core o.key o.len).isEmpty)) :=
  ⟨pending_of (by decide), pending_of (by decide)⟩
/-- States that meet the hypotheses of `PerformedOperationCompletes`. -/
theorem meets_PerformedOperationCompletes :
    ((let i : Instr := .ld f0 ⟨.core, .n64, 0, false, .take, 6, .v 2, 256⟩
    let s := after (.flaggedCompletion ⟨0, 0, 2, false, none, [], true, false, 0⟩) ((issued (regs [(2, 64)]) i).setFull (coreKey 0 320) true)
    match s.thr? 0 0 with
    | some t => match t.op? 2 with
      | some o => (match o.res with | some ws => ws.all fun w => o.dst.contains w.1 | none => false) && !isDebugOp o.i &&
          t.status != .stopped && !t.wbBlocks o && calm s
      | none => false
    | none => false) = true) :=
  by decide
/-- States that meet the hypotheses of `PrefetchesPinsAndFlushesIssue`. -/
theorem meets_PrefetchesPinsAndFlushesIssue :
    (let s := regs [(2, 64)] (paged (atWord (.pref f0 ⟨false, 0, .v 2, 0⟩)))
    Alone s (.pref f0 ⟨false, 0, .v 2, 0⟩) (fun _ _ _ _ _ => true)) ∧
    (let s := paged (atWord (.ipin {} ⟨1, 4⟩))
    Alone s (.ipin {} ⟨1, 4⟩) (fun _ _ _ _ _ => true)) ∧
    (let s := regs [(2, 64)] (paged (atWord (.cflushL1 f0 ⟨.v 2, 0⟩)))
    Alone s (.cflushL1 f0 ⟨.v 2, 0⟩) (fun x _ _ j _ => keyIn (chk s x j .mem 64 1 .any 0) 64)) ∧
    (let s := (paged (atWord (.cflushClean f0 ⟨.v 2, 0⟩)))
    Alone s (.cflushClean f0 ⟨.v 2, 0⟩) (fun x _ _ j _ => keyIn (chk s x j .mem 0 1 .any 0) 0)) ∧
    (let s := (paged (atWord (.cflushInval f0 ⟨.v 2, 0⟩)))
    Alone s (.cflushInval f0 ⟨.v 2, 0⟩) (fun x _ _ j _ => keyIn (chk s x j .mem 0 1 .any 0) 0)) ∧
    (let s := (paged (atWord (.cflushTlb f0 ⟨.v 2, 0⟩)))
    Alone s (.cflushTlb f0 ⟨.v 2, 0⟩) (fun _ _ _ _ _ => true)) ∧
    (let s := (paged (atWord (.cflushAsid f0 ⟨.v 2, 0⟩)))
    Alone s (.cflushAsid f0 ⟨.v 2, 0⟩) (fun _ _ _ _ _ => true)) ∧
    (let s := (paged (atWord (.cflushCtx f0 ⟨.v 2, 0⟩)))
    Alone s (.cflushCtx f0 ⟨.v 2, 0⟩) (fun _ _ _ _ _ => true)) :=
  ⟨alone_of (by decide), alone_of (by decide), alone_of (by decide), alone_of (by decide), alone_of (by decide), alone_of (by decide), alone_of (by decide), alone_of (by decide)⟩
/-- States that meet the hypotheses of `FencesAndWaitmComplete`. -/
theorem meets_FencesAndWaitmComplete :
    (let s := atWord (.fenceAr {} .chip)
    Alone s (.fenceAr {} .chip) (fun _ _ _ _ t => t.pend.isEmpty && t.waits.isEmpty)) ∧
    (let s := inThr (fun t => { t with mon := some ⟨0, some 6, 0⟩ }) (atWord (.waitm {}))
    Alone s (.waitm {}) (fun _ _ _ _ t => !t.inSection && t.wakeEvent != none && t.waits.isEmpty)) ∧
    (let s := inThr (fun t => { t with mon := some ⟨0, none, 0⟩ }) (atWord (.waitm {}))
    Alone s (.waitm {}) (fun _ _ _ _ t => !t.inSection && t.wakeEvent == none)) :=
  ⟨alone_of (by decide), alone_of (by decide), alone_of (by decide)⟩
/-- States that meet the hypotheses of `FullEmptyAndMonitorComplete`. -/
theorem meets_FullEmptyAndMonitorComplete :
    (let s := regs [(2, 64)] (atWord (.feset f0 ⟨.core, 1, .v 2, 256⟩))
    Alone s (.feset f0 ⟨.core, 1, .v 2, 256⟩) (fun x _ _ j _ => calm s && keyIn (chk s x j .core 320 32 .any 0) (coreKey 0 320))) ∧
    (let s := issued (regs [(2, 64)]) (.feset f0 ⟨.core, 1, .v 2, 256⟩)
    InFlight s (fun _ t o => t.pend == [o] && tabOk false s.full)) ∧
    (let s := regs [(2, 200)] (atWord (.monitor {} ⟨.core, .v 2, 0⟩))
    Alone s (.monitor {} ⟨.core, .v 2, 0⟩) (fun x tm _ j _ => calm s && decide ((s.armedMons tm.core).length < 256) && keyIn (chk s x j .core 200 1 .rd 0) (coreKey 0 200))) :=
  ⟨alone_of (by decide), pending_of (by decide), alone_of (by decide)⟩
/-- States that meet the hypotheses of `AtomicsIssue`. -/
theorem meets_AtomicsIssue :
    (let s := regs [(1, 64), (2, 5)] (atWord (.atom f0 ⟨.add, .n32, .core, 4, .v 1, .v 2⟩))
    Alone s (.atom f0 ⟨.add, .n32, .core, 4, .v 1, .v 2⟩) (fun x _ _ j _ => calm s && keyIn (chk s x j .core 64 4 .at 4) (coreKey 0 64))) ∧
    (let s := regs [(1, 64), (2, 5)] (atWord (.atomcas f0 ⟨false, .core, 4, .v 1, .v 2, .v 3⟩))
    Alone s (.atomcas f0 ⟨false, .core, 4, .v 1, .v 2, .v 3⟩) (fun x _ _ j _ => calm s && keyIn (chk s x j .core 64 4 .at 4) (coreKey 0 64))) ∧
    (let s := regs [(2, 128), (4, 0x3F800000)] (paged (atWord (.xadd f0 ⟨.f32, false, .v 2, .v 4⟩)))
    Alone s (.xadd f0 ⟨.f32, false, .v 2, .v 4⟩) (fun x _ _ j _ => calm s && keyIn (s.started.checkedLine x j (chipOr false) 128 (accOff 128) .at 4).r 128)) ∧
    (let s := regs [(2, 128), (4, 0x3F800000)] (paged (atWord (.xread f0 ⟨false, false, 4, .v 2⟩)))
    Alone s (.xread f0 ⟨false, false, 4, .v 2⟩) (fun x _ _ j _ => calm s && keyIn (s.started.checkedLine x j (chipOr false) 128 (accOff 128) .rd 0).r 128)) ∧
    (let s := regs [(2, 128), (4, 0x3F800000)] (paged (atWord (.xclr f0 ⟨false, .v 2⟩)))
    Alone s (.xclr f0 ⟨false, .v 2⟩) (fun x _ _ j _ => calm s && keyIn (s.started.checkedLine x j (chipOr false) 128 (accOff 128) .at 4).r 128)) ∧
    (let s := regs [(2, 128), (4, 0x3F800000)] (paged (atWord (.xclrLine f0 ⟨false, .v 2⟩)))
    Alone s (.xclrLine f0 ⟨false, .v 2⟩) (fun x _ _ j _ => calm s && keyIn (s.started.checkedLine x j (chipOr false) 128 (128 % 128 == 0) .at 4).r 128)) ∧
    (let s := regs [(2, 128), (6, 0x1100), (8, 7)] (paged (atWord (.glaze f0 ⟨false, false, 4, .v 2, 8, .v 6⟩)))
    Alone s (.glaze f0 ⟨false, false, 4, .v 2, 8, .v 6⟩) (fun x _ cr j t => calm s && (glzReqRegs ⟨false, false, 4, .v 2, 8, .v 6⟩ 0x1100).all (fun r => decide (r < cr.budget) && !t.badRegs.contains r) && (glzRetRegs ⟨false, false, 4, .v 2, 8, .v 6⟩ 0x1100).all (fun r => decide (r < cr.budget)) && keyIn (s.started.checkedLine x j (chipOr false) 128 (128 % 128 == 0) .at 4).r 128)) ∧
    (let s := regs [(2, 256)] (paged (atWord (.glzins f0 ⟨4, .v 2, .v 6⟩)))
    Alone s (.glzins f0 ⟨4, .v 2, .v 6⟩) (fun x _ _ j _ => calm s && keyIn (chk s x j .mem 256 256 .rd 0) 256)) ∧
    (let s := regs [(2, 3)] (paged (atWord (.glzq f0 ⟨4, .v 2⟩)))
    Alone s (.glzq f0 ⟨4, .v 2⟩) (fun x _ _ j _ => calm s && keyIn (chk s x j .mem 768 1 .rd 0) 768)) :=
  ⟨alone_of (by decide), alone_of (by decide), alone_of (by decide), alone_of (by decide), alone_of (by decide), alone_of (by decide), alone_of (by decide), alone_of (by decide), alone_of (by decide)⟩
/-- States that meet the hypotheses of `PlainAtomicsPerform`. -/
theorem meets_PlainAtomicsPerform :
    (let s := issued (fun s => (regs [(1, 64), (2, 5)] s).store (coreKey 0 64) [9]) (.atom f0 ⟨.add, .n32, .core, 4, .v 1, .v 2⟩)
    InFlight s (fun tm _ o => !isPeer o.key && (s.coreStores tm.core o.key o.len).isEmpty && !s.poisoned o.key o.len && Memory.wf s.mem)) ∧
    (let s := issued (regs [(1, 64), (2, 5)]) (.red f0 ⟨.max, .i32, .core, .v 1, .v 2⟩)
    InFlight s (fun tm _ o => !isPeer o.key && (s.coreStores tm.core o.key o.len).isEmpty && !s.poisoned o.key o.len && Memory.wf s.mem)) ∧
    (let s := issued (regs [(1, 64), (2, 0), (3, 6)]) (.atomcas f0 ⟨false, .core, 4, .v 1, .v 2, .v 3⟩)
    InFlight s (fun tm _ o => !isPeer o.key && (s.coreStores tm.core o.key o.len).isEmpty && !s.poisoned o.key o.len && Memory.wf s.mem && s.read o.key o.len == o.vals.getD 1 0)) :=
  ⟨pending_of (by decide), pending_of (by decide), pending_of (by decide)⟩
/-- States that meet the hypotheses of `ExactAccumulationPerforms`. -/
theorem meets_ExactAccumulationPerforms :
    (let s := issued (fun s => regs [(2, 168), (4, 0xBF800000)] (paged s)) (.xadd f0 ⟨.f32, false, .v 2, .v 4⟩)
    InFlight s (fun tm _ o => (s.coreStores tm.core o.key 128).isEmpty && !s.poisoned o.key 128 && Memory.wf s.mem && decide (o.acc ≤ 2) && o.acc == 1 && decodeF (xtyFmt .f32) (o.vals.getD 1 0) == .fin true (2 ^ 23) (-23))) ∧
    (let s := (issued (fun s => regs [(2, 168)] (paged s)) (.xclr f0 ⟨false, .v 2⟩)).put 128 (List.replicate 128 0xFF)
    InFlight s (fun tm _ o => (s.coreStores tm.core o.key 128).isEmpty && !s.poisoned o.key 128 && Memory.wf s.mem && decide (o.acc ≤ 2))) ∧
    (let s := (issued (fun s => regs [(2, 128)] (paged s)) (.xclrLine f0 ⟨false, .v 2⟩)).put 128 (List.replicate 128 0xFF)
    InFlight s (fun tm _ o => (s.coreStores tm.core o.key 128).isEmpty && !s.poisoned o.key 128 && Memory.wf s.mem && decide (o.acc ≤ 2))) ∧
    (let s := (issued (fun s => regs [(2, 128)] (paged s)) (.xread f0 ⟨false, false, 4, .v 2⟩)).put 128 ((List.replicate 39 1))
    InFlight s (fun tm _ o => (s.coreStores tm.core o.key 128).isEmpty && !s.poisoned o.key 128 && Memory.wf s.mem && decide (o.acc ≤ 2) && lineXst (s.bytes o.key 128) / 2 ^ (8 * o.acc) % 256 % 8 == 0)) ∧
    (let s := (issued (fun s => regs [(2, 128)] (paged s)) (.xread f0 ⟨true, false, 4, .v 2⟩)).put 128 (List.replicate 120 1 ++ [1])
    InFlight s (fun tm _ o => (s.coreStores tm.core o.key 128).isEmpty && !s.poisoned o.key 128 && Memory.wf s.mem && decide (o.acc ≤ 2) && lineXst (s.bytes o.key 128) / 2 ^ (8 * o.acc) % 256 % 2 == 1)) :=
  ⟨pending_of (by decide), pending_of (by decide), pending_of (by decide), pending_of (by decide), pending_of (by decide)⟩
/-- A routine of one LADD, of version 1, in entry 0 of the table (R192). -/
def glazed (s : State) : State := inCtx (fun c => { c with r := { c.r with chipsz := 4096 } })
  ((paged s).put 0 ([1, 0, 1, 1, 0, 0] ++ List.replicate 10 0 ++ natLe 4 (2 ^ 26 + 2 ^ 20 * 1 + 2 ^ 14 * 0 + 2 ^ 8 * 2)))
/-- States that meet the hypotheses of `GlazesPerform`. -/
theorem meets_GlazesPerform :
    (let s := issued (fun s => regs [(2, 128), (6, 0)] (glazed s)) (.glaze f0 ⟨true, true, 4, .v 2, 8, .v 6⟩)
    InFlight s (fun tm t o => (s.coreStores tm.core o.key o.len).isEmpty && (s.ctx? tm.asid).isSome && Memory.wf s.mem && o.len == 128 && !s.poisoned o.key 128 &&
    (match s.ctx? tm.asid with
    | some cx => match (s.glzFetch tm 0 cx (t.crew == 7) (sliceOf cx o.key) (o.vals.getD 1 0 % 64)).2 with
      | .ok bs => glzCheck bs 0 0 0 == none && (glzRun (glzRow bs) (wordsOf (s.bytes o.key 128) 32) []).isOk
      | _ => false
    | none => false))) ∧
    (let s := issued (fun s => regs [(2, 128), (6, 0x20000)] (glazed s)) (.glaze f0 ⟨true, true, 4, .v 2, 8, .v 6⟩)
    InFlight s (fun tm t o => (s.coreStores tm.core o.key o.len).isEmpty && Memory.wf s.mem && o.len == 128 &&
    (match s.ctx? tm.asid with
    | some cx => match (s.glzFetch tm 0 cx (t.crew == 7) (sliceOf cx o.key) (o.vals.getD 1 0 % 64)).2 with
      | .ok bs => glzCheck bs 2 0 0 == some 33
      | _ => false
    | none => false))) ∧
    (let s := issued (fun s => regs [(2, 0), (6, 1)] (glazed s)) (.glzins f0 ⟨4, .v 2, .v 6⟩)
    InFlight s (fun tm t o => (s.coreStores tm.core o.key o.len).isEmpty && Memory.wf s.mem && !isPeer o.key && !s.poisoned o.key 256 &&
    s.resolve tm 0 (t.crew == 7) .mem (256 * (o.vals.getD 1 0 % 64)) 1 .wr == .ok 256)) ∧
    (let s := issued (fun s => glazed s) (.glzq f0 ⟨4, .v 2⟩)
    InFlight s (fun tm _ o => (s.coreStores tm.core o.key o.len).isEmpty && Memory.wf s.mem && !isPeer o.key && !s.poisoned o.key 6)) :=
  ⟨pending_of (by decide), pending_of (by decide), pending_of (by decide), pending_of (by decide)⟩
/-- States that meet the hypotheses of `BarrierInstructionsIssue`. -/
theorem meets_BarrierInstructionsIssue :
    (let s := regs [(2, 64), (3, 2)] (atWord (.bari f0 ⟨.core, .team, 1, .v 2, .v 3, .v 4⟩))
    Alone s (.bari f0 ⟨.core, .team, 1, .v 2, .v 3, .v 4⟩) (fun x _ _ j _ => calm s && keyIn (chk s x j .core 64 16 .at 0) (coreKey 0 64))) ∧
    (let s := regs [(2, 64), (3, 2)] (atWord (.bara f0 ⟨.core, some 5, .v 2, some (.v 3)⟩))
    Alone s (.bara f0 ⟨.core, some 5, .v 2, some (.v 3)⟩) (fun x _ _ j _ => calm s && keyIn (chk s x j .core 64 16 .at 0) (coreKey 0 64))) ∧
    (let s := regs [(2, 64), (3, 2)] (atWord (.bart f0 ⟨.core, 1, .v 2, .v 3⟩))
    Alone s (.bart f0 ⟨.core, 1, .v 2, .v 3⟩) (fun x _ _ j _ => calm s && keyIn (chk s x j .core 64 16 .at 0) (coreKey 0 64))) ∧
    (let s := regs [(2, 64), (3, 2)] (atWord (.bartPoison f0 ⟨.core, 1, .v 2⟩))
    Alone s (.bartPoison f0 ⟨.core, 1, .v 2⟩) (fun x _ _ j _ => calm s && keyIn (chk s x j .core 64 16 .at 0) (coreKey 0 64))) ∧
    (let s := regs [(2, 64), (3, 2)] (atWord (.barp f0 ⟨.core, .v 2⟩))
    Alone s (.barp f0 ⟨.core, .v 2⟩) (fun x _ _ j _ => calm s && keyIn (chk s x j .core 64 16 .at 0) (coreKey 0 64))) :=
  ⟨alone_of (by decide), alone_of (by decide), alone_of (by decide), alone_of (by decide), alone_of (by decide)⟩
/-- States that meet the hypotheses of `BarrierInstructionsPerform`. -/
theorem meets_BarrierInstructionsPerform :
    (let s := (issued (regs [(2, 64), (3, 2), (4, 8)]) (.bari f0 ⟨.core, .team, 1, .v 2, .v 3, .v 4⟩)).put (coreKey 0 64) ([])
    InFlight s (fun _ _ o => !s.poisoned o.key 16 && Memory.wf s.mem && o.dst == writesOf o.i && bits (o.vals.getD 1 0) 27 24 == 0)) ∧
    (let s := (issued (regs [(2, 64), (3, 0x1000002), (4, 8)]) (.bari f0 ⟨.core, .team, 1, .v 2, .v 3, .v 4⟩)).put (coreKey 0 64) ([])
    InFlight s (fun _ _ o => !s.poisoned o.key 16 && Memory.wf s.mem && o.dst == writesOf o.i && bits (o.vals.getD 1 0) 27 24 == 1 && decide (s.dogsAt (s.barAgent o.key) < 32))) ∧
    (let s := (issued (regs [(2, 64), (3, 3), (4, 8)]) (.bara f0 ⟨.core, some 5, .v 2, some (.v 3)⟩)).put (coreKey 0 64) ((BarObj.enc ⟨0, 2, 8, 0⟩))
    InFlight s (fun _ _ o => !s.poisoned o.key 16 && Memory.wf s.mem && o.dst == writesOf o.i && !(s.barObj o.key).poison && decide ((s.barObj o.key).arr + 1 ≤ (s.barObj o.key).expa) && decide ((s.barObj o.key).bytes + 3 ≤ (s.barObj o.key).expb))) ∧
    (let s := (issued (regs [(2, 64), (3, 3), (4, 8)]) (.bara f0 ⟨.core, some 5, .v 2, some (.v 3)⟩)).put (coreKey 0 64) ((BarObj.enc ⟨256, 2, 8, 5⟩))
    InFlight s (fun _ _ o => !s.poisoned o.key 16 && Memory.wf s.mem && o.dst == writesOf o.i && !(s.barObj o.key).poison && (s.barObj o.key).arr + 1 == (s.barObj o.key).expa && (s.barObj o.key).bytes + 3 == (s.barObj o.key).expb)) ∧
    (let s := (issued (regs [(2, 64), (3, 3), (4, 8)]) (.bara f0 ⟨.core, some 5, .v 2, some (.v 3)⟩)).put (coreKey 0 64) ((BarObj.enc ⟨512, 2, 8, 5⟩))
    InFlight s (fun _ _ o => !s.poisoned o.key 16 && Memory.wf s.mem && o.dst == writesOf o.i && !(s.barObj o.key).poison && decide ((s.barObj o.key).expa < (s.barObj o.key).arr + 1))) ∧
    (let s := (issued (regs [(2, 64), (3, 3), (4, 8)]) (.bara f0 ⟨.core, some 5, .v 2, some (.v 3)⟩)).put (coreKey 0 64) ((BarObj.enc ⟨256, 2, 8, 7⟩))
    InFlight s (fun _ _ o => !s.poisoned o.key 16 && Memory.wf s.mem && o.dst == writesOf o.i && !(s.barObj o.key).poison && decide ((s.barObj o.key).arr + 1 ≤ (s.barObj o.key).expa) && decide ((s.barObj o.key).expb < (s.barObj o.key).bytes + 3))) ∧
    (let s := (issued (regs [(2, 64), (3, 3), (4, 8)]) (.bara f0 ⟨.core, some 5, .v 2, some (.v 3)⟩)).put (coreKey 0 64) ((BarObj.enc ⟨258, 2, 8, 7⟩))
    InFlight s (fun _ _ o => !s.poisoned o.key 16 && Memory.wf s.mem && o.dst == writesOf o.i && (s.barObj o.key).poison)) ∧
    (let s := (issued (regs [(2, 64), (3, 0), (4, 8)]) (.bart f0 ⟨.core, 1, .v 2, .v 3⟩)).put (coreKey 0 64) ((BarObj.enc ⟨1, 2, 8, 0⟩))
    InFlight s (fun _ _ o => !s.poisoned o.key 16 && Memory.wf s.mem && o.dst == writesOf o.i && (s.barObj o.key).phase)) ∧
    (let s := (issued (regs [(2, 64), (3, 0), (4, 8)]) (.bartPoison f0 ⟨.core, 1, .v 2⟩)).put (coreKey 0 64) ((BarObj.enc ⟨3, 2, 8, 0⟩))
    InFlight s (fun _ _ o => !s.poisoned o.key 16 && Memory.wf s.mem && o.dst == writesOf o.i && (s.barObj o.key).poison)) ∧
    (let s := (issued (regs [(2, 64), (3, 0), (4, 8)]) (.barp f0 ⟨.core, .v 2⟩)).put (coreKey 0 64) ((BarObj.enc ⟨1, 2, 8, 0⟩))
    InFlight s (fun _ _ o => !s.poisoned o.key 16 && Memory.wf s.mem && o.dst == writesOf o.i && true)) :=
  ⟨pending_of (by decide), pending_of (by decide), pending_of (by decide), pending_of (by decide), pending_of (by decide), pending_of (by decide), pending_of (by decide), pending_of (by decide), pending_of (by decide), pending_of (by decide)⟩
/-- States that meet the hypotheses of `BarwCompletes`. -/
theorem meets_BarwCompletes :
    (let s := (regs [(2, 64), (3, 0)] (atWord (.barw {} ⟨.core, 1, .v 2, .v 3⟩))).put (coreKey 0 64) (BarObj.enc ⟨1, 2, 8, 0⟩)
    Alone s (.barw {} ⟨.core, 1, .v 2, .v 3⟩) (fun x _ _ j t => !t.inSection && t.waits.isEmpty && t.pend.isEmpty && !s.poisoned (coreKey 0 64) 16 && keyIn (chk s x j .core 64 16 .at 0) (coreKey 0 64) && (s.barObj (coreKey 0 64)).phase)) ∧
    (let s := (regs [(2, 64), (3, 0)] (atWord (.barw {} ⟨.core, 1, .v 2, .v 3⟩))).put (coreKey 0 64) (BarObj.enc ⟨2, 2, 8, 0⟩)
    Alone s (.barw {} ⟨.core, 1, .v 2, .v 3⟩) (fun x _ _ j t => !t.inSection && t.waits.isEmpty && t.pend.isEmpty && !s.poisoned (coreKey 0 64) 16 && keyIn (chk s x j .core 64 16 .at 0) (coreKey 0 64) && !(s.barObj (coreKey 0 64)).phase && (s.barObj (coreKey 0 64)).poison)) ∧
    (let s := (regs [(2, 64), (3, 0)] (atWord (.barw {} ⟨.core, 1, .v 2, .v 3⟩))).put (coreKey 0 64) (BarObj.enc ⟨0, 2, 8, 0⟩)
    Alone s (.barw {} ⟨.core, 1, .v 2, .v 3⟩) (fun x _ _ j t => !t.inSection && t.waits.isEmpty && t.pend.isEmpty && !s.poisoned (coreKey 0 64) 16 && keyIn (chk s x j .core 64 16 .at 0) (coreKey 0 64) && !(s.barObj (coreKey 0 64)).phase && !(s.barObj (coreKey 0 64)).poison)) :=
  ⟨alone_of (by decide), alone_of (by decide), alone_of (by decide)⟩
/-- A team with an engine event on the object at 64 (R205), and with a watchdog armed on it that has run out (R207). -/
def withEvent (poison : Nat) : State :=
  (inTeam (fun tm => { tm with events := [⟨9, coreKey 0 64, 1, 8, poison, []⟩] }) (atWord (.nop {} 0))).put (coreKey 0 64)
    (BarObj.enc ⟨0, 1, 8, 0⟩)
def withDog : State :=
  { (atWord (.nop {} 0)).put (coreKey 0 64) (BarObj.enc ⟨256, 2, 8, 0⟩) with
    dogs := [⟨9, coreKey 0 64, 2, 64, 0, true, 0, 0, 0, 0, 0, 0, 0, 0, 0, 0, 10, 0⟩] }
/-- States that meet the hypotheses of `BarrierEventsAndWatchdogs`. -/
theorem meets_BarrierEventsAndWatchdogs :
    ((let s := withEvent 0; match s.team? 0 with | some tm => (tm.events.find? fun q => q.id == 9).isSome && s.runs tm.asid && !s.poisoned (coreKey 0 64) 16 && Memory.wf s.mem | none => false) = true) ∧
    ((let s := withEvent 2; match s.team? 0 with | some tm => (tm.events.find? fun q => q.id == 9).isSome && s.runs tm.asid && !s.poisoned (coreKey 0 64) 16 && Memory.wf s.mem | none => false) = true) ∧
    (((withDog.dogs.find? fun d => d.id == 9 && d.left == 0 && withDog.dogCounts d && withDog.runs d.asid).isSome && (withDog.team? 0).isSome && Memory.wf withDog.mem && !withDog.poisoned (match withDog.dogs with | d :: _ => d.key | [] => 0) 16) = true) :=
  ⟨by decide, by decide, by decide⟩
/-- A queue of depth 2 and 16-byte elements over the core share (R216, R217). -/
def q8 : QReg := { alw := 1, occ := 1, conf := true, base := 256, depth := 2, esize := 2 }
def queued (q : QReg) (s : State) : State := inTeam (fun tm => { tm with queues := tm.queues.set 8 q }) s
/-- A record in result queue 1, and a record held for it (R215). -/
def aRec : QRec := ⟨natLe 4 7 ++ natLe 4 8 ++ natLe 4 9 ++ natLe 4 10, []⟩
/-- States that meet the hypotheses of `QueueInstructionsIssue`. -/
theorem meets_QueueInstructionsIssue :
    (let s := regs [(2, 64)] (atWord (.qcfgSet f0 ⟨8, .v 2⟩))
    Alone s (.qcfgSet f0 ⟨8, .v 2⟩) (fun x _ _ j _ => calm s && keyIn (chk s x j .core 64 16 .rd 0) (coreKey 0 64))) ∧
    (let s := regs [(2, 1)] (atWord (.qcfgGrant f0 ⟨8, .v 2⟩))
    Alone s (.qcfgGrant f0 ⟨8, .v 2⟩) (fun _ _ _ _ _ => calm s)) ∧
    (let s := atWord (.qcfgStat f0 ⟨8, 4⟩)
    Alone s (.qcfgStat f0 ⟨8, 4⟩) (fun _ _ _ _ _ => calm s)) ∧
    (let s := atWord (.qcfgOff f0 8)
    Alone s (.qcfgOff f0 8) (fun _ _ _ _ _ => calm s)) ∧
    (let s := queued q8 (atWord (.qtry f0 ⟨8, 10, 1⟩))
    Alone s (.qtry f0 ⟨8, 10, 1⟩) (fun _ tm cr _ _ => calm s && decide (10 + tm.popRegs 8 ≤ cr.budget))) ∧
    (let s := queued q8 (regs [(10, 5), (11, 6)] (atWord (.qpush {} ⟨8, 10⟩)))
    Alone s (.qpush {} ⟨8, 10⟩) (fun _ tm cr _ t => calm s && t.pend.isEmpty && t.waits.isEmpty && !t.inSection && t.badRegs.isEmpty && decide (10 + tm.popRegs 8 ≤ cr.budget) && Memory.wf s.mem && t.v.length == cr.budget && tm.queues.length == 32 && tm.qRoom 8 && decide ((tm.queue 8).esize ≤ 4) && s.qSlot tm (tm.queue 8) (tm.queue 8).pushi == [(coreKey 0 256, (tm.queue 8).bytes)])) ∧
    (let s := queued {} (regs [(10, 5), (11, 6)] (atWord (.qpush {} ⟨8, 10⟩)))
    Alone s (.qpush {} ⟨8, 10⟩) (fun _ tm cr _ t => calm s && t.pend.isEmpty && t.waits.isEmpty && !t.inSection && t.badRegs.isEmpty && decide (10 + tm.popRegs 8 ≤ cr.budget) && Memory.wf s.mem && t.v.length == cr.budget && tm.queues.length == 32 && !tm.qRoom 8)) ∧
    (let s := (queued q8 (atWord (.qpop {} ⟨8, 10⟩))).put (coreKey 0 256) (natLe 4 5 ++ natLe 4 6)
    Alone s (.qpop {} ⟨8, 10⟩) (fun _ tm cr _ t => calm s && t.pend.isEmpty && t.waits.isEmpty && !t.inSection && t.badRegs.isEmpty && decide (10 + tm.popRegs 8 ≤ cr.budget) && Memory.wf s.mem && t.v.length == cr.budget && tm.queues.length == 32 && decide (0 < (tm.queue 8).occ) && (s.qSlot tm (tm.queue 8) (tm.queue 8).popi).all fun p => !s.poisoned p.1 p.2)) ∧
    (let s := queued {} (atWord (.qpop {} ⟨8, 10⟩))
    Alone s (.qpop {} ⟨8, 10⟩) (fun _ tm cr _ t => calm s && t.pend.isEmpty && t.waits.isEmpty && !t.inSection && t.badRegs.isEmpty && decide (10 + tm.popRegs 8 ≤ cr.budget) && Memory.wf s.mem && t.v.length == cr.budget && tm.queues.length == 32 && tm.qOcc 8 == 0)) :=
  ⟨alone_of (by decide), alone_of (by decide), alone_of (by decide), alone_of (by decide), alone_of (by decide), alone_of (by decide), alone_of (by decide), alone_of (by decide), alone_of (by decide)⟩
/-- States that meet the hypotheses of `QueueInstructionsPerform`. -/
theorem meets_QueueInstructionsPerform :
    (let s := (issued (regs [(2, 64)]) (.qcfgSet f0 ⟨8, .v 2⟩)).put (coreKey 0 64) (natLe 4 256 ++ natLe 2 2 ++ natLe 2 2 ++ natLe 1 2)
    InFlight s (fun tm t o => t.pend == [o] && t.waits.isEmpty && !s.poisoned o.key 16 && (s.qBlock tm o.key).isSome)) ∧
    (let s := issued (fun s => queued { q8 with held := 3 } (regs [(2, 1)] s)) (.qcfgGrant f0 ⟨8, .v 2⟩)
    InFlight s (fun tm t o => t.pend == [o] && t.waits.isEmpty && (tm.queue 8).conf && decide (o.ea ≤ (tm.queue 8).held))) ∧
    (let s := id (issued (queued q8) (.qcfgStat f0 ⟨8, 4⟩))
    InFlight s (fun _ t o => t.pend == [o] && t.waits.isEmpty && o.dst == [4, 5])) ∧
    (let s := id (issued (queued q8) (.qcfgOff f0 8))
    InFlight s (fun _ t o => t.pend == [o] && t.waits.isEmpty && true)) ∧
    (let s := issued id (.qtry f0 ⟨9, 10, 1⟩)
    InFlight s (fun tm t o => t.pend == [o] && t.waits.isEmpty && tm.qOcc 9 == 0)) ∧
    (let s := issued (inTeam fun tm => { tm with recs := tm.recs.set 1 [aRec] }) (.qtry f0 ⟨1, 10, 1⟩)
    InFlight s (fun tm t o => t.pend == [o] && t.waits.isEmpty && tm.recs.getD 1 [] == [aRec] && decide (10 + 4 ≤ t.v.length))) :=
  ⟨pending_of (by decide), pending_of (by decide), pending_of (by decide), pending_of (by decide), pending_of (by decide), pending_of (by decide)⟩
/-- States that meet the hypotheses of `ResultRecordsPost`. -/
theorem meets_ResultRecordsPost :
    ((let s := inTeam (fun tm => { tm with posts := [⟨1, aRec, none⟩] }) (atWord (.nop {} 0)); match s.team? 0 with | some tm => (tm.posts.find? fun p => p.q == 1).isSome && decide ((tm.recs.getD 1 []).length < 64) && decide (1 < tm.recs.length) && s.runs tm.asid && tm.events.isEmpty | none => false) = true) :=
  by decide
/-- A context with a counter window of 4 counters from 16 on (R222). -/
def counted (s : State) : State := inCtx (fun c => { c with r := { c.r with sqb := 16, sqn := 4 } }) s
/-- States that meet the hypotheses of `SequenceCountersComplete`. -/
theorem meets_SequenceCountersComplete :
    (let s := counted (regs [(2, 1), (4, 5)] (atWord (.sqadd f0 ⟨.chip, false, .v 2, .v 4⟩)))
    Alone s (.sqadd f0 ⟨.chip, false, .v 2, .v 4⟩) (fun _ tm _ _ _ => s.ctrIn tm.asid 1 == some 17)) ∧
    (let s := counted (regs [(2, 1), (4, 5)] (atWord (.sqrd f0 ⟨.chip, 4, .v 2⟩)))
    Alone s (.sqrd f0 ⟨.chip, 4, .v 2⟩) (fun _ tm _ _ _ => s.ctrIn tm.asid 1 == some 17)) ∧
    (let s := (counted (regs [(2, 1), (4, 5)] (atWord (.sqwait {} ⟨.chip, false, .v 2, .v 4⟩)))).put (chipKey 136) [5]
    Alone s (.sqwait {} ⟨.chip, false, .v 2, .v 4⟩) (fun _ tm _ _ t => s.ctrIn tm.asid 1 == some 17 && !t.inSection && !s.poisoned (chipKey 136) 8 && t.waits.isEmpty && t.pend.isEmpty && decide (5 ≤ s.counter 17))) ∧
    (let s := (counted (regs [(2, 1), (4, 5)] (atWord (.sqwait {} ⟨.chip, false, .v 2, .v 4⟩)))).put (chipKey 136) [4]
    Alone s (.sqwait {} ⟨.chip, false, .v 2, .v 4⟩) (fun _ tm _ _ t => s.ctrIn tm.asid 1 == some 17 && !t.inSection && !s.poisoned (chipKey 136) 8 && t.waits.isEmpty && t.pend.isEmpty && decide (s.counter 17 < 5))) ∧
    (let s := (issued (fun s => counted (regs [(2, 1), (4, 5)] s)) (.sqadd f0 ⟨.chip, false, .v 2, .v 4⟩)).put (chipKey 136) (natLe 8 (2 ^ 64 - 3))
    InFlight s (fun _ t o => t.pend == [o] && o.vals.getD 1 0 == 17 && o.key == chipKey 136 && !s.poisoned o.key 8 && Memory.wf s.mem)) ∧
    (let s := (issued (fun s => counted (regs [(2, 1), (4, 5)] s)) (.sqrd f0 ⟨.chip, 4, .v 2⟩)).put (chipKey 136) (natLe 8 (2 ^ 64 - 3))
    InFlight s (fun _ t o => t.pend == [o] && o.vals.getD 1 0 == 17 && o.key == chipKey 136 && !s.poisoned o.key 8 && Memory.wf s.mem && o.dst == [4, 5])) :=
  ⟨alone_of (by decide), alone_of (by decide), alone_of (by decide), alone_of (by decide), pending_of (by decide), pending_of (by decide)⟩
/-- A descriptor of 16 bytes in one dimension over the core share, and of rows for CPG (R233). -/
def rowShape (n : Nat) : Shape := { base := 0, e := 1, ndim := n, swz := 0, tsp := 1, size := [16, if n = 1 then 1 else 4, 1, 1, 1], strd := [0, if n = 1 then 0 else 16, 0, 0, 0], box := [16, 1, 1, 1, 1] }
def lineBytes : List Byte := natLe 8 0 ++ [0, 1, 0, 1] ++ natLe 4 16 ++ natLe 4 1 ++ natLe 4 1 ++ natLe 4 1 ++ natLe 4 1 ++ List.replicate 20 0 ++
  natLe 2 16 ++ natLe 2 1 ++ natLe 2 1 ++ natLe 2 1 ++ natLe 2 1 ++ [0, 0]
def shaped (n : Nat) (s : State) : State := inTeam (fun tm => { tm with shapes := tm.shapes.set 1 (some (rowShape n)) }) s
/-- States that meet the hypotheses of `CopyInstructionsIssue`. -/
theorem meets_CopyInstructionsIssue :
    (let s := regs [(2, 64), (4, 128), (6, 3)] (atWord (.cpl {} ⟨2, .core, .core, .v 2, .v 4, .v 6⟩))
    Alone s (.cpl {} ⟨2, .core, .core, .v 2, .v 4, .v 6⟩) (fun _ tm cr j t => calm s && cr.bound 0 && !t.batchFull && t.batches.length == 8 && s.started.badOpnd tm j [⟨.core, 64, 16, 16⟩, ⟨.core, 128, 3, 16⟩] == none && t.openBatch == none)) ∧
    (let s := inThr (fun t => { t with batches := t.batches.set 3 { num := 3, state := 1, copies := 1 }, nextBatch := 4 }) (regs [(2, 64), (4, 128), (6, 3)] (atWord (.cpl {} ⟨2, .core, .core, .v 2, .v 4, .v 6⟩)))
    Alone s (.cpl {} ⟨2, .core, .core, .v 2, .v 4, .v 6⟩) (fun _ tm cr j t => calm s && cr.bound 0 && !t.batchFull && t.batches.length == 8 && s.started.badOpnd tm j [⟨.core, 64, 16, 16⟩, ⟨.core, 128, 3, 16⟩] == none && t.openBatch == some 3)) ∧
    (let s := shaped 1 (regs [(2, 64), (5, 0), (6, 128), (8, 2), (9, 1)] (atWord (.cpt f0 ⟨1, false, false, false, .v 2, 8, .v 6⟩)))
    Alone s (.cpt f0 ⟨1, false, false, false, .v 2, 8, .v 6⟩) (fun _ tm cr j t => calm s && cr.bound 0 && true && tm.shapes.getD 1 none == some (rowShape 1) && decide (8 + (rowShape 1).ndim ≤ cr.budget) && t.badRegs.isEmpty && s.started.badOpnd tm j [⟨.core, 128, 48, 16⟩] == none && s.started.tileLate tm ⟨1, false, false, false, 1, 64, 8, 128, 0⟩ (rowShape 1) == none)) ∧
    (let s := shaped 1 (regs [(2, 64), (5, 4097), (6, 128), (8, 2), (9, 1)] (atWord (.cpm f0 ⟨1, false, false, .v 2, 8, .v 6, .v 5⟩)))
    Alone s (.cpm f0 ⟨1, false, false, .v 2, 8, .v 6, .v 5⟩) (fun _ tm cr j t => calm s && cr.bound 0 && s.cpmTeams tm 0x1001 == some [0] && tm.shapes.getD 1 none == some (rowShape 1) && decide (8 + (rowShape 1).ndim ≤ cr.budget) && t.badRegs.isEmpty && s.started.badOpnd tm j [⟨.core, 128, 48, 16⟩] == none && s.started.tileLate tm ⟨2, false, false, false, 1, 64, 8, 128, 4097⟩ (rowShape 1) == none)) ∧
    (let s := shaped 2 (regs [(2, 64), (5, 512), (6, 128), (8, 2), (9, 1)] (atWord (.cpg f0 ⟨1, false, false, .v 2, 8, .v 6, .v 5⟩)))
    Alone s (.cpg f0 ⟨1, false, false, .v 2, 8, .v 6, .v 5⟩) (fun _ tm cr j t => calm s && cr.bound 0 && true && tm.shapes.getD 1 none == some (rowShape 2) && decide (8 + (rowShape 2).ndim ≤ cr.budget) && t.badRegs.isEmpty && s.started.badOpnd tm j [⟨.core, 128, 48, 16⟩, ⟨.core, 512, 1, 4⟩] == none && s.started.tileLate tm ⟨3, false, false, false, 1, 64, 8, 128, 512⟩ (rowShape 2) == none)) :=
  ⟨alone_of (by decide), alone_of (by decide), alone_of (by decide), alone_of (by decide), alone_of (by decide)⟩
/-- States that meet the hypotheses of `BatchAndMapTestsComplete`. -/
theorem meets_BatchAndMapTestsComplete :
    (let s := inThr (fun t => { t with batches := t.batches.set 3 { num := 3, state := 1, copies := 1 }, nextBatch := 4 }) (atWord (.cpclose {}))
    Alone s (.cpclose {}) (fun _ _ _ _ t => calm s && t.openBatch == some 3)) ∧
    (let s := atWord (.cpwait {} 0)
    Alone s (.cpwait {} 0) (fun _ _ _ _ t => calm s && !t.inSection && t.waits.isEmpty && decide (t.closedBatches ≤ 0))) ∧
    (let s := inThr (fun t => { t with batches := t.batches.set 3 { num := 3, state := 2, copies := 1 }, nextBatch := 4 }) (atWord (.cpwait {} 0))
    Alone s (.cpwait {} 0) (fun _ _ _ _ t => calm s && !t.inSection && t.waits.isEmpty && decide (0 < t.closedBatches))) ∧
    (let s := (regs [(2, 64), (4, 5)] (atWord (.chkw {} ⟨.v 2, 4⟩))).put (coreKey 0 64) [7]
    Alone s (.chkw {} ⟨.v 2, 4⟩) (fun x _ _ j t => calm s && !t.inSection && t.waits.isEmpty && t.pend.isEmpty && keyIn (chk s x j .core 64 8 .rd 0) (coreKey 0 64) && !s.poisoned (coreKey 0 64) 8 && s.read (coreKey 0 64) 8 &&& 5 == 5)) ∧
    (let s := (regs [(2, 64), (4, 5)] (atWord (.chkw {} ⟨.v 2, 4⟩))).put (coreKey 0 64) [3]
    Alone s (.chkw {} ⟨.v 2, 4⟩) (fun x _ _ j t => calm s && !t.inSection && t.waits.isEmpty && t.pend.isEmpty && keyIn (chk s x j .core 64 8 .rd 0) (coreKey 0 64) && !s.poisoned (coreKey 0 64) 8 && s.read (coreKey 0 64) 8 &&& 5 != 5)) ∧
    (let s := (regs [(2, 64), (4, 5)] (atWord (.chkt f0 ⟨1, .v 2, 4⟩))).put (coreKey 0 64) [7]
    Alone s (.chkt f0 ⟨1, .v 2, 4⟩) (fun x _ _ j _ => calm s && keyIn (chk s x j .core 64 8 .rd 0) (coreKey 0 64))) ∧
    (let s := (issued (regs [(2, 64), (4, 5)]) (.chkt f0 ⟨1, .v 2, 4⟩)).put (coreKey 0 64) [7]
    InFlight s (fun _ _ o => !s.poisoned o.key 8)) :=
  ⟨alone_of (by decide), alone_of (by decide), alone_of (by decide), alone_of (by decide), alone_of (by decide), alone_of (by decide), pending_of (by decide)⟩
/-- The block of a sort of two 32-bit keys and values in the core share (R245). -/
def sortBytes (keys vals : Nat) : List Byte := natLe 8 keys ++ natLe 8 vals ++ natLe 8 1024 ++ natLe 8 1088 ++ natLe 4 2 ++ [2, 0, 0, 0] ++ natLe 4 0 ++ natLe 4 0
/-- States that meet the hypotheses of `TensorSlotsAndSortsComplete`. -/
theorem meets_TensorSlotsAndSortsComplete :
    (let s := regs [(2, 64)] (paged (atWord (.tload f0 ⟨1, .v 2⟩)))
    Alone s (.tload f0 ⟨1, .v 2⟩) (fun x tm _ j _ => s.started.resolve tm j (x.crew == 7) .mem 64 1 .rd == .ok 64)) ∧
    (let s := shaped 1 (atWord (.tevict {} 1))
    Alone s (.tevict {} 1) (fun _ tm _ _ _ => tm.shapes.getD 1 none != none)) ∧
    (let s := regs [(2, 64)] (atWord (.sort f0 (.v 2)))
    Alone s (.sort f0 (.v 2)) (fun _ tm cr j _ => cr.bound 0 && s.started.badOpnd tm j [⟨.core, 64, 48, 16⟩] == none && (match s.scratchKey tm j .core 64 with | .ok k => k == coreKey 0 64 | .error _ => false))) ∧
    (let s := (issued (fun s => regs [(2, 64)] (paged s)) (.tload f0 ⟨1, .v 2⟩)).put 64 lineBytes
    InFlight s (fun tm _ o => !isPeer o.key && (s.coreStores tm.core o.key o.len).isEmpty && !s.poisoned o.key o.len && shapeOf (s.bytes o.key o.len) == some (rowShape 1))) ∧
    (let s := (issued (fun s => regs [(2, 64)] (paged s)) (.tload f0 ⟨1, .v 2⟩))
    InFlight s (fun tm _ o => !isPeer o.key && (s.coreStores tm.core o.key o.len).isEmpty && !s.poisoned o.key o.len && shapeOf (s.bytes o.key o.len) == none)) ∧
    (let s := (issued (regs [(2, 64)]) (.sort f0 (.v 2))).put (coreKey 0 64) (sortBytes 512 576)
    InFlight s (fun tm _ o => !isPeer o.key && (s.coreStores tm.core o.key o.len).isEmpty && !s.poisoned o.key o.len && (match sortBlock tm o 0 (s.bytes o.key o.len) s.nextId with | some q => !q.bar && !q.ibarOn | none => false))) :=
  ⟨alone_of (by decide), alone_of (by decide), alone_of (by decide), pending_of (by decide), pending_of (by decide), pending_of (by decide)⟩
/-- A state with a per-lane copy of 3 bytes in flight, with a tile copy, and with a sort (R227, R236, R245). -/
def copying : State := (issued (fun s => (regs [(2, 64), (4, 128), (6, 3)] s)) (.cpl {} ⟨2, .core, .core, .v 2, .v 4, .v 6⟩)).put (coreKey 0 128) [7, 8, 9, 10]
def tiling : State :=
  inTeam (fun tm => { tm with copies := [{
      id := 5, o := ⟨0, 0xB1, 0, 0⟩, kind := 1, st := false, bar := false, post := false, sh := rowShape 1, xs := [64, 0, 0, 0, 0]
      d := 64, land := 128, list := 0, recvs := [⟨0, 0, true⟩] }] }) (atWord (.nop {} 0))
def sorting (f : SortJob → SortJob) : State :=
  let s := (issued (regs [(2, 64)]) (.sort f0 (.v 2))).put (coreKey 0 64) (sortBytes 512 576)
  inTeam (fun tm => { tm with sorts := tm.sorts.map f }) ((after (.flaggedCompletion ⟨0, 0, 2, false, none, [], true, false, 0⟩) s).put (coreKey 0 512) (natLe 4 9 ++ natLe 4 5))
/-- States that meet the hypotheses of `CopiesFinish`. -/
theorem meets_CopiesFinish :
    ((match copying.team? 0 with
    | some tm => match tm.cpls.head? with
      | some cp => !tm.pageWaiting cp.id && copying.engineOn tm false && Memory.wf copying.mem &&
        (match copying.cplDest tm cp ⟨[], true, false⟩, copying.cplSource tm cp ⟨[], true, false⟩ with
        | .ok k, .ok bs => !isPeer k && decide (bs.length ≤ cp.size)
        | _, _ => false)
      | none => false
    | none => false) = true) ∧
    ((let s := counted (inTeam (fun tm => { tm with pageWaits := [⟨7, 0⟩] }) (atWord (.nop {} 0))); match s.team? 0 with
    | some tm => tm.pageWaiting 7 && (match s.ctx? tm.asid with | some cx => decide (0 ≤ s.counter (cx.r.sqb + cx.r.psc)) | none => false)
    | none => false) = true) :=
  ⟨by decide, by decide⟩
/-- The hypotheses of `ChunksLand` but those about its pieces, which `p` gives; the pieces meet neither each other nor the landing block. -/
def landing (s : State) (p : Team → TileCopy → Option (List (Nat × List Byte))) : Bool :=
  match s.team? 0 with
  | some tm => match tm.copies.head? with
    | some cp => (cp.recvs.map fun r => (r.team, r.done, r.zeroed)) == [(0, 0, true)] && cp.buf.isEmpty && !tm.pageWaiting cp.id &&
      s.engineOn tm (cp.kind != 2) && decide (0 < cp.sh.chunks) && decide (cp.sh.chunks ≤ 256) && Memory.wf s.mem &&
      (match s.scratchKey tm 0 .core cp.land, p tm cp with
      | .ok key, some [z] => !overlap z.1 z.2.length key 48 && z.2.length == 16
      | _, _ => false)
    | none => false
  | none => false
/-- States that meet the hypotheses of `ChunksLand`: a chunk that is loaded, and one that is stored. -/
theorem meets_ChunksLand :
    (landing tiling (fun tm cp => match tiling.loadUnits tm cp ⟨[], true, false⟩ (chunkUnits cp.sh 0) 0 with
      | .ok us => some (((tiling.tileKeys tm cp.sh cp.d (chunkUnits cp.sh 0)).zip us).filterMap fun q => q.1.map fun k => (k, q.2))
      | .error _ => none) = true) ∧
    (let s := inTeam (fun tm => { tm with copies := tm.copies.map fun c => { c with st := true, xs := [0, 0, 0, 0, 0] } }) (paged tiling)
    landing s (fun tm cp => match s.storeUnits tm cp ⟨[], true, false⟩ (chunkUnits cp.sh 0) with
      | .ok ps => if cp.st then some ps else none
      | .error _ => none) = true) :=
  ⟨by decide, by decide⟩
/-- States that meet the hypotheses of `SortsRun`. -/
theorem meets_SortsRun :
    ((let s := sorting id; match s.team? 0 with
    | some tm => s.engineOn tm true && (match tm.sorts.head? with | some q => !q.started && !s.sorting (clusterOf tm.core) && !q.ibarOn | none => false) | none => false) = true) ∧
    ((let s := sorting (fun q => { q with started := true, ibar := 2 }); match s.team? 0 with
    | some tm => s.engineOn tm true && (match tm.sorts.head? with | some q => q.started && !s.sorting (clusterOf tm.core) | none => false) | none => false) = true) ∧
    ((let s := sorting (fun q => { q with started := true, going := true }); match s.team? 0 with
    | some tm => s.engineOn tm true && (match tm.sorts.head? with | some q => q.going && decide (q.passes < q.total) && !tm.pageWaiting q.id && (s.movePass tm q ⟨[], true, false⟩).isOk | none => false) | none => false) = true) ∧
    ((let s := sorting (fun q => { q with started := true, going := true, passes := q.total }); match s.team? 0 with
    | some tm => s.engineOn tm true && (match tm.sorts.head? with | some q => q.going && q.passes == q.total | none => false) | none => false) = true) :=
  by decide
/-- The block of an f16 operation of one pass on tile 1 (R256), and the state in which its MMX has issued. -/
def mxBytes : List Byte := natLe 4 256 ++ natLe 4 16 ++ natLe 4 0 ++ natLe 4 0 ++ natLe 4 0 ++ natLe 4 1 ++ [2, 2, 0, 1, 1, 1, 0, 0] ++ natLe 2 1 ++ List.replicate 30 0
def mxPlaced (s : State) : State := (inCrew (fun c => { c with threads := 64 }) (regs [(2, 64)] s)).put (coreKey 0 64) mxBytes
def multiplying (f : MxCmd → MxCmd) : State :=
  inTeam (fun tm => { tm with q0 := tm.q0.map f }) (issued mxPlaced (.mmx f0 (.v 2)))
/-- The command with its block; `k` passes are done where it has started. -/
def inHand (k : Nat) (run : Bool) (c : MxCmd) : MxCmd := { c with started := run, passes := k }
/-- States that meet the hypotheses of `MatrixCommandsEnterQ0`. -/
theorem meets_MatrixCommandsEnterQ0 :
    (let s := mxPlaced (atWord (.mmx f0 (.v 2)))
    Alone s (.mmx f0 (.v 2)) (fun _ tm cr j t => calm s && cr.bound 1 && decide (tm.q0.length < 16) && s.started.badOpnd tm j [⟨.core, 64, 64, 64⟩] == none && t.pend.isEmpty &&
    (match s.scratchKey tm j .core 64 with | .ok k => k == coreKey 0 64 | .error _ => false) && !s.poisoned (coreKey 0 64) 64 &&
    (let bs := s.bytes (coreKey 0 64) 64; mxBlockOk tm cr (mxBlock 64 bs) bs && s.started.badOpnd tm j (mxOpnds (mxBlock 64 bs)) == none))) ∧
    (let s := regs [(2, 64), (3, 0x01000004)] (atWord (.mmzero f0 ⟨1, false⟩))
    Alone s (.mmzero f0 ⟨1, false⟩) (fun _ tm cr _ _ => calm s && cr.bound 1 && decide (tm.q0.length < 16) && true)) ∧
    (let s := regs [(2, 64), (3, 0x100100)] (atWord (.mmld f0 ⟨1, false, .v 2, .v 3, none⟩))
    Alone s (.mmld f0 ⟨1, false, .v 2, .v 3, none⟩) (fun _ tm cr j _ => calm s && cr.bound 1 && decide (tm.q0.length < 16) && s.started.badOpnd tm j [⟨.core, 64, 512, 4⟩] == none && shapeOk 0x100100 && decide (256 ≤ shapeStride 0x100100) && epiOk 0 1 tm.tileShare true)) ∧
    (let s := regs [(2, 64), (3, 0x100100)] (atWord (.mmst f0 ⟨1, false, .v 2, .v 3, none⟩))
    Alone s (.mmst f0 ⟨1, false, .v 2, .v 3, none⟩) (fun _ tm cr _ _ => calm s && cr.bound 1 && decide (tm.q0.length < 16) && shapeOk 0x100100)) ∧
    (let s := regs [(2, 64), (3, 0x204)] (atWord (.mmrd f0 ⟨1, 1, 4, .v 3⟩))
    Alone s (.mmrd f0 ⟨1, 1, 4, .v 3⟩) (fun _ tm cr _ _ => calm s && cr.bound 1 && decide (tm.q0.length < 16) && mmrdCol 0x204 % 2 ^ 1 == 0)) :=
  ⟨alone_of (by decide), alone_of (by decide), alone_of (by decide), alone_of (by decide), alone_of (by decide)⟩
/-- Crew 0 with 64 threads. -/
def crowded (s : State) : State := inTeam (fun tm => { tm with threads := tm.threads ++ (List.range 63).map fun k => Thread.start 0 (k + 1) 256 16 .ready }) s
/-- States that meet the hypotheses of `MatrixOperationsRun`. -/
theorem meets_MatrixOperationsRun :
    ((let s := multiplying (inHand 0 false); match s.team? 0 with
    | some tm => s.engineOn tm tm.onlyMmx && (match tm.q0.head?, s.thr? 0 0 with | some q, some _ => (match q.blk with | some b => !q.started && !b.ibarOn && b.zero && tabOk 0 tm.acc && tabOk 0 tm.epi | none => false) | _, _ => false) | none => false) = true) ∧
    ((let s := crowded (multiplying (inHand 0 true)); match s.team? 0 with
    | some tm => s.engineOn tm tm.onlyMmx && (match tm.q0.head?, s.thr? 0 0 with | some q, some _ => (match q.blk with | some b => q.started && decide (q.passes < b.total) && (List.range b.mb).all (fun n => !(s.array tm.core n).gated) && (s.passResult tm q b q.passes).isSome | none => false) | _, _ => false) | none => false) = true) ∧
    ((let s := { crowded (multiplying (inHand 0 true)) with cores := (crowded (multiplying (inHand 0 true))).cores.modify 0 fun k => { k with arrays := k.arrays.modify 0 fun r => { r with gated := true } } }; match s.team? 0 with
    | some tm => s.engineOn tm tm.onlyMmx && (match tm.q0.head? with | some q => (match q.blk with | some b => q.started && decide (q.passes < b.total) && decide (0 < b.mb) && (s.array tm.core 0).gated && (s.array tm.core 0).waking == 0 && decide (tm.core < s.cores.length) && (match s.cores[tm.core]? with | some k => k.arrays.length == 4 | none => false) | none => false) | none => false) | none => false) = true) :=
  ⟨by decide, by decide, by decide⟩
/-- A matrix command at the head of Q0, and words in row 4 of tile 1. -/
def heading (v3 : Nat) (i : Instr) : State :=
  issued (fun s => inTeam (fun tm => (tm.accPut false 1 4 2 7).accPut false 1 4 3 9) (regs [(2, 64), (3, v3)] s)) i
/-- States that meet the hypotheses of `MatrixCommandsComplete`. -/
theorem meets_MatrixCommandsComplete :
    ((let s := multiplying (inHand 1 true); match s.team? 0 with
    | some tm => s.engineOn tm false && (match tm.q0.head?, s.thr? 0 0 with | some q, some t => !tm.pageWaiting q.id && (t.op? q.id).isSome && calm s && (match t.op? q.id with | some o => o.dst == writesOf o.i && o.i == q.i | none => false) && (match q.blk with | some b => q.started && decide (b.total ≤ q.passes) && !q.bad && !b.post && !b.bar | none => false) | _, _ => false) | none => false) = true) ∧
    ((let s := heading 0 (.mmzero f0 ⟨1, false⟩); match s.team? 0 with
    | some tm => s.engineOn tm false && (match tm.q0.head?, s.thr? 0 0 with | some q, some t => !tm.pageWaiting q.id && (t.op? q.id).isSome && calm s && (match t.op? q.id with | some o => o.dst == writesOf o.i && o.i == q.i | none => false) | _, _ => false) | none => false) = true) ∧
    ((let s := (heading 0x100100 (.mmld f0 ⟨1, false, .v 2, .v 3, none⟩)).put (coreKey 0 320) [1, 2, 3, 4, 5]; match s.team? 0 with
    | some tm => s.engineOn tm false && (match tm.q0.head?, s.thr? 0 0 with | some q, some t => !tm.pageWaiting q.id && (t.op? q.id).isSome && calm s && (match t.op? q.id with | some o => o.dst == writesOf o.i && o.i == q.i | none => false) && tabOk 0 tm.acc && (List.range 2).all fun r => s.coreAt tm (64 + r * 256) == some (coreKey 0 (64 + r * 256)) && !s.poisoned (coreKey 0 (64 + r * 256)) 256 | _, _ => false) | none => false) = true) ∧
    ((let s := heading 0x400100 (.mmst f0 ⟨1, false, .v 2, .v 3, none⟩); match s.team? 0 with
    | some tm => s.engineOn tm false && (match tm.q0.head?, s.thr? 0 0 with | some q, some t => !tm.pageWaiting q.id && (t.op? q.id).isSome && calm s && (match t.op? q.id with | some o => o.dst == writesOf o.i && o.i == q.i | none => false) && tm.epiOf 1 == 0 && !tm.tileBad 1 && !tm.tileBad 2 && decide (256 ≤ shapeStride 0x400100) && (s.mmstPieces tm false ((List.range (shapeRows 0x400100)).map fun r => (64 + r * shapeStride 0x400100, (mmstRow tm 1 0 r).1))).isOk | _, _ => false) | none => false) = true) ∧
    ((let s := heading 0x204 (.mmrd f0 ⟨1, 1, 4, .v 3⟩); match s.team? 0 with
    | some tm => s.engineOn tm false && (match tm.q0.head?, s.thr? 0 0 with | some q, some t => !tm.pageWaiting q.id && (t.op? q.id).isSome && calm s && (match t.op? q.id with | some o => o.dst == writesOf o.i && o.i == q.i | none => false) && !tm.tileBad 1 | _, _ => false) | none => false) = true) :=
  by decide
/-- States that meet the hypotheses of `ArrayPowerCompletes`. -/
theorem meets_ArrayPowerCompletes :
    (let s := atWord (.mmwake f0 3)
    Alone s (.mmwake f0 3) (fun _ _ cr _ _ => cr.bound 1)) ∧
    (let s := (atWord (.mmwake f0 3)).modArray 0 1 fun a => { a with gated := true }
    Alone s (.mmwake f0 3) (fun _ tm cr _ _ => cr.bound 1 && (s.array tm.core 1).gated && (s.array tm.core 1).waking == 0)) ∧
    (let s := atWord (.mmstat f0 ⟨true, 4⟩)
    Alone s (.mmstat f0 ⟨true, 4⟩) (fun _ _ _ _ _ => true)) ∧
    (let s := issued id (.mmwake f0 3)
    InFlight s (fun tm _ _ => (List.range 2).all fun q => !(s.array tm.core q).gated)) ∧
    (let s := issued (fun s => (inTeam (fun tm => { tm with mxSticky := 5, mxDone := 3 }) s).modArray 0 1 fun a => { a with gated := true }) (.mmstat f0 ⟨true, 4⟩)
    InFlight s (fun _ _ o => o.dst == [4, 5])) ∧
    ((let s := (atWord (.nop {} 0)).modArray 0 1 fun a => { a with idle := 0x800 }; (s.cores[0]?.map fun k => k.arrays.length == 4 && k.mxgate.toNat % 2 ^ 16 == 0x800) == some true && !(s.array 0 1).gated && decide (0x800 ≤ (s.array 0 1).idle) && !s.arrayBusy 0 1) = true) ∧
    ((let s := (atWord (.nop {} 0)).modArray 0 1 fun a => { a with gated := true, waking := 1 }; (s.cores[0]?.map fun k => k.arrays.length) == some 4 && (s.array 0 1).gated && (s.array 0 1).waking == 1) = true) :=
  ⟨alone_of (by decide), alone_of (by decide), alone_of (by decide), pending_of (by decide), pending_of (by decide), by decide, by decide⟩
/-- A fragment crew of one thread beside the general one, and a RAST in Q4 with a record in hand (R283 to R286). -/
def withFragCrew (s : State) : State := inTeam (fun tm => { tm with
  crews := tm.crews ++ [{ Crew.sample 1 2 .fragment with num := 1 }], threads := tm.threads ++ [Thread.start 1 0 256 16 .idle] }) s
def tri : TriRec := { verts := [(0, 0), (4096, 0), (0, 4096)], z := [0, 0, 0], pseq := 3, attrb := 0, nattr := 2 }
def triBytes : List Byte := natLe 4 0 ++ natLe 4 0 ++ natLe 4 4096 ++ natLe 4 0 ++ natLe 4 0 ++ natLe 4 4096 ++ natLe 4 0 ++ natLe 4 0 ++ natLe 4 0 ++
  natLe 4 3 ++ natLe 8 0 ++ natLe 2 2 ++ List.replicate 14 0
def aRast : RastCmd := { id := 7, o := ⟨0, 0xD0, 0, 0⟩, block := 64, bin := 128, entry := 512, count := 1, tx := 0, ty := 0, flags := 8, obar := 0 }
def rastering (f : RastCmd → RastCmd) (s : State) : State := inTeam (fun tm => { tm with rasts := [f aRast] }) (withFragCrew s)
/-- The block of that RAST, with the tag 5 of its entry. -/
def rastBytes : List Byte := natLe 8 128 ++ natLe 8 512 ++ natLe 4 1 ++ natLe 2 0 ++ natLe 2 0 ++ natLe 2 8 ++ natLe 2 5 ++ natLe 4 0
def padHeader : Nat := 2 ^ 38 + 5 * 2 ^ 39
/-- States that meet the hypotheses of `RasterCommandsRun`. -/
theorem meets_RasterCommandsRun :
    (let s := regs [(2, 64)] (atWord (.rast f0 (.v 2)))
    Alone s (.rast f0 (.v 2)) (fun _ tm cr j _ => cr.bound 2 && s.started.badOpnd tm j [⟨.core, 64, 32, 32⟩] == none && (s.scratchKey tm j .core 64).isOk)) ∧
    (let s := ((issued (fun s => withFragCrew (regs [(2, 64)] (paged s))) (.rast f0 (.v 2))).put (coreKey 0 64) rastBytes).put 512 (natLe 8 padHeader)
    InFlight s (fun tm t o => t.pend == [o] && (s.coreStores tm.core o.key o.len).isEmpty && !s.poisoned o.key o.len && (match s.ctx? tm.asid with
    | some cx => let q := rastBlock tm o 0 (s.bytes o.key o.len) s.nextId
      rastOk tm q (fld (s.bytes o.key o.len) 26 2) && !q.bar && q.entry % 8 == 0 && fld (s.bytes o.key o.len) 26 2 == 5 &&
        (match s.fetchWord cx tm.core q.entry (t.crew == 7) with | .ok h => hdrPad h && hdrTag h == 5 | _ => false)
    | none => false))) ∧
    ((let s := (rastering id (paged (atWord (.nop {} 0)))).put 128 triBytes; match s.team? 0 with
    | some tm => s.engineOn tm true && (match tm.rasts.head? with | some q => !tm.pageWaiting q.id && tm.rasting == some q && q.cur.isNone && q.bin % 64 == 0 && s.resolve tm 0 false .mem (q.bin + 64 * q.idx) 1 .rd == .ok 128 && !s.poisoned 128 64 && !s.outAt 128 64 && triRec (s.bytes 128 64) == some tri | none => false) | none => false) = true) ∧
    ((let s := (rastering id (paged (atWord (.nop {} 0)))).put 128 [1, 0, 0, 0x40]; match s.team? 0 with
    | some tm => s.engineOn tm true && (match tm.rasts.head? with | some q => !tm.pageWaiting q.id && tm.rasting == some q && q.cur.isNone && q.bin % 64 == 0 && s.resolve tm 0 false .mem (q.bin + 64 * q.idx) 1 .rd == .ok 128 && !s.poisoned 128 64 && !s.outAt 128 64 && triRec (s.bytes 128 64) == none | none => false) | none => false) = true) ∧
    ((let s := rastering (fun q => { q with cur := some tri }) (atWord (.nop {} 0)); match s.team? 0 with
    | some tm => s.engineOn tm true && (match tm.rasts.head? with | some q => !tm.pageWaiting q.id && tm.rasting == some q && q.cur == some tri && q.nextPixel tri == some 0 && (match s.thr? 0 2, tm.fragCrew with | some t, some cr => t.crew == cr.num && t.status == .idle && !t.dbg.halted && t.dbg.req.isNone && decide (8 ≤ cr.budget) | _, _ => false) | none => false) | none => false) = true) ∧
    ((let s := rastering (fun q => { q with idx := 1, frags := 4 }) (atWord (.nop {} 0)); match s.team? 0 with
    | some tm => s.engineOn tm true && (match tm.rasts.head? with | some q => !tm.pageWaiting q.id && (tm.rasts.find? fun c => c.over && tm.threads.all fun t => (t.frag.map fun f => f.rast) != some c.id) == some q && q.stop.isNone && !q.bar && q.post | none => false) | none => false) = true) :=
  ⟨alone_of (by decide), pending_of (by decide), by decide, by decide, by decide, by decide⟩
/-- The thread with a fragment at pixel (1, 2) (R287). -/
def frag (f : Frag → Frag) (s : State) : State :=
  inThr (fun t => { t with frag := some (f ⟨7, 3, 0, 0, 1, 2, 1, [(0, 0), (4096, 0), (0, 4096)], 64, 2, false, false, false⟩) }) s
/-- States that meet the hypotheses of `FragmentInstructionsComplete`. -/
theorem meets_FragmentInstructionsComplete :
    (let s := frag id (regs [(2, 2)] (atWord (.attr f0 ⟨false, 4, .v 2⟩)))
    Alone s (.attr f0 ⟨false, 4, .v 2⟩) (fun _ _ _ _ t => (t.frag.map fun f => decide (f.nattr ≤ 2)) == some true)) ∧
    (let s := frag id (regs [(2, 1)] (paged (atWord (.attr f0 ⟨false, 4, .v 2⟩))))
    Alone s (.attr f0 ⟨false, 4, .v 2⟩) (fun x tm _ j t => (match t.frag with | some f => decide (1 < f.nattr) && (match s.started.attrKeys tm j (x.crew == 7) (attrAddrs f 1) with | .ok ks => ks == [76, 80, 84] | .error _ => false) | none => false))) ∧
    (let s := (issued (fun s => frag id (regs [(2, 1)] (paged s))) (.attr f0 ⟨false, 4, .v 2⟩)).put 76 (natLe 4 0x3F800000 ++ natLe 4 0x3F800000 ++ natLe 4 0x3F800000)
    InFlight s (fun _ t o => t.frag.isSome && o.vals == [76, 76, 80, 84] && [76, 80, 84].all fun k => !isPeer k && !s.poisoned k 4)) ∧
    (let s := frag id (atWord (.oenter {}))
    Alone s (.oenter {}) (fun _ tm _ _ t => (match t.frag with | some f => !f.entered && t.waits.isEmpty && sectionFree tm f | none => false))) ∧
    (let s := (fun s => s.modThr 0 1 fun t => { t with frag := some ⟨7, 2, 0, 0, 1, 2, 1, [], 0, 0, false, false, false⟩ }) (frag id (atWord (.oenter {})))
    Alone s (.oenter {}) (fun _ tm _ _ t => (match t.frag with | some f => !f.entered && !sectionFree tm f | none => false))) ∧
    (let s := frag id (atWord (.oleave {}))
    Alone s (.oleave {}) (fun _ _ _ _ t => (t.frag.map fun f => f.holds) == some false)) ∧
    (let s := frag (fun f => { f with entered := true, holds := true }) (atWord (.oleave {}))
    Alone s (.oleave {}) (fun _ _ _ _ t => (t.frag.map fun f => f.holds) == some true && t.pend.isEmpty && t.waits.isEmpty)) :=
  ⟨alone_of (by decide), alone_of (by decide), pending_of (by decide), alone_of (by decide), alone_of (by decide), alone_of (by decide), alone_of (by decide)⟩
/-- A tile target of 4 by 4 pixels with one shelf (R295), its block, and the shelf word at 512. -/
def aTarget : Target := ⟨64, false, 256, 512, 0, 0, 4, 4, 1, 4, 0, true, 0⟩
def targetBytes (shelves : Nat) : List Byte := natLe 8 256 ++ natLe 8 512 ++ natLe 4 0 ++ natLe 4 0 ++ natLe 2 4 ++ natLe 2 4 ++ natLe 4 shelves ++ natLe 4 0 ++ natLe 4 0 ++
  [4, 0, 2, 0] ++ List.replicate 20 0
def targeted (s : State) : State :=
  (inTeam (fun tm => { tm with targets := [some aTarget, none, none, none] }) s).put (coreKey 0 512) (natLe 8 4096 ++ natLe 8 8192)
/-- Every head word of the target empty (R296). -/
def emptied (s : State) : State := s.put (coreKey 0 256) ((List.range 16).flatMap fun _ => natLe 4 0xFFFFFF)
/-- States that meet the hypotheses of `TargetInstructionsIssue`. -/
theorem meets_TargetInstructionsIssue :
    (let s := regs [(2, 64)] (atWord (.flcfgSet f0 ⟨0, false, .v 2⟩))
    Alone s (.flcfgSet f0 ⟨0, false, .v 2⟩) (fun _ tm _ j _ => s.started.badOpnd tm j [⟨.core, 64, 64, 64⟩] == none && (s.scratchKey tm j .core 64).isOk)) ∧
    (let s := targeted (atWord (.flcfgGrow f0 0))
    Alone s (.flcfgGrow f0 0) (fun _ tm _ j _ => tm.targets.getD 0 none == some aTarget && !aTarget.imm && (s.scratchKey tm j .core aTarget.blk).isOk)) ∧
    (let s := targeted (atWord (.flcfgOff f0 0))
    Alone s (.flcfgOff f0 0) (fun _ tm _ _ _ => tm.targets.getD 0 none == some aTarget)) ∧
    (let s := targeted (frag id (regs [(2, 0x3F000000), (4, 5)] (atWord (.flins f0 ⟨0, none, 1, .v 2, 4⟩))))
    Alone s (.flins f0 ⟨0, none, 1, .v 2, 4⟩) (fun _ tm _ _ t => tm.targets.getD 0 none == some aTarget && targetPixel aTarget (1 + 2 * 2 ^ 16) == some (1, 2) && (t.frag.map fun f => f.x + f.y * 2 ^ 16) == some (1 + 2 * 2 ^ 16))) ∧
    (let s := targeted (regs [(2, 0x3F000000), (3, 0x20001), (4, 5)] (atWord (.flins f0 ⟨0, some (.ray, .v 3), 1, .v 2, 4⟩)))
    Alone s (.flins f0 ⟨0, some (.ray, .v 3), 1, .v 2, 4⟩) (fun _ tm _ _ _ => tm.targets.getD 0 none == some aTarget && targetPixel aTarget (1 + 2 * 2 ^ 16) == some (1, 2))) ∧
    (let s := targeted (regs [(2, 0x20001), (3, 9)] (atWord (.flres f0 ⟨0, 4, .v 2⟩)))
    Alone s (.flres f0 ⟨0, 4, .v 2⟩) (fun _ tm _ _ _ => tm.targets.getD 0 none == some aTarget && targetPixel aTarget (1 + 2 * 2 ^ 16) == some (1, 2))) ∧
    (let s := targeted (regs [(2, 0x20001), (3, 9)] (atWord (.flresClr f0 ⟨0, 4, .v 2⟩)))
    Alone s (.flresClr f0 ⟨0, 4, .v 2⟩) (fun _ tm _ _ _ => tm.targets.getD 0 none == some aTarget && targetPixel aTarget (1 + 2 * 2 ^ 16) == some (1, 2))) ∧
    (let s := targeted (regs [(2, 0x20001), (3, 9)] (atWord (.flrd f0 ⟨0, 4, .v 2, .v 3⟩)))
    Alone s (.flrd f0 ⟨0, 4, .v 2, .v 3⟩) (fun _ tm _ _ _ => tm.targets.getD 0 none == some aTarget && targetPixel aTarget (1 + 2 * 2 ^ 16) == some (1, 2))) :=
  ⟨alone_of (by decide), alone_of (by decide), alone_of (by decide), alone_of (by decide), alone_of (by decide), alone_of (by decide), alone_of (by decide), alone_of (by decide)⟩
/-- States that meet the hypotheses of `TargetSlotsFill`. -/
theorem meets_TargetSlotsFill :
    (let s := ((targeted (issued (regs [(2, 64)]) (.flcfgSet f0 ⟨1, false, .v 2⟩))).put (coreKey 0 64) (targetBytes 1))
    InFlight s (fun tm _ o => !isPeer o.key && (s.coreStores tm.core o.key o.len).isEmpty && !s.poisoned o.key o.len && targetOf tm false o.ea (s.bytes o.key o.len) == some aTarget && s.shelvesOk tm aTarget 1 == some true)) ∧
    (let s := ((issued targeted (.flcfgGrow f0 0)).put (coreKey 0 64) (targetBytes 2))
    InFlight s (fun tm _ o => !isPeer o.key && (s.coreStores tm.core o.key o.len).isEmpty && !s.poisoned o.key o.len && tm.targets.getD 0 none == some aTarget && fld (s.bytes o.key o.len) 28 4 == 2 && s.shelvesOk tm aTarget 2 == some true)) :=
  ⟨pending_of (by decide), pending_of (by decide)⟩
/-- An operation on pixel (1, 2) of the target at a state whose heads are empty but for what `put` writes, in flight at stage
`k` with `more` after its operands. -/
def atPixel (i : Instr) (v2 v3 : Nat) (put : State → State) (k : Nat := 0) (more : List Nat := []) : State :=
  inThr (fun t => { t with pend := t.pend.map fun o => { o with stage := k, vals := o.vals ++ more } })
    (put (emptied (issued (fun s => targeted (regs [(2, v2), (3, v3), (4, 5)] s)) i)))
/-- Two entries at pixel (1, 2): nodes 0 and 1 of the first shelf (R296). -/
def twoEntries (s : State) : State :=
  ((s.put (coreKey 0 292) (natLe 4 (2 * 2 ^ 24))).put (coreKey 0 4096) (natLe 4 0x3F000000 ++ natLe 8 77 ++ natLe 4 (1 + 2 ^ 24))).put
    (coreKey 0 4112) (natLe 4 0x3F800000 ++ natLe 8 88 ++ natLe 4 (0xFFFFFF + 2 ^ 24))
abbrev insOp : Instr := .flins f0 ⟨0, some (.ray, .v 3), 1, .v 2, 4⟩
/-- The hypotheses common to the clauses of `TargetOperationsPerform`, and that the pixel can be read and holds `n` entries. -/
def targetFree (s : State) (tm : Team) (t : Thread) (o : Op) : Bool :=
  o.tgt == some aTarget && s.runs tm.asid && !s.pixelTaken ⟨tm, 0, t.crew == 7⟩ aTarget (o.vals.getD 0 0) (o.vals.getD 1 0) o.id
def entries (s : State) (tm : Team) (t : Thread) (o : Op) (n : Nat) : Bool :=
  targetFree s tm t o && (match s.flPixel ⟨tm, 0, t.crew == 7⟩ aTarget (o.vals.getD 0 0) (o.vals.getD 1 0) with
    | .ok w => w.nodes.length == n && (resolveEnts 0 none (w.nodes.map fun n => n.ent)).isOk
    | .error _ => false)
/-- States that meet the hypotheses of `TargetOperationsPerform`: an insert that takes its node, one that links it, and FLRES,
FLRES.clr and FLRD of a pixel without and with entries. -/
theorem meets_TargetOperationsPerform :
    (let s := atPixel insOp 0x3F000000 0x20001 id
    InFlight s (fun tm t o => targetFree s tm t o && o.stage == 0 && (s.flTake ⟨tm, 0, t.crew == 7⟩ aTarget 1 2 (o.vals.getD 2 0) (o.vals.getD 3 0) (o.vals.getD 4 0)).isSome)) ∧
    (let s := atPixel insOp 0x3F000000 0x20001 twoEntries 1 [5]
    InFlight s (fun tm t o => targetFree s tm t o && o.stage == 1 && (s.flInsert ⟨tm, 0, t.crew == 7⟩ aTarget 1 2 (!aTarget.degrade) (o.vals.getD 2 0) (o.vals.getD 3 0) (o.vals.getD 4 0) (some (o.vals.getD 5 0))).2.isOk)) ∧
    (let s := atPixel (.flres f0 ⟨0, 4, .v 2⟩) 0x20001 0 id
    InFlight s (fun tm t o => entries s tm t o 0 && o.dst == [4, 5, 6])) ∧
    (let s := atPixel (.flres f0 ⟨0, 4, .v 2⟩) 0x20001 0 twoEntries
    InFlight s (fun tm t o => entries s tm t o 2 && o.dst == [4, 5, 6])) ∧
    (let s := atPixel (.flresClr f0 ⟨0, 4, .v 2⟩) 0x20001 0 twoEntries
    InFlight s (fun tm t o => entries s tm t o 2 && o.dst == [4, 5, 6] && (s.flPut ⟨tm, 0, t.crew == 7⟩ aTarget [(headAddr aTarget 1 2, natLe 4 0xFFFFFF)]).isOk)) ∧
    (let s := atPixel (.flrd f0 ⟨0, 4, .v 2, .v 3⟩) 0x20001 9 id
    InFlight s (fun tm t o => entries s tm t o 0 && o.dst == vrange 4 4)) ∧
    (let s := atPixel (.flrd f0 ⟨0, 4, .v 2, .v 3⟩) 0x20001 1 twoEntries
    InFlight s (fun tm t o => entries s tm t o 2 && o.dst == vrange 4 4 && o.vals.getD 2 0 == 1)) :=
  ⟨pending_of (by decide), pending_of (by decide), pending_of (by decide), pending_of (by decide), pending_of (by decide), pending_of (by decide), pending_of (by decide)⟩
/-- The block of a splat of no records over a tile (R313), and such a command in Q4. -/
def splatBytes : List Byte := natLe 8 0 ++ natLe 8 0 ++ natLe 4 0 ++ natLe 2 0 ++ natLe 2 0 ++ natLe 4 1024 ++ natLe 4 8192 ++ natLe 4 0 ++ natLe 4 0x3B808081 ++
  natLe 4 0x3F800000 ++ natLe 2 4 ++ [1, 16] ++ natLe 4 0 ++ natLe 4 0 ++ natLe 4 9 ++ natLe 4 0
def aSplat : SplatCmd := { id := 7, o := ⟨0, 0xD8, 0, 0⟩, block := 64, list := 0, feat := 0, count := 0, tx := 0, ty := 0, work := 1024, out := 8192, splt := 0, amin := 0x3B808081, amax := 0x3F800000, fstr := 4, nch := 1, flags := 16, obar := 0, ibar := 0, tag := 9 }
def splatting (f : SplatCmd → SplatCmd) : State := inTeam (fun tm => { tm with splats := [f aSplat] }) (atWord (.nop {} 0))
/-- States that meet the hypotheses of `SplatsAreAccepted`: without LMODE, and with it. -/
theorem meets_SplatsAreAccepted :
    (let s := regs [(2, 64)] (atWord (.splat f0 (.v 2)))
    Alone s (.splat f0 (.v 2)) (fun x tm cr j _ => cr.bound 2 && decide (tm.splatsOpen < 16) && x.stalled.isEmpty && s.started.badOpnd tm j [⟨.core, 64, 64, 64⟩] == none && (s.scratchKey tm j .core 64).isOk)) ∧
    (let s := (issued (regs [(2, 64)]) (.splat f0 (.v 2))).put (coreKey 0 64) splatBytes
    InFlight s (fun tm t o => t.pend == [o] && (s.coreStores tm.core o.key o.len).isEmpty && !s.poisoned o.key o.len && (let q := splatBlock tm o 0 (s.bytes o.key o.len) s.nextId
    splatOk q (fld (s.bytes o.key o.len) 60 4) && s.badOpnd tm 0 (splatOpnds q) == none && !q.lmode))) ∧
    (let s := (issued (fun s => targeted (regs [(2, 64)] s)) (.splat f0 (.v 2))).put (coreKey 0 64) (((splatBytes.set 28 0).set 29 0).set 47 18)
    InFlight s (fun tm t o => t.pend == [o] && (s.coreStores tm.core o.key o.len).isEmpty && !s.poisoned o.key o.len && (let q := splatBlock tm o 0 (s.bytes o.key o.len) s.nextId
    splatOk q (fld (s.bytes o.key o.len) 60 4) && s.badOpnd tm 0 (splatOpnds q) == none && q.lmode && o.slots.getD q.slot none == some aTarget))) :=
  ⟨alone_of (by decide), pending_of (by decide), pending_of (by decide)⟩
/-- One record in the core share that covers the first pixel with alpha one half (R313). -/
def oneRecord (s : State) : State := s.put (coreKey 0 2048) (natLe 4 0x3F000000 ++ natLe 4 0x3F000000 ++ List.replicate 12 0 ++ natLe 4 0x3F000000 ++ natLe 4 0x40000000 ++ natLe 4 0)
def withRecord (f : SplatCmd → SplatCmd) : State := oneRecord (splatting fun q => f { q with flags := 17, list := 2048, feat := 3072, count := 1, begun := true, serving := true })
/-- The hypotheses common to the clauses of `SplatsRun`, and `p`. -/
def splatHead (s : State) (p : Team → SplatCmd → Bool) : Bool :=
  match s.team? 0 with
  | some tm => s.engineOn tm true && Memory.wf s.mem && (match tm.splats with | q :: _ => !tm.pageWaiting q.id && p tm q | [] => false)
  | none => false
/-- States that meet the hypotheses of `SplatsRun`, one for each clause. -/
theorem meets_SplatsRun :
    (let s := splatting id
    splatHead s (fun tm q => !q.begun && !s.splatting (clusterOf tm.core) && !s.sorting (clusterOf tm.core) && !q.ibarOn) = true) ∧
    (let s := splatting fun q => { q with begun := true }
    splatHead s (fun tm q => q.begun && !q.serving && !s.splatting (clusterOf tm.core)) = true) ∧
    (let s := splatting fun q => { q with begun := true, serving := true }
    splatHead s (fun tm q => q.begun && q.serving && !q.going && decide (q.passes < 4) && !s.sorting (clusterOf tm.core)) = true) ∧
    (splatHead (splatting fun q => { q with begun := true, serving := true, going := true }) (fun _ q => q.going && q.count == 0) = true) ∧
    (let s := withRecord fun q => { q with going := true }
    splatHead s (fun tm q => q.going && q.count == 1 && !q.clash && !q.filled && (s.splatKeys tm q 0 q.count).isOk && s.coreAt tm q.work == some (coreKey 0 1024) && decide (q.work + 8 * q.count ≤ tm.coresh) && decide (coreKey 0 1024 + 8 * q.count ≤ 2 ^ 120)) = true) ∧
    (let s := withRecord fun q => { q with going := true, filled := true }
    splatHead s (fun tm q => q.going && q.filled && !q.clash && decide (q.passes < 4) && (s.movePass tm q.job ⟨[], true, false⟩).isOk) = true) := by
  decide
/-- A pixel of the tile buffer, with and without a record that contributes, and the end of the command. -/
theorem meets_SplatsRun_pixels :
    (let s := withRecord fun q => { q with filled := true, passes := 4 }
    splatHead s (fun tm q => q.serving && !q.lmode && (match s.splatPixel tm q with | .ok (some a) => a.n == 1 && a.last == 0 && a.t == 0x3F000000 && a.col.length == 4 | _ => false) && s.coreAt tm (q.out + 32 * q.pix) == some (coreKey 0 8192)) = true) ∧
    (let s := withRecord fun q => { q with filled := true, passes := 4, pix := 3, count := 0 }
    splatHead s (fun tm q => q.serving && !q.lmode && (match s.splatPixel tm q with | .ok (some a) => a.n == 0 && a.col.length == 4 | _ => false) && s.coreAt tm (q.out + 32 * q.pix) == some (coreKey 0 8288)) = true) ∧
    (splatHead (withRecord fun q => { q with filled := true, passes := 4, pix := 256 }) (fun _ q => q.pix == 256 && q.serving && !q.clash && !q.bar && q.post) = true) := by
  decide
/-- A pixel under LMODE: no record contributes; one does and takes a node; and its node is linked. -/
theorem meets_SplatsRun_target :
    (let s := withRecord fun q => { q with flags := 19, out := 0, tgt := some aTarget, filled := true, passes := 4, count := 0 }
    splatHead s (fun tm q => q.lmode && q.tgt == some aTarget && (match s.splatPixel tm q with | .ok (some a) => a.n == 0 | _ => false)) = true) ∧
    (let s := emptied (targeted (withRecord fun q => { q with flags := 19, out := 0, tgt := some aTarget, filled := true, passes := 4 }))
    splatHead s (fun tm q => q.lmode && q.core && q.tgt == some aTarget && targetPixel aTarget 0 == some (0, 0) && !s.pixelTaken ⟨tm, 0, false⟩ aTarget 0 0 q.id && q.node.isNone &&
      (match s.splatPixel tm q with | .ok (some a) => a.n == 1 && (s.flTake ⟨tm, 0, false⟩ aTarget 0 0 a.fkey a.payload 1).isSome | _ => false)) = true) ∧
    (let s := emptied (targeted (withRecord fun q => { q with flags := 19, out := 0, tgt := some aTarget, filled := true, passes := 4, node := some (0, 0, 0) }))
    splatHead s (fun tm q => q.lmode && !s.pixelTaken ⟨tm, 0, false⟩ aTarget 0 0 q.id && q.node.isSome &&
      (match s.splatPixel tm q with | .ok (some a) => a.n == 1 && (s.flInsert ⟨tm, 0, false⟩ aTarget 0 0 false a.fkey a.payload 1 (some 0)).2.isOk | _ => false)) = true) := by
  decide
/-- A state that meets the hypothesis of `CompositesAreWellFormed`, with a record that contributes. -/
theorem meets_CompositesAreWellFormed :
    (let s := withRecord id
    splatHead s (fun tm q => match s.splatGo tm q (half32 0) (half32 0) [0] {} with | .ok (some a) => a.n == 1 | _ => false) = true) := by
  decide
/-- States that meet the hypotheses of `RayTestsComplete`. -/
theorem meets_RayTestsComplete :
    (let s := regs [(2, 128), (8, 7)] (atWord (.raybox f0 ⟨true, 20, .v 2, 8⟩))
    Alone s (.raybox f0 ⟨true, 20, .v 2, 8⟩) (fun x tm _ j _ => (match s.started.rayKeys tm j (x.crew == 7) true 128 112 128 with | .ok ks => ks == [(coreKey 0 128, 112)] | .error _ => false))) ∧
    (let s := regs [(2, 128), (8, 7)] (atWord (.raytri f0 ⟨true, 20, .v 2, 8⟩))
    Alone s (.raytri f0 ⟨true, 20, .v 2, 8⟩) (fun x tm _ j _ => (match s.started.rayKeys tm j (x.crew == 7) true 128 48 16 with | .ok ks => ks == [(coreKey 0 128, 48)] | .error _ => false))) ∧
    (let s := (issued (regs [(2, 128), (8, 0), (11, 0x3F800000), (15, 0x7F800000)]) (.raybox f0 ⟨true, 20, .v 2, 8⟩)).put (coreKey 0 128) (List.replicate 48 1)
    InFlight s (fun _ t o => t.pend == [o] && o.vals == [128, coreKey 0 128, 112] && decide (2 ^ 40 ≤ coreKey 0 128) && !isPeer (coreKey 0 128) && o.stage == 0 && o.data.length == 8 && !s.poisoned (coreKey 0 128) 112)) ∧
    (let s := (issued (regs [(2, 128), (8, 0), (11, 0x3F800000), (15, 0x7F800000)]) (.raytri f0 ⟨true, 20, .v 2, 8⟩)).put (coreKey 0 128) (List.replicate 48 1)
    InFlight s (fun _ t o => t.pend == [o] && o.vals == [128, coreKey 0 128, 48] && decide (2 ^ 40 ≤ coreKey 0 128) && !isPeer (coreKey 0 128) && o.stage == 0 && o.data.length == 8 && !s.poisoned (coreKey 0 128) 48)) :=
  ⟨alone_of (by decide), alone_of (by decide), pending_of (by decide), pending_of (by decide)⟩
/-- States that meet the hypotheses of `InvalidRaysHitNothing`. -/
theorem meets_InvalidRaysHitNothing :
    (((rayOf (List.replicate 8 (0 : Word))).invalid) = true) :=
  by decide
/-- Words that meet the hypotheses of `WordsOutsideTheTable` and of `SliceSteps`. -/
theorem meets_WordsOutsideTheTable :
    ((formatOf (0xFFE0000000000000 / 2 ^ 56 % 256) == none && 0xFFE0000000000000 / 2 ^ 56 % 256 == 0xFF &&
      formatOf (0x0C00000000000000 / 2 ^ 56 % 256) == none) = true) :=
  by decide
theorem meets_SliceSteps : ((decide (17 ≤ 20 * 2 ^ 26 / 2 ^ 26 % 2 ^ 6)) = true) := by decide
/-- States that meet the hypotheses of `ShiftAndCountValues`. -/
theorem meets_ShiftAndCountValues :
    ((decide (5 < 2 ^ widthOf false)) = true) :=
  by decide
/-- States that meet the hypotheses of `HighestLaneWritesK`. -/
theorem meets_HighestLaneWritesK :
    ((let tm := Team.sample 0 0; decide (([0] : List Nat).all fun i => (tm.threads[i]?).isSome) && highest tm [0] == some 0) = true) :=
  by decide
/-- A state that meets the hypotheses of `ResultInFlightFrame`, with a member that executes. -/
theorem meets_ResultInFlightFrame : ∃ x tm cr j t, Issues (atWord (.iadd {} ib)) (.iadd {} ib) x tm cr ∧
    j ∈ x.doers tm (.iadd {} ib) ∧ tm.threads[j]? = some t := by
  obtain ⟨x, tm, cr, j, t, h⟩ := meets_integer_issue (.iadd {} ib) (by decide)
  exact ⟨x, tm, cr, j, t, h.toIssues, by simp [Issue.doers, h.guardTrue], h.thread⟩
/-- A header of a landing pad with tag 7 (R78), at the targets below. -/
def pads (s : State) : State := (s.put 40 (natLe 8 (2 ^ 38 + 7 * 2 ^ 39))).put 64 (natLe 8 (2 ^ 38 + 7 * 2 ^ 39))
def fetches (s : State) (tm : Team) (x : Issue) (target : Nat) : Bool :=
  match s.ctx? tm.asid with
  | some c => (match s.fetchWord c tm.core target (x.crew == 7) with | .ok h => hdrPad h && hdrTag h == 7 | _ => false)
  | none => false
/-- States that meet the hypotheses of `BranchesComplete`. -/
theorem meets_BranchesComplete :
    (let s := regs [(2, 64)] (pads (paged (atWord (.bra {} 5))))
    Alone s (.bra {} 5) (fun x tm _ _ _ => (s.ctx? tm.asid).isSome && decide ((x.ca + BitVec.signExtend 64 (5 : BitVec 36) * 8).toNat % 8 = 0) && decide ((x.ca + BitVec.signExtend 64 (5 : BitVec 36) * 8).toNat < 2 ^ 64) && fetches s tm x ((x.ca + BitVec.signExtend 64 (5 : BitVec 36) * 8).toNat))) ∧
    (let s := regs [(2, 64)] (pads (paged (atWord (.call {} 8 5))))
    Alone s (.call {} 8 5) (fun x tm _ _ _ => (s.ctx? tm.asid).isSome && decide ((x.ca + BitVec.signExtend 64 (5 : BitVec 36) * 8).toNat % 8 = 0) && decide ((x.ca + BitVec.signExtend 64 (5 : BitVec 36) * 8).toNat < 2 ^ 64) && fetches s tm x ((x.ca + BitVec.signExtend 64 (5 : BitVec 36) * 8).toNat))) ∧
    (let s := regs [(2, 64)] (pads (paged (atWord (.brx {} 2 7))))
    Alone s (.brx {} 2 7) (fun x tm _ _ t => (s.ctx? tm.asid).isSome && decide (t.v64 2 % 8 = 0) && decide (t.v64 2 < 2 ^ 64) && fetches s tm x (t.v64 2))) ∧
    (let s := regs [(2, 64)] (pads (paged (atWord (.callx {} 2 7))))
    Alone s (.callx {} 2 7) (fun x tm _ _ t => (s.ctx? tm.asid).isSome && decide (t.v64 2 % 8 = 0) && decide (t.v64 2 < 2 ^ 64) && fetches s tm x (t.v64 2))) ∧
    (let s := regs [(2, 64)] (pads (paged (atWord (.ret {} 2))))
    Alone s (.ret {} 2) (fun x tm _ _ t => (s.ctx? tm.asid).isSome && decide (t.v64 2 % 8 = 0) && decide (t.v64 2 < 2 ^ 64) && fetches s tm x (t.v64 2))) ∧
    (let s := regs [(2, 64)] (pads (paged (atWord (.retChecked {} 2 7))))
    Alone s (.retChecked {} 2 7) (fun x tm _ _ t => (s.ctx? tm.asid).isSome && decide (t.v64 2 % 8 = 0) && decide (t.v64 2 < 2 ^ 64) && fetches s tm x (t.v64 2))) :=
  ⟨alone_of (by decide), alone_of (by decide), alone_of (by decide), alone_of (by decide), alone_of (by decide), alone_of (by decide)⟩
/-- States that meet the hypotheses of `RejoinMaskInstructionsComplete`. -/
theorem meets_RejoinMaskInstructionsComplete :
    (let s := atWord (.jinitLive {} 3)
    Alone s (.jinitLive {} 3) (fun _ tm cr _ t => tm.crew? t.crew == some cr && decide (t.strand < cr.strands.length) && decide (3 < (cr.strands.getD t.strand []).length) && !Rejoin.complete { cr.rejoin t.strand 3 with mask := (liveLanes tm t.crew t.strand) })) ∧
    (let s := atWord (.jinitSelf {} 3)
    Alone s (.jinitSelf {} 3) (fun _ tm cr _ t => tm.crew? t.crew == some cr && decide (t.strand < cr.strands.length) && decide (3 < (cr.strands.getD t.strand []).length) && !Rejoin.complete { cr.rejoin t.strand 3 with mask := ((cr.rejoin t.strand 3).mask ||| 2 ^ t.lane) })) ∧
    (let s := atWord (.jinitClear {} 3)
    Alone s (.jinitClear {} 3) (fun _ tm cr _ t => tm.crew? t.crew == some cr && decide (t.strand < cr.strands.length) && decide (3 < (cr.strands.getD t.strand []).length) && !Rejoin.complete { cr.rejoin t.strand 3 with mask := (0) })) ∧
    (let s := atWord (.jinitK {} 3 2)
    Alone s (.jinitK {} 3 2) (fun _ tm cr _ t => tm.crew? t.crew == some cr && decide (t.strand < cr.strands.length) && decide (3 < (cr.strands.getD t.strand []).length) && !Rejoin.complete { cr.rejoin t.strand 3 with mask := ((cr.k.getD 2 0).toNat &&& liveLanes tm t.crew t.strand) })) ∧
    (let s := atWord (.jleave {} 3)
    Alone s (.jleave {} 3) (fun _ tm cr _ t => tm.crew? t.crew == some cr && decide (t.strand < cr.strands.length) && decide (3 < (cr.strands.getD t.strand []).length) && !Rejoin.complete { cr.rejoin t.strand 3 with mask := ((cr.rejoin t.strand 3).mask - ((cr.rejoin t.strand 3).mask &&& 2 ^ t.lane)) })) :=
  ⟨alone_of (by decide), alone_of (by decide), alone_of (by decide), alone_of (by decide), alone_of (by decide)⟩
def masked (m a : Nat) (s : State) : State := inCrew (fun c => { c with strands := [List.replicate 16 ⟨m, a⟩] }) s
/-- States that meet the hypotheses of `JoinCompletes`. -/
theorem meets_JoinCompletes :
    (let s := atWord (.join {} 3)
    Alone s (.join {} 3) (fun _ tm cr _ t => !t.inSection && tm.crew? t.crew == some cr && !(cr.rejoin t.strand 3).mask.testBit t.lane)) ∧
    (let s := masked 3 0 (atWord (.join {} 3))
    Alone s (.join {} 3) (fun _ tm cr _ t => !t.inSection && tm.crew? t.crew == some cr && (cr.rejoin t.strand 3).mask.testBit t.lane && t.pend.isEmpty && t.waits.isEmpty && t.wb.isEmpty && decide (t.strand < cr.strands.length) && decide (3 < (cr.strands.getD t.strand []).length) && !Rejoin.complete { cr.rejoin t.strand 3 with arr := (cr.rejoin t.strand 3).arr ||| 2 ^ t.lane })) :=
  ⟨alone_of (by decide), alone_of (by decide)⟩
/-- States that meet the hypotheses of `CompleteRejoinReleases`. -/
theorem meets_CompleteRejoinReleases :
    ((let s := masked 1 1 (inThr (fun t => { t with status := .joined 3 }) (atWord (.nop {} 0))); (match s.team? 0 with | some tm => (match tm.crew? 0 with | some cr => (cr.rejoin 0 3).complete && arrived tm 0 0 3 == [0] && decide (0 < cr.strands.length) && decide (3 < (cr.strands.getD 0 []).length) | none => false) | none => false)) = true) :=
  by decide
/-- States that meet the hypotheses of `ExitEndsTheThread`. -/
theorem meets_ExitEndsTheThread :
    (let s := atWord (.exit {})
    Alone s (.exit {}) (fun _ tm cr _ t => t.pend.isEmpty && t.waits.isEmpty && t.late.isEmpty && t.copiesDone && t.dbg.req == none && t.wb.isEmpty && tm.crew? t.crew == some cr)) :=
  alone_of (by decide)
/-- A context with a `.chip` allocation of 1 MiB, counters, nodes described at 0x4000 and deques at 0x20000. -/
def chipped (s : State) : State :=
  inCtx (fun c => { c with r := { c.r with chipbase := 0x100000, chipsz := 0x100000, sqb := 0, sqn := 16, ntb := 0x4000, dqb := 0x20000 } }) s
/-- A launch record of one span of one team of one thread (R334, R335). -/
def launchBytes : List Byte := natLe 8 0 ++ natLe 4 1 ++ natLe 4 1 ++ [1, 1] ++ natLe 2 1 ++ [1, 0, 0, 0] ++ natLe 4 4096 ++ natLe 2 64 ++ [0, 0] ++
  List.replicate 96 0 ++ [0, 0, 4, 0, 1, 0, 0, 0] ++ List.replicate 120 0
/-- The descriptor of a persistent node of 16-byte records, c to a batch, over buffers at `.chip` 0x8000 (R344). -/
def nodeBytes (c : Nat) : List Byte := natLe 8 0 ++ natLe 4 0x8000 ++ natLe 2 16 ++ natLe 2 c ++ natLe 2 4 ++ [1, 3] ++ List.replicate 44 0
/-- States that meet the hypotheses of `TaskInstructionsIssue`. -/
theorem meets_TaskInstructionsIssue :
    (let s := regs [(2, 0x2000)] (paged (atWord (.launch f0 (.v 2))))
    Alone s (.launch f0 (.v 2)) (fun x tm _ j _ => x.stalled.isEmpty && s.started.badOpnd tm j [⟨.mem, 0x2000, 256, 64⟩] == none && decide (s.lots.length + s.launching < 4096) && (s.ctx? tm.asid).isSome && (match s.started.pieceKeys tm j (x.crew == 7) (lineSpans 0x2000 256) with | .ok ks => ks == [0x2000, 128, 0x2080, 128] | .error _ => false))) ∧
    (let s := (chipped (regs [(2, 1), (4, 64)] (paged (atWord (.wgemit f0 ⟨false, .v 2, .v 4⟩))))).put 0x4040 (nodeBytes 4)
    Alone s (.wgemit f0 ⟨false, .v 2, .v 4⟩) (fun x tm cr j t => x.stalled.isEmpty && s.started.badOpnd tm j [⟨emitSpace ⟨false, .v 2, .v 4⟩, 64, 16, 16⟩] == none && srcVal cr.k t false (.v 2) == 1 && srcVal cr.k t false (.v 4) == 64 && (match s.ctx? tm.asid with
    | some cx => let s1 := s.started.unitRecall cx (descAddr cx 1) 64; (match s1.unitRead cx (descAddr cx 1) 64 with
      | .ok bs => nodeValid bs && (match nodeOf cx bs with
        | some d => d.persist && decide (s.emitting tm.asid 1 < (cx.node 1).room d) && (match s1.scratchKey tm j (emitSpace ⟨false, .v 2, .v 4⟩) 64, s1.scratchKey tm j (emitSpace ⟨false, .v 2, .v 4⟩) (64 + d.rsize - 1) with | .ok _, .ok _ => true | _, _ => false)
        | none => false)
      | _ => false)
    | none => false))) ∧
    (let s := chipped (regs [(1, 2), (2, 3), (4, 5)] (atWord (.quiesceArm f0 ⟨.v 1, .v 2, .v 4⟩)))
    Alone s (.quiesceArm f0 ⟨.v 1, .v 2, .v 4⟩) (fun x tm cr _ t => x.stalled.isEmpty && srcVal cr.k t false (.v 1) == 2 && tm.graph == none && (s.ctrIn tm.asid 3).isSome && srcVal cr.k t false (.v 2) == 3)) ∧
    (let s := regs [(2, 7)] (atWord (.wgdone f0 ⟨1, .v 2⟩))
    Alone s (.wgdone f0 ⟨1, .v 2⟩) (fun x _ _ _ _ => x.stalled.isEmpty && true)) ∧
    (let s := regs [(2, 7)] (atWord (.quiesceRd f0 ⟨4, .v 2⟩))
    Alone s (.quiesceRd f0 ⟨4, .v 2⟩) (fun x _ cr _ t => x.stalled.isEmpty && decide (srcVal cr.k t false (.v 2) < 16))) ∧
    (let s := regs [(2, 7)] (atWord (.dqpush f0 ⟨1, .v 2⟩))
    Alone s (.dqpush f0 ⟨1, .v 2⟩) (fun x _ _ _ _ => x.stalled.isEmpty && true)) ∧
    (let s := regs [(2, 7)] (atWord (.dqpop f0 ⟨4, 1⟩))
    Alone s (.dqpop f0 ⟨4, 1⟩) (fun x _ _ _ _ => x.stalled.isEmpty && true)) ∧
    (let s := regs [(2, 7)] (atWord (.dqsteal f0 ⟨none, 4, 1⟩))
    Alone s (.dqsteal f0 ⟨none, 4, 1⟩) (fun x _ _ _ _ => x.stalled.isEmpty && true)) :=
  ⟨alone_of (by decide), alone_of (by decide), alone_of (by decide), alone_of (by decide), alone_of (by decide), alone_of (by decide), alone_of (by decide), alone_of (by decide)⟩
/-- States that meet the hypotheses of `TaskInstructionsPerform`. -/
theorem meets_TaskInstructionsPerform :
    (let s := (issued (fun s => chipped (regs [(2, 0x2000)] (paged s))) (.launch f0 (.v 2))).put 0x2000 launchBytes
    InFlight s (fun tm t o => t.pend == [o] && t.waits.isEmpty && (s.ctx? tm.asid).isSome && Memory.wf s.mem && o.dst == writesOf o.i && (match s.ctx? tm.asid, s.rayRead tm t o ⟨0, 0, 2, false, none, [], true, false, 0⟩ o.ea 0 (o.vals.drop 1) with
      | some cx, .ok _ bs => (match launchOf cx bs with | some r => !s.neverFits cx r && decide (r.lpri ≤ tm.lpri) | none => false) | _, _ => false))) ∧
    (let s := inCtx (fun c => { c with nodes := c.nodes.set 1 { cur := some 2, n := 1 } }) ((issued (fun s => (chipped (regs [(2, 1), (4, 64)] (paged s))).put 0x4040 (nodeBytes 4)) (.wgemit f0 ⟨false, .v 2, .v 4⟩)).put (coreKey 0 64) (natLe 8 0x123456789 ++ natLe 8 77))
    InFlight s (fun tm t o => t.pend == [o] && t.waits.isEmpty && (s.ctx? tm.asid).isSome && Memory.wf s.mem && o.dst == writesOf o.i && o.vals == [o.ea, 1] && (match s.ctx? tm.asid with
    | some cx => (match o.nodeDesc cx with
      | some d => o.len == d.rsize && !s.poisoned o.key o.len && !s.poisoned (chipKey (cx.r.chipbase + d.bufAddr 2 + d.rsize)) d.rsize &&
          (match cx.nodes[1]? with | some k => k.cur == some 2 && k.n == 1 && k.n + 1 != d.coal | none => false) && (cx.graphs[d.graph]?).isSome
      | none => false)
    | none => false))) ∧
    (let s := inCtx (fun c => { c with nodes := c.nodes.set 1 { cur := some 2, n := 1 } }) ((issued (fun s => (chipped (regs [(2, 1), (4, 64)] (paged s))).put 0x4040 (nodeBytes 2)) (.wgemit f0 ⟨false, .v 2, .v 4⟩)).put (coreKey 0 64) (natLe 8 0x123456789 ++ natLe 8 77))
    InFlight s (fun tm t o => t.pend == [o] && t.waits.isEmpty && (s.ctx? tm.asid).isSome && Memory.wf s.mem && o.dst == writesOf o.i && o.vals == [o.ea, 1] && (match s.ctx? tm.asid with
    | some cx => (match o.nodeDesc cx with
      | some d => d.persist && o.len == d.rsize && !s.poisoned o.key o.len && !s.poisoned (chipKey (cx.r.chipbase + d.bufAddr 2 + d.rsize)) d.rsize &&
          (match cx.nodes[1]? with | some k => k.cur == some 2 && k.n == 1 && k.n + 1 == d.coal | none => false) && (cx.graphs[d.graph]?).isSome
      | none => false)
    | none => false))) ∧
    (let s := id (issued (fun s => chipped (regs [(2, 7)] (paged s))) (.wgdone f0 ⟨1, .v 2⟩))
    InFlight s (fun tm t o => t.pend == [o] && t.waits.isEmpty && (s.ctx? tm.asid).isSome && Memory.wf s.mem && o.dst == writesOf o.i && (match s.ctx? tm.asid with | some cx => cx.batchOf o.ea == none | none => false))) ∧
    (let s := inCtx (fun c => { c with nodes := c.nodes.set 1 { desc := nodeOf c (nodeBytes 2), sealed := [⟨0, 2, 5, false, 0, none⟩] }, graphs := c.graphs.set 1 { inflight := 2 } }) (issued (fun s => chipped (regs [(2, 0x8000), (3, 0x1001 + 5 * 0x40000)] (paged s))) (.wgdone f0 ⟨1, .v 2⟩))
    InFlight s (fun tm t o => t.pend == [o] && t.waits.isEmpty && (s.ctx? tm.asid).isSome && Memory.wf s.mem && o.dst == writesOf o.i && (match s.ctx? tm.asid with
    | some cx => (match cx.batchOf o.ea, cx.nodes[bits o.ea 49 44]? with
      | some b, some k => b.serial == 5 && (match k.desc with | some d => (match cx.graphs[d.graph]? with | some g => !g.armed | none => false) | none => false)
      | _, _ => false)
    | none => false))) ∧
    (let s := id (issued (fun s => chipped (regs [(1, 2), (2, 3), (4, 5)] (paged s))) (.quiesceArm f0 ⟨.v 1, .v 2, .v 4⟩))
    InFlight s (fun tm t o => t.pend == [o] && t.waits.isEmpty && (s.ctx? tm.asid).isSome && Memory.wf s.mem && o.dst == writesOf o.i && o.vals == [2, 3, 5] && o.ea == 2 && tm.graph == none && (match s.ctx? tm.asid with | some cx => (cx.graphs[2]?).isSome | none => false))) ∧
    (let s := id (issued (fun s => chipped (regs [(2, 7)] (paged s))) (.quiesceRd f0 ⟨4, .v 2⟩))
    InFlight s (fun tm t o => t.pend == [o] && t.waits.isEmpty && (s.ctx? tm.asid).isSome && Memory.wf s.mem && o.dst == writesOf o.i && o.ea == 7 && (match s.ctx? tm.asid with | some cx => (cx.graphs[7]?).isSome | none => false))) ∧
    (let s := id (issued (fun s => chipped (regs [(2, 7)] (paged s))) (.dqpush f0 ⟨1, .v 2⟩))
    InFlight s (fun tm t o => t.pend == [o] && t.waits.isEmpty && (s.ctx? tm.asid).isSome && Memory.wf s.mem && o.dst == writesOf o.i && (match s.ctx? tm.asid with | some cx => (match dequeKey cx tm.core with | some key => key == chipKey 0x120000 && !s.dequeBad key (s.read (key + 4) 4) (decide (s.dequeCount key < 256)) && decide (s.dequeCount key < 256) | none => false) | none => false))) ∧
    (let s := (issued (fun s => chipped (regs [(2, 7)] (paged s))) (.dqpush f0 ⟨1, .v 2⟩)).put (chipKey 0x120000 + 4) (natLe 4 256)
    InFlight s (fun tm t o => t.pend == [o] && t.waits.isEmpty && (s.ctx? tm.asid).isSome && Memory.wf s.mem && o.dst == writesOf o.i && (match s.ctx? tm.asid with | some cx => (match dequeKey cx tm.core with | some key => key == chipKey 0x120000 && !s.dequeBad key (s.read (key + 4) 4) (decide (s.dequeCount key < 256)) && decide (256 ≤ s.dequeCount key) | none => false) | none => false))) ∧
    (let s := id (issued (fun s => chipped (regs [] (paged s))) (.dqpop f0 ⟨4, 1⟩))
    InFlight s (fun tm t o => t.pend == [o] && t.waits.isEmpty && (s.ctx? tm.asid).isSome && Memory.wf s.mem && o.dst == writesOf o.i && (match s.ctx? tm.asid with | some cx => (match dequeKey cx tm.core with | some key => key == chipKey 0x120000 && !s.dequeBad key (s.read (key + 4) 4 + 2 ^ 32 - 1) (s.dequeCount key != 0) && s.dequeCount key == 0 | none => false) | none => false))) ∧
    (let s := ((issued (fun s => chipped (regs [] (paged s))) (.dqpop f0 ⟨4, 1⟩)).put (chipKey 0x120000 + 4) (natLe 4 1)).put (slotKey (chipKey 0x120000) 0) (natLe 8 9)
    InFlight s (fun tm t o => t.pend == [o] && t.waits.isEmpty && (s.ctx? tm.asid).isSome && Memory.wf s.mem && o.dst == writesOf o.i && (match s.ctx? tm.asid with | some cx => (match dequeKey cx tm.core with | some key => key == chipKey 0x120000 && !s.dequeBad key (s.read (key + 4) 4 + 2 ^ 32 - 1) (s.dequeCount key != 0) && s.dequeCount key != 0 | none => false) | none => false))) ∧
    (let s := id (issued (fun s => chipped (regs [] (paged s))) (.dqsteal f0 ⟨some (.v 2), 4, 1⟩))
    InFlight s (fun tm t o => t.pend == [o] && t.waits.isEmpty && (s.ctx? tm.asid).isSome && Memory.wf s.mem && o.dst == writesOf o.i && decide (o.ea ≤ 95) && (match s.ctx? tm.asid with | some cx => (match dequeKey cx o.ea with | some key => key == chipKey 0x120000 && !s.dequeBad key (s.read key 4) (s.dequeCount key != 0) && s.dequeCount key == 0 | none => false) | none => false))) ∧
    (let s := ((issued (fun s => chipped (regs [] (paged s))) (.dqsteal f0 ⟨some (.v 2), 4, 1⟩)).put (chipKey 0x120000 + 4) (natLe 4 1)).put (slotKey (chipKey 0x120000) 0) (natLe 8 9)
    InFlight s (fun tm t o => t.pend == [o] && t.waits.isEmpty && (s.ctx? tm.asid).isSome && Memory.wf s.mem && o.dst == writesOf o.i && decide (o.ea ≤ 95) && (match s.ctx? tm.asid with | some cx => (match dequeKey cx o.ea with | some key => key == chipKey 0x120000 && !s.dequeBad key (s.read key 4) (s.dequeCount key != 0) && s.dequeCount key != 0 | none => false) | none => false))) :=
  ⟨pending_of (by decide), pending_of (by decide), pending_of (by decide), pending_of (by decide), pending_of (by decide), pending_of (by decide), pending_of (by decide), pending_of (by decide), pending_of (by decide), pending_of (by decide), pending_of (by decide), pending_of (by decide), pending_of (by decide)⟩
/-! ### Lots, traps and spans -/
def aLaunch : LaunchRec := (launchOf Context.sample launchBytes).getD { entry := 0, lotid := 0, spans := 0, bands := 0, teams := 0, threads := 0, lpri := 0, share := 0, tiles := 0, coresh := 0, lanesz := 0, slots := 0, done := none, deps := [], crews := [] }
def aLot : Lot := { id := 70, asid := 0, addr := 0x2000, r := aLaunch, ready := some 1 }
/-- The state with one lot, its live context, no team, and the changes of `f`. -/
def launched (f : State → State) : State := f { chipped (paged (atWord (.nop {} 0))) with lots := [aLot], teams := [], issues := [] }
def onCore (k : Fin 96) : PlaceOp := ⟨70, 0, [k]⟩
/-- States that meet the hypotheses of `SpanPlacementStartsTeams`. -/
theorem meets_SpanPlacementStartsTeams :
    ((let s := launched id; match s.lots.find? fun l => l.id == 70, s.ctx? 0 with
    | some l, some c => s.coresOk (l.r.load c) l.r.bands l.r.teams [3] && c.active && s.lotFirst l && decide (0 < l.r.spans) && l.placed.isEmpty && l.wait == 0 && (match s.lotKs c l with | .ok _ => true | .error _ => false)
    | _, _ => false) = true) ∧
    ((let s := launched id; match s.lots.find? fun l => l.id == 70, s.ctx? 0 with
    | some l, some c => !s.coresOk (l.r.load c) l.r.bands l.r.teams [3, 3] && (match s.lotKs c l with | .ok _ => true | .error _ => false)
    | _, _ => false) = true) :=
  ⟨by decide, by decide⟩
/-- A resident span of the lot, of the team alone or with another. -/
def resident (ids : List Nat) (s : State) : State :=
  { s with spans := [{ id := 60, asid := 0, lot := 70, ix := 0, teams := ids }], lots := [{ aLot with placed := [0], live := 1, r := { aLaunch with done := some (3, 7) } }]
           teams := s.teams.map fun tm => { tm with span := 60, lot := 70 } }
def endable (ids : List Nat) (st : TStat) : State :=
  resident ids { inThr (fun t => { t with status := st }) (chipped (paged (atWord (.nop {} 0)))) with issues := [] }
/-- States that meet the hypotheses of `TeamsAndLotsEnd`. -/
theorem meets_TeamsAndLotsEnd :
    ((let s := endable [0] .ready; match s.team? 0, s.ctx? 0, s.spans.find? (fun p => p.id == 60), s.lots.find? (fun l => l.id == 70) with
    | some tm, some c, some p, some l => Memory.wf s.mem && !tm.done && c.active && !s.savingTeam tm && s.issues.isEmpty && s.dogs.isEmpty && tm.bin == none && tm.graph == none && tm.span == 60 && tm.lot == 70 && decide (p.teams = [0]) && l.live == 1
    | _, _, _, _ => false) = true) ∧
    ((let s := endable [0, 9] .ended; match s.team? 0, s.ctx? 0, s.spans.find? (fun p => p.id == 60), s.lots.find? (fun l => l.id == 70) with
    | some tm, some c, some p, some l => Memory.wf s.mem && tm.done && c.active && !s.savingTeam tm && s.issues.isEmpty && s.dogs.isEmpty && tm.bin == none && tm.graph == none && tm.span == 60 && tm.lot == 70 && decide (p.teams.filter (fun i => i != tm.id) ≠ []) && l.live == 1
    | _, _, _, _ => false) = true) ∧
    ((let s := endable [0] .ended; match s.team? 0, s.ctx? 0, s.spans.find? (fun p => p.id == 60), s.lots.find? (fun l => l.id == 70) with
    | some tm, some c, some p, some l => Memory.wf s.mem && tm.done && c.active && !s.savingTeam tm && s.issues.isEmpty && s.dogs.isEmpty && tm.bin == none && tm.graph == none && tm.span == 60 && tm.lot == 70 && decide (p.teams.filter (fun i => i != tm.id) = []) && l.live == 1 && decide (l.r.spans ≤ l.placed.length) && l.r.done == some (3, 7) && l.asid == tm.asid && s.ctxs == [c] && c.psq.isEmpty && decide (c.r.sqb + 3 < 4096)
    | _, _, _, _ => false) = true) :=
  ⟨by decide, by decide, by decide⟩
/-- A context with one launch queue at 0x3000, whose ring at 0x3800 holds one record's address (R343). -/
def queueing : State := launched fun s => ((((inCtx (fun c => { c with r := { c.r with lqb := 0x3000, lqn := 1 } }) { s with lots := [] }).put 0x2000 launchBytes).put 0x3000
  (natLe 8 0x3800 ++ natLe 4 4 ++ natLe 4 2 ++ natLe 8 0 ++ natLe 8 0)).put 0x3800 (natLe 8 0x2000)).put (chipKey 16) (natLe 8 1)
/-- A ready lot of higher priority that asks for 13 bands beside a resident span's lot. -/
def urgent (n : Nat) : State := let s := endable [0] .ready; { s with lots := s.lots ++ [{ aLot with id := 71, r := { aLaunch with lpri := 2, bands := n } }] }
/-- A persistent node of the context. -/
def noded (f : NodeSt → NodeSt) : State := launched (inCtx fun c => { c with nodes := c.nodes.set 1 (f { desc := nodeOf c (nodeBytes 4), cur := some 2, n := 1, timer := 1 }) })
def theNode : NodeRef := ⟨0, 1, 0⟩
/-- States that meet the hypotheses of `LauncherEventsAct`. -/
theorem meets_LauncherEventsAct :
    ((let s := queueing; match s.ctx? 0 with
    | some c => c.active && decide (0 < c.r.lqn) && (s.devSlot c (c.r.lqb + 16) 8).isSome && (match c.lqs[0]?, s.unitRead c c.r.lqb 32 with
      | some l, .ok bs => l.ticket == 0 && l.due && (queueDesc c bs).isSome
      | _, _ => false)
    | none => false) = true) ∧
    ((let s := inCtx (fun c => { c with lqs := c.lqs.set 0 { due := false, desc := (match queueing.unitRead c c.r.lqb 32 with | .ok bs => queueDesc c bs | _ => none) } }) queueing; match s.ctx? 0 with
    | some c => c.active && decide (0 < c.r.lqn) && (s.devSlot c (c.r.lqb + 16) 8).isSome && (match c.lqs[0]? with
      | some l => l.ticket == 0 && !l.due && (match l.desc with
        | some d => !s.lotsFull && decide (d.taken < s.counter (c.r.sqb + d.ctr)) && (match s.unitRead c (d.ring + 8 * (d.taken % d.depth)) 8 with
          | .ok e => leNat e % 64 == 0 && (match s.unitRead c (leNat e) 256 with | .ok rb => (match launchOf c rb with | some r => !s.neverFits c r | none => false) | _ => false)
          | _ => false)
        | none => false)
      | none => false) && Memory.wf s.mem
    | none => false) = true) ∧
    ((let s := urgent 13; match s.spans.find? (fun q => q.id == 60), s.ctx? 0 with
    | some p, some c => (match s.lots.find? (fun l => l.id == p.lot) with
      | some low => s.lots.any fun l => s.lotWaits l && decide (low.r.lpri < l.r.lpri) && l.asid == 0 && c.active && !canHost (s.fitsOn (l.r.load c)) l.r.bands l.r.teams
      | none => false)
    | _, _ => false) = true) ∧
    ((let s := urgent 1; match s.spans.find? (fun q => q.id == 60), s.ctx? 0 with
    | some p, some c => (match s.lots.find? (fun l => l.id == p.lot) with
      | some low => s.lots.any fun l => s.lotWaits l && decide (low.r.lpri < l.r.lpri) && l.asid == 0 && c.active && canHost (s.fitsOn (l.r.load c)) l.r.bands l.r.teams
      | none => false)
    | _, _ => false) = true) ∧
    ((let s := noded id; match s.ctx? 0 with | some c => (match c.nodes[1]? with | some k => (match k.desc with | some d => d.persist && decide (s.emitting 0 1 + (d.coal - k.n) ≤ k.room d) | none => false) && k.cur == some 2 && decide (0 < k.n) && k.timer == 1 | none => false) | none => false) = true) ∧
    ((let s := noded (fun k => { k with timer := 2 }); match s.ctx? 0 with | some c => (match c.nodes[1]? with | some k => (match k.desc with | some d => d.persist | none => false) && k.cur == some 2 && decide (0 < k.n) && k.timer != 1 | none => false) | none => false) = true) ∧
    ((let s := noded (fun k => { k with sealed := [⟨2, 1, 0, true, 0, none⟩] }); match s.ctx? 0 with | some c => (match c.nodes[1]? with | some k => (match k.desc with | some d => d.persist | none => false) && (k.sealed.find? fun q => q.todo).isSome && (match dequeKey c 0 with | some key => !s.poisoned key 8 && decide (s.dequeCount key < 256) | none => false) && Memory.wf s.mem | none => false) | none => false) = true) :=
  by decide
/-- The second thread of the team, which is the system crew's, changed. -/
def inHan (f : Thread → Thread) (s : State) : State := s.modThr 0 1 f
/-- States that meet the hypotheses of `SystemInstructionsComplete`. -/
theorem meets_SystemInstructionsComplete :
    (let s := atWord (.srd {} ⟨false, 4, false, 4⟩)
    Alone s (.srd {} ⟨false, 4, false, 4⟩) (fun _ _ _ _ _ => true)) ∧
    (let s := atWord (.srd {} ⟨false, 4, true, 4⟩)
    Alone s (.srd {} ⟨false, 4, true, 4⟩) (fun _ _ _ _ t => t.served == none)) ∧
    (let s := inHan (fun t => { t with served := some 0 }) (atWord (.srd {} ⟨false, 4, true, 4⟩))
    Alone s (.srd {} ⟨false, 4, true, 4⟩) (fun _ tm _ _ t => t.served == some 0 && (tm.threads[0]?).isSome)) ∧
    (let s := atWord (.swr {} ⟨false, 17, false, .v 4⟩)
    Alone s (.swr {} ⟨false, 17, false, .v 4⟩) (fun _ _ _ _ _ => true)) ∧
    (let s := inHan (fun t => { t with served := some 0 }) (atWord (.swr {} ⟨false, 17, true, .v 4⟩))
    Alone s (.swr {} ⟨false, 17, true, .v 4⟩) (fun _ _ _ _ t => t.served == some 0)) ∧
    (let s := atWord (.cont f0 8)
    Alone s (.cont f0 8) (fun _ tm cr _ _ => (tm.crew? cr.num).isSome)) ∧
    (let s := atWord (.contOff f0)
    Alone s (.contOff f0) (fun _ tm cr _ _ => (tm.crew? cr.num).isSome)) ∧
    (let s := (inThr (fun t => { t with contact := true, ticket := 5, rpt := 72 }) (inCtx (fun c => { c with r := { c.r with psc := 2 } }) (chipped (regs [(2, 2), (4, 5)] (atWord (.resumeSvc {})))))).put (chipKey 16) (natLe 8 5)
    Alone s (.resumeSvc {}) (fun _ tm _ _ t => (s.ctx? tm.asid).isSome && t.contact && t.pend.isEmpty && t.waits.isEmpty && t.late.isEmpty && t.wb.isEmpty && (match s.ctx? tm.asid with | some cx => ctrOf cx cx.r.psc == some 2 && !s.poisoned (chipKey 16) 8 && decide (5 ≤ s.counter 2) | none => false))) ∧
    (let s := (inThr (fun t => { t with contact := true, ticket := 5, rpt := 72 }) (inCtx (fun c => { c with r := { c.r with psc := 2 } }) (chipped (regs [(2, 2), (4, 5)] (atWord (.resume {} ⟨.v 2, 4⟩)))))).put (chipKey 16) (natLe 8 5)
    Alone s (.resume {} ⟨.v 2, 4⟩) (fun _ tm cr _ t => (s.ctx? tm.asid).isSome && t.contact && t.pend.isEmpty && t.waits.isEmpty && t.late.isEmpty && t.wb.isEmpty && (match s.ctx? tm.asid with | some cx => ctrOf cx (srcVal cr.k t false (.v 2)) == some 2 && !s.poisoned (chipKey 16) 8 && decide (5 ≤ s.counter 2) | none => false))) ∧
    (let s := (inThr (fun t => { t with contact := true, ticket := 5, rpt := 72 }) (inCtx (fun c => { c with r := { c.r with psc := 2 } }) (chipped (regs [(2, 2), (4, 5)] (atWord (.resumeSvc {})))))).put (chipKey 16) (natLe 8 4)
    Alone s (.resumeSvc {}) (fun _ tm _ _ t => (s.ctx? tm.asid).isSome && t.contact && t.pend.isEmpty && t.waits.isEmpty && t.late.isEmpty && t.wb.isEmpty && (match s.ctx? tm.asid with | some cx => ctrOf cx cx.r.psc == some 2 && !s.poisoned (chipKey 16) 8 && decide (s.counter 2 < 5) | none => false))) ∧
    (let s := (inThr (fun t => { t with contact := true, ticket := 5, rpt := 72 }) (inCtx (fun c => { c with r := { c.r with psc := 2 } }) (chipped (regs [(2, 2), (4, 5)] (atWord (.resume {} ⟨.v 2, 4⟩)))))).put (chipKey 16) (natLe 8 4)
    Alone s (.resume {} ⟨.v 2, 4⟩) (fun _ tm cr _ t => (s.ctx? tm.asid).isSome && t.contact && t.pend.isEmpty && t.waits.isEmpty && t.late.isEmpty && t.wb.isEmpty && (match s.ctx? tm.asid with | some cx => ctrOf cx (srcVal cr.k t false (.v 2)) == some 2 && !s.poisoned (chipKey 16) 8 && decide (s.counter 2 < 5) | none => false))) :=
  ⟨alone_of (by decide), alone_of (by decide), alone_of (by decide), alone_of (by decide), alone_of (by decide), alone_of (by decide), alone_of (by decide), alone_of (by decide), alone_of (by decide), alone_of (by decide), alone_of (by decide)⟩
/-- States that meet the hypotheses of `TrapTakesTheSoftwareTrap`. -/
theorem meets_TrapTakesTheSoftwareTrap :
    (let s := atWord (.trap {} ⟨5, 0x40⟩)
    Alone s (.trap {} ⟨5, 0x40⟩) (fun _ tm _ _ t => t.crew != 7 && t.pend.isEmpty && t.waits.isEmpty && t.late.isEmpty && t.wb.isEmpty && s.psrWritten tm.asid 0)) :=
  alone_of (by decide)
def aRecord (k : Nat) : FRec := ⟨k, 5, 0x40, 0, 0, 0⟩
/-- The first thread trapped, with the entry in the trap queue. -/
def trapped (s : State) : State := inTeam (fun tm => { tm with trapq := [⟨some 0, aRecord 21, 16⟩] }) (inThr (fun t => { t with status := .trapped, sys := t.sys.putRec (aRecord 21) false }) s)
/-- The system-crew thread serves the first. -/
def serving (k : Nat) (s : State) : State := inHan (fun t => { t with served := some 0, serveInfo := some (aRecord k, 16) }) (inThr (fun t => { t with status := .trapped }) s)
/-- States that meet the hypotheses of `TrapDispatchStartsTheHandler`. -/
theorem meets_TrapDispatchStartsTheHandler :
    ((let s := trapped (atWord (.nop {} 0)); match s.team? 0, s.thr? 0 1, s.ctx? 0, s.thr? 0 0 with
    | some tm, some h, some c, some _ => (match tm.trapq with | e :: _ => e.thr == some 0 | [] => false) && decide (4 ≤ h.v.length) && (h.crew == 7 && h.status == .idle && c.active && !s.savingTeam tm)
    | _, _, _, _ => false) = true) ∧
    ((let s := trapped (inHan (fun t => { t with status := .ready }) (atWord (.nop {} 0))); match s.team? 0, s.thr? 0 1, s.ctx? 0, s.thr? 0 0 with
    | some tm, some h, some c, some _ => (match tm.trapq with | e :: _ => e.thr == some 0 | [] => false) && decide (4 ≤ h.v.length) && !(h.crew == 7 && h.status == .idle && c.active && !s.savingTeam tm)
    | _, _, _, _ => false) = true) :=
  ⟨by decide, by decide⟩
/-- States that meet the hypotheses of `TrapReturnsComplete`. -/
theorem meets_TrapReturnsComplete :
    (let s := serving 21 (atWord (.tretRec {}))
    Alone s (.tretRec {}) (fun _ tm _ j t => t.pend.isEmpty && t.waits.isEmpty && t.late.isEmpty && t.wb.isEmpty && j == 1 && t.served == some 0 && (match t.serveInfo, tm.threads[0]? with | some (r, _), some u => (tm.crew? u.crew).isSome && u.sys.frec.toNat % 8 == 0 && r.kind == 21 | _, _ => false))) ∧
    (let s := serving 21 (atWord (.tretNext {}))
    Alone s (.tretNext {}) (fun _ tm _ j t => t.pend.isEmpty && t.waits.isEmpty && t.late.isEmpty && t.wb.isEmpty && j == 1 && t.served == some 0 && (match t.serveInfo, tm.threads[0]? with | some (r, _), some u => (tm.crew? u.crew).isSome && decide (r.kind ≠ 1 ∧ r.kind ≠ 4) && u.status == .trapped | _, _ => false))) ∧
    (let s := serving 1 (atWord (.tretNext {}))
    Alone s (.tretNext {}) (fun _ tm _ j t => t.pend.isEmpty && t.waits.isEmpty && t.late.isEmpty && t.wb.isEmpty && j == 1 && t.served == some 0 && (match t.serveInfo, tm.threads[0]? with | some (r, _), some u => (tm.crew? u.crew).isSome && r.kind == 1 && u.status == .trapped | _, _ => false))) ∧
    (let s := serving 21 (atWord (.tretKill {}))
    Alone s (.tretKill {}) (fun _ tm _ j t => t.pend.isEmpty && t.waits.isEmpty && t.late.isEmpty && t.wb.isEmpty && j == 1 && t.served == some 0 && (match t.serveInfo, tm.threads[0]? with | some (r, _), some u => (tm.crew? u.crew).isSome && u.pend.isEmpty && u.copiesDone && u.wb.isEmpty && r.kind == 21 | _, _ => false))) ∧
    (let s := serving 21 (atWord (.tretTerm {} 7))
    Alone s (.tretTerm {} 7) (fun _ tm _ j t => t.pend.isEmpty && t.waits.isEmpty && t.late.isEmpty && t.wb.isEmpty && j == 1 && (match s.ctx? tm.asid with | some cx => cx.status.toNat % 4 == 0 | none => false))) :=
  ⟨alone_of (by decide), alone_of (by decide), alone_of (by decide), alone_of (by decide), alone_of (by decide)⟩
def terming (st : DWord) (t : Option (Nat × Nat × Nat)) : State := inCtx (fun c => { c with status := st, term := t }) (chipped (atWord (.nop {} 0)))
/-- States that meet the hypotheses of `ContextsTerminate`. -/
theorem meets_ContextsTerminate :
    ((let s := terming 0 none; match s.ctx? 0 with | some c => c.status.toNat % 4 == 0 && c.term == none | none => false) = true) ∧
    ((let s := terming 0 (some (2, 3, 4)); match s.ctx? 0 with | some c => c.status.toNat % 4 == 0 && c.term == some (2, 3, 4) | none => false) = true) ∧
    ((let s := terming 0 none; match s.ctx? 0 with | some c => c.status.toNat % 4 != 1 | none => false) = true) ∧
    ((let s := terming 1 none; match s.ctx? 0 with | some c => c.status.toNat % 4 == 1 && s.dogs.isEmpty && (s.ctxs.all fun d => d.psq.isEmpty) && Memory.wf s.mem && decide (c.r.sqb + c.r.tctr < 4096) && decide (c.recAddr + 256 ≤ memBytes) | none => false) = true) :=
  by decide
/-- The span wanted, or being saved; the context's image slots hold the largest body (R369). -/
def wanted (n : Nat) (sv : Option (List (Nat × Nat))) (st : TStat) : State :=
  let s := inCtx (fun c => { c with r := { c.r with sab := 0x100000, sas := 0x1010000, sac := n } }) (endable [0] st)
  { s with spans := s.spans.map fun (p : Span) => { p with want := true, saving := sv } }
/-- The size of an image body, which the spec leaves open, is below 2^24 (R372). -/
theorem bodySize_lt (s : State) (i : Nat) : s.bodySize i < 2 ^ 24 := by
  simp only [State.bodySize, List.range, List.range.loop, List.map, leNat]
  have := (Config.freeByte s.tick (16 * i + 0)).isLt
  have := (Config.freeByte s.tick (16 * i + 1)).isLt
  have := (Config.freeByte s.tick (16 * i + 2)).isLt
  omega
/-- The bodies of the span's images fit their slots, whatever their sizes. -/
theorem meets_imagesFit : ∀ c ∈ (wanted 4 none .ready).ctxs, ∀ p ∈ (wanted 4 none .ready).spans, ∀ i ∈ p.teams,
    64 + (wanted 4 none .ready).bodySize i ≤ c.r.sas := by
  intro c hc p _ i _
  have h : ∀ c ∈ (wanted 4 none .ready).ctxs, c.r.sas = 0x1010000 := by decide
  have := h c hc
  have := bodySize_lt (wanted 4 none .ready) i
  omega
/-- The span saved, with the version word of its image, or another, in its slot (R374). -/
def saved (v : Nat) : State :=
  let s := wanted 4 none .ended
  { s.put 0x100000 (natLe 4 v) with
    saved := [{ span := { id := 60, asid := 0, lot := 70, ix := 0, teams := [0] }, teams := s.teams.map fun (tm : Team) => tm.image, holds := [], slots := [(0, 16)] }], spans := [], teams := [] }
/-- States that meet the hypotheses of `SpansAreSavedAndRestored`. -/
theorem meets_SpansAreSavedAndRestored :
    ((let s := wanted 4 none .ready; let s := { s with spans := s.spans ++ s.spans.map fun (p : Span) => { p with id := 61, saving := some [] } }; match s.ctx? 0, s.spans.find? (fun q => q.id == 60 && q.want && q.saving.isNone) with
    | some c, some _ => c.active && s.spans.any fun q => q.saving.isSome
    | _, _ => false) = true) ∧
    ((let s := wanted 0 none .ready; match s.ctx? 0, s.spans.find? (fun q => q.id == 60) with
    | some c, some p => c.active && p.want && p.saving.isNone && (s.spans.all fun q => q.saving.isNone) && s.slotsFor c p.teams.length == none
    | _, _ => false) = true) ∧
    ((let s := wanted 4 none .ready; match s.ctx? 0, s.spans.find? (fun q => q.id == 60) with
    | some c, some p => c.active && p.want && p.saving.isNone && (s.spans.all fun q => q.saving.isNone) && s.slotsFor c p.teams.length == some [0]
    | _, _ => false) = true) ∧
    ((let s := wanted 4 (some [(0, 16)]) .issuing; match s.ctx? 0, s.spans.find? (fun q => q.id == 60) with
    | some c, some p => c.active && p.saving == some [(0, 16)] && !((s.teams.filter fun (t : Team) => t.span == 60).all fun tm => s.teamStill c tm)
    | _, _ => false) = true) ∧
    ((let s := wanted 4 (some [(0, 16)]) .ended; match s.ctx? 0, s.spans.find? (fun q => q.id == 60) with
    | some c, some p => c.active && p.saving == some [(0, 16)] && ((s.teams.filter fun (t : Team) => t.span == 60).all fun tm => s.teamStill c tm)
    | _, _ => false) = true) ∧
    ((let s := saved 0xB00001; match s.saved.find? (fun q => q.span.id == 60), s.ctx? 0, s.lots.find? (fun l => l.id == 70) with
    | some p, some c, some l => c.active && p.span.asid == 0 && p.span.lot == 70 && s.lotFirst l && p.teams.length == 1 && l.id == 70 && s.coresFit (p.teams.map Team.load) (p.teams.map fun t => t.bandIx) [5] && (p.slots.all fun q => !(s.recallImages c p.slots).imageBad c q) &&
        (p.teams.all fun u => s.team? u.id == none) && decide ((p.teams.map fun u => u.id).Nodup)
    | _, _, _ => false) = true) ∧
    ((let s := saved 0xB00002; match s.saved.find? (fun q => q.span.id == 60), s.ctx? 0, s.lots.find? (fun l => l.id == 70) with
    | some p, some c, some l => c.active && p.span.asid == 0 && p.span.lot == 70 && s.lotFirst l && p.teams.length == 1 && l.id == 70 && s.coresFit (p.teams.map Team.load) (p.teams.map fun t => t.bandIx) [5] && (p.slots.all fun q => (s.recallImages c p.slots).imageBad c q) &&
        (p.teams.all fun u => s.team? u.id == none) && decide ((p.teams.map fun u => u.id).Nodup)
    | _, _, _ => false) = true) :=
  by decide
def struck : State := atWord (.nop {} 0)
/-- States that meet the hypotheses of `SoftErrorsStrike`. -/
theorem meets_SoftErrorsStrike :
    ((match struck.thr? 0 0, struck.ctx? 0 with | some t, some c => decide (5 < t.v.length) && !t.badRegs.contains 5 && isScratch (coreKey 0 64) && decide (64 < memBytes) && c.status.toNat % 4 == 0 | _, _ => false) = true) :=
  by decide
/-! ### Cones, debugging, the host, the link and the starts -/
/-- The context has the debug right, and the team a second ordinary thread, halted (R392). -/
def righted (s : State) : State :=
  inTeam (fun tm => { tm with threads := tm.threads ++ [{ Thread.start 0 1 256 16 .ready with dbg := { halted := true } }] }) (inCtx (fun c => { c with debug := true }) s)
/-- A cone in use that fires once, slumped and disarmed (R389). -/
def slumped (s : State) : State := inTeam (fun tm => { tm with cones := tm.cones.set 3 { cw := 0x02284003, cstat := 0, bound := true } }) s
/-- States that meet the hypotheses of `ConeInstructionsComplete`. -/
theorem meets_ConeInstructionsComplete :
    (let s := regs [(20, 7)] (atWord (.coneset f0 ⟨0, 3, .v 20, .v 22, .v 22⟩))
    Alone s (.coneset f0 ⟨0, 3, .v 20, .v 22, .v 22⟩) (fun _ _ _ _ _ => true)) ∧
    (let s := issued (regs [(20, 7)]) (.coneset f0 ⟨0, 3, .v 20, .v 22, .v 22⟩)
    InFlight s (fun tm t o => t.pend == [o] && decide (3 < tm.cones.length) && o.vals == [7, 0, 0] && !coneWordOk ⟨7, 0, 0⟩)) ∧
    (let s := inTeam (fun tm => { tm with cones := (List.range 16).map fun _ => { bound := true } }) (issued (regs [(20, 0x02284003)]) (.coneset f0 ⟨0, 3, .v 20, .v 22, .v 22⟩))
    let s := inTeam (fun tm => { tm with cones := tm.cones.set 3 {} ++ [{ bound := true }] }) s
    InFlight s (fun tm t o => t.pend == [o] && decide (3 < tm.cones.length) && o.vals == [0x02284003, 0, 0] && coneWordOk ⟨0x02284003, 0, 0⟩ && !(tm.cone 3).bound && decide (16 ≤ s.conesUsed tm.core))) ∧
    (let s := issued (regs [(20, 0x02284003)]) (.coneset f0 ⟨0, 3, .v 20, .v 22, .v 22⟩)
    InFlight s (fun tm t o => t.pend == [o] && decide (3 < tm.cones.length) && o.vals == [0x02284003, 0, 0] && coneWordOk ⟨0x02284003, 0, 0⟩ && 0x02284003 % 8 != 0 && decide (s.conesUsed tm.core < 16))) ∧
    (let s := slumped (atWord (.coneclr {} 3))
    Alone s (.coneclr {} 3) (fun _ tm _ _ t => tm.cones.length == 16 && t.pend.isEmpty)) ∧
    (let s := slumped (atWord (.coneclrAll {} false))
    Alone s (.coneclrAll {} false) (fun _ tm _ _ t => tm.cones.length == 16 && t.pend.isEmpty)) ∧
    (let s := slumped (atWord (.coneclrRec {} 3))
    Alone s (.coneclrRec {} 3) (fun _ tm _ _ t => tm.cones.length == 16 && t.pend.isEmpty)) ∧
    (let s := slumped (atWord (.coneclrAll {} true))
    Alone s (.coneclrAll {} true) (fun _ tm _ _ t => tm.cones.length == 16 && t.pend.isEmpty)) :=
  ⟨alone_of (by decide), pending_of (by decide), pending_of (by decide), pending_of (by decide), alone_of (by decide), alone_of (by decide), alone_of (by decide), alone_of (by decide)⟩
/-- States that meet the hypotheses of `HaltInstructionsComplete`. -/
theorem meets_HaltInstructionsComplete :
    (let s := atWord (.haltSelf {})
    Alone s (.haltSelf {}) (fun _ tm _ _ t => t.pend.isEmpty && !s.hasRight tm)) ∧
    (let s := atWord (.haltCrew {})
    Alone s (.haltCrew {}) (fun _ tm _ _ t => t.pend.isEmpty && !s.hasRight tm)) ∧
    (let s := atWord (.haltTeam {})
    Alone s (.haltTeam {}) (fun _ tm _ _ t => t.pend.isEmpty && !s.hasRight tm)) ∧
    (let s := atWord (.haltThr {} ⟨0, 0⟩)
    Alone s (.haltThr {} ⟨0, 0⟩) (fun _ tm _ _ t => t.pend.isEmpty && !s.hasRight tm)) ∧
    (let s := atWord (.haltRel {} (.thr ⟨1, 0⟩))
    Alone s (.haltRel {} (.thr ⟨1, 0⟩)) (fun _ tm _ _ t => t.pend.isEmpty && !s.hasRight tm)) ∧
    (let s := righted (atWord (.haltSelf {}))
    Alone s (.haltSelf {}) (fun _ tm _ j t => t.pend.isEmpty && j == 0 && s.hasRight tm && (match tm.threads[0]? with | some u => 0 == j && u.crew != 7 && u.status != .ended && u.status != .idle && u.yieldLeft == 0 && !u.dbg.halted && u.dbg.req == none | none => false))) ∧
    (let s := righted (atWord (.haltCrew {}))
    Alone s (.haltCrew {}) (fun _ tm _ j t => t.pend.isEmpty && j == 0 && s.hasRight tm && (match tm.threads[0]? with | some u => u.crew == t.crew && u.crew != 7 && u.status != .ended && u.status != .idle && u.yieldLeft == 0 && !u.dbg.halted && u.dbg.req == none | none => false))) ∧
    (let s := righted (atWord (.haltTeam {}))
    Alone s (.haltTeam {}) (fun _ tm _ j t => t.pend.isEmpty && j == 0 && s.hasRight tm && (match tm.threads[0]? with | some u => u.crew != 7 && u.crew != 7 && u.status != .ended && u.status != .idle && u.yieldLeft == 0 && !u.dbg.halted && u.dbg.req == none | none => false))) ∧
    (let s := righted (atWord (.haltThr {} ⟨0, 0⟩))
    Alone s (.haltThr {} ⟨0, 0⟩) (fun _ tm _ j t => t.pend.isEmpty && j == 0 && s.hasRight tm && (match tm.threads[0]? with | some u => tm.select 0 0 == some 0 && u.crew != 7 && u.status != .ended && u.status != .idle && u.yieldLeft == 0 && !u.dbg.halted && u.dbg.req == none | none => false))) ∧
    (let s := righted (atWord (.haltRel {} (.thr ⟨1, 0⟩)))
    Alone s (.haltRel {} (.thr ⟨1, 0⟩)) (fun _ tm _ _ t => t.pend.isEmpty && s.hasRight tm && (relSet tm (.thr ⟨1, 0⟩)).contains 2 && (match tm.threads[2]? with | some u => u.isHalted | none => false))) :=
  ⟨alone_of (by decide), alone_of (by decide), alone_of (by decide), alone_of (by decide), alone_of (by decide), alone_of (by decide), alone_of (by decide), alone_of (by decide), alone_of (by decide), alone_of (by decide)⟩
/-- States that meet the hypotheses of `InspectionInstructionsComplete`. -/
theorem meets_InspectionInstructionsComplete :
    (let s := righted (regs [(40, 1), (41, 0x9000)] (atWord (.inspr f0 ⟨false, 30, .v 40, .v 41, 5⟩)))
    Alone s (.inspr f0 ⟨false, 30, .v 40, .v 41, 5⟩) (fun _ _ cr _ t => t.pend.isEmpty && itemOf (srcVal cr.k t false (.v 41)) false == none)) ∧
    (let s := righted (regs [(40, 1), (41, 6)] (inCtx id (atWord (.inspr f0 ⟨false, 30, .v 42, .v 41, 5⟩))))
    Alone s (.inspr f0 ⟨false, 30, .v 42, .v 41, 5⟩) (fun _ tm cr j t => t.pend.isEmpty && (match itemOf (srcVal cr.k t false (.v 41)) false with | some i => !s.started.itemOk tm cr j (tm.selectReg (srcVal cr.k t false (.v 42))) false i | none => false))) ∧
    (let s := righted (regs [(40, 1), (41, 6)] (atWord (.inspr f0 ⟨false, 30, .v 40, .v 41, 5⟩)))
    Alone s (.inspr f0 ⟨false, 30, .v 40, .v 41, 5⟩) (fun _ tm cr j t => t.pend.isEmpty && (match itemOf (srcVal cr.k t false (.v 41)) false with | some i => s.started.itemOk tm cr j (tm.selectReg (srcVal cr.k t false (.v 40))) false i | none => false))) ∧
    (let s := righted (regs [(40, 0x8001), (41, 6)] (atWord (.inspw f0 ⟨false, 1, .v 40, .v 41, .v 42⟩)))
    Alone s (.inspw f0 ⟨false, 1, .v 40, .v 41, .v 42⟩) (fun _ tm cr _ t => t.pend.isEmpty && tm.selectReg (srcVal cr.k t false (.v 40)) == none)) ∧
    (let s := righted (regs [(40, 1), (41, 0x600), (42, 9)] (atWord (.inspw f0 ⟨false, 1, .v 40, .v 41, .v 42⟩)))
    Alone s (.inspw f0 ⟨false, 1, .v 40, .v 41, .v 42⟩) (fun _ tm cr j t => t.pend.isEmpty && (match itemOf (srcVal cr.k t false (.v 41)) false, tm.selectReg (srcVal cr.k t false (.v 40)), s.ctx? tm.asid with | some i, some k, some _ => (match tm.threads[k]? with | some u => u.mon == none && t.mon == none && !(s.started.itemOk tm cr j (some k) false i && itemWritable 9 i) | none => false) | _, _, _ => false))) ∧
    (let s := righted (regs [(40, 1), (41, 6), (42, 9)] (atWord (.inspw f0 ⟨false, 1, .v 40, .v 41, .v 42⟩)))
    Alone s (.inspw f0 ⟨false, 1, .v 40, .v 41, .v 42⟩) (fun _ tm cr j t => t.pend.isEmpty && (match itemOf (srcVal cr.k t false (.v 41)) false, tm.selectReg (srcVal cr.k t false (.v 40)), s.ctx? tm.asid with | some i, some k, some _ => (match tm.threads[k]? with | some u => u.mon == none && t.mon == none && s.started.itemOk tm cr j (some k) false i && itemWritable 9 i && i == .v 6 | none => false) | _, _, _ => false))) ∧
    (let s := righted (regs [(40, 1), (41, 256), (42, 9)] (atWord (.inspw f0 ⟨false, 1, .v 40, .v 41, .v 42⟩)))
    Alone s (.inspw f0 ⟨false, 1, .v 40, .v 41, .v 42⟩) (fun _ tm cr j t => t.pend.isEmpty && (match itemOf (srcVal cr.k t false (.v 41)) false, tm.selectReg (srcVal cr.k t false (.v 40)), s.ctx? tm.asid with | some i, some k, some _ => (match tm.threads[k]? with | some u => u.mon == none && t.mon == none && s.started.itemOk tm cr j (some k) false i && itemWritable 9 i && i == .p | none => false) | _, _, _ => false))) ∧
    (let s := righted (regs [(40, 1), (41, 1038), (42, 9)] (atWord (.inspw f0 ⟨false, 1, .v 40, .v 41, .v 42⟩)))
    Alone s (.inspw f0 ⟨false, 1, .v 40, .v 41, .v 42⟩) (fun _ tm cr j t => t.pend.isEmpty && (match itemOf (srcVal cr.k t false (.v 41)) false, tm.selectReg (srcVal cr.k t false (.v 40)), s.ctx? tm.asid with | some i, some k, some _ => (match tm.threads[k]? with | some u => u.mon == none && t.mon == none && s.started.itemOk tm cr j (some k) false i && itemWritable 9 i && i == .sreg 14 | none => false) | _, _, _ => false))) ∧
    (let s := righted (regs [(40, 1), (41, 0x300), (42, 64)] (atWord (.inspw f0 ⟨true, 1, .v 40, .v 41, .v 42⟩)))
    Alone s (.inspw f0 ⟨true, 1, .v 40, .v 41, .v 42⟩) (fun _ tm cr j t => t.pend.isEmpty && (match itemOf (srcVal cr.k t false (.v 41)) true, tm.selectReg (srcVal cr.k t false (.v 40)), s.ctx? tm.asid with | some i, some k, some _ => (match tm.threads[k]? with | some u => u.mon == none && t.mon == none && s.started.itemOk tm cr j (some k) true i && itemWritable 64 i && i == .next | none => false) | _, _, _ => false))) ∧
    (let s := righted (regs [(40, 0x8001)] (atWord (.step f0 ⟨5, .v 40⟩)))
    Alone s (.step f0 ⟨5, .v 40⟩) (fun _ tm cr _ t => t.pend.isEmpty && t.status != .grouped && tm.selectReg (srcVal cr.k t false (.v 40)) == none)) ∧
    (let s := righted (regs [(40, 1)] (atWord (.step f0 ⟨5, .v 40⟩)))
    Alone s (.step f0 ⟨5, .v 40⟩) (fun _ tm cr j t => t.pend.isEmpty && t.status != .grouped && s.hasRight tm && cr.num != 7 && j != 2 && tm.selectReg (srcVal cr.k t false (.v 40)) == some 2 && (match tm.threads[2]? with | some u => u.isHalted | none => false))) ∧
    ((let s := issued (fun s => righted (regs [(40, 1), (41, 6)] s)) (.inspr f0 ⟨false, 30, .v 40, .v 41, 5⟩); match s.thr? 0 0 with
    | some t => (match t.op? 2 with
      | some o => o.res == some [(30, 0)] && t.status != .stopped && !t.wbBlocks o && t.pend == [o] && (([(30, 0)] : List (Nat × Word)).all fun w => o.dst.contains w.1)
      | none => false)
    | none => false) = true) ∧
    ((let s := issued (fun s => righted (regs [(40, 1), (41, 6), (42, 9)] s)) (.inspw f0 ⟨false, 1, .v 40, .v 41, .v 42⟩); match s.thr? 0 0 with
    | some t => (match t.op? 2 with
      | some o => o.res == some [] && t.status != .stopped && !t.wbBlocks o && t.pend == [o] && (([] : List (Nat × Word)).all fun w => o.dst.contains w.1)
      | none => false)
    | none => false) = true) ∧
    ((let s := inThr (fun t => { t with pend := t.pend.map fun o => { o with res := some [] } }) (issued (fun s => righted (regs [(40, 1)] s)) (.step f0 ⟨5, .v 40⟩)); match s.thr? 0 0 with
    | some t => (match t.op? 2 with | some o => o.res == some [] && t.status != .stopped && !t.wbBlocks o && t.pend == [o] | none => false)
    | none => false) = true) :=
  ⟨alone_of (by decide), alone_of (by decide), alone_of (by decide), alone_of (by decide), alone_of (by decide), alone_of (by decide), alone_of (by decide), alone_of (by decide), alone_of (by decide), alone_of (by decide), alone_of (by decide), by decide, by decide, by decide⟩
/-- The trace unit of core 0 with a ring at 0x8000 of 4 records (R397, R398). -/
def traced (ctl : Word) (q : List (List Byte)) (s : State) : State :=
  { s with cores := s.cores.modify 0 fun k => { k with trace := { k.trace with base := 0x8000, size := 4, ctl := ctl, queue := q } } }
def aTrace : List Byte := List.replicate 32 5
/-- States that meet the hypotheses of `TmarkWritesItsRecord`. -/
theorem meets_TmarkWritesItsRecord :
    (let s := atWord (.tmark {} ⟨1, 2⟩)
    Alone s (.tmark {} ⟨1, 2⟩) (fun _ tm _ _ _ => (match s.cores[tm.core]? with | some k => k.trace.base == 0 | none => false))) ∧
    (let s := traced 8 [] (atWord (.tmark {} ⟨1, 2⟩))
    Alone s (.tmark {} ⟨1, 2⟩) (fun _ tm _ _ _ => (match s.cores[tm.core]? with | some k => k.trace.base != 0 && k.trace.ctl.getLsbD 3 && decide (k.trace.queue.length < 64) | none => false))) :=
  ⟨alone_of (by decide), alone_of (by decide)⟩
/-- The first thread ready, asked to halt, at a clause whose header is a stop site, or not (R27, R393). -/
def asked (stop : Bool) : State :=
  inThr (fun t => { t with status := .ready, dbg := { t.dbg with req := some (1, 0) } }) ((paged (atWord (.nop {} 0))).put 16 (natLe 8 (if stop then 2 ^ 20 else 0)))
/-- States that meet the hypotheses of `HaltsLandAndTracesWrite`. -/
theorem meets_HaltsLandAndTracesWrite :
    ((let s := asked true; match s.team? 0, s.thr? 0 0, s.ctx? 0 with
    | some tm, some t, some c => c.active && t.pend.isEmpty && t.wb.isEmpty && t.late.isEmpty && t.waits.isEmpty && t.yieldLeft == 0 && !t.hdrWait && !t.dbg.halted && !t.dbg.landed && !t.dbg.stepping && t.dbg.req == some (1, 0) && s.atStop c tm t == true
    | _, _, _ => false) = true) ∧
    ((let s := asked false; match s.team? 0, s.thr? 0 0, s.ctx? 0 with
    | some tm, some t, some c => c.active && t.pend.isEmpty && t.wb.isEmpty && t.late.isEmpty && t.waits.isEmpty && t.yieldLeft == 0 && !t.hdrWait && !t.dbg.halted && !t.dbg.landed && !t.dbg.stepping && t.dbg.req == some (1, 0) && s.atStop c tm t == false
    | _, _, _ => false) = true) ∧
    (((match State.reset.cores[0]? with | some c => c.trace.queue.isEmpty | none => false)) = true) ∧
    ((let s := traced 8 [aTrace] State.reset; (match s.cores[0]? with | some c => c.trace.queue == [aTrace] && c.trace.base != 0 && c.trace.size != 0 && Memory.wf s.mem && aTrace.length == 32 && decide (c.trace.base.toNat + 32 * (c.trace.head.toNat % c.trace.size.toNat) + 32 ≤ memBytes) | none => false)) = true) :=
  by decide
/-- A machine whose main side is off (R434). -/
def mainOff : State := { State.reset with mgmt := { State.reset.mgmt with mainUp := false } }
/-- An aligned address of the register window and of the counter window (R423). -/
def aReg : Nat := 2 ^ 46 + 0x18
def aCtr : Nat := 2 ^ 47 + 16
/-- States that meet the hypotheses of `HostAccessesComplete`. -/
theorem meets_HostAccessesComplete :
    ((!mainOff.mgmt.mainUp) = true) ∧
    ((State.reset.mgmt.mainUp) = true) ∧
    (((2 : BitVec 4) != 1 && State.reset.mgmt.mainUp) = true) ∧
    ((let s := State.reset; let o : HostReadOp := ⟨1, 3, 64, 7⟩; let a := o.addr.toNat; let n := o.len.val + 1; s.mgmt.mainUp && memAccessOk a n && !s.poisoned a n) = true) ∧
    ((let s := State.reset; let o : HostReadOp := ⟨1, 3, BitVec.ofNat 48 aReg, 3⟩; let a := o.addr.toNat; let n := o.len.val + 1; s.mgmt.mainUp && inRegWindow a && wordAccessOk a n) = true) ∧
    ((let s := State.reset; let o : HostReadOp := ⟨1, 3, BitVec.ofNat 48 aCtr, 7⟩; let a := o.addr.toNat; let n := o.len.val + 1; s.mgmt.mainUp && inCtrWindow a && wordAccessOk a n && !s.poisoned (chipKey (a - 2 ^ 47)) n) = true) ∧
    ((let s := State.reset; let o : HostReadOp := ⟨1, 3, 3, 7⟩; let a := o.addr.toNat; let n := o.len.val + 1; s.mgmt.mainUp && !inRegWindow a && !inCtrWindow a && !memAccessOk a n) = true) ∧
    ((memAccessOk 64 4 && Memory.wf State.reset.mem) = true) ∧
    ((!inRegWindow 3 && !inCtrWindow 3 && !memAccessOk 3 4) = true) ∧
    ((inCtrWindow aCtr && (natLe 8 5).length == 8 && aCtr % 8 == 0 && !State.reset.poisoned (chipKey (aCtr - 2 ^ 47)) 8 && State.reset.ctxs.isEmpty && Memory.wf State.reset.mem) = true) ∧
    ((inCtrWindow aCtr && (natLe 4 5).length != 8) = true) :=
  by decide
/-- States that meet the hypotheses of `HostRegisterWritesComplete`. -/
theorem meets_HostRegisterWritesComplete :
    (((State.reset.host.watch[63]?).isSome && !(5 : BitVec 32).getLsbD 31) = true) ∧
    ((decide ((0x1A : Nat) % 4 ≠ 0)) = true) :=
  ⟨by decide, by decide⟩
/-- The host record changed. -/
def hosted (f : HostRegs → HostRegs) (s : State) : State := { s with host := f s.host }
def liveCtx (st : DWord) (arg : DWord) : State := hosted (fun h => { h with hcmdarg := arg }) (terming st none)
/-- A context record that keeps every range of R356: ASID 5, 64 KiB of `.chip` from 64 KiB, one counter. -/
def recBytes : List Byte := natLe 8 0x40000000 ++ natLe 2 5 ++ [1, 1] ++ natLe 4 0 ++ natLe 8 0 ++ natLe 4 65536 ++ natLe 4 65536 ++ natLe 8 0 ++ natLe 8 0 ++ natLe 8 0 ++ natLe 8 0 ++
  [0, 0] ++ natLe 2 0 ++ natLe 2 1 ++ natLe 2 0 ++ natLe 2 0 ++ natLe 2 0 ++ natLe 4 0 ++ natLe 8 0 ++ natLe 8 0 ++ natLe 4 1 ++ List.replicate 156 0
def registering : State := hosted (fun h => { h with hcmdarg := 0x800 }) (State.reset.put 0x800 recBytes)
def pending (c : HostCmd) : State := { hosted (fun h => { h with hcmdstat := 1 }) (terming 0 none) with hcmd := some c }
/-- States that meet the hypotheses of `HostCommandsRun`. -/
theorem meets_HostCommandsRun :
    ((let s := hosted (fun h => { h with hcmdstat := 1 }) State.reset; s.mgmt.mainUp && s.busy) = true) ∧
    ((let s := State.reset; s.mgmt.mainUp && !s.busy && s.ctx? 7 == none && decide (7 < 512)) = true) ∧
    ((let s := State.reset; s.mgmt.mainUp && !s.busy && s.ctx? 7 == none && decide (7 < 512)) = true) ∧
    ((let s := State.reset; s.mgmt.mainUp && !s.busy && s.ctx? 7 == none && decide (7 < 512)) = true) ∧
    ((let s := State.reset; s.mgmt.mainUp && !s.busy && s.ctx? 7 == none && decide (7 < 512)) = true) ∧
    ((let s := State.reset; s.mgmt.mainUp && !s.busy && s.ctx? 7 == none && decide (7 < 512)) = true) ∧
    ((let s := State.reset; s.mgmt.mainUp && !s.busy && s.ctx? 7 == none && decide (7 < 512)) = true) ∧
    ((!State.reset.busy && decide (¬ (1 ≤ 12 ∧ 12 ≤ 9))) = true) ∧
    ((let s := hosted (fun h => { h with hcmdarg := 8 }) State.reset; !s.busy && decide (s.host.hcmdarg.toNat % 256 ≠ 0)) = true) ∧
    ((decide ((4095 : Nat) < 4096) && !State.reset.busy) = true) ∧
    ((let s := hosted (fun h => { h with hcmdarg := 0xFFFFFFFFFFFF }) State.reset; !s.busy && decide (memBytes < s.host.hcmdarg.toNat + 16760)) = true) ∧
    ((!registering.busy && registering.registerResult 0x800 == 0) = true) ∧
    ((let s := liveCtx 0 0; s.mgmt.mainUp && !s.busy && (match s.ctx? 0 with | some c => c.status.toNat % 4 == 0 | none => false) && bits s.host.hcmdarg.toNat 15 1 == 0 && bits s.host.hcmdarg.toNat 63 57 == 0) = true) ∧
    ((let s := liveCtx 0 0; s.mgmt.mainUp && !s.busy && (match s.ctx? 0 with | some c => c.status.toNat % 4 == 0 | none => false) && bits s.host.hcmdarg.toNat 15 1 == 0 && bits s.host.hcmdarg.toNat 63 57 == 0) = true) ∧
    ((let s := liveCtx 0 0; s.mgmt.mainUp && !s.busy && (match s.ctx? 0 with | some c => c.status.toNat % 4 == 0 | none => false) && bits s.host.hcmdarg.toNat 15 1 == 0 && bits s.host.hcmdarg.toNat 63 57 == 0) = true) ∧
    ((let s := liveCtx 2 0; s.mgmt.mainUp && !s.busy && (match s.ctx? 0 with | some c => c.status.toNat % 4 == 2 | none => false) && bits s.host.hcmdarg.toNat 15 1 == 0 && bits s.host.hcmdarg.toNat 63 57 == 0) = true) ∧
    ((let s := liveCtx 0 0; s.mgmt.mainUp && !s.busy && (match s.ctx? 0 with | some c => c.status.toNat % 4 == 0 | none => false) && bits s.host.hcmdarg.toNat 15 1 == 0 && bits s.host.hcmdarg.toNat 63 57 == 0) = true) ∧
    ((let s := liveCtx 0 0; !s.busy && (match s.ctx? 0 with | some c => c.status.toNat % 4 != 2 | none => false)) = true) ∧
    ((let s := inTeam (fun tm => { tm with lotid := 1 }) (hosted (fun h => { h with hcmdarg := 1 }) (wanted 4 none .ready)); !s.busy && (match s.spanNamed 0 s.host.hcmdarg.toNat, s.ctx? 0 with | some p, some c => (s.slotsFor c p.teams.length).isSome | _, _ => false)) = true) ∧
    ((let s := liveCtx 0 9; !s.busy && decide (3 ≤ 4095) && (s.ctxs.all fun c => c.psq.isEmpty) && Memory.wf s.mem && (s.host.watch.all fun w => !w.1.getLsbD 31)) = true) ∧
    ((let s := liveCtx 0 0x800; !s.busy && decide (s.host.hcmdarg.toNat + 16760 ≤ memBytes) && Memory.wf s.mem) = true) ∧
    ((let s := pending { op := 4, arg := 0, harg := 0, result := 0, asid := 0 }; s.mgmt.mainUp && (match s.hcmd with | some c => s.cmdResult c == some 0 | none => false)) = true) :=
  by decide
/-- States that meet the hypotheses of `PeerRequestsAreAnswered`. -/
theorem meets_PeerRequestsAreAnswered :
    ((State.reset.mgmt.mainUp && State.reset.ctx? 7 == none) = true) ∧
    ((let s := (paged (terming 0 none)).put 64 (natLe 4 7); let k : PeerKind := .load 4; s.mgmt.mainUp && peerAligned k 64 && (match s.ctx? 0 with | some c => (match s.xlate c none 64 (peerNeeds k).1 false with | .ok pa => pa == 64 | _ => false) | none => false) && !s.poisoned 64 (peerNeeds k).2.1 && Memory.wf s.mem && decide (64 + (peerNeeds k).2.1 ≤ memBytes)) = true) ∧
    ((let s := (paged (terming 0 none)).put 64 (natLe 4 7); let k : PeerKind := .store [1, 2, 3, 4]; s.mgmt.mainUp && peerAligned k 64 && (match s.ctx? 0 with | some c => (match s.xlate c none 64 (peerNeeds k).1 false with | .ok pa => pa == 64 | _ => false) | none => false) && !s.poisoned 64 (peerNeeds k).2.1 && Memory.wf s.mem && decide (64 + (peerNeeds k).2.1 ≤ memBytes)) = true) ∧
    ((let s := (paged (terming 0 none)).put 64 (natLe 4 7); let k : PeerKind := .atom .add .n32 5; s.mgmt.mainUp && peerAligned k 64 && (match s.ctx? 0 with | some c => (match s.xlate c none 64 (peerNeeds k).1 false with | .ok pa => pa == 64 | _ => false) | none => false) && !s.poisoned 64 (peerNeeds k).2.1 && Memory.wf s.mem && decide (64 + (peerNeeds k).2.1 ≤ memBytes)) = true) ∧
    ((let s := (paged (terming 0 none)).put 64 (natLe 4 7); let k : PeerKind := .cas false 7 9; s.mgmt.mainUp && peerAligned k 64 && (match s.ctx? 0 with | some c => (match s.xlate c none 64 (peerNeeds k).1 false with | .ok pa => pa == 64 | _ => false) | none => false) && !s.poisoned 64 (peerNeeds k).2.1 && Memory.wf s.mem && decide (64 + (peerNeeds k).2.1 ≤ memBytes)) = true) :=
  by decide
def started (f : StartRec → StartRec) : State := { State.reset with mgmt := { State.reset.mgmt with start := f State.reset.mgmt.start } }
def aStart : StartOp := ⟨⟨[1], 1, [], [], [], []⟩, ⟨[2], 1, [], [], [], []⟩, 2 ^ 96 - 1, [3], []⟩
def atStep3 : State := { mainOff with mgmt := { mainOff.mgmt with boot := some (3, aStart) } }
/-- States that meet the hypotheses of `StartsAndPowerRun`. -/
theorem meets_StartsAndPowerRun :
    ((let s := started id; s.mgmt.start.cur == 0 && !s.mgmt.start.begin.stuck) = true) ∧
    ((let s := started (fun r => { r with cur := 4 }); s.mgmt.start.cur != 0 && !s.mgmt.start.begin.stuck) = true) ∧
    (((started fun r => { r with cur := 4, fails := 200 }).mgmt.start.begin.stuck) = true) ∧
    (((5 : BitVec 16) != 0x5254) = true) ∧
    ((let s := after (.powerOn aStart) State.reset; s.mgmt.boot == some (2, aStart)) = true) ∧
    (atStep3.mgmt.boot = some (3, aStart) ∧
      (imagePasses (atStep3.mgmt.start.image aStart) = false ∨ imagePasses (atStep3.mgmt.start.image aStart) = true)) ∧
    ((State.reset.mgmt.boot == none) = true) :=
  ⟨by decide, by decide, by decide, by decide, by decide, ⟨rfl, by cases imagePasses (atStep3.mgmt.start.image aStart) <;> simp⟩, by decide⟩
/-- States that meet the hypotheses of `DolmirAndLimiterComplete`. -/
theorem meets_DolmirAndLimiterComplete :
    ((State.reset.mgmt.mainUp && decide (16 ≤ 32) && decide (¬ 16 ≤ 8)) = true) ∧
    ((let s := hosted (fun h => { h with evbase := 0x8000, evsize := 4 }) State.reset; s.host.evbase != 0 && s.host.evsize != 0) = true) ∧
    ((decide ((0x40 : BitVec 16) = 0x40 ∧ (natLe 4 200).length = 4)) = true) ∧
    ((keyWrite ⟨0x50, natLe 2 0x5254⟩ && !keyWrite ⟨0x50, natLe 2 0x5255⟩) = true) :=
  by decide
/-- A clause of one NOP at 64, whose header is a stop site and a region entry, and the first thread ready there (R26, R27). -/
def clauseAt (ws : List Nat) : State :=
  inThr (fun t => { t with status := .ready, pc := 64 }) (({ paged (atWord (.nop {} 0)) with issues := [] }).put 64 ((ws.map fun w => natLe 8 w).flatten))
def aClause : List Nat := [(oneWordHeader (BitVec.ofNat 64 ((encode (.iadd {} ib)).getD 0))).toNat + 3 * 2 ^ 21, (encode (.iadd {} ib)).getD 0]
/-- The first thread ready with a fault to be taken (R360 to R362). -/
def faulty (kind : Nat) (conta : Option DWord) (late : Bool) : State :=
  inCrew (fun c => { c with conta := conta }) (inThr (fun t => { t with status := .ready, late := if late then [⟨1, ⟨kind, 2, 64, 5, 0, 0⟩, 16, 0⟩] else [] }) (chipped (atWord (.nop {} 0))))
def sysFault : State := inHan (fun t => { t with status := .ready, late := [⟨1, ⟨8, 2, 64, 5, 0, 0⟩, 16, 0⟩] }) (chipped (atWord (.nop {} 0)))
/-- The system-crew thread with the word of an instruction in hand. -/
def sysWord (i : Instr) : State :=
  let s := atWord (.tretRec {})
  { s with issues := s.issues.map fun (x : Issue) => { x with words := (encode i).toList.map fun w => BitVec.ofNat 64 w } }
/-- States that meet the hypotheses of `FaultsAreTaken`. -/
theorem meets_FaultsAreTaken :
    ((let s := faulty 8 none false; match s.team? 0, s.thr? 0 0, s.ctx? 0 with
    | some tm, some t, some c => t.status == .ready && t.pend.isEmpty && t.crew != 7 && s.psrWritten tm.asid 0 && c.status.toNat % 4 == 0 && t.late.isEmpty
    | _, _, _ => false) = true) ∧
    ((let s := faulty 8 none true; match s.team? 0, s.thr? 0 0, s.ctx? 0 with
    | some tm, some t, some c => t.status == .ready && t.pend.isEmpty && t.crew != 7 && s.psrWritten tm.asid 0 && c.status.toNat % 4 == 0 && (match t.late with | [f] => decide (f.r.kind < 32) | _ => false)
    | _, _, _ => false) = true) ∧
    ((let s := faulty 33 none true; match s.team? 0, s.thr? 0 0, s.ctx? 0 with
    | some tm, some t, some c => t.status == .ready && t.pend.isEmpty && t.crew != 7 && s.psrWritten tm.asid 0 && c.status.toNat % 4 == 0 && (match t.late with | [f] => f.r.kind == 33 | _ => false) && ((tm.crew? t.crew).bind fun q => q.conta) == none
    | _, _, _ => false) = true) ∧
    ((let s := faulty 33 (some 0x40) true; match s.team? 0, s.thr? 0 0, s.ctx? 0 with
    | some tm, some t, some c => t.status == .ready && t.pend.isEmpty && t.crew != 7 && s.psrWritten tm.asid 0 && c.status.toNat % 4 == 0 && (match t.late with | [f] => decide (32 < f.r.kind) | _ => false) && ((tm.crew? t.crew).bind fun q => q.conta) == some 0x40 && !t.contact
    | _, _, _ => false) = true) ∧
    ((let s := faulty 32 (some 0x40) true; match s.team? 0, s.thr? 0 0, s.ctx? 0 with
    | some tm, some t, some c => t.status == .ready && t.pend.isEmpty && t.crew != 7 && s.psrWritten tm.asid 0 && c.status.toNat % 4 == 0 && (match t.late with | [f] => f.r.kind == 32 | _ => false) && ((tm.crew? t.crew).bind fun q => q.conta) == some 0x40 && !t.contact
    | _, _, _ => false) = true) ∧
    ((match sysFault.thr? 0 1, sysFault.ctx? 0 with | some t, some c => t.status == .ready && t.crew == 7 && (match t.late with | [_] => true | _ => false) && t.pend.isEmpty && c.status.toNat % 4 == 0 | _, _ => false) = true) ∧
    (let s := atWord (.ill 5)
    Alone s (.ill 5) (fun _ _ _ _ t => t.crew != 7 && t.pend.isEmpty && t.late.isEmpty && t.wb.isEmpty)) ∧
    (let s := sysWord (.trap {} ⟨5, 0x40⟩)
    Alone s (.trap {} ⟨5, 0x40⟩) (fun x tm _ _ t => (match decode x.word.toNat with | .ok i => i == .trap {} ⟨5, 0x40⟩ | .error _ => false) && t.crew == 7 && t.pend.isEmpty && t.waits.isEmpty && t.late.isEmpty && t.wb.isEmpty && (match s.ctx? tm.asid with | some c => c.status.toNat % 4 == 0 | none => false))) ∧
    (let s := sysWord (.ill 5)
    Alone s (.ill 5) (fun _ tm _ _ t => t.crew == 7 && t.pend.isEmpty && t.waits.isEmpty && t.late.isEmpty && t.wb.isEmpty && (match s.ctx? tm.asid with | some c => c.status.toNat % 4 == 0 | none => false))) :=
  ⟨by decide, by decide, by decide, by decide, by decide, by decide, alone_of (by decide), alone_of (by decide), alone_of (by decide)⟩
def holding (slot : Bool) : State := { atWord (.nop {} 0) with holds := [⟨9, 0, 0, 0, [0], slot⟩] }
def yielding (n : Nat) : State := inThr (fun t => { t with yieldLeft := n }) (atWord (.nop {} 0))
/-- The first thread ready, waiting at an instruction (R201). -/
def waiting (i : Instr) (vals : List Nat) (v : Nat) : State :=
  (inThr (fun t => { t with status := .ready, waits := [{ id := 2, i := i, vals := vals, stage := 1, waited := true, key := chipKey 16, len := 8 }] }) (chipped (atWord (.nop {} 0)))).put (chipKey 16) (natLe 8 v)
def atomic : State := issued (fun s => regs [(2, 64)] (paged s)) (.red f0 ⟨.max, .i32, .mem, .v 2, .v 4⟩)
/-- States that meet the hypotheses of `CoreEventsAct`. -/
theorem meets_CoreEventsAct :
    (((holding true).nextHold 0 == none) = true) ∧
    (((holding false).nextHold 0 == some 9 && decide ((holding false).slotsUsed 0 < 4)) = true) ∧
    (((match (yielding 3).thr? 0 0 with | some t => t.yieldLeft != 1 | none => false)) = true) ∧
    (((match (yielding 1).thr? 0 0 with | some t => t.yieldLeft == 1 && !t.isHalted && !t.dbg.landed | none => false)) = true) ∧
    ((let s := waiting (.nop {} 0) [] 0; match s.team? 0, s.thr? 0 0 with
    | some tm, some t => (tm.crew? t.crew).isSome && (match t.waits with | [o] => o.id == 2 && o.waited && !o.redo && o.stage == 1 | _ => false) && t.status == .ready && !t.isHalted && t.late.isEmpty && t.dbg.req == none && !s.savingTeam tm && t.pend.isEmpty
    | _, _ => false) = true) ∧
    ((let s := waiting (.fenceRel f0 .chip) [] 0; match s.team? 0, s.thr? 0 0 with
    | some tm, some t => (tm.crew? t.crew).isSome && (match t.waits with | [o] => o.id == 2 && o.waited && !o.redo && true | _ => false) && t.status == .ready && !t.isHalted && t.late.isEmpty && t.dbg.req == none && !s.savingTeam tm && t.pend.isEmpty
    | _, _ => false) = true) ∧
    ((let s := waiting (.sqwait {} ⟨.chip, false, .v 2, .v 4⟩) [0, 2, 5] 5; match s.team? 0, s.thr? 0 0 with
    | some tm, some t => (tm.crew? t.crew).isSome && (match t.waits with | [o] => o.id == 2 && o.waited && !o.redo && !s.poisoned o.key 8 && decide (o.vals.getD 2 0 ≤ s.counter (o.vals.getD 1 0)) | _ => false) && t.status == .ready && !t.isHalted && t.late.isEmpty && t.dbg.req == none && !s.savingTeam tm && t.pend.isEmpty
    | _, _ => false) = true) ∧
    ((let s := waiting (.sqwait {} ⟨.chip, false, .v 2, .v 4⟩) [0, 2, 5] 4; match s.team? 0, s.thr? 0 0 with
    | some tm, some t => (tm.crew? t.crew).isSome && (match t.waits with | [o] => o.id == 2 && o.waited && !o.redo && !s.poisoned o.key 8 && decide (s.counter (o.vals.getD 1 0) < o.vals.getD 2 0) | _ => false) && t.status == .ready && !t.isHalted && t.late.isEmpty && t.dbg.req == none && !s.savingTeam tm && t.pend.isEmpty
    | _, _ => false) = true) ∧
    ((let s := paged (atWord (.nop {} 0)); match s.ctx? 0 with | some c => decide (64 < 2 ^ 49) && (match s.walkFrom (64) walkLevels c.r.ptroot with | .leaf _ _ => true | _ => false) | none => false) = true) ∧
    ((let s := paged (atWord (.nop {} 0)); match s.ctx? 0 with | some c => decide (2 ^ 40 < 2 ^ 49) && (match s.walkFrom (2 ^ 40) walkLevels c.r.ptroot with | .viol _ => true | _ => false) | none => false) = true) ∧
    ((atomic.atomPending 0 0 && atomic.checkouts.isEmpty && decide ((atomic.heldBy 0).length < 64) && decide (64 < memBytes)) = true) ∧
    ((!atomic.atomPending 1 0) = true) :=
  by decide
/-- Two clauses in issue, of which the second is to issue before the first. -/
def twoClauses : State :=
  let s := atWord (.iadd {} ib)
  { s with agenda := [.issue 0 false], issues := s.issues.map (fun (x : Issue) => { x with t0 := x.t0 + 5 }) ++ s.issues.map fun (x : Issue) => { x with id := 99 } }
def aWord (i : Instr) : State := State.reset.placeWord 64 ((encode i).getD 0)
/-- States that meet the hypotheses of `StepRunsDecodedInstruction`. -/
theorem meets_StepRunsDecodedInstruction :
    ((let s := aWord (.iadd {} ib); (match s.agenda, s.issues[0]? with
    | .issue 0 false :: rest, some y => let s0 := { s with agenda := rest }; let s1 := (s0.pass (s0.dueIn y)).prepare 0 false
      s0.mayPass (s0.dueIn y) && (match s1.issuer with
      | some (x, _, _) => (match decode x.word.toNat with | .ok i => i == .iadd {} ib | .error _ => false) && (match exec (.iadd {} ib) s1 with | .next _ => true | _ => false)
      | none => false)
    | _, _ => false)) = true) ∧
    ((let s := twoClauses; (match s.agenda, s.issues[0]? with
    | .issue 0 false :: rest, some y => let s0 := { s with agenda := rest }; !s0.mayPass (s0.dueIn y)
    | _, _ => false)) = true) ∧
    ((isEvent (.holdSlotGrant 0) && (match exec (.holdSlotGrant 0) State.reset with | .next _ => true | _ => false)) = true) :=
  ⟨by decide, by decide, by decide⟩
/-- States that meet the hypotheses of `StepDisarmsOnceCones`. -/
theorem meets_StepDisarmsOnceCones :
    ((let s := { slumped (atWord (.nop {} 0)) with issues := [], agenda := [.cycle 1] }
    s.mayPass 1 && (match step s with | .next _ => true | _ => false)) = true) :=
  by decide
/-- States that meet the hypotheses of `StepReadsHeldValues`. -/
theorem meets_StepReadsHeldValues :
    ((let s := { State.reset with agenda := [.event (.holdSlotGrant 0)] }
    match ({ s with agenda := s.nextMove.2 }).act s.nextMove.1 with
    | .next m => Memory.wf m.mem && tabOk 0 m.tags && m.l2.isEmpty
    | _ => false) = true) :=
  by decide

/-! ### Further states: the forms and the clauses that one state of a statement does not reach -/

/-- Patterns of binary32 that meet the hypotheses of `FloatSpecialValues`, and of `ConversionSpecialValues` with FCVT to f16 and F2I
to i32: a quiet and a signalling NaN, infinities, zeros, 1.0 and -1.0. -/
theorem meets_FloatSpecialValues :
    isNan (decodeF f32 0x7FC00000) = true ∧ isSig (decodeF f32 0x7F800001) = true ∧ decodeF f32 0x7F800000 = .inf false ∧
    decodeF f32 0xFF800000 = .inf true ∧ isZero (decodeF f32 0) = true ∧ isZero (decodeF f32 0x80000000) = true ∧
    isFin (decodeF f32 0xBF800000) = true ∧ isNeg (decodeF f32 0xBF800000) = true ∧ isZero (decodeF f32 0xBF800000) = false ∧
    0x3F800000 = f32.bias * 2 ^ f32.mbits ∧ decodeF f32 (ftzIn f32 true 1) = decodeF f32 0 ∧ ftX2 .f32 = false ∧
    cfFmt .f32 = some f32 ∧ cfFmt .f16 = some f16 ∧ cfX2 .f16 = false := by decide
/-- Finite operands that meet the hypotheses of `SumsAndProductsAreRounded` and of `ConversionsAreRounded`: 1.5 and -2^-149, with a
sum and a product that are not zero, and a sum that is. -/
theorem meets_FloatValuesAreRounded :
    isFin (decodeF f32 0x3FC00000) = true ∧ isFin (decodeF f32 0x80000001) = true ∧
    f32.signedUnits 0x3FC00000 + f32.signedUnits 0x80000001 ≠ 0 ∧ f32.signedUnits 0x3FC00000 * f32.signedUnits 0x80000001 ≠ 0 ∧
    f32.signedUnits 0x3FC00000 + f32.signedUnits 0xBFC00000 = 0 ∧ f32.negative 0x80000001 = true ∧ sfFmt .f32 = f32 ∧
    interp (itSgn .i32) (itBits .i32) 5 ≠ 0 := by decide
/-- Two results due at different cc, of which the younger may come first, and one that a cone will see. -/
def twoResults (a b : Nat) : State :=
  inThr (fun t => { t with wb := [{ due := a, v := [(4, 7)], p := some (1, true), fx := 1, setf := some 0 }, { due := b, v := [(4, 8), (6, 9)], p := some (1, false), issued := 1 }] })
    (atWord (.nop {} 0))
def notedResult : State :=
  inThr (fun t => { t with wb := [{ due := 3, v := [(4, 7)], note := some ⟨.exc 1 7, 0, 0, 0⟩ }] }) (atWord (.nop {} 0))
/-- States that meet the hypotheses of `ResultsWrittenWhenDue`: both results due, and one of them. -/
theorem meets_ResultsWrittenWhenDue :
    (((twoResults 3 4).thr? 0 0).map fun t => ((t.wb.filter fun e => decide (e.due ≤ 5)).length, (t.wb.filter fun e => decide (e.due ≤ 3)).length,
      t.wb.all fun e => e.x == none, decide (6 < t.v.length), decide (1 < t.p.length))) = some (2, 1, true, true, true) := by decide
/-- States that meet the hypotheses of `YoungerResultStands`. -/
theorem meets_YoungerResultStands :
    (((twoResults 9 4).thr? 0 0).map fun t => match t.wb with | [e, q] => decide (5 < e.due) && decide (q.due ≤ 5) | _ => false) = some true ∧
    ((notedResult.thr? 0 0).map fun t => match t.wb with | [e] => decide (e.due ≤ 3) && t.pend.isEmpty && e.k == none && e.x == none && e.note.isSome | _ => false) =
      some true := by decide
/-- States that meet the hypotheses of `BranchFaultsTrap`: a misaligned target, one whose header is no landing pad, and one whose
tag is another. -/
theorem meets_BranchFaultsTrap :
    (let s := regs [(2, 66)] (atWord (.ret {} 2))
    Alone s (.ret {} 2) (fun _ _ _ _ t => t.v64 2 % 8 != 0 && t.crew != 7 && t.pend.isEmpty && t.late.isEmpty && t.wb.isEmpty)) ∧
    (let s := regs [(2, 66)] (atWord (.brx {} 2 7))
    Alone s (.brx {} 2 7) (fun _ _ _ _ t => t.v64 2 % 8 != 0 && t.crew != 7 && t.pend.isEmpty && t.late.isEmpty && t.wb.isEmpty)) ∧
    (let s := regs [(2, 72)] (paged (atWord (.callx f0 2 7)))
    Alone s (.callx f0 2 7) (fun x tm _ _ t => t.v64 2 % 8 == 0 && t.crew != 7 && t.pend.isEmpty && t.late.isEmpty && t.wb.isEmpty &&
      (match s.ctx? tm.asid with | some c => (match s.fetchWord c tm.core (t.v64 2) (x.crew == 7) with | .ok h => !hdrPad h | _ => false) | none => false))) ∧
    (let s := regs [(2, 64)] (pads (paged (atWord (.retChecked {} 2 5))))
    Alone s (.retChecked {} 2 5) (fun x tm _ _ t => t.v64 2 % 8 == 0 && t.crew != 7 && t.pend.isEmpty && t.late.isEmpty && t.wb.isEmpty && fetches s tm x (t.v64 2))) :=
  ⟨alone_of (by decide), alone_of (by decide), alone_of (by decide), alone_of (by decide)⟩
/-- States that meet the hypotheses of `LoadsPerform` for a load of fixed latency, and for one that reads what its line has held. -/
theorem meets_LoadsPerform_fixed :
    (let s := issued (regs [(2, 64)]) (.ld {} ⟨.core, .n32, 0, false, .ignore, 4, .v 2, 0⟩)
    InFlight s (fun _ t o => !isPeer o.key && !s.poisoned o.key o.len && tabOk false s.full && ldFixed ⟨.core, .n32, 0, false, .ignore, 4, .v 2, 0⟩ &&
      t.wb.any fun e => e.ld == some o.id && e.v.map (fun w => w.1) == [4])) :=
  pending_of (by decide)
def wroteOver : State :=
  { issued (fun s => regs [(2, 64)] (paged s)) (.ld f0 ⟨.mem, .n32, 0, true, .ignore, 4, .v 2, 0⟩) with past := [⟨0, 5, List.replicate 128 7⟩] }
theorem meets_LoadsPerform_past :
    (InFlight wroteOver (fun tm _ o => !isPeer o.key && !wroteOver.poisoned o.key o.len && tabOk false wroteOver.full && decide (o.key < 2 ^ 40) &&
      tm.lot == 0 && tm.began == 0 && o.key / 128 == 0)) ∧
    (Config.freeBit wroteOver.tick (2 ^ 72) = true → wroteOver.pastLine 0 0 = some (List.replicate 128 7)) := by
  refine ⟨pending_of (by decide), fun h => ?_⟩
  have hp : wroteOver.past = [⟨0, 5, List.replicate 128 7⟩] := rfl
  have ht : (wroteOver.teams.find? fun tm => tm.lot == 0).map (fun tm => tm.began) = some 0 := by decide
  obtain ⟨tm, h1, h2⟩ := Option.map_eq_some_iff.mp ht
  first
  | (simp [State.pastLine, h1, h2, hp, h, List.range_succ]; done)
  | (simp [State.pastLine, h1, h2, hp, List.range_succ] at h ⊢; simp [h])
/-- An instruction line of the core, the second one of the address space (R168). -/
def lined (pins : List Nat) (s : State) : State := { s with icache := [⟨0, 0, 0, 0, List.replicate 128 0, pins, []⟩] }
/-- States that meet the hypotheses of `PinsAreCounted`. -/
theorem meets_PinsAreCounted :
    (let s := lined [0, 0] (paged (atWord (.iunpin {} ⟨1, 4⟩)))
    Alone s (.iunpin {} ⟨1, 4⟩) (fun _ tm _ _ _ => (s.ctx? tm.asid).isSome)) ∧
    (let s := lined [] (paged (atWord (.ipin {} ⟨0, 4⟩)))
    Alone s (.ipin {} ⟨0, 4⟩) (fun x tm _ _ _ => directTarget x 4 / 128 == 0 && tm.core == 0 && tm.asid == 0 &&
      (match s.ctx? tm.asid with | some cx => cx.r.asid == tm.asid && s.xlate cx (some (clusterOf tm.core)) 0 .ex (x.crew == 7) == .ok 0 | none => false))) :=
  ⟨alone_of (by decide), alone_of (by decide)⟩
/-- States that meet the hypotheses of `FlushesPerform`: the flushes of a line, and those of the system crew. -/
theorem meets_FlushesPerform :
    (∀ i ∈ [Instr.cflushL1 f0 ⟨.v 2, 0⟩, .cflushClean f0 ⟨.v 2, 0⟩, .cflushInval f0 ⟨.v 2, 0⟩],
      InFlight (issued (fun s => regs [(2, 64)] (paged s)) i) (fun tm _ o => o.dst.isEmpty && o.i == i && o.vals.getD 2 0 == 1 &&
        ((issued (fun s => regs [(2, 64)] (paged s)) i).ctx? tm.asid).isSome)) ∧
    (∀ i ∈ [Instr.cflushTlb f0 ⟨.v 2, 0⟩, .cflushAsid f0 ⟨.v 2, 0⟩, .cflushCtx f0 ⟨.v 2, 0⟩],
      InFlight (issued paged i) (fun tm _ o => o.dst.isEmpty && o.i == i && ((issued paged i).ctx? tm.asid).isSome) 1) := by
  constructor <;> intro i hi <;> simp only [List.mem_cons, List.not_mem_nil, or_false] at hi <;>
    rcases hi with rfl | rfl | rfl <;> exact pending_of (by decide)
/-- Operands that meet the hypotheses of the atomics' values, in 64 bits and in binary32. -/
theorem meets_AtomicValues :
    (2 ^ 63 < 2 ^ 64 ∧ 2 ^ 31 < 2 ^ 32 ∧ atomFt .f32 = some .f32 ∧ ftX2 .f32 = false ∧ (atomFt .f16x2).map ftX2 = some true ∧
    isFin (decodeF f32 0x3F800000) = true ∧ f32.signedUnits 0x3F800000 < f32.signedUnits 0x40000000) := by decide
/-- A state that meets the hypotheses of `GlazesPerform` with a routine that ends in an error under NT. -/
theorem meets_GlazesPerform_error :
    (let s := issued (fun s => (regs [(2, 128), (6, 0)] (glazed s)).put 16 (natLe 4 (20 * 2 ^ 26))) (.glaze f0 ⟨true, true, 4, .v 2, 8, .v 6⟩)
    InFlight s (fun tm t o => (s.coreStores tm.core o.key o.len).isEmpty && Memory.wf s.mem && o.len == 128 && !s.poisoned o.key 128 &&
    (match s.ctx? tm.asid with
    | some cx => match (s.glzFetch tm 0 cx (t.crew == 7) (sliceOf cx o.key) (o.vals.getD 1 0 % 64)).2 with
      | .ok bs => glzCheck bs 0 0 0 == none && (match glzRun (glzRow bs) (wordsOf (s.bytes o.key 128) 32) [] with | .error g => g == 36 | .ok _ => false)
      | _ => false
    | none => false))) :=
  pending_of (by decide)
/-- States that meet the hypotheses of `QueueInstructionsPerform`: a grant of more than is held, and a QTRY of a scratch queue. -/
theorem meets_QueueInstructionsPerform_more :
    (let s := issued (fun s => queued { q8 with held := 3 } (regs [(2, 4)] s)) (.qcfgGrant f0 ⟨8, .v 2⟩)
    InFlight s (fun tm t o => t.pend == [o] && t.waits.isEmpty && (tm.queue 8).conf && decide ((tm.queue 8).held < o.ea))) ∧
    (let s := (issued (queued q8) (.qtry f0 ⟨8, 10, 1⟩)).put (coreKey 0 256) (natLe 4 5 ++ natLe 4 6)
    InFlight s (fun tm t o => t.pend == [o] && t.waits.isEmpty && decide (0 < (tm.queue 8).occ) && decide (10 + (tm.queue 8).regs ≤ t.v.length) &&
      (s.qSlot tm (tm.queue 8) (tm.queue 8).popi).all fun z => !s.poisoned z.1 z.2)) :=
  ⟨pending_of (by decide), pending_of (by decide)⟩
/-- The team with a second one in its band, each with a contribution of 24 bytes (R157). -/
def twoTeams (s : State) : State :=
  let one := inTeam (fun tm => { tm with bshare := 24, bandTeams := 2 }) s
  { one with teams := one.teams ++ one.teams.map fun tm => { tm with id := 1, teamIx := 1, threads := [] } }
/-- States that meet the hypotheses of `QueueInstructionsIssue`: a QPUSH whose slot lies in two contributions of the band window, and
a QPOP of a record queue. -/
theorem meets_QueueInstructionsIssue_more :
    (let s := twoTeams (queued { q8 with band := true, base := 16 } (atWord (.qpush {} ⟨8, 10⟩)))
    Alone s (.qpush {} ⟨8, 10⟩) (fun _ tm cr _ t => calm s && t.pend.isEmpty && t.waits.isEmpty && t.badRegs.isEmpty && decide (10 + (tm.queue 8).regs ≤ cr.budget) && Memory.wf s.mem &&
      t.v.length == cr.budget && tm.queues.length == 32 && tm.qRoom 8 && decide ((tm.queue 8).esize ≤ 4) &&
      (match s.qSlot tm (tm.queue 8) (tm.queue 8).pushi with | [a, b] => a.2 + b.2 == (tm.queue 8).bytes && !overlap a.1 a.2 b.1 b.2 | _ => false))) ∧
    (let s := inTeam (fun tm => { tm with recs := tm.recs.set 1 [aRec] }) (atWord (.qpop {} ⟨1, 10⟩))
    Alone s (.qpop {} ⟨1, 10⟩) (fun _ tm cr _ t => calm s && t.pend.isEmpty && t.waits.isEmpty && !t.inSection && decide (10 + tm.popRegs 1 ≤ cr.budget) && tm.recs.getD 1 [] == [aRec])) :=
  ⟨alone_of (by decide), alone_of (by decide)⟩
/-- States that meet the hypotheses of `SoftErrorsStrike` for a tile, a translation, a line of L1, an instruction line and a glaze
entry: one of each is there to be struck. -/
theorem meets_SoftErrorsStrike_more :
    (let s := { lined [] struck with l1 := [⟨3, 5, none, List.replicate 128 0⟩], tlb := [⟨0, 0, 0, 65536, 1⟩] }
    (s.team? 0).isSome && (s.thr? 0 0).isSome && decide (64 < memBytes) && decide (2 ^ 40 ≤ chipKey 64) && decide (chipKey 64 < 2 ^ 40 + 48 * 2 ^ 20) &&
      isScratch (coreKey 0 64) && s.l1.length == 1 && s.tlb.length == 1 && s.icache.length == 1) = true := by decide
/-- A state that meets the hypotheses of `TrapDispatchStartsTheHandler` with an entry of a watchdog. -/
theorem meets_TrapDispatchStartsTheHandler_dog :
    (let s := inTeam (fun tm => { tm with trapq := [⟨none, aRecord 10, 0⟩] }) (atWord (.nop {} 0))
    match s.team? 0, s.thr? 0 1, s.ctx? 0 with
    | some tm, some h, some c => (tm.trapq.map fun e => e.thr) == [none] && decide (4 ≤ h.v.length) && h.crew == 7 && h.status == .idle && c.active && !s.savingTeam tm
    | _, _, _ => false) = true := by decide
/-- States that meet the hypotheses of `TrapReturnsComplete`: TRET.next after a fetch fault, and a handler that serves none. -/
theorem meets_TrapReturnsComplete_more :
    (let s := serving 4 (atWord (.tretNext {}))
    Alone s (.tretNext {}) (fun _ tm _ j t => t.pend.isEmpty && t.waits.isEmpty && t.late.isEmpty && t.wb.isEmpty && j == 1 && t.served == some 0 && (match t.serveInfo, tm.threads[0]? with | some (r, _), some u => (tm.crew? u.crew).isSome && r.kind == 4 && u.pend.isEmpty && u.copiesDone && u.wb.isEmpty | _, _ => false))) ∧
    (∀ i ∈ [Instr.tretRec {}, .tretNext {}, .tretKill {}],
      Alone (atWord i) i (fun _ _ _ _ t => t.pend.isEmpty && t.waits.isEmpty && t.late.isEmpty && t.wb.isEmpty && t.served == none)) := by
  refine ⟨alone_of (by decide), ?_⟩
  intro i hi
  simp only [List.mem_cons, List.not_mem_nil, or_false] at hi
  rcases hi with rfl | rfl | rfl <;> exact alone_of (by decide)
/-- A state in which the first thread may begin its clause, and one in which the system crew's goes before it. -/
def beside (sys : Bool) : State :=
  let s := clauseAt aClause
  if sys then inHan (fun t => { t with status := .ready, pc := 64 }) s else s
/-- The hypotheses of `ClauseStarts` for the first thread, and whether it may start. -/
def startsAs (s : State) (may : Bool) : Bool :=
  match s.team? 0, s.thr? 0 0, s.ctx? 0 with
  | some tm, some t, some cx => cx.status.toNat % 4 == 0 && groupOk tm 0 [0] .ready t.pc && (match tm.crew? 0, s.fetchWord cx tm.core 64 false with
    | some cr, .ok h => (match s.fetchClause cx tm.core 72 false (hdrCnt h + 1) with
      | .ok ws => s.headerOk tm h ws t && t.waitMet h && !t.hdrWait && clauseCause h ws (t.must == some t.pc) == none &&
        s.formed.mayStart tm cr [0] 64 h ws false == may && clauseCause h ws false == none
      | _ => false)
    | _, _ => false)
  | _, _, _ => false
/-- States that meet the hypotheses of `ClauseStarts`: the clause may start, and another goes before it. -/
theorem meets_ClauseStarts : startsAs (beside false) true = true ∧ startsAs (beside true) false = true := ⟨by decide, by decide⟩
/-- A state that meets the hypotheses of `CandidatesAreOrdered`. -/
theorem meets_CandidatesAreOrdered :
    (let s := (beside false).formed
    match s.team? 0, s.ctx? 0 with
    | some tm, some cx => (s.cores[tm.core]?).isSome && (match tm.crew? 0, s.fetchWord cx tm.core 64 false with
      | some cr, .ok h => (match s.fetchClause cx tm.core 72 false (hdrCnt h + 1) with
        | .ok ws => s.mayStart tm cr [0] 64 h ws false
        | _ => false)
      | _, _ => false)
    | _, _ => false) = true := by decide
/-- A state that meets the hypotheses of `InspectionInstructionsComplete` for INSPW of a K register. -/
theorem meets_InspectionInstructionsComplete_k :
    (let s := righted (regs [(40, 1), (41, 0x503), (42, 9)] (atWord (.inspw f0 ⟨true, 1, .v 40, .v 41, .v 42⟩)))
    Alone s (.inspw f0 ⟨true, 1, .v 40, .v 41, .v 42⟩) (fun _ tm cr j t => t.pend.isEmpty && (match itemOf (srcVal cr.k t false (.v 41)) true, tm.selectReg (srcVal cr.k t false (.v 40)), s.ctx? tm.asid with
      | some i, some k, some _ => (match tm.threads[k]? with
        | some u => u.mon == none && t.mon == none && s.started.itemOk tm cr j (some k) true i && i == .k 3 && (match tm.crew? u.crew with
          | some q => decide (3 < q.k.length) && decide (tabGet 0 q.kAt 3 ≤ s.coreCc tm.core)
          | none => false)
        | none => false)
      | _, _, _ => false))) :=
  alone_of (by decide)
/-- States that meet the hypotheses of `ConeInstructionsComplete` and of `InspectionInstructionsComplete` with another operation in
flight. -/
theorem meets_ConeInstructionsComplete_more :
    (let s := inThr (fun t => { t with pend := [{ id := 1, i := .st f0 ⟨.core, .n64, 0, 4, .v 2, 256⟩, vals := [] }] }) (atWord (.coneset f0 ⟨0, 3, .v 20, .v 22, .v 22⟩))
    Alone s (.coneset f0 ⟨0, 3, .v 20, .v 22, .v 22⟩) (fun _ _ _ _ t => t.pend.all fun q => match q.i with | .coneset .. => false | _ => true)) :=
  alone_of (by decide)
/-- The main side with host reads outstanding: one answered, one of memory, and one of a counter (R424). -/
def reading : State :=
  { State.reset with hostReads := [⟨⟨1, 3, BitVec.ofNat 48 aReg, 3⟩, some (0, [1, 2, 3, 4])⟩, ⟨⟨1, 4, 64, 7⟩, none⟩, ⟨⟨1, 5, BitVec.ofNat 48 aCtr, 7⟩, none⟩] }
/-- States that meet the hypotheses of `HostAccessesComplete` for reads outstanding, a duplicate tag and writes that are dropped. -/
theorem meets_HostAccessesComplete_more :
    reading.hostReads.length = 3 ∧ (reading.hostReads.map fun r => (r.res.isSome, (hostKey r.o.addr.toNat).isSome)) = [(true, false), (false, true), (false, true)] ∧
    (reading.poisoned 64 8 = false ∧ ({ reading with bad := [(64, true)] } : State).poisoned 64 8 = true) ∧ reading.mgmt.mainUp = true ∧
    (reading.hostReads.any fun r => r.o.tag == 4) = true ∧ (reading.hostReads.all fun r => r.o.tag != 9) = true ∧
    (inRegWindow aReg = true ∧ wordAccessOk aReg 16 = false ∧ (natLe 16 5).length ≠ 4 ∧ (natLe 16 5).length ≠ 8) := by decide
/-- States that meet the hypotheses of `StartsAndPowerRun` for the thermal trip, and of `DolmirAndLimiterComplete` where nothing
limits the clock, where the power does, and where the junction does. -/
def sensed (t w clock : Nat) : State := { State.reset with mgmt := { State.reset.mgmt with temp := t, watts := w, clock := clock } }
theorem meets_sensors :
    (sensed 114 500 64).mgmt.temp < 115 ∧ 115 ≤ (sensed 116 500 64).mgmt.temp ∧
    (let s := sensed 60 500 20; ¬ (s.host.plim.toNat % 2 ^ 16 < s.mgmt.watts ∨ 105 ≤ s.mgmt.temp) ∧ s.mgmt.clock < 30 ∧ s.mgmt.mainUp = true) ∧
    (let s := sensed 60 951 64; s.host.plim.toNat % 2 ^ 16 < s.mgmt.watts ∧ 30 < s.mgmt.clock) ∧
    (let s := sensed 105 500 64; 105 ≤ s.mgmt.temp ∧ 30 < s.mgmt.clock ∧ ¬ s.mgmt.clock ≤ 30) := by decide
/-- A context into which a peer may read and write two lines. -/
def peerTarget : State := paged (terming 0 none)
/-- States that meet the hypotheses of `PeerRequestsAreAnswered` for a request over two lines, and for PEER_LINK_DOWN with a request
in flight on the port. -/
theorem meets_PeerRequestsAreAnswered_more :
    (match peerTarget.ctx? 0 with
      | some c => match peerTarget.peerXlate c (peerNeeds (.load 64)).1 (lineSpans 96 64), peerTarget.peerXlate c (peerNeeds (.store (natLe 64 5))).1 (lineSpans 96 64) with
        | .ok ps, .ok qs => ps == [(96, 32), (128, 32)] && qs == ps && ps.all fun p => !peerTarget.poisoned p.1 p.2
        | _, _ => false
      | none => false) = true ∧
    (let s := inThr (fun t => { t with pend := [{ id := 2, i := .st f0 ⟨.mem, .n64, 0, 4, .v 2, 256⟩, vals := [], route := some ⟨1, 0, 3⟩ }] }) peerTarget
    (s.thr? 0 0).map fun t => t.pend.map fun o => o.route.any fun r => r.port == 3) = some [true] := ⟨by decide, by decide⟩
/-- States that meet the hypotheses of `StepRunsDecodedInstruction`: a word that is no instruction, cycles that pass or cannot, and
the background. -/
theorem meets_StepRunsDecodedInstruction_more :
    (let s := State.reset.placeWord 64 0x0C1EE00000000000
    (match s.nextMove.1, s.issues[0]? with
    | .issue 0 false, some y => let s0 := { s with agenda := s.nextMove.2 }; s0.mayPass (s0.dueIn y) && (s0.pass (s0.dueIn y)).issues[0]?.isSome &&
        (match ((s0.pass (s0.dueIn y)).prepare 0 false).issuer with | some (x, _, _) => (match decode x.word.toNat with | .error _ => true | .ok _ => false) | none => false)
    | _, _ => false) = true) ∧
    ((match ({ State.reset with agenda := [.cycle 3] } : State).nextMove.1 with | .cycle n => State.reset.mayPass n | _ => false) = true) ∧
    ((match ({ State.reset with agenda := [.background] } : State).nextMove.1 with | .background => true | _ => false) = true) := ⟨by decide, by decide, by decide⟩
/-- A state that meets the hypotheses of `StepReadsHeldValues`: a line homed under two seeds, and a step that gives a next state. -/
def twiceHomed : State :=
  { State.reset with
    mem := [(0, 7)], tags := [(0, 5)], agenda := [.event (.holdSlotGrant 0)]
    l2 := [⟨0, 0, 1, [(7 :: List.replicate 127 0, 5), (List.replicate 128 0, 0)]⟩, ⟨0, 0, 2, [(7 :: List.replicate 127 0, 5)]⟩] }
theorem meets_StepReadsHeldValues_homes : twiceHomed.linesOk ∧ ∃ s', step twiceHomed = .next s' := by
  refine ⟨⟨by decide, by decide, ?_, ?_⟩, ?_⟩
  · show ∀ e ∈ twiceHomed.l2, ∀ v ∈ e.held, v.1.length = 128
    decide
  · show ∀ e ∈ twiceHomed.l2,
      (∀ k < 16, ∃ d ∈ twiceHomed.l2, d.line = e.line ∧ ∃ v ∈ d.held, twiceHomed.bytes (e.line * 128 + 8 * k) 8 = (v.1.drop (8 * k)).take 8) ∧
      ∃ d ∈ twiceHomed.l2, d.line = e.line ∧ ∃ v ∈ d.held, twiceHomed.tagAt (e.line * 128) = v.2
    decide
  · exact ⟨_, rfl⟩
/-- A state that meets the hypotheses of `StepDisarmsOnceCones`, in whose next state the cone stands. -/
theorem meets_StepDisarmsOnceCones_next :
    (let s := { slumped (atWord (.nop {} 0)) with issues := [], agenda := [.cycle 1] }
    match step s with | .next s' => s'.teams.all fun tm => tm.cones.length == 16 | _ => false) = true := by decide

end Sys2Proof.Tests
end

namespace Sys2Proof.Machine
open Sys2Proof

/-! ## Every step keeps the form of memory and what L2 lines have held (R11, R145, log 113)

A step is a move followed by `State.settle`. A move may write bytes that an L2 line has not yet kept, so what every single change
of the state keeps is the weaker `State.Canon`: one lemma per function of the model, from the writes of memory up to `exec` and
`State.act`. The settling that ends a step first adds what each line reads to what it has held (`State.noteHeld`) and then writes
only held values back (`State.mixLine`), which turns `State.Canon` into `State.linesOk`. -/

/-- The part of `State.linesOk` that every single change of the state keeps: memory and the line tags are in canonical form, and
what L2 lines have held is whole lines. -/
def TablesOk (mem : List Host.Cell) (tags : List (Nat × Nat)) (l2 : List L2Line) : Prop :=
  Memory.wf mem = true ∧ tabOk 0 tags = true ∧ ∀ e ∈ l2, ∀ v ∈ e.held, v.1.length = 128
/-- What every change of the state keeps. -/
def State.Canon (s : State) : Prop := TablesOk s.mem s.tags s.l2
/-- An outcome whose next state, if it has one, is canonical. -/
def NextCanon : Out → Prop
  | .next s => s.Canon
  | .fault _ | .refused _ => True

theorem foldl_canon {β : Type} {f : State → β → State} (l : List β) {s : State} (h : s.Canon)
    (hf : ∀ s b, s.Canon → (f s b).Canon) : (l.foldl f s).Canon := by
  induction l generalizing s with
  | nil => exact h
  | cons b l ih => exact ih (hf s b h)

theorem tabGetN_length {α : Type} (d : α) (t : List (Nat × α)) (a n : Nat) :
    (tabGetN d t a n).length = n := by
  induction n generalizing a with
  | zero => rfl
  | succ n ih => simp [tabGetN, ih]
theorem State.bytes_length (s : State) (key n : Nat) : (s.bytes key n).length = n := tabGetN_length ..

theorem tabOk_foldl_tabPut {d : Nat} {g : List (Nat × Nat) → Nat → Nat} (l : List Nat) {t : List (Nat × Nat)} (h : tabOk d t = true) :
    tabOk d (l.foldl (fun t a => tabPut d t a (g t a)) t) = true := by
  induction l generalizing t with
  | nil => exact h
  | cons a l ih => exact ih (tabOk_tabPut h a _)
section
variable {s : State} (h : s.Canon)
include h

theorem State.Canon.put (key bs) : (s.put key bs).Canon :=
  ⟨tabOk_tabPutN bs h.1 key, h.2⟩
theorem State.Canon.filterMem (p : Host.Cell → Bool) : ({ s with mem := s.mem.filter p } : State).Canon :=
  ⟨tabOk_filter h.1 p, h.2⟩
theorem State.Canon.filterTags (p : Nat × Nat → Bool) : ({ s with tags := s.tags.filter p } : State).Canon :=
  ⟨h.1, tabOk_filter h.2.1 p, h.2.2⟩
theorem State.Canon.bumpTags (key n) : (s.bumpTags key n).Canon := by
  unfold State.bumpTags
  split
  · exact ⟨h.1, tabOk_foldl_tabPut _ h.2.1, h.2.2⟩
  · exact h
theorem State.Canon.zero (key n) : (s.zero key n).Canon := h.filterMem _
theorem State.Canon.unhome (f) : (s.unhome f).Canon :=
  ⟨h.1, h.2.1, fun e he => h.2.2 e (List.mem_filter.1 he).1⟩
theorem State.Canon.homeLine (asid seed line) : (s.homeLine asid seed line).Canon := by
  unfold State.homeLine
  split
  · exact h
  · refine ⟨h.1, h.2.1, fun e he => ?_⟩
    rcases List.mem_append.1 he with he | he
    · exact h.2.2 e he
    · obtain rfl := List.mem_singleton.1 he
      simpa using s.bytes_length (line * 128) 128
theorem State.Canon.noteHeld : s.noteHeld.Canon := by
  refine ⟨h.1, h.2.1, fun e he => ?_⟩
  obtain ⟨d, hd, rfl⟩ := List.mem_map.1 he
  dsimp only
  split
  · exact h.2.2 d hd
  · intro v hv
    rcases List.mem_append.1 hv with hv | hv
    · exact h.2.2 d hd v hv
    · obtain rfl := List.mem_singleton.1 hv
      exact s.bytes_length (d.line * 128) 128
/-- Mixing what a line has held rewrites bytes and tags by puts alone. -/
theorem State.Canon.mixLine (e) : (s.mixLine e).Canon := by
  unfold State.mixLine
  have hfold : State.Canon
    ((List.range 16).foldl (fun t k => match e.pick (fun n => Config.freeBit s.tick (2 ^ 71 + n)) k with
      | some v => t.put (e.line * 128 + 8 * k) ((v.1.drop (8 * k)).take 8)
      | none => t) s) :=
    foldl_canon _ h fun t k ht => by
      split
      · exact ht.put ..
      · exact ht
  dsimp only
  split
  · exact ⟨hfold.1, tabOk_tabPut hfold.2.1 .., hfold.2.2⟩
  · exact hfold
end
theorem ite_canon {c : Prop} [Decidable c] {a b : State} (ha : a.Canon) (hb : b.Canon) :
    (if c then a else b).Canon := by
  split
  · exact ha
  · exact hb
theorem next_ite_canon {c : Prop} [Decidable c] {a b : Out} (ha : NextCanon a) (hb : NextCanon b) :
    NextCanon (if c then a else b) := by
  split
  · exact ha
  · exact hb
/-- A state with the memory, the tags and the L2 lines of a canonical one is canonical, whatever its other fields. -/
theorem State.Canon.frame {s : State} (h : s.Canon) {agenda tick nextId full bad l1 checkouts glazes glzSince dogs past wrote icache
    tlb cores ctxs teams issues kNotes holds lots spans saved host hostMem hostOut hostReads hcmd peerWait peerOut mgmt} :
    State.Canon ⟨agenda, tick, nextId, s.mem, s.tags, full, bad, l1, checkouts, glazes, glzSince, dogs, s.l2, past, wrote, icache,
      tlb, cores, ctxs, teams, issues, kNotes, holds, lots, spans, saved, host, hostMem, hostOut, hostReads, hcmd, peerWait, peerOut,
      mgmt⟩ := h
theorem foldl_fst_canon {β γ : Type} {f : State × β → γ → State × β} (l : List γ) {r : State × β} (h : r.1.Canon)
    (hf : ∀ r c, r.1.Canon → (f r c).1.Canon) : (l.foldl f r).1.Canon := by
  induction l generalizing r with
  | nil => exact h
  | cons c l ih => exact ih (hf r c h)
theorem NextCanon.of_eq {r : Out} {s' : State} (h : NextCanon r) (hr : r = .next s') : s'.Canon := by
  subst hr
  exact h
theorem State.reset_canon : State.reset.Canon := ⟨rfl, rfl, fun _ he => nomatch he⟩
theorem State.mainOff_canon (s : State) : s.mainOff.Canon := State.reset_canon
theorem State.startUp_canon (s : State) (o) : (s.startUp o).Canon := by
  unfold State.startUp
  dsimp only
  split
  · apply State.Canon.frame
    exact s.mainOff_canon
  · apply State.Canon.frame
    exact s.mainOff_canon

theorem execPowerLoss_canon {s : State} : NextCanon (execPowerLoss s) := by
  unfold execPowerLoss
  dsimp only
  apply State.Canon.frame
  exact s.mainOff_canon
theorem bind_ok {ε α β : Type} {x : Except ε α} {f : α → Except ε β} {b : β} (h : x.bind f = .ok b) :
    ∃ a, x = .ok a ∧ f a = .ok b := by
  cases x with
  | error e => cases h
  | ok a => exact ⟨a, rfl, h⟩

/-! ### Bytes, homes, logs, host events, counters and watch cones -/

section
variable {s : State} (h : s.Canon)
include h

theorem State.Canon.modTeam (id f) : (s.modTeam id f).Canon := h
theorem State.Canon.modThr (id i f) : (s.modThr id i f).Canon := h.modTeam ..
theorem State.Canon.modCrew (id n f) : (s.modCrew id n f).Canon := h.modTeam ..
theorem State.Canon.modCtx (asid f) : (s.modCtx asid f).Canon := h
theorem State.Canon.modCore (k f) : (s.modCore k f).Canon := h
theorem State.Canon.setPoison (key b) : (s.setPoison key b).Canon := h
theorem State.Canon.setFull (key b) : (s.setFull key b).Canon := h
theorem State.Canon.cleanUnits (key n) : (s.cleanUnits key n).Canon := h
theorem State.Canon.wakeMons (key n) : (s.wakeMons key n).Canon := h
theorem State.Canon.wakePeer (asid key n) : (s.wakePeer asid key n).Canon := h
theorem State.Canon.loseMons (f) : (s.loseMons f).Canon := h
theorem State.Canon.returnLines (f) : (s.returnLines f).Canon := h
theorem State.Canon.recall (key n) : (s.recall key n).Canon := h.returnLines ..
theorem State.Canon.voidDogs (old) : (s.voidDogs old).Canon := h
theorem State.Canon.write (key bs) : (s.write key bs).Canon :=
  ((((h.put ..).bumpTags ..).cleanUnits ..).wakeMons ..).voidDogs ..
theorem State.Canon.store (key bs) : (s.store key bs).Canon := (h.recall ..).write ..
theorem State.Canon.engineStore (key bs) : (s.engineStore key bs).Canon :=
  ite_canon (foldl_canon _ (h.store ..) fun _ _ h1 => h1.setFull ..) (h.store ..)
theorem State.Canon.homeBytes (asid seed pa n) : (s.homeBytes asid seed pa n).Canon :=
  ite_canon h (foldl_canon _ h fun _ _ h1 => h1.homeLine ..)
theorem State.Canon.devStore (c pa bs) : (s.devStore c pa bs).Canon := (h.homeBytes ..).store ..
theorem State.Canon.walkTouch (c va) : (s.walkTouch c va).Canon :=
  foldl_canon _ h fun _ _ h1 => (h1.recall ..).homeBytes ..
theorem State.Canon.noteHome (asid core addr) : (s.noteHome asid core addr).Canon := by
  unfold State.noteHome
  split
  · exact h
  · refine ite_canon h ?_
    refine ite_canon ((h.recall ..).homeBytes ..) ?_
    dsimp only
    split
    · exact (h.walkTouch ..).homeLine ..
    · exact h.walkTouch ..

theorem State.Canon.logViol (asid e) : (s.logViol asid e).Canon := by
  unfold State.logViol
  split
  · exact h
  · split
    · dsimp only
      apply State.Canon.devStore
      refine ite_canon ?_ h
      split
      · exact h.devStore ..
      · exact h
    · exact h

theorem State.Canon.trace (core kind asid who body) : (s.trace core kind asid who body).Canon := h.modCore ..
theorem State.Canon.sampleMem (core asid who addr) : (s.sampleMem core asid who addr).Canon := by
  unfold State.sampleMem
  dsimp only
  split
  · exact h.noteHome ..
  · exact ite_canon (((h.noteHome ..).modCore ..).trace ..) ((h.noteHome ..).modCore ..)

theorem State.Canon.sampleLines (core asid who rs) : (s.sampleLines core asid who rs).Canon :=
  foldl_canon _ h fun _ _ h1 => h1.sampleMem ..
theorem State.Canon.hostEvent (kind asid arg32 arg64) : (s.hostEvent kind asid arg32 arg64).Canon :=
  ite_canon h h
theorem State.Canon.fireWatches (n) : (s.fireWatches n).Canon := by
  unfold State.fireWatches
  dsimp only
  refine foldl_canon _ h fun _ _ h1 => ?_
  split
  · refine ite_canon ?_ h1
    apply State.Canon.hostEvent
    exact h1
  · exact h1

theorem State.Canon.readyLots : s.readyLots.Canon := h
theorem State.Canon.flushPsr : s.flushPsr.Canon := by
  unfold State.flushPsr
  refine foldl_canon _ h fun _ _ h1 => ?_
  refine foldl_canon _ h1 fun _ _ h2 => ?_
  refine ite_canon ?_ h2
  dsimp only
  apply State.Canon.hostEvent
  apply State.Canon.modCtx
  split
  · exact h2.devStore ..
  · exact h2

theorem State.Canon.raiseQueues (n) : (s.raiseQueues n).Canon := h
theorem State.Canon.setCounter (n v) : (s.setCounter n v).Canon := by
  unfold State.setCounter
  exact State.Canon.fireWatches
    (State.Canon.flushPsr (State.Canon.readyLots (ite_canon ((h.store ..).raiseQueues ..) (h.store ..)))) ..

theorem State.Canon.addCounter (n a) : (s.addCounter n a).Canon := h.setCounter ..
theorem State.Canon.pageService (asid va kind core who) : (s.pageService asid va kind core who).1.Canon := by
  unfold State.pageService
  split
  · exact h
  · exact ((h.modCtx ..).devStore ..).flushPsr

theorem State.Canon.setStatus (asid f) : (s.setStatus asid f).Canon := by
  unfold State.setStatus
  split
  · exact h
  · exact (h.modCtx ..).devStore ..

theorem State.Canon.bindCones (core) : (s.bindCones core).Canon := by
  unfold State.bindCones
  refine foldl_canon _ h fun _ _ h1 => ?_
  refine foldl_canon _ h1 fun _ _ h2 => ?_
  split
  · exact ite_canon (h2.modTeam ..) h2
  · exact h2

theorem State.Canon.putHalt (tm i t cause cone inplace) : (s.putHalt tm i t cause cone inplace).Canon :=
  (h.modThr ..).trace ..
theorem State.Canon.landHalt (id i inplace) : (s.landHalt id i inplace).Canon := by
  unfold State.landHalt
  split
  · split
    · exact h
    · exact h.putHalt ..
  · exact h

theorem State.Canon.requestHalt (id cause cone i) : (s.requestHalt id cause cone i).Canon := by
  unfold State.requestHalt
  split
  · exact h
  · exact ite_canon h (ite_canon (h.modThr ..)
      (ite_canon ((h.modThr ..).landHalt ..) ((h.modThr ..).modThr ..)))

theorem State.Canon.coneAct (tm t i n act note) : (s.coneAct tm t i n act note).Canon :=
  ite_canon h (ite_canon (h.logViol ..) (foldl_canon _ h fun _ _ h1 => h1.requestHalt ..))
theorem State.Canon.showCone (owner tm t i n note) : (s.showCone owner tm t i n note).Canon := by
  unfold State.showCone
  split
  · exact h
  · split
    · exact h
    · exact ite_canon h (ite_canon h (((h.modTeam ..).trace ..).coneAct ..))

theorem State.Canon.observe (id i note) : (s.observe id i note).Canon := by
  unfold State.observe
  split
  · exact h
  · split
    · exact h
    · exact ite_canon h (foldl_canon _ h fun _ _ h1 => foldl_canon _ h1 fun _ _ h2 => h2.showCone ..)

end

/-! ### Terminations, faults, the issue of a word and the operations in flight (`Machine/Ops`) -/

section
variable {s : State} (h : s.Canon)
include h

theorem State.Canon.terminate (asid tsrc tkind tcode) : (s.terminate asid tsrc tkind tcode).Canon := by
  unfold State.terminate
  split
  · exact h
  · refine ite_canon h ?_
    dsimp only
    apply State.Canon.frame
    exact h.setStatus ..

theorem State.Canon.deliver (id i f) : (s.deliver id i f).Canon := by
  unfold State.deliver
  split
  · next tm t _ _ =>
    have hsvc : (if f.r.kind = 32 then s.pageService tm.asid f.r.addr.toNat f.svc tm.core t.who else
      (s, 0)).1.Canon := by
      split
      · exact h.pageService ..
      · exact h
    exact ite_canon ((hsvc.modThr ..).terminate ..)
      (ite_canon (ite_canon (hsvc.modThr ..) ((hsvc.modThr ..).modThr ..))
      (ite_canon ((hsvc.modThr ..).modTeam ..) (((hsvc.modThr ..).modTeam ..).modThr ..)))
  · exact h

theorem State.Canon.takeLate (id i) : (s.takeLate id i).Canon := by
  unfold State.takeLate
  split
  · exact h
  · refine ite_canon h ?_
    split
    · exact h
    · exact (h.modThr ..).deliver ..

theorem State.Canon.leaveGroup (id i) : (s.leaveGroup id i).Canon := h
theorem State.Canon.orderK (id i ks) : (s.orderK id i ks).Canon := h.modThr ..
theorem State.Canon.noteK (id i ev ks) : (s.noteK id i ev ks).Canon := by
  unfold State.noteK
  split <;> exact h

theorem State.Canon.followK (id i ev) : (s.followK id i ev).Canon := by
  unfold State.followK
  split
  · exact h.orderK ..
  · exact h

theorem State.Canon.forgetK (f) : (s.forgetK f).Canon := h
theorem State.Canon.afterWb (id i e) : (s.afterWb id i e).Canon := by
  unfold State.afterWb
  have hnote {u : State} (hu : u.Canon) :
      State.Canon (match e.note with | some n => u.observe id i n | none => u) := by
    split
    · exact hu.observe ..
    · exact hu
  refine hnote ?_
  have hk : State.Canon (match e.k, s.thr? id i with
      | some (n, some x), some t => (s.modCrew id t.crew fun c => c.writeK s.tick e.stamp n x).orderK id i [(n, e.stamp)]
      | some (n, none), _ => s.orderK id i [(n, e.stamp)]
      | _, _ => s) := by
    split
    · exact (h.modCrew ..).orderK ..
    · exact h.orderK ..
    · exact h
  split
  · exact hk.modThr ..
  · exact hk

theorem State.Canon.commit (id i now) : (s.commit id i now).Canon := by
  unfold State.commit
  split
  · exact h
  · exact foldl_canon _ (h.modThr ..) fun _ _ h1 => h1.afterWb ..

theorem State.Canon.commitEnd (id i) : (s.commitEnd id i).Canon := by
  unfold State.commitEnd
  split
  · exact h
  · exact ite_canon h ((h.modThr ..).commit ..)

theorem State.Canon.raiseRep (id i f) : (s.raiseRep id i f).Canon :=
  (((h.commitEnd ..).leaveGroup ..).modThr ..).takeLate ..
theorem State.Canon.reportLate (id i f) : (s.reportLate id i f).Canon := h.modThr ..
theorem State.Canon.raiseAt (id i kind cause addr word iaddr svc) :
    (s.raiseAt id i kind cause addr word iaddr svc).Canon := by
  unfold State.raiseAt
  split
  · exact h
  · apply State.Canon.raiseRep
    exact h

theorem State.Canon.raise (x i kind cause addr svc) : (s.raise x i kind cause addr svc).Canon := h.raiseAt ..
theorem State.Canon.violate (x i code addr space agent) : (s.violate x i code addr space agent).Canon := by
  unfold State.violate
  split
  · exact (h.logViol ..).raise ..
  · exact h

/-- A group instruction keeps the tables canonical when its body does: the raises before the body touch no table. -/
theorem runGroup_canon {i body} (hbody : ∀ x tm cr ms u, u.Canon → (body x tm cr ms u).Canon) :
    NextCanon (runGroup i body s) := by
  unfold runGroup
  split
  · trivial
  · dsimp only
    split
    · exact foldl_canon _ h fun _ _ h1 => h1.raise ..
    · exact hbody _ _ _ _ _
        (foldl_canon _ (foldl_canon _ h fun _ _ h1 => h1.raise ..) fun _ _ h1 => h1.raise ..)

theorem runEach_canon {i body} (hbody : ∀ x cr t n u, u.Canon → (body x cr t n u).Canon) :
    NextCanon (runEach i body s) := by
  unfold runEach
  refine runGroup_canon h fun _ _ _ _ _ h1 => ?_
  refine foldl_canon _ h1 fun _ _ h2 => ?_
  split
  · exact hbody _ _ _ _ _ h2
  · exact h2

theorem State.Canon.stallFor (x i) : (s.stallFor x i).Canon := h
theorem regOp_canon (i lat f) : NextCanon (regOp i lat f s) :=
  runEach_canon h fun _ _ _ _ _ h1 => h1.modThr ..
theorem State.Canon.pushOp (x j i vals f) : (s.pushOp x j i vals f).Canon := h
theorem State.Canon.modOp (tm i id f) : (s.modOp tm i id f).Canon := h.modThr ..
theorem State.Canon.completeOp (tm i o ws) : (s.completeOp tm i o ws).Canon := h.modThr ..
theorem State.Canon.setPred (tm i p b) : (s.setPred tm i p b).Canon := ite_canon h (h.modThr ..)
theorem State.Canon.failOp (tm i o kind cause addr svc) : (s.failOp tm i o kind cause addr svc).Canon :=
  (h.modThr ..).reportLate ..
theorem State.Canon.violateLate (id i o code addr space agent) :
    (s.violateLate id i o code addr space agent).Canon := by
  unfold State.violateLate
  split
  · exact (h.logViol ..).failOp ..
  · exact h

theorem State.Canon.setWaker (tm i code banked) : (s.setWaker tm i code banked).Canon := h.modThr ..
theorem State.Canon.wake (tm i code) : (s.wake tm i code).Canon := h.setWaker ..
theorem State.Canon.wakeRoom (x j code) : (s.wakeRoom x j code).Canon := ite_canon (h.setWaker ..) h
theorem State.Canon.pushWait (x j i vals f) : (s.pushWait x j i vals f).Canon := h
theorem State.Canon.dropWait (tm i id) : (s.dropWait tm i id).Canon := h.modThr ..
theorem State.Canon.markWaited (tm i id) : (s.markWaited tm i id).Canon := h.modThr ..
theorem State.Canon.endWait (tm i o code) : (s.endWait tm i o code).Canon :=
  ite_canon ((h.dropWait ..).setWaker ..) (h.dropWait ..)

end

/-! ### Instruction fetch, rejoin registers and control flow -/

section
variable {s : State} (h : s.Canon)
include h

theorem State.Canon.fillLine (c core lot va sys) : (s.fillLine c core lot va sys).Canon := by
  unfold State.fillLine
  dsimp only
  refine ite_canon h ?_
  split
  · split
    · apply State.Canon.frame
      exact h.walkTouch ..
    · refine ite_canon (h.walkTouch ..) ?_
      apply State.Canon.frame
      exact ((h.walkTouch ..).recall ..).homeLine ..
  · exact h.walkTouch ..

theorem State.Canon.testJoin (id crew str j banked) : (s.testJoin id crew str j banked).Canon := by
  unfold State.testJoin
  split
  · exact h
  · split
    · exact h
    · split
      · exact h
      · apply State.Canon.trace
        exact foldl_canon _ h fun _ _ h1 => h1

theorem State.Canon.modJ (id crew str j f banked) : (s.modJ id crew str j f banked).Canon :=
  (h.modCrew ..).testJoin ..
theorem State.Canon.leaveMasks (id i) : (s.leaveMasks id i).Canon := by
  unfold State.leaveMasks
  split
  · exact h
  · exact foldl_canon _ h fun _ _ h1 => h1.modJ ..

theorem State.Canon.endThread (id i) : (s.endThread id i).Canon := by
  unfold State.endThread
  split
  · exact h
  · split
    · exact h
    · exact ((h.leaveMasks ..).modThr ..).landHalt ..

theorem State.Canon.targetFault (x j t r) : (s.targetFault x j t r).Canon := by
  unfold State.targetFault
  split
  · exact h
  · split
    · exact (h.logViol ..).raiseAt ..
    · exact h
  · exact h.raise ..
  · exact h.raise ..

theorem State.Canon.goto (id j t) : (s.goto id j t).Canon := h.modThr ..
theorem State.Canon.linkTo (x c j b) : (s.linkTo x c j b).Canon := by
  unfold State.linkTo
  dsimp only
  split
  · exact (h.goto ..).modThr ..
  · exact h.goto ..

theorem State.Canon.branch (x tm c j b) : (s.branch x tm c j b).Canon := by
  unfold State.branch
  refine ite_canon (h.raise ..) ?_
  split
  · exact h
  · split
    · split
      · exact ite_canon (h.raise ..) (ite_canon (h.raise ..) (h.linkTo ..))
      · exact h.linkTo ..
    · exact h.targetFault ..

theorem branchOp_canon (i f) : NextCanon (branchOp i f s) := by
  unfold branchOp
  refine runGroup_canon h fun _ _ _ _ _ h1 => ?_
  dsimp only
  split
  · split
    · apply State.Canon.trace
      refine foldl_canon _ h1 fun _ _ h2 => ?_
      split
      · exact h2.branch ..
      · exact h2
    · refine foldl_canon _ h1 fun _ _ h2 => ?_
      split
      · exact h2.branch ..
      · exact h2
  · refine foldl_canon _ h1 fun _ _ h2 => ?_
    split
    · exact h2.branch ..
    · exact h2

theorem execNop_canon (c imm) : NextCanon (execNop c imm s) := runEach_canon h fun _ _ _ _ _ h1 => h1
theorem execIll_canon (imm) : NextCanon (execIll imm s) :=
  runGroup_canon h fun _ _ _ _ _ h1 => foldl_canon _ h1 fun _ _ h2 => h2.raise ..
theorem jinitOp_canon (i j f) : NextCanon (jinitOp i j f s) := runEach_canon h fun _ _ _ _ _ h1 => h1.modJ ..
theorem State.Canon.arrive (id i j banked) : (s.arrive id i j banked).Canon := by
  unfold State.arrive
  split
  · exact h
  · exact (h.modThr ..).modJ ..

theorem execJoin_canon (c j) : NextCanon (execJoin c j s) :=
  runEach_canon h fun _ _ _ _ _ h1 => ite_canon (h1.raise ..)
    (ite_canon h1 (ite_canon (h1.arrive ..) (h1.pushWait ..)))
theorem execJleave_canon (c j) : NextCanon (execJleave c j s) :=
  runEach_canon h fun _ _ _ _ _ h1 => h1.modJ ..
theorem execJtest_canon (c kind j p) : NextCanon (execJtest c kind j p s) :=
  runEach_canon h fun _ _ _ _ _ h1 => h1.modThr ..
theorem drainThen_canon {i vals ready eff} (heff : ∀ n o p u, u.Canon → (eff n o p u).Canon) : NextCanon (drainThen i vals ready eff s) :=
  runEach_canon h fun _ _ _ _ _ h1 => ite_canon (heff _ _ _ _ h1) (h1.pushWait ..)
theorem execExit_canon (c) : NextCanon (execExit c s) := drainThen_canon h fun _ _ _ _ h1 => h1.endThread ..
theorem execYield_canon (c n) : NextCanon (execYield c n s) :=
  runEach_canon h fun _ _ _ _ _ h1 => h1.modThr ..
theorem execYieldPauseEnd_canon (o) : NextCanon (execYieldPauseEnd o s) := by
  unfold execYieldPauseEnd
  split
  · exact next_ite_canon ((h.modThr ..).wake ..) h
  · exact h

theorem execHoldSlotGrant_canon (core) : NextCanon (execHoldSlotGrant core s) := by
  unfold execHoldSlotGrant
  split
  · exact h
  · exact next_ite_canon h h

end

/-! ### Register and cross-lane instructions -/

section
variable {s : State} (h : s.Canon)
include h

theorem execSmovRead_canon (c o) : NextCanon (execSmovRead c o s) := by
  unfold execSmovRead
  refine runEach_canon h fun _ _ _ _ _ h1 => ?_
  split
  · exact h1.modThr ..
  · exact h1

theorem execKmovToK_canon (c o) : NextCanon (execKmovToK c o s) := by
  unfold execKmovToK
  refine runGroup_canon h fun _ _ _ _ _ h1 => ?_
  refine foldl_canon _ h1 fun _ _ h2 => ?_
  split
  · exact h2.modThr ..
  · exact h2

theorem execElect_canon (c o) : NextCanon (execElect c o s) := by
  unfold execElect
  refine runGroup_canon h fun _ _ _ _ _ h1 => ?_
  dsimp only
  refine foldl_canon _ h1 fun _ _ h2 => ?_
  split
  · exact h2.modThr ..
  · exact h2

theorem crossOp_canon (i f) : NextCanon (crossOp i f s) := by
  unfold crossOp
  refine runGroup_canon h fun _ _ _ _ _ h1 => ?_
  split
  · exact h1
  · dsimp only
    refine foldl_canon _ h1 fun _ _ h2 => ?_
    split
    · exact h2.modThr ..
    · exact h2

end

/-! ### Groups, clauses and their words -/

section
variable {s : State} (h : s.Canon)
include h

theorem State.Canon.formed : s.formed.Canon := h
theorem State.Canon.noteStart (tm crew ms ca p held) : (s.noteStart tm crew ms ca p held).Canon := h
theorem State.Canon.clauseFetchFault (id i ca a hdr r) : (s.clauseFetchFault id i ca a hdr r).Canon := by
  unfold State.clauseFetchFault
  split
  · exact h
  · split
    · exact (h.logViol ..).raiseAt ..
    · exact h
  · exact h.raiseAt ..
  · exact h.raiseAt ..

theorem State.Canon.beginAll (id ca h' ms) : (s.beginAll id ca h' ms).Canon := by
  unfold State.beginAll
  refine foldl_canon _ h fun _ _ h1 => ?_
  dsimp only
  apply State.Canon.modThr
  split
  · exact ite_canon (h1.wake ..) h1
  · exact h1

theorem State.Canon.decodeClause (tm crew ca h' ws ms held) :
    (s.decodeClause tm crew ca h' ws ms held).Canon := by
  unfold State.decodeClause
  dsimp only
  split
  · refine foldl_canon _ h fun _ _ h1 => ?_
    split
    · exact h1.raiseAt ..
    · exact h1
  · apply State.Canon.frame
    apply State.Canon.beginAll
    refine foldl_canon _ h fun _ _ h1 => ?_
    split
    · exact h1.raiseAt ..
    · exact h1

theorem State.Canon.startClause (cx tm cr ms ca held) : (s.startClause cx tm cr ms ca held).Canon := by
  unfold State.startClause
  dsimp only
  split
  · split
    · exact foldl_canon _ h fun _ _ h1 => h1.clauseFetchFault ..
    · exact ite_canon h (ite_canon (foldl_canon _ h fun _ _ h1 => h1.modThr ..)
        (ite_canon h ((((ite_canon (h.noteStart ..) h).fillLine ..).fillLine ..).decodeClause ..)))
  · exact foldl_canon _ h fun _ _ h1 => h1.clauseFetchFault ..

theorem execClauseIssue_canon (o) : NextCanon (execClauseIssue o s) := by
  unfold execClauseIssue
  dsimp only
  split
  · exact h.formed
  · split
    · exact next_ite_canon h.formed
        (next_ite_canon (h.formed.startClause ..) (next_ite_canon (h.formed.startClause ..) h.formed))
    · exact h.formed

theorem State.Canon.prepare (k late) : (s.prepare k late).Canon := by
  unfold State.prepare
  split
  · exact h
  · exact ite_canon (foldl_canon _ h fun _ _ h1 => h1) h

theorem State.Canon.endMember (x i) : (s.endMember x i).Canon := by
  unfold State.endMember
  dsimp only
  apply State.Canon.modThr
  apply State.Canon.frame
  exact h.commitEnd ..

theorem State.Canon.finishClause (x) : (s.finishClause x).Canon := by
  unfold State.finishClause
  have hends : (x.members.foldl (fun (s : State) i => s.endMember x i)
    { s with issues := s.issues.drop 1 }).Canon :=
    foldl_canon _ h fun _ _ h1 => h1.endMember ..
  exact ite_canon hends hends

theorem State.Canon.advance (id) : (s.advance id).Canon := by
  unfold State.advance
  split
  · exact h
  · exact ite_canon h (ite_canon (h.finishClause ..) h)

theorem execLateFaultTaken_canon (o) : NextCanon (execLateFaultTaken o s) := by
  unfold execLateFaultTaken
  split
  · exact h
  · exact next_ite_canon ((h.leaveGroup ..).takeLate ..) h

end

/-! ### Accesses, atomics, slice operations and glazes -/

section
variable {s : State} (h : s.Canon)
include h

theorem State.Canon.reportIssue (x j kind cause addr svc) :
    (s.reportIssue x j kind cause addr svc).Canon := by
  unfold State.reportIssue
  split <;> exact h

theorem State.Canon.violateIssue (x j code addr space agent) :
    (s.violateIssue x j code addr space agent).Canon := by
  unfold State.violateIssue
  split
  · exact (h.logViol ..).reportIssue ..
  · exact h

theorem State.Canon.observeIssue (x j t r) : (s.observeIssue x j t r).Canon := by
  unfold State.observeIssue
  split
  · exact h.observe ..
  · exact h

theorem State.Canon.access {x t j i a vals onViol evs f} (honViol : ∀ u, u.Canon → (onViol u).Canon) :
    (s.access x t j i a vals onViol evs f).Canon := by
  unfold State.access
  split
  · exact h
  · dsimp only
    split
    · exact ite_canon ((ite_canon (h.sampleMem ..) h).violateIssue ..)
        ((honViol _ (ite_canon (h.sampleMem ..) h)).violate ..)
    · exact (ite_canon (h.sampleMem ..) h).reportIssue ..
    · exact (foldl_canon _ (ite_canon (h.sampleMem ..) h) fun _ _ h1 => h1.observeIssue ..).pushOp ..
    · exact (foldl_canon _ (ite_canon (h.sampleMem ..) h) fun _ _ h1 => h1.observeIssue ..).pushOp ..

theorem State.Canon.poisonDst (x j ds ev) : (s.poisonDst x j ds ev).Canon := h.modThr ..
theorem State.Canon.resAtEnd (x j r) : (s.resAtEnd x j r).Canon := h.modThr ..
theorem State.Canon.l1Drop (core line) : (s.l1Drop core line).Canon := h
theorem State.Canon.l1DropRange (core key n) : (s.l1DropRange core key n).Canon :=
  foldl_canon _ h fun _ _ h1 => h1.l1Drop ..
theorem State.Canon.l1Acquire (core) : (s.l1Acquire core).Canon := h
theorem State.Canon.l1Update (core key bs) : (s.l1Update core key bs).Canon := h
theorem State.Canon.markSeen (core key n) : (s.markSeen core key n).Canon := h
theorem State.Canon.l1Fill (core line inv alloc) : (s.l1Fill core line inv alloc).Canon := ite_canon h h
theorem State.Canon.recallFor (core key n) : (s.recallFor core key n).Canon := h.returnLines ..
theorem State.Canon.memLoad {core key w inv bypass fresh clear hitOk r} (hr : s.memLoad core key w inv bypass fresh clear hitOk = some r) :
    r.1.Canon := by
  unfold State.memLoad at hr
  grind [State.Canon.markSeen, State.Canon.recallFor, State.Canon.l1Fill]

theorem State.Canon.performed (tm i o ws) : (s.performed tm i o ws).Canon := h.modOp ..
theorem State.Canon.poisonOp (tm i o dst addr) : (s.poisonOp tm i o dst addr).Canon := (h.modThr ..).failOp ..
theorem State.Canon.observePoison (tm i o addr) : (s.observePoison tm i o addr).Canon := by
  unfold State.observePoison
  split
  · exact h.observe ..
  · exact h

theorem State.Canon.peerError (tm i o dst addr) : (s.peerError tm i o dst addr).Canon :=
  ((h.modThr ..).observePoison ..).violateLate ..
theorem State.Canon.performFixed (tm i t l o) : (s.performFixed tm i t l o).Canon :=
  ite_canon h (ite_canon ((h.modThr ..).poisonOp ..) ((h.modThr ..).modThr ..))
theorem State.Canon.performLd (tm i t l o p) : (s.performLd tm i t l o p).Canon := by
  unfold State.performLd
  refine ite_canon (h.performFixed ..)
    (ite_canon (ite_canon h (ite_canon (h.peerError ..) (ite_canon (h.poisonOp ..) (h.performed ..))))
      (ite_canon ?_ (ite_canon h ?_)))
  · split
    · exact h
    · next heq => exact (h.memLoad heq).performed ..
    · next heq => exact (h.memLoad heq).poisonOp ..
  · exact ite_canon ((ite_canon (h.setFull ..) h).poisonOp ..) ((ite_canon (h.setFull ..) h).performed ..)

theorem State.Canon.performSt (tm i t tag o p) : (s.performSt tm i t tag o p).Canon :=
  ite_canon h (ite_canon (ite_canon ((h.wakePeer ..).performed ..) (h.peerError ..))
    (ite_canon (h.failOp ..) ((h.store ..).performed ..)))
theorem State.Canon.performAtom (tm i t ret f o p) : (s.performAtom tm i t ret f o p).Canon := by
  unfold State.performAtom
  dsimp only
  refine ite_canon h ?_
  refine ite_canon (ite_canon (h.peerError ..)
    (ite_canon (h.poisonOp ..) ((ite_canon (h.wakePeer ..) h).performed ..))) ?_
  refine ite_canon h ?_
  refine ite_canon ((h.recallFor ..).poisonOp ..) ?_
  apply State.Canon.performed
  split
  · apply State.Canon.l1Drop
    split
    · exact (h.recallFor ..).write ..
    · exact h.recallFor ..
  · split
    · exact (h.recallFor ..).write ..
    · exact h.recallFor ..

theorem State.Canon.performPlain (tm i t o p) : (s.performPlain tm i t o p).Canon := by
  unfold State.performPlain
  dsimp only
  split
  · exact h.performSt ..
  · exact h.performSt ..
  · exact h.performAtom ..
  · exact h.performAtom ..
  · exact h.performAtom ..
  · exact h

theorem plainAtom_canon (i sp a w ret vals) : NextCanon (plainAtom i sp a w ret vals s) :=
  runEach_canon h fun _ _ _ _ _ h1 => h1.access (fun _ h2 => h2.poisonDst ..)
theorem execAtomicAtOrderPoint_canon (p) : NextCanon (execAtomicAtOrderPoint p s) := by
  unfold execAtomicAtOrderPoint
  split
  · refine ite_canon ?_ h
    split
    · exact h.performPlain ..
    · exact h.performPlain ..
    · exact h.performPlain ..
    · exact h
  · exact h

theorem execOrderPointWrite_canon (p) : NextCanon (execOrderPointWrite p s) := by
  unfold execOrderPointWrite
  split
  · exact ite_canon (h.performPlain ..) h
  · exact h

theorem execLineCheckout_canon (o) : NextCanon (execLineCheckout o s) := by
  unfold execLineCheckout
  dsimp only
  exact next_ite_canon h h

theorem execXadd_canon (c o) : NextCanon (execXadd c o s) :=
  runEach_canon h fun _ _ _ _ _ h1 => h1.access (fun _ h2 => h2)
theorem execXread_canon (c o) : NextCanon (execXread c o s) :=
  runEach_canon h fun _ _ _ _ _ h1 => h1.access (fun _ h2 => h2.poisonDst ..)
theorem clearOp_canon (i o line) : NextCanon (clearOp i o line s) :=
  runEach_canon h fun _ _ _ _ _ h1 => h1.access (fun _ h2 => h2)
theorem State.Canon.storeParts (line ps) : (s.storeParts line ps).Canon :=
  (((foldl_canon _ (h.recall ..) fun _ _ h1 => (h1.put ..).cleanUnits ..).bumpTags ..).wakeMons ..).voidDogs ..
theorem State.Canon.slicePut (core line ps) : (s.slicePut core line ps).Canon :=
  ite_canon ((h.storeParts ..).l1Drop ..) (h.storeParts ..)
theorem State.Canon.performX (tm i t o) : (s.performX tm i t o).Canon := by
  unfold State.performX
  refine ite_canon h ?_
  dsimp only
  split
  · exact ite_canon ((h.recall ..).failOp ..) (((h.recall ..).slicePut ..).performed ..)
  · exact ((h.recall ..).slicePut ..).performed ..
  · exact ((h.recall ..).slicePut ..).performed ..
  · exact h.recall ..

theorem execXaddAtSlice_canon (p) : NextCanon (execXaddAtSlice p s) := by
  unfold execXaddAtSlice
  split
  · exact ite_canon (h.performX ..) h
  · exact h

theorem State.Canon.performXread (tm i t q o) : (s.performXread tm i t q o).Canon :=
  ite_canon h (ite_canon ((h.recall ..).poisonOp ..)
    ((ite_canon ((h.recall ..).l1Drop ..) (h.recall ..)).modOp ..))
theorem State.Canon.glzFetch (tm thr c sys slice i) : (s.glzFetch tm thr c sys slice i).1.Canon := by
  unfold State.glzFetch
  dsimp only
  split
  · exact h
  · split <;> exact h

theorem State.Canon.glzPut (asid i) : (s.glzPut asid i).Canon := h
theorem State.Canon.glzForget (asid) : (s.glzForget asid).Canon := h
theorem execGlaze_canon (c o) : NextCanon (execGlaze c o s) :=
  runEach_canon h fun _ _ _ _ _ h1 => h1.access (fun _ h2 => h2.poisonDst ..)
theorem execGlzins_canon (c o) : NextCanon (execGlzins c o s) :=
  runEach_canon h fun _ _ _ _ _ h1 => h1.access (fun _ h2 => h2.poisonDst ..)
theorem execGlzq_canon (c o) : NextCanon (execGlzq c o s) :=
  runEach_canon h fun _ _ _ _ _ h1 => h1.access (fun _ h2 => h2.poisonDst ..)
theorem State.Canon.logOp (tm t o code addr space agent runsOn) : (s.logOp tm t o code addr space agent runsOn).Canon :=
  h.logViol ..
theorem State.Canon.glazeFault (tm i t q o g) : (s.glazeFault tm i t q o g).Canon :=
  ite_canon ((h.logOp ..).performed ..) ((h.logOp ..).failOp ..)
theorem State.Canon.performGlaze (tm i t q o) : (s.performGlaze tm i t q o).Canon := by
  unfold State.performGlaze
  refine ite_canon h ?_
  split
  · exact h
  · dsimp only
    split
    · exact ((h.glzFetch ..).modThr ..).violateLate ..
    · exact (h.glzFetch ..).failOp ..
    · exact (h.glzFetch ..).glazeFault ..
    · exact h.glzFetch ..
    · split
      · exact (h.glzFetch ..).glazeFault ..
      · refine ite_canon (((h.glzFetch ..).recall ..).glazeFault ..) ?_
        split
        · exact ((h.glzFetch ..).recall ..).glazeFault ..
        · exact (((h.glzFetch ..).recall ..).slicePut ..).performed ..

theorem execGlazeRun_canon (p) : NextCanon (execGlazeRun p s) := by
  unfold execGlazeRun
  split
  · refine ite_canon ?_ h
    split
    · exact h.performGlaze ..
    · exact h
  · exact h

theorem State.Canon.performGlzins (tm i t q o) : (s.performGlzins tm i t q o).Canon := by
  unfold State.performGlzins
  refine ite_canon h ?_
  split
  · exact h
  · dsimp only
    refine ite_canon ((h.modThr ..).violateLate ..) ?_
    refine ite_canon ((h.recall ..).poisonOp ..) ?_
    split
    · exact ((h.recall ..).modThr ..).violateLate ..
    · exact ((h.recall ..).modThr ..).violateLate ..
    · exact (h.recall ..).failOp ..
    · exact ((((h.recall ..).store ..).l1DropRange ..).glzPut ..).performed ..

theorem State.Canon.performGlzq (tm i t q o) : (s.performGlzq tm i t q o).Canon :=
  ite_canon h (ite_canon ((h.modThr ..).violateLate ..)
    (ite_canon ((h.recall ..).poisonOp ..) (((h.recall ..).l1DropRange ..).performed ..)))

end

/-! ### Barriers, queues and counters -/

section
variable {s : State} (h : s.Canon)
include h

theorem State.Canon.putBar (key b) : (s.putBar key b).Canon := ((h.put ..).bumpTags ..).wakeMons ..
theorem State.Canon.bindDogs : s.bindDogs.Canon := foldl_canon _ h fun _ _ h1 => ite_canon h1 h1
theorem State.Canon.dropDogs (f) : (s.dropDogs f).Canon := by
  unfold State.dropDogs
  apply State.Canon.bindDogs
  exact h

theorem State.Canon.flipped (key) : (s.flipped key).Canon := h
theorem State.Canon.runDogs (n) : (s.runDogs n).Canon := by
  unfold State.runDogs
  dsimp only
  apply State.Canon.frame
  exact h.bindDogs

theorem State.Canon.traceBar (b key code) : (s.traceBar b key code).Canon := h.trace ..
theorem State.Canon.barEvent (b key a n) : (s.barEvent b key a n).Canon :=
  (ite_canon ((h.putBar ..).flipped ..) (h.putBar ..)).traceBar ..
theorem State.Canon.barPoison (b key c) : (s.barPoison b key c).Canon := (h.putBar ..).traceBar ..
theorem State.Canon.dropStale (sees ranges) : (s.dropStale sees ranges).Canon := h
theorem execBarrierEngineEvent_canon (o) : NextCanon (execBarrierEngineEvent o s) := by
  unfold execBarrierEngineEvent
  split
  · exact h
  · exact next_ite_canon h
      (ite_canon ((h.modTeam ..).dropStale ..)
        (ite_canon (((h.modTeam ..).dropStale ..).barPoison ..) (((h.modTeam ..).dropStale ..).barEvent ..)))

theorem execWatchdogExpiry_canon (id) : NextCanon (execWatchdogExpiry id s) := by
  unfold execWatchdogExpiry
  split
  · exact h
  · exact (((ite_canon h ((h.putBar ..).traceBar ..)).dropDogs ..).logViol ..).modTeam ..

theorem barOp_canon (i sp a vals) : NextCanon (barOp i sp a vals s) :=
  runEach_canon h fun _ _ _ _ _ h1 => h1.access (fun _ h2 => h2)
theorem State.Canon.armDog {tm t q o conf s'} (hs : s.armDog tm t q o conf = some s') : s'.Canon := by
  unfold State.armDog at hs
  dsimp only at hs
  split at hs <;> cases hs
  exact h.bindDogs.frame

theorem State.Canon.bariStep (tm t q o) : (s.bariStep tm t q o).1.Canon := by
  unfold State.bariStep
  dsimp only
  split
  · split
    · next heq => exact (h.armDog heq).putBar ..
    · apply State.Canon.putBar
      exact h
  · exact (h.dropDogs ..).putBar ..

theorem State.Canon.completePred (tm i o p b) : (s.completePred tm i o p b).Canon :=
  (h.setPred ..).completeOp ..
theorem State.Canon.performBar (tm i t o) : (s.performBar tm i t o).Canon := by
  unfold State.performBar
  refine ite_canon h ?_
  refine ite_canon (h.poisonOp ..) ?_
  dsimp only
  split
  · exact (ite_canon (((h.forgetK ..).bariStep ..).traceBar ..) ((h.forgetK ..).bariStep ..)).completePred ..
  · exact ((h.noteK ..).barEvent ..).completeOp ..
  · exact (ite_canon (h.followK ..) h).completePred ..
  · exact h.completePred ..
  · exact (h.barPoison ..).completeOp ..
  · exact h

theorem State.Canon.failWait (tm i o kind cause addr) : (s.failWait tm i o kind cause addr).Canon :=
  (h.dropWait ..).reportLate ..
theorem execBarw_canon (c o) : NextCanon (execBarw c o s) := by
  unfold execBarw
  refine runEach_canon h fun _ _ _ _ _ h1 => ?_
  dsimp only
  refine ite_canon (h1.raise ..) ?_
  split
  · refine ite_canon (h1.raise ..) ?_
    refine ite_canon (h1.pushWait ..) ?_
    split
    · exact (ite_canon (h1.followK ..) h1).resAtEnd ..
    · exact h1.pushWait ..
  · exact h1.access (fun _ h2 => h2)

theorem State.Canon.retryBarw (tm i t q o) : (s.retryBarw tm i t q o).Canon := by
  unfold State.retryBarw
  refine ite_canon (h.failWait ..) ?_
  refine ite_canon h ?_
  split
  · exact ((ite_canon (h.followK ..) h).setPred ..).endWait ..
  · exact h.markWaited ..

theorem State.Canon.modQueue (id n f) : (s.modQueue id n f).Canon := h.modTeam ..
theorem execQcfgSet_canon (c o) : NextCanon (execQcfgSet c o s) :=
  runEach_canon h fun _ _ _ _ _ h1 => h1.access (fun _ h2 => h2)
theorem execQcfgGrant_canon (c o) : NextCanon (execQcfgGrant c o s) :=
  runEach_canon h fun _ _ _ _ _ h1 => h1.pushOp ..
theorem execQcfgStat_canon (c o) : NextCanon (execQcfgStat c o s) :=
  runEach_canon h fun _ _ _ _ _ h1 => h1.pushOp ..
theorem execQcfgOff_canon (c q) : NextCanon (execQcfgOff c q s) :=
  runEach_canon h fun _ _ _ _ _ h1 => h1.pushOp ..
theorem State.Canon.qPush (tm i n ws ks) : (s.qPush tm i n ws ks).Canon := by
  unfold State.qPush
  exact (foldl_fst_canon _ (h.noteK ..) fun _ _ h1 => h1.store ..).modQueue ..

theorem State.Canon.qPop (tm i n) : (s.qPop tm i n).1.Canon := by
  unfold State.qPop
  split
  · split
    · exact ite_canon (((h.modTeam ..).dropStale ..).l1Acquire ..) ((h.modTeam ..).dropStale ..)
    · exact h
  · exact ((h.followK ..).forgetK ..).modQueue ..

theorem State.Canon.popFault (i tm o r) : (s.popFault i tm o r).Canon := by
  unfold State.popFault
  split
  · exact h.reportLate ..
  · exact h

theorem State.Canon.newQueue (id n r) : (s.newQueue id n r).Canon := (h.forgetK ..).modQueue ..
theorem State.Canon.performQueue (tm i t o) : (s.performQueue tm i t o).Canon := by
  unfold State.performQueue
  refine ite_canon h ?_
  split
  · refine ite_canon (h.poisonOp ..) ?_
    split
    · exact (h.newQueue ..).completeOp ..
    · exact (h.newQueue ..).failOp ..
  · exact ite_canon h ((h.modQueue ..).completeOp ..)
  · exact h.completeOp ..
  · exact (h.newQueue ..).completeOp ..
  · exact ite_canon (h.completePred ..)
      (ite_canon h (ite_canon (h.failOp ..) ((((h.qPop ..).setPred ..).completeOp ..).popFault ..)))
  · exact h

theorem execQpush_canon (c o) : NextCanon (execQpush c o s) := by
  unfold execQpush
  refine runEach_canon h fun _ _ _ _ _ h1 => ?_
  split
  · exact h1
  · exact ite_canon (h1.qPush ..) (h1.pushWait ..)

theorem execQpop_canon (c o) : NextCanon (execQpop c o s) := by
  unfold execQpop
  refine runEach_canon h fun _ _ _ _ _ h1 => ?_
  split
  · exact h1
  · dsimp only
    refine ite_canon (h1.raise ..) ?_
    refine ite_canon ?_ (h1.pushWait ..)
    split
    · exact ((h1.qPop ..).resAtEnd ..).reportIssue ..
    · exact (h1.qPop ..).resAtEnd ..

theorem execQtry_canon (c o) : NextCanon (execQtry c o s) := by
  unfold execQtry
  refine runEach_canon h fun _ _ _ _ _ h1 => ?_
  split
  · exact h1
  · exact h1.pushOp ..

theorem State.Canon.retryQueue (tm i t o) : (s.retryQueue tm i t o).Canon := by
  unfold State.retryQueue
  split
  · exact ite_canon (h.markWaited ..) (ite_canon h (ite_canon (h.failWait ..) ((h.qPush ..).endWait ..)))
  · exact ite_canon (h.markWaited ..)
      (ite_canon h (ite_canon (h.failWait ..) ((((h.qPop ..).modThr ..).endWait ..).popFault ..)))
  · exact h

theorem execQueueRecordPost_canon (o) : NextCanon (execQueueRecordPost o s) := by
  unfold execQueueRecordPost
  split
  · exact h
  · split
    · exact h
    · exact next_ite_canon h (h.modTeam ..)

theorem State.Canon.acquireAt (core sc) : (s.acquireAt core sc).Canon := ite_canon h (h.l1Acquire ..)
theorem State.Canon.releaseAt (core sc) : (s.releaseAt core sc).Canon := ite_canon (h.returnLines ..) h
theorem ctrOp_canon {i a waits f} (hf : ∀ x cr t n o p u, u.Canon → (f x cr t n o p u).Canon) :
    NextCanon (ctrOp i a waits f s) := by
  unfold ctrOp
  refine runEach_canon h fun _ _ _ _ _ h1 => ?_
  dsimp only
  refine ite_canon (h1.raise ..) ?_
  split
  · exact hf _ _ _ _ _ _ _ h1
  · exact h1.violate ..

theorem execSqadd_canon (c o) : NextCanon (execSqadd c o s) :=
  ctrOp_canon h fun _ _ _ _ _ _ _ h1 => h1.pushOp ..
theorem execSqrd_canon (c o) : NextCanon (execSqrd c o s) :=
  ctrOp_canon h fun _ _ _ _ _ _ _ h1 => h1.pushOp ..
theorem State.Canon.performCtr (tm i t o) : (s.performCtr tm i t o).Canon := by
  unfold State.performCtr
  dsimp only
  refine ite_canon h ?_
  split
  · exact ite_canon h (ite_canon (h.poisonOp ..) ((((h.noteK ..).releaseAt ..).addCounter ..).completeOp ..))
  · exact ite_canon (ite_canon (h.poisonOp ..) (h.modOp ..)) (ite_canon h ((h.acquireAt ..).completeOp ..))
  · exact h

theorem execSqwait_canon (c o) : NextCanon (execSqwait c o s) := by
  unfold execSqwait
  refine ctrOp_canon h fun _ _ _ _ _ _ _ h1 => ?_
  dsimp only
  refine ite_canon (h1.raise ..) ?_
  refine ite_canon ?_ (h1.pushWait ..)
  split
  · exact (h1.acquireAt ..).followK ..
  · exact h1

theorem State.Canon.retrySqwait (tm i t q o) : (s.retrySqwait tm i t q o).Canon :=
  ite_canon (h.failWait ..)
    (ite_canon (h.markWaited ..) (ite_canon h (((h.acquireAt ..).followK ..).endWait ..)))

end

/-! ### Loads, stores, fences, flushes and monitors -/

section
variable {s : State} (h : s.Canon)
include h

theorem State.Canon.forceEarlier (id i key n) : (s.forceEarlier id i key n).Canon := by
  unfold State.forceEarlier
  split
  · exact h
  · refine foldl_canon _ h fun _ _ h1 => ?_
    split
    · dsimp only
      split
      · exact h1.performBar ..
      · exact h1.performBar ..
      · exact h1.performBar ..
      · exact h1.performLd ..
      · exact h1.performPlain ..
    · exact h1

theorem State.Canon.pushFixed (x j i o ea key w) : (s.pushFixed x j i o ea key w).Canon := h
theorem execLd_canon (c o) : NextCanon (execLd c o s) := by
  unfold execLd
  refine runEach_canon h fun _ _ _ _ _ h1 => ?_
  dsimp only
  split
  · exact ite_canon (h1.pushFixed ..) (h1.access (fun _ h2 => h2.poisonDst ..))
  · exact h1.access (fun _ h2 => h2.poisonDst ..)

theorem storeOp_canon (i o tagged) : NextCanon (storeOp i o tagged s) := by
  unfold storeOp
  refine runEach_canon h fun _ _ _ _ _ h1 => ?_
  dsimp only
  split
  · exact ite_canon ((h1.access (fun _ h2 => h2)).l1Update ..) (h1.access (fun _ h2 => h2))
  · exact h1.access (fun _ h2 => h2)

theorem execPref_canon (c o) : NextCanon (execPref c o s) := by
  unfold execPref
  refine runEach_canon h fun _ _ _ _ _ h1 => ?_
  dsimp only
  split
  · exact h1
  · split <;> exact (h1.sampleMem ..).pushOp ..

theorem State.Canon.performPref (tm i o q) : (s.performPref tm i o q).Canon :=
  (ite_canon ((h.recallFor ..).l1Fill ..) h).completeOp ..
theorem linesOp_canon {i o fill f} (hf : ∀ u tm n, u.Canon → (f u tm n).Canon) :
    NextCanon (linesOp i o fill f s) := by
  unfold linesOp
  refine runEach_canon h fun _ _ _ _ _ h1 => ?_
  split
  · exact h1
  · split
    · exact h1
    · exact foldl_canon _ h1 fun _ _ h2 => hf _ _ _ (ite_canon (h2.fillLine ..) h2)

theorem execIpref_canon (c o) : NextCanon (execIpref c o s) := linesOp_canon h (fun _ _ _ h1 => h1)
theorem State.Canon.addPin (tm line) : (s.addPin tm line).Canon := h
theorem State.Canon.dropPin (tm line) : (s.dropPin tm line).Canon := h
theorem execIpin_canon (c o) : NextCanon (execIpin c o s) := linesOp_canon h (fun _ _ _ h1 => h1.addPin ..)
theorem execIunpin_canon (c o) : NextCanon (execIunpin c o s) :=
  linesOp_canon h (fun _ _ _ h1 => h1.dropPin ..)
theorem State.Canon.fenceEffect (id rel acq sc) : (s.fenceEffect id rel acq sc).Canon := by
  unfold State.fenceEffect
  split
  · exact h
  · exact ite_canon ((ite_canon (h.releaseAt ..) h).acquireAt ..) (ite_canon (h.releaseAt ..) h)

theorem fenceOp_canon (i rel acq sc) : NextCanon (fenceOp i rel acq sc s) :=
  runEach_canon h fun _ _ _ _ _ h1 => ite_canon (h1.fenceEffect ..) (h1.pushWait ..)
theorem State.Canon.retryFence (tm i t o rel acq sc) : (s.retryFence tm i t o rel acq sc).Canon :=
  ite_canon ((h.fenceEffect ..).endWait ..) (h.markWaited ..)
theorem flushOp_canon (i o) : NextCanon (flushOp i o s) := by
  unfold flushOp
  refine runEach_canon h fun _ _ _ _ _ h1 => ?_
  dsimp only
  split
  · exact h1.violate ..
  · exact h1.pushOp ..
  · exact h1.pushOp ..

theorem flushSys_canon (i o) : NextCanon (flushSys i o s) := runEach_canon h fun _ _ _ _ _ h1 => h1.pushOp ..
theorem State.Canon.dropTlb (asid va) : (s.dropTlb asid va).Canon := h
theorem State.Canon.flushCtx (c) : (s.flushCtx c).Canon := ((h.unhome ..).returnLines ..).loseMons ..
theorem State.Canon.performFlush (tm i o) : (s.performFlush tm i o).Canon := by
  unfold State.performFlush
  dsimp only
  apply State.Canon.completeOp
  split
  · exact ite_canon (((h.recall ..).l1Drop ..).loseMons ..) h
  · exact ite_canon ((h.recall ..).loseMons ..) h
  · exact ite_canon ((((h.unhome ..).recall ..).l1Drop ..).loseMons ..) h
  · exact h.dropTlb ..
  · exact h.dropTlb ..
  · split
    · exact h.flushCtx ..
    · exact h
  · exact h

theorem feOp_canon (i o) : NextCanon (feOp i o s) :=
  runEach_canon h fun _ _ _ _ _ h1 => h1.access (fun _ h2 => h2)
theorem State.Canon.performFe (tm i t o b) : (s.performFe tm i t o b).Canon :=
  ite_canon h ((foldl_canon _ h fun _ _ h1 => h1.setFull ..).completeOp ..)
theorem State.Canon.limitMons (core) : (s.limitMons core).Canon := ite_canon h h
theorem execMonitor_canon (c o) : NextCanon (execMonitor c o s) := by
  unfold execMonitor
  refine runEach_canon h fun _ _ _ _ _ h1 => ?_
  dsimp only
  split
  · split
    · exact h1
    · apply State.Canon.limitMons
      exact h1
  · split
    · exact h1
    · apply State.Canon.limitMons
      exact h1
  · exact h1.reportIssue ..
  · exact h1.violate ..

theorem execWaitm_canon (c) : NextCanon (execWaitm c s) :=
  runEach_canon h fun _ _ _ _ _ h1 => ite_canon (h1.raise ..) (ite_canon (h1.modThr ..) (h1.pushWait ..))
theorem State.Canon.retryWaitm (tm i t o) : (s.retryWaitm tm i t o).Canon := by
  unfold State.retryWaitm
  split
  · exact (h.modThr ..).endWait ..
  · exact ite_canon ((h.modThr ..).endWait ..) (h.markWaited ..)

theorem execPageWalkComplete_canon (o) : NextCanon (execPageWalkComplete o s) := by
  unfold execPageWalkComplete
  split
  · exact h
  · refine next_ite_canon h ?_
    split <;> exact h

end

/-! ### Engines: copies and sorts -/

section
variable {s : State} (h : s.Canon)
include h

theorem State.Canon.logEngine (tm o code addr space agent iaddr) :
    (s.logEngine tm o code addr space agent iaddr).Canon := by
  unfold State.logEngine
  split
  · exact h.logViol ..
  · exact h

theorem State.Canon.postRec (id q data ranges after) : (s.postRec id q data ranges after).Canon :=
  h.modTeam ..
theorem State.Canon.postEvent (id key a n poison ranges) : (s.postEvent id key a n poison ranges).Canon := h
theorem State.Canon.postBoth (id key a n poison q data ranges) :
    (s.postBoth id key a n poison q data ranges).Canon := by
  unfold State.postBoth
  split
  · exact (h.postEvent ..).postRec ..
  · exact h.postRec ..

theorem State.Canon.engineMiss (tm id va write) : (s.engineMiss tm id va write).Canon :=
  (h.pageService ..).modTeam ..
theorem execEnginePageRetry_canon (o) : NextCanon (execEnginePageRetry o s) := by
  unfold execEnginePageRetry
  split
  · exact h
  · split
    · exact next_ite_canon h (h.modTeam ..)
    · exact h

theorem State.Canon.sampleFor (tm o rs) : (s.sampleFor tm o rs).Canon := h.sampleLines ..
theorem State.Canon.sampleThr (tm j rs) : (s.sampleThr tm j rs).Canon := h.sampleLines ..
theorem State.Canon.enginePut (asid key bs) : (s.enginePut asid key bs).Canon :=
  ite_canon (h.wakePeer ..) (h.engineStore ..)
theorem State.Canon.storeRuns (asid ps) : (s.storeRuns asid ps).Canon :=
  foldl_canon _ h fun _ _ h1 => h1.enginePut ..
theorem State.Canon.freeBytes (key n) : (s.freeBytes key n).Canon :=
  ite_canon (foldl_canon _ h fun _ _ h1 => h1.engineStore ..) h
theorem engineOp_canon {i bindBit opnds go} (hgo : ∀ x tm cr t n u, u.Canon → (go x tm cr t n u).Canon) :
    NextCanon (engineOp i bindBit opnds go s) := by
  unfold engineOp
  refine runEach_canon h fun _ _ _ _ _ h1 => ?_
  split
  · exact h1
  · refine ite_canon (h1.raise ..) ?_
    split
    · exact h1.violate ..
    · exact hgo _ _ _ _ _ _ h1

theorem State.Canon.pushDone (x j i) : (s.pushDone x j i).Canon := h.pushOp ..
theorem State.Canon.pushMemRead (x tm j i ea n vals) : (s.pushMemRead x tm j i ea n vals).Canon := by
  unfold State.pushMemRead
  dsimp only
  split
  · exact (h.sampleThr ..).pushOp ..
  · exact (h.sampleThr ..).pushOp ..
  · exact (h.sampleThr ..).violateIssue ..
  · exact (h.sampleThr ..).reportIssue ..

theorem State.Canon.pushKeyRead (x tm j i sp ea n vals) : (s.pushKeyRead x tm j i sp ea n vals).Canon := by
  unfold State.pushKeyRead
  split
  · exact h.pushOp ..
  · exact h.violateIssue ..

theorem execCpclose_canon (c) : NextCanon (execCpclose c s) :=
  runEach_canon h fun _ _ _ _ _ h1 => h1.modThr ..
theorem execCpwait_canon (c n) : NextCanon (execCpwait c n s) :=
  runEach_canon h fun _ _ _ _ _ h1 => ite_canon (h1.raise ..) (ite_canon h1 (h1.pushWait ..))
theorem State.Canon.retryCpwait (tm i t n o) : (s.retryCpwait tm i t n o).Canon :=
  ite_canon (h.endWait ..) (h.markWaited ..)
theorem State.Canon.acceptCpl (x tm t j i o q) : (s.acceptCpl x tm t j i o q).Canon := by
  unfold State.acceptCpl
  dsimp only
  apply State.Canon.pushDone
  apply State.Canon.observeIssue
  apply State.Canon.modTeam
  apply State.Canon.frame
  exact (ite_canon (h.modThr ..) h).modThr ..

theorem execCpl_canon (c o) : NextCanon (execCpl c o s) :=
  engineOp_canon h fun _ _ _ _ _ _ h1 => ite_canon (h1.stallFor ..) ((h1.wakeRoom ..).acceptCpl ..)
theorem State.Canon.cplLeaves (tm c fault) : (s.cplLeaves tm c fault).Canon := (h.modTeam ..).modThr ..
theorem State.Canon.cplFault (tm c dst code addr space) : (s.cplFault tm c dst code addr space).Canon := by
  unfold State.cplFault
  dsimp only
  apply State.Canon.cplLeaves
  apply State.Canon.postRec
  apply State.Canon.logEngine
  split
  · exact h.freeBytes ..
  · exact h

theorem State.Canon.cplFinish (tm c p) : (s.cplFinish tm c p).Canon := by
  unfold State.cplFinish
  split
  · exact h.engineMiss ..
  · exact h.cplFault ..
  · exact h
  · exact h
  · exact h
  · exact h.engineMiss ..
  · exact h.cplFault ..
  · exact ((h.enginePut ..).l1DropRange ..).cplLeaves ..

theorem execCplCopyFinish_canon (o) : NextCanon (execCplCopyFinish o s) := by
  unfold execCplCopyFinish
  split
  · exact h
  · split
    · exact h
    · exact next_ite_canon h ((h.sampleFor ..).cplFinish ..)

theorem State.Canon.setShape (id n h') : (s.setShape id n h').Canon := h.modTeam ..
theorem execTload_canon (c o) : NextCanon (execTload c o s) :=
  engineOp_canon h fun _ _ _ _ _ _ h1 => h1.pushMemRead ..
theorem execTevict_canon (c n) : NextCanon (execTevict c n s) :=
  runEach_canon h fun _ _ _ _ _ h1 => h1.setShape ..
theorem State.Canon.blockRead {tm i t o p go} (hgo : ∀ u bs, u.Canon → (go u bs).Canon) :
    (s.blockRead tm i t o p go).Canon := by
  unfold State.blockRead
  refine ite_canon h ?_
  dsimp only
  refine ite_canon (ite_canon ((h.recallFor ..).peerError ..)
    (ite_canon ((h.recallFor ..).poisonOp ..) (hgo _ _ (h.recallFor ..)))) ?_
  split
  · exact (h.recallFor ..).poisonOp ..
  · exact hgo _ _ (h.recallFor ..)

theorem State.Canon.performTload (tm i t n o p) : (s.performTload tm i t n o p).Canon := by
  unfold State.performTload
  refine h.blockRead fun _ _ h1 => ?_
  split
  · exact (h1.setShape ..).completeOp ..
  · exact (h1.setShape ..).failOp ..

theorem State.Canon.zeroMap (id c r) : (s.zeroMap id c r).Canon := by
  unfold State.zeroMap
  dsimp only
  apply State.Canon.modTeam
  split
  · exact h.store ..
  · exact h

theorem State.Canon.acceptTile (x t j i c) : (s.acceptTile x t j i c).Canon := by
  unfold State.acceptTile
  refine State.Canon.pushDone
    (State.Canon.observeIssue (ite_canon (foldl_canon _ ?_ fun _ _ h1 => h1.zeroMap ..) ?_) ..) .. <;> exact h

theorem tileOp_canon (i vals) : NextCanon (tileOp i vals s) := by
  unfold tileOp
  refine runEach_canon h fun _ _ _ _ _ h1 => ?_
  split
  · exact h1
  · dsimp only
    refine ite_canon (h1.raise ..) ?_
    refine ite_canon (h1.violate ..) ?_
    split
    · exact h1.violate ..
    · split
      · apply State.Canon.raise
        split
        · exact ite_canon (h1.logViol ..) h1
        · exact h1
      · exact h1.raise ..
      · split
        · exact h1.violateIssue ..
        · exact h1.reportIssue ..
        · exact h1.acceptTile ..

theorem State.Canon.landChunk (c r k count) : (s.landChunk c r k count).Canon := by
  unfold State.landChunk
  split
  · exact h
  · dsimp only
    split
    · exact ite_canon ((((h.put ..).wakeMons ..).voidDogs ..).barEvent ..)
        (((h.put ..).wakeMons ..).voidDogs ..)
    · exact ((h.put ..).wakeMons ..).voidDogs ..

theorem State.Canon.markChunk (id c r k) : (s.markChunk id c r k).Canon := h.modTeam ..
theorem State.Canon.tileLeaves (id cid) : (s.tileLeaves id cid).Canon := by
  unfold State.tileLeaves
  split
  · exact h
  · exact ite_canon (ite_canon ((h.modTeam ..).postRec ..) (h.modTeam ..)) h

theorem State.Canon.freeTile (keys) : (s.freeTile keys).Canon := by
  unfold State.freeTile
  refine foldl_canon _ h fun _ _ h1 => ?_
  split
  · exact h1.freeBytes ..
  · exact h1

theorem State.Canon.freeUnits (tm c p units) : (s.freeUnits tm c p units).Canon := by
  unfold State.freeUnits
  refine foldl_canon _ h fun _ _ h1 => ?_
  refine foldl_canon _ h1 fun _ _ h2 => ?_
  split
  · exact h2.freeBytes ..
  · exact h2

theorem State.Canon.faultAt (tm c p v) : (s.faultAt tm c p v).Canon := by
  unfold State.faultAt
  have hfold : ((c.undone v).foldl (fun s k =>
      (if c.st then s.freeUnits tm c p (chunkUnits c.sh k)
        else match s.team? v.team with
          | some ru => s.freeTile (s.tileKeys ru c.sh c.d (chunkUnits c.sh k))
          | none => s).landChunk c v.team k false) s).Canon := by
    refine foldl_canon _ h fun s k hs => State.Canon.landChunk (ite_canon (hs.freeUnits ..) ?_) ..
    split
    · exact hs.freeTile ..
    · exact hs
  dsimp only
  split
  · exact ite_canon (hfold.barPoison ..) hfold
  · exact hfold

theorem State.Canon.tileFault (tm c p code addr space) : (s.tileFault tm c p code addr space).Canon :=
  ((foldl_canon _ (h.logEngine ..) fun _ _ h1 => h1.faultAt ..).postRec ..).modTeam ..
theorem State.Canon.runLoad (tm ru c k p) : (s.runLoad tm ru c k p).Canon := by
  unfold State.runLoad
  dsimp only
  split
  · exact h.engineMiss ..
  · exact h.tileFault ..
  · exact h
  · exact h
  · exact (((ite_canon ((h.storeRuns ..).modTeam ..) (h.storeRuns ..)).landChunk ..).markChunk ..).tileLeaves ..

theorem State.Canon.runStore (tm c k p) : (s.runStore tm c k p).Canon := by
  unfold State.runStore
  split
  · exact h.engineMiss ..
  · exact h.tileFault ..
  · exact h
  · exact h
  · exact (((ite_canon ((h.storeRuns ..).dropStale ..)
      (foldl_canon _ (h.storeRuns ..) fun _ _ h1 => h1.l1DropRange ..)).landChunk ..).markChunk ..).tileLeaves ..

theorem execChunk_canon (o) : NextCanon (execChunk o s) := by
  unfold execChunk
  split
  · exact h
  · split
    · split
      · exact h
      · exact next_ite_canon h
          (ite_canon ((ite_canon (h.sampleFor ..) ((h.sampleFor ..).zeroMap ..)).runStore ..)
            ((ite_canon (h.sampleFor ..) ((h.sampleFor ..).zeroMap ..)).runLoad ..))
    · exact h

theorem execChkw_canon (c o) : NextCanon (execChkw c o s) := by
  unfold execChkw
  refine runEach_canon h fun _ _ _ _ _ h1 => ?_
  dsimp only
  refine ite_canon (h1.raise ..) ?_
  split
  · exact ite_canon (h1.raise ..) (ite_canon h1 (h1.pushWait ..))
  · exact h1.access (fun _ h2 => h2)

theorem State.Canon.retryChkw (tm i t o) : (s.retryChkw tm i t o).Canon :=
  ite_canon (h.failWait ..) (ite_canon (h.markWaited ..) (ite_canon h (h.endWait ..)))
theorem execChkt_canon (c o) : NextCanon (execChkt c o s) :=
  runEach_canon h fun _ _ _ _ _ h1 => h1.access (fun _ h2 => h2)
theorem State.Canon.performChkt (tm i t o p) : (s.performChkt tm i t o p).Canon :=
  ite_canon h (ite_canon (h.poisonOp ..) (h.completePred ..))
theorem execSort_canon (c a) : NextCanon (execSort c a s) :=
  engineOp_canon h fun _ _ _ _ _ _ h1 => h1.pushKeyRead ..
theorem State.Canon.noteMisuse : s.noteMisuse.Canon := ite_canon h h
theorem State.Canon.ownWrites (s0) : (s.ownWrites s0).Canon := by
  unfold State.ownWrites
  dsimp only
  apply State.Canon.frame
  exact h.noteMisuse

theorem State.Canon.performSort (tm i t o) : (s.performSort tm i t o).Canon := by
  unfold State.performSort
  refine ite_canon h ?_
  split
  · exact h.poisonOp ..
  · split
    · exact h.failOp ..
    · dsimp only
      split
      · exact h.violateLate ..
      · exact h

theorem State.Canon.sortLeaves (tm q) : (s.sortLeaves tm q).Canon := h.modTeam ..
theorem State.Canon.modSort (id sid f) : (s.modSort id sid f).Canon := h.modTeam ..
theorem State.Canon.freeArrays (rs) : (s.freeArrays rs).Canon := foldl_canon _ h fun _ _ h1 => h1.freeBytes ..
theorem State.Canon.sortFault (tm q code addr space) : (s.sortFault tm q code addr space).Canon :=
  (((h.freeArrays ..).logEngine ..).postBoth ..).sortLeaves ..
theorem execSortStart_canon (o) : NextCanon (execSortStart o s) := by
  unfold execSortStart
  split
  · exact h
  · refine next_ite_canon h ?_
    dsimp only
    refine next_ite_canon (h.modSort ..) ?_
    split
    · exact h
    · refine next_ite_canon (h.sortFault ..) ?_
      split
      · exact h
      · exact h.modSort ..
      · exact (h.postBoth ..).sortLeaves ..

theorem State.Canon.movePass {tm q p s'} (hs : s.movePass tm q p = .ok s') : s'.Canon := by
  unfold State.movePass at hs
  dsimp only at hs
  split at hs
  · cases hs
  · cases hs
  · split at hs <;> cases hs
    exact h.storeRuns ..

theorem State.Canon.sortPass (tm q p) : (s.sortPass tm q p).Canon := by
  unfold State.sortPass
  split
  · exact h.engineMiss ..
  · exact h.sortFault ..
  · exact h
  · exact h
  · next heq => exact ((h.movePass heq).ownWrites _).modSort ..

theorem execSortPass_canon (o) : NextCanon (execSortPass o s) := by
  unfold execSortPass
  split
  · exact h
  · exact next_ite_canon h ((h.sampleFor ..).sortPass ..)

theorem execSortComplete_canon (o) : NextCanon (execSortComplete o s) := by
  unfold execSortComplete
  split
  · exact h
  · exact next_ite_canon h (((h.freeArrays ..).postBoth ..).sortLeaves ..)

end

/-! ### Engines: the matrix arrays -/

section
variable {s : State} (h : s.Canon)
include h

theorem State.Canon.pushCmd (x tm t j i vals blk) : (s.pushCmd x tm t j i vals blk).Canon :=
  ite_canon (h.stallFor ..) (((h.wakeRoom ..).pushOp ..).modTeam ..)
theorem State.Canon.modCmd (id cid f) : (s.modCmd id cid f).Canon := h.modTeam ..
theorem State.Canon.dropCmd (id cid) : (s.dropCmd id cid).Canon := h.modTeam ..
theorem State.Canon.mxDone (tm c ws) : (s.mxDone tm c ws).Canon := by
  unfold State.mxDone
  split
  · exact (h.dropCmd ..).completeOp ..
  · exact h.dropCmd ..

theorem State.Canon.mxRecord (tm c kind xf tag addr bar) : (s.mxRecord tm c kind xf tag addr bar).Canon := by
  unfold State.mxRecord
  dsimp only
  split
  · apply State.Canon.modTeam
    split
    · exact h.postBoth ..
    · exact h.postRec ..
  · split
    · exact h.postBoth ..
    · exact h.postRec ..

theorem State.Canon.mxStatus (id xf) : (s.mxStatus id xf).Canon := h.modTeam ..
theorem State.Canon.coreEvent (tm a arr n poison ranges) : (s.coreEvent tm a arr n poison ranges).Canon := by
  unfold State.coreEvent
  split
  · exact h.postEvent ..
  · exact h

theorem execMmzero_canon (c o) : NextCanon (execMmzero c o s) :=
  engineOp_canon h fun _ _ _ _ _ _ h1 => h1.pushCmd ..
theorem execMmld_canon (c o) : NextCanon (execMmld c o s) :=
  engineOp_canon h fun _ _ _ _ _ _ h1 => ite_canon (h1.raise ..) (ite_canon (h1.raise ..) (h1.pushCmd ..))
theorem execMmst_canon (c o) : NextCanon (execMmst c o s) :=
  engineOp_canon h fun _ _ _ _ _ _ h1 => ite_canon (h1.raise ..)
    ((ite_canon (h1.observeIssue ..) h1).pushCmd ..)
theorem execMmrd_canon (c o) : NextCanon (execMmrd c o s) :=
  engineOp_canon h fun _ _ _ _ _ _ h1 => ite_canon (h1.raise ..) (h1.pushCmd ..)
theorem execMmx_canon (c a) : NextCanon (execMmx c a s) := by
  unfold execMmx
  refine engineOp_canon h fun _ _ _ _ _ _ h1 => ?_
  dsimp only
  split
  · exact h1.violateIssue ..
  · refine ite_canon ((h1.forceEarlier ..).reportIssue ..) ?_
    refine ite_canon ((h1.forceEarlier ..).reportIssue ..) ?_
    split
    · exact (h1.forceEarlier ..).violateIssue ..
    · exact (h1.forceEarlier ..).pushCmd ..

theorem State.Canon.modArray (core q f) : (s.modArray core q f).Canon := h.modCore ..
theorem State.Canon.runArrays (n) : (s.runArrays n).Canon := h
theorem execArrayIdleGate_canon (o) : NextCanon (execArrayIdleGate o s) := by
  unfold execArrayIdleGate
  split
  · exact h
  · dsimp only
    exact next_ite_canon (h.modArray ..) h

theorem execArrayWakeComplete_canon (o) : NextCanon (execArrayWakeComplete o s) := by
  unfold execArrayWakeComplete
  dsimp only
  exact next_ite_canon (h.modArray ..) h

theorem execMmwake_canon (c mask) : NextCanon (execMmwake c mask s) :=
  engineOp_canon h fun _ _ _ _ _ _ h1 =>
    (foldl_canon _ h1 fun _ _ h2 => ite_canon (h2.modArray ..) h2).pushOp ..
theorem State.Canon.performMmwake (tm i mask o) : (s.performMmwake tm i mask o).Canon :=
  ite_canon (h.completeOp ..) h
theorem execMmstat_canon (c o) : NextCanon (execMmstat c o s) :=
  runEach_canon h fun _ _ _ _ _ h1 => h1.pushOp ..
theorem State.Canon.performMmstat (tm i q o) : (s.performMmstat tm i q o).Canon :=
  (ite_canon (h.modTeam ..) h).completeOp ..
theorem State.Canon.fillBufs (tm b) : (s.fillBufs tm b).Canon :=
  foldl_canon _ h fun _ _ h1 => ite_canon h1 (ite_canon (h1.modArray ..) (ite_canon (h1.modArray ..) h1))
theorem State.Canon.wakeArrays (core b) : (s.wakeArrays core b).Canon :=
  foldl_canon _ h fun _ _ h1 => ite_canon (h1.modArray ..) h1
theorem State.Canon.beginMmx (tm c b) : (s.beginMmx tm c b).Canon :=
  (((h.modTeam ..).fillBufs ..).wakeArrays ..).modCmd ..
theorem State.Canon.retireMmx (tm c b kind poison) : (s.retireMmx tm c b kind poison).Canon :=
  (((ite_canon (ite_canon (h.coreEvent ..) h) (h.mxRecord ..)).mxStatus ..).modTeam ..).mxDone ..
theorem State.Canon.readAhead (tm) : (s.readAhead tm).Canon := h.modTeam ..
theorem execMatrixOpStart_canon (team) : NextCanon (execMatrixOpStart team s) := by
  unfold execMatrixOpStart
  split
  · exact h
  · split
    · refine next_ite_canon h ?_
      refine next_ite_canon (h.readAhead ..) ?_
      refine next_ite_canon (h.beginMmx ..) ?_
      split
      · exact h
      · refine next_ite_canon (h.retireMmx ..) ?_
        split
        · exact h.readAhead ..
        · exact h.beginMmx ..
        · exact h.retireMmx ..
    · exact ite_canon (h.readAhead ..) h
    · exact h

theorem execMatrixPass_canon (team) : NextCanon (execMatrixPass team s) := by
  unfold execMatrixPass
  split
  · exact h
  · split
    · exact h
    · refine next_ite_canon h ?_
      refine next_ite_canon (h.wakeArrays ..) ?_
      split <;> exact (h.modTeam ..).modCmd ..

theorem State.Canon.runMmzero (tm c o) : (s.runMmzero tm c o).Canon := (h.modTeam ..).mxDone ..
theorem State.Canon.runMmld (tm c o) : (s.runMmld tm c o).Canon :=
  (ite_canon ((h.modTeam ..).mxRecord ..) (h.modTeam ..)).mxDone ..
theorem State.Canon.mmstFault (tm c o xf code addr) : (s.mmstFault tm c o xf code addr).Canon :=
  (ite_canon (((h.logEngine ..).mxRecord ..).coreEvent ..) ((h.logEngine ..).mxRecord ..)).mxDone ..
theorem State.Canon.poisonUnits (ps) : (s.poisonUnits ps).Canon :=
  foldl_canon _ h fun _ _ h1 => foldl_canon _ h1 fun _ _ h2 => h2.setPoison ..
theorem State.Canon.runMmst (tm c o) : (s.runMmst tm c o).Canon := by
  unfold State.runMmst
  dsimp only
  have hread {p : Prop} [Decidable p] {ks} : (if p then s.sampleFor tm c.o ks else s).Canon := ite_canon (h.sampleFor ..) h
  have hstored {u : State} (hu : u.Canon) {ps} {l : List (Nat × Nat)} :
      (l.foldl (fun t r => t.l1DropRange tm.core r.1 r.2) (u.storeRuns tm.asid ps)).Canon :=
    foldl_canon l (hu.storeRuns ..) fun _ _ h1 => h1.l1DropRange ..
  refine ite_canon (hread.mmstFault ..) ?_
  refine ite_canon (hread.mmstFault ..) ?_
  refine ite_canon (hread.mmstFault ..) ?_
  split
  · exact hread.engineMiss ..
  · exact ((foldl_canon _ hread fun _ _ h1 => h1.freeBytes ..).mxStatus ..).mmstFault ..
  · exact hread
  · exact hread
  · exact ite_canon (((hstored hread).poisonUnits ..).mmstFault ..)
      (((ite_canon ((hstored hread).coreEvent ..) (hstored hread)).mxStatus ..).mxDone ..)

theorem State.Canon.runMmrd (tm c o) : (s.runMmrd tm c o).Canon := by
  unfold State.runMmrd
  dsimp only
  split
  · exact h.dropCmd ..
  · exact ite_canon (((h.modThr ..).dropCmd ..).failOp ..)
      (foldl_canon _ (h.mxDone ..) fun _ _ h1 => h1.observe ..)

theorem execMatrixCommandComplete_canon (team) : NextCanon (execMatrixCommandComplete team s) := by
  unfold execMatrixCommandComplete
  split
  · exact h
  · split
    · exact h
    · refine next_ite_canon h ?_
      split
      · exact h.runMmzero ..
      · exact h.runMmld ..
      · exact h.runMmst ..
      · exact h.runMmrd ..
      · split
        · exact ite_canon h (ite_canon (h.retireMmx ..) (h.retireMmx ..))
        · exact h

end

/-! ### Engines: raster, targets, splats and rays -/

section
variable {s : State} (h : s.Canon)
include h

theorem execRast_canon (c a) : NextCanon (execRast c a s) :=
  engineOp_canon h fun _ _ _ _ _ _ h1 => h1.pushKeyRead ..
theorem State.Canon.landingLate {tm i t o target tag ok} (hok : ok.Canon) :
    (s.landingLate tm i t o target tag ok).Canon := by
  unfold State.landingLate
  refine ite_canon (h.failOp ..) ?_
  split
  · exact h
  · split
    · exact ite_canon (h.failOp ..) (ite_canon (h.failOp ..) hok)
    · exact (h.logViol ..).failOp ..
    · exact h.failOp ..
    · exact h.failOp ..

theorem State.Canon.performRast (tm i t o) : (s.performRast tm i t o).Canon := by
  unfold State.performRast
  refine ite_canon h ?_
  split
  · exact h.poisonOp ..
  · refine ite_canon (h.failOp ..) ?_
    split
    · exact h.violateLate ..
    · apply State.Canon.landingLate h
      apply State.Canon.completeOp
      exact h

theorem State.Canon.modRast (id cid f) : (s.modRast id cid f).Canon := h.modTeam ..
theorem execRasterRecord_canon (team) : NextCanon (execRasterRecord team s) := by
  unfold execRasterRecord
  split
  · exact h
  · split
    · exact h
    · refine next_ite_canon h ?_
      dsimp only
      split
      · exact (h.sampleFor ..).engineMiss ..
      · exact h.sampleFor ..
      · exact ((h.sampleFor ..).logEngine ..).modRast ..
      · split <;> exact (h.sampleFor ..).modRast ..

theorem execFragmentLaunch_canon (o) : NextCanon (execFragmentLaunch o s) := by
  unfold execFragmentLaunch
  split
  · split
    · split
      · exact h
      · exact next_ite_canon h h
    · exact h
  · exact h

theorem execRastComplete_canon (team) : NextCanon (execRastComplete team s) := by
  unfold execRastComplete
  split
  · exact h
  · split
    · exact h
    · refine next_ite_canon h ?_
      dsimp only
      split
      · exact (h.modTeam ..).postBoth ..
      · exact ite_canon ((h.modTeam ..).postBoth ..) (ite_canon ((h.modTeam ..).coreEvent ..) (h.modTeam ..))

theorem execAttr_canon (c o) : NextCanon (execAttr c o s) := by
  unfold execAttr
  refine runEach_canon h fun _ _ _ _ _ h1 => ?_
  dsimp only
  split
  · refine ite_canon (h1.pushOp ..) ?_
    split
    · exact (h1.sampleThr ..).pushOp ..
    · exact (h1.poisonDst ..).violate ..
    · exact h1.reportIssue ..
    · exact h1
  · exact h1.raise ..
  · exact h1

theorem State.Canon.performAttr (tm i t q o p) : (s.performAttr tm i t q o p).Canon := by
  unfold State.performAttr
  dsimp only
  refine ite_canon (h.peerError ..) ?_
  refine ite_canon (h.poisonOp ..) ?_
  split
  · exact (foldl_canon _ h fun _ _ h1 => h1.recallFor ..).poisonOp ..
  · split
    · exact (foldl_canon _ h fun _ _ h1 => h1.recallFor ..).performed ..
    · exact ((foldl_canon _ h fun _ _ h1 => h1.recallFor ..).performed ..).modOp ..

theorem State.Canon.enterSection (tm i) : (s.enterSection tm i).Canon := (h.l1Acquire ..).modThr ..
theorem execOenter_canon (c) : NextCanon (execOenter c s) := by
  unfold execOenter
  refine runEach_canon h fun _ _ _ _ _ h1 => ?_
  split
  · exact ite_canon (h1.raise ..) (ite_canon (h1.enterSection ..) (h1.pushWait ..))
  · exact h1.raise ..
  · exact h1

theorem State.Canon.retryOenter (tm i t o) : (s.retryOenter tm i t o).Canon := by
  unfold State.retryOenter
  split
  · exact ite_canon (h.markWaited ..) (ite_canon h ((h.enterSection ..).endWait ..))
  · exact h.dropWait ..

theorem State.Canon.leaveSection (id i) : (s.leaveSection id i).Canon := h.modThr ..
theorem execOleave_canon (c) : NextCanon (execOleave c s) :=
  runEach_canon h fun _ _ _ _ _ h1 => ite_canon h1 (ite_canon (h1.leaveSection ..) (h1.pushWait ..))
theorem State.Canon.retryOleave (tm i t o) : (s.retryOleave tm i t o).Canon :=
  ite_canon ((h.leaveSection ..).endWait ..) (h.markWaited ..)
theorem State.Canon.flPut {u g ws s'} (hs : s.flPut u g ws = .ok s') : s'.Canon := by
  unfold State.flPut at hs
  cases hk : s.flKeys u g ws <;> rw [hk] at hs <;> cases hs
  exact foldl_canon _ h fun _ _ h1 => h1.store ..

theorem State.Canon.flRoutine (u g ha) : (s.flRoutine u g ha).1.Canon := by
  unfold State.flRoutine
  split
  · exact h
  · split
    · exact h
    · exact h.glzFetch ..

theorem State.Canon.flDegrade {u g s'} (hs : s.flDegrade u g = .ok s') : s'.Canon := by
  unfold State.flDegrade at hs
  split at hs
  · cases hs
  · exact h.flPut hs

theorem State.Canon.flAlloc {u g r} (hr : s.flAlloc u g = .ok (some r)) : r.2.Canon := by
  unfold State.flAlloc at hr
  split at hr
  · cases hr
  · split at hr
    · cases hr
    · next n _ _ =>
      cases hp : s.flPut u g [(g.blk + 32, natLe 4 (n + 1))] <;> rw [hp] at hr <;> cases hr
      exact h.flPut hp

theorem flDone_canon {r deg} (hr : ∀ s', r = .ok s' → s'.Canon) : (flDone s r deg).1.Canon := by
  unfold flDone
  split
  · exact hr _ rfl
  · exact h

theorem State.Canon.flLink (u g p i new) : (s.flLink u g p i new).1.Canon := by
  unfold State.flLink
  dsimp only
  split
  · exact h
  · exact flDone_canon h fun _ hs => h.flPut hs

theorem State.Canon.flMerge (u g p new) : (s.flMerge u g p new).1.Canon := by
  unfold State.flMerge
  dsimp only
  split
  · exact h
  · next heq =>
    have h1 := h.flRoutine u g p.ha
    rw [heq] at h1
    split
    · exact h
    · exact flDone_canon h fun _ hs => h1.flPut hs

theorem State.Canon.flLast (u g p new) : (s.flLast u g p new).1.Canon := by
  unfold State.flLast
  split
  · exact flDone_canon h fun _ hs => h.flDegrade hs
  · dsimp only
    split
    · exact h
    · next s1 _ heq =>
      have h1 := h.flRoutine u g p.ha
      rw [heq] at h1
      split
      · exact h
      · refine flDone_canon h fun s' hs => ?_
        obtain ⟨s2, hput, hdeg⟩ := bind_ok hs
        exact (State.Canon.flPut h1 hput).flDegrade hdeg

theorem State.Canon.flTake {u g px py d payload src r} (hr : s.flTake u g px py d payload src = some r) :
    r.2.Canon := by
  unfold State.flTake at hr
  split at hr
  · cases hr
  · split at hr
    · next heq =>
      split at hr
      · cases hr
      · split at hr <;> cases hr
        exact h.flAlloc heq
    · cases hr

theorem State.Canon.flInsert (u g px py trap d payload src node) :
    (s.flInsert u g px py trap d payload src node).1.Canon := by
  unfold State.flInsert
  split
  · exact flDone_canon h fun _ hs => h.flDegrade hs
  · split
    · exact h
    · dsimp only
      split
      · exact h.flMerge ..
      · split
        · exact h.flLink ..
        · split
          · exact h
          · exact h
          · split
            · exact h
            · exact h.flLast ..

theorem State.Canon.readTarget (x tm j i mem a) : (s.readTarget x tm j i mem a).Canon :=
  ite_canon (h.pushMemRead ..) (h.pushKeyRead ..)
theorem execFlcfgSet_canon (c o) : NextCanon (execFlcfgSet c o s) :=
  engineOp_canon h fun _ _ _ _ _ _ h1 => h1.readTarget ..
theorem execFlcfgGrow_canon (c n) : NextCanon (execFlcfgGrow c n s) := by
  unfold execFlcfgGrow
  refine runEach_canon h fun _ _ _ _ _ h1 => ?_
  split
  · exact h1
  · split
    · exact h1.raise ..
    · exact h1.readTarget ..

theorem State.Canon.setTarget (id n g) : (s.setTarget id n g).Canon := h.modTeam ..
theorem execFlcfgOff_canon (c n) : NextCanon (execFlcfgOff c n s) :=
  runEach_canon h fun _ _ _ _ _ h1 => (h1.setTarget ..).pushDone ..
theorem State.Canon.performFlset (tm i t q o p) : (s.performFlset tm i t q o p).Canon := by
  unfold State.performFlset
  refine h.blockRead fun _ _ h1 => ?_
  dsimp only
  split
  · exact (h1.setTarget ..).failOp ..
  · split
    · exact h1.poisonOp ..
    · exact (h1.setTarget ..).failOp ..
    · exact (h1.setTarget ..).completeOp ..

theorem State.Canon.performFlgrow (tm i t n o p) : (s.performFlgrow tm i t n o p).Canon := by
  unfold State.performFlgrow
  refine h.blockRead fun _ _ h1 => ?_
  dsimp only
  split
  · exact h1.failOp ..
  · refine ite_canon (h1.failOp ..) ?_
    refine ite_canon (h1.failOp ..) ?_
    split
    · exact h1.poisonOp ..
    · exact h1.failOp ..
    · exact (h1.setTarget ..).completeOp ..

theorem targetOp_canon (i slot pixel frag vals) : NextCanon (targetOp i slot pixel frag vals s) := by
  unfold targetOp
  refine runEach_canon h fun _ _ _ _ _ h1 => ?_
  split
  · exact h1
  · split
    · exact h1.raise ..
    · refine ite_canon (h1.raise ..) ?_
      dsimp only
      split
      · exact h1.violate ..
      · exact (ite_canon (h1.sampleThr ..) h1).pushOp ..

theorem State.Canon.flFail (tm i t g o ha r) : (s.flFail tm i t g o ha r).Canon := by
  unfold State.flFail
  split
  · exact h.violateLate ..
  · exact h.failOp ..
  · exact h.failOp ..
  · exact (h.logOp ..).failOp ..
  · exact h.failOp ..
  · exact h

theorem State.Canon.performFlres (tm i t g q clr o) : (s.performFlres tm i t g q clr o).Canon := by
  unfold State.performFlres
  dsimp only
  split
  · exact h.flFail ..
  · next p _ =>
    have hread : (if 2 ≤ (p.nodes.map fun n => n.ent).length then s.flRoutine
      ⟨tm, i, t.crew == 7⟩ g p.ha else (s, .ok none)).1.Canon := by
      split
      · exact h.flRoutine ..
      · exact h
    split
    · exact h.flFail ..
    · split
      · exact h.flFail ..
      · split
        · split
          · next heq => exact (hread.flPut heq).completeOp ..
          · exact h.flFail ..
        · exact hread.completeOp ..

theorem State.Canon.performFlins (tm i t g q o) : (s.performFlins tm i t g q o).Canon := by
  unfold State.performFlins
  dsimp only
  split
  · next heq =>
    split at heq
    · exact (h.flTake heq).modOp ..
    · cases heq
  · split
    · exact (h.flInsert ..).completePred ..
    · exact (h.flInsert ..).flFail ..

theorem State.Canon.performTarget (tm i t o) : (s.performTarget tm i t o).Canon := by
  unfold State.performTarget
  split
  · exact h
  · dsimp only
    refine ite_canon h ?_
    split
    · exact h.performFlins ..
    · exact h.performFlres ..
    · exact h.performFlres ..
    · split
      · exact h.flFail ..
      · exact h.completeOp ..
    · exact h

theorem execSetterInsert_canon (p) : NextCanon (execSetterInsert p s) := by
  unfold execSetterInsert
  split
  · exact ite_canon (h.performTarget ..) h
  · exact h

theorem State.Canon.stallSplat (x tm j t o) : (s.stallSplat x tm j t o).Canon := by
  unfold State.stallSplat
  refine ite_canon (h.stallFor ..) ?_
  split
  · exact h.reportIssue ..
  · dsimp only
    split
    · exact h.violateIssue ..
    · exact h.reportIssue ..
    · exact h.stallFor ..

theorem execSplat_canon (c a) : NextCanon (execSplat c a s) := by
  unfold execSplat
  refine engineOp_canon h fun _ _ _ _ _ _ h1 => ?_
  dsimp only
  refine ite_canon ?_ ((h1.wakeRoom ..).pushKeyRead ..)
  split
  · exact h1.stallSplat ..
  · exact h1.violateIssue ..

theorem State.Canon.performSplat (tm i t o) : (s.performSplat tm i t o).Canon := by
  unfold State.performSplat
  refine ite_canon h ?_
  split
  · exact h.poisonOp ..
  · dsimp only
    split
    · exact h.violateLate ..
    · exact h.failOp ..
    · exact h

theorem State.Canon.modSplat (id cid f) : (s.modSplat id cid f).Canon := h.modTeam ..
theorem State.Canon.splatLeaves (id cid) : (s.splatLeaves id cid).Canon := h.modTeam ..
theorem State.Canon.freeCore (tm a n) : (s.freeCore tm a n).Canon := by
  unfold State.freeCore
  split
  · exact h.freeBytes ..
  · exact h

theorem State.Canon.splatMess (tm c) : (s.splatMess tm c).Canon :=
  ite_canon h (ite_canon (h.freeCore ..) ((h.freeCore ..).freeCore ..))
theorem State.Canon.splatStop (tm c kind cause n) : (s.splatStop tm c kind cause n).Canon :=
  ((h.splatMess ..).postBoth ..).splatLeaves ..
theorem State.Canon.splatFault (tm c code addr space agent) : (s.splatFault tm c code addr space agent).Canon :=
  (h.logEngine ..).splatStop ..
theorem State.Canon.splatMeets (tm c e w) : (s.splatMeets tm c e w).Canon := by
  unfold State.splatMeets
  split
  · exact h.engineMiss ..
  · exact h.splatFault ..
  · exact h
  · exact h

theorem State.Canon.splatFill (tm c) : (s.splatFill tm c).Canon := by
  unfold State.splatFill
  dsimp only
  split
  · exact (h.sampleFor ..).splatMeets ..
  · refine State.Canon.modSplat (State.Canon.ownWrites ?_ _) ..
    have hput : ∀ (s : State) (a : Nat) (l : List Nat), s.Canon → (match s.coreAt tm a with
        | some key => s.storeRuns tm.asid ((lineSpans key (4 * l.length)).map fun (p : Nat × Nat) =>
            (p.1, ((l.flatMap (natLe 4)).drop (p.1 - key)).take p.2))
        | none => s).Canon := fun s a l hs => by
      split
      · exact hs.storeRuns ..
      · exact hs
    exact hput _ _ _ (hput _ _ _ (h.sampleFor ..))

theorem State.Canon.splatBegin (tm c) : (s.splatBegin tm c).Canon := by
  unfold State.splatBegin
  dsimp only
  refine ite_canon h ?_
  refine ite_canon (h.modSplat ..) ?_
  split
  · exact h
  · refine ite_canon (h.splatFault ..) ?_
    split
    · exact h
    · exact h.modSplat ..
    · exact h.splatStop ..

theorem execSplatStart_canon (team) : NextCanon (execSplatStart team s) := by
  unfold execSplatStart
  split
  · exact h
  · split
    · exact h
    · refine next_ite_canon h
        (next_ite_canon (h.splatBegin ..) (next_ite_canon (ite_canon h h) (next_ite_canon h
        (next_ite_canon (ite_canon h h) (next_ite_canon h (next_ite_canon (h.splatFill ..) ?_))))))
      split
      · exact h.splatMeets ..
      · next heq => exact ((h.movePass heq).ownWrites _).modSplat ..

theorem State.Canon.splatNext (tm c skip) : (s.splatNext tm c skip).Canon := h.modSplat ..
theorem State.Canon.splatInsert (tm c g a) : (s.splatInsert tm c g a).Canon := by
  unfold State.splatInsert
  dsimp only
  split
  · exact h.splatNext ..
  · next px py _ =>
    refine ite_canon h ?_
    split
    · next heq =>
      split at heq
      · exact (h.flTake heq).modSplat ..
      · cases heq
    · have hs : (if g.imm then s.sampleFor tm c.o [(headAddr g px py, 4)] else s).Canon := ite_canon
        (h.sampleFor ..) h
      split
      · exact (hs.flInsert ..).splatNext ..
      · exact hs.engineMiss ..
      · exact (hs.flInsert ..).splatFault ..
      · exact (hs.flInsert ..).splatFault ..
      · exact ((hs.flInsert ..).logEngine ..).splatNext ..
      · exact (hs.flInsert ..).splatNext ..
      · exact hs

theorem execSplatPixelOutput_canon (team) : NextCanon (execSplatPixelOutput team s) := by
  unfold execSplatPixelOutput
  split
  · exact h
  · split
    · exact h
    · refine next_ite_canon h ?_
      dsimp only
      split
      · exact (h.sampleFor ..).splatMeets ..
      · split
        · split
          · exact ite_canon (((h.sampleFor ..).modSplat ..).splatNext ..)
              (((h.sampleFor ..).modSplat ..).splatInsert ..)
          · exact ((h.sampleFor ..).modSplat ..).splatNext ..
        · split
          · exact (((((h.sampleFor ..).modSplat ..).engineStore ..).ownWrites ..).modSplat ..).splatNext ..
          · exact ((h.sampleFor ..).modSplat ..).splatNext ..

theorem execSplatComplete_canon (team) : NextCanon (execSplatComplete team s) := by
  unfold execSplatComplete
  split
  · exact h
  · split
    · exact h
    · exact next_ite_canon h
        ((ite_canon (((ite_canon h (h.freeCore ..)).splatMess ..).postBoth ..)
          (ite_canon (((ite_canon h (h.freeCore ..)).splatMess ..).coreEvent ..)
            ((ite_canon h (h.freeCore ..)).splatMess ..))).splatLeaves ..)

theorem rayOp_canon (i o n al) : NextCanon (rayOp i o n al s) := by
  unfold rayOp
  refine runEach_canon h fun _ _ _ _ _ h1 => ?_
  split
  · exact h1
  · dsimp only
    split
    · exact (ite_canon h1 (h1.sampleMem ..)).pushOp ..
    · exact ((ite_canon h1 (h1.sampleMem ..)).poisonDst ..).violate ..
    · exact (ite_canon h1 (h1.sampleMem ..)).reportIssue ..
    · exact ite_canon h1 (h1.sampleMem ..)

end

/-- The state that a ray test's reads leave, where they leave one. -/
def RayRead.Canon : RayRead → Prop
  | .ok s _ | .poison s _ _ => s.Canon
  | .wait | .peerError _ => True
theorem rayRead_canon (tm t o p) : ∀ (l : List Nat) {s : State}, s.Canon → ∀ ea skip, (s.rayRead tm t o p ea skip l).Canon
  | [], _, h, _, _ => h
  | [_], _, h, _, _ => h
  | key :: n :: rest, s, h, ea, skip => by
    have hgo : ∀ (s1 : State) (bs : List Byte) (k : Nat), s1.Canon → RayRead.Canon
      (match s1.rayRead tm t o p (ea + n) k rest with
        | .ok s2 more => .ok s2 (bs ++ more)
        | r => r) := fun s1 bs k h1 => by
      have hrest := rayRead_canon tm t o p rest h1 (ea + n) k
      split
      · next heq => rwa [heq] at hrest
      · exact hrest
    unfold State.rayRead
    dsimp only
    split
    · trivial
    · split
      · split
        · trivial
        · split
          · exact h
          · exact hgo _ _ _ h
      · split
        · split
          · trivial
          · next heq => exact hgo _ _ _ (h.memLoad heq)
          · next heq => exact h.memLoad heq
        · split
          · exact h
          · exact hgo _ _ _ h

section
variable {s : State} (h : s.Canon)
include h

theorem State.Canon.rayRead_ok {tm t o p ea skip l s' bs} (hr : s.rayRead tm t o p ea skip l = .ok s' bs) :
    s'.Canon := by
  have hread := rayRead_canon tm t o p l h ea skip
  rwa [hr] at hread
theorem State.Canon.rayRead_poison {tm t o p ea skip l s' key a} (hr : s.rayRead tm t o p ea skip l = .poison s' key a) :
    s'.Canon := by
  have hread := rayRead_canon tm t o p l h ea skip
  rwa [hr] at hread

theorem State.Canon.performRay (tm i t d out o p) : (s.performRay tm i t d out o p).Canon := by
  unfold State.performRay
  dsimp only
  split
  · exact h
  · exact h.peerError ..
  · next heq => exact (h.rayRead_poison heq).poisonOp ..
  · next heq => exact ite_canon ((h.rayRead_ok heq).modOp ..) ((h.rayRead_ok heq).performed ..)

end

/-! ### Lots, task graphs and spans -/

section
variable {s : State} (h : s.Canon)
include h

theorem State.Canon.unitRecall (c va n sys) : (s.unitRecall c va n sys).Canon := by
  unfold State.unitRecall
  refine foldl_canon _ h fun _ _ h1 => ?_
  split
  · exact h1.recall ..
  · exact h1

theorem State.Canon.enterLot (c r addr batch) : (s.enterLot c r addr batch).Canon := h
theorem State.Canon.logLauncher (asid code addr) : (s.logLauncher asid code addr).Canon := h.logViol ..
theorem State.Canon.lotDone (id) : (s.lotDone id).Canon := by
  unfold State.lotDone
  split
  · exact h
  · refine ite_canon h ?_
    dsimp only
    split
    · apply State.Canon.addCounter
      exact h
    · exact h

theorem State.Canon.modLot (id f) : (s.modLot id f).Canon := h
theorem State.Canon.stallLaunch (x tm j t c o) : (s.stallLaunch x tm j t c o).Canon := by
  unfold State.stallLaunch
  refine ite_canon (h.stallFor ..) ?_
  split
  · next heq => exact (h.rayRead_poison heq).reportIssue ..
  · next heq =>
    split
    · exact (h.rayRead_ok heq).reportIssue ..
    · exact (h.rayRead_ok heq).stallFor ..
  · exact h.stallFor ..

theorem execLaunch_canon (c a) : NextCanon (execLaunch c a s) := by
  unfold execLaunch
  refine engineOp_canon h fun _ _ _ _ _ _ h1 => ?_
  dsimp only
  split
  · exact ite_canon (h1.stallLaunch ..) (((h1.wakeRoom ..).sampleThr ..).pushOp ..)
  · exact h1.violateIssue ..
  · exact h1.reportIssue ..
  · exact h1

theorem State.Canon.readOp {tm i t o p go} (hgo : ∀ u bs, u.Canon → (go u bs).Canon) :
    (s.readOp tm i t o p go).Canon := by
  unfold State.readOp
  split
  · exact h
  · exact h.peerError ..
  · next heq => exact (h.rayRead_poison heq).poisonOp ..
  · next heq => exact hgo _ _ (h.rayRead_ok heq)

theorem State.Canon.performLaunch (tm i t o p) : (s.performLaunch tm i t o p).Canon := by
  unfold State.performLaunch
  refine ite_canon h ?_
  split
  · exact h
  · refine h.readOp fun _ _ h1 => ?_
    split
    · exact h1.failOp ..
    · exact (h1.enterLot ..).completeOp ..
    · exact h1

theorem State.Canon.modGraph (asid g f) : (s.modGraph asid g f).Canon := h.modCtx ..
theorem State.Canon.detect (asid g) : (s.detect asid g).Canon := by
  unfold State.detect
  split
  · exact h
  · exact ite_canon h ((h.modGraph ..).addCounter ..)

theorem State.Canon.modNode (asid i f) : (s.modNode asid i f).Canon := h.modCtx ..
theorem State.Canon.release (asid i serial n) : (s.release asid i serial n).Canon := by
  unfold State.release
  split
  · exact h
  · exact ((h.modNode ..).modGraph ..).detect ..

theorem State.Canon.releaseHandle (asid h') : (s.releaseHandle asid h').Canon := by
  unfold State.releaseHandle
  split
  · exact h.release ..
  · exact h

theorem State.Canon.modBatch (asid i serial f) : (s.modBatch asid i serial f).Canon := h.modNode ..
theorem State.Canon.handLot (c i d q r) : (s.handLot c i d q r).Canon :=
  ite_canon ((h.logLauncher ..).release ..) (ite_canon (h.modBatch ..) ((h.modBatch ..).enterLot ..))
theorem State.Canon.handOn (asid i d q) : (s.handOn asid i d q).Canon := by
  unfold State.handOn
  split
  · exact h
  · refine ite_canon h ?_
    split
    · exact h.handLot ..
    · dsimp only
      split
      · exact ((h.unitRecall ..).pageService ..).modBatch ..
      · exact ((h.unitRecall ..).logLauncher ..).release ..
      · exact (h.unitRecall ..).handLot ..
      · exact h.unitRecall ..

theorem State.Canon.retrySeals : s.retrySeals.Canon := by
  unfold State.retrySeals
  refine foldl_canon _ h fun _ _ h1 => ?_
  refine foldl_canon _ h1 fun _ _ h2 => ?_
  split
  · exact h2
  · exact foldl_canon _ h2 fun _ _ h3 => h3.handOn ..

theorem State.Canon.seal (asid i) : (s.seal asid i).Canon := by
  unfold State.seal
  split
  · exact h
  · split
    · exact (h.modNode ..).handOn ..
    · exact h

theorem State.Canon.emit (c i d bs) : (s.emit c i d bs).Canon := by
  unfold State.emit
  dsimp only
  split
  · exact h
  · exact ite_canon ((((h.modNode ..).store ..).modGraph ..).seal ..) (((h.modNode ..).store ..).modGraph ..)

theorem State.Canon.runTimers (n) : (s.runTimers n).Canon := h
theorem execBinTimerExpiry_canon (o) : NextCanon (execBinTimerExpiry o s) := by
  unfold execBinTimerExpiry
  split
  · exact h
  · dsimp only
    exact next_ite_canon (h.seal ..) h

theorem State.Canon.dequePush (key h') : (s.dequePush key h').Canon := (h.store ..).store ..
theorem execPersistDelivery_canon (o) : NextCanon (execPersistDelivery o s) := by
  unfold execPersistDelivery
  split
  · exact h
  · dsimp only
    split
    · exact next_ite_canon h ((h.dequePush ..).modBatch ..)
    · exact h

theorem State.Canon.emitRoom (x tm j i cx n b sp d bs) : (s.emitRoom x tm j i cx n b sp d bs).Canon := by
  unfold State.emitRoom
  split
  · exact ite_canon (h.stallFor ..) (((h.wakeRoom ..).modThr ..).pushOp ..)
  · exact h.violateIssue ..
  · exact h.violateIssue ..

theorem State.Canon.emitTmpl {x tm j t cx n d go} (hgo : ∀ u, u.Canon → (go u).Canon) :
    (s.emitTmpl x tm j t cx n d go).Canon := by
  unfold State.emitTmpl
  refine ite_canon (hgo _ h) ?_
  refine ite_canon (h.stallFor ..) ?_
  dsimp only
  split
  · exact hgo _ (h.unitRecall ..)
  · exact (h.unitRecall ..).reportIssue ..
  · exact (((h.unitRecall ..).pageService ..).modThr ..).stallFor ..
  · exact (h.unitRecall ..).stallFor ..

theorem execWgemit_canon (c o) : NextCanon (execWgemit c o s) := by
  unfold execWgemit
  refine engineOp_canon h fun _ _ _ _ _ _ h1 => ?_
  dsimp only
  split
  · exact h1
  · refine ite_canon (h1.raise ..) ?_
    split
    · exact (h1.unitRecall ..).reportIssue ..
    · exact ite_canon ((h1.unitRecall ..).reportIssue ..) ((h1.unitRecall ..).violateIssue ..)
    · exact (h1.unitRecall ..).stallFor ..
    · refine ite_canon ((h1.unitRecall ..).reportIssue ..) ?_
      split
      · exact (h1.unitRecall ..).reportIssue ..
      · exact (h1.unitRecall ..).emitTmpl (fun _ h2 => h2.emitRoom ..)

theorem State.Canon.performWgemit (tm i t o) : (s.performWgemit tm i t o).Canon := by
  unfold State.performWgemit
  split
  · exact h
  · dsimp only
    split
    · exact h
    · split
      · exact h
      · exact ite_canon h (ite_canon (h.poisonOp ..) (ite_canon (h.failOp ..) ((h.emit ..).completeOp ..)))

theorem execWgdone_canon (c o) : NextCanon (execWgdone c o s) :=
  runEach_canon h fun _ _ _ _ _ h1 => h1.pushOp ..
theorem State.Canon.performWgdone (tm i t q o) : (s.performWgdone tm i t q o).Canon :=
  ite_canon h ((h.releaseHandle ..).completePred ..)
theorem execQuiesceArm_canon (c o) : NextCanon (execQuiesceArm c o s) := by
  unfold execQuiesceArm
  refine runEach_canon h fun _ _ _ _ _ h1 => ?_
  dsimp only
  split
  · exact h1
  · refine ite_canon (h1.raise ..) ?_
    refine ite_canon (h1.raise ..) ?_
    split
    · exact h1.violate ..
    · exact h1.pushOp ..

theorem execQuiesceRd_canon (c o) : NextCanon (execQuiesceRd c o s) :=
  runEach_canon h fun _ _ _ _ _ h1 => ite_canon (h1.raise ..) (h1.pushOp ..)
theorem State.Canon.performQuiesce (tm i o) : (s.performQuiesce tm i o).Canon := by
  unfold State.performQuiesce
  split
  · exact ite_canon (h.failOp ..) ((((h.modTeam ..).modGraph ..).completeOp ..).detect ..)
  · exact h.completeOp ..
  · exact h

theorem execDqpush_canon (c o) : NextCanon (execDqpush c o s) :=
  runEach_canon h fun _ _ _ _ _ h1 => h1.pushOp ..
theorem execDqpop_canon (c o) : NextCanon (execDqpop c o s) :=
  runEach_canon h fun _ _ _ _ _ h1 => h1.pushOp ..
theorem execDqsteal_canon (c o) : NextCanon (execDqsteal c o s) :=
  runEach_canon h fun _ _ _ _ _ h1 => h1.pushOp ..
theorem State.Canon.dequeTake (tm i o d p key idx off v) : (s.dequeTake tm i o d p key idx off v).Canon :=
  (((h.store ..).l1Acquire ..).setPred ..).completeOp ..
theorem State.Canon.performDeque (tm i t o pick) : (s.performDeque tm i t o pick).Canon := by
  unfold State.performDeque
  split
  · exact h
  · dsimp only
    split
    · exact h.completePred ..
    · exact h
    · split
      · exact h.violateLate ..
      · refine ite_canon (h.poisonOp ..) ?_
        split
        · exact ite_canon h (ite_canon (h.completePred ..) ((h.dequePush ..).completePred ..))
        · exact ite_canon (h.completePred ..) (h.dequeTake ..)
        · exact ite_canon (h.completePred ..) (h.dequeTake ..)
        · exact h

theorem State.Canon.putSpan (c l ks ix cores) : (s.putSpan c l ks ix cores).Canon := by
  unfold State.putSpan
  dsimp only
  apply State.Canon.frame
  exact foldl_canon _ h fun _ _ h1 => h1.l1Acquire ..

theorem State.Canon.rejectLot (l code) : (s.rejectLot l code).Canon := by
  unfold State.rejectLot
  dsimp only
  split
  · apply State.Canon.releaseHandle
    apply State.Canon.logLauncher
    exact h
  · apply State.Canon.logLauncher
    exact h

theorem execSpanPlace_canon (o) : NextCanon (execSpanPlace o s) := by
  unfold execSpanPlace
  split
  · exact h
  · split
    · exact h
    · dsimp only
      refine next_ite_canon h ?_
      split
      · exact (h.modLot ..).putSpan ..
      · exact (h.pageService ..).modLot ..
      · exact h
      · exact h.rejectLot ..

theorem State.Canon.leaveCore (tm) : (s.leaveCore tm).Canon := by
  unfold State.leaveCore
  dsimp only
  apply State.Canon.bindCones
  exact h

theorem State.Canon.freeDogs (id) : (s.freeDogs id).Canon :=
  (foldl_canon _ h fun _ _ h1 => h1.putBar ..).dropDogs ..
theorem State.Canon.removeTeam (tm) : (s.removeTeam tm).Canon := by
  unfold State.removeTeam
  have hs := (h.freeDogs tm.id).leaveCore tm
  generalize (s.freeDogs tm.id).leaveCore tm = s1 at hs ⊢
  exact hs.filterMem _

theorem State.Canon.spanLoses (tm) : (s.spanLoses tm).Canon := by
  unfold State.spanLoses
  dsimp only
  split
  · refine ite_canon ?_ h
    apply State.Canon.lotDone
    exact h
  · exact h

theorem State.Canon.leaveGraph (tm) : (s.leaveGraph tm).Canon := by
  unfold State.leaveGraph
  split
  · exact h.detect ..
  · exact h

theorem execTeamEnd_canon (team) : NextCanon (execTeamEnd team s) := by
  unfold execTeamEnd
  split
  · exact h
  · split
    · exact h
    · refine next_ite_canon h ?_
      dsimp only
      apply State.Canon.leaveGraph
      split
      · exact ((h.removeTeam ..).spanLoses ..).releaseHandle ..
      · exact (h.removeTeam ..).spanLoses ..

theorem State.Canon.modLq (asid q f) : (s.modLq asid q f).Canon := h.modCtx ..
theorem State.Canon.lqMiss (asid q va) : (s.lqMiss asid q va).Canon := (h.pageService ..).modLq ..
theorem State.Canon.lqBad (asid q l a) : (s.lqBad asid q l a).Canon :=
  (ite_canon h (h.logLauncher ..)).modLq ..
theorem State.Canon.lqRead (c q l) : (s.lqRead c q l).Canon := by
  unfold State.lqRead
  dsimp only
  split
  · exact h.lqMiss ..
  · exact h.lqBad ..
  · exact h
  · split
    · exact h.modLq ..
    · exact h.lqBad ..

theorem State.Canon.lqEntry {c d q done} (hdone : ∀ u, u.Canon → (done u).Canon) :
    (s.lqEntry c d q done).Canon := by
  unfold State.lqEntry
  dsimp only
  split
  · exact h.lqMiss ..
  · exact hdone _ (h.logLauncher ..)
  · exact h
  · refine ite_canon (hdone _ (h.logLauncher ..)) ?_
    split
    · exact h.lqMiss ..
    · exact hdone _ (h.logLauncher ..)
    · exact h
    · split
      · exact hdone _ (h.logLauncher ..)
      · exact ite_canon (hdone _ (h.logLauncher ..)) (hdone _ (h.enterLot ..))

theorem State.Canon.lqTake (c q d) : (s.lqTake c q d).Canon := by
  unfold State.lqTake
  split
  · exact h
  · exact ite_canon h (h.lqEntry (fun _ h1 => (h1.modLq ..).store ..))

theorem execLaunchQueueTake_canon (o) : NextCanon (execLaunchQueueTake o s) := by
  unfold execLaunchQueueTake
  split
  · exact h
  · dsimp only
    refine next_ite_canon h ?_
    refine next_ite_canon (h.lqRead ..) ?_
    split
    · exact h.lqTake ..
    · exact h

theorem State.Canon.modSpan (id f) : (s.modSpan id f).Canon := h
theorem execLauncherPreempt_canon (span) : NextCanon (execLauncherPreempt span s) := by
  unfold execLauncherPreempt
  split
  · exact h
  · split
    · exact h
    · dsimp only
      exact next_ite_canon (h.modSpan ..) h

theorem execSpanSave_canon (span) : NextCanon (execSpanSave span s) := by
  unfold execSpanSave
  split
  · exact h
  · split
    · exact h
    · refine next_ite_canon h ?_
      dsimp only
      split
      · exact next_ite_canon ((h.modSpan ..).setStatus ..) (h.modSpan ..)
      · exact h.modSpan ..

theorem State.Canon.devWrite (c va bs) : (s.devWrite c va bs).Canon := by
  unfold State.devWrite
  refine foldl_canon _ h fun _ _ h1 => ?_
  split
  · exact h1.store ..
  · exact h1

theorem State.Canon.writeImage (c tm slot size) : (s.writeImage c tm slot size).Canon :=
  (h.devWrite ..).devWrite ..
theorem State.Canon.saveDogs (span) : (s.saveDogs span).Canon := by
  unfold State.saveDogs
  apply State.Canon.bindDogs
  exact h

theorem execSaveComplete_canon (span) : NextCanon (execSaveComplete span s) := by
  unfold execSaveComplete
  split
  · exact h
  · split
    · dsimp only
      refine next_ite_canon h ?_
      apply State.Canon.setStatus
      apply State.Canon.frame
      exact (foldl_canon _
        (foldl_canon _ h fun _ _ h1 => h1.writeImage ..) fun _ _ h1 => h1.leaveCore ..).saveDogs ..
    · exact h

theorem State.Canon.recallImages (c slots) : (s.recallImages c slots).Canon :=
  foldl_canon _ h fun _ _ h1 => h1.unitRecall ..
theorem State.Canon.restoreDogs (span) : (s.restoreDogs span).Canon := by
  unfold State.restoreDogs
  apply State.Canon.bindDogs
  exact h

theorem State.Canon.restoreHolds (hs) : (s.restoreHolds hs).Canon := foldl_canon _ h fun _ _ h1 => h1
theorem State.Canon.testJoins (tm) : (s.testJoins tm).Canon :=
  foldl_canon _ h fun _ _ h1 => foldl_canon _ h1 fun _ _ h2 => foldl_canon _ h2 fun _ _ h3 => h3.testJoin ..
theorem execSpanRestore_canon (o) : NextCanon (execSpanRestore o s) := by
  unfold execSpanRestore
  split
  · exact h
  · next p _ =>
    split
    · next c l _ _ =>
      refine next_ite_canon h ?_
      dsimp only
      have himages : (s.recallImages c p.slots).Canon := h.recallImages ..
      refine next_ite_canon (himages.terminate ..) ?_
      have hcores : ((o.cores.map fun k => k.val).foldl (fun s k => s.l1Acquire k)
        (s.recallImages c p.slots)).Canon :=
        foldl_canon _ himages fun _ _ h1 => h1.l1Acquire ..
      refine foldl_canon _
        (foldl_canon _ (State.Canon.restoreHolds
          (State.Canon.restoreDogs ?_ ..) ..) fun _ _ h1 => h1.bindCones ..) fun _ _ h1 => h1.testJoins ..
      exact hcores.frame
    · exact h

theorem execContextTerminate_canon (asid) : NextCanon (execContextTerminate asid s) := by
  unfold execContextTerminate
  split
  · exact h
  · split
    · exact h
    · exact (h.modCtx ..).terminate ..

theorem execTerminationComplete_canon (asid) : NextCanon (execTerminationComplete asid s) := by
  unfold execTerminationComplete
  split
  · exact h
  · refine next_ite_canon h ?_
    dsimp only
    apply State.Canon.hostEvent
    apply State.Canon.modCtx
    apply State.Canon.addCounter
    apply State.Canon.setStatus
    apply State.Canon.glzForget
    apply State.Canon.frame
    exact foldl_canon _ h fun _ _ h1 => h1.removeTeam ..

end

/-! ### Traps, the system crew, halts, cones and inspection -/

section
variable {s : State} (h : s.Canon)
include h

theorem State.Canon.softTrap (id j q o) : (State.softTrap id j q o s).Canon := h.raiseRep ..
theorem execTrap_canon (c o) : NextCanon (execTrap c o s) :=
  drainThen_canon h fun _ _ _ _ h1 => h1.softTrap ..
theorem execSrd_canon (c o) : NextCanon (execSrd c o s) := by
  unfold execSrd
  refine runEach_canon h fun _ _ _ _ _ h1 => ?_
  split
  · exact h1.modThr ..
  · exact h1

theorem execSwr_canon (c o) : NextCanon (execSwr c o s) := runEach_canon h fun _ _ _ _ _ h1 => h1.modThr ..
theorem contOp_canon (i f) : NextCanon (contOp i f s) :=
  runEach_canon h fun _ _ _ _ _ h1 => (h1.modCrew ..).modThr ..
theorem State.Canon.resumeNow (tm j) : (s.resumeNow tm j).Canon := (h.acquireAt ..).modThr ..
theorem State.Canon.resumeStep {tm j k th wait bad done} (hwait : ∀ u, u.Canon → (wait u).Canon)
    (hbad : ∀ u, u.Canon → (bad u).Canon) (hdone : ∀ u, u.Canon → (done u).Canon) :
    (s.resumeStep tm j k th wait bad done).Canon :=
  ite_canon (hbad _ h) (ite_canon (hdone _ (h.resumeNow ..)) (hwait _ h))
theorem resumeOp_canon (i f) : NextCanon (resumeOp i f s) := by
  unfold resumeOp
  refine runEach_canon h fun _ _ _ _ _ h1 => ?_
  split
  · refine ite_canon (h1.raise ..) ?_
    refine ite_canon (h1.pushWait ..) ?_
    split
    · exact h1.violate ..
    · exact h1.resumeStep (fun _ h2 => h2.pushWait ..) (fun _ h2 => h2.raise ..) (fun _ h2 => h2)
  · exact h1

theorem execResumeSvc_canon (c) : NextCanon (execResumeSvc c s) := resumeOp_canon h ..
theorem execResume_canon (c o) : NextCanon (execResume c o s) := resumeOp_canon h ..
theorem State.Canon.retryResume (tm j t cr f o) : (s.retryResume tm j t cr f o).Canon := by
  unfold State.retryResume
  refine ite_canon (h.markWaited ..) ?_
  split
  · exact h
  · dsimp only
    split
    · exact ((ite_canon (h.wake ..) h).dropWait ..).violateLate ..
    · exact (ite_canon (h.wake ..) h).resumeStep (fun _ h1 => h1.modThr ..) (fun _ h1 => h1.failWait ..)
        (fun _ h1 => h1.endWait ..)

theorem State.Canon.handlerIdle (id j) : (s.handlerIdle id j).Canon := h.modThr ..
theorem State.Canon.tretTo (id k t r iaddr) : (s.tretTo id k t r iaddr).Canon :=
  ite_canon (h.modThr ..) (h.raiseAt ..)
theorem State.Canon.tretKill (id k cr t) : (s.tretKill id k cr t).Canon :=
  ite_canon ((h.modThr ..).endThread ..) h
theorem State.Canon.tretNextClause (id k cr t r) : (s.tretNextClause id k cr t r).Canon :=
  ite_canon (h.tretKill ..) (ite_canon (h.modThr ..) (h.modThr ..))
theorem State.Canon.tretServe (m id j r) : (State.tretServe m id j r s).Canon := by
  unfold State.tretServe
  split
  · dsimp only
    split
    · split
      · split
        · exact (h.handlerIdle ..).tretTo ..
        · exact (h.handlerIdle ..).tretNextClause ..
        · exact (h.handlerIdle ..).tretKill ..
        · exact h.handlerIdle ..
      · exact h.handlerIdle ..
    · exact h.handlerIdle ..
  · exact h

theorem State.Canon.tretTerm (imm id _j r) : (State.tretTerm imm id _j r s).Canon := by
  unfold State.tretTerm
  split
  · exact h.terminate ..
  · exact h

theorem execTretRec_canon (c) : NextCanon (execTretRec c s) :=
  drainThen_canon h fun _ _ _ _ h1 => h1.tretServe ..
theorem execTretNext_canon (c) : NextCanon (execTretNext c s) :=
  drainThen_canon h fun _ _ _ _ h1 => h1.tretServe ..
theorem execTretKill_canon (c) : NextCanon (execTretKill c s) :=
  drainThen_canon h fun _ _ _ _ h1 => h1.tretServe ..
theorem execTretTerm_canon (c imm) : NextCanon (execTretTerm c imm s) :=
  drainThen_canon h fun _ _ _ _ h1 => h1.tretTerm ..
theorem execTrapDispatch_canon (o) : NextCanon (execTrapDispatch o s) := by
  unfold execTrapDispatch
  split
  · exact h
  · split
    · exact next_ite_canon ((h.modTeam ..).modThr ..) h
    · exact h

theorem State.Canon.eccHit (r) : (s.eccHit r).Canon := by
  unfold State.eccHit
  split
  · exact h.modThr ..
  · exact ite_canon (h.setPoison ..) h
  · exact h.setPoison ..
  · exact h.l1Drop ..
  · exact h
  · exact h
  · exact ite_canon (h.setPoison ..) h
  · exact ite_canon (h.setPoison ..) h
  · exact h.modTeam ..
  · exact h
  · exact h
  · exact h.terminate ..

theorem State.Canon.modCone (id n f) : (s.modCone id n f).Canon := h.modTeam ..
theorem State.Canon.clearCones (tm ns) : (s.clearCones tm ns).Canon :=
  (foldl_canon _ h fun _ _ h1 => h1.modCone ..).bindCones ..
theorem State.Canon.setCone (tm n c) : (s.setCone tm n c).1.Canon := by
  unfold State.setCone
  split
  · exact h
  · split
    · dsimp only
      exact h.clearCones ..
    · split
      · exact h
      · dsimp only
        exact h.modCone ..

theorem State.Canon.pushActed (x j i ws p ok) : (s.pushActed x j i ws p ok).Canon := h.pushOp ..
theorem State.Canon.performConeset (tm i q o) : (s.performConeset tm i q o).Canon :=
  ((h.setCone ..).setPred ..).completeOp ..
theorem State.Canon.armPending (id j) : (s.armPending id j).Canon := by
  unfold State.armPending
  split
  · exact h
  · refine foldl_canon _ h fun _ _ h1 => ?_
    split
    · exact h1.performConeset ..
    · exact h1

theorem execConeset_canon (c o) : NextCanon (execConeset c o s) :=
  runEach_canon h fun _ _ _ _ _ h1 => (h1.armPending ..).pushOp ..
theorem coneclrOp_canon {i f} (hf : ∀ u tm, u.Canon → (f u tm).Canon) : NextCanon (coneclrOp i f s) := by
  unfold coneclrOp
  refine runEach_canon h fun _ _ _ _ _ h1 => ?_
  split
  · exact hf _ _ (h1.armPending ..)
  · exact h1

theorem State.Canon.rearmCones (tm ns) : (s.rearmCones tm ns).Canon :=
  foldl_canon _ h fun _ _ h1 => h1.modCone ..
theorem execConeclr_canon (c n) : NextCanon (execConeclr c n s) :=
  coneclrOp_canon h (fun _ _ h1 => h1.clearCones ..)
theorem execConeclrRec_canon (c n) : NextCanon (execConeclrRec c n s) :=
  coneclrOp_canon h (fun _ _ h1 => h1.rearmCones ..)
theorem execConeclrAll_canon (c rec) : NextCanon (execConeclrAll c rec s) :=
  coneclrOp_canon h (fun _ _ h1 => ite_canon (h1.rearmCones ..) (h1.clearCones ..))
theorem State.Canon.release1 (id i) : (s.release1 id i).Canon := by
  unfold State.release1
  split
  · exact ite_canon ((h.wake ..).modThr ..) h
  · exact h

theorem haltOp_canon {i f act} (hact : ∀ u n o, u.Canon → (act u n o).Canon) :
    NextCanon (haltOp i f act s) := by
  unfold haltOp
  refine runEach_canon h fun _ _ _ _ _ h1 => ?_
  dsimp only
  split
  · exact ite_canon (foldl_canon _ (h1.armPending ..) fun _ _ h2 => hact _ _ _ h2) (h1.armPending ..)
  · exact h1.armPending ..

theorem execHaltSelf_canon (c) : NextCanon (execHaltSelf c s) :=
  haltOp_canon h (fun _ _ _ h1 => h1.requestHalt ..)
theorem execHaltCrew_canon (c) : NextCanon (execHaltCrew c s) :=
  haltOp_canon h (fun _ _ _ h1 => h1.requestHalt ..)
theorem execHaltTeam_canon (c) : NextCanon (execHaltTeam c s) :=
  haltOp_canon h (fun _ _ _ h1 => h1.requestHalt ..)
theorem execHaltThr_canon (c o) : NextCanon (execHaltThr c o s) :=
  haltOp_canon h (fun _ _ _ h1 => h1.requestHalt ..)
theorem execHaltRel_canon (c o) : NextCanon (execHaltRel c o s) :=
  haltOp_canon h (fun _ _ _ h1 => h1.release1 ..)
theorem State.Canon.endHdrWait (id i) : (s.endHdrWait id i).Canon := by
  unfold State.endHdrWait
  split
  · exact ite_canon ((h.wake ..).modThr ..) h
  · exact h

theorem State.Canon.haltStop (c tm i t) : (s.haltStop c tm i t).Canon := by
  unfold State.haltStop
  split
  · exact ite_canon (h.landHalt ..)
      (ite_canon ((h.endHdrWait ..).landHalt ..)
        (ite_canon (ite_canon ((h.endHdrWait ..).landHalt ..) h) (ite_canon (h.landHalt ..) h)))
  · exact h.landHalt ..
  · exact h.landHalt ..
  · exact ite_canon (((foldl_canon _ h fun _ _ h1 => h1.modThr ..).endHdrWait ..).landHalt ..)
      (foldl_canon _ h fun _ _ h1 => h1.modThr ..)
  · exact h

theorem execHaltLand_canon (o) : NextCanon (execHaltLand o s) := by
  unfold execHaltLand
  split
  · exact h
  · split
    · refine next_ite_canon h ?_
      refine next_ite_canon ?_ (next_ite_canon (h.haltStop ..) h)
      split
      · exact h.putHalt ..
      · exact h
    · exact h

theorem execInspr_canon (c o) : NextCanon (execInspr c o s) := by
  unfold execInspr
  refine runEach_canon h fun _ _ _ _ _ h1 => ?_
  dsimp only
  split
  · split
    · exact ite_canon ((h1.armPending ..).pushActed ..) ((h1.armPending ..).pushActed ..)
    · exact (h1.armPending ..).pushActed ..
  · exact h1.armPending ..

theorem State.Canon.setNext (tm k u v) : (s.setNext tm k u v).Canon := by
  unfold State.setNext
  dsimp only
  apply State.Canon.modThr
  split
  · exact h.modCrew ..
  · exact h.leaveGroup ..

theorem State.Canon.kmovBy (tm k u n v) : (s.kmovBy tm k u n v).Canon := ((h.modCrew ..).modThr ..).orderK ..
theorem State.Canon.putItem (tm k u wide v r) : (s.putItem tm k u wide v r).Canon := by
  unfold State.putItem
  split
  · exact h.modThr ..
  · exact h.modThr ..
  · exact h.setNext ..
  · exact h.modThr ..
  · exact h.kmovBy ..
  · exact h

theorem State.Canon.markEdit (tm k) : (s.markEdit tm k).Canon := (h.modThr ..).setStatus ..
theorem execInspw_canon (c o) : NextCanon (execInspw c o s) := by
  unfold execInspw
  refine runEach_canon h fun _ _ _ _ _ h1 => ?_
  dsimp only
  split
  · split
    · exact ite_canon ((((h1.armPending ..).putItem ..).markEdit ..).pushActed ..)
        ((h1.armPending ..).pushActed ..)
    · exact (h1.armPending ..).pushActed ..
  · exact h1.armPending ..

theorem State.Canon.beginStep (tm k u) : (s.beginStep tm k u).Canon := by
  unfold State.beginStep
  apply State.Canon.modThr
  split
  · exact foldl_canon _ h fun _ _ h1 => h1
  · exact h

theorem execStep_canon (c o) : NextCanon (execStep c o s) := by
  unfold execStep
  refine runEach_canon h fun _ _ _ _ _ h1 => ?_
  dsimp only
  split
  · split
    · exact ite_canon (((h1.armPending ..).beginStep ..).pushOp ..) ((h1.armPending ..).pushActed ..)
    · exact (h1.armPending ..).pushActed ..
  · exact h1.armPending ..

theorem State.Canon.performDebug (tm i o) : (s.performDebug tm i o).Canon := by
  unfold State.performDebug
  have hfin : ∀ ws, ((match o.pdst with
      | some p => s.modThr tm.id i fun t => t.putP p (o.vals.getD 0 0 == 1)
      | none => s).completeOp tm.id i o ws).Canon := fun ws => by
    apply State.Canon.completeOp
    split <;> exact h
  dsimp only
  split
  · exact h.performConeset ..
  · exact hfin _
  · split
    · split
      · exact hfin _
      · exact h
    · exact hfin _

theorem execTmark_canon (c o) : NextCanon (execTmark c o s) := by
  unfold execTmark
  refine runEach_canon h fun _ _ _ _ _ h1 => ?_
  split
  · exact h1.trace ..
  · exact h1

theorem execTraceRecordWrite_canon (core) : NextCanon (execTraceRecordWrite core s) := by
  unfold execTraceRecordWrite
  split
  · exact h
  · split
    · exact h
    · dsimp only
      exact next_ite_canon (h.modCore ..) (ite_canon ((h.modCore ..).store ..) (h.modCore ..))

theorem State.Canon.revoke (asid) : (s.revoke asid).Canon := by
  unfold State.revoke
  dsimp only
  apply State.Canon.frame
  exact foldl_canon _ (foldl_canon _
    (h.modCtx ..) fun _ _ h1 => foldl_canon _ h1 fun _ _ h2 => h2.release1 ..) fun _ _ h1 =>
      (h1.modTeam ..).clearCones ..

end

/-! ### The host link, host commands, peers and start-up -/

section
variable {s : State} (h : s.Canon)
include h

theorem State.Canon.countHerr : s.countHerr.Canon := h
theorem overLink_canon {f} (hf : ∀ u, u.Canon → (f u).Canon) : NextCanon (overLink f s) :=
  ite_canon (hf _ h) h
theorem State.Canon.acceptRead (o res) : (s.acceptRead o res).Canon := h
theorem State.Canon.dropRead (o) : (s.dropRead o).Canon := h.countHerr.acceptRead ..
theorem State.Canon.readKey (o key) : (s.readKey o key).1.Canon := h.recall ..
theorem State.Canon.serveRead (r) : (s.serveRead r).Canon := by
  unfold State.serveRead
  split
  · exact h
  · dsimp only
    apply State.Canon.frame
    exact h.readKey ..
  · exact h

theorem State.Canon.serveReads : s.serveReads.Canon := by
  unfold State.serveReads
  split
  · exact h.serveRead ..
  · exact h

theorem State.Canon.requestRead (o) : (s.requestRead o).Canon :=
  ite_canon (ite_canon (h.acceptRead ..) (h.dropRead ..))
    (ite_canon (ite_canon (h.acceptRead ..) (h.dropRead ..)) (ite_canon (h.acceptRead ..) (h.dropRead ..)))
theorem execHostReadRequest_canon (o) : NextCanon (execHostReadRequest o s) :=
  overLink_canon h (fun _ h1 => ite_canon h1.countHerr (h1.requestRead ..))
theorem execHostCounterRead_canon (o) : NextCanon (execHostCounterRead o s) := by
  unfold execHostCounterRead
  exact next_ite_canon (execHostReadRequest_canon h ..) h

theorem State.Canon.putWatch (i v) : (s.putWatch i v).Canon := by
  unfold State.putWatch
  dsimp only
  refine ite_canon ?_ h
  apply State.Canon.fireWatches
  exact h

theorem State.Canon.writeWatches (w bs) : (s.writeWatches w bs).Canon := by
  unfold State.writeWatches
  refine foldl_canon _ h fun _ _ h1 => ?_
  dsimp only
  refine ite_canon ?_ h1
  split
  · exact h1.putWatch ..
  · exact h1

theorem State.Canon.modHost (f) : (s.modHost f).Canon := h
theorem State.Canon.writeGlobal (w bs) : (s.writeGlobal w bs).Canon :=
  (foldl_canon _ h fun _ _ h1 => ite_canon (h1.modHost ..) h1).writeWatches ..
theorem State.Canon.regPut (off bs) : (s.regPut off bs).Canon := by
  unfold State.regPut
  exact ite_canon (h.writeGlobal ..) (h.modCore ..)

theorem State.Canon.clearChip (off n) : (s.clearChip off n).Canon := (h.zero ..).filterTags _
theorem State.Canon.makeLive (pa) : (s.makeLive pa).Canon := by
  unfold State.makeLive
  dsimp only
  apply State.Canon.frame
  exact ((h.store ..).clearChip ..).glzForget ..

theorem State.Canon.runCmd (op arg harg) : (s.runCmd op arg harg).1.Canon := by
  unfold State.runCmd
  dsimp only
  split
  · split
    · exact h.makeLive ..
    · exact h
  · split <;> exact h
  · split
    · split <;> exact h
    · exact h
  · split <;> exact h
  · split
    · exact h
    · exact h.revoke ..
  · split
    · exact h
    · split
      · exact h
      · exact (((h.flushCtx ..).dropTlb ..).glzForget ..).frame
  · split
    · exact h
    · dsimp only
      exact h.store ..
  · split
    · exact h
    · dsimp only
      exact h.setCounter ..
  · split
    · exact h
    · split <;> exact h
  · exact h

theorem State.Canon.hcmdWrite (op arg) : (s.hcmdWrite op arg).Canon := by
  unfold State.hcmdWrite
  refine ite_canon (h.modHost ..) ?_
  dsimp only
  apply State.Canon.frame
  exact (h.modHost ..).runCmd ..

theorem execRegister_canon (o) : NextCanon (execRegister o s) :=
  overLink_canon h (fun _ h1 => h1.hcmdWrite ..)
theorem execTerminate_canon (o) : NextCanon (execTerminate o s) :=
  overLink_canon h (fun _ h1 => h1.hcmdWrite ..)
theorem execPreempt_canon (o) : NextCanon (execPreempt o s) := overLink_canon h (fun _ h1 => h1.hcmdWrite ..)
theorem execDebugon_canon (o) : NextCanon (execDebugon o s) := overLink_canon h (fun _ h1 => h1.hcmdWrite ..)
theorem execDebugoff_canon (o) : NextCanon (execDebugoff o s) :=
  overLink_canon h (fun _ h1 => h1.hcmdWrite ..)
theorem execRetire_canon (o) : NextCanon (execRetire o s) := overLink_canon h (fun _ h1 => h1.hcmdWrite ..)
theorem execAttest_canon (o) : NextCanon (execAttest o s) := overLink_canon h (fun _ h1 => h1.hcmdWrite ..)
theorem execSetctr_canon (o) : NextCanon (execSetctr o s) := overLink_canon h (fun _ h1 => h1.hcmdWrite ..)
theorem execInvtlb_canon (o) : NextCanon (execInvtlb o s) := overLink_canon h (fun _ h1 => h1.hcmdWrite ..)
theorem execHcmdUnknown_canon (op o) : NextCanon (execHcmdUnknown op o s) :=
  overLink_canon h (fun _ h1 => ite_canon h1 (h1.hcmdWrite ..))
theorem execHcmdBusyDrop_canon (r) : NextCanon (execHcmdBusyDrop r s) := by
  unfold execHcmdBusyDrop
  exact overLink_canon h fun _ h1 => ite_canon h1 h1

theorem execHostCommandComplete_canon : NextCanon (execHostCommandComplete s) := by
  unfold execHostCommandComplete
  split
  · exact h
  · split
    · exact h
    · apply State.Canon.hostEvent
      exact h.frame

theorem State.Canon.regWrite (off bs) : (s.regWrite off bs).Canon :=
  ite_canon h.countHerr (ite_canon (ite_canon (h.hcmdWrite ..) h.countHerr) (h.regPut ..))
theorem State.Canon.ctrWrite (a bs) : (s.ctrWrite a bs).Canon :=
  ite_canon h.countHerr (ite_canon h (h.addCounter ..))
theorem execHostMemoryWrite_canon (o) : NextCanon (execHostMemoryWrite o s) :=
  overLink_canon h (fun _ h1 => ite_canon (h1.regWrite ..)
    (ite_canon (h1.ctrWrite ..) (ite_canon (h1.store ..) h1.countHerr)))
theorem execHostCounterAdd_canon (o) : NextCanon (execHostCounterAdd o s) :=
  overLink_canon h (fun _ h1 => ite_canon (h1.ctrWrite ..) h1)
theorem execRegisterWrite_canon (o) : NextCanon (execRegisterWrite o s) :=
  overLink_canon h (fun _ h1 => h1.regWrite ..)
theorem execHerrWrite_canon (v) : NextCanon (execHerrWrite v s) :=
  overLink_canon h (fun _ h1 => h1.regWrite ..)
theorem execCecountWrite_canon (v) : NextCanon (execCecountWrite v s) :=
  overLink_canon h (fun _ h1 => h1.regWrite ..)
theorem execHcmdstatWrite_canon (v) : NextCanon (execHcmdstatWrite v s) :=
  overLink_canon h (fun _ h1 => h1.regWrite ..)
theorem execWatchWrite_canon (o) : NextCanon (execWatchWrite o s) :=
  overLink_canon h (fun _ h1 => ite_canon h1.countHerr (h1.regWrite ..))
theorem State.Canon.peerAtom (pa n f) : (s.peerAtom pa n f).1.Canon := by
  unfold State.peerAtom
  dsimp only
  split
  · exact h.recall ..
  · split
    · exact (h.recall ..).store ..
    · exact h.recall ..

end

theorem peerPieces_canon (d : Option (List Byte)) (ps : List (Nat × Nat)) :
    ∀ {s : State}, s.Canon → (s.peerPieces d ps).1.Canon := by
  induction ps generalizing d with
  | nil => exact fun h => h
  | cons q ps ih =>
    intro s h
    unfold State.peerPieces
    refine ih _ ?_
    split
    · exact h.recall ..
    · exact h.store ..

section
variable {s : State} (h : s.Canon)
include h

theorem State.Canon.peerPerform (ps k) : (s.peerPerform ps k).1.Canon := by
  cases k with
  | load n => exact peerPieces_canon _ _ h
  | store d => exact peerPieces_canon _ _ h
  | atom fn ty b => exact h.peerAtom ..
  | cas w b c => exact h.peerAtom ..

theorem State.Canon.peerServe (o) : (s.peerServe o).Canon := by
  unfold State.peerServe
  dsimp only
  split
  · exact h
  · refine ite_canon (h.logViol ..).frame ?_
    split
    · exact (h.peerPerform ..).frame
    · exact (h.logViol ..).frame
    · exact (h.pageService ..).frame

theorem State.Canon.retryPeers : s.retryPeers.Canon := by
  unfold State.retryPeers
  exact foldl_canon _ h fun _ _ h1 => h1.peerServe ..

theorem State.Canon.setPort (port up) : (s.setPort port up).Canon := h
theorem State.Canon.startDone (o) : (s.startDone o).Canon := h
theorem State.Canon.bootStep : s.bootStep.Canon := by
  unfold State.bootStep
  split
  · exact h
  · exact ite_canon h (ite_canon (h.startDone ..) h)

theorem execStartupStepFail_canon (step o) : NextCanon (execStartupStepFail step o s) := by
  unfold execStartupStepFail
  split
  · exact ite_canon (s.startUp_canon ..) h
  · exact h

theorem State.Canon.sense : s.sense.Canon := h
theorem execLimiterStep_canon (n) : NextCanon (execLimiterStep n s) := by
  unfold execLimiterStep
  refine next_ite_canon h ?_
  dsimp only
  refine ite_canon h ?_
  apply State.Canon.hostEvent
  exact h

theorem execThermtrip_canon : NextCanon (execThermtrip s) := by
  unfold execThermtrip
  refine next_ite_canon h ?_
  dsimp only
  apply State.Canon.frame
  exact s.mainOff_canon

theorem State.Canon.clearTrip (v) : (s.clearTrip v).Canon := ite_canon h h
theorem State.Canon.setPtr (a) : (s.setPtr a).Canon := h
theorem execDolmirPrivateWrite_canon (o) : NextCanon (execDolmirPrivateWrite o s) := by
  unfold execDolmirPrivateWrite
  refine ite_canon (State.startUp_canon ..) (State.Canon.setPtr ?_ _)
  have hmgmt {m : Mgmt} : State.Canon { (if o.addr.toNat ≤ 0 ∧ 0 < o.data.length then
      s.clearTrip (o.data.getD 0 0).toNat else s) with mgmt := m } := (ite_canon (h.clearTrip ..) h).frame
  exact ite_canon ((ite_canon (hmgmt.modHost ..) hmgmt).modHost ..) (ite_canon (hmgmt.modHost ..) hmgmt)

theorem State.Canon.passStart : s.passStart.Canon := h.sense.bootStep.retryPeers

end

/-! ### The completion of operations and waits -/

section
variable {s : State} (h : s.Canon)
include h

theorem State.Canon.finishOp (tm i o ws) : (s.finishOp tm i o ws).Canon :=
  foldl_canon _ (h.modThr ..) fun _ _ h1 => h1.observe ..
theorem State.Canon.performOp (tm i t o p) : (s.performOp tm i t o p).Canon := by
  unfold State.performOp
  split
  · exact h.performLd ..
  · exact h.performPlain ..
  · exact h.performPlain ..
  · exact h.performPlain ..
  · exact h.performPlain ..
  · exact h.performPlain ..
  · exact h.performX ..
  · exact h.performX ..
  · exact h.performX ..
  · exact h.performXread ..
  · exact h.performGlaze ..
  · exact h.performGlzins ..
  · exact h.performGlzq ..
  · exact h.performBar ..
  · exact h.performBar ..
  · exact h.performBar ..
  · exact h.performBar ..
  · exact h.performBar ..
  · exact h.performQueue ..
  · exact h.performQueue ..
  · exact h.performQueue ..
  · exact h.performQueue ..
  · exact h.performQueue ..
  · exact h.performCtr ..
  · exact h.performCtr ..
  · exact h.performPref ..
  · exact h.performFlush ..
  · exact h.performFlush ..
  · exact h.performFlush ..
  · exact h.performFlush ..
  · exact h.performFlush ..
  · exact h.performFlush ..
  · exact h.performFe ..
  · exact h.performFe ..
  · exact h.performTload ..
  · exact h.performChkt ..
  · exact h.performSort ..
  · exact h.performMmwake ..
  · exact h.performMmstat ..
  · exact h.performRast ..
  · exact h.performAttr ..
  · exact h.performFlset ..
  · exact h.performFlgrow ..
  · exact h.performTarget ..
  · exact h.performTarget ..
  · exact h.performTarget ..
  · exact h.performTarget ..
  · exact h.performSplat ..
  · exact h.performRay ..
  · exact h.performRay ..
  · exact h.performLaunch ..
  · exact h.performWgemit ..
  · exact h.performWgdone ..
  · exact h.performQuiesce ..
  · exact h.performQuiesce ..
  · exact h.performDeque ..
  · exact h.performDeque ..
  · exact h.performDeque ..
  · exact h.performDebug ..
  · exact h.performDebug ..
  · exact h.performDebug ..
  · exact h.performDebug ..
  · exact h

theorem execFlaggedCompletion_canon (p) : NextCanon (execFlaggedCompletion p s) := by
  unfold execFlaggedCompletion
  split
  · refine next_ite_canon (ite_canon (h.performOp ..) h) ?_
    refine next_ite_canon h ?_
    split
    · exact h.modThr ..
    · exact ite_canon (h.performDebug ..) (h.finishOp ..)
    · exact h.performOp ..
  · exact h

theorem State.Canon.afterDrain {tm i t o ready eff} (heff : ∀ o u, u.Canon → (eff o u).Canon) : (s.afterDrain tm i t o ready eff).Canon :=
  ite_canon (heff _ _ (h.endWait ..)) (h.markWaited ..)
theorem State.Canon.issueAgain (id i o) : (s.issueAgain id i o).Canon := by
  unfold State.issueAgain
  split
  · next tm t _ _ =>
    have hs1 : ∀ n l, ({ s with nextId := n, issues := l } : State).Canon := fun _ _ => h
    dsimp only
    split
    · next heq =>
      split at heq
      · exact ((execBarw_canon (hs1 _ _) ..).of_eq heq).frame
      · exact ((execQpush_canon (hs1 _ _) ..).of_eq heq).frame
      · exact ((execQpop_canon (hs1 _ _) ..).of_eq heq).frame
      · exact ((execSqwait_canon (hs1 _ _) ..).of_eq heq).frame
      · exact ((execCpwait_canon (hs1 _ _) ..).of_eq heq).frame
      · exact ((execChkw_canon (hs1 _ _) ..).of_eq heq).frame
      · exact ((execOenter_canon (hs1 _ _) ..).of_eq heq).frame
      · exact ((execResume_canon (hs1 _ _) ..).of_eq heq).frame
      · exact ((execResumeSvc_canon (hs1 _ _) ..).of_eq heq).frame
      · cases heq
        exact h
    · exact h
  · exact h

theorem State.Canon.reissue (id i) : (s.reissue id i).Canon := by
  unfold State.reissue
  split
  · exact h
  · exact (foldl_canon _ (h.modThr ..) fun _ _ h1 => h1.issueAgain ..).commitEnd ..

theorem State.Canon.retryWait (tm i t cr o) : (s.retryWait tm i t cr o).Canon := by
  unfold State.retryWait
  refine ite_canon (h.reissue ..) ?_
  split
  · exact ite_canon (ite_canon (h.dropWait ..) h) (ite_canon (h.endWait ..) h)
  · exact h.retryBarw ..
  · exact h.retryQueue ..
  · exact h.retryQueue ..
  · exact h.retrySqwait ..
  · exact h.retryFence ..
  · exact h.retryFence ..
  · exact h.retryFence ..
  · exact h.retryWaitm ..
  · exact h.retryCpwait ..
  · exact h.retryChkw ..
  · exact h.retryOenter ..
  · exact h.retryOleave ..
  · exact ite_canon ((h.dropWait ..).arrive ..) h
  · exact h.afterDrain (fun _ _ h1 => h1.endThread ..)
  · exact h.afterDrain (fun _ _ h1 => h1.softTrap ..)
  · exact h.afterDrain (fun _ _ h1 => h1.tretServe ..)
  · exact h.afterDrain (fun _ _ h1 => h1.tretServe ..)
  · exact h.afterDrain (fun _ _ h1 => h1.tretServe ..)
  · exact h.afterDrain (fun _ _ h1 => h1.tretTerm ..)
  · exact ite_canon (h.retryResume ..) h
  · exact ite_canon (h.retryResume ..) h
  · exact h

theorem State.Canon.settleWaits (old) : (State.settleWaits old s).Canon := h
theorem execWaitingInstructionComplete_canon (p) : NextCanon (execWaitingInstructionComplete p s) := by
  unfold execWaitingInstructionComplete
  split
  · exact h
  · split
    · exact h
    · split
      · exact ite_canon (h.retryWait ..) h
      · exact h

end

/-! ### Every row of the opcode table -/

/-- Every instruction and event leaves the tables canonical. -/
theorem exec_canon {s : State} (h : s.Canon) (i : Instr) : NextCanon (exec i s) := by
  unfold exec
  cases i with
  | nop => exact execNop_canon h ..
  | bra | brx | call | callx | ret | retChecked => exact branchOp_canon h ..
  | jinitLive | jinitSelf | jinitClear | jinitK => exact jinitOp_canon h ..
  | join => exact execJoin_canon h ..
  | jleave => exact execJleave_canon h ..
  | jtest => exact execJtest_canon h ..
  | exit => exact execExit_canon h ..
  | yield => exact execYield_canon h ..
  | iadd | isub | imul | imulh | imad | imadw | iabs | imin | imax | and | or | xor | shl | shr | sar | bfe | bfi
    | popc | clz | brev | icmp | sel | mov | movi | lea | plop | smovWrite | kmovFromK | iaddi | lopi | fadd |
    fsub | fmul | ffma | fmin | fmax | fcmp | frcp | fsqrt | frsq | fexp2 | flog2 | fsin | fcos | frnd | fscl |
    fcls | fcvt | f2i | i2f | fdot | bqntScale | bqntElement | bdq =>
    exact regOp_canon h ..
  | smovRead => exact execSmovRead_canon h ..
  | kmovToK => exact execKmovToK_canon h ..
  | elect => exact execElect_canon h ..
  | shfl | vote | lred | lscan | matchLanes => exact crossOp_canon h ..
  | ld => exact execLd_canon h ..
  | st | stt => exact storeOp_canon h ..
  | pref => exact execPref_canon h ..
  | ipref => exact execIpref_canon h ..
  | ipin => exact execIpin_canon h ..
  | iunpin => exact execIunpin_canon h ..
  | fenceRel | fenceAcq | fenceAr => exact fenceOp_canon h ..
  | cflushL1 | cflushClean | cflushInval => exact flushOp_canon h ..
  | cflushTlb | cflushAsid | cflushCtx => exact flushSys_canon h ..
  | feset | feclr => exact feOp_canon h ..
  | monitor => exact execMonitor_canon h ..
  | waitm => exact execWaitm_canon h ..
  | atom | atomcas | red => exact plainAtom_canon h ..
  | xadd => exact execXadd_canon h ..
  | xread => exact execXread_canon h ..
  | xclr | xclrLine => exact clearOp_canon h ..
  | glaze => exact execGlaze_canon h ..
  | glzins => exact execGlzins_canon h ..
  | glzq => exact execGlzq_canon h ..
  | bari | bara | bart | bartPoison | barp => exact barOp_canon h ..
  | barw => exact execBarw_canon h ..
  | qcfgSet => exact execQcfgSet_canon h ..
  | qcfgGrant => exact execQcfgGrant_canon h ..
  | qcfgStat => exact execQcfgStat_canon h ..
  | qcfgOff => exact execQcfgOff_canon h ..
  | qpush => exact execQpush_canon h ..
  | qpop => exact execQpop_canon h ..
  | qtry => exact execQtry_canon h ..
  | sqadd => exact execSqadd_canon h ..
  | sqwait => exact execSqwait_canon h ..
  | sqrd => exact execSqrd_canon h ..
  | cpl => exact execCpl_canon h ..
  | cpt | cpm | cpg => exact tileOp_canon h ..
  | cpclose => exact execCpclose_canon h ..
  | cpwait => exact execCpwait_canon h ..
  | chkw => exact execChkw_canon h ..
  | chkt => exact execChkt_canon h ..
  | tload => exact execTload_canon h ..
  | tevict => exact execTevict_canon h ..
  | sort => exact execSort_canon h ..
  | mmx => exact execMmx_canon h ..
  | mmzero => exact execMmzero_canon h ..
  | mmld => exact execMmld_canon h ..
  | mmst => exact execMmst_canon h ..
  | mmrd => exact execMmrd_canon h ..
  | mmwake => exact execMmwake_canon h ..
  | mmstat => exact execMmstat_canon h ..
  | rast => exact execRast_canon h ..
  | attr => exact execAttr_canon h ..
  | oenter => exact execOenter_canon h ..
  | oleave => exact execOleave_canon h ..
  | flcfgSet => exact execFlcfgSet_canon h ..
  | flcfgGrow => exact execFlcfgGrow_canon h ..
  | flcfgOff => exact execFlcfgOff_canon h ..
  | flins | flres | flresClr | flrd => exact targetOp_canon h ..
  | splat => exact execSplat_canon h ..
  | raybox | raytri => exact rayOp_canon h ..
  | launch => exact execLaunch_canon h ..
  | wgemit => exact execWgemit_canon h ..
  | wgdone => exact execWgdone_canon h ..
  | dqpush => exact execDqpush_canon h ..
  | dqpop => exact execDqpop_canon h ..
  | dqsteal => exact execDqsteal_canon h ..
  | quiesceArm => exact execQuiesceArm_canon h ..
  | quiesceRd => exact execQuiesceRd_canon h ..
  | trap => exact execTrap_canon h ..
  | srd => exact execSrd_canon h ..
  | swr => exact execSwr_canon h ..
  | cont | contOff => exact contOp_canon h ..
  | resumeSvc => exact execResumeSvc_canon h ..
  | resume => exact execResume_canon h ..
  | tretRec => exact execTretRec_canon h ..
  | tretNext => exact execTretNext_canon h ..
  | tretKill => exact execTretKill_canon h ..
  | tretTerm => exact execTretTerm_canon h ..
  | coneset => exact execConeset_canon h ..
  | coneclr => exact execConeclr_canon h ..
  | coneclrRec => exact execConeclrRec_canon h ..
  | coneclrAll => exact execConeclrAll_canon h ..
  | haltSelf => exact execHaltSelf_canon h ..
  | haltCrew => exact execHaltCrew_canon h ..
  | haltTeam => exact execHaltTeam_canon h ..
  | haltThr => exact execHaltThr_canon h ..
  | haltRel => exact execHaltRel_canon h ..
  | inspr => exact execInspr_canon h ..
  | inspw => exact execInspw_canon h ..
  | step => exact execStep_canon h ..
  | tmark => exact execTmark_canon h ..
  | ill => exact execIll_canon h ..
  | clauseIssue => exact execClauseIssue_canon h ..
  | flaggedCompletion => exact execFlaggedCompletion_canon h ..
  | lateFaultTaken => exact execLateFaultTaken_canon h ..
  | holdSlotGrant => exact execHoldSlotGrant_canon h ..
  | yieldPauseEnd => exact execYieldPauseEnd_canon h ..
  | waitingInstructionComplete => exact execWaitingInstructionComplete_canon h ..
  | orderPointWrite => exact execOrderPointWrite_canon h ..
  | pageWalkComplete => exact execPageWalkComplete_canon h ..
  | lineCheckout => exact execLineCheckout_canon h ..
  | lineRecall => exact h.returnLines ..
  | atomicAtOrderPoint => exact execAtomicAtOrderPoint_canon h ..
  | xaddAtSlice => exact execXaddAtSlice_canon h ..
  | glazeRun => exact execGlazeRun_canon h ..
  | barrierEngineEvent => exact execBarrierEngineEvent_canon h ..
  | watchdogExpiry => exact execWatchdogExpiry_canon h ..
  | queueRecordPost => exact execQueueRecordPost_canon h ..
  | cplCopyFinish => exact execCplCopyFinish_canon h ..
  | chunk => exact execChunk_canon h ..
  | enginePageRetry => exact execEnginePageRetry_canon h ..
  | sortStart => exact execSortStart_canon h ..
  | sortPass => exact execSortPass_canon h ..
  | sortComplete => exact execSortComplete_canon h ..
  | matrixOpStart => exact execMatrixOpStart_canon h ..
  | matrixPass => exact execMatrixPass_canon h ..
  | matrixCommandComplete => exact execMatrixCommandComplete_canon h ..
  | arrayIdleGate => exact execArrayIdleGate_canon h ..
  | arrayWakeComplete => exact execArrayWakeComplete_canon h ..
  | rasterRecord => exact execRasterRecord_canon h ..
  | fragmentLaunch => exact execFragmentLaunch_canon h ..
  | rastComplete => exact execRastComplete_canon h ..
  | setterInsert => exact execSetterInsert_canon h ..
  | splatStart => exact execSplatStart_canon h ..
  | splatPixelOutput => exact execSplatPixelOutput_canon h ..
  | splatComplete => exact execSplatComplete_canon h ..
  | spanPlace => exact execSpanPlace_canon h ..
  | launcherPreempt => exact execLauncherPreempt_canon h ..
  | teamEnd => exact execTeamEnd_canon h ..
  | launchQueueTake => exact execLaunchQueueTake_canon h ..
  | binTimerExpiry => exact execBinTimerExpiry_canon h ..
  | persistDelivery => exact execPersistDelivery_canon h ..
  | trapDispatch => exact execTrapDispatch_canon h ..
  | contextTerminate => exact execContextTerminate_canon h ..
  | terminationComplete => exact execTerminationComplete_canon h ..
  | spanSave => exact execSpanSave_canon h ..
  | saveComplete => exact execSaveComplete_canon h ..
  | spanRestore => exact execSpanRestore_canon h ..
  | eccUncorrectable => exact h.eccHit ..
  | eccCorrected | peerLinkDown | dolmirDynamicAddress | dolmirPrivateRead | startRecordWrite => exact h
  | haltLand => exact execHaltLand_canon h ..
  | traceRecordWrite => exact execTraceRecordWrite_canon h ..
  | hostReadRequest => exact execHostReadRequest_canon h ..
  | hostMemoryWrite => exact execHostMemoryWrite_canon h ..
  | hostCounterAdd => exact execHostCounterAdd_canon h ..
  | hostCounterRead => exact execHostCounterRead_canon h ..
  | registerWrite => exact execRegisterWrite_canon h ..
  | herrWrite => exact execHerrWrite_canon h ..
  | cecountWrite => exact execCecountWrite_canon h ..
  | hcmdstatWrite => exact execHcmdstatWrite_canon h ..
  | hcmdBusyDrop => exact execHcmdBusyDrop_canon h ..
  | register => exact execRegister_canon h ..
  | terminate => exact execTerminate_canon h ..
  | preempt => exact execPreempt_canon h ..
  | debugon => exact execDebugon_canon h ..
  | debugoff => exact execDebugoff_canon h ..
  | retire => exact execRetire_canon h ..
  | attest => exact execAttest_canon h ..
  | setctr => exact execSetctr_canon h ..
  | invtlb => exact execInvtlb_canon h ..
  | hcmdUnknown => exact execHcmdUnknown_canon h ..
  | hostCommandComplete => exact execHostCommandComplete_canon h ..
  | watchWrite => exact execWatchWrite_canon h ..
  | plimWrite => exact h.modHost ..
  | peerRequestIncoming => exact ite_canon (h.peerServe ..) h
  | powerOn => exact s.startUp_canon ..
  | powerLoss => exact execPowerLoss_canon
  | startupStepFail => exact execStartupStepFail_canon h ..
  | limiterStep => exact execLimiterStep_canon h ..
  | thermtrip => exact execThermtrip_canon h ..
  | dolmirPrivateWrite => exact execDolmirPrivateWrite_canon h ..
  | mrst => exact ite_canon (s.startUp_canon ..) h
  | thermtripClear => exact h.clearTrip ..
  | peerLinkUp => exact ite_canon (h.setPort ..) h

/-! ### Homes and moves -/

section
variable {s : State} (h : s.Canon)
include h

theorem State.Canon.noteRequest (r) : (s.noteRequest r).Canon := by
  unfold State.noteRequest
  split
  · exact h.homeBytes ..
  · exact h.homeBytes ..
  · exact h.noteHome ..
  · exact h

theorem State.Canon.settleHomes : s.settleHomes.Canon := foldl_canon _ h.noteHeld fun _ _ h1 => h1.mixLine ..
theorem State.Canon.meetRequest (a) : (s.meetRequest a).Canon := by
  unfold State.meetRequest
  exact ite_canon h ((h.noteRequest _).settleHomes).frame

theorem State.Canon.elapse (n) : (s.elapse n).Canon := by
  unfold State.elapse
  dsimp only
  apply State.Canon.runTimers
  apply State.Canon.runArrays
  apply State.Canon.runDogs
  exact h

theorem State.Canon.performNow (id i o) : (s.performNow id i o).Canon := by
  unfold State.performNow
  split
  · exact h.performOp ..
  · exact h

theorem State.Canon.readNow (id i ld) : (s.readNow id i ld).Canon := by
  unfold State.readNow
  split
  · exact foldl_canon _ h fun _ _ h1 => h1.performNow ..
  · exact h

theorem State.Canon.readDue (id i now wb) : (s.readDue id i now wb).Canon := by
  unfold State.readDue
  refine foldl_canon _ h fun _ _ h1 => ?_
  refine ite_canon ?_ h1
  split
  · exact h1.readNow ..
  · exact h1

theorem State.Canon.writeDue : s.writeDue.Canon := by
  unfold State.writeDue
  refine foldl_canon _ h fun _ _ h1 => ?_
  refine foldl_canon _ h1 fun _ _ h2 => ?_
  split
  · exact ite_canon h2 ((h2.readDue ..).commit ..)
  · exact h2

theorem State.Canon.pass (n) : (s.pass n).Canon := by
  unfold State.pass
  exact ite_canon h (foldl_fst_canon _ h fun _ _ h1 => ((h1.formed).elapse ..).writeDue)

theorem State.Canon.background : s.background.Canon := h.retrySeals.passStart.serveReads
end

theorem afterIssue_canon (id : Nat) {r : Out} (hr : NextCanon r) : NextCanon (afterIssue id r) := by
  cases r with
  | next s1 => exact State.Canon.advance hr id
  | fault f => trivial
  | refused e => trivial

section
variable {s : State} (h : s.Canon)
include h

theorem State.Canon.issueWord (k late) : NextCanon (s.issueWord k late) := by
  unfold State.issueWord
  have hp := h.prepare k late
  dsimp only
  split
  · split
    · exact afterIssue_canon _ (exec_canon hp _)
    · exact (foldl_canon _ hp fun _ _ h1 => h1.raise ..).advance ..
  · exact h

theorem State.Canon.issueAt (k late) : NextCanon (s.issueAt k late) := by
  unfold State.issueAt
  split
  · exact h
  · exact next_ite_canon (State.Canon.issueWord (h.pass _) ..) h

/-- One move keeps the tables canonical. -/
theorem State.Canon.act (a) : NextCanon (s.act a) := by
  cases a with
  | issue k late => exact h.issueAt ..
  | event i => exact next_ite_canon (exec_canon (h.meetRequest _) i) h
  | cycle n => exact ite_canon (h.pass n) h
  | background => exact h.background

end

/-! ### What the lines of L2 have held (R145, log 113) -/

theorem tabGetN_drop_take {α : Type} (d : α) (t : List (Nat × α)) (n : Nat) : ∀ a i m : Nat, i + m ≤ n →
    ((tabGetN d t a n).drop i).take m = tabGetN d t (a + i) m := by
  induction n with
  | zero =>
    intro a i m h
    obtain rfl : m = 0 := by omega
    simp [tabGetN]
  | succ n ih =>
    intro a i m h
    cases i with
    | succ i =>
      rw [tabGetN, List.drop_succ_cons, ih _ _ _ (by omega), Nat.add_right_comm, Nat.add_assoc]
    | zero =>
      cases m with
      | zero => rfl
      | succ m =>
        have hm := ih (a + 1) 0 m (by omega)
        simp only [List.drop_zero, Nat.add_zero] at hm ⊢
        rw [tabGetN, List.take_succ_cons, hm, tabGetN]

theorem tabGetN_tabPutN_other {α : Type} [DecidableEq α] (d : α) (t : List (Nat × α)) (xs : List α) (a n : Nat) :
    ∀ b, b + n ≤ a ∨ a + xs.length ≤ b → tabGetN d (tabPutN d t a xs) b n = tabGetN d t b n := by
  induction n with
  | zero => exact fun _ _ => rfl
  | succ n ih =>
    intro b h
    rw [tabGetN, tabGetN, tabGet_tabPutN_other d xs t a b (by omega), ih (b + 1) (by omega)]

/-- A unit of 8 bytes of a line as the line reads now. -/
theorem State.lineNow_unit (s : State) (line : Nat) {k : Nat} (hk : k < 16) :
    ((s.lineNow line).1.drop (8 * k)).take 8 = s.bytes (line * 128 + 8 * k) 8 :=
  tabGetN_drop_take 0 s.mem 128 _ _ _ (by omega)

theorem State.put_bytes_same {s : State} (h : Memory.wf s.mem = true) (key : Nat) {bs : List Byte} {n : Nat} (hn : bs.length = n) :
    (s.put key bs).bytes key n = bs := by
  subst hn
  exact tabGetN_tabPutN bs h key

theorem State.put_bytes_other (s : State) (key a n : Nat) (bs : List Byte) (h : a + n ≤ key ∨ key + bs.length ≤ a) :
    (s.put key bs).bytes a n = s.bytes a n :=
  tabGetN_tabPutN_other 0 s.mem bs key n a h

/-- Once each line has kept what it holds, each unit and tag is one it has held. -/
theorem State.noteHeld_homesHeld (s : State) : s.noteHeld.homesHeld := by
  intro e he
  have hnow : s.lineNow e.line ∈ e.held := by
    obtain ⟨d, -, rfl⟩ := List.mem_map.1 he
    dsimp only
    split
    · next hd => exact List.contains_iff_mem.1 hd
    · exact List.mem_append_right _ (List.mem_singleton.2 rfl)
  exact ⟨fun k hk => ⟨e, he, rfl, _, hnow, (s.lineNow_unit e.line hk).symm⟩, e, he, rfl, _, hnow, rfl⟩

/-- A value that a line has held, written at one of the line's units. -/
theorem State.homesHeld.put_unit {s : State} (hs : s.homesHeld) (hm : Memory.wf s.mem = true) {e : L2Line} (he : e ∈ s.l2)
    {v : List Byte × Nat} (hv : v ∈ e.held) (hlen : v.1.length = 128) {k : Nat} (hk : k < 16) :
    (s.put (e.line * 128 + 8 * k) ((v.1.drop (8 * k)).take 8)).homesHeld := by
  have h8 : ((v.1.drop (8 * k)).take 8).length = 8 := by
    rw [List.length_take, List.length_drop]
    omega
  intro d hd
  obtain ⟨hunits, htag⟩ := hs d hd
  refine ⟨fun j hj => ?_, htag⟩
  by_cases hsame : d.line = e.line ∧ j = k
  · obtain ⟨hline, rfl⟩ := hsame
    rw [hline]
    exact ⟨e, he, rfl, v, hv, State.put_bytes_same hm _ h8⟩
  · rw [State.put_bytes_other _ _ _ _ _ (by omega)]
    exact hunits j hj

/-- A tag that a line has held, put at the line. -/
theorem State.homesHeld.put_tag {s : State} (hs : s.homesHeld) (ht : tabOk 0 s.tags = true) {e : L2Line} (he : e ∈ s.l2)
    {v : List Byte × Nat} (hv : v ∈ e.held) :
      ({ s with tags := tabPut 0 s.tags (e.line * 128) v.2 } : State).homesHeld := by
  intro d hd
  obtain ⟨hunits, c, hc, hline, w, hw, htag⟩ := hs d hd
  refine ⟨hunits, ?_⟩
  by_cases hsame : d.line = e.line
  · refine ⟨e, he, hsame.symm, v, hv, ?_⟩
    rw [State.tagAt, hsame, Nat.mul_div_cancel _ (by omega)]
    exact tabGet_tabPut_same ht ..
  · refine ⟨c, hc, hline, w, hw, htag ▸ ?_⟩
    exact tabGet_tabPut_other _ _ _ _ _ (by omega)

theorem L2Line.pick_mem {bit : Nat → Bool} {e : L2Line} {k : Nat} {v : List Byte × Nat} (h : e.pick bit k = some v) :
    v ∈ e.held := by
  obtain ⟨i, -, hi⟩ := Option.bind_eq_some_iff.1 h
  exact List.mem_of_getElem? hi

/-- A state in which the lines of L2, those of `s`, read what they have held. -/
def State.HeldAs (l2 : List L2Line) (s : State) : Prop := s.Canon ∧ s.homesHeld ∧ s.l2 = l2

/-- A line that stands as a mixture of what it has held reads only what it has held. -/
theorem State.HeldAs.mixLine {l2 : List L2Line} {s : State} (h : s.HeldAs l2) {e : L2Line} (he : e ∈ l2) :
    (s.mixLine e).HeldAs l2 := by
  unfold State.mixLine
  have hunits : State.HeldAs l2 ((List.range 16).foldl (fun t k =>
      match e.pick (fun n => Config.freeBit s.tick (2 ^ 71 + n)) k with
      | some v => t.put (e.line * 128 + 8 * k) ((v.1.drop (8 * k)).take 8)
      | none => t) s) := by
    refine List.foldlRecOn _ _ h fun t ht k hk => ?_
    obtain ⟨hc, hh, rfl⟩ := ht
    split
    · next v hv =>
      have hv := L2Line.pick_mem hv
      exact ⟨hc.put .., hh.put_unit hc.1 he hv (hc.2.2 e he v hv) (List.mem_range.1 hk), rfl⟩
    · exact ⟨hc, hh, rfl⟩
  obtain ⟨hc, hh, hl⟩ := hunits
  dsimp only
  split
  · next v hv => exact
      ⟨⟨hc.1, tabOk_tabPut hc.2.1 .., hc.2.2⟩, hh.put_tag hc.2.1 (hl ▸ he) (L2Line.pick_mem hv), hl⟩
  · exact ⟨hc, hh, hl⟩

theorem State.Canon.settleHomes_heldAs {s : State} (h : s.Canon) : s.settleHomes.HeldAs s.noteHeld.l2 :=
  List.foldlRecOn _ _ ⟨h.noteHeld, s.noteHeld_homesHeld, rfl⟩ fun _ ht _ he => ht.mixLine
    (List.mem_filter.1 he).1

theorem State.linesOk_iff {s : State} : s.linesOk ↔ s.Canon ∧ s.homesHeld :=
  ⟨fun h => ⟨⟨h.memOk, h.tagsOk, h.whole⟩, h.held⟩, fun ⟨h, hh⟩ => ⟨h.1, h.2.1, h.2.2, hh⟩⟩

/-- What is kept of the bytes written over changes neither memory nor L2. -/
theorem State.linesOk.notePast {s : State} (h : s.linesOk) (old : State) : (old.notePast s).linesOk := by
  unfold State.notePast
  dsimp only
  split
  · exact h
  · exact ⟨h.memOk, h.tagsOk, h.whole, h.held⟩

/-- The end of a step makes the lines of L2 stand as they have been held. -/
theorem State.Canon.settle {s : State} (h : s.Canon) (old : State) : (old.settle s).linesOk := by
  have hw : (old.settleWaits s.noteMisuse).Canon := h.noteMisuse.settleWaits old
  have hend := (State.linesOk_iff.2 ⟨hw.settleHomes_heldAs.1, hw.settleHomes_heldAs.2.1⟩).notePast old
  exact ⟨hend.memOk, hend.tagsOk, hend.whole, hend.held⟩

theorem step_linesOk {s s' : State} (h : s.linesOk) (hstep : step s = .next s') : s'.linesOk := by
  have hcanon : ({ s with agenda := s.nextMove.2 } : State).Canon := (State.linesOk_iff.1 h).1
  have hact := hcanon.act s.nextMove.1
  unfold step at hstep
  generalize ({ s with agenda := s.nextMove.2 } : State).act s.nextMove.1 = out at hact hstep
  cases out with
  | next m =>
    cases hstep
    exact State.Canon.settle hact s
  | fault f => cases hstep
  | refused r => cases hstep

/-- Settles O60: every change that a move makes keeps the tables canonical, and the end of the step leaves each line of L2 as it has
been held. -/
theorem stepReadsHeldValues : Obligations.StepReadsHeldValues := by
  unfold Obligations.StepReadsHeldValues
  exact ⟨State.linesOk_iff.2 ⟨State.reset_canon, fun _ he => nomatch he⟩, fun _ _ => step_linesOk⟩

end Sys2Proof.Machine

namespace Sys2Proof.Machine
open Sys2Proof

/-! ## A placed span (R18, R337, R339, R340)

Bottom up: how `Thread.start` leaves a thread, the threads of a team that `mkTeam` makes, the teams of `spanTeams`, what
`State.putSpan` leaves unchanged and adds, and when `execSpanPlace` comes to it. -/

/-- Registers, predicates and completion flags are zero, and nothing is on its way to them. -/
def Thread.Clear (t : Thread) : Prop :=
  (∀ w ∈ t.v, w = 0) ∧ (∀ b ∈ t.p, b = false) ∧ (∀ n ∈ t.f, n = 0) ∧ t.wb = [] ∧ t.pend = []
/-- A thread as a placement leaves it: ready at the kernel entry, or one of the system crew and idle. -/
def Thread.Placed (entry : DWord) (t : Thread) : Prop :=
  t.status = .ready ∧ t.pc = entry ∧ t.sys.region = entry ∨ t.crew = 7 ∧ t.status = .idle

theorem Thread.start_clear (crew tid budget : Nat) (pc : DWord) (st : TStat) : (Thread.start crew tid budget pc st).Clear :=
  ⟨fun _ => List.eq_of_mem_replicate, fun _ => List.eq_of_mem_replicate, fun _ => List.eq_of_mem_replicate, rfl, rfl⟩

theorem crewThreads_clear_placed {entry : DWord} {k : Crew} {t : Thread} (ht : t ∈ crewThreads entry k) :
    t.Clear ∧ t.Placed entry := by
  obtain ⟨i, -, rfl⟩ := List.mem_map.1 ht
  exact ⟨Thread.start_clear k.num i k.budget entry .ready, .inl ⟨rfl, rfl, rfl⟩⟩

theorem mkTeam_threads_clear_placed {c : Context} {l : Lot} {ks : List (List DWord)} {id span ix band team core : Nat} {t : Thread}
    (ht : t ∈ (mkTeam c l ks id span ix band team core).threads) : t.Clear ∧ t.Placed l.r.entry := by
  obtain hcrew | hsys := List.mem_append.1 ht
  · obtain ⟨k, -, hk⟩ := List.mem_flatMap.1 hcrew
    exact crewThreads_clear_placed hk
  · obtain ⟨i, -, rfl⟩ := List.mem_map.1 hsys
    exact ⟨Thread.start_clear .., .inr ⟨rfl, rfl⟩⟩

theorem spanTeams_map_core (c : Context) (l : Lot) (ks : List (List DWord)) (span ix : Nat) (cores : List Nat) :
    (spanTeams c l ks span ix cores).map (fun u => u.core) = cores :=
  List.ext_getElem (by simp [spanTeams]) fun i _ hi => by simp [spanTeams, mkTeam, hi]

theorem mem_spanTeams {c : Context} {l : Lot} {ks : List (List DWord)} {span ix : Nat} {cores : List Nat} {u : Team}
    (hu : u ∈ spanTeams c l ks span ix cores) : ∃ id band team core, u = mkTeam c l ks id span ix band team core := by
  obtain ⟨k, -, rfl⟩ := List.mem_map.1 hu
  exact ⟨_, _, _, _, rfl⟩

theorem State.l1Acquire_foldl (s : State) (cores : List Nat) :
    ∃ l1, cores.foldl (fun s k => s.l1Acquire k) s = { s with l1 := l1 } := by
  induction cores generalizing s with
  | nil => exact ⟨s.l1, rfl⟩
  | cons k cores ih => exact ih (s.l1Acquire k)

theorem State.mem_modLot_lots {s : State} {l : Lot} (hl : l ∈ s.lots) (f : Lot → Lot) : f l ∈ (s.modLot l.id f).lots :=
  List.mem_map.2 ⟨l, hl, if_pos rfl⟩

section
variable (s : State) (c : Context) (l : Lot) (ks : List (List DWord)) (ix : Nat) (cores : List Nat)

/-- A placement leaves memory and the contexts; it adds its teams, and one more placed and live span to the lot (R337). -/
theorem State.putSpan_fields :
    (s.putSpan c l ks ix cores).mem = s.mem ∧ (s.putSpan c l ks ix cores).ctxs = s.ctxs ∧
    (s.putSpan c l ks ix cores).teams = s.teams ++ spanTeams c l ks s.nextId ix cores ∧
    (s.putSpan c l ks ix cores).lots =
      (s.modLot l.id fun k => { k with placed := k.placed ++ [ix], live := k.live + 1 }).lots := by
  obtain ⟨l1, h⟩ := s.l1Acquire_foldl cores
  simp only [State.putSpan, h, State.modLot, and_self]

theorem State.putSpan_placed (v : Lot) (hv : v ∈ (s.putSpan c l ks ix cores).lots) (hid : v.id = l.id) : ix ∈ v.placed := by
  obtain ⟨-, -, -, hlots⟩ := s.putSpan_fields c l ks ix cores
  obtain ⟨w, -, rfl⟩ := List.mem_map.1 (hlots ▸ hv)
  by_cases hw : w.id = l.id
  · rw [if_pos hw]
    exact List.mem_append_right _ (List.mem_singleton.2 rfl)
  · rw [if_neg hw] at hid
    exact absurd hid hw

theorem State.putSpan_live {m : Lot} (hm : m ∈ s.lots) (hid : m.id = l.id) :
    ∃ v ∈ (s.putSpan c l ks ix cores).lots, v.id = l.id ∧ v.live = m.live + 1 := by
  obtain ⟨-, -, -, hlots⟩ := s.putSpan_fields c l ks ix cores
  rw [hlots, ← hid]
  exact ⟨_, State.mem_modLot_lots hm _, rfl, rfl⟩
end

section
variable {s : State} {o : PlaceOp} {l : Lot} {c : Context}
  (hl : (s.lots.find? fun l => l.id == o.id) = some l) (hc : s.ctx? l.asid = some c)
include hl hc

theorem execSpanPlace_unfit (hfit : s.coresOk (l.r.load c) l.r.bands l.r.teams (o.cores.map fun k => k.val) = false) :
    execSpanPlace o s = .next s := by
  simp [execSpanPlace, hl, hc, hfit]

theorem execSpanPlace_fit {ks : List (List DWord)}
    (hfit : s.coresOk (l.r.load c) l.r.bands l.r.teams (o.cores.map fun k => k.val) = true)
    (hact : c.active = true) (hfirst : s.lotFirst l = true) (hix : o.ix < l.r.spans) (hnew : o.ix ∉ l.placed)
    (hwait : l.wait = 0) (hks : s.lotKs c l = .ok ks) :
    execSpanPlace o s = .next ((s.modLot l.id fun l => { l with kinit := some ks }).putSpan c l ks o.ix
      (o.cores.map fun k => k.val)) := by
  simp [execSpanPlace, hl, hc, hfit, hact, hfirst, Nat.not_le.2 hix, hnew, hwait, hks]
end

/-- Settles O39: a placement that is not fit stops at the guard of SPAN_PLACE, and a fit one is `State.putSpan`, whose teams are those
of `spanTeams`. -/
theorem spanPlacementStartsTeams : Obligations.SpanPlacementStartsTeams := by
  unfold Obligations.SpanPlacementStartsTeams
  intro s o l c ks hl hc cores fit
  refine ⟨execSpanPlace_unfit hl hc, fun hfit hact hfirst hix hnew hwait hks => ?_⟩
  let s1 := s.modLot l.id fun l => { l with kinit := some ks }
  have hlot : { l with kinit := some ks } ∈ s1.lots := State.mem_modLot_lots (List.mem_of_find?_eq_some hl) _
  obtain ⟨hmem, hctxs, hteams, -⟩ := s1.putSpan_fields c l ks o.ix cores
  refine ⟨_, _, execSpanPlace_fit hl hc hfit hact hfirst hix hnew hwait hks, hmem, hctxs, hteams, spanTeams_map_core ..,
    s1.putSpan_placed c l ks o.ix cores,
    s1.putSpan_live c l ks o.ix cores (m := { l with kinit := some ks }) hlot rfl, fun u hu => ?_⟩
  obtain ⟨id, band, team, core, rfl⟩ := mem_spanTeams hu
  refine ⟨rfl, rfl, rfl, rfl, fun t ht => ?_⟩
  obtain ⟨⟨hv, hp, hf, hwb, hpend⟩, hplaced⟩ := mkTeam_threads_clear_placed ht
  exact ⟨hv, hp, hf, hwb, hpend, hplaced⟩

end Sys2Proof.Machine

namespace Sys2Proof.Machine
open Sys2Proof

/-! ## Rejoin registers (R66, R67, R80 to R82)

A rejoin instruction updates one rejoin register of its strand (`State.modJ`). Where the register is then not complete, that is all
it does (`State.modJ_of`); where it is complete, the groups of the arrived threads are held, the arrival set empties, and each
arrived thread in turn leaves the rejoin (`State.leaveRejoin`). -/

/-- The team in which a word issues alone. -/
theorem IssuesAlone.started_team? {s : State} {i : Instr} {x : Issue} {tm : Team} {cr : Crew} {j : Nat} {t : Thread}
    (h : IssuesAlone s i x tm cr j t) : s.started.team? x.team = some tm := (State.issuer_team h.issuer).1

/-- How far the K registers are seen does not touch the rejoin registers. -/
theorem IssuesAlone.rejoin {s : State} {i : Instr} {x : Issue} {tm : Team} {cr c0 : Crew} {j : Nat} {t : Thread}
    (h : IssuesAlone s i x tm cr j t) (hc : tm.crew? x.crew = some c0) : cr.rejoin = c0.rejoin := by
  obtain ⟨-, ⟨c, hc', rfl⟩, -⟩ := State.issuer_team h.issuer
  cases hc.symm.trans hc'
  rfl

/-! ### Masks (R80, R82) -/

section
variable {s : State} {k : Instr} {x : Issue} {tm : Team} {cr : Crew} {i : Nat} {t : Thread} (h : IssuesAlone s k x tm cr i t)
include h

theorem jinitOp_alone (j : Fin 16) (f : Crew → Nat → Nat → Nat → Nat) : jinitOp k j f s =
    .next (s.started.modJ x.team t.crew t.strand j.val
      (fun r => { r with mask := f cr (liveLanes tm t.crew t.strand) t.lane r.mask }) (s.started.teamBanks x.team)) := by
  unfold jinitOp
  rw [runEach_alone h]
  simp only [h.started_team?]

/-- An update of a rejoin register that leaves it incomplete is all that the instruction does. -/
theorem modJ_alone_completes {c0 : Crew} {j : Nat} {f : Rejoin → Rejoin} {r : Rejoin} {b : Bool} (hc : tm.crew? t.crew = some c0)
    (h1 : t.strand < c0.strands.length) (h2 : j < (c0.strands.getD t.strand []).length) (hn : r.complete = false)
    (he : exec k s = .next (s.started.modJ x.team t.crew t.strand j f b)) (hr : f (c0.rejoin t.strand j) = r) :
    ∃ s', exec k s = .next s' ∧ s'.mem = s.mem ∧ ∃ tm' cr', s'.team? x.team = some tm' ∧ tm'.crew? t.crew = some cr' ∧
      cr'.rejoin t.strand j = r ∧ tm'.threads = tm.threads := by
  subst hr
  refine ⟨_, he, ?_, State.modJ_crew h.started_team? hc h1 h2 hn b⟩
  rw [State.modJ_of h.started_team? hc h1 h2 hn b]
  rfl
end

theorem rejoinMaskInstructionsComplete : Claim.RejoinMaskInstructionsComplete := by
  intro s x tm c0 cr i t c j hc hcrew
  rw [← hcrew] at hc
  refine ⟨fun h h1 h2 hn => ?_, fun h h1 h2 hn => ?_, fun h h1 h2 hn => ?_, fun k h h1 h2 hn => ?_, fun h h1 h2 hn => ?_⟩
  · exact modJ_alone_completes h hc h1 h2 hn ((exec_jinitLive ..).trans (jinitOp_alone h j _)) rfl
  · exact modJ_alone_completes h hc h1 h2 hn ((exec_jinitSelf ..).trans (jinitOp_alone h j _)) rfl
  · exact modJ_alone_completes h hc h1 h2 hn ((exec_jinitClear ..).trans (jinitOp_alone h j _)) rfl
  · exact modJ_alone_completes h hc h1 h2 hn ((exec_jinitK ..).trans (jinitOp_alone h j _)) rfl
  · exact modJ_alone_completes h hc h1 h2 hn ((exec_jleave ..).trans (runEach_alone h _)) rfl

/-! ### Arrival (R81) -/

/-- A thread whose arrival leaves its rejoin incomplete waits in it. -/
theorem State.arrive_of {s : State} {id i j : Nat} {tm : Team} {cr : Crew} {t : Thread} (htm : s.team? id = some tm)
    (ht : tm.threads[i]? = some t) (hc : tm.crew? t.crew = some cr) (h1 : t.strand < cr.strands.length)
    (h2 : j < (cr.strands.getD t.strand []).length)
    (hn : Rejoin.complete { cr.rejoin t.strand j with arr := (cr.rejoin t.strand j).arr ||| 2 ^ t.lane } = false) (b : Bool) :
    (s.arrive id i j b).thr? id i = some { t with status := .joined j } ∧
    ∃ tm' cr', (s.arrive id i j b).team? id = some tm' ∧ tm'.crew? t.crew = some cr' ∧
      cr'.rejoin t.strand j = { cr.rejoin t.strand j with arr := (cr.rejoin t.strand j).arr ||| 2 ^ t.lane } := by
  have hthr : s.thr? id i = some t := by simp [State.thr?, htm, ht]
  have htm' := State.team?_modThr_same htm i fun t => { t with status := .joined j }
  let f : Rejoin → Rejoin := fun r => { r with arr := r.arr ||| 2 ^ t.lane }
  unfold State.arrive
  simp only [hthr]
  obtain ⟨tm'', cr', ht', hcr', hj, -⟩ := State.modJ_crew (f := f) htm' hc h1 h2 hn b
  refine ⟨?_, tm'', cr', ht', hcr', hj⟩
  rw [State.modJ_of (f := f) htm' hc h1 h2 hn b, State.thr?_modCrew, State.thr?_modThr_same, hthr]
  rfl

theorem joinCompletes : Claim.JoinCompletes := by
  intro s x tm c0 cr i t c j h hsec hc hcrew
  have hr := h.rejoin hc
  rw [exec_join, execJoin, runEach_alone h]
  refine ⟨fun hout => ?_, fun hin hpend hwaits _ h1 h2 hn => ?_⟩
  · simp [hsec, hr, hout]
  · rw [← hcrew] at hc
    refine ⟨s.started.arrive x.team i j.val (s.started.teamBanks x.team), ?_, ?_⟩
    · simp [hsec, hr, hin, accessesDone_nil hpend hwaits, hwaits]
    · exact State.arrive_of h.started_team? h.thread hc h1 h2 hn _

/-! ### A complete rejoin (R66, R67) -/

/-- One thread leaves a complete rejoin: it is in a held group, what it sees of K is ordered, and its WAKER says so. -/
def State.leaveRejoin (id : Nat) (ks : List (Nat × Nat)) (banked : Bool) (s : State) (i : Nat) : State :=
  ((s.modThr id i fun t => { t with status := .grouped }).orderK id i ks).setWaker id i 1 banked

/-- The groups `hs` are held, and the arrival set of a rejoin empties. -/
def State.holdGroups (s : State) (id crew str j : Nat) (hs : List Hold) : State :=
  { s with nextId := s.nextId + hs.length, holds := s.holds ++ hs }.modCrew id crew fun c =>
    c.modRejoin str j fun r => { r with arr := 0 }

theorem State.leaveRejoin_crews (id : Nat) (ks : List (Nat × Nat)) (b : Bool) (s : State) (i a : Nat) :
    ((s.leaveRejoin id ks b i).team? a).map Team.crews = (s.team? a).map Team.crews := by
  have keep : ∀ (s : State) f, ((s.modThr id i f).team? a).map Team.crews = (s.team? a).map Team.crews := fun s f => by
    rw [State.team?_modThr, Option.map_map]
    congr 1
    funext tm
    simp only [Function.comp]
    split <;> rfl
  exact ((keep _ _).trans (keep _ _)).trans (keep _ _)

theorem State.leaveRejoin_status (id : Nat) (ks : List (Nat × Nat)) (b : Bool) (s : State) (i k : Nat) :
    ((s.leaveRejoin id ks b i).thr? id k).map Thread.status =
      if k = i then (s.thr? id k).map fun _ => .grouped else (s.thr? id k).map Thread.status := by
  unfold State.leaveRejoin
  rw [setWaker_keeps Thread.status (fun _ _ => rfl), orderK_keeps Thread.status (fun _ _ => rfl)]
  split
  · subst k
    rw [State.thr?_modThr_same, Option.map_map]
    rfl
  · rw [State.thr?_modThr_other _ _ _ _ _ _ (.inr (Ne.symm ‹_›))]

/-- Every thread of the list leaves the rejoin. -/
theorem State.foldl_leaveRejoin_status (id : Nat) (ks : List (Nat × Nat)) (b : Bool) (k : Nat) (ms : List Nat) (s : State) :
    ((ms.foldl (State.leaveRejoin id ks b) s).thr? id k).map Thread.status =
      if k ∈ ms then (s.thr? id k).map fun _ => .grouped else (s.thr? id k).map Thread.status := by
  induction ms generalizing s with
  | nil => simp
  | cons i ms ih =>
    have hi := s.leaveRejoin_status id ks b i k
    have hsome : ((s.leaveRejoin id ks b i).thr? id k).map (fun _ => TStat.grouped) = (s.thr? id k).map fun _ => TStat.grouped := by
      have := congrArg (Option.map fun _ => TStat.grouped) hi
      split at this <;> simpa [Option.map_map, Function.comp_def] using this
    rw [List.foldl_cons, ih, hsome, hi]
    by_cases hk : k ∈ ms <;> simp [hk]

theorem mem_arrived {tm : Team} {crew str j i : Nat} (h : i ∈ arrived tm crew str j) : ∃ t, tm.threads[i]? = some t :=
  ⟨_, List.getElem?_eq_getElem (List.mem_range.1 (List.mem_filter.1 h).1)⟩

section
variable {s : State} {id crew str j : Nat} {tm : Team} {cr : Crew} (htm : s.team? id = some tm) (hcr : tm.crew? crew = some cr)
include htm hcr

theorem State.testJoin_complete (hcomp : (cr.rejoin str j).complete = true) (b : Bool) :
    ∃ ks core kind asid who body, s.testJoin id crew str j b =
      ((arrived tm crew str j).foldl (State.leaveRejoin id ks b)
        (s.holdGroups id crew str j (groupsOf tm crew s.nextId (arrived tm crew str j)))).trace core kind asid who body := by
  unfold State.testJoin
  simp only [htm, hcr, hcomp, not_true_eq_false, if_false]
  exact ⟨_, _, _, _, _, _, rfl⟩

theorem State.holdGroups_rejoin (h1 : str < cr.strands.length) (h2 : j < (cr.strands.getD str []).length) (hs : List Hold) :
    ∃ tm' cr', (s.holdGroups id crew str j hs).team? id = some tm' ∧ tm'.crew? crew = some cr' ∧
      cr'.rejoin str j = { cr.rejoin str j with arr := 0 } := by
  let f : Crew → Crew := fun c => c.modRejoin str j fun r => { r with arr := 0 }
  have hteam := State.team?_modCrew { s with nextId := s.nextId + hs.length, holds := s.holds ++ hs } id id crew f
  have hcrew := tm.crew?_modCrew crew crew f fun _ => rfl
  rw [hcr, Option.map_some, if_pos (Team.crew?_num hcr)] at hcrew
  rw [show State.team? { s with nextId := s.nextId + hs.length, holds := s.holds ++ hs } id = some tm from htm, Option.map_some,
    if_pos (State.team?_id htm)] at hteam
  exact ⟨_, _, hteam, hcrew, cr.rejoin_modRejoin str j _ h1 h2⟩
end

theorem completeRejoinReleases : Claim.CompleteRejoinReleases := by
  intro s id crew str j b tm cr htm hcr hcomp h1 h2
  obtain ⟨ks, core, kind, asid, who, body, hs⟩ := State.testJoin_complete htm hcr hcomp b
  simp only [hs, State.trace_thr?, State.trace_team?, State.trace_mem, State.trace_holds]
  refine ⟨fun i hi => ?_, ?_, ?_, ?_⟩
  · have hst := State.foldl_leaveRejoin_status id ks b i (arrived tm crew str j)
      (s.holdGroups id crew str j (groupsOf tm crew s.nextId (arrived tm crew str j)))
    obtain ⟨t, ht⟩ := mem_arrived hi
    have hthr : s.thr? id i = some t := by simp [State.thr?, htm, ht]
    have hgroup : (s.holdGroups id crew str j (groupsOf tm crew s.nextId (arrived tm crew str j))).thr? id i = some t :=
      (State.thr?_modCrew ..).trans hthr
    rw [if_pos hi, hgroup] at hst
    exact Option.map_eq_some_iff.1 hst
  · exact foldl_keeps State.holds (State.leaveRejoin id ks b) (fun _ _ => rfl) _ _
  · exact foldl_keeps State.mem (State.leaveRejoin id ks b) (fun _ _ => rfl) _ _
  · obtain ⟨tm', cr', htm', hcr', hj⟩ := State.holdGroups_rejoin htm hcr h1 h2 (groupsOf tm crew s.nextId (arrived tm crew str j))
    have hcrews := foldl_keeps (fun s : State => (s.team? id).map Team.crews) (State.leaveRejoin id ks b)
      (fun s i => s.leaveRejoin_crews id ks b i id) (arrived tm crew str j)
      (s.holdGroups id crew str j (groupsOf tm crew s.nextId (arrived tm crew str j)))
    simp only [htm', Option.map_some] at hcrews
    obtain ⟨tm'', htm'', hsame⟩ := Option.map_eq_some_iff.1 hcrews
    refine ⟨tm'', cr', htm'', ?_, by rw [hj], by rw [hj]⟩
    unfold Team.crew? at hcr' ⊢
    rw [hsame, hcr']

/-- Settles O12: an incomplete rejoin register is only updated, and a complete one lets each arrived thread leave in turn. -/
theorem rejoinsComplete : Obligations.RejoinsComplete :=
  ⟨rejoinMaskInstructionsComplete, joinCompletes, completeRejoinReleases⟩

end Sys2Proof.Machine

namespace Sys2Proof.Machine
open Sys2Proof

/-! ## A DRAIN that waits for results (R42, R74) -/

/-- A thread parked under DRAIN waits on while a result of it is in flight, though none of its accesses is. -/
theorem execWaitingInstructionComplete_undrained {s : State} {p : PendRef} {tm : Team} {t : Thread} {cr : Crew} {o : Op} {c : Common}
    {n : BitVec 32} (htm : s.team? p.team = some tm) (ht : tm.threads[p.thr]? = some t) (hcr : tm.crew? t.crew = some cr)
    (hw : t.waits = [o]) (hid : o.id = p.id) (hi : o.i = .nop c n) (hst : o.stage = 1) (hredo : o.redo = false)
    (hd : t.drained = false) : execWaitingInstructionComplete p s = .next s := by
  have hretry : s.retryWait tm p.thr t cr o = s := by
    unfold State.retryWait
    simp [hredo, hi, hst, hd]
  unfold execWaitingInstructionComplete
  simp [htm, ht, hw, hid, hcr, hretry]

/-- A thread parked under DRAIN with one result in flight, due 2 cc from now. -/
def drainingThread : Thread :=
  { Thread.start 0 0 8 64 .ready with wb := [{ due := 2, v := [(4, 7)] }], waits := [drainWait 0] }
/-- A team of that thread alone. -/
def drainingTeam : Team where
  id := 0
  asid := 0
  lot := 0
  lotid := 0
  span := 0
  spanIx := 0
  bandIx := 0
  teamIx := 0
  core := 0
  entry := 64
  lpri := 0
  coresh := 0
  lanesz := 0
  bshare := 0
  tileShare := 0
  slotShare := 0
  crews := [mkCrew 0 0 .general 0 8 0 1 []]
  threads := [drainingThread]
  trapq := []
  cones := []

/-- Refutes O56: it does not ask that no result of the waiting thread is in flight. A thread parked under DRAIN (a NOP wait of stage
1) with no access but one result in flight has not drained (R42), so its wait goes on, where the statement has it end with code 8. -/
theorem not_coreEventsAct : ¬ Obligations.CoreEventsAct := by
  unfold Obligations.CoreEventsAct
  intro h
  let s : State := { State.reset with teams := [drainingTeam] }
  let p : PendRef := ⟨0, 0, 0⟩
  obtain ⟨-, -, hwait, -⟩ := h s
  obtain ⟨hdrain, -⟩ := hwait p drainingTeam drainingThread _ (drainWait 0) rfl rfl rfl rfl rfl rfl rfl rfl rfl rfl rfl rfl rfl
  obtain ⟨s', u, he, -, hu, -, hend, -⟩ := hdrain ⟨_, _, rfl⟩ rfl
  have hstay : exec (.waitingInstructionComplete p) s = .next s :=
    (exec_waitingInstructionComplete ..).trans (execWaitingInstructionComplete_undrained (s := s) (p := p) (tm := drainingTeam)
      (t := drainingThread) (o := drainWait 0) rfl rfl rfl rfl rfl rfl rfl rfl rfl)
  cases hstay.symm.trans he
  cases (show s.thr? 0 0 = some drainingThread from rfl).symm.trans hu
  have hwaits := congrArg Thread.waits hend
  simp [drainingThread] at hwaits

end Sys2Proof.Machine

namespace Sys2Proof.Machine
open Sys2Proof

/-! ## Engine instructions at issue (R225, R267, R442) -/

/-! ### One thread's issue -/

/-- What names a team outside its threads is what it was, in the frame of one thread. -/
theorem State.SameBut.team? {s' s : State} {id j b : Nat} {tm : Team} (h : s'.SameBut s id j) (htm : s.team? b = some tm) :
    ∃ ts, s'.team? b = some { tm with threads := ts } := by
  have hb := h.teams b
  rw [htm, Option.map_some] at hb
  obtain ⟨tm', htm', he⟩ := Option.map_eq_some_iff.1 hb
  refine ⟨tm'.threads, htm'.trans (congrArg some ?_)⟩
  cases tm'
  cases tm
  cases he
  rfl

/-- An update of a team that leaves its name and its threads leaves every thread. -/
theorem State.thr?_modTeam {s : State} {a b i : Nat} {t : Thread} {f : Team → Team} (h : s.thr? b i = some t)
    (hid : ∀ tm : Team, (f tm).id = tm.id) (hthr : ∀ tm : Team, (f tm).threads = tm.threads) :
    (s.modTeam a f).thr? b i = some t := by
  obtain ⟨tm, htm, ht⟩ := Option.bind_eq_some_iff.1 h
  unfold State.thr?
  rw [s.team?_modTeam a b f hid, htm, Option.map_some, Option.bind_some]
  split
  · rwa [hthr]
  · exact ht

theorem State.team?_modTeam_same {s : State} {a : Nat} {tm : Team} (h : s.team? a = some tm) (f : Team → Team)
    (hid : ∀ tm : Team, (f tm).id = tm.id) : (s.modTeam a f).team? a = some (f tm) := by
  rw [s.team?_modTeam a a f hid, h]
  simp [State.team?_id h]

/-- An update of a team that leaves its cones arms none. -/
theorem State.quiet.modTeam {s : State} (h : s.quiet) (a : Nat) {f : Team → Team} (hf : ∀ tm : Team, (f tm).cones = tm.cones) :
    (s.modTeam a f).quiet := by
  intro tm htm c hc
  obtain ⟨tm', htm', rfl⟩ := List.mem_map.1 htm
  refine h tm' htm' c ?_
  split at hc
  · rwa [hf] at hc
  · exact hc
theorem State.quiet.modThr {s : State} (h : s.quiet) (a i : Nat) (f : Thread → Thread) : (s.modThr a i f).quiet :=
  h.modTeam a fun _ => rfl
@[simp] theorem State.started_bytes (s : State) (key n : Nat) : s.started.bytes key n = s.bytes key n := rfl
@[simp] theorem State.started_poisoned (s : State) (key n : Nat) : s.started.poisoned key n = s.poisoned key n := rfl
@[simp] theorem State.started_scratchKey (s : State) (tm : Team) (thr : Nat) (sp : Space) (a : Nat) :
    s.started.scratchKey tm thr sp a = s.scratchKey tm thr sp a := rfl
theorem State.quiet.started {s : State} (h : s.quiet) : s.started.quiet := h

/-- A thread whose operation goes in flight keeps its registers and its batches, and has one operation more. -/
theorem State.pushOp_inFlight {s : State} {x : Issue} {j : Nat} {t : Thread} (h : s.thr? x.team j = some t) (i : Instr)
    (vals : List Nat) (f : Op → Op) :
    ∃ u, (s.pushOp x j i vals f).thr? x.team j = some u ∧ u.v = t.v ∧ u.pend = t.pend ++ [f (mkOp x t i s.nextId vals)] ∧
      u.batches = t.batches := by
  refine ⟨_, State.pushOp_thr? h i vals f, ?_, rfl, ?_⟩ <;> cases setfOf (commonOf i) <;> rfl

/-- A member that waited for room issues with WAKER at most changed (R73, R74). -/
theorem State.wakeRoom_sameBut (s : State) (x : Issue) (j code : Nat) : (s.wakeRoom x j code).SameBut s x.team j := by
  unfold State.wakeRoom
  split
  · exact s.modThr_sameBut ..
  · exact .refl ..
theorem State.wakeRoom_thr? {s : State} {x : Issue} {j : Nat} {t : Thread} (h : s.thr? x.team j = some t) (code : Nat) :
    ∃ r, (s.wakeRoom x j code).thr? x.team j = some { t with sys := r } := by
  unfold State.wakeRoom
  split
  · exact ⟨_, by unfold State.setWaker; rw [State.thr?_modThr_same, h]; rfl⟩
  · exact ⟨t.sys, h⟩
theorem State.quiet.wakeRoom {s : State} (h : s.quiet) (x : Issue) (j code : Nat) : (s.wakeRoom x j code).quiet := by
  unfold State.wakeRoom
  split
  · exact h.modThr _ _ _
  · exact h

/-- An engine instruction of a bound crew whose operands pass their checks goes on (R226, R442). -/
theorem engineOp_alone {s : State} {i : Instr} {x : Issue} {tm : Team} {cr : Crew} {j b : Nat} {t : Thread}
    {opnds : List DWord → Thread → List EngOpnd} (h : IssuesAlone s i x tm cr j t) (hbind : cr.bound b = true)
    (hok : s.started.badOpnd tm j (opnds cr.k t) = none) (go : Issue → Team → Crew → Thread → Nat → State → State) :
    engineOp i (some b) opnds go s = .next (go x tm cr t j s.started) := by
  unfold engineOp
  rw [runEach_alone h]
  simp only [h.started_team?, hbind, hok, Bool.not_true, Bool.false_eq_true, if_false]

/-! ### Q0 (R267, R276 to R280) -/

/-- A command that finds room in Q0 enters it, and is in flight. -/
theorem pushCmd_enters {s : State} {i : Instr} {x : Issue} {tm : Team} {cr : Crew} {j : Nat} {t : Thread} {vals : List Nat}
    {blk : Option MxBlk} (h : IssuesAlone s i x tm cr j t) (hroom : tm.q0.length < 16)
    (he : exec i s = .next (s.started.pushCmd x tm t j i vals blk)) :
    ∃ s' tm' u op cmd, exec i s = .next s' ∧ s'.mem = s.mem ∧ s'.team? x.team = some tm' ∧ tm'.q0 = tm.q0 ++ [cmd] ∧
      cmd.i = i ∧ cmd.vals = vals ∧ cmd.blk = blk ∧ cmd.id = op.id ∧ cmd.o.thr = j ∧ s'.thr? x.team j = some u ∧
      u.v = t.v ∧ u.pend = t.pend ++ [op] ∧ op.i = i ∧ op.res = none ∧ op.dst = writesOf i := by
  obtain ⟨r, ht⟩ := State.wakeRoom_thr? (s := s.started) h.thr 4
  have hsame := (State.pushOp_sameBut _ x j i vals id).trans (s.started.wakeRoom_sameBut x j 4)
  obtain ⟨ts, htm⟩ := hsame.team? h.started_team?
  obtain ⟨u, hu, hv, hpend, -⟩ := State.pushOp_inFlight ht i vals id
  unfold State.pushCmd at he
  rw [if_neg (Nat.not_le.2 hroom)] at he
  exact ⟨_, _, u, _, _, he, hsame.mem, State.team?_modTeam_same htm _ fun _ => rfl, rfl, rfl, rfl, rfl, rfl, rfl,
    State.thr?_modTeam hu (fun _ => rfl) fun _ => rfl, hv, hpend, rfl, rfl, rfl⟩

/-- No access of the thread is in flight: none is to perform before a read made now. -/
theorem State.forceEarlier_nil {s : State} {id i : Nat} {t : Thread} (h : s.thr? id i = some t) (hp : t.pend = []) (key n : Nat) :
    s.forceEarlier id i key n = s := by
  simp [State.forceEarlier, h, hp]

theorem execMmx_alone {s : State} {x : Issue} {tm : Team} {cr : Crew} {j key : Nat} {t : Thread} {c : Common} {a : Src}
    (h : IssuesAlone s (.mmx c a) x tm cr j t) (hbind : cr.bound 1 = true) (hpend : t.pend = [])
    (hok : s.started.badOpnd tm j [⟨.core, srcVal cr.k t false a, 64, 64⟩] = none)
    (hkey : s.scratchKey tm j .core (srcVal cr.k t false a) = .ok key) (hsound : s.poisoned key 64 = false)
    (hblk : mxBlockOk tm cr (mxBlock (srcVal cr.k t false a) (s.bytes key 64)) (s.bytes key 64) = true)
    (hops : s.started.badOpnd tm j (mxOpnds (mxBlock (srcVal cr.k t false a) (s.bytes key 64))) = none) :
    execMmx c a s = .next (s.started.pushCmd x tm t j (.mmx c a) [] (some (mxBlock (srcVal cr.k t false a) (s.bytes key 64)))) := by
  unfold execMmx
  rw [engineOp_alone h hbind hok]
  simp only [State.started_scratchKey, hkey, State.forceEarlier_nil (s := s.started) h.thr hpend, State.started_poisoned, hsound,
    State.started_bytes, hblk, hops, Bool.false_eq_true, not_true_eq_false, if_false]

theorem execMmld_alone {s : State} {x : Issue} {tm : Team} {cr : Crew} {j : Nat} {t : Thread} {c : Common} {o : MmldOp}
    (h : IssuesAlone s (.mmld c o) x tm cr j t) (hbind : cr.bound 1 = true)
    (hok : s.started.badOpnd tm j [⟨.core, srcVal cr.k t false o.a,
      (shapeRows (srcVal cr.k t false o.b) - 1) * shapeStride (srcVal cr.k t false o.b) + mmldRow o, if o.pair then 8 else 4⟩] = none)
    (hshape : shapeOk (srcVal cr.k t false o.b) = true) (hrow : mmldRow o ≤ shapeStride (srcVal cr.k t false o.b))
    (hepi : epiOk (optVal cr.k t false o.ew) o.n.val tm.tileShare (!o.pair) = true) :
    execMmld c o s = .next (s.started.pushCmd x tm t j (.mmld c o)
      [srcVal cr.k t false o.a, srcVal cr.k t false o.b, optVal cr.k t false o.ew]) := by
  unfold execMmld
  rw [engineOp_alone h hbind hok]
  simp only [hshape, Nat.not_lt.2 hrow, hepi, not_true_eq_false, or_self, if_false]

/-- An MMST shows no cone its stores where none is armed. -/
theorem execMmst_alone {s : State} {x : Issue} {tm : Team} {cr : Crew} {j : Nat} {t : Thread} {c : Common} {o : MmstOp}
    (h : IssuesAlone s (.mmst c o) x tm cr j t) (hq : s.quiet) (hbind : cr.bound 1 = true)
    (hok : s.started.badOpnd tm j (match o.bar with
      | some d => [⟨.core, srcVal cr.k t false d, 16, 16⟩] | none => []) = none)
    (hshape : shapeOk (srcVal cr.k t false o.b) = true) :
    execMmst c o s = .next (s.started.pushCmd x tm t j (.mmst c o)
      [srcVal cr.k t o.mem o.a, srcVal cr.k t false o.b, optVal cr.k t false o.bar]) := by
  unfold execMmst
  rw [engineOp_alone h hbind hok]
  simp only [hshape, State.observeIssue_quiet hq.started, ite_self, not_true_eq_false, if_false]

theorem execMmrd_alone {s : State} {x : Issue} {tm : Team} {cr : Crew} {j : Nat} {t : Thread} {c : Common} {o : MmrdOp}
    (h : IssuesAlone s (.mmrd c o) x tm cr j t) (hbind : cr.bound 1 = true)
    (hcol : mmrdCol (srcVal cr.k t false o.b) % 2 ^ o.nw.val = 0) :
    execMmrd c o s = .next (s.started.pushCmd x tm t j (.mmrd c o) [srcVal cr.k t false o.b]) := by
  unfold execMmrd
  rw [engineOp_alone h hbind rfl]
  simp only [hcol, ne_eq, not_true_eq_false, if_false]

/-- Settles O31: once its operands pass their checks, each matrix command is the push of a command to Q0. -/
theorem matrixCommandsEnterQ0 : Obligations.MatrixCommandsEnterQ0 := by
  intro s x tm cr j t c hq hbind hroom
  refine ⟨fun a key h hok hgo => ?_, fun o h hok _ => ?_, fun o h hok hgo => ?_, fun o h hok hshape => ?_, fun o h _ hcol => ?_⟩
  · obtain ⟨hpend, hkey, hsound, hblk, hops⟩ := hgo
    exact pushCmd_enters h hroom ((exec_mmx ..).trans (execMmx_alone h hbind hpend hok hkey hsound hblk hops))
  · exact pushCmd_enters h hroom ((exec_mmzero ..).trans (engineOp_alone h hbind hok _))
  · obtain ⟨hshape, hrow, hepi⟩ := hgo
    exact pushCmd_enters h hroom ((exec_mmld ..).trans (execMmld_alone h hbind hok hshape hrow hepi))
  · exact pushCmd_enters h hroom ((exec_mmst ..).trans (execMmst_alone h hq hbind hok hshape))
  · exact pushCmd_enters h hroom ((exec_mmrd ..).trans (execMmrd_alone h hbind hcol))

end Sys2Proof.Machine

namespace Sys2Proof.Machine
open Sys2Proof

/-! ## The copy instructions (R225 to R227, R229, R236 to R239) -/

/-! ### CPL -/

/-- The slot of a batch counts a copy that joins it (R229). -/
theorem Thread.addCopy_copies {t : Thread} (hlen : t.batches.length = 8) (num : Nat) :
    ((t.addCopy num).batches.getD (num % 8) {}).copies = (t.batches.getD (num % 8) {}).copies + 1 := by
  have hnum : num % 8 < t.batches.length := by omega
  simp [Thread.addCopy, hnum]

/-- The slot of a batch opened for a copy. -/
theorem Thread.newBatch_addCopy {t : Thread} (hlen : t.batches.length = 8) :
    (t.newBatch.addCopy t.nextBatch).batches.getD (t.nextBatch % 8) {} = { num := t.nextBatch, state := 1, copies := 1 } := by
  have hnum : t.nextBatch % 8 < t.batches.length := by omega
  simp [Thread.addCopy, Thread.newBatch, hnum]

/-- The thread once a copy has joined its open batch, or one opened for it (R229). -/
def Thread.withCopy (t : Thread) : Thread :=
  (if t.openBatch.isNone then t.newBatch else t).addCopy (t.openBatch.getD t.nextBatch)

theorem Thread.withCopy_keeps (t : Thread) : t.withCopy.v = t.v ∧ t.withCopy.pend = t.pend := by
  unfold Thread.withCopy
  split <;> exact ⟨rfl, rfl⟩

theorem Thread.withCopy_sys (t : Thread) (r : SysRegs) : { t with sys := r }.withCopy.batches = t.withCopy.batches := by
  have hopen : Thread.openBatch { t with sys := r } = t.openBatch := rfl
  unfold Thread.withCopy
  rw [hopen]
  split <;> rfl

theorem Thread.withCopy_opens {t : Thread} (hlen : t.batches.length = 8) (hopen : t.openBatch = none) :
    t.withCopy.batches.getD (t.openBatch.getD t.nextBatch % 8) {} = { num := t.nextBatch, state := 1, copies := 1 } := by
  unfold Thread.withCopy
  rw [hopen]
  exact Thread.newBatch_addCopy hlen

theorem Thread.withCopy_counts {t : Thread} (hlen : t.batches.length = 8) (hopen : t.openBatch ≠ none) :
    (t.withCopy.batches.getD (t.openBatch.getD t.nextBatch % 8) {}).copies =
      (t.batches.getD (t.openBatch.getD t.nextBatch % 8) {}).copies + 1 := by
  obtain ⟨q, hq⟩ := Option.ne_none_iff_exists'.1 hopen
  unfold Thread.withCopy
  rw [hq]
  exact Thread.addCopy_copies hlen q

theorem execCpl_alone {s : State} {x : Issue} {tm : Team} {cr : Crew} {j : Nat} {t : Thread} {c : Common} {o : CplOp}
    (h : IssuesAlone s (.cpl c o) x tm cr j t) (hbind : cr.bound 0 = true) (hfull : t.batchFull = false)
    (hok : s.started.badOpnd tm j (⟨o.dsp, (cplVals cr.k t o).d, (cplVals cr.k t o).size, (cplVals cr.k t o).size⟩ ::
      (if (cplVals cr.k t o).v = 0 then [] else
        [⟨o.ssp, (cplVals cr.k t o).a, (cplVals cr.k t o).v, (cplVals cr.k t o).size⟩])) = none) :
    execCpl c o s = .next ((s.started.wakeRoom x j 14).acceptCpl x tm t j (.cpl c o) o (cplVals cr.k t o)) := by
  unfold execCpl
  rw [engineOp_alone h hbind hok]
  simp only [hfull, Bool.false_eq_true, if_false]

/-- A copy of thread j, `t` as it issues, joins a batch. -/
def State.joinBatch (s : State) (id j : Nat) (t : Thread) : State :=
  (if t.openBatch.isNone then s.modThr id j Thread.newBatch else s).modThr id j fun u => u.addCopy (t.openBatch.getD t.nextBatch)

theorem State.joinBatch_sameBut (s : State) (id j : Nat) (t : Thread) : (s.joinBatch id j t).SameBut s id j := by
  refine (State.modThr_sameBut ..).trans ?_
  split
  · exact s.modThr_sameBut ..
  · exact .refl ..
theorem State.quiet.joinBatch {s : State} (h : s.quiet) (id j : Nat) (t : Thread) : (s.joinBatch id j t).quiet := by
  refine State.quiet.modThr ?_ _ _ _
  split
  · exact h.modThr _ _ _
  · exact h
/-- The thread may have a WAKER of its own by then. -/
theorem State.joinBatch_thr? {s : State} {id j : Nat} {t : Thread} {r : SysRegs} (h : s.thr? id j = some { t with sys := r }) :
    (s.joinBatch id j t).thr? id j = some { t with sys := r }.withCopy := by
  have hopen : Thread.openBatch { t with sys := r } = t.openBatch := rfl
  unfold State.joinBatch Thread.withCopy
  rw [State.thr?_modThr_same, hopen]
  split
  · rw [State.thr?_modThr_same, h]
    rfl
  · rw [h]
    rfl

/-- A copy that has been accepted shows no armed cone its bytes, and its instruction is in flight, performed (R225). -/
theorem State.pushDone_quiet {s : State} {x : Issue} {j : Nat} {tm : Team} {t : Thread} (hq : s.quiet)
    (htm : s.team? x.team = some tm) (ht : s.thr? x.team j = some t) (t0 : Thread) (e : Option ConeEv) (i : Instr) :
    ∃ ts u op, ((s.observeIssue x j t0 e).pushDone x j i).mem = s.mem ∧
      ((s.observeIssue x j t0 e).pushDone x j i).team? x.team = some { tm with threads := ts } ∧
      ((s.observeIssue x j t0 e).pushDone x j i).thr? x.team j = some u ∧ u.v = t.v ∧ u.pend = t.pend ++ [op] ∧ op.i = i ∧
      op.res = some [] ∧ u.batches = t.batches := by
  rw [State.observeIssue_quiet hq]
  have hsame := s.pushOp_sameBut x j i [] fun o => { o with res := some [] }
  obtain ⟨ts, htm'⟩ := hsame.team? htm
  obtain ⟨u, hu, hv, hpend, hbs⟩ := State.pushOp_inFlight ht i [] fun o => { o with res := some [] }
  exact ⟨ts, u, _, hsame.mem, htm', hu, hv, hpend, rfl, rfl, hbs⟩

/-- The copy that a CPL asks for. -/
def State.cplCopyOf (s : State) (x : Issue) (tm : Team) (t : Thread) (j : Nat) (o : CplOp) (q : CplVals) : CplCopy :=
  { id := s.nextId, o := originOf tm x t j, num := t.openBatch.getD t.nextBatch, size := q.size, v := q.v, dsp := o.dsp, d := q.d
    ssp := o.ssp, a := q.a, dkey := s.opndKey tm j o.dsp q.d, akey := if q.v = 0 then none else s.opndKey tm j o.ssp q.a }
/-- The team with one per-lane copy more. -/
def Team.addCpl (cp : CplCopy) (tm : Team) : Team := { tm with cpls := tm.cpls ++ [cp] }

theorem State.acceptCpl_eq (s : State) (x : Issue) (tm : Team) (t : Thread) (j : Nat) (i : Instr) (o : CplOp) (q : CplVals) :
    s.acceptCpl x tm t j i o q =
      ((State.modTeam { s.joinBatch x.team j t with nextId := s.nextId + 1 } x.team
        (Team.addCpl (s.cplCopyOf x tm t j o q))).observeIssue x j t
          (some (.mem 3 (some (spaceNum o.dsp)) q.d (q.d + q.size - 1) none))).pushDone x j i := rfl

/-- A CPL that is accepted joins the copies of its team and a batch of its thread, and is in flight. -/
theorem State.acceptCpl_joins {s : State} {x : Issue} {tm tm0 : Team} {j : Nat} {t : Thread} {r : SysRegs} (hq : s.quiet)
    (htm : s.team? x.team = some tm0) (ht : s.thr? x.team j = some { t with sys := r }) (i : Instr) (o : CplOp) (q : CplVals) :
    ∃ tm' u op, (s.acceptCpl x tm t j i o q).mem = s.mem ∧ (s.acceptCpl x tm t j i o q).team? x.team = some tm' ∧
      tm'.cpls = tm0.cpls ++ [s.cplCopyOf x tm t j o q] ∧ (s.acceptCpl x tm t j i o q).thr? x.team j = some u ∧ u.v = t.v ∧
      u.pend = t.pend ++ [op] ∧ op.i = i ∧ op.res = some [] ∧ u.batches = t.withCopy.batches := by
  have hsame := s.joinBatch_sameBut x.team j t
  obtain ⟨ts, htm2⟩ := hsame.team? htm
  let s2 : State := { s.joinBatch x.team j t with nextId := s.nextId + 1 }
  let f := Team.addCpl (s.cplCopyOf x tm t j o q)
  have hq3 : (s2.modTeam x.team f).quiet := State.quiet.modTeam (hq.joinBatch x.team j t) _ fun _ => rfl
  have htm3 : (s2.modTeam x.team f).team? x.team = some (f { tm0 with threads := ts }) :=
    State.team?_modTeam_same htm2 f fun _ => rfl
  have ht3 : (s2.modTeam x.team f).thr? x.team j = some { t with sys := r }.withCopy :=
    State.thr?_modTeam (State.joinBatch_thr? ht) (fun _ => rfl) fun _ => rfl
  obtain ⟨ts', u, op, hmem, htm', hu, hv, hpend, hi, hres, hbs⟩ := State.pushDone_quiet hq3 htm3 ht3 t
    (some (.mem 3 (some (spaceNum o.dsp)) q.d (q.d + q.size - 1) none)) i
  have hkeep := Thread.withCopy_keeps { t with sys := r }
  rw [State.acceptCpl_eq]
  exact ⟨_, u, op, hmem.trans hsame.mem, htm', rfl, hu, hv.trans hkeep.1, hpend.trans (congrArg (· ++ _) hkeep.2), hi, hres,
    hbs.trans (Thread.withCopy_sys t r)⟩

/-! ### A store and the teams -/

/-- A store changes the monitors of threads, and only where one is armed (R175, R177). -/
structure OnlyMon (h : Team → Thread → Thread) : Prop where
  keeps : ∀ tm t, ∃ m, h tm t = { t with mon := m }
  unarmed : ∀ tm t, t.mon = none → h tm t = t

theorem Thread.loseMon_only (f : Nat → Bool) (t : Thread) :
    (∃ m, t.loseMon f = { t with mon := m }) ∧ (t.mon = none → t.loseMon f = t) := by
  unfold Thread.loseMon
  refine ⟨?_, fun h => by rw [h]⟩
  split
  · split
    · exact ⟨_, rfl⟩
    · exact ⟨t.mon, rfl⟩
  · exact ⟨t.mon, rfl⟩
theorem Thread.seeWrite_only (key n : Nat) (t : Thread) :
    (∃ m, t.seeWrite key n = { t with mon := m }) ∧ (t.mon = none → t.seeWrite key n = t) := by
  unfold Thread.seeWrite
  refine ⟨?_, fun h => by rw [h]⟩
  split
  · split
    · exact ⟨_, rfl⟩
    · exact ⟨t.mon, rfl⟩
  · exact ⟨t.mon, rfl⟩

/-- A team with its threads changed one by one. -/
def Team.mapThreads (g : Thread → Thread) (tm : Team) : Team := { tm with threads := tm.threads.map g }

theorem State.write_teams (s : State) (key : Nat) (bs : List Byte) :
    (s.write key bs).teams = s.teams.map (Team.mapThreads (Thread.seeWrite key bs.length)) := by
  unfold State.write
  rw [State.voidDogs_teams]
  exact congrArg (List.map _) ((State.cleanUnits_teams ..).trans (State.bumpTags_teams ..))
/-- A block of a team's core is on a line that a write of n bytes returns to its home (R177). -/
def State.lostTo (s : State) (key n : Nat) (tm : Team) (b : Nat) : Bool :=
  s.checkouts.any fun c => Checkout.touches key n c && c.core == tm.core && b == c.line * 128

theorem State.store_teams (s : State) (key : Nat) (bs : List Byte) :
    ∃ h, OnlyMon h ∧ (s.store key bs).teams = s.teams.map fun tm => tm.mapThreads (h tm) := by
  let lost := s.lostTo key bs.length
  refine ⟨fun tm t => (t.loseMon (lost tm)).seeWrite key bs.length, ⟨fun tm t => ?_, fun tm t ht => ?_⟩, ?_⟩
  · obtain ⟨m, hm⟩ := (t.loseMon_only (lost tm)).1
    rw [hm]
    obtain ⟨m', hm'⟩ := (Thread.seeWrite_only key bs.length { t with mon := m }).1
    exact ⟨m', hm'⟩
  · rw [(t.loseMon_only (lost tm)).2 ht, (t.seeWrite_only key bs.length).2 ht]
  · unfold State.store
    rw [State.write_teams, show (s.recall key bs.length).teams = s.teams.map fun tm => tm.mapThreads (Thread.loseMon (lost tm)) from
      rfl]
    simp [Team.mapThreads, Function.comp_def]

section
variable {s : State} (key : Nat) (bs : List Byte)

theorem State.store_team? {b : Nat} {tm : Team} (htm : s.team? b = some tm) :
    ∃ h, OnlyMon h ∧ (s.store key bs).team? b = some (tm.mapThreads (h tm)) := by
  obtain ⟨h, hh, ht⟩ := s.store_teams key bs
  refine ⟨h, hh, ?_⟩
  have hfind := find_map_same b (fun tm => tm.mapThreads (h tm)) (fun _ => rfl) s.teams
  rw [← ht, show s.teams.find? (fun t => t.id == b) = some tm from htm] at hfind
  exact hfind

/-- A thread keeps all but its monitor across a store. -/
theorem State.store_thr? {b i : Nat} {t : Thread} (ht : s.thr? b i = some t) :
    ∃ m, (s.store key bs).thr? b i = some { t with mon := m } ∧ (t.mon = none → m = none) := by
  obtain ⟨tm, htm, hi⟩ := Option.bind_eq_some_iff.1 ht
  obtain ⟨h, hh, htm'⟩ := s.store_team? key bs htm
  obtain ⟨m, hm⟩ := hh.keeps tm t
  refine ⟨m, ?_, fun h0 => ?_⟩
  · unfold State.thr?
    rw [htm', ← hm]
    simp [hi, Team.mapThreads]
  · exact (congrArg Thread.mon (hm.symm.trans (hh.unarmed tm t h0))).trans h0

theorem State.quiet.store (h : s.quiet) : (s.store key bs).quiet := by
  obtain ⟨g, -, ht⟩ := s.store_teams key bs
  intro tm htm c hc
  rw [ht] at htm
  obtain ⟨tm', htm', rfl⟩ := List.mem_map.1 htm
  exact h tm' htm' c hc
end

/-! ### CPT, CPM and CPG -/

/-- A tile copy but for which MAP words have been zeroed (R236). -/
def TileCopy.butZeroed (q : TileCopy) : TileCopy := { q with recvs := q.recvs.map fun v => { v with zeroed := false } }

/-- The team once the MAP words of a receiver of a copy are zeroed. -/
def Team.noteZeroed (c : TileCopy) (r : Nat) (tm : Team) : Team :=
  { tm with copies := tm.copies.map fun q =>
      if q.id = c.id then { q with recvs := q.recvs.map fun v => if v.team = r then { v with zeroed := true } else v } else q }
theorem Team.noteZeroed_copy {tm : Team} {q : TileCopy} (h : q ∈ tm.copies) (c : TileCopy) (r : Nat) :
    ∃ q' ∈ (tm.noteZeroed c r).copies, q'.butZeroed = q.butZeroed := by
  refine ⟨_, List.mem_map_of_mem h, ?_⟩
  split
  · simp only [TileCopy.butZeroed, List.map_map]
    congr 1
    refine List.map_congr_left fun v _ => ?_
    dsimp only [Function.comp_apply]
    split <;> rfl
  · rfl

/-- Copy `c` stands among those of its team, its MAP words zeroed or not, and thread j is `t` but for its monitor. -/
structure State.Accepted (s : State) (id j : Nat) (c : TileCopy) (t : Thread) : Prop where
  calm : s.quiet
  copy : ∃ tm, s.team? id = some tm ∧ ∃ q ∈ tm.copies, q.butZeroed = c.butZeroed
  thread : ∃ m, s.thr? id j = some { t with mon := m }

section
variable {s : State} {id j : Nat} {c : TileCopy} {t : Thread} (h : s.Accepted id j c t)
include h

theorem State.Accepted.store (key : Nat) (bs : List Byte) : (s.store key bs).Accepted id j c t := by
  obtain ⟨tm, htm, hcopy⟩ := h.copy
  obtain ⟨m, hm⟩ := h.thread
  obtain ⟨g, -, htm'⟩ := s.store_team? key bs htm
  obtain ⟨m', hm', -⟩ := s.store_thr? key bs hm
  exact ⟨h.calm.store key bs, ⟨_, htm', hcopy⟩, m', hm'⟩
theorem State.Accepted.noteZeroed (d : TileCopy) (r : Nat) : (s.modTeam id (Team.noteZeroed d r)).Accepted id j c t := by
  obtain ⟨tm, htm, q, hq, hc⟩ := h.copy
  obtain ⟨m, hm⟩ := h.thread
  obtain ⟨q', hq', hsame⟩ := Team.noteZeroed_copy hq d r
  exact ⟨h.calm.modTeam id fun _ => rfl, ⟨_, State.team?_modTeam_same htm _ fun _ => rfl, q', hq', hsame.trans hc⟩, m,
    State.thr?_modTeam hm (fun _ => rfl) fun _ => rfl⟩
theorem State.Accepted.zeroMap (d : TileCopy) (r : Nat) : (s.zeroMap id d r).Accepted id j c t := by
  unfold State.zeroMap
  split
  · exact (h.store ..).noteZeroed d r
  · exact h.noteZeroed d r
theorem State.Accepted.zeroMaps (d : TileCopy) (rs : List Recv) :
    (rs.foldl (fun s r => s.zeroMap id d r.team) s).Accepted id j c t := by
  induction rs generalizing s with
  | nil => exact h
  | cons r rs ih => exact ih (h.zeroMap d r.team)
end

/-- The team with one tile copy more, if that has a receiver. -/
def Team.addTile (c : TileCopy) (tm : Team) : Team :=
  { tm with copies := if c.recvs.isEmpty then tm.copies else tm.copies ++ [c] }
/-- A tile copy joins those of the team in whose hand the word is. -/
def State.addTile (s : State) (x : Issue) (c : TileCopy) : State :=
  State.modTeam { s with nextId := s.nextId + 1 } x.team (Team.addTile c)

theorem State.acceptTile_eq (s : State) (x : Issue) (t : Thread) (j : Nat) (i : Instr) (c : TileCopy) :
    s.acceptTile x t j i c =
      ((if Config.freeBit s.tick 6 then c.recvs.foldl (fun s r => s.zeroMap x.team c r.team) (s.addTile x c)
        else s.addTile x c).observeIssue x j t c.coneEv).pushDone x j i := rfl

theorem State.addTile_accepted {s : State} {x : Issue} {tm : Team} {j : Nat} {t : Thread} {c : TileCopy} (hq : s.quiet)
    (htm : s.team? x.team = some tm) (ht : s.thr? x.team j = some t) (hrecv : c.recvs.isEmpty = false) :
    (s.addTile x c).Accepted x.team j c t where
  calm := State.quiet.modTeam (s := { s with nextId := s.nextId + 1 }) hq x.team fun _ => rfl
  copy := ⟨_, State.team?_modTeam_same (s := { s with nextId := s.nextId + 1 }) htm _ fun _ => rfl, c,
    by simp [Team.addTile, hrecv], rfl⟩
  thread := ⟨t.mon, State.thr?_modTeam (s := { s with nextId := s.nextId + 1 }) ht (fun _ => rfl) fun _ => rfl⟩

/-- A tile copy with a receiver that is accepted stands among those of its team, and its instruction is in flight. -/
theorem State.acceptTile_stands {s : State} {x : Issue} {tm : Team} {j : Nat} {t : Thread} (hq : s.quiet)
    (htm : s.team? x.team = some tm) (ht : s.thr? x.team j = some t) (i : Instr) {c : TileCopy} (hrecv : c.recvs.isEmpty = false) :
    ∃ tm' cp u op, (s.acceptTile x t j i c).team? x.team = some tm' ∧ cp ∈ tm'.copies ∧ cp.butZeroed = c.butZeroed ∧
      (s.acceptTile x t j i c).thr? x.team j = some u ∧ u.v = t.v ∧ u.pend = t.pend ++ [op] ∧ op.i = i ∧ op.res = some [] := by
  have hadd := State.addTile_accepted hq htm ht hrecv
  obtain ⟨s2, hs2, h2⟩ : ∃ s2, (if Config.freeBit s.tick 6 then c.recvs.foldl (fun s r => s.zeroMap x.team c r.team) (s.addTile x c)
      else s.addTile x c) = s2 ∧ s2.Accepted x.team j c t := by
    split
    · exact ⟨_, rfl, hadd.zeroMaps c c.recvs⟩
    · exact ⟨_, rfl, hadd⟩
  obtain ⟨tm', htm', cp, hcp, hsame⟩ := h2.copy
  obtain ⟨m, hm⟩ := h2.thread
  obtain ⟨ts, u, op, -, htm'', hu, hv, hpend, hi, hres, -⟩ := State.pushDone_quiet h2.calm htm' hm t c.coneEv i
  rw [State.acceptTile_eq, hs2]
  exact ⟨_, cp, u, op, htm'', hcp, hsame, hu, hv, hpend, hi, hres⟩

/-- The tile copy that a CPT, CPM or CPG asks for. -/
def State.tileCopyOf (s : State) (x : Issue) (tm : Team) (t : Thread) (j : Nat) (q : TileOpnds) (h : Shape) (rs : List Nat) :
    TileCopy :=
  { id := s.nextId, o := originOf tm x t j, kind := q.kind, st := q.st, bar := q.bar, post := q.post, sh := h
    xs := (List.range 5).map fun k => if k < h.ndim then toSigned 32 (t.v32 (q.a + k)) else 0
    d := q.d, land := q.b, list := q.c, recvs := rs.map fun r => ⟨r, 0, false⟩ }

theorem State.tileCopyOf_xs {s : State} {x : Issue} {tm : Team} {t : Thread} {j : Nat} {q : TileOpnds} {h : Shape} {rs : List Nat}
    (hdim : h.ndim ≤ 5) {k : Nat} (hk : k < h.ndim) :
    (s.tileCopyOf x tm t j q h rs).xs.getD k 0 = toSigned 32 (t.v32 (q.a + k)) := by
  have hk5 : k < 5 := Nat.lt_of_lt_of_le hk hdim
  simp [State.tileCopyOf, hk, hk5]

/-- The receivers of a copy that has just been asked for, zeroed or not. -/
theorem State.tileCopyOf_recvs {s : State} {x : Issue} {tm : Team} {t : Thread} {j : Nat} {q : TileOpnds} {h : Shape} {rs : List Nat}
    {cp : TileCopy} (hsame : cp.butZeroed = (s.tileCopyOf x tm t j q h rs).butZeroed) :
    cp.recvs.map (fun r => r.team) = rs ∧ ∀ r ∈ cp.recvs, r.done = 0 := by
  have hrecvs : cp.recvs.map (fun v => { v with zeroed := false }) = rs.map fun r => (⟨r, 0, false⟩ : Recv) := by
    have := congrArg TileCopy.recvs hsame
    simpa [TileCopy.butZeroed, State.tileCopyOf, Function.comp_def] using this
  refine ⟨by simpa [Function.comp_def] using congrArg (List.map Recv.team) hrecvs, fun r hr => ?_⟩
  have hmem : { r with zeroed := false } ∈ rs.map fun r => (⟨r, 0, false⟩ : Recv) := hrecvs ▸ List.mem_map_of_mem hr
  obtain ⟨a, -, ha⟩ := List.mem_map.1 hmem
  exact (congrArg Recv.done ha).symm

theorem tileOp_alone {s : State} {i : Instr} {x : Issue} {tm : Team} {cr : Crew} {j : Nat} {t : Thread}
    {vals : List DWord → Thread → TileOpnds} {h : Shape} {rs : List Nat} (hi : IssuesAlone s i x tm cr j t)
    (hbind : cr.bound 0 = true) (hsh : tm.shapes.getD (vals cr.k t).slot none = some h)
    (hrecv : (if (vals cr.k t).kind = 2 then s.cpmTeams tm (vals cr.k t).c else some [tm.id]) = some rs)
    (hd : (vals cr.k t).d % 16 = 0)
    (hok : s.started.badOpnd tm j (⟨.core, (vals cr.k t).b, 48, 16⟩ ::
      if (vals cr.k t).kind = 3 then [⟨.core, (vals cr.k t).c, 1, 4⟩] else []) = none)
    (hlate : s.started.tileLate tm (vals cr.k t) h = none) :
    tileOp i vals s = .next (s.started.acceptTile x t j i (s.tileCopyOf x tm t j (vals cr.k t) h rs)) := by
  have hrecv' : (if (vals cr.k t).kind = 2 then s.started.cpmTeams tm (vals cr.k t).c else some [tm.id]) = some rs := hrecv
  unfold tileOp
  rw [runEach_alone hi]
  simp only [hi.started_team?, hbind, hd, hok, hrecv', hsh, hlate, ne_eq, not_true_eq_false, if_false]
  rfl

/-- An instruction that accepts the tile copy it asks for has that copy stand with its parameters. -/
theorem acceptTile_issues {s : State} {i : Instr} {x : Issue} {tm : Team} {cr : Crew} {j : Nat} {t : Thread} {q : TileOpnds}
    {h : Shape} {rs : List Nat} (hi : IssuesAlone s i x tm cr j t) (hq : s.quiet) (hrs : rs ≠ []) (hdim : h.ndim ≤ 5)
    (he : exec i s = .next (s.started.acceptTile x t j i (s.tileCopyOf x tm t j q h rs))) :
    ∃ s' tm' cp u op, exec i s = .next s' ∧ s'.team? x.team = some tm' ∧ cp ∈ tm'.copies ∧
      cp.kind = q.kind ∧ cp.st = q.st ∧ cp.bar = q.bar ∧ cp.post = q.post ∧ cp.sh = h ∧ cp.d = q.d ∧ cp.land = q.b ∧
      cp.list = q.c ∧ cp.recvs.map (fun r => r.team) = rs ∧ (∀ r ∈ cp.recvs, r.done = 0) ∧
      (∀ k < h.ndim, cp.xs.getD k 0 = toSigned 32 (t.v32 (q.a + k))) ∧
      s'.thr? x.team j = some u ∧ u.v = t.v ∧ u.pend = t.pend ++ [op] ∧ op.i = i ∧ op.res = some [] := by
  have hrecv : (s.tileCopyOf x tm t j q h rs).recvs.isEmpty = false := by simp [State.tileCopyOf, hrs]
  obtain ⟨tm', cp, u, op, htm', hcp, hsame, hu, hv, hpend, hop, hres⟩ :=
    State.acceptTile_stands hq.started hi.started_team? hi.thr i hrecv
  obtain ⟨hteams, hdone⟩ := State.tileCopyOf_recvs hsame
  have field : ∀ {γ : Type} (g : TileCopy → γ), (∀ c : TileCopy, g c.butZeroed = g c) →
      g cp = g (s.tileCopyOf x tm t j q h rs) := fun g hg => (hg cp).symm.trans ((congrArg g hsame).trans (hg _))
  exact ⟨_, tm', cp, u, op, he, htm', hcp, field TileCopy.kind fun _ => rfl, field TileCopy.st fun _ => rfl,
    field TileCopy.bar fun _ => rfl, field TileCopy.post fun _ => rfl, field TileCopy.sh fun _ => rfl, field TileCopy.d fun _ => rfl,
    field TileCopy.land fun _ => rfl, field TileCopy.list fun _ => rfl, hteams, hdone,
    fun k hk => (congrArg (·.getD k 0) (field TileCopy.xs fun _ => rfl)).trans (State.tileCopyOf_xs hdim hk), hu, hv, hpend, hop,
    hres⟩

/-- Settles O27: an accepted CPL joins a batch and its team's copies; an accepted tile copy stands among them with its parameters,
whether or not its MAP words are zeroed at once. -/
theorem copyInstructionsIssue : Obligations.CopyInstructionsIssue := by
  intro s x tm cr j t c hq hbind
  refine ⟨fun o h hfull hlen hok => ?_, fun i q sh rs h hkind hsh hdim _ _ hd hok hlate => ?_⟩
  · have hsame := s.started.wakeRoom_sameBut x j 14
    obtain ⟨r, ht⟩ := State.wakeRoom_thr? (s := s.started) h.thr 14
    obtain ⟨ts, htm⟩ := hsame.team? h.started_team?
    obtain ⟨tm', u, op, hmem, htm', hcpls, hu, hv, hpend, hop, hres, hbs⟩ := State.acceptCpl_joins (tm := tm)
      (hq.started.wakeRoom x j 14) htm ht (.cpl c o) o (cplVals cr.k t o)
    refine ⟨_, tm', _, u, op, (exec_cpl ..).trans (execCpl_alone h hbind hfull hok), hmem.trans hsame.mem, htm', hcpls, rfl, rfl, rfl,
      rfl, rfl, hu, hv, hpend, hop, hres, fun hopen => ?_, fun hopen => ?_⟩
    · rw [hbs]
      exact (Thread.withCopy_opens hlen hopen).trans (by simp [State.cplCopyOf, hopen])
    · rw [hbs]
      exact Thread.withCopy_counts hlen hopen
  · have hid : tm.id = x.team := State.team?_id h.started_team?
    rcases hkind with ⟨o, rfl, rfl, rfl⟩ | ⟨o, rfl, rfl, hrs, hne⟩ | ⟨o, rfl, rfl, rfl⟩
    · exact acceptTile_issues h hq (List.cons_ne_nil _ _) hdim
        ((exec_cpt ..).trans (tileOp_alone h hbind hsh (by simp [hid]) hd hok hlate))
    · exact acceptTile_issues h hq hne hdim ((exec_cpm ..).trans (tileOp_alone h hbind hsh (by simpa using hrs) hd hok hlate))
    · exact acceptTile_issues h hq (List.cons_ne_nil _ _) hdim
        ((exec_cpg ..).trans (tileOp_alone h hbind hsh (by simp [hid]) hd hok hlate))

end Sys2Proof.Machine

namespace Sys2Proof.Machine
open Sys2Proof

/-! ## Inspection (R401, R405 to R409) -/

/-! ### Debug instructions in flight -/

/-- No CONESET of the thread is in flight. -/
def Thread.ConesetFree (t : Thread) : Prop := ∀ o ∈ t.pend, ∀ c q, o.i ≠ .coneset c q

theorem foldl_fixed {α β : Type} {f : α → β → α} {a : α} (l : List β) (h : ∀ b ∈ l, f a b = a) : l.foldl f a = a := by
  induction l with
  | nil => rfl
  | cons b l ih => rw [List.foldl_cons, h b List.mem_cons_self, ih fun c hc => h c (List.mem_cons_of_mem b hc)]

/-- Then nothing is to act before the thread's next debug instruction (R401). -/
theorem State.armPending_clear {s : State} {id j : Nat} {t : Thread} (ht : s.thr? id j = some t) (hclear : t.ConesetFree) :
    s.armPending id j = s := by
  unfold State.armPending
  rw [ht]
  refine foldl_fixed t.pend fun o ho => ?_
  split
  · exact absurd ‹o.i = _› (hclear o ho _ _)
  · rfl

/-- The operation of a debug instruction in flight: whether it has acted, what it delivers and its predicate (R401). -/
theorem gives_pushActed {s : State} {i : Instr} {x : Issue} {j : Nat} {t : Thread} {ws : List (Nat × Word)} {p : PReg} {ok : Bool}
    (he : exec i s = .next (s.started.pushActed x j i ws p ok)) (ht : s.thr? x.team j = some t) :
    Gives i s x.team j (t.withOp s x i [b2n ok] fun q => { q with res := some ws, pdst := if p.val = 7 then none else some p.val }) :=
  ⟨_, he, ⟨_, State.pushOp_thr? (s := s.started) ht .., rfl, fun _ => rfl⟩,
    (State.pushOp_sameBut ..).trans (s.started_sameBut ..)⟩

/-! ### INSPR -/

section
variable {s : State} {x : Issue} {tm : Team} {cr : Crew} {j : Nat} {t : Thread} {c : Common}

theorem execInspr_refused {o : InsprOp} (h : IssuesAlone s (.inspr c o) x tm cr j t) (hclear : t.ConesetFree)
    (hno : ∀ it, itemOf (srcVal cr.k t false o.b) o.wide = some it →
      s.started.itemOk tm cr j (tm.selectReg (srcVal cr.k t false o.a)) o.wide it = false) :
    execInspr c o s = .next (s.started.pushActed x j (.inspr c o) [] o.p false) := by
  unfold execInspr
  rw [runEach_alone h]
  simp only [State.armPending_clear (s := s.started) h.thr hclear, h.started_team?]
  split
  · rename_i it hit
    rw [hno it hit]
    rfl
  · rfl

theorem execInspr_delivers {o : InsprOp} {it : Item} (h : IssuesAlone s (.inspr c o) x tm cr j t) (hclear : t.ConesetFree)
    (hit : itemOf (srcVal cr.k t false o.b) o.wide = some it)
    (hok : s.started.itemOk tm cr j (tm.selectReg (srcVal cr.k t false o.a)) o.wide it = true) :
    execInspr c o s = .next (s.started.pushActed x j (.inspr c o) (vPut o.wide o.d.val
      (s.started.itemVal tm ((tm.selectReg (srcVal cr.k t false o.a)).getD j) (x.t0 + x.now) o.wide it)) o.p true) := by
  unfold execInspr
  rw [runEach_alone h]
  simp only [State.armPending_clear (s := s.started) h.thr hclear, h.started_team?, hit, hok, if_true]

/-! ### INSPW -/

theorem execInspw_refused {o : InspwOp} (h : IssuesAlone s (.inspw c o) x tm cr j t) (hclear : t.ConesetFree)
    (hno : ∀ it, itemOf (srcVal cr.k t false o.b) o.wide = some it → tm.selectReg (srcVal cr.k t false o.a) ≠ none →
      (s.started.itemOk tm cr j (tm.selectReg (srcVal cr.k t false o.a)) o.wide it && itemWritable (srcVal cr.k t o.wide o.c) it) =
        false) :
    execInspw c o s = .next (s.started.pushActed x j (.inspw c o) [] o.d false) := by
  unfold execInspw
  rw [runEach_alone h]
  simp only [State.armPending_clear (s := s.started) h.thr hclear, h.started_team?]
  split
  · rename_i hit htgt _
    rw [hno _ hit (by simp [htgt])]
    simp
  · rfl

theorem execInspw_writes {o : InspwOp} {it : Item} {k : Nat} {u : Thread} (h : IssuesAlone s (.inspw c o) x tm cr j t)
    (hclear : t.ConesetFree) (hit : itemOf (srcVal cr.k t false o.b) o.wide = some it)
    (htgt : tm.selectReg (srcVal cr.k t false o.a) = some k) (hu : tm.threads[k]? = some u)
    (hok : s.started.itemOk tm cr j (some k) o.wide it = true) (hw : itemWritable (srcVal cr.k t o.wide o.c) it = true) :
    execInspw c o s = .next (((s.started.putItem tm k u o.wide (srcVal cr.k t o.wide o.c) it).markEdit tm k).pushActed x j
      (.inspw c o) [] o.d true) := by
  unfold execInspw
  rw [runEach_alone h]
  simp only [State.armPending_clear (s := s.started) h.thr hclear, h.started_team?, hit, htgt, Option.bind_some, hu, hok, hw,
    Bool.and_self, if_true]
end

/-! ### DBGEDIT (R408) -/

theorem State.homeBytes_teams (s : State) (asid seed pa n : Nat) : (s.homeBytes asid seed pa n).teams = s.teams := by
  unfold State.homeBytes
  split
  · rfl
  · refine foldl_keeps State.teams _ (fun s l => ?_) _ _
    unfold State.homeLine
    split <;> rfl

/-- A write by the device for a context: the bytes at its address, and the monitors of threads. -/
structure State.DevWrote (s' s : State) (key n : Nat) : Prop where
  mem : MemOutside s' s key n
  nextId : s'.nextId = s.nextId
  teams : ∀ b tm, s.team? b = some tm → ∃ ts, s'.team? b = some { tm with threads := ts }
  unarmed : ∀ b i t, s.thr? b i = some t → t.mon = none → s'.thr? b i = some t

theorem State.devStore_wrote (s : State) (c : Context) (pa : Nat) (bs : List Byte) :
    (s.devStore c pa bs).DevWrote s pa bs.length := by
  have hnear := s.homeBytes_near c.r.asid c.r.seed pa bs.length
  have hteam : ∀ b, (s.homeBytes c.r.asid c.r.seed pa bs.length).team? b = s.team? b := fun b => by
    unfold State.team?
    rw [State.homeBytes_teams]
  refine ⟨fun a ha => ?_, ?_, fun b tm htm => ?_, fun b i t ht hm => ?_⟩
  · unfold State.devStore
    rw [State.store_mem, hnear.mem]
    exact tabGet_tabPutN_other _ _ _ _ _ ha
  · exact (State.store_nextId ..).trans hnear.nextId
  · obtain ⟨h, -, htm'⟩ := State.store_team? pa bs ((hteam b).trans htm)
    exact ⟨_, htm'⟩
  · have ht' : (s.homeBytes c.r.asid c.r.seed pa bs.length).thr? b i = some t := by
      unfold State.thr? at ht ⊢
      rwa [hteam]
    obtain ⟨m, hm', hnone⟩ := State.store_thr? pa bs ht'
    have : { t with mon := m } = t := by rw [hnone hm, ← hm]
    rwa [this] at hm'
theorem State.devStore_ctx? (s : State) (c : Context) (pa : Nat) (bs : List Byte) (asid : Nat) :
    (s.devStore c pa bs).ctx? asid = s.ctx? asid := by
  unfold State.ctx? State.devStore
  rw [State.store_ctxs, (s.homeBytes_near ..).ctxs]

theorem State.ctx?_modCtx_same {s : State} {asid : Nat} {c : Context} (h : s.ctx? asid = some c) (f : Context → Context)
    (hf : ∀ c : Context, (f c).r.asid = c.r.asid) : (s.modCtx asid f).ctx? asid = some (f c) := by
  have hid : c.r.asid = asid := by simpa using List.find?_some h
  have hp : ((fun c : Context => c.r.asid == asid) ∘ fun c => if c.r.asid = asid then f c else c) = fun c => c.r.asid == asid :=
    funext fun c => by
      dsimp only [Function.comp_apply]
      split <;> simp [hf]
  unfold State.ctx? State.modCtx at *
  rw [List.find?_map, hp, h, Option.map_some, if_pos hid]

/-- STATUS takes its new value, in the context's record too. -/
theorem State.setStatus_of {s : State} {asid : Nat} {c : Context} (h : s.ctx? asid = some c) (f : Nat → Nat) :
    (s.setStatus asid f).DevWrote s (c.recAddr + 128) 8 ∧
    (s.setStatus asid f).ctx? asid = some { c with status := BitVec.ofNat 64 (f c.status.toNat) } := by
  unfold State.setStatus
  rw [h]
  dsimp only
  rw [State.devStore_ctx?]
  refine ⟨?_, State.ctx?_modCtx_same h _ fun _ => rfl⟩
  have hwrote := State.devStore_wrote (s.modCtx asid fun d => { d with status := BitVec.ofNat 64 (f c.status.toNat) }) c
    (c.recAddr + 128) (natLe 8 (f c.status.toNat))
  rw [natLe_length] at hwrote
  exact ⟨hwrote.mem, hwrote.nextId, hwrote.teams, hwrote.unarmed⟩

/-- The thread marked as edited by a debugger (R408). -/
def Thread.edited (t : Thread) : Thread := { t with sys := { t.sys with dbgedit := 1 } }

theorem State.markEdit_of {s : State} {tm : Team} {c : Context} (h : s.ctx? tm.asid = some c) (k : Nat) :
    (s.markEdit tm k).DevWrote (s.modThr tm.id k Thread.edited) (c.recAddr + 128) 8 ∧
    ∃ c', (s.markEdit tm k).ctx? tm.asid = some c' ∧ c'.status.getLsbD 2 = true := by
  obtain ⟨hwrote, hc⟩ := State.setStatus_of (s := s.modThr tm.id k Thread.edited) h fun v => v ||| 4
  refine ⟨hwrote, _, hc, ?_⟩
  simp

/-! ### The write of an item (R408) -/

/-- The thread placed at another clause: a waiting instruction is abandoned. -/
def Thread.placedAt (v : Nat) (t : Thread) : Thread :=
  { t with
    pc := BitVec.ofNat 64 v, must := none, waits := []
    status := match t.status with | .joined _ | .grouped => .ready | q => q
    dbg := { t.dbg with inplace := false } }

/-- The thread with an item other than a K register written. -/
def Thread.withItem (wide : Bool) (v : Nat) (t : Thread) : Item → Thread
  | .v n => t.putV (vPut wide n v)
  | .p => { t with p := (List.range 7).map fun b => bit v b }
  | .next => t.placedAt v
  | .sreg n => { t with sys := t.sys.write n v }
  | _ => t

/-- What the write of an item leaves: all but its thread and the crews of its team. -/
structure State.PutFrame (s' s : State) (id k : Nat) : Prop where
  mem : s'.mem = s.mem
  nextId : s'.nextId = s.nextId
  ctx? : ∀ a, s'.ctx? a = s.ctx? a
  threads : ∀ b i, b ≠ id ∨ i ≠ k → s'.thr? b i = s.thr? b i

theorem State.modThr_putFrame (s : State) (id k : Nat) (f : Thread → Thread) : (s.modThr id k f).PutFrame s id k :=
  ⟨rfl, rfl, fun _ => rfl, s.modThr_other id k f⟩
theorem State.PutFrame.modThr {s' s : State} {id k : Nat} (h : s'.PutFrame s id k) (f : Thread → Thread) :
    (s'.modThr id k f).PutFrame s id k :=
  ⟨h.mem, h.nextId, h.ctx?, fun b i hne => (s'.modThr_other id k f b i hne).trans (h.threads b i hne)⟩
theorem State.modCrew_putFrame (s : State) (id n k : Nat) (f : Crew → Crew) : (s.modCrew id n f).PutFrame s id k :=
  ⟨rfl, rfl, fun _ => rfl, fun b i _ => s.thr?_modCrew id n f b i⟩
theorem State.leaveGroup_putFrame (s : State) (id k a i : Nat) : (s.leaveGroup a i).PutFrame s id k :=
  ⟨rfl, rfl, fun _ => rfl, fun _ _ _ => rfl⟩

theorem State.setNext_of {s : State} {tm : Team} {k : Nat} {u : Thread} (hu : s.thr? tm.id k = some u) (v : Nat) :
    (s.setNext tm k u v).PutFrame s tm.id k ∧ (s.setNext tm k u v).thr? tm.id k = some (u.placedAt v) := by
  unfold State.setNext
  dsimp only
  split
  · exact ⟨(s.modCrew_putFrame ..).modThr _, by rw [State.thr?_modThr_same, State.thr?_modCrew, hu]; rfl⟩
  · refine ⟨(s.leaveGroup_putFrame ..).modThr _, ?_⟩
    rw [State.thr?_modThr_same, show (s.leaveGroup tm.id k).thr? tm.id k = some u from hu]
    rfl

theorem State.kmovBy_putFrame (s : State) (tm : Team) (k : Nat) (u : Thread) (n : Nat) (v : DWord) :
    (s.kmovBy tm k u n v).PutFrame s tm.id k :=
  ((s.modCrew_putFrame ..).modThr _).modThr _

theorem State.putItem_of {s : State} {tm : Team} {k : Nat} {u : Thread} (hu : s.thr? tm.id k = some u) (wide : Bool) (v : Nat)
    {it : Item} (hk : ∀ n, it ≠ .k n) :
    (s.putItem tm k u wide v it).PutFrame s tm.id k ∧ (s.putItem tm k u wide v it).thr? tm.id k = some (u.withItem wide v it) := by
  have hmod : ∀ f : Thread → Thread, (s.modThr tm.id k f).PutFrame s tm.id k ∧ (s.modThr tm.id k f).thr? tm.id k = some (f u) :=
    fun f => ⟨s.modThr_putFrame .., by rw [State.thr?_modThr_same, hu]; rfl⟩
  cases it with
  | v n => exact hmod _
  | p => exact hmod _
  | next => exact State.setNext_of hu v
  | sreg n => exact hmod _
  | k n => exact absurd rfl (hk n)
  | f | stateWord | cone | ctx => exact ⟨⟨rfl, rfl, fun _ => rfl, fun _ _ _ => rfl⟩, hu⟩

theorem Thread.withItem_v (t : Thread) (wide : Bool) (v : Nat) {it : Item} (h : ∀ n, it ≠ .v n) :
    (t.withItem wide v it).v = t.v := by
  cases it with
  | v n => exact absurd rfl (h n)
  | _ => rfl
theorem Thread.withItem_p (t : Thread) (wide : Bool) (v : Nat) {it : Item} (h : it ≠ .p) : (t.withItem wide v it).p = t.p := by
  cases it with
  | p => exact absurd rfl h
  | _ => rfl
theorem Thread.withItem_pc (t : Thread) (wide : Bool) (v : Nat) {it : Item} (h : it ≠ .next) :
    (t.withItem wide v it).pc = t.pc := by
  cases it with
  | next => exact absurd rfl h
  | _ => rfl
theorem Thread.withItem_mon (t : Thread) (wide : Bool) (v : Nat) (it : Item) : (t.withItem wide v it).mon = t.mon := by
  cases it <;> rfl

/-- A write of a K register that is the youngest of it takes its place (R95). -/
theorem Crew.writeK_youngest {q : Crew} {n stamp : Nat} (h : tabGet 0 q.kAt n < stamp) (tick : Nat) (v : DWord) :
    (q.writeK tick stamp n v).k = q.k.set n v := by
  unfold Crew.writeK
  rw [if_neg (by omega), if_neg fun e => by omega]

theorem Crew.writeK_num (c : Crew) (tick stamp n : Nat) (v : DWord) : (c.writeK tick stamp n v).num = c.num := by
  unfold Crew.writeK
  dsimp only
  split
  · rfl
  · split <;> rfl

theorem State.kmovBy_thr? {s : State} {tm : Team} {k : Nat} {u : Thread} (hu : s.thr? tm.id k = some u) (n : Nat) (v : DWord) :
    ∃ w, (s.kmovBy tm k u n v).thr? tm.id k = some w ∧ w.mon = u.mon ∧ w.v = u.v ∧ w.p = u.p ∧ w.pc = u.pc := by
  unfold State.kmovBy State.orderK
  rw [State.thr?_modThr_same, State.thr?_modThr_same, State.thr?_modCrew, hu]
  exact ⟨_, rfl, rfl, rfl, rfl, rfl⟩

theorem State.kmovBy_crew {s : State} {tm : Team} {k : Nat} {u : Thread} {q : Crew} {n : Nat} (htm : s.team? tm.id = some tm)
    (hq : tm.crew? u.crew = some q) (hn : n < q.k.length) (hat : tabGet 0 q.kAt n ≤ s.coreCc tm.core) (v : DWord) :
    ∃ tm' q', (s.kmovBy tm k u n v).team? tm.id = some tm' ∧ tm'.crew? u.crew = some q' ∧ kVal q'.k true n = v.toNat ∧
      ∀ m, m ≠ n → kVal q'.k true m = kVal q.k true m := by
  let f : Crew → Crew := fun c => c.writeK s.tick (s.coreCc tm.core + 1) n v
  have htm1 : (s.modCrew tm.id u.crew f).team? tm.id = some (tm.modCrew u.crew f) :=
    State.team?_modTeam_same htm _ fun _ => rfl
  obtain ⟨ts, htm2⟩ := ((State.modThr_sameBut _ tm.id k _).trans (State.modThr_sameBut _ tm.id k _)).team? htm1
  have hcrew : (tm.modCrew u.crew f).crew? u.crew = some (f q) := by
    rw [Team.crew?_modCrew _ _ _ _ fun c => c.writeK_num .., hq]
    simp [f, Team.crew?_num hq]
  have hk : (f q).k = q.k.set n v := Crew.writeK_youngest (Nat.lt_succ_of_le hat) s.tick v
  refine ⟨_, f q, htm2, hcrew, ?_, fun m hm => ?_⟩
  · simp [kVal, hk, hn]
  · simp [kVal, hk, List.getElem?_set_ne (Ne.symm hm)]

/-- What a debugger may write is of another thread (R405). -/
theorem itemOk_other {s : State} {tm : Team} {cr : Crew} {j k v : Nat} {u : Thread} {wide : Bool} {it : Item}
    (hu : tm.threads[k]? = some u) (hok : s.itemOk tm cr j (some k) wide it = true) (hw : itemWritable v it = true) : k ≠ j := by
  rintro rfl
  cases it with
  | f | stateWord | cone | ctx => cases hw
  | v | p | next | sreg | k => simp [State.itemOk, hu] at hok

/-- What INSPW leaves once the item is written, in state `s1`: DBGEDIT is set, and the instruction is in flight. -/
theorem pushActed_edited {s s1 : State} {x : Issue} {tm : Team} {j k : Nat} {t w : Thread} {cx : Context} (hid : tm.id = x.team)
    (hframe : s1.PutFrame s x.team k) (hne : k ≠ j) (ht : s.thr? x.team j = some t) (htm : t.mon = none)
    (hw : s1.thr? x.team k = some w) (hwm : w.mon = none) (hcx : s.ctx? tm.asid = some cx) (i : Instr) (p : PReg) :
    ((s1.markEdit tm k).pushActed x j i [] p true).thr? x.team j =
      some (t.withOp s x i [1] fun q => { q with res := some [], pdst := if p.val = 7 then none else some p.val }) ∧
    MemOutside ((s1.markEdit tm k).pushActed x j i [] p true) s (cx.recAddr + 128) 8 ∧
    (∃ cx', ((s1.markEdit tm k).pushActed x j i [] p true).ctx? tm.asid = some cx' ∧ cx'.status.getLsbD 2 = true) ∧
    ((s1.markEdit tm k).pushActed x j i [] p true).thr? x.team k = some w.edited ∧
    ∀ tm1, s1.team? x.team = some tm1 →
      ∃ ts, ((s1.markEdit tm k).pushActed x j i [] p true).team? x.team = some { tm1 with threads := ts } := by
  obtain ⟨hwrote, cx', hcx', hbit⟩ := State.markEdit_of ((hframe.ctx? _).trans hcx) k
  rw [hid] at hwrote
  have hj : (s1.markEdit tm k).thr? x.team j = some t :=
    hwrote.unarmed _ _ _ ((s1.modThr_other _ _ _ _ _ (.inr hne.symm)).trans ((hframe.threads _ _ (.inr hne.symm)).trans ht)) htm
  have hk : (s1.markEdit tm k).thr? x.team k = some w.edited :=
    hwrote.unarmed _ _ _ (by rw [State.thr?_modThr_same, hw]; rfl) hwm
  have hnext : (s1.markEdit tm k).nextId = s.nextId := hwrote.nextId.trans hframe.nextId
  have hpush := State.pushOp_sameBut (s1.markEdit tm k) x j i [1] fun q =>
    { q with res := some [], pdst := if p.val = 7 then none else some p.val }
  refine ⟨?_, fun a ha => ?_, ⟨cx', hcx', hbit⟩, (State.modThr_other _ _ _ _ _ _ (.inr hne)).trans hk, fun tm1 h1 => ?_⟩
  · unfold State.pushActed
    rw [State.pushOp_thr? hj, hnext]
    rfl
  · rw [← hframe.mem]
    exact hwrote.mem a ha
  · obtain ⟨ts, h2⟩ := (s1.modThr_sameBut x.team k Thread.edited).team? h1
    obtain ⟨ts', h3⟩ := hwrote.teams _ _ h2
    obtain ⟨ts'', h4⟩ := hpush.team? h3
    exact ⟨ts'', h4⟩

section
variable {s : State} {x : Issue} {tm : Team} {cr : Crew} {j : Nat} {t : Thread} {c : Common} {o : InspwOp} {k : Nat} {u : Thread}
  {cx : Context} (h : IssuesAlone s (.inspw c o) x tm cr j t) (hclear : t.ConesetFree)
  (htgt : tm.selectReg (srcVal cr.k t false o.a) = some k) (hu : tm.threads[k]? = some u) (hcx : s.ctx? tm.asid = some cx)
  (hum : u.mon = none) (htm : t.mon = none)
include h hclear htgt hu hcx hum htm

/-- INSPW of an item other than a K register (R408). -/
theorem inspw_writes {it : Item} (hit : itemOf (srcVal cr.k t false o.b) o.wide = some it)
    (hok : s.started.itemOk tm cr j (some k) o.wide it = true) (hw : itemWritable (srcVal cr.k t o.wide o.c) it = true)
    (hk : ∀ n, it ≠ .k n) :
    ∃ s' cx', exec (.inspw c o) s = .next s' ∧
      s'.thr? x.team j = some (t.withOp s x (.inspw c o) [1] fun q =>
        { q with res := some [], pdst := if o.d.val = 7 then none else some o.d.val }) ∧
      MemOutside s' s (cx.recAddr + 128) 8 ∧ s'.ctx? tm.asid = some cx' ∧ cx'.status.getLsbD 2 = true ∧
      s'.thr? x.team k = some (u.withItem o.wide (srcVal cr.k t o.wide o.c) it).edited := by
  have hid : tm.id = x.team := State.team?_id h.started_team?
  have hu' : s.started.thr? tm.id k = some u := by simp [State.thr?, hid, h.started_team?, hu]
  obtain ⟨hframe, hw'⟩ := State.putItem_of hu' o.wide (srcVal cr.k t o.wide o.c) hk
  rw [hid] at hframe hw'
  obtain ⟨hj, hmem, ⟨cx', hcx', hbit⟩, hk', -⟩ := pushActed_edited hid hframe (itemOk_other hu hok hw) h.thr htm hw'
    ((Thread.withItem_mon ..).trans hum) hcx (.inspw c o) o.d
  exact ⟨_, cx', (exec_inspw ..).trans (execInspw_writes h hclear hit htgt hu hok hw), hj, hmem, hcx', hbit, hk'⟩

/-- INSPW of a K register of the target's crew: as by a KMOV of the target now (R95, R408). -/
theorem inspw_writes_k {n : Nat} {q : Crew} (hit : itemOf (srcVal cr.k t false o.b) o.wide = some (.k n))
    (hok : s.started.itemOk tm cr j (some k) o.wide (.k n) = true) (hq : tm.crew? u.crew = some q) (hn : n < q.k.length)
    (hat : tabGet 0 q.kAt n ≤ s.coreCc tm.core) :
    ∃ s' w tm' q', exec (.inspw c o) s = .next s' ∧ MemOutside s' s (cx.recAddr + 128) 8 ∧
      s'.team? x.team = some tm' ∧ tm'.crew? u.crew = some q' ∧ kVal q'.k true n = srcVal cr.k t o.wide o.c % 2 ^ 64 ∧
      (∀ m, m ≠ n → kVal q'.k true m = kVal q.k true m) ∧ s'.thr? x.team k = some w ∧ w.sys.dbgedit = 1 ∧
      w.v = u.v ∧ w.p = u.p ∧ w.pc = u.pc := by
  have hid : tm.id = x.team := State.team?_id h.started_team?
  have hu' : s.started.thr? tm.id k = some u := by simp [State.thr?, hid, h.started_team?, hu]
  let v : DWord := BitVec.ofNat 64 (srcVal cr.k t o.wide o.c)
  have hframe := s.started.kmovBy_putFrame tm k u n v
  obtain ⟨w, hw, hwm, hwv, hwp, hwpc⟩ := State.kmovBy_thr? hu' n v
  obtain ⟨tm', q', htm', hq', hkn, hkm⟩ := State.kmovBy_crew (s := s.started) (hid ▸ h.started_team?) hq hn hat v
  rw [hid] at hframe hw htm'
  obtain ⟨-, hmem, -, hk', hteam⟩ := pushActed_edited hid hframe (itemOk_other (v := 0) hu hok rfl) h.thr htm hw
    (hwm.trans hum) hcx (.inspw c o) o.d
  obtain ⟨ts, htm''⟩ := hteam tm' htm'
  exact ⟨_, w.edited, _, q', (exec_inspw ..).trans (execInspw_writes h hclear hit htgt hu hok rfl), hmem, htm'', hq',
    hkn.trans (BitVec.toNat_ofNat ..), hkm, hk', rfl, hwv, hwp, hwpc⟩
end

section
variable {s : State} {x : Issue} {tm : Team} {cr : Crew} {j : Nat} {t : Thread} {c : Common}

/-! ### STEP -/

theorem execStep_refused {o : StepOp} (h : IssuesAlone s (.step c o) x tm cr j t)
    (hclear : t.ConesetFree) (htgt : tm.selectReg (srcVal cr.k t false o.a) = none) :
    execStep c o s = .next (s.started.pushActed x j (.step c o) [] o.d false) := by
  unfold execStep
  rw [runEach_alone h]
  simp only [State.armPending_clear (s := s.started) h.thr hclear, h.started_team?, htgt]

theorem execStep_begins {o : StepOp} {k : Nat} {u : Thread} (h : IssuesAlone s (.step c o) x tm cr j t)
    (hclear : t.ConesetFree) (htgt : tm.selectReg (srcVal cr.k t false o.a) = some k)
    (hu : tm.threads[k]? = some u) (hk : k ≠ j) (hright : s.hasRight tm = true) (hcr : cr.num ≠ 7) (hhalt : u.isHalted = true) :
    execStep c o s = .next ((s.started.beginStep tm k u).pushOp x j (.step c o) [1, k] fun q =>
      { q with pdst := if o.d.val = 7 then none else some o.d.val }) := by
  have hright' : s.started.hasRight tm = true := hright
  unfold execStep
  rw [runEach_alone h]
  simp only [State.armPending_clear (s := s.started) h.thr hclear, h.started_team?, htgt, Option.bind_some, hu]
  rw [if_pos ⟨hk, hright', hcr, hhalt⟩]
end

/-- The members of a group that was held are ready again (R69). -/
def Thread.ungroup (t : Thread) : Thread := if t.status = .grouped then { t with status := .ready } else t
theorem Thread.ungroup_keeps (t : Thread) : t.ungroup.v = t.v ∧ t.ungroup.pc = t.pc := by
  unfold Thread.ungroup
  split <;> exact ⟨rfl, rfl⟩

theorem Thread.ungroup_of {t : Thread} (h : t.status ≠ .grouped) : t.ungroup = t := if_neg h

/-- The group of a thread that begins its step is dissolved (R69, R409). -/
def State.dissolve (id : Nat) (ms : List Nat) (s : State) : State := ms.foldl (fun s m => s.modThr id m Thread.ungroup) s

theorem State.dissolve_thr? {s : State} {id i : Nat} {t : Thread} (ms : List Nat) (ht : s.thr? id i = some t) :
    ∃ u, (s.dissolve id ms).thr? id i = some u ∧ u.v = t.v ∧ u.pc = t.pc ∧ (t.status ≠ .grouped → u = t) := by
  induction ms generalizing s t with
  | nil => exact ⟨t, ht, rfl, rfl, fun _ => rfl⟩
  | cons m ms ih =>
    by_cases hm : m = i
    · subst hm
      have ht' : (s.modThr id m Thread.ungroup).thr? id m = some t.ungroup := by rw [State.thr?_modThr_same, ht]; rfl
      obtain ⟨u, hu, hv, hpc, hsame⟩ := ih ht'
      refine ⟨u, hu, hv.trans t.ungroup_keeps.1, hpc.trans t.ungroup_keeps.2, fun hst => ?_⟩
      rw [Thread.ungroup_of hst] at hsame
      exact hsame hst
    · exact ih ((s.thr?_modThr_other id m id i Thread.ungroup (.inr hm)).trans ht)
theorem State.dissolve_mem (s : State) (id : Nat) (ms : List Nat) : (s.dissolve id ms).mem = s.mem :=
  foldl_keeps State.mem (fun s m => s.modThr id m Thread.ungroup) (fun _ _ => rfl) ms s
theorem State.dissolve_nextId (s : State) (id : Nat) (ms : List Nat) : (s.dissolve id ms).nextId = s.nextId :=
  foldl_keeps State.nextId (fun s m => s.modThr id m Thread.ungroup) (fun _ _ => rfl) ms s

/-- No group that is held has the thread that begins its step. -/
def State.unheld (s : State) (tm : Team) (k : Nat) (u : Thread) : State :=
  if u.status = .grouped then
    State.dissolve tm.id (s.groupMembers tm.id k)
      { s with holds := s.holds.filter fun (h : Hold) => !(h.team == tm.id && h.members.contains k) }
  else s
/-- The thread as its step begins: a waiting instruction at which it halted issues anew (R409). -/
def Thread.stepBegun (t : Thread) : Thread :=
  { t with waits := t.waits.map (fun o => { o with waited := false, redo := haltsInPlace o })
           dbg := { t.dbg with stepping := true, stepped := false, inplace := false } }
theorem State.beginStep_eq (s : State) (tm : Team) (k : Nat) (u : Thread) :
    s.beginStep tm k u = (s.unheld tm k u).modThr tm.id k Thread.stepBegun := rfl

theorem State.unheld_mem (s : State) (tm : Team) (k : Nat) (u : Thread) : (s.unheld tm k u).mem = s.mem := by
  unfold State.unheld
  split
  · exact State.dissolve_mem ..
  · rfl
theorem State.unheld_nextId (s : State) (tm : Team) (k : Nat) (u : Thread) : (s.unheld tm k u).nextId = s.nextId := by
  unfold State.unheld
  split
  · exact State.dissolve_nextId ..
  · rfl
theorem State.unheld_thr? {s : State} {tm : Team} {i : Nat} {t : Thread} (ht : s.thr? tm.id i = some t) (k : Nat) (u : Thread) :
    ∃ w, (s.unheld tm k u).thr? tm.id i = some w ∧ w.v = t.v ∧ w.pc = t.pc ∧ (t.status ≠ .grouped → w = t) := by
  unfold State.unheld
  split
  · exact State.dissolve_thr?
      (s := { s with holds := s.holds.filter fun (h : Hold) => !(h.team == tm.id && h.members.contains k) }) _ ht
  · exact ⟨t, ht, rfl, rfl, fun _ => rfl⟩

/-- A thread that begins its step, and another that is in no held group (R409). -/
theorem State.beginStep_of {s : State} {tm : Team} {j k : Nat} {t u : Thread} (hu : s.thr? tm.id k = some u)
    (ht : s.thr? tm.id j = some t) (hne : k ≠ j) (hst : t.status ≠ .grouped) :
    (s.beginStep tm k u).thr? tm.id j = some t ∧
    ∃ w, (s.beginStep tm k u).thr? tm.id k = some w ∧ w.dbg.stepping = true ∧ w.dbg.stepped = false ∧ w.v = u.v ∧
      w.pc = u.pc := by
  rw [State.beginStep_eq]
  obtain ⟨t', ht', -, -, hsame⟩ := State.unheld_thr? ht k u
  obtain ⟨w, hw, hv, hpc, -⟩ := State.unheld_thr? hu k u
  rw [hsame hst] at ht'
  refine ⟨(State.modThr_other _ _ _ _ _ _ (.inr hne.symm)).trans ht', ?_⟩
  rw [State.thr?_modThr_same, hw]
  exact ⟨_, rfl, rfl, rfl, hv, hpc⟩

/-- STEP of a halted thread by another (R409). -/
theorem step_begins {s : State} {x : Issue} {tm : Team} {cr : Crew} {j k : Nat} {t u : Thread} {c : Common} {o : StepOp}
    (h : IssuesAlone s (.step c o) x tm cr j t) (hclear : t.ConesetFree) (hst : t.status ≠ .grouped)
    (htgt : tm.selectReg (srcVal cr.k t false o.a) = some k) (hu : tm.threads[k]? = some u) (hne : k ≠ j)
    (hright : s.hasRight tm = true) (hcr : cr.num ≠ 7) (hhalt : u.isHalted = true) :
    ∃ s' w, exec (.step c o) s = .next s' ∧ s'.mem = s.mem ∧
      s'.thr? x.team j = some (t.withOp s x (.step c o) [1, k] fun q =>
        { q with res := none, pdst := if o.d.val = 7 then none else some o.d.val }) ∧
      s'.thr? x.team k = some w ∧ w.dbg.stepping = true ∧ w.dbg.stepped = false ∧ w.v = u.v ∧ w.pc = u.pc := by
  have hid : tm.id = x.team := State.team?_id h.started_team?
  have hu' : s.started.thr? tm.id k = some u := by simp [State.thr?, hid, h.started_team?, hu]
  obtain ⟨hj, w, hw, hstep⟩ := State.beginStep_of hu' (hid ▸ h.thr) hne hst
  rw [hid] at hj hw
  have hnext : (s.started.beginStep tm k u).nextId = s.nextId := s.started.unheld_nextId tm k u
  refine ⟨_, w, (exec_step ..).trans (execStep_begins h hclear htgt hu hne hright hcr hhalt), s.started.unheld_mem tm k u, ?_,
    (State.modThr_other _ _ _ _ _ _ (.inr hne)).trans hw, hstep⟩
  rw [State.pushOp_thr? hj, hnext]
  rfl

/-! ### Completion (R401) -/

/-- The thread with the predicate of a debug instruction written, if it names one. -/
def Thread.withVerdict (t : Thread) (o : Op) : Thread :=
  match o.pdst with
  | some n => t.putP n (o.vals.getD 0 0 == 1)
  | none => t

theorem performDebug_acted {s : State} {tm : Team} {i : Nat} {o : Op} {t : Thread} {ws : List (Nat × Word)} (hres : o.res = some ws)
    (hi : ∀ c q, o.i ≠ .coneset c q) (ht : s.thr? tm.id i = some t) :
    (s.performDebug tm i o).mem = s.mem ∧
    (s.performDebug tm i o).thr? tm.id i = some (((t.withVerdict o).opWrites s.tick o ws).retire o) := by
  unfold State.performDebug
  extract_lets stepDone fin
  have hfin : (fin s ws).mem = s.mem ∧ (fin s ws).thr? tm.id i = some (((t.withVerdict o).opWrites s.tick o ws).retire o) := by
    dsimp only [fin]
    unfold Thread.withVerdict State.completeOp
    cases o.pdst with
    | none => exact ⟨rfl, by rw [State.thr?_modThr_same, ht]; rfl⟩
    | some n => exact ⟨rfl, by rw [State.thr?_modThr_same, State.thr?_modThr_same, ht]; rfl⟩
  split
  · exact absurd ‹o.i = _› (hi _ _)
  · rename_i ws' hws _
    cases hres.symm.trans hws
    exact hfin
  · rename_i hnone _
    cases hres.symm.trans hnone

/-- The only operation of a thread completes, with the registers it owns and the predicate it names. -/
theorem retire_only {t : Thread} {o : Op} {ws : List (Nat × Word)} (tick : Nat) (hp : t.pend = [o]) (hws : ∀ w ∈ ws, w.1 ∈ o.dst) :
    let u := ((t.withVerdict o).opWrites tick o ws).retire o
    u.v = (t.putV ws).v ∧ u.p = (match o.pdst with | some n => t.p.set n (o.vals.getD 0 0 == 1) | none => t.p) ∧ u.sys = t.sys ∧
      u.f = (t.decF o.setf).f ∧ u.pend.map (fun q => q.id) = (t.pend.map fun q => q.id).filter fun k => k != o.id := by
  have hown : ws.filter (fun w => o.dst.contains w.1) = ws := List.filter_eq_self.2 fun w hw => by simpa using hws w hw
  unfold Thread.retire Thread.opWrites Thread.withVerdict
  rw [hown]
  cases o.pdst <;> cases o.setf <;> simp [Thread.putP, Thread.putV, Thread.decF, hp]

theorem execFlaggedCompletion_debug {s : State} {p : PerformOp} {z : Team} {t : Thread} {o : Op} {ws : List (Nat × Word)}
    (hz : s.team? p.team = some z) (ht : s.thr? p.team p.thr = some t) (ho : t.op? p.id = some o) (hres : o.res = some ws)
    (honly : p.only = none) (hst : t.status ≠ .stopped) (hwb : t.wbBlocks o = false) (hi : isDebugOp o.i = true) :
    execFlaggedCompletion p s = .next (s.performDebug z p.thr o) := by
  unfold execFlaggedCompletion
  simp only [hz, ht, State.op?_of ht ho, hst, hwb, hres, honly, hi, Bool.false_eq_true, if_false, if_true]

/-- Settles O47: each debug instruction acts or is refused as it issues, and its predicate and registers are written when it
completes. -/
theorem inspectionInstructionsComplete : Obligations.InspectionInstructionsComplete := by
  intro s x tm cr j t c op clear
  refine ⟨fun o h hclear => ⟨fun hit => ?_, fun i hit hok => ?_, fun i hit hok => ?_⟩,
    fun o h hclear => ⟨fun htgt => ?_, fun i k u cx hit htgt hu hcx hum htm => ⟨fun hno => ?_, fun hok hw hk => ?_,
      fun n q hi hok hq hn hat => ?_⟩⟩,
    fun o h hclear hst => ⟨fun htgt => ?_, fun k u htgt hu hne hright hcr hhalt => ?_⟩,
    fun p z o ws hz ht ho hres honly hst hwb hp hws hi => ?_⟩
  · exact gives_pushActed ((exec_inspr ..).trans (execInspr_refused h hclear fun _ hit' => nomatch hit.symm.trans hit')) h.thr
  · refine gives_pushActed ((exec_inspr ..).trans (execInspr_refused h hclear fun it hit' => ?_)) h.thr
    cases hit.symm.trans hit'
    exact hok
  · exact gives_pushActed ((exec_inspr ..).trans (execInspr_delivers h hclear hit hok)) h.thr
  · exact gives_pushActed ((exec_inspw ..).trans (execInspw_refused h hclear fun _ _ hne => absurd htgt hne)) h.thr
  · refine gives_pushActed ((exec_inspw ..).trans (execInspw_refused h hclear fun it hit' _ => ?_)) h.thr
    cases hit.symm.trans hit'
    exact hno
  · obtain ⟨s', cx', he, hj, hmem, hcx', hbit, hk'⟩ := inspw_writes h hclear htgt hu hcx hum htm hit (htgt ▸ hok) hw hk
    refine ⟨s', _, cx', he, hj, hmem, hcx', hbit, hk', rfl, fun n hi => hi ▸ rfl, Thread.withItem_v _ _ _, fun hi => hi ▸ rfl,
      Thread.withItem_p _ _ _, fun hi => ?_, Thread.withItem_pc _ _ _, fun hi => ?_⟩
    · subst hi
      exact BitVec.toNat_ofNat ..
    · subst hi
      exact (BitVec.toNat_ofNat ..).trans (Nat.mod_eq_of_lt (by omega))
  · subst hi
    exact inspw_writes_k h hclear htgt hu hcx hum htm hit (htgt ▸ hok) hq hn hat
  · exact gives_pushActed ((exec_step ..).trans (execStep_refused h hclear htgt)) h.thr
  · exact step_begins h hclear hst htgt hu hne hright hcr hhalt
  · have hid : z.id = p.team := State.team?_id hz
    have hdebug : isDebugOp o.i = true ∧ ∀ c q, o.i ≠ .coneset c q := by
      rcases hi with ⟨q, hi⟩ | ⟨q, hi⟩ | ⟨q, hi⟩ <;> simp [hi, isDebugOp]
    obtain ⟨hmem, hthr⟩ := performDebug_acted (tm := z) hres hdebug.2 (hid ▸ ht)
    rw [hid] at hthr
    exact ⟨_, (exec_flaggedCompletion ..).trans (execFlaggedCompletion_debug hz ht ho hres honly hst hwb hdebug.1), hmem, _, hthr,
      retire_only s.tick hp hws⟩

end Sys2Proof.Machine

namespace Sys2Proof.Machine
open Sys2Proof

/-! ## Exact accumulation (R185 to R190)

From the numbers up: what the bytes of an accumulator and of XST denote, what `xaddLine` makes of each, what a write of the home slice
leaves unchanged, and then the three instructions that perform there. -/

/-! ### Numbers and bytes -/

/-- The pattern of an integer denotes it again, modulo 2^n. -/
theorem toSigned_ofSigned_emod (n : Nat) (x : Int) : toSigned n (ofSigned n x) % 2 ^ n = x % 2 ^ n := by
  have hpat : ((ofSigned n x % 2 ^ n : Nat) : Int) = x % 2 ^ n := by
    have hnn := Int.emod_nonneg x (Int.ofNat_ne_zero.2 (Nat.ne_of_gt (Nat.two_pow_pos n)))
    rw [ofSigned, Int.natCast_emod, Int.toNat_of_nonneg hnn, Int.emod_emod, Int.natCast_pow]
    rfl
  unfold toSigned
  rw [hpat]
  split
  · rw [Int.natCast_pow]
    exact (Int.sub_emod_right ..).trans (Int.emod_emod ..)
  · rw [Int.emod_emod]

theorem ofSigned_lt (n : Nat) (x : Int) : ofSigned n x < 2 ^ n := by
  have hpos : (0 : Int) < (2 ^ n : Nat) := Int.natCast_pos.2 (Nat.two_pow_pos n)
  have := Int.emod_lt_of_pos x hpos
  have := Int.emod_nonneg x (Int.ne_of_gt hpos)
  unfold ofSigned
  omega

theorem toSigned_zero (n : Nat) : toSigned n 0 = 0 := by simp [toSigned, bit]

theorem leNat_zeros (n : Nat) : leNat (List.replicate n 0) = 0 := by
  induction n with
  | zero => rfl
  | succ n ih => rw [List.replicate_succ, leNat, ih]; rfl

/-- n bytes hold the whole pattern of 8n bits. -/
theorem leNat_natLe_ofSigned (n : Nat) (x : Int) : leNat (natLe n (ofSigned (8 * n) x)) = ofSigned (8 * n) x := by
  rw [leNat_natLe, show (256 : Nat) = 2 ^ 8 from rfl, ← Nat.pow_mul, Nat.mod_eq_of_lt (ofSigned_lt ..)]

/-- Bit k of a little-endian number stands in byte k / 8. -/
theorem leNat_testBit (l : List Byte) (k : Nat) : (leNat l).testBit k = (l.getD (k / 8) 0).getLsbD (k % 8) := by
  induction l generalizing k with
  | nil => simp [leNat]
  | cons b l ih =>
    rw [leNat, Nat.add_comm, show (256 : Nat) = 2 ^ 8 from rfl, Nat.testBit_two_pow_mul_add _ b.isLt]
    split
    · next hk => simp [Nat.div_eq_of_lt hk, Nat.mod_eq_of_lt hk, BitVec.testBit_toNat]
    · next hk =>
      rw [ih, show k / 8 = (k - 8) / 8 + 1 by omega, show k % 8 = (k - 8) % 8 by omega, List.getD_cons_succ]

theorem tabGetN_getD {α : Type} (d : α) (t : List (Nat × α)) (a n : Nat) {i : Nat} (h : i < n) :
    (tabGetN d t a n).getD i d = tabGet d t (a + i) := by
  induction n generalizing a i with
  | zero => exact absurd h (Nat.not_lt_zero i)
  | succ n ih =>
    cases i with
    | zero => rfl
    | succ i => rw [tabGetN, List.getD_cons_succ, ih _ (Nat.lt_of_succ_lt_succ h), Nat.add_assoc, Nat.add_comm 1]

/-! ### An accumulator line (R185 to R188) -/

/-- An accumulator is worth what its 40 bytes say. -/
theorem accValue_congr {l l' : List Byte} {j : Nat} (h : ∀ i < 40, l'[40 * j + i]? = l[40 * j + i]?) :
    accValue l' j = accValue l j := by
  unfold accValue
  congr 2
  refine List.ext_getElem? fun i => ?_
  simp only [List.getElem?_take, List.getElem?_drop]
  split
  · exact h i ‹_›
  · rfl

theorem accValue_bytes (s : State) (key : Nat) {k : Nat} (hk : k ≤ 2) :
    accValue (s.bytes key 128) k = toSigned 320 (s.read (key + 40 * k) 40) := by
  unfold accValue State.read State.bytes
  rw [tabGetN_drop_take _ _ _ _ _ _ (by omega)]

theorem lineXst_bytes_testBit (s : State) (key k : Nat) :
    (lineXst (s.bytes key 128)).testBit k = (decide (k < 64) && (tabGet 0 s.mem (key + 120 + k / 8)).getLsbD (k % 8)) := by
  have hxst : (s.bytes key 128).drop 120 = tabGetN 0 s.mem (key + 120) 8 := by
    rw [← tabGetN_drop_take 0 s.mem 128 key 120 8 (by omega), List.take_of_length_le (by simp [tabGetN_length])]
    rfl
  rw [lineXst, hxst, leNat_testBit]
  by_cases hk : k < 64
  · rw [tabGetN_getD _ _ _ _ (by omega), decide_eq_true hk, Bool.true_and]
  · rw [List.getD_eq_getElem?_getD, List.getElem?_eq_none (by rw [tabGetN_length]; omega), decide_eq_false hk, Bool.false_and]
    exact BitVec.getLsbD_zero

section
variable {line : List Byte} {j : Nat} (hlen : line.length = 128) (hj : j ≤ 2) (v : FVal)
include hlen hj

theorem xaddLine_length : (xaddLine line j v).length = 128 := by
  simp only [xaddLine, List.length_append, List.length_take, List.length_drop, natLe_length]
  omega

/-- XADD adds to its accumulator, modulo 2^320. -/
theorem xaddLine_accValue_same :
    (accValue (xaddLine line j v) j - accValue line j - xaddUnits v) % 2 ^ 320 = 0 := by
  have hacc : ((xaddLine line j v).drop (40 * j)).take 40 = natLe 40 (ofSigned 320 (accValue line j + xaddUnits v)) := by
    simp only [xaddLine, List.append_assoc]
    rw [List.drop_left' (by rw [List.length_take]; omega), List.take_left' (natLe_length ..)]
  have hmod : accValue (xaddLine line j v) j % 2 ^ 320 = (accValue line j + xaddUnits v) % 2 ^ 320 := by
    rw [accValue, hacc, leNat_natLe_ofSigned 40, toSigned_ofSigned_emod]
  rw [Int.sub_sub]
  exact Int.emod_eq_emod_iff_emod_sub_eq_zero.1 hmod

/-- XADD leaves the other accumulators. -/
theorem xaddLine_accValue_other {k : Nat} (hk : k ≤ 2) (hkj : k ≠ j) :
    accValue (xaddLine line j v) k = accValue line k := by
  refine accValue_congr fun i hi => ?_
  simp only [xaddLine, List.getElem?_append, List.length_append, List.length_take, List.length_drop, natLe_length,
    List.getElem?_take, List.getElem?_drop]
  rcases Nat.lt_or_gt_of_ne hkj with h | h
  · rw [if_pos (by omega), if_pos (by omega), if_pos (by omega), if_pos (by omega)]
  · rw [if_pos (by omega), if_neg (by omega), if_pos (by omega)]
    congr 1
    omega

/-- XADD counts itself in ADDS. -/
theorem xaddLine_adds :
    lineXst (xaddLine line j v) / 2 ^ 24 % 2 ^ 32 = (lineXst line / 2 ^ 24 % 2 ^ 32 + 1) % 2 ^ 32 := by
  unfold lineXst
  rw [xaddLine, List.drop_left' (by simp only [List.length_append, List.length_take, List.length_drop, natLe_length]; omega),
    leNat_natLe]
  simp only [lineXst, bits, Nat.shiftRight_eq_div_pow]
  omega
end

/-! ### A write of the home slice (R148, R161, R177) -/

theorem State.bytes_of_mem {s u : State} (h : s.mem = u.mem) (key n : Nat) : s.bytes key n = u.bytes key n := by
  unfold State.bytes
  rw [h]

theorem State.put_tabGet_same {s : State} (hm : Memory.wf s.mem = true) (key : Nat) (b : Byte) :
    tabGet 0 (s.put key [b]).mem key = b := tabGet_tabPut_same hm key b
theorem State.put_tabGet_other (s : State) {key a : Nat} {bs : List Byte} (h : a < key ∨ key + bs.length ≤ a) :
    tabGet 0 (s.put key bs).mem a = tabGet 0 s.mem a := tabGet_tabPutN_other 0 bs s.mem key a h

/-- The bytes of a write in parts. -/
def State.putParts (s : State) (line : Nat) (ps : List (Nat × List Byte)) : State :=
  ps.foldl (fun s p => s.put (line + p.1) p.2) s

theorem State.putParts_mem (s : State) (line : Nat) (ps : List (Nat × List Byte)) :
    (s.putParts line ps).mem = ps.foldl (fun m p => tabPutN 0 m (line + p.1) p.2) s.mem := by
  induction ps generalizing s with
  | nil => rfl
  | cons p ps ih => exact ih (s.put (line + p.1) p.2)

theorem State.putParts_memOutside (s : State) (line : Nat) (ps : List (Nat × List Byte)) {n : Nat}
    (h : ∀ p ∈ ps, p.1 + p.2.length ≤ n) : MemOutside (s.putParts line ps) s line n := by
  intro a ha
  induction ps generalizing s with
  | nil => rfl
  | cons p ps ih =>
    have hp := h p List.mem_cons_self
    exact (ih (s.put (line + p.1) p.2) fun q hq => h q (List.mem_cons_of_mem p hq)).trans
      (s.put_tabGet_other (by omega))

/-- Cleaning the poison of the parts as they are put changes neither their bytes nor the teams. -/
theorem State.foldl_cleanParts (s : State) (line : Nat) (ps : List (Nat × List Byte)) :
    let s1 := ps.foldl (fun s p => (s.put (line + p.1) p.2).cleanUnits (line + p.1) p.2.length) s
    s1.mem = (s.putParts line ps).mem ∧ s1.teams = s.teams := by
  rw [State.putParts_mem]
  induction ps generalizing s with
  | nil => exact ⟨rfl, rfl⟩
  | cons p ps ih => exact ih ((s.put (line + p.1) p.2).cleanUnits (line + p.1) p.2.length)

theorem State.op?_join (s : State) (id j k : Nat) : s.op? id j k = ((s.thr? id j).map fun t => t.op? k).join := by
  unfold State.op?
  cases s.thr? id j <;> rfl

theorem State.recall_op? (s : State) (key n id j k : Nat) : (s.recall key n).op? id j k = s.op? id j k := by
  rw [State.op?_join, State.recall_keeps (fun t => t.op? k) (fun _ _ => rfl), ← State.op?_join]

theorem State.wakeMons_op? (s : State) (key n id j k : Nat) : (s.wakeMons key n).op? id j k = s.op? id j k := by
  have hsee : (Thread.op? · k) ∘ Thread.seeWrite key n = (Thread.op? · k) :=
    funext (Thread.seeWrite_keeps (fun t => t.op? k) (fun _ _ => rfl) key n)
  rw [State.op?_join, State.wakeMons_thr?, Option.map_map, hsee, ← State.op?_join]

theorem State.op?_of_teams {s u : State} (h : s.teams = u.teams) (id j k : Nat) : s.op? id j k = u.op? id j k := by
  unfold State.op? State.thr? State.team?
  rw [h]

section
variable (s : State) (core line : Nat) (ps : List (Nat × List Byte)) (id j k : Nat)

theorem State.storeParts_mem : (s.storeParts line ps).mem = (s.putParts line ps).mem := by
  unfold State.storeParts
  rw [State.voidDogs_mem, State.wakeMons_mem, State.bumpTags_mem, ((s.recall line 128).foldl_cleanParts line ps).1,
    State.putParts_mem, State.putParts_mem, State.recall_mem]

theorem State.storeParts_op? : (s.storeParts line ps).op? id j k = s.op? id j k := by
  unfold State.storeParts
  rw [State.op?_of_teams (State.voidDogs_teams ..), State.wakeMons_op?, State.op?_of_teams (State.bumpTags_teams ..),
    State.op?_of_teams ((s.recall line 128).foldl_cleanParts line ps).2, State.recall_op?]

theorem State.slicePut_mem : (s.slicePut core line ps).mem = (s.putParts line ps).mem := by
  rw [← State.storeParts_mem]
  unfold State.slicePut
  split <;> rfl

theorem State.slicePut_op? : (s.slicePut core line ps).op? id j k = s.op? id j k := by
  rw [← s.storeParts_op? line ps]
  unfold State.slicePut
  split <;> rfl
end

/-! ### XADD and XCLR perform (R188, R190) -/

section
variable {s : State} {p : PendRef} {tm : Team} {t : Thread} {o : Op}

theorem Pending.op?_eq {id j k : Nat} (h : Pending s id j k tm t o) : s.op? id j k = some o := State.op?_of h.thread h.op

/-- What an operation in flight becomes once its record is changed, in any state that still holds it. -/
theorem Pending.op?_modOp {id j k : Nat} (h : Pending s id j k tm t o) {u : State} (hu : u.op? id j k = some o) {f : Op → Op}
    (hf : ∀ q, (f q).id = q.id) : (u.modOp tm.id j o.id f).op? id j k = some (f o) := by
  rw [State.team?_id h.team, Thread.op?_id h.op, State.op?_modOp _ _ _ _ _ hf, hu]
  rfl

theorem Pending.exec_xaddAtSlice (h : Pending s p.team p.thr p.id tm t o) :
    exec (.xaddAtSlice p) s = .next (s.performX tm p.thr t o) := by
  rw [Machine.exec_xaddAtSlice, execXaddAtSlice]
  simp only [h.team, h.thread, h.op?_eq, h.fresh, Option.isNone_none, if_true]

/-- An exact operation that writes its line in parts performs with the bytes of the parts. -/
theorem Pending.xaddAtSlice_puts (h : Pending s p.team p.thr p.id tm t o) {ps : List (Nat × List Byte)}
    (hps : ∀ q ∈ ps, q.1 + q.2.length ≤ 128)
    (he : s.performX tm p.thr t o = ((s.recall o.key 128).slicePut tm.core o.key ps).performed tm.id p.thr o []) :
    ∃ s', exec (.xaddAtSlice p) s = .next s' ∧ MemOutside s' s o.key 128 ∧ OpPerformed s' p.team p.thr p.id o [] ∧
      s'.mem = (s.putParts o.key ps).mem := by
  have hmem : (s.performX tm p.thr t o).mem = (s.putParts o.key ps).mem := by
    rw [he]
    exact (State.slicePut_mem ..).trans (by rw [State.putParts_mem, State.putParts_mem, State.recall_mem])
  refine ⟨_, h.exec_xaddAtSlice, fun a ha => ?_, ?_, hmem⟩
  · rw [hmem]
    exact s.putParts_memOutside o.key ps hps a ha
  · have hop : ((s.recall o.key 128).slicePut tm.core o.key ps).op? p.team p.thr p.id = some o := by
      rw [State.slicePut_op?, State.recall_op?, h.op?_eq]
    rw [he]
    exact h.op?_modOp hop fun _ => rfl

/-! What each of them writes, where no poison stops it. -/

section
variable (hord : t.orderClear o = true) (hst : s.coreStores tm.core o.key 128 = []) {c : Common}
include hord hst

theorem State.performX_xadd {q : XaddOp} (hi : o.i = .xadd c q) (hp : s.poisoned o.key 128 = false) (i : Nat) :
    s.performX tm i t o = ((s.recall o.key 128).slicePut tm.core o.key
      [(0, xaddLine (s.bytes o.key 128) o.acc (decodeF (xtyFmt q.ty) (o.vals.getD 1 0)))]).performed tm.id i o [] := by
  have hp' : (s.recall o.key 128).poisoned o.key 128 = false := hp
  simp only [State.performX, hord, hst, hi, hp', not_true_eq_false, List.any_nil, Bool.false_eq_true, or_self, if_false]
  rfl

theorem State.performX_xclr {q : XclrOp} (hi : o.i = .xclr c q) (i : Nat) :
    s.performX tm i t o = ((s.recall o.key 128).slicePut tm.core o.key
      [(40 * o.acc, List.replicate 40 0), (120 + o.acc, [0])]).performed tm.id i o [] := by
  simp only [State.performX, hord, hst, hi, not_true_eq_false, List.any_nil, Bool.false_eq_true, or_self, if_false]

theorem State.performX_xclrLine {q : XclrOp} (hi : o.i = .xclrLine c q) (i : Nat) :
    s.performX tm i t o = ((s.recall o.key 128).slicePut tm.core o.key
      [(0, List.replicate 128 0)]).performed tm.id i o [] := by
  simp only [State.performX, hord, hst, hi, not_true_eq_false, List.any_nil, Bool.false_eq_true, or_self, if_false]
end
end

/-! ### What a clear leaves (R190) -/

/-- A line with accumulator j and its status byte cleared. -/
def State.clearAcc (s : State) (line j : Nat) : State :=
  (s.put (line + 40 * j) (List.replicate 40 0)).put (line + (120 + j)) [0]

section
variable {s : State} (hm : Memory.wf s.mem = true) (line : Nat) {j : Nat} (hj : j ≤ 2)
include hj

theorem State.clearAcc_accValue_other {k : Nat} (hk : k ≤ 2) (hkj : k ≠ j) :
    accValue ((s.clearAcc line j).bytes line 128) k = accValue (s.bytes line 128) k := by
  rw [accValue_bytes _ _ hk, accValue_bytes _ _ hk, State.clearAcc, State.read, State.put_bytes_other _ _ _ _ _ (by omega),
    State.put_bytes_other _ _ _ _ _ (by rw [List.length_replicate]; omega), State.read]

include hm

theorem State.clearAcc_accValue_same : accValue ((s.clearAcc line j).bytes line 128) j = 0 := by
  rw [accValue_bytes _ _ hj, State.clearAcc, State.read, State.put_bytes_other _ _ _ _ _ (by omega),
    State.put_bytes_same hm _ List.length_replicate, leNat_zeros, toSigned_zero]

/-- In XST a clear changes the status byte of its accumulator alone, to zero. -/
theorem State.clearAcc_xst (k : Nat) : (lineXst ((s.clearAcc line j).bytes line 128)).testBit k =
    (!(decide (8 * j ≤ k ∧ k < 8 * j + 8)) && (lineXst (s.bytes line 128)).testBit k) := by
  rw [lineXst_bytes_testBit, lineXst_bytes_testBit]
  by_cases hk : k / 8 = j
  · have hzero : tabGet 0 (s.clearAcc line j).mem (line + 120 + k / 8) = 0 := by
      rw [hk, Nat.add_assoc]
      exact State.put_tabGet_same (State.put_wf hm _ _) _ _
    rw [hzero, decide_eq_true (by omega : 8 * j ≤ k ∧ k < 8 * j + 8)]
    simp
  · have hsame : k < 64 →
        tabGet 0 (s.clearAcc line j).mem (line + 120 + k / 8) = tabGet 0 s.mem (line + 120 + k / 8) := fun h =>
      (State.put_tabGet_other _ (by rw [List.length_singleton]; omega)).trans
        (State.put_tabGet_other _ (by rw [List.length_replicate]; omega))
    rw [decide_eq_false (by omega : ¬ (8 * j ≤ k ∧ k < 8 * j + 8)), Bool.not_false, Bool.true_and]
    by_cases h : k < 64
    · rw [hsame h]
    · rw [decide_eq_false h, Bool.false_and, Bool.false_and]
end

/-! ### XREAD (R189) -/

/-- No NaN and no infinity was added: the value is rounded once. -/
theorem xreadVal_finite {line : List Byte} {j : Nat} (h : lineXst line / 2 ^ (8 * j) % 256 % 8 = 0) :
    xreadVal line j = roundDyad f32 .rne false false ⟨accValue line j, -149⟩ := by
  have h0 : ∀ k < 3, bit (lineXst line / 2 ^ (8 * j)) k = false := fun k hk => by
    simp only [bit, Nat.shiftRight_eq_div_pow, beq_eq_false_iff_ne]
    obtain rfl | rfl | rfl : k = 0 ∨ k = 1 ∨ k = 2 := by omega
    all_goals omega
  simp only [xreadVal, h0, Nat.lt_add_one, Nat.reduceLT, Bool.false_eq_true, and_self, or_self, if_false]

/-- A NaN was added. -/
theorem xreadVal_nan {line : List Byte} {j : Nat} (h : lineXst line / 2 ^ (8 * j) % 256 % 2 = 1) :
    xreadVal line j = (0x7FC00000, nvFlag) := by
  have h0 : bit (lineXst line / 2 ^ (8 * j)) 0 = true := by
    simp only [bit, Nat.shiftRight_zero, beq_iff_eq]
    omega
  simp only [xreadVal, h0, true_or, if_true]

section
variable {s : State} {z : PerformOp} {tm : Team} {t : Thread} {o : Op}

/-- An operation that can perform does so at its FLAGGED_COMPLETION. -/
theorem Pending.exec_flaggedCompletion (h : Pending s z.team z.thr z.id tm t o) :
    exec (.flaggedCompletion z) s = .next (s.performOp tm z.thr t o z) := by
  rw [Machine.exec_flaggedCompletion, execFlaggedCompletion]
  simp only [h.team, h.thread, h.op?_eq, h.fresh, h.running, h.free, Bool.false_eq_true, if_false]

theorem Pending.performXread (h : Pending s z.team z.thr z.id tm t o) (q : XreadOp) (hst : s.coreStores tm.core o.key 128 = [])
    (hp : s.poisoned o.key 128 = false) :
    let r := xreadVal (s.bytes o.key 128) o.acc
    let st := lineXst (s.bytes o.key 128) / 2 ^ (8 * o.acc) % 256
    (s.performXread tm z.thr t q o).mem = s.mem ∧ (s.performXread tm z.thr t q o).op? z.team z.thr z.id =
      some { o with res := some (vPut q.wide q.d.val (r.1 + 2 ^ 32 * st)), fx := flagBits r.2 } := by
  have hp' : (s.recall o.key 128).poisoned o.key 128 = false := hp
  have hl1 : ∀ u : State, u.op? z.team z.thr z.id = some o →
      let u1 := if o.key < 2 ^ 40 then u.l1Drop tm.core (o.key / 128) else u
      u1.mem = u.mem ∧ u1.op? z.team z.thr z.id = some o := fun u hu => by
    split <;> exact ⟨rfl, hu⟩
  simp only [State.performXread, h.order, hst, hp', not_true_eq_false, List.any_nil, Bool.false_eq_true, or_self, if_false]
  obtain ⟨hmem, hop⟩ := hl1 (s.recall o.key 128) ((State.recall_op? ..).trans h.op?_eq)
  exact ⟨hmem, h.op?_modOp hop fun _ => rfl⟩
end

/-- Settles O21: XADD writes `xaddLine`, a clear zeros its parts of the line, and XREAD delivers `xreadVal` and writes nothing. -/
theorem exactAccumulationPerforms : Obligations.ExactAccumulationPerforms := by
  unfold Obligations.ExactAccumulationPerforms
  intro s p tm t o c h hst hp hm hacc line
  have hlen : line.length = 128 := State.bytes_length ..
  refine ⟨fun q neg m e hi hfin => ?_, fun q hi => ?_, fun q hi => ?_, fun q z hteam hthr hid hi => ?_⟩
  · have hx := xaddLine_length hlen hacc (.fin neg m e)
    obtain ⟨s', he, hout, hop, hmem⟩ := h.xaddAtSlice_puts (ps := [(0, xaddLine line o.acc (.fin neg m e))])
      (by simp [hx]) (hfin ▸ State.performX_xadd h.order hst hi hp _)
    have hline : s'.bytes o.key 128 = xaddLine line o.acc (.fin neg m e) :=
      (State.bytes_of_mem hmem _ _).trans (State.put_bytes_same hm _ hx)
    refine ⟨s', he, hout, hop, ?_⟩
    rw [hline]
    exact ⟨xaddLine_accValue_same hlen hacc _, fun k hk hne => xaddLine_accValue_other hlen hacc _ hk hne,
      xaddLine_adds hlen hacc _⟩
  · obtain ⟨s', he, hout, hop, hmem⟩ := h.xaddAtSlice_puts
      (by simp only [List.mem_cons, List.not_mem_nil, or_false, forall_eq_or_imp, forall_eq, List.length_replicate,
            List.length_cons, List.length_nil]; omega) (State.performX_xclr h.order hst hi _)
    have hline : s'.bytes o.key 128 = (s.clearAcc o.key o.acc).bytes o.key 128 := State.bytes_of_mem hmem _ _
    refine ⟨s', he, hout, hop, ?_⟩
    rw [hline]
    exact ⟨State.clearAcc_accValue_same hm _ hacc, fun k hk hne => State.clearAcc_accValue_other _ hacc hk hne,
      State.clearAcc_xst hm _ hacc⟩
  · obtain ⟨s', he, hout, hop, hmem⟩ := h.xaddAtSlice_puts (by simp) (State.performX_xclrLine h.order hst hi _)
    exact ⟨s', he, hout, hop, (State.bytes_of_mem hmem _ _).trans (State.put_bytes_same hm _ List.length_replicate)⟩
  · rw [← hteam, ← hthr, ← hid] at h ⊢
    obtain ⟨hmem, hop⟩ := h.performXread q hst hp
    refine ⟨_, _, h.exec_flaggedCompletion.trans (by rw [State.performOp, hi]), hmem, hop, fun hfin => ?_, fun hnan => ?_⟩
    · rw [xreadVal_finite hfin]
    · rw [xreadVal_nan hnan]
      exact ⟨rfl, rfl⟩

end Sys2Proof.Machine
